-- ==== Sys2Proof/Word.lean ====
section
/-! DEFINITION. Words, bytes, little-endian joining and splitting, and tables kept as sorted lists of key and value
(spec 00 R3 to R6). -/

namespace Sys2Proof

/-- A 64-bit register or payload word. -/
abbrev Word := BitVec 64

/-- A byte of memory. -/
abbrev Byte := BitVec 8

/-- A 32-bit instruction word. -/
abbrev Code := BitVec 32

/-- A table from numbers to values, as pairs with rising keys. -/
abbrev Tbl (α : Type) := List (Nat × α)

/-- The value at key `k`, if the table has one. -/
def Tbl.find {α : Type} : Tbl α → Nat → Option α
  | [], _ => none
  | (j, v) :: t, k => if j = k then some v else Tbl.find t k

/-- The value at key `k`, or `d` where the table has none. -/
def Tbl.getD {α : Type} (t : Tbl α) (k : Nat) (d : α) : α :=
  (Tbl.find t k).getD d

/-- The table with `v` at key `k`, keys rising. -/
def Tbl.put {α : Type} : Tbl α → Nat → α → Tbl α
  | [], k, v => [(k, v)]
  | (j, w) :: t, k, v =>
    if k < j then (k, v) :: (j, w) :: t
    else if j = k then (k, v) :: t
    else (j, w) :: Tbl.put t k v

/-- The table without key `k`. -/
def Tbl.del {α : Type} : Tbl α → Nat → Tbl α
  | [], _ => []
  | (j, w) :: t, k => if j = k then Tbl.del t k else (j, w) :: Tbl.del t k

/-- The keys of a table. -/
def Tbl.keys {α : Type} (t : Tbl α) : List Nat := t.map Prod.fst

/-- The values of a table. -/
def Tbl.vals {α : Type} (t : Tbl α) : List α := t.map Prod.snd

/-- `n mod 2^w` as a word of `w` bits. -/
abbrev bv (w n : Nat) : BitVec w := BitVec.ofNat w n

/-- Element `i` of a list replaced by `v`; a list too short stays as it is. -/
def setAt {α : Type} : List α → Nat → α → List α
  | [], _, _ => []
  | _ :: t, 0, v => v :: t
  | a :: t, i + 1, v => a :: setAt t i v

end Sys2Proof
end

