-- ==== Sys2Proof/Syntax.lean ====
section
/-! DEFINITION. The steps of the machine: one constructor for each row of the opcode table, and the data
that steps without an instruction word carry (spec 03 R62, R65, R75, R78, R79; 95). -/

namespace Sys2Proof

/-- The agent whose instruction a step runs: a task core (by module grove number), a twig context of a cell
(by 16 × grove + cell), a twig context of a matrix element (by grove), or the debug slot of a cell (R412). -/
inductive Agent where
  | core (grove : Nat)
  | twig (cell ctx : Nat)
  | mx (grove ctx : Nat)
  | debug (cell : Nat)
deriving DecidableEq, Repr

/-- A token: the header of R75 field by field, its payload words, and the progress item it carries (R274),
as scope and time slot. `words` is the header's WORDS field; `rsvd` is header bits [127:107]. -/
structure Token where
  dest : BitVec 24
  colour : BitVec 12
  iter : BitVec 16
  seq : BitVec 8
  kind : Nat
  words : Nat
  null : Bool
  prio : Nat
  unord : Bool
  oseq : Nat
  opred : Nat
  osucc : Nat
  rsvd : Nat
  payload : List Word
  item : Option (Nat × Nat)
  req : Option (Nat × Nat)
deriving DecidableEq, Repr

/-- The firing a cell chooses: the cell (16 × grove + cell), the node index, the tag of the instance, and the
number of its first matching-store entry (which tells one-port instances of one tag apart, R85). -/
structure Fire where
  cell : Nat
  node : Nat
  colour : BitVec 12
  iter : BitVec 16
  entry : Nat
deriving DecidableEq, Repr

/-- A node record of a graph image (R62), with the place it is loaded into. -/
structure ImgNode where
  lcell : Nat
  ctx : Nat
  node : Nat
  record : BitVec 96
deriving DecidableEq, Repr

/-- A twig block of an image: header and instruction words at an even word address (R73); `mx` for a block of
the matrix element of the grove that holds the logical cell (R254). -/
structure ImgTwig where
  lcell : Nat
  mx : Bool
  addr : Nat
  code : List Code
deriving DecidableEq, Repr

/-- A handler-table entry of an image (R254). -/
structure ImgHandler where
  lcell : Nat
  ttag : Nat
  entry : Word
deriving DecidableEq, Repr

/-- A shape record of an image (R184), 64 bytes, byte 0 in bits [7:0]. -/
structure ImgShape where
  lcell : Nat
  index : Nat
  record : BitVec 512
deriving DecidableEq, Repr

/-- A buffer-table entry of an image (R236): words +0, +8 and +24. -/
structure ImgHandle where
  lcell : Nat
  handle : Nat
  w0 : Word
  w8 : Word
  w24 : Word
deriving DecidableEq, Repr

/-- A glade declaration of an image (R376). -/
structure ImgGlade where
  lcell : Nat
  glade : Nat
  handle : Nat
  slotsz : Nat
  nslot : Nat
  offset : Nat
  ab : Nat
  senders : List (Nat × Nat)
deriving DecidableEq, Repr

/-- A link-plan entry (R342); `role` 0 sends, 1 receives. -/
structure LinkEntry where
  port : Nat
  group : Nat
  role : Nat
  peer : Nat
  ptag : BitVec 32
deriving DecidableEq, Repr

/-- A tile statement of an image (R339). -/
structure ImgTile where
  id : Nat
  base : Nat
  size : Nat
deriving DecidableEq, Repr

/-- A graph image (R19), as the host hands it to a graph load; `groves` and `held` are the grove count and the held-colour
count it asks for (R438). -/
structure Image where
  graphId : BitVec 32
  groves : Nat
  held : Nat
  nodes : List ImgNode
  twigs : List ImgTwig
  handlers : List ImgHandler
  code : List Code
  susp : List (Nat × BitVec 32)
  supBase : Option Nat
  shapes : List ImgShape
  timeShapes : List (Nat × Word)
  fbinds : List (Nat × Nat)
  colls : List (Nat × BitVec 512)
  readers : List (Nat × Nat)
  handles : List ImgHandle
  glades : List ImgGlade
  links : List LinkEntry
  tiles : List ImgTile
deriving DecidableEq, Repr

/-- A remote request as it travels (R233, R353, R355, R370): `op` 0 load, 1 store, 2 atomic, 3 invoke; 4 and 5 are an
engine's read and write of a physical address, whose source agent is 8 × grove + context. -/
structure RemoteReq where
  target : Nat
  source : Nat
  srcCell : Bool
  srcAgent : Nat
  ident : Nat
  op : Nat
  amo : Nat
  type : Nat
  asid : Nat
  super : Bool
  addr : Nat
  size : Nat
  data : List Byte
  entry : Nat
  seq : BitVec 8
deriving DecidableEq, Repr

/-- What returns for a remote request of this module: a credit for the request slot, a response with its bytes,
or the news that the request was discarded (with the fault code) or faulted at the target. -/
inductive RespKind where
  | credit
  | answer (bytes : List Byte)
  | discarded (code : Nat)
  | faulted (code : Nat)
deriving DecidableEq, Repr

structure RemoteResp where
  target : Nat
  ident : Nat
  kind : RespKind
deriving DecidableEq, Repr

/-- A glade reservation as it travels (R369, R370); `source` is the sender module, `grove` and `chan` say
where the grant word goes. -/
structure Reservation where
  target : Nat
  source : Nat
  srcGrove : Nat
  chan : Nat
  grove : Nat
  glade : Nat
  phase : Nat
  count : Nat
  ident : Nat
deriving DecidableEq, Repr

/-- A GSEND packet (R371): `ident` numbers the packet, `feed` the GSEND at its sender; `via` is the port and lane group it takes, none for the message lane group. -/
structure GladePacket where
  target : Nat
  source : Nat
  ident : Nat
  feed : Nat
  via : Option (Nat × Nat)
  grove : Nat
  glade : Nat
  slot : Nat
  phase : Nat
  offset : Nat
  total : Nat
  position : Nat
  bytes : List Byte
deriving DecidableEq, Repr

/-- A message that leaves the module: to another module, or to the host: `hostData`, what a host window answers a read with
(R423), and `loadReport`, what a graph load that is rejected reports (R20, R380; log entry 85). `grant` tells a peer, when a
link to it comes up, the request slots that this module grants it (R347). -/
inductive Msg where
  | request (r : RemoteReq)
  | response (target : Nat) (r : RemoteResp)
  | resume (target source : Nat) (isCell : Bool) (agent : Nat) (discard : Bool)
  | reserve (r : Reservation)
  | packet (p : GladePacket)
  | keepAlive (target source grove glade slot : Nat)
  | hold (target source : Nat) (sending : Bool) (grove glade slot : Nat)
  | gladeResume (target source : Nat) (sending : Bool) (grove glade slot newModule newGrove : Nat)
  | bindMsg (port group role : Nat) (ptag : BitVec 32)
  | groupHold (port group : Nat) (held : Bool)
  | words (port group : Nat) (ws : List Word)
  | credit (port group n : Nat)
  | hostData (window : Nat) (value : Word)
  | loadReport (region code : Nat)
  | grant (port pool : Nat)
deriving DecidableEq, Repr

/-- What a stall watchdog names (R35 and the rules that cite it). -/
inductive Stalled where
  | core (grove : Nat)
  | twig (cell ctx : Nat)
  | chain (cell colour iter : Nat)
  | join (cell node : Nat)
  | mcast (grove ctx : Nat)
  | tag (grove acc : Nat)
  | store (grove : Nat)
  | pass (region arr : Nat)
  | group (region grove : Nat)
  | stage (region stage : Nat)
  | stream (isCell : Bool) (agent target : Nat)
  | feed (grove ctx : Nat)
  | channel (grove chan src desig since : Nat)
  | mxTwig (grove ctx : Nat)
  | node (cell node colour iter : Nat)
  | spawn (grove order : Nat)
deriving DecidableEq, Repr

/-- The steps of the machine, one constructor a row of the opcode table. Register fields are read as R69 and R70 give for
the agent that runs the step; a node's step is for the firing that the machine has chosen. Steps without data stand last. -/
inductive Instr where
  -- integer, format A (R126)
  | add (d a b : BitVec 5) (t g : BitVec 3)
  | sub (d a b : BitVec 5) (t g : BitVec 3)
  | mul (d a b : BitVec 5) (t g : BitVec 3)
  | mulh (d a b : BitVec 5) (t g : BitVec 3)
  | mulhu (d a b : BitVec 5) (t g : BitVec 3)
  | and (d a b : BitVec 5) (t g : BitVec 3)
  | or (d a b : BitVec 5) (t g : BitVec 3)
  | xor (d a b : BitVec 5) (t g : BitVec 3)
  | shl (d a b : BitVec 5) (t g : BitVec 3)
  | shr (d a b : BitVec 5) (t g : BitVec 3)
  | sra (d a b : BitVec 5) (t g : BitVec 3)
  | min (d a b : BitVec 5) (t g : BitVec 3)
  | max (d a b : BitVec 5) (t g : BitVec 3)
  | minu (d a b : BitVec 5) (t g : BitVec 3)
  | maxu (d a b : BitVec 5) (t g : BitVec 3)
  | cmp (d a b : BitVec 5) (t c : BitVec 3)
  | sel (d a b : BitVec 5) (t g : BitVec 3)
  | clz (d a : BitVec 5) (t g : BitVec 3)
  | popc (d a : BitVec 5) (t g : BitVec 3)
  | sext (d a b : BitVec 5) (g : BitVec 3)
  -- division (R128)
  | div (d a b : BitVec 5) (t : BitVec 3)
  | divu (d a b : BitVec 5) (t : BitVec 3)
  | rem (d a b : BitVec 5) (t : BitVec 3)
  | remu (d a b : BitVec 5) (t : BitVec 3)
  -- scalar floating point (R130, R131)
  | fadd (d a b : BitVec 5) (t g : BitVec 3)
  | fsub (d a b : BitVec 5) (t g : BitVec 3)
  | fmul (d a b : BitVec 5) (t g : BitVec 3)
  | ffma (d a b : BitVec 5) (t g : BitVec 3)
  | fmin (d a b : BitVec 5) (t g : BitVec 3)
  | fmax (d a b : BitVec 5) (t g : BitVec 3)
  | fcmp (d a b : BitVec 5) (t c : BitVec 3)
  | fcvt (d a : BitVec 5) (dst src : BitVec 4)
  | frcp (d a : BitVec 5) (t g : BitVec 3)
  | fsqrt (d a : BitVec 5) (t g : BitVec 3)
  | fexp2 (d a : BitVec 5) (t g : BitVec 3)
  -- vectors (R133 to R136)
  | vadd (d a b : BitVec 5) (t g : BitVec 3)
  | vsub (d a b : BitVec 5) (t g : BitVec 3)
  | vmul (d a b : BitVec 5) (t g : BitVec 3)
  | vfma (d a b : BitVec 5) (t g : BitVec 3)
  | vmin (d a b : BitVec 5) (t g : BitVec 3)
  | vmax (d a b : BitVec 5) (t g : BitVec 3)
  | vcmp (d a b : BitVec 5) (t c : BitVec 3)
  | vsel (d a b : BitVec 5) (t g : BitVec 3)
  | vcvt (d a : BitVec 5) (dst src : BitVec 4)
  | vred (d a : BitVec 5) (t r : BitVec 3)
  | vshuf (d a b : BitVec 5) (t g : BitVec 3)
  | vbcast (d a : BitVec 5) (t g : BitVec 3)
  | vpack (d a b : BitVec 5) (t g : BitVec 3)
  | vunpk (d a : BitVec 5) (t g : BitVec 3)
  | vexp2 (d a : BitVec 5) (t g : BitVec 3)
  | vrcp (d a : BitVec 5) (t g : BitVec 3)
  -- immediates (R127)
  | addi (d a : BitVec 5) (i : BitVec 16)
  | andi (d a : BitVec 5) (i : BitVec 16)
  | ori (d a : BitVec 5) (i : BitVec 16)
  | xori (d a : BitVec 5) (i : BitVec 16)
  | shli (d a : BitVec 5) (n : BitVec 6)
  | shri (d a : BitVec 5) (n : BitVec 6)
  | srai (d a : BitVec 5) (n : BitVec 6)
  | cmpi (d a : BitVec 5) (c : BitVec 3) (i : BitVec 13)
  | lih (d a : BitVec 5) (i : BitVec 16)
  -- control (R137 to R140)
  | br (c : BitVec 5) (k : BitVec 3) (i : BitVec 18)
  | jal (c : BitVec 5) (i : BitVec 18)
  | jr (d a : BitVec 5) (i : BitVec 16)
  | loop (c : BitVec 5) (i : BitVec 18)
  -- loads and stores (R141 to R143)
  | ld (d b l : BitVec 5) (s : BitVec 2) (o : BitVec 9)
  | st (d b l : BitVec 5) (s : BitVec 2) (o : BitVec 9)
  | ldv (d b l : BitVec 5) (o : BitVec 9)
  | stv (d b l : BitVec 5) (o : BitVec 9)
  | twigCommit (who : Agent)
  -- atomics, fences and timelines (R207 to R210)
  | amo (d a b o : BitVec 5) (t : BitVec 3)
  | cas (d a b : BitVec 5) (t : BitVec 3)
  | fence (d : BitVec 5)
  | waittl (d a b : BitVec 5)
  | tlrd (d b : BitVec 5)
  -- mail and tasks (R154 to R161, R327)
  | send (d a : BitVec 5) (c : BitVec 6)
  | recv (d : BitVec 5) (c : BitVec 6)
  | spawn (d a b : BitVec 5)
  | yieldUntil (a : BitVec 5)
  | widf (d n : BitVec 5)
  | colr (d : BitVec 5)
  | launch (d a : BitVec 5)
  -- handles (R239)
  | hfill (d a : BitVec 5)
  | hfillTry (d a : BitVec 5)
  | hpost (a b : BitVec 5)
  | htake (d a : BitVec 5)
  | htakeTry (d a : BitVec 5)
  | hfree (a b : BitVec 5)
  | hwait (d a b : BitVec 5)
  | hstat (d a : BitVec 5) (w : BitVec 2)
  -- engines (R225 to R234, R371)
  | scopy (d e h : BitVec 5) (c : BitVec 3)
  | sfeed (d e h : BitVec 5) (c : BitVec 3)
  | sdrain (d e h : BitVec 5) (c : BitVec 3)
  | smcast (d e h : BitVec 5) (c : BitVec 3)
  | sgath (d e h : BitVec 5) (c : BitVec 3)
  | sscat (d e h : BitVec 5) (c : BitVec 3)
  | srowc (d e h : BitVec 5) (c : BitVec 3)
  | srowz (d e h : BitVec 5) (c : BitVec 3)
  | scanc (d h : BitVec 5) (c : BitVec 3)
  | gsend (d e h : BitVec 5) (c : BitVec 3)
  -- frontiers and readers (R286 to R289, R305)
  | frd (d k n : BitVec 5)
  | frdStat (d k : BitVec 5)
  | frdTime (d : BitVec 5)
  | fwait (d k b : BitVec 5)
  | fadv (d a b : BitVec 5)
  | ahold (d a b : BitVec 5)
  | arel (d a : BitVec 5)
  | acmp (d a : BitVec 5)
  -- residency (R337, R338)
  | resd (d a b : BitVec 5)
  | resdE0 (d a b : BitVec 5)
  | resdE1 (d a b : BitVec 5)
  | resw (a b : BitVec 5)
  | tilereg (d a b : BitVec 5)
  -- remote accesses (R352 to R354)
  | rld (d a b : BitVec 5)
  | rldB32 (d a b : BitVec 5)
  | rldB64 (d a b : BitVec 5)
  | rldB128 (d a b : BitVec 5)
  | rldDone (d : BitVec 5)
  | rst (d a b : BitVec 5)
  | rstB32 (d a b : BitVec 5)
  | rstB64 (d a b : BitVec 5)
  | rstB128 (d a b : BitVec 5)
  | ramo (d a b : BitVec 5) (t o : BitVec 3)
  -- glades (R370, R372)
  | grsv (d a b : BitVec 5)
  | abpost (d a b : BitVec 5)
  | abwait (d a : BitVec 5)
  | gclr (d a : BitVec 5)
  | gclrDone (d a : BitVec 5)
  -- matrix (R251 to R264)
  | mma (t : BitVec 6) (s : BitVec 8) (k : BitVec 4) (f : BitVec 3) (m : BitVec 5)
  | mldb (a b : BitVec 5) (f : BitVec 3)
  | mrd (d a b : BitVec 5) (f : BitVec 4)
  | mzero (a : BitVec 5)
  | mscl (a b : BitVec 5)
  | mstat (d a : BitVec 5)
  -- configuration (R393)
  | cfgwNode (a b : BitVec 5)
  | cfgwTwig (a b : BitVec 5)
  | cfgwTwigMx (a b : BitVec 5)
  | cfgwShape (a b : BitVec 5)
  | cfgwCtx (a b : BitVec 5)
  | nodeReconfigure (cell : Nat)
  | twigStoreWrite (mx : Bool) (unit : Nat)
  -- system (R388 to R399, R405)
  | trap (n : BitVec 5)
  | srd (d n : BitVec 5)
  | swr (a n : BitVec 5)
  | tlbinv (a b : BitVec 5)
  | tlbinvAsid (a : BitVec 5)
  | halt (a : BitVec 5)
  | haltRun (a : BitVec 5)
  | freeze (d a b : BitVec 5) (c : BitVec 3)
  | thaw (d a b : BitVec 5) (c : BitVec 3)
  | cfgflip (a b : BitVec 5)
  | ckill (a : BitVec 5)
  | purgeWaveComplete (region : Nat)
  | dcapd (d a b : BitVec 5)
  | dcapr (d a : BitVec 5)
  -- loading
  | graphLoad (region : Nat) (img : Image)
  | linkPlanBind (port group role peer : Nat) (ptag : BitVec 32)
  | tokenArrival (cell : Nat)
  | overflowRefill (cell : Nat)
  | colourGrant (region : Nat)
  | nagElement (cell gen : Nat)
  | orderedRequestPerform (cell req : Nat)
  | invokeAccept (r : RemoteReq)
  | nlrx (cell node : Nat)
  | dsrc (cell node : Nat)
  | doutIdlePost (cell node : Nat)
  | dconFlush (cell node : Nat)
  | dprobeWatch (cell node : Nat)
  -- frontiers and passes
  | frontierRecompute (region scope : Nat)
  | frontierDelivery (region slot : Nat) (isCell : Bool) (unit : Nat)
  | compactionFrontierRecompute (region arr : Nat)
  | pass (region arr : Nat)
  -- task cores
  | taskSchedule (grove : Nat)
  | forcedSwitch (grove : Nat)
  | cycleWaitExpiry (grove slot : Nat)
  | spillReadback (region grove : Nat)
  | mailDelivery (grove chan : Nat) (value : Word)
  | inboundRegisterWrite (grove : Nat)
  | stallWatchdog (what : Stalled)
  | colourWatchdog (region : Nat)
  -- launches and dispatch
  | balanceInterval (region : Nat)
  | contextChangeComplete (cell : Nat)
  | launchStart (region : Nat)
  | initialPush (region : Nat)
  | dispatch (region die : Nat)
  | levelTick (region : Nat)
  | launchEnd (region : Nat)
  | residencyNotify (region grove : Nat)
  | translationWalk (asid vpn : Nat)
  | mapRegister (cell k : Nat) (value : Word)
  | mapUnmap (cell k : Nat) (value : Word)
  -- engines
  | engineOpStart (grove ctx : Nat)
  | boundFiring (grove ctx : Nat)
  | smcastFiring (grove ctx : Nat)
  | engineOpComplete (grove ctx : Nat)
  | drainPortWrite (grove ctx : Nat) (value : Word)
  | handleReinit (grove handle : Nat) (second : Bool) (value : Word)
  -- the matrix array
  | packetArrival (grove : Nat)
  | kstep (grove : Nat)
  | mrdServe (grove tag : Nat)
  | mzeroServe (grove tag : Nat)
  -- links and remote requests
  | linkUp (port peer pool : Nat)
  | linkLost (port : Nat)
  | remoteRequestArrival (r : RemoteReq)
  | remoteResponse (r : RemoteResp)
  | streamClose (isCell : Bool) (agent target : Nat)
  | reservationArrival (r : Reservation)
  | reservationGrant (grove glade : Nat)
  | gladePacketArrival (p : GladePacket)
  | gladeKeepalive (grove glade slot : Nat)
  | gladeRevocation (grove glade slot : Nat)
  | gladeHold (sending : Bool) (module grove glade slot : Nat)
  | gladeResume (sending : Bool) (module grove glade slot newModule newGrove : Nat)
  -- faults and releases
  | faultRecordPost (region : Nat)
  | faultqWrite (region : Nat) (value : Word)
  | freleaseRetry (region : Nat) (fseq : BitVec 32)
  | freleaseDiscard (region : Nat) (fseq : BitVec 32)
  | rsresumeRetry (isCell : Bool) (agent target : Nat)
  | rsresumeDiscard (isCell : Bool) (agent target : Nat)
  | pjdet (region : Nat) (value : Word)
  | freezeWave (region : Nat)
  | thawComplete (region : Nat)
  | fcmdResumeRetry (region : Nat) (fseq : BitVec 32)
  | fcmdResumeDiscard (region : Nat) (fseq : BitVec 32)
  | fcmdStep (region : Nat) (fseq : BitVec 32)
  | fcmdStop (region : Nat)
  | fcmdList (region : Nat)
  | stopComplete (region : Nat)
  -- host, power and wear
  | hqtailWrite (value : BitVec 32)
  | hqbaseWrite (value : Word)
  | throttleChange (supply power therm : Bool) (ratio : BitVec 16)
  | wearUpdate (eolDays : BitVec 16) (wgrove : BitVec 9) (wpct : BitVec 8)
  | registerWrite (addr : Nat) (value : Word)
  | programTimeAdvance (grove : Nat)
  | shadowLatchFull (grove : Nat)
  | mapRegistrationComplete (cell k : Nat)
  | mapUnmapComplete (cell k : Nat)
  | hostWindowAccess (window : Nat) (write : Bool) (offset size : Nat) (value : Word)
  | linkFlitRetry (port : Nat)
  | messageForward (target hops : Nat) (msg : Msg)
  | peerLostDeclared (target : Nat)
  -- node firings: the firing is the one the machine has chosen
  | nadd
  | nsub
  | nmul
  | nmin
  | nmax
  | nband
  | nbor
  | nbxor
  | nshl
  | nshr
  | ncmp
  | nsel
  | nfma
  | ncvt
  | nsteer
  | nmerge
  | ncopy
  | nconst
  | ngate
  | nsink
  | niter
  | ntagset
  | ncolour
  | nreturn
  | ntask
  | ntwig
  | nag
  | nld
  | nst
  | nown
  | nred
  | natom
  | ninvokeCall
  | ninvokeReturn
  | nfork
  | npjoin
  | nltx
  | dout
  | darr
  | djoin
  | dred
  | dcon
  | dneg
  | denter
  | dfeed
  | dleave
  | dprobe
  -- the rest that carries no data
  | exit
  | yield
  | eret
  | tlbinvAll
  | nop
  | moduleReset
  | timeRebase
  | snaptrig
  | hostQueueLaunch
  | hostQueueRelease
  | attreq
  | illegalInstruction
deriving DecidableEq, Repr

end Sys2Proof
end

