-- ==== Sys2Proof/Decode.lean ====
section
/-! DEFINITION. Instruction words: the six formats, the decoder and the encoder (spec 03 R65, R66, R72, R78). The
decoder tells instructions by the bits the opcode map fixes; values of a variable field that the rules reserve are
found by `Instr.fieldsOk` when the instruction executes (R80). -/

namespace Sys2Proof

/-- Why a word is not an instruction (R80): a reserved major opcode, a reserved sub-op or op, or a reserved value in a
field that tells instructions apart. -/
inductive Reserved where
  | major
  | subop
  | field
deriving DecidableEq, Repr

/-- Field [31:26], major opcode (R65). -/
def fMajor (w : Code) : BitVec 6 := w.extractLsb' 26 6

/-- Field [25:21], d of formats A, I and E, c of format B, data of format M (R65). -/
def fD (w : Code) : BitVec 5 := w.extractLsb' 21 5

/-- Field [20:16], a, base or desc (R65). -/
def fA (w : Code) : BitVec 5 := w.extractLsb' 16 5

/-- Field [15:11], b, LSID or hp (R65). -/
def fB (w : Code) : BitVec 5 := w.extractLsb' 11 5

/-- Field [10:6], sub-op of format A (R65). -/
def fSub (w : Code) : BitVec 5 := w.extractLsb' 6 5

/-- Field [5:3], type of format A (R65). -/
def fT (w : Code) : BitVec 3 := w.extractLsb' 3 3

/-- Field [2:0], flags of format A (R65). -/
def fG (w : Code) : BitVec 3 := w.extractLsb' 0 3

/-- Field [15:0], imm16 (R65). -/
def fImm (w : Code) : BitVec 16 := w.extractLsb' 0 16

/-- Field [5:2], format code of FCVT, VCVT and MRD (R65). -/
def fCode (w : Code) : BitVec 4 := w.extractLsb' 2 4

/-- Field [1:0], the two bits below a format code (R65). -/
def fLow (w : Code) : BitVec 2 := w.extractLsb' 0 2

/-- Field [20:18], cond of format B (R65). -/
def fCond (w : Code) : BitVec 3 := w.extractLsb' 18 3

/-- Field [17:0], disp18 (R65). -/
def fDisp (w : Code) : BitVec 18 := w.extractLsb' 0 18

/-- Field [10:9], size of format M (R65). -/
def fSize (w : Code) : BitVec 2 := w.extractLsb' 9 2

/-- Field [8:0], offset9 (R65). -/
def fOff (w : Code) : BitVec 9 := w.extractLsb' 0 9

/-- Field [10:8], context of format E (R65). -/
def fCtx (w : Code) : BitVec 3 := w.extractLsb' 8 3

/-- Field [7:0], op of format E (R65). -/
def fOp (w : Code) : BitVec 8 := w.extractLsb' 0 8

/-- Field [25:20], tag of format X (R65). -/
def fTag (w : Code) : BitVec 6 := w.extractLsb' 20 6

/-- Field [19:12], seq of format X (R65). -/
def fSeq (w : Code) : BitVec 8 := w.extractLsb' 12 8

/-- Field [11:8], kdep (R65). -/
def fKdep (w : Code) : BitVec 4 := w.extractLsb' 8 4

/-- Field [7:5], afmt (R65). -/
def fAfmt (w : Code) : BitVec 3 := w.extractLsb' 5 3

/-- Field [4:0], mrows (R65). -/
def fRows (w : Code) : BitVec 5 := w.extractLsb' 0 5

/-- A word of format A (R65). -/
def packA (major : BitVec 6) (d : BitVec 5) (a : BitVec 5) (b : BitVec 5) (sub : BitVec 5) (t : BitVec 3) (g : BitVec 3) : Code :=
  (major.setWidth 32 <<< 26) ||| (d.setWidth 32 <<< 21) ||| (a.setWidth 32 <<< 16) ||| (b.setWidth 32 <<< 11) ||| (sub.setWidth 32 <<< 6) ||| (t.setWidth 32 <<< 3) ||| g.setWidth 32

/-- A word of format F (R65), which is A with a 4-bit format code in [5:2] (R72). -/
def packF (major : BitVec 6) (d : BitVec 5) (a : BitVec 5) (b : BitVec 5) (sub : BitVec 5) (code : BitVec 4) (low : BitVec 2) : Code :=
  (major.setWidth 32 <<< 26) ||| (d.setWidth 32 <<< 21) ||| (a.setWidth 32 <<< 16) ||| (b.setWidth 32 <<< 11) ||| (sub.setWidth 32 <<< 6) ||| (code.setWidth 32 <<< 2) ||| low.setWidth 32

/-- A word of format I (R65). -/
def packI (major : BitVec 6) (d : BitVec 5) (a : BitVec 5) (imm : BitVec 16) : Code :=
  (major.setWidth 32 <<< 26) ||| (d.setWidth 32 <<< 21) ||| (a.setWidth 32 <<< 16) ||| imm.setWidth 32

/-- A word of format B (R65). -/
def packB (major : BitVec 6) (d : BitVec 5) (cond : BitVec 3) (disp : BitVec 18) : Code :=
  (major.setWidth 32 <<< 26) ||| (d.setWidth 32 <<< 21) ||| (cond.setWidth 32 <<< 18) ||| disp.setWidth 32

/-- A word of format M (R65). -/
def packM (major : BitVec 6) (d : BitVec 5) (a : BitVec 5) (b : BitVec 5) (size : BitVec 2) (off : BitVec 9) : Code :=
  (major.setWidth 32 <<< 26) ||| (d.setWidth 32 <<< 21) ||| (a.setWidth 32 <<< 16) ||| (b.setWidth 32 <<< 11) ||| (size.setWidth 32 <<< 9) ||| off.setWidth 32

/-- A word of format E (R65). -/
def packE (major : BitVec 6) (d : BitVec 5) (a : BitVec 5) (b : BitVec 5) (ctx : BitVec 3) (op : BitVec 8) : Code :=
  (major.setWidth 32 <<< 26) ||| (d.setWidth 32 <<< 21) ||| (a.setWidth 32 <<< 16) ||| (b.setWidth 32 <<< 11) ||| (ctx.setWidth 32 <<< 8) ||| op.setWidth 32

/-- A word of format X (R65). -/
def packX (major : BitVec 6) (tag : BitVec 6) (seq : BitVec 8) (kdep : BitVec 4) (afmt : BitVec 3) (rows : BitVec 5) : Code :=
  (major.setWidth 32 <<< 26) ||| (tag.setWidth 32 <<< 20) ||| (seq.setWidth 32 <<< 12) ||| (kdep.setWidth 32 <<< 8) ||| (afmt.setWidth 32 <<< 5) ||| rows.setWidth 32

/-- Major 0x0 (R78). -/
def decodeSys (w : Code) : Except Reserved Instr :=
  match (fSub w).toNat with
  | 0 =>
    if fD w = 0 ∧ fA w = 0 ∧ fT w = 0 ∧ fG w = 0 then .ok (.trap (fB w))
    else .error .field
  | 1 =>
    if fD w = 0 ∧ fA w = 0 ∧ fB w = 0 ∧ fT w = 0 ∧ fG w = 0 then .ok (.eret)
    else .error .field
  | 2 =>
    if fA w = 0 ∧ fT w = 0 ∧ fG w = 0 then .ok (.srd (fD w) (fB w))
    else .error .field
  | 3 =>
    if fD w = 0 ∧ fT w = 0 ∧ fG w = 0 then .ok (.swr (fA w) (fB w))
    else .error .field
  | 4 =>
    if fD w = 0 ∧ fT w = 0 ∧ fG w = 0 then .ok (.tlbinv (fA w) (fB w))
    else if fD w = 0 ∧ fB w = 0 ∧ fT w = 1 ∧ fG w = 0 then .ok (.tlbinvAsid (fA w))
    else if fD w = 0 ∧ fA w = 0 ∧ fB w = 0 ∧ fT w = 2 ∧ fG w = 0 then .ok (.tlbinvAll)
    else .error .field
  | 5 =>
    if fD w = 0 ∧ fB w = 0 ∧ fT w = 0 ∧ fG w = 0 then .ok (.halt (fA w))
    else if fD w = 0 ∧ fB w = 0 ∧ fT w = 1 ∧ fG w = 0 then .ok (.haltRun (fA w))
    else .error .field
  | 6 =>
    if fD w = 0 ∧ fA w = 0 ∧ fB w = 0 ∧ fT w = 0 ∧ fG w = 0 then .ok (.nop)
    else .error .field
  | 7 =>
    if fG w = 0 then .ok (.freeze (fD w) (fA w) (fB w) (fT w))
    else .error .field
  | 8 =>
    if fG w = 0 then .ok (.thaw (fD w) (fA w) (fB w) (fT w))
    else .error .field
  | 9 =>
    if fD w = 0 ∧ fT w = 0 ∧ fG w = 0 then .ok (.cfgflip (fA w) (fB w))
    else .error .field
  | 10 =>
    if fD w = 0 ∧ fB w = 0 ∧ fT w = 0 ∧ fG w = 0 then .ok (.ckill (fA w))
    else .error .field
  | 11 =>
    if fT w = 0 ∧ fG w = 0 then .ok (.dcapd (fD w) (fA w) (fB w))
    else .error .field
  | 12 =>
    if fB w = 0 ∧ fT w = 0 ∧ fG w = 0 then .ok (.dcapr (fD w) (fA w))
    else .error .field
  | _ => .error .subop

/-- Major 0x1 (R78). -/
def decodeInt (w : Code) : Except Reserved Instr :=
  match (fSub w).toNat with
  | 0 =>
    .ok (.add (fD w) (fA w) (fB w) (fT w) (fG w))
  | 1 =>
    .ok (.sub (fD w) (fA w) (fB w) (fT w) (fG w))
  | 2 =>
    .ok (.mul (fD w) (fA w) (fB w) (fT w) (fG w))
  | 3 =>
    .ok (.mulh (fD w) (fA w) (fB w) (fT w) (fG w))
  | 4 =>
    .ok (.mulhu (fD w) (fA w) (fB w) (fT w) (fG w))
  | 5 =>
    .ok (.and (fD w) (fA w) (fB w) (fT w) (fG w))
  | 6 =>
    .ok (.or (fD w) (fA w) (fB w) (fT w) (fG w))
  | 7 =>
    .ok (.xor (fD w) (fA w) (fB w) (fT w) (fG w))
  | 8 =>
    .ok (.shl (fD w) (fA w) (fB w) (fT w) (fG w))
  | 9 =>
    .ok (.shr (fD w) (fA w) (fB w) (fT w) (fG w))
  | 10 =>
    .ok (.sra (fD w) (fA w) (fB w) (fT w) (fG w))
  | 11 =>
    .ok (.min (fD w) (fA w) (fB w) (fT w) (fG w))
  | 12 =>
    .ok (.max (fD w) (fA w) (fB w) (fT w) (fG w))
  | 13 =>
    .ok (.minu (fD w) (fA w) (fB w) (fT w) (fG w))
  | 14 =>
    .ok (.maxu (fD w) (fA w) (fB w) (fT w) (fG w))
  | 15 =>
    .ok (.cmp (fD w) (fA w) (fB w) (fT w) (fG w))
  | 16 =>
    .ok (.sel (fD w) (fA w) (fB w) (fT w) (fG w))
  | 17 =>
    if fB w = 0 then .ok (.clz (fD w) (fA w) (fT w) (fG w))
    else .error .field
  | 18 =>
    if fB w = 0 then .ok (.popc (fD w) (fA w) (fT w) (fG w))
    else .error .field
  | 19 =>
    if fT w = 0 then .ok (.sext (fD w) (fA w) (fB w) (fG w))
    else .error .field
  | _ => .error .subop

/-- Major 0x2 (R78). -/
def decodeDiv (w : Code) : Except Reserved Instr :=
  match (fSub w).toNat with
  | 0 =>
    if fG w = 0 then .ok (.div (fD w) (fA w) (fB w) (fT w))
    else .error .field
  | 1 =>
    if fG w = 0 then .ok (.divu (fD w) (fA w) (fB w) (fT w))
    else .error .field
  | 2 =>
    if fG w = 0 then .ok (.rem (fD w) (fA w) (fB w) (fT w))
    else .error .field
  | 3 =>
    if fG w = 0 then .ok (.remu (fD w) (fA w) (fB w) (fT w))
    else .error .field
  | _ => .error .subop

/-- Major 0x3 (R78). -/
def decodeFp (w : Code) : Except Reserved Instr :=
  match (fSub w).toNat with
  | 0 =>
    .ok (.fadd (fD w) (fA w) (fB w) (fT w) (fG w))
  | 1 =>
    .ok (.fsub (fD w) (fA w) (fB w) (fT w) (fG w))
  | 2 =>
    .ok (.fmul (fD w) (fA w) (fB w) (fT w) (fG w))
  | 3 =>
    .ok (.ffma (fD w) (fA w) (fB w) (fT w) (fG w))
  | 4 =>
    .ok (.fmin (fD w) (fA w) (fB w) (fT w) (fG w))
  | 5 =>
    .ok (.fmax (fD w) (fA w) (fB w) (fT w) (fG w))
  | 6 =>
    .ok (.fcmp (fD w) (fA w) (fB w) (fT w) (fG w))
  | 7 =>
    if (fB w).extractLsb' 4 1 = 0 ∧ fLow w = 0 then .ok (.fcvt (fD w) (fA w) ((fB w).extractLsb' 0 4) (fCode w))
    else .error .field
  | 8 =>
    if fB w = 0 then .ok (.frcp (fD w) (fA w) (fT w) (fG w))
    else .error .field
  | 9 =>
    if fB w = 0 then .ok (.fsqrt (fD w) (fA w) (fT w) (fG w))
    else .error .field
  | 10 =>
    if fB w = 0 then .ok (.fexp2 (fD w) (fA w) (fT w) (fG w))
    else .error .field
  | _ => .error .subop

/-- Major 0x4 (R78). -/
def decodeVec (w : Code) : Except Reserved Instr :=
  match (fSub w).toNat with
  | 0 =>
    .ok (.vadd (fD w) (fA w) (fB w) (fT w) (fG w))
  | 1 =>
    .ok (.vsub (fD w) (fA w) (fB w) (fT w) (fG w))
  | 2 =>
    .ok (.vmul (fD w) (fA w) (fB w) (fT w) (fG w))
  | 3 =>
    .ok (.vfma (fD w) (fA w) (fB w) (fT w) (fG w))
  | 4 =>
    .ok (.vmin (fD w) (fA w) (fB w) (fT w) (fG w))
  | 5 =>
    .ok (.vmax (fD w) (fA w) (fB w) (fT w) (fG w))
  | 6 =>
    .ok (.vcmp (fD w) (fA w) (fB w) (fT w) (fG w))
  | 7 =>
    .ok (.vsel (fD w) (fA w) (fB w) (fT w) (fG w))
  | 8 =>
    if (fB w).extractLsb' 4 1 = 0 ∧ fLow w = 0 then .ok (.vcvt (fD w) (fA w) ((fB w).extractLsb' 0 4) (fCode w))
    else .error .field
  | 9 =>
    if fB w = 0 then .ok (.vred (fD w) (fA w) (fT w) (fG w))
    else .error .field
  | 10 =>
    .ok (.vshuf (fD w) (fA w) (fB w) (fT w) (fG w))
  | 11 =>
    if fB w = 0 then .ok (.vbcast (fD w) (fA w) (fT w) (fG w))
    else .error .field
  | 12 =>
    .ok (.vpack (fD w) (fA w) (fB w) (fT w) (fG w))
  | 13 =>
    if fB w = 0 then .ok (.vunpk (fD w) (fA w) (fT w) (fG w))
    else .error .field
  | 14 =>
    if fB w = 0 then .ok (.vexp2 (fD w) (fA w) (fT w) (fG w))
    else .error .field
  | 15 =>
    if fB w = 0 then .ok (.vrcp (fD w) (fA w) (fT w) (fG w))
    else .error .field
  | _ => .error .subop

/-- Major 0x14 (R78). -/
def decodeShift (w : Code) : Except Reserved Instr :=
  if (fImm w).extractLsb' 6 10 = 0 then .ok (.shli (fD w) (fA w) ((fImm w).extractLsb' 0 6))
  else if (fImm w).extractLsb' 6 10 = 1 then .ok (.shri (fD w) (fA w) ((fImm w).extractLsb' 0 6))
  else if (fImm w).extractLsb' 6 10 = 2 then .ok (.srai (fD w) (fA w) ((fImm w).extractLsb' 0 6))
  else .error .field

/-- Major 0x24 (R78). -/
def decodeAmo (w : Code) : Except Reserved Instr :=
  if fG w = 0 then .ok (.amo (fD w) (fA w) (fB w) (fSub w) (fT w))
  else .error .field

/-- Major 0x25 (R78). -/
def decodeCas (w : Code) : Except Reserved Instr :=
  match (fSub w).toNat with
  | 0 =>
    if fG w = 0 then .ok (.cas (fD w) (fA w) (fB w) (fT w))
    else .error .field
  | _ => .error .subop

/-- Major 0x26 (R78). -/
def decodeOrd (w : Code) : Except Reserved Instr :=
  match (fSub w).toNat with
  | 0 =>
    if fA w = 0 ∧ fB w = 0 ∧ fT w = 0 ∧ fG w = 0 then .ok (.fence (fD w))
    else .error .field
  | 1 =>
    if fT w = 0 ∧ fG w = 0 then .ok (.waittl (fD w) (fA w) (fB w))
    else .error .field
  | 2 =>
    if fA w = 0 ∧ fT w = 0 ∧ fG w = 0 then .ok (.tlrd (fD w) (fB w))
    else .error .field
  | _ => .error .subop

/-- Major 0x2a (R78). -/
def decodeTask (w : Code) : Except Reserved Instr :=
  match (fSub w).toNat with
  | 0 =>
    if fT w = 0 ∧ fG w = 0 then .ok (.spawn (fD w) (fA w) (fB w))
    else .error .field
  | 1 =>
    if fD w = 0 ∧ fA w = 0 ∧ fB w = 0 ∧ fT w = 0 ∧ fG w = 0 then .ok (.yield)
    else if fD w = 0 ∧ fB w = 0 ∧ fT w = 1 ∧ fG w = 0 then .ok (.yieldUntil (fA w))
    else .error .field
  | 2 =>
    if fA w = 0 ∧ fT w = 0 ∧ fG w = 0 then .ok (.widf (fD w) (fB w))
    else .error .field
  | 3 =>
    if fA w = 0 ∧ fB w = 0 ∧ fT w = 0 ∧ fG w = 0 then .ok (.colr (fD w))
    else .error .field
  | 4 =>
    if fB w = 0 ∧ fT w = 0 ∧ fG w = 0 then .ok (.launch (fD w) (fA w))
    else .error .field
  | _ => .error .subop

/-- Major 0x2b (R78). -/
def decodeHbuf (w : Code) : Except Reserved Instr :=
  match (fSub w).toNat with
  | 0 =>
    if fB w = 0 ∧ fT w = 0 ∧ fG w = 0 then .ok (.hfill (fD w) (fA w))
    else if fB w = 0 ∧ fT w = 1 ∧ fG w = 0 then .ok (.hfillTry (fD w) (fA w))
    else .error .field
  | 1 =>
    if fD w = 0 ∧ fT w = 0 ∧ fG w = 0 then .ok (.hpost (fA w) (fB w))
    else .error .field
  | 2 =>
    if fB w = 0 ∧ fT w = 0 ∧ fG w = 0 then .ok (.htake (fD w) (fA w))
    else if fB w = 0 ∧ fT w = 1 ∧ fG w = 0 then .ok (.htakeTry (fD w) (fA w))
    else .error .field
  | 3 =>
    if fD w = 0 ∧ fT w = 0 ∧ fG w = 0 then .ok (.hfree (fA w) (fB w))
    else .error .field
  | 4 =>
    if fT w = 0 ∧ fG w = 0 then .ok (.hwait (fD w) (fA w) (fB w))
    else .error .field
  | 5 =>
    if fB w = 0 ∧ (fT w).extractLsb' 2 1 = 0 ∧ fG w = 0 then .ok (.hstat (fD w) (fA w) ((fT w).extractLsb' 0 2))
    else .error .field
  | _ => .error .subop

/-- Major 0x2c (R78). -/
def decodeEng (w : Code) : Except Reserved Instr :=
  match (fOp w).toNat with
  | 1 =>
    .ok (.scopy (fD w) (fA w) (fB w) (fCtx w))
  | 2 =>
    .ok (.sfeed (fD w) (fA w) (fB w) (fCtx w))
  | 3 =>
    .ok (.sdrain (fD w) (fA w) (fB w) (fCtx w))
  | 4 =>
    .ok (.smcast (fD w) (fA w) (fB w) (fCtx w))
  | 5 =>
    .ok (.sgath (fD w) (fA w) (fB w) (fCtx w))
  | 6 =>
    .ok (.sscat (fD w) (fA w) (fB w) (fCtx w))
  | 7 =>
    .ok (.srowc (fD w) (fA w) (fB w) (fCtx w))
  | 8 =>
    .ok (.srowz (fD w) (fA w) (fB w) (fCtx w))
  | 9 =>
    if fA w = 0 then .ok (.scanc (fD w) (fB w) (fCtx w))
    else .error .field
  | 10 =>
    .ok (.gsend (fD w) (fA w) (fB w) (fCtx w))
  | _ => .error .subop

/-- Major 0x2d (R78). -/
def decodeFront (w : Code) : Except Reserved Instr :=
  match (fSub w).toNat with
  | 0 =>
    if fT w = 0 ∧ fG w = 0 then .ok (.frd (fD w) (fA w) (fB w))
    else if fB w = 0 ∧ fT w = 1 ∧ fG w = 0 then .ok (.frdStat (fD w) (fA w))
    else if fA w = 0 ∧ fB w = 0 ∧ fT w = 2 ∧ fG w = 0 then .ok (.frdTime (fD w))
    else .error .field
  | 1 =>
    if fT w = 0 ∧ fG w = 0 then .ok (.fwait (fD w) (fA w) (fB w))
    else .error .field
  | 2 =>
    if fT w = 0 ∧ fG w = 0 then .ok (.fadv (fD w) (fA w) (fB w))
    else .error .field
  | 3 =>
    if fT w = 0 ∧ fG w = 0 then .ok (.ahold (fD w) (fA w) (fB w))
    else .error .field
  | 4 =>
    if fB w = 0 ∧ fT w = 0 ∧ fG w = 0 then .ok (.arel (fD w) (fA w))
    else .error .field
  | 5 =>
    if fB w = 0 ∧ fT w = 0 ∧ fG w = 0 then .ok (.acmp (fD w) (fA w))
    else .error .field
  | _ => .error .subop

/-- Major 0x2e (R78). -/
def decodeRes (w : Code) : Except Reserved Instr :=
  match (fSub w).toNat with
  | 0 =>
    if fT w = 0 ∧ fG w = 0 then .ok (.resd (fD w) (fA w) (fB w))
    else if fT w = 1 ∧ fG w = 0 then .ok (.resdE0 (fD w) (fA w) (fB w))
    else if fT w = 2 ∧ fG w = 0 then .ok (.resdE1 (fD w) (fA w) (fB w))
    else .error .field
  | 1 =>
    if fD w = 0 ∧ fT w = 0 ∧ fG w = 0 then .ok (.resw (fA w) (fB w))
    else .error .field
  | 2 =>
    if fT w = 0 ∧ fG w = 0 then .ok (.tilereg (fD w) (fA w) (fB w))
    else .error .field
  | _ => .error .subop

/-- Major 0x2f (R78). -/
def decodeRem (w : Code) : Except Reserved Instr :=
  match (fSub w).toNat with
  | 0 =>
    if fT w = 0 ∧ fG w = 0 then .ok (.rld (fD w) (fA w) (fB w))
    else if fT w = 1 ∧ fG w = 0 then .ok (.rldB32 (fD w) (fA w) (fB w))
    else if fT w = 2 ∧ fG w = 0 then .ok (.rldB64 (fD w) (fA w) (fB w))
    else if fT w = 3 ∧ fG w = 0 then .ok (.rldB128 (fD w) (fA w) (fB w))
    else if fA w = 0 ∧ fB w = 0 ∧ fT w = 4 ∧ fG w = 0 then .ok (.rldDone (fD w))
    else .error .field
  | 1 =>
    if fT w = 0 ∧ fG w = 0 then .ok (.rst (fD w) (fA w) (fB w))
    else if fT w = 1 ∧ fG w = 0 then .ok (.rstB32 (fD w) (fA w) (fB w))
    else if fT w = 2 ∧ fG w = 0 then .ok (.rstB64 (fD w) (fA w) (fB w))
    else if fT w = 3 ∧ fG w = 0 then .ok (.rstB128 (fD w) (fA w) (fB w))
    else .error .field
  | 2 =>
    .ok (.ramo (fD w) (fA w) (fB w) (fT w) (fG w))
  | 3 =>
    if fT w = 0 ∧ fG w = 0 then .ok (.grsv (fD w) (fA w) (fB w))
    else .error .field
  | 4 =>
    if fT w = 0 ∧ fG w = 0 then .ok (.abpost (fD w) (fA w) (fB w))
    else .error .field
  | 5 =>
    if fB w = 0 ∧ fT w = 0 ∧ fG w = 0 then .ok (.abwait (fD w) (fA w))
    else .error .field
  | 6 =>
    if fB w = 0 ∧ fT w = 0 ∧ fG w = 0 then .ok (.gclr (fD w) (fA w))
    else if fB w = 0 ∧ fT w = 1 ∧ fG w = 0 then .ok (.gclrDone (fD w) (fA w))
    else .error .field
  | _ => .error .subop

/-- Major 0x31 (R78). -/
def decodeMx (w : Code) : Except Reserved Instr :=
  match (fSub w).toNat with
  | 0 =>
    if fD w = 0 ∧ fG w = 0 then .ok (.mldb (fA w) (fB w) (fT w))
    else .error .field
  | 1 =>
    if fLow w = 0 then .ok (.mrd (fD w) (fA w) (fB w) (fCode w))
    else .error .field
  | 2 =>
    if fD w = 0 ∧ fB w = 0 ∧ fT w = 0 ∧ fG w = 0 then .ok (.mzero (fA w))
    else .error .field
  | 3 =>
    if fD w = 0 ∧ fT w = 0 ∧ fG w = 0 then .ok (.mscl (fA w) (fB w))
    else .error .field
  | 4 =>
    if fB w = 0 ∧ fT w = 0 ∧ fG w = 0 then .ok (.mstat (fD w) (fA w))
    else .error .field
  | _ => .error .subop

/-- Major 0x32 (R78). -/
def decodeCfgw (w : Code) : Except Reserved Instr :=
  match (fSub w).toNat with
  | 0 =>
    if fD w = 0 ∧ fT w = 0 ∧ fG w = 0 then .ok (.cfgwNode (fA w) (fB w))
    else .error .field
  | 1 =>
    if fD w = 0 ∧ fT w = 0 ∧ fG w = 0 then .ok (.cfgwTwig (fA w) (fB w))
    else if fD w = 0 ∧ fT w = 1 ∧ fG w = 0 then .ok (.cfgwTwigMx (fA w) (fB w))
    else .error .field
  | 2 =>
    if fD w = 0 ∧ fT w = 0 ∧ fG w = 0 then .ok (.cfgwShape (fA w) (fB w))
    else .error .field
  | 3 =>
    if fD w = 0 ∧ fT w = 0 ∧ fG w = 0 then .ok (.cfgwCtx (fA w) (fB w))
    else .error .field
  | _ => .error .subop

/-- The instruction that a word encodes, by its major opcode (R78). -/
def decode (w : Code) : Except Reserved Instr :=
  match (fMajor w).toNat with
  | 0x0 => decodeSys w
  | 0x1 => decodeInt w
  | 0x2 => decodeDiv w
  | 0x3 => decodeFp w
  | 0x4 => decodeVec w
  | 0x10 => .ok (.addi (fD w) (fA w) (fImm w))
  | 0x11 => .ok (.andi (fD w) (fA w) (fImm w))
  | 0x12 => .ok (.ori (fD w) (fA w) (fImm w))
  | 0x13 => .ok (.xori (fD w) (fA w) (fImm w))
  | 0x14 => decodeShift w
  | 0x15 => .ok (.cmpi (fD w) (fA w) ((fImm w).extractLsb' 13 3) ((fImm w).extractLsb' 0 13))
  | 0x16 => .ok (.lih (fD w) (fA w) (fImm w))
  | 0x18 => .ok (.br (fD w) (fCond w) (fDisp w))
  | 0x19 => if fCond w = 0 then .ok (.jal (fD w) (fDisp w))
    else .error .field
  | 0x1a => .ok (.jr (fD w) (fA w) (fImm w))
  | 0x1b => if fCond w = 0 then .ok (.loop (fD w) (fDisp w))
    else .error .field
  | 0x1C => if w = 0x70000000#32 then .ok .exit else .error .field
  | 0x20 => .ok (.ld (fD w) (fA w) (fB w) (fSize w) (fOff w))
  | 0x21 => .ok (.st (fD w) (fA w) (fB w) (fSize w) (fOff w))
  | 0x22 => if fSize w = 3 then .ok (.ldv (fD w) (fA w) (fB w) (fOff w))
    else .error .field
  | 0x23 => if fSize w = 3 then .ok (.stv (fD w) (fA w) (fB w) (fOff w))
    else .error .field
  | 0x24 => decodeAmo w
  | 0x25 => decodeCas w
  | 0x26 => decodeOrd w
  | 0x28 => if (fImm w).extractLsb' 6 10 = 0 then .ok (.send (fD w) (fA w) ((fImm w).extractLsb' 0 6))
    else .error .field
  | 0x29 => if fA w = 0 ∧ (fImm w).extractLsb' 6 10 = 0 then .ok (.recv (fD w) ((fImm w).extractLsb' 0 6))
    else .error .field
  | 0x2a => decodeTask w
  | 0x2b => decodeHbuf w
  | 0x2c => decodeEng w
  | 0x2d => decodeFront w
  | 0x2e => decodeRes w
  | 0x2f => decodeRem w
  | 0x30 => .ok (.mma (fTag w) (fSeq w) (fKdep w) (fAfmt w) (fRows w))
  | 0x31 => decodeMx w
  | 0x32 => decodeCfgw w
  | _ => .error .major

/-- The word of an instruction (R65, R78); the steps that no word encodes have none. -/
def encode : Instr → Option Code
  | .add d a b t g => some (packA 0x1 d a b 0#5 t g)
  | .sub d a b t g => some (packA 0x1 d a b 1#5 t g)
  | .mul d a b t g => some (packA 0x1 d a b 2#5 t g)
  | .mulh d a b t g => some (packA 0x1 d a b 3#5 t g)
  | .mulhu d a b t g => some (packA 0x1 d a b 4#5 t g)
  | .and d a b t g => some (packA 0x1 d a b 5#5 t g)
  | .or d a b t g => some (packA 0x1 d a b 6#5 t g)
  | .xor d a b t g => some (packA 0x1 d a b 7#5 t g)
  | .shl d a b t g => some (packA 0x1 d a b 8#5 t g)
  | .shr d a b t g => some (packA 0x1 d a b 9#5 t g)
  | .sra d a b t g => some (packA 0x1 d a b 10#5 t g)
  | .min d a b t g => some (packA 0x1 d a b 11#5 t g)
  | .max d a b t g => some (packA 0x1 d a b 12#5 t g)
  | .minu d a b t g => some (packA 0x1 d a b 13#5 t g)
  | .maxu d a b t g => some (packA 0x1 d a b 14#5 t g)
  | .cmp d a b t c => some (packA 0x1 d a b 15#5 t c)
  | .sel d a b t g => some (packA 0x1 d a b 16#5 t g)
  | .clz d a t g => some (packA 0x1 d a 0#5 17#5 t g)
  | .popc d a t g => some (packA 0x1 d a 0#5 18#5 t g)
  | .sext d a b g => some (packA 0x1 d a b 19#5 0#3 g)
  | .div d a b t => some (packA 0x2 d a b 0#5 t 0#3)
  | .divu d a b t => some (packA 0x2 d a b 1#5 t 0#3)
  | .rem d a b t => some (packA 0x2 d a b 2#5 t 0#3)
  | .remu d a b t => some (packA 0x2 d a b 3#5 t 0#3)
  | .fadd d a b t g => some (packA 0x3 d a b 0#5 t g)
  | .fsub d a b t g => some (packA 0x3 d a b 1#5 t g)
  | .fmul d a b t g => some (packA 0x3 d a b 2#5 t g)
  | .ffma d a b t g => some (packA 0x3 d a b 3#5 t g)
  | .fmin d a b t g => some (packA 0x3 d a b 4#5 t g)
  | .fmax d a b t g => some (packA 0x3 d a b 5#5 t g)
  | .fcmp d a b t c => some (packA 0x3 d a b 6#5 t c)
  | .fcvt d a e s => some (packF 0x3 d a (0#1 ++ e) 7#5 s 0#2)
  | .frcp d a t g => some (packA 0x3 d a 0#5 8#5 t g)
  | .fsqrt d a t g => some (packA 0x3 d a 0#5 9#5 t g)
  | .fexp2 d a t g => some (packA 0x3 d a 0#5 10#5 t g)
  | .vadd d a b t g => some (packA 0x4 d a b 0#5 t g)
  | .vsub d a b t g => some (packA 0x4 d a b 1#5 t g)
  | .vmul d a b t g => some (packA 0x4 d a b 2#5 t g)
  | .vfma d a b t g => some (packA 0x4 d a b 3#5 t g)
  | .vmin d a b t g => some (packA 0x4 d a b 4#5 t g)
  | .vmax d a b t g => some (packA 0x4 d a b 5#5 t g)
  | .vcmp d a b t c => some (packA 0x4 d a b 6#5 t c)
  | .vsel d a b t g => some (packA 0x4 d a b 7#5 t g)
  | .vcvt d a e s => some (packF 0x4 d a (0#1 ++ e) 8#5 s 0#2)
  | .vred d a t r => some (packA 0x4 d a 0#5 9#5 t r)
  | .vshuf d a b t g => some (packA 0x4 d a b 10#5 t g)
  | .vbcast d a t g => some (packA 0x4 d a 0#5 11#5 t g)
  | .vpack d a b t g => some (packA 0x4 d a b 12#5 t g)
  | .vunpk d a t g => some (packA 0x4 d a 0#5 13#5 t g)
  | .vexp2 d a t g => some (packA 0x4 d a 0#5 14#5 t g)
  | .vrcp d a t g => some (packA 0x4 d a 0#5 15#5 t g)
  | .addi d a i => some (packI 0x10 d a i)
  | .andi d a i => some (packI 0x11 d a i)
  | .ori d a i => some (packI 0x12 d a i)
  | .xori d a i => some (packI 0x13 d a i)
  | .shli d a n => some (packI 0x14 d a (0#10 ++ n))
  | .shri d a n => some (packI 0x14 d a (1#10 ++ n))
  | .srai d a n => some (packI 0x14 d a (2#10 ++ n))
  | .cmpi d a c i => some (packI 0x15 d a (c ++ i))
  | .lih d a i => some (packI 0x16 d a i)
  | .br c k i => some (packB 0x18 c k i)
  | .jal c i => some (packB 0x19 c 0#3 i)
  | .jr d a i => some (packI 0x1a d a i)
  | .loop c i => some (packB 0x1b c 0#3 i)
  | .exit => some (0x70000000#32)
  | .ld d b l s o => some (packM 0x20 d b l s o)
  | .st d b l s o => some (packM 0x21 d b l s o)
  | .ldv d b l o => some (packM 0x22 d b l 3#2 o)
  | .stv d b l o => some (packM 0x23 d b l 3#2 o)
  | .amo d a b o t => some (packA 0x24 d a b o t 0#3)
  | .cas d a b t => some (packA 0x25 d a b 0#5 t 0#3)
  | .fence d => some (packA 0x26 d 0#5 0#5 0#5 0#3 0#3)
  | .waittl d a b => some (packA 0x26 d a b 1#5 0#3 0#3)
  | .tlrd d b => some (packA 0x26 d 0#5 b 2#5 0#3 0#3)
  | .send d a c => some (packI 0x28 d a (0#10 ++ c))
  | .recv d c => some (packI 0x29 d 0#5 (0#10 ++ c))
  | .spawn d a b => some (packA 0x2a d a b 0#5 0#3 0#3)
  | .yield => some (packA 0x2a 0#5 0#5 0#5 1#5 0#3 0#3)
  | .yieldUntil a => some (packA 0x2a 0#5 a 0#5 1#5 1#3 0#3)
  | .widf d n => some (packA 0x2a d 0#5 n 2#5 0#3 0#3)
  | .colr d => some (packA 0x2a d 0#5 0#5 3#5 0#3 0#3)
  | .launch d a => some (packA 0x2a d a 0#5 4#5 0#3 0#3)
  | .hfill d a => some (packA 0x2b d a 0#5 0#5 0#3 0#3)
  | .hfillTry d a => some (packA 0x2b d a 0#5 0#5 1#3 0#3)
  | .hpost a b => some (packA 0x2b 0#5 a b 1#5 0#3 0#3)
  | .htake d a => some (packA 0x2b d a 0#5 2#5 0#3 0#3)
  | .htakeTry d a => some (packA 0x2b d a 0#5 2#5 1#3 0#3)
  | .hfree a b => some (packA 0x2b 0#5 a b 3#5 0#3 0#3)
  | .hwait d a b => some (packA 0x2b d a b 4#5 0#3 0#3)
  | .hstat d a w => some (packA 0x2b d a 0#5 5#5 (0#1 ++ w) 0#3)
  | .scopy d e h c => some (packE 0x2c d e h c 1#8)
  | .sfeed d e h c => some (packE 0x2c d e h c 2#8)
  | .sdrain d e h c => some (packE 0x2c d e h c 3#8)
  | .smcast d e h c => some (packE 0x2c d e h c 4#8)
  | .sgath d e h c => some (packE 0x2c d e h c 5#8)
  | .sscat d e h c => some (packE 0x2c d e h c 6#8)
  | .srowc d e h c => some (packE 0x2c d e h c 7#8)
  | .srowz d e h c => some (packE 0x2c d e h c 8#8)
  | .scanc d h c => some (packE 0x2c d 0#5 h c 9#8)
  | .gsend d e h c => some (packE 0x2c d e h c 10#8)
  | .frd d k n => some (packA 0x2d d k n 0#5 0#3 0#3)
  | .frdStat d k => some (packA 0x2d d k 0#5 0#5 1#3 0#3)
  | .frdTime d => some (packA 0x2d d 0#5 0#5 0#5 2#3 0#3)
  | .fwait d k b => some (packA 0x2d d k b 1#5 0#3 0#3)
  | .fadv d a b => some (packA 0x2d d a b 2#5 0#3 0#3)
  | .ahold d a b => some (packA 0x2d d a b 3#5 0#3 0#3)
  | .arel d a => some (packA 0x2d d a 0#5 4#5 0#3 0#3)
  | .acmp d a => some (packA 0x2d d a 0#5 5#5 0#3 0#3)
  | .resd d a b => some (packA 0x2e d a b 0#5 0#3 0#3)
  | .resdE0 d a b => some (packA 0x2e d a b 0#5 1#3 0#3)
  | .resdE1 d a b => some (packA 0x2e d a b 0#5 2#3 0#3)
  | .resw a b => some (packA 0x2e 0#5 a b 1#5 0#3 0#3)
  | .tilereg d a b => some (packA 0x2e d a b 2#5 0#3 0#3)
  | .rld d a b => some (packA 0x2f d a b 0#5 0#3 0#3)
  | .rldB32 d a b => some (packA 0x2f d a b 0#5 1#3 0#3)
  | .rldB64 d a b => some (packA 0x2f d a b 0#5 2#3 0#3)
  | .rldB128 d a b => some (packA 0x2f d a b 0#5 3#3 0#3)
  | .rldDone d => some (packA 0x2f d 0#5 0#5 0#5 4#3 0#3)
  | .rst d a b => some (packA 0x2f d a b 1#5 0#3 0#3)
  | .rstB32 d a b => some (packA 0x2f d a b 1#5 1#3 0#3)
  | .rstB64 d a b => some (packA 0x2f d a b 1#5 2#3 0#3)
  | .rstB128 d a b => some (packA 0x2f d a b 1#5 3#3 0#3)
  | .ramo d a b t o => some (packA 0x2f d a b 2#5 t o)
  | .grsv d a b => some (packA 0x2f d a b 3#5 0#3 0#3)
  | .abpost d a b => some (packA 0x2f d a b 4#5 0#3 0#3)
  | .abwait d a => some (packA 0x2f d a 0#5 5#5 0#3 0#3)
  | .gclr d a => some (packA 0x2f d a 0#5 6#5 0#3 0#3)
  | .gclrDone d a => some (packA 0x2f d a 0#5 6#5 1#3 0#3)
  | .mma t s k f m => some (packX 0x30 t s k f m)
  | .mldb a b f => some (packA 0x31 0#5 a b 0#5 f 0#3)
  | .mrd d a b f => some (packF 0x31 d a b 1#5 f 0#2)
  | .mzero a => some (packA 0x31 0#5 a 0#5 2#5 0#3 0#3)
  | .mscl a b => some (packA 0x31 0#5 a b 3#5 0#3 0#3)
  | .mstat d a => some (packA 0x31 d a 0#5 4#5 0#3 0#3)
  | .cfgwNode a b => some (packA 0x32 0#5 a b 0#5 0#3 0#3)
  | .cfgwTwig a b => some (packA 0x32 0#5 a b 1#5 0#3 0#3)
  | .cfgwTwigMx a b => some (packA 0x32 0#5 a b 1#5 1#3 0#3)
  | .cfgwShape a b => some (packA 0x32 0#5 a b 2#5 0#3 0#3)
  | .cfgwCtx a b => some (packA 0x32 0#5 a b 3#5 0#3 0#3)
  | .trap n => some (packA 0x0 0#5 0#5 n 0#5 0#3 0#3)
  | .eret => some (packA 0x0 0#5 0#5 0#5 1#5 0#3 0#3)
  | .srd d n => some (packA 0x0 d 0#5 n 2#5 0#3 0#3)
  | .swr a n => some (packA 0x0 0#5 a n 3#5 0#3 0#3)
  | .tlbinv a b => some (packA 0x0 0#5 a b 4#5 0#3 0#3)
  | .tlbinvAsid a => some (packA 0x0 0#5 a 0#5 4#5 1#3 0#3)
  | .tlbinvAll => some (packA 0x0 0#5 0#5 0#5 4#5 2#3 0#3)
  | .halt a => some (packA 0x0 0#5 a 0#5 5#5 0#3 0#3)
  | .haltRun a => some (packA 0x0 0#5 a 0#5 5#5 1#3 0#3)
  | .nop => some (packA 0x0 0#5 0#5 0#5 6#5 0#3 0#3)
  | .freeze d a b c => some (packA 0x0 d a b 7#5 c 0#3)
  | .thaw d a b c => some (packA 0x0 d a b 8#5 c 0#3)
  | .cfgflip a b => some (packA 0x0 0#5 a b 9#5 0#3 0#3)
  | .ckill a => some (packA 0x0 0#5 a 0#5 10#5 0#3 0#3)
  | .dcapd d a b => some (packA 0x0 d a b 11#5 0#3 0#3)
  | .dcapr d a => some (packA 0x0 d a 0#5 12#5 0#3 0#3)
  | .twigCommit _ => none
  | .nodeReconfigure _ => none
  | .twigStoreWrite _ _ => none
  | .purgeWaveComplete _ => none
  | .moduleReset => none
  | .graphLoad _ _ => none
  | .linkPlanBind _ _ _ _ _ => none
  | .tokenArrival _ => none
  | .overflowRefill _ => none
  | .nadd => none
  | .nsub => none
  | .nmul => none
  | .nmin => none
  | .nmax => none
  | .nband => none
  | .nbor => none
  | .nbxor => none
  | .nshl => none
  | .nshr => none
  | .ncmp => none
  | .nsel => none
  | .nfma => none
  | .ncvt => none
  | .nsteer => none
  | .nmerge => none
  | .ncopy => none
  | .nconst => none
  | .ngate => none
  | .nsink => none
  | .niter => none
  | .ntagset => none
  | .ncolour => none
  | .colourGrant _ => none
  | .nreturn => none
  | .ntask => none
  | .ntwig => none
  | .nag => none
  | .nagElement _ _ => none
  | .nld => none
  | .nst => none
  | .orderedRequestPerform _ _ => none
  | .nown => none
  | .nred => none
  | .natom => none
  | .ninvokeCall => none
  | .ninvokeReturn => none
  | .invokeAccept _ => none
  | .nfork => none
  | .npjoin => none
  | .nltx => none
  | .nlrx _ _ => none
  | .dsrc _ _ => none
  | .dout => none
  | .doutIdlePost _ _ => none
  | .darr => none
  | .djoin => none
  | .dred => none
  | .dcon => none
  | .dconFlush _ _ => none
  | .dneg => none
  | .denter => none
  | .dfeed => none
  | .dleave => none
  | .dprobe => none
  | .dprobeWatch _ _ => none
  | .frontierRecompute _ _ => none
  | .frontierDelivery _ _ _ _ => none
  | .compactionFrontierRecompute _ _ => none
  | .pass _ _ => none
  | .taskSchedule _ => none
  | .forcedSwitch _ => none
  | .cycleWaitExpiry _ _ => none
  | .spillReadback _ _ => none
  | .mailDelivery _ _ _ => none
  | .inboundRegisterWrite _ => none
  | .stallWatchdog _ => none
  | .colourWatchdog _ => none
  | .balanceInterval _ => none
  | .contextChangeComplete _ => none
  | .launchStart _ => none
  | .initialPush _ => none
  | .dispatch _ _ => none
  | .levelTick _ => none
  | .launchEnd _ => none
  | .residencyNotify _ _ => none
  | .timeRebase => none
  | .translationWalk _ _ => none
  | .mapRegister _ _ _ => none
  | .mapUnmap _ _ _ => none
  | .engineOpStart _ _ => none
  | .boundFiring _ _ => none
  | .smcastFiring _ _ => none
  | .engineOpComplete _ _ => none
  | .drainPortWrite _ _ _ => none
  | .handleReinit _ _ _ _ => none
  | .packetArrival _ => none
  | .kstep _ => none
  | .mrdServe _ _ => none
  | .mzeroServe _ _ => none
  | .linkUp _ _ _ => none
  | .linkLost _ => none
  | .remoteRequestArrival _ => none
  | .remoteResponse _ => none
  | .streamClose _ _ _ => none
  | .reservationArrival _ => none
  | .reservationGrant _ _ => none
  | .gladePacketArrival _ => none
  | .gladeKeepalive _ _ _ => none
  | .gladeRevocation _ _ _ => none
  | .gladeHold _ _ _ _ _ => none
  | .gladeResume _ _ _ _ _ _ _ => none
  | .faultRecordPost _ => none
  | .faultqWrite _ _ => none
  | .freleaseRetry _ _ => none
  | .freleaseDiscard _ _ => none
  | .rsresumeRetry _ _ _ => none
  | .rsresumeDiscard _ _ _ => none
  | .pjdet _ _ => none
  | .freezeWave _ => none
  | .thawComplete _ => none
  | .fcmdResumeRetry _ _ => none
  | .fcmdResumeDiscard _ _ => none
  | .fcmdStep _ _ => none
  | .fcmdStop _ => none
  | .fcmdList _ => none
  | .stopComplete _ => none
  | .snaptrig => none
  | .hqtailWrite _ => none
  | .hqbaseWrite _ => none
  | .hostQueueLaunch => none
  | .hostQueueRelease => none
  | .attreq => none
  | .throttleChange _ _ _ _ => none
  | .wearUpdate _ _ _ => none
  | .registerWrite _ _ => none
  | .illegalInstruction => none
  | .programTimeAdvance _ => none
  | .shadowLatchFull _ => none
  | .mapRegistrationComplete _ _ => none
  | .mapUnmapComplete _ _ => none
  | .hostWindowAccess _ _ _ _ _ => none
  | .linkFlitRetry _ => none
  | .messageForward _ _ _ => none
  | .peerLostDeclared _ => none

/-- Whether an AMO operation and type go together (R67, R207). -/
def amoOk (op ty : Nat) : Bool :=
  (op ≤ 6 && ty ≤ 3) || (op == 7 && ty == 4)

/-- Whether a condition code fits a vector or scalar compare: 6 and 7 for floats only (R68, R133). -/
def vcmpOk (ty c : Nat) : Bool :=
  2 ≤ ty && (c ≤ 5 || (4 ≤ ty && ty ≤ 6))

/-- Whether every variable field of an instruction holds a value that its description defines (R67, R68, R72, R80). -/
def Instr.fieldsOk : Instr → Bool
  | .add _ _ _ t _ | .sub _ _ _ t _ | .mul _ _ _ t _ | .mulh _ _ _ t _ | .mulhu _ _ _ t _ | .and _ _ _ t _
  | .or _ _ _ t _ | .xor _ _ _ t _ | .shl _ _ _ t _ | .shr _ _ _ t _ | .sra _ _ _ t _ | .min _ _ _ t _
  | .max _ _ _ t _ | .minu _ _ _ t _ | .maxu _ _ _ t _ | .sel _ _ _ t _ | .clz _ _ t _ | .popc _ _ t _
  | .div _ _ _ t | .divu _ _ _ t | .rem _ _ _ t | .remu _ _ _ t | .cas _ _ _ t => t.toNat ≤ 3
  | .cmp _ _ _ t c => t.toNat ≤ 3 && c.toNat ≤ 5
  | .sext _ _ b _ => b.toNat ≤ 2
  | .fadd _ _ _ t _ | .fsub _ _ _ t _ | .fmul _ _ _ t _ | .ffma _ _ _ t _ | .fmin _ _ _ t _ | .fmax _ _ _ t _
  | .fcmp _ _ _ t _ | .frcp _ _ t _ | .fsqrt _ _ t _ | .fexp2 _ _ t _ | .vexp2 _ _ t _ | .vrcp _ _ t _ =>
    4 ≤ t.toNat && t.toNat ≤ 6
  | .fcvt _ _ e s | .vcvt _ _ e s => e.toNat ≤ 7 && s.toNat ≤ 7
  | .vadd _ _ _ t _ | .vsub _ _ _ t _ | .vmul _ _ _ t _ | .vfma _ _ _ t _ | .vmin _ _ _ t _ | .vmax _ _ _ t _
  | .vsel _ _ _ t _ | .vshuf _ _ _ t _ | .vbcast _ _ t _ => 2 ≤ t.toNat
  | .vcmp _ _ _ t c => vcmpOk t.toNat c.toNat
  | .vred _ _ t r => 2 ≤ t.toNat && r.toNat ≤ 2
  | .vpack _ _ _ t _ | .vunpk _ _ t _ => 2 ≤ t.toNat && t.toNat ≠ 4
  | .cmpi _ _ c _ => c.toNat ≤ 5
  | .br c k _ => k.toNat ≤ 6 && (k.toNat ≠ 0 || c = 0)
  | .loop _ i => 1 ≤ i.toNat && i.toNat ≤ 4096
  | .amo _ _ _ o t => amoOk o.toNat t.toNat
  | .ramo _ _ _ t o => amoOk o.toNat t.toNat
  | .frd _ _ n => n.toNat ≤ 3
  | .widf _ n => n.toNat ≤ 6
  | .srd _ n | .swr _ n => n.toNat ≤ 17
  | _ => true

/-- The guard field of an instruction that has one (R71, R116). -/
def Instr.guard : Instr → BitVec 3
  | .add _ _ _ _ g | .sub _ _ _ _ g | .mul _ _ _ _ g | .mulh _ _ _ _ g | .mulhu _ _ _ _ g | .and _ _ _ _ g
  | .or _ _ _ _ g | .xor _ _ _ _ g | .shl _ _ _ _ g | .shr _ _ _ _ g | .sra _ _ _ _ g | .min _ _ _ _ g
  | .max _ _ _ _ g | .minu _ _ _ _ g | .maxu _ _ _ _ g | .sel _ _ _ _ g | .clz _ _ _ g | .popc _ _ _ g
  | .sext _ _ _ g | .fadd _ _ _ _ g | .fsub _ _ _ _ g | .fmul _ _ _ _ g | .ffma _ _ _ _ g | .fmin _ _ _ _ g
  | .fmax _ _ _ _ g | .frcp _ _ _ g | .fsqrt _ _ _ g | .fexp2 _ _ _ g | .vadd _ _ _ _ g | .vsub _ _ _ _ g
  | .vmul _ _ _ _ g | .vfma _ _ _ _ g | .vmin _ _ _ _ g | .vmax _ _ _ _ g | .vsel _ _ _ _ g | .vshuf _ _ _ _ g
  | .vbcast _ _ _ g | .vpack _ _ _ _ g | .vunpk _ _ _ g | .vexp2 _ _ _ g | .vrcp _ _ _ g => g
  | _ => 0

/-- Instructions that only twigs run (R78, R80). -/
def Instr.twigOnly : Instr → Bool
  | .vadd .. | .vsub .. | .vmul .. | .vfma .. | .vmin .. | .vmax .. | .vcmp .. | .vsel .. | .vcvt .. | .vred ..
  | .vshuf .. | .vbcast .. | .vpack .. | .vunpk .. | .vexp2 .. | .vrcp .. | .ldv .. | .stv .. | .mma .. => true
  | _ => false

/-- Whether a task core may run the instruction as it is encoded: none that only twigs run, no guard, and a zero LSID
(R71, R72, R80). -/
def Instr.coreOk (i : Instr) : Bool :=
  i.fieldsOk && !i.twigOnly && i.guard == 0 &&
    match i with
    | .ld _ _ l _ _ | .st _ _ l _ _ => l == 0
    | _ => true

/-- A field value a twig may name as a source (R70). -/
def twigSrc (r : BitVec 5) : Bool := r.toNat ≤ 11 || r.toNat == 14 || r.toNat == 15

/-- A field value a twig may name as a destination (R70). -/
def twigDst (r : BitVec 5) : Bool := r.toNat ≤ 7 || r.toNat == 12 || r.toNat == 13

/-- Whether a twig may hold the instruction: allowed in twigs (R78), defined fields, and register fields in roles that
R70 allows; `mx` for a block of the matrix element (R254). A read-out code that R72 reserves is no defined field here, where a
block is checked (R74, R80; log entry 94). -/
def Instr.twigOk (mx : Bool) (i : Instr) : Bool :=
  i.fieldsOk &&
    match i with
    | .add d a b _ _ | .sub d a b _ _ | .mul d a b _ _ | .mulh d a b _ _ | .mulhu d a b _ _ | .and d a b _ _
    | .or d a b _ _ | .xor d a b _ _ | .shl d a b _ _ | .shr d a b _ _ | .sra d a b _ _ | .min d a b _ _
    | .max d a b _ _ | .minu d a b _ _ | .maxu d a b _ _ | .cmp d a b _ _
    | .fadd d a b _ _ | .fsub d a b _ _ | .fmul d a b _ _ | .fmin d a b _ _ | .fmax d a b _ _ | .fcmp d a b _ _
    | .vadd d a b _ _ | .vsub d a b _ _ | .vmul d a b _ _ | .vmin d a b _ _ | .vmax d a b _ _ | .vcmp d a b _ _
    | .vshuf d a b _ _ | .vpack d a b _ _ => twigDst d && twigSrc a && twigSrc b
    | .sel d a b _ _ | .ffma d a b _ _ | .vfma d a b _ _ | .vsel d a b _ _ =>
      twigDst d && twigSrc d && twigSrc a && twigSrc b
    | .clz d a _ _ | .popc d a _ _ | .frcp d a _ _ | .fsqrt d a _ _ | .fexp2 d a _ _ | .vbcast d a _ _
    | .vunpk d a _ _ | .vexp2 d a _ _ | .vrcp d a _ _ | .vred d a _ _ => twigDst d && twigSrc a
    | .fcvt d a _ _ | .vcvt d a _ _ => twigDst d && twigSrc a
    | .sext d a _ _ => twigDst d && twigSrc a
    | .addi d a _ | .andi d a _ | .ori d a _ | .xori d a _ | .lih d a _ | .shli d a _ | .shri d a _ | .srai d a _ =>
      twigDst d && twigSrc a
    | .cmpi d a _ _ => twigDst d && twigSrc a
    | .exit => true
    | .ld d b _ _ _ | .ldv d b _ _ => twigDst d && twigSrc b
    | .st d b _ _ _ | .stv d b _ _ => twigSrc d && twigSrc b
    | .send d a _ => twigSrc d && twigSrc a
    | .mma .. => mx
    | .mldb a b _ | .mscl a b => twigSrc a && twigSrc b
    | .mrd d a b f => decide (f.toNat ≤ 4) && twigDst d && twigSrc a && twigSrc b
    | .mzero a => twigSrc a
    | .mstat d a => twigDst d && twigSrc a
    | _ => false

/-- Which register fields a twig instruction writes: its destination, if it has one (R74, R115). -/
def Instr.twigDest : Instr → Option (BitVec 5)
  | .add d .. | .sub d .. | .mul d .. | .mulh d .. | .mulhu d .. | .and d .. | .or d .. | .xor d .. | .shl d ..
  | .shr d .. | .sra d .. | .min d .. | .max d .. | .minu d .. | .maxu d .. | .cmp d .. | .sel d .. | .clz d ..
  | .popc d .. | .sext d .. | .fadd d .. | .fsub d .. | .fmul d .. | .ffma d .. | .fmin d .. | .fmax d .. | .fcmp d ..
  | .fcvt d .. | .frcp d .. | .fsqrt d .. | .fexp2 d .. | .vadd d .. | .vsub d .. | .vmul d .. | .vfma d .. | .vmin d ..
  | .vmax d .. | .vcmp d .. | .vsel d .. | .vcvt d .. | .vred d .. | .vshuf d .. | .vbcast d .. | .vpack d ..
  | .vunpk d .. | .vexp2 d .. | .vrcp d .. | .addi d .. | .andi d .. | .ori d .. | .xori d .. | .shli d .. | .shri d ..
  | .srai d .. | .cmpi d .. | .lih d .. | .ld d .. | .ldv d .. | .mrd d .. | .mstat d .. => some d
  | _ => none

/-- The registers that a twig instruction reads, its guard apart (R70, R112). -/
def Instr.twigReads : Instr → List (BitVec 5)
  | .add _ a b .. | .sub _ a b .. | .mul _ a b .. | .mulh _ a b .. | .mulhu _ a b .. | .and _ a b .. | .or _ a b ..
  | .xor _ a b .. | .shl _ a b .. | .shr _ a b .. | .sra _ a b .. | .min _ a b .. | .max _ a b .. | .minu _ a b ..
  | .maxu _ a b .. | .cmp _ a b .. | .fadd _ a b .. | .fsub _ a b .. | .fmul _ a b .. | .fmin _ a b .. | .fmax _ a b ..
  | .fcmp _ a b .. | .vadd _ a b .. | .vsub _ a b .. | .vmul _ a b .. | .vmin _ a b .. | .vmax _ a b .. | .vcmp _ a b ..
  | .vshuf _ a b .. | .vpack _ a b .. | .st a b .. | .stv a b .. | .send a b .. | .mldb a b .. | .mscl a b
  | .mrd _ a b .. => [a, b]
  | .sel d a b .. | .ffma d a b .. | .vfma d a b .. | .vsel d a b .. => [d, a, b]
  | .clz _ a .. | .popc _ a .. | .frcp _ a .. | .fsqrt _ a .. | .fexp2 _ a .. | .vbcast _ a .. | .vunpk _ a ..
  | .vexp2 _ a .. | .vrcp _ a .. | .vred _ a .. | .fcvt _ a .. | .vcvt _ a .. | .sext _ a .. | .addi _ a _ | .andi _ a _
  | .ori _ a _ | .xori _ a _ | .lih _ a _ | .shli _ a _ | .shri _ a _ | .srai _ a _ | .cmpi _ a .. | .ld _ a ..
  | .ldv _ a .. | .mzero a | .mstat _ a => [a]
  | _ => []

/-- The cycles until a port unit's result is ready (R124). -/
def Instr.latency : Instr → Nat
  | .mul .. | .mulh .. | .mulhu .. | .ld .. | .ldv .. => 3
  | .fadd .. | .fsub .. | .fmul .. | .ffma .. | .fmin .. | .fmax .. | .fcmp .. | .fcvt .. => 4
  | .vadd .. | .vsub .. | .vmul .. | .vfma .. | .vmin .. | .vmax .. | .vcmp .. | .vsel .. | .vcvt .. | .vshuf .. => 4
  | .vbcast .. | .vpack .. | .vunpk .. => 4
  | .vred .. => 6
  | .vexp2 .. | .vrcp .. => 8
  | .frcp .. | .fsqrt .. | .fexp2 .. => 12
  | _ => 1

/-- The LSID of a memory instruction, and whether it stores (R74). -/
def Instr.lsid : Instr → Option (Nat × Bool)
  | .ld _ _ l _ _ | .ldv _ _ l _ => some (l.toNat, false)
  | .st _ _ l _ _ | .stv _ _ l _ => some (l.toNat, true)
  | _ => none

/-- The instruction the decoder reads from `nbits` bits `w`, all bits above them zero. -/
def decodeTableWord (_nbits w : Nat) : Option Instr :=
  match decode (BitVec.ofNat 32 w) with
  | .ok i => some i
  | .error _ => none

end Sys2Proof
end

