-- ==== Sys2Proof/Config.lean ====
section
/-! DEFINITION. What the spec leaves to the device or to chance: constants without a body, so that no proof can rest on
a value (log entries 2, 3, 7, 9, 12, 21, 22 and 79). -/

namespace Sys2Proof.Config

/-- The free value number `n` (log entry 3): a word the spec calls unpredictable or does not state. -/
opaque freeWord : Nat → BitVec 64

/-- Which of the moves that could come next does come next, at a scheduling point (R191; log entry 2). -/
opaque choose : Nat → Nat

/-- How many more cycles than one pass at a scheduling point (R5; log entry 9). -/
opaque freeCycles : Nat → Nat

/-- Which of the f32 values within one ulp VRCP gives for an input (R60; log entry 7). -/
opaque vrcpPick : BitVec 32 → Nat

/-- Which of the f32 values within one ulp VEXP2 gives for an input (R60; log entry 7). -/
opaque vexp2Pick : BitVec 32 → Nat

/-- How many stages a boot has (R426; log entry 12). -/
opaque bootStages : Nat

/-- The firmware image of boot stage `n` as the boot flash holds it (R426; log entry 12). -/
opaque bootImage : Nat → List Byte

/-- The signature that comes with the image of boot stage `n` (R426; log entry 12). -/
opaque bootSignature : Nat → List Byte

/-- The public key that comes with the firmware (R426; log entry 12). -/
opaque bootKey : List Byte

/-- The digest of the right key, as fused in the module (R426; log entry 12). -/
opaque fusedDigest : List Byte

/-- The local physical address of the measured-boot log (R426; log entry 12). -/
opaque bootLogAt : Nat

/-- The module's identity key: the 32 secret bytes that its public key and its signatures come from (R427; log entry 12). -/
opaque idSecret : List Byte

/-- The oscillator slowing (false) and the wear budget used (true) of a grove at a wear update (R429; log entry 12). -/
opaque wearOwn : Nat → Nat → Bool → Byte

/-- The home slice of a 192-byte line of module memory (R8, R178): the spec says interleaved, not how (log entry 21). -/
opaque homeSlice : Nat → Nat

/-- What an L2 or memory traffic counter of a grove gains at a scheduling step (R420; log entry 22). -/
opaque traffic : Nat → Nat → Nat → Nat

/-- Which flits come into and leave a ring port's buffers at a scheduling step (R344, R345; log entry 87). -/
opaque ringFlits : Nat → Nat → Nat

/-- The local addresses of the bytes whose read meets an uncorrectable error from a scheduling point on (R118, R143, R182,
R189, R203, R224, R350; log entry 79). -/
opaque spoilt : Nat → List Nat

end Sys2Proof.Config
end

