-- ==== Sys2Proof/Machine/Numbers.lean ====
section
/-! DEFINITION. Number formats and the arithmetic on them: exact dyadic values, rounding, converters, block formats,
and the elementary functions (spec 02 R37 to R60). -/

namespace Sys2Proof.Machine

/-- A two's complement reading of the low `w` bits of `n`. -/
def sgn (w n : Nat) : Int :=
  let m := n % 2 ^ w
  if m < 2 ^ (w - 1) then (m : Int) else (m : Int) - 2 ^ w

/-- The low `w` bits of an integer (R9, R44). -/
def wrap (w : Nat) (x : Int) : Nat := (x % (2 ^ w : Nat)).toNat

/-- Bits [hi:lo] of a number (R4). -/
def bits (n hi lo : Nat) : Nat := (n / 2 ^ lo) % 2 ^ (hi + 1 - lo)

/-- The number of bits of `n`: 0 for 0, otherwise one more than its top bit's number. -/
def bitLen (n : Nat) : Nat := if n = 0 then 0 else n.log2 + 1

/-- A floating-point format (R39, R43): exponent bits, fraction bits and bias; whether its top exponent holds
infinities and NaNs as IEEE gives; whether it has the one NaN of E4M3; and its largest finite magnitude's bits. -/
structure Fmt where
  eb : Nat
  mb : Nat
  bias : Nat
  ieee : Bool
  oneNan : Bool
  top : Nat
deriving DecidableEq, Repr

/-- FP32 (R39). -/
def fmtF32 : Fmt := ⟨8, 23, 127, true, false, 0x7F7FFFFF⟩
/-- FP16 (R39). -/
def fmtF16 : Fmt := ⟨5, 10, 15, true, false, 0x7BFF⟩
/-- BF16 (R39). -/
def fmtBf16 : Fmt := ⟨8, 7, 127, true, false, 0x7F7F⟩
/-- E4M3 (R43). -/
def fmtE4m3 : Fmt := ⟨4, 3, 7, false, true, 0x7E⟩
/-- E5M2 (R43). -/
def fmtE5m2 : Fmt := ⟨5, 2, 15, true, false, 0x7B⟩
/-- E2M1 (R43). -/
def fmtE2m1 : Fmt := ⟨2, 1, 1, false, false, 0x7⟩

/-- The width of a format's encoding. -/
def Fmt.width (f : Fmt) : Nat := 1 + f.eb + f.mb

/-- The canonical NaN (R39, R43). -/
def Fmt.canon (f : Fmt) : Nat :=
  if f.ieee then (2 ^ f.eb - 1) * 2 ^ f.mb + 2 ^ (f.mb - 1) else if f.oneNan then 0x7F else 0

/-- A number as the arithmetic sees it: a NaN with its sign, its fraction bits and how many they are; an infinity; or
(−1)^neg × m × 2^e exactly. -/
inductive Num where
  | nan (neg : Bool) (frac width : Nat)
  | inf (neg : Bool)
  | fin (neg : Bool) (m : Nat) (e : Int)
deriving DecidableEq, Repr

/-- A NaN with nothing to keep: positive, with no payload. -/
def Num.qnan : Num := .nan false 0 0

/-- The value of an encoding (R39, R43). -/
def Fmt.decode (f : Fmt) (b : Nat) : Num :=
  let neg := bits b (f.eb + f.mb) (f.eb + f.mb) = 1
  let ex := bits b (f.eb + f.mb - 1) f.mb
  let fr := b % 2 ^ f.mb
  if f.ieee ∧ ex = 2 ^ f.eb - 1 then
    if fr = 0 then .inf neg else .nan neg fr f.mb
  else if f.oneNan ∧ ex = 2 ^ f.eb - 1 ∧ fr = 2 ^ f.mb - 1 then .nan neg fr f.mb
  else if ex = 0 then .fin neg fr (1 - (f.bias : Int) - f.mb)
  else .fin neg (2 ^ f.mb + fr) ((ex : Int) - f.bias - f.mb)

/-- Rounding modes (R49). -/
inductive RMode where
  | rne
  | toZero
  | down
  | up
  | stochastic (r : Nat)
deriving DecidableEq, Repr

/-- The larger neighbour in magnitude or the smaller, for a magnitude `q + rem / den` of a value with sign `neg`
(R50). -/
def roundQ (mode : RMode) (neg : Bool) (q rem den : Nat) : Nat :=
  if rem = 0 then q else
    match mode with
    | .rne => if 2 * rem < den then q else if 2 * rem > den then q + 1 else if q % 2 = 0 then q else q + 1
    | .toZero => q
    | .down => if neg then q + 1 else q
    | .up => if neg then q else q + 1
    | .stochastic r => if 2 ^ 24 * rem / den > r then q + 1 else q

/-- m × 2^e rounded to a multiple of 2^u, as that multiple's count; `sticky` says that the value lies strictly above
m × 2^e and below its next step (R50). -/
def roundAt (mode : RMode) (neg : Bool) (m : Nat) (e u : Int) (sticky : Bool) : Nat :=
  let m2 := if sticky then 2 * m + 1 else m
  let e2 := if sticky then e - 1 else e
  if u ≤ e2 then m2 * 2 ^ (e2 - u).toNat
  else
    let den := 2 ^ (u - e2).toNat
    roundQ mode neg (m2 / den) (m2 % den) den

/-- The sign bit of a format, set or clear. -/
def Fmt.sign (f : Fmt) (neg : Bool) : Nat := if neg then 2 ^ (f.eb + f.mb) else 0

/-- What a value past the largest finite one becomes (R54). Where that is a NaN it takes the value's sign, unless NaNs are
canonical (`keep` false): those are positive. -/
def Fmt.overflow (f : Fmt) (mode : RMode) (sat keep neg : Bool) : Nat :=
  if sat ∨ (¬ f.ieee ∧ ¬ f.oneNan) then f.sign neg + f.top
  else if f.oneNan then f.sign (keep && neg) + 0x7F
  else
    match mode with
    | .toZero => f.sign neg + f.top
    | .down => if neg then f.sign neg + f.top + 1 else f.top
    | .up => if neg then f.sign neg + f.top else f.top + 1
    | _ => f.sign neg + f.top + 1

/-- A NaN in a format (R49, R54): canonical, or its sign and the top fraction bits that fit with the quiet bit set;
E2M1 has none and takes a zero of the sign. -/
def Fmt.nanBits (f : Fmt) (keep neg : Bool) (frac width : Nat) : Nat :=
  if ¬ f.ieee ∧ ¬ f.oneNan then f.sign neg
  else if ¬ keep then f.canon
  else if f.oneNan then f.sign neg + 0x7F
  else
    let fr := if width ≤ f.mb then frac * 2 ^ (f.mb - width) else frac / 2 ^ (width - f.mb)
    f.sign neg + (2 ^ f.eb - 1) * 2 ^ f.mb + (fr ||| 2 ^ (f.mb - 1))

/-- A finite magnitude rounded into a format, with its sign (R50, R54). -/
def Fmt.roundFin (f : Fmt) (mode : RMode) (sat keep neg : Bool) (m : Nat) (e : Int) (sticky : Bool) : Nat :=
  if m = 0 ∧ ¬ sticky then f.sign neg
  else
    let lowest := 1 - (f.bias : Int) - f.mb
    let u := max ((bitLen m : Int) - 1 + e - f.mb) lowest
    let b := (u - lowest).toNat * 2 ^ f.mb + roundAt mode neg m e u sticky
    if b > f.top then f.overflow mode sat keep neg else f.sign neg + b

/-- A value converted to a float format: mode, SAT, and whether a NaN keeps its sign and payload, where it does not it is
canonical (R49, R50, R54). -/
def Fmt.encode (f : Fmt) (mode : RMode) (sat keep : Bool) (x : Num) : Nat :=
  match x with
  | .nan neg fr w => f.nanBits keep neg fr w
  | .inf neg =>
    if sat ∨ (¬ f.ieee ∧ ¬ f.oneNan) then f.sign neg + f.top
    else if f.oneNan then f.sign (keep && neg) + 0x7F
    else f.sign neg + f.top + 1
  | .fin neg m e => f.roundFin mode sat keep neg m e false

/-- `Round(x, fmt)`: RNE, no saturation, canonical NaN (R9, R53). -/
def Fmt.round (f : Fmt) (x : Num) : Nat := f.encode .rne false false x

/-- A value converted to a signed integer of `w` bits (R55). -/
def intEncode (w : Nat) (mode : RMode) (sat : Bool) (x : Num) : Nat :=
  match x with
  | .nan .. => 0
  | .inf neg => if sat then (if neg then 2 ^ (w - 1) else 2 ^ (w - 1) - 1) else 2 ^ (w - 1)
  | .fin neg m e =>
    let q := roundAt mode neg m e 0 false
    if neg ∧ q ≤ 2 ^ (w - 1) then wrap w (-(q : Int))
    else if ¬ neg ∧ q < 2 ^ (w - 1) then q
    else if sat then (if neg then 2 ^ (w - 1) else 2 ^ (w - 1) - 1) else 2 ^ (w - 1)

/-- An integer as an exact value. -/
def Num.ofInt (x : Int) : Num := .fin (x < 0) x.natAbs 0

/-- Signed `m × 2^e` at a common exponent: the pair of integers and that exponent. -/
def alignTo (na : Bool) (ma : Nat) (ea e : Int) : Int :=
  let v : Int := (ma * 2 ^ (ea - e).toNat : Nat)
  if na then -v else v

/-- The exact sum (R41; zero signs by R130). -/
def Num.add (x y : Num) : Num :=
  match x, y with
  | .nan .., _ => .qnan
  | _, .nan .. => .qnan
  | .inf a, .inf b => if a = b then .inf a else .qnan
  | .inf a, _ => .inf a
  | _, .inf b => .inf b
  | .fin na ma ea, .fin nb mb eb =>
    let e := min ea eb
    let s := alignTo na ma ea e + alignTo nb mb eb e
    if s = 0 then .fin (na && nb) 0 0 else .fin (s < 0) s.natAbs e

/-- The value with its sign changed. -/
def Num.neg : Num → Num
  | .nan s f w => .nan s f w
  | .inf s => .inf (!s)
  | .fin s m e => .fin (!s) m e

/-- The exact product (R41). -/
def Num.mul (x y : Num) : Num :=
  match x, y with
  | .nan .., _ => .qnan
  | _, .nan .. => .qnan
  | .inf a, .inf b => .inf (a != b)
  | .inf a, .fin b m _ => if m = 0 then .qnan else .inf (a != b)
  | .fin a m _, .inf b => if m = 0 then .qnan else .inf (a != b)
  | .fin a ma ea, .fin b mb eb => .fin (a != b) (ma * mb) (ea + eb)

/-- Whether x < y, for values that are not NaN. -/
def Num.lt (x y : Num) : Bool :=
  match x, y with
  | .nan .., _ => false
  | _, .nan .. => false
  | .inf a, .inf b => a && !b
  | .inf a, .fin .. => a
  | .fin .., .inf b => !b
  | .fin na ma ea, .fin nb mb eb =>
    let e := min ea eb
    alignTo na ma ea e < alignTo nb mb eb e

/-- Whether a value is NaN. -/
def Num.isNan : Num → Bool
  | .nan .. => true
  | _ => false

/-- The sign of a value. -/
def Num.negative : Num → Bool
  | .nan s .. => s
  | .inf s => s
  | .fin s .. => s

/-- minimumNumber and maximumNumber (R42); −0 lies below +0. -/
def Num.pick (larger : Bool) (x y : Num) : Num :=
  if x.isNan then (if y.isNan then .qnan else y)
  else if y.isNan then x
  else if x.lt y then (if larger then y else x)
  else if y.lt x then (if larger then x else y)
  else if x.negative then (if larger then y else x)
  else (if larger then x else y)

/-- Whether a floating-point condition holds (R42, R68). -/
def Num.cond (c : Nat) (x y : Num) : Bool :=
  let un := x.isNan || y.isNan
  let lt := x.lt y
  let gt := y.lt x
  match c with
  | 0 => !un && !lt && !gt
  | 1 => un || lt || gt
  | 2 => !un && lt
  | 3 => !un && !lt
  | 4 => !un && !gt
  | 5 => !un && gt
  | 6 => un
  | _ => !un

/-- The integer square root of `t` below 2^n, bit by bit. -/
def sqrtBits : Nat → Nat → Nat → Nat
  | 0, _, acc => acc
  | n + 1, t, acc =>
    let c := acc + 2 ^ n
    sqrtBits n t (if c * c ≤ t then c else acc)

/-- The correctly rounded reciprocal (R60). -/
def Fmt.recip (f : Fmt) (x : Num) : Nat :=
  match x with
  | .nan .. => f.canon
  | .inf s => f.sign s
  | .fin s m e =>
    if m = 0 then f.round (.inf s)
    else
      let k := bitLen m + f.mb + 4
      f.roundFin .rne false false s (2 ^ k / m) (-(k : Int) - e) (2 ^ k % m ≠ 0)

/-- The correctly rounded square root (R41, R60). -/
def Fmt.sqrt (f : Fmt) (x : Num) : Nat :=
  match x with
  | .nan .. => f.canon
  | .inf s => if s then f.canon else f.round (.inf false)
  | .fin s m e =>
    if m = 0 then f.sign s
    else if s then f.canon
    else
      let odd := if e % 2 = 0 then 0 else 1
      let k := f.mb + 4
      let t := m * 2 ^ (2 * k + odd)
      let r := sqrtBits (k + f.mb + 4) t 0
      f.roundFin .rne false false false r ((e - odd) / 2 - k) (r * r ≠ t)

/-- ln 2 × 2^256, rounded down. -/
def ln2Fix : Nat := 0xb17217f7d1cf79abc9e3b39803f2f6af40f343267298b62d8a0d175b8baafa2b

/-- The sum of t^k / k! on 256 fraction bits, from term `k` on, `n` terms. -/
def expTerms (t : Nat) : Nat → Nat → Nat → Nat
  | 0, _, _ => 0
  | n + 1, k, term => term + expTerms t n (k + 1) (term * t / 2 ^ 256 / (k + 1))

/-- 2^x for a finite x as m × 2^e and whether bits below m are lost: exact at integers, otherwise on 256 fraction
bits, far past what any format here needs to round. -/
def exp2Fin (neg : Bool) (m : Nat) (e : Int) : Nat × Int × Bool :=
  if 0 ≤ e then
    let n := min (m * 2 ^ (min e.toNat 16)) 4096
    (1, if neg then -(n : Int) else n, false)
  else
    let den := 2 ^ (-e).toNat
    let q := min (m / den) 4096
    let fr := m % den
    if fr = 0 then (1, if neg then -(q : Int) else q, false)
    else
      let n : Int := if neg then -(q : Int) - 1 else q
      let g := if neg then den - fr else fr
      let t := g * ln2Fix / den
      (expTerms t 64 0 (2 ^ 256), n - 256, true)

/-- The correctly rounded power of two (R60). -/
def Fmt.exp2 (f : Fmt) (x : Num) : Nat :=
  match x with
  | .nan .. => f.canon
  | .inf s => if s then 0 else f.round (.inf false)
  | .fin s m e =>
    if m = 0 then f.round (.fin false 1 0)
    else
      let r := exp2Fin s m e
      f.roundFin .rne false false false r.1 r.2.1 r.2.2

/-- The magnitudes of f32 within one ulp of m × 2^e, an ulp taken at that value (R60). -/
def ulpCandidates (m : Nat) (e : Int) : List Nat :=
  let f := fmtF32
  let lowest := 1 - (f.bias : Int) - f.mb
  let u := max ((bitLen m : Int) - 1 + e - f.mb) lowest
  let base := f.roundFin .toZero true false false m e false
  let near := [base - 2, base - 1, base, base + 1, base + 2]
  let ok := near.filter fun b =>
    match f.decode b with
    | .fin _ k j =>
      let lo := min (min e j) u
      (alignTo false k j lo - alignTo false m e lo).natAbs ≤ 2 ^ (u - lo).toNat
    | _ => false
  ok.eraseDups

/-- One of the results within one ulp, the one that the device's own choice `n` names (R60; log entry 7). -/
def pickUlp (neg : Bool) (m : Nat) (e : Int) (sticky : Bool) (n : Nat) : Nat :=
  let f := fmtF32
  let rne := f.roundFin .rne false false false m e sticky
  let c := ulpCandidates m e
  f.sign neg + (if rne > f.top then rne else c.getD (n % c.length) rne)

/-- VRCP on an f32 lane: special results as given, otherwise within one ulp (R60; log entry 7). -/
def vrcpF32 (b : Nat) : Nat :=
  match fmtF32.decode b with
  | .fin s m e =>
    if m = 0 then fmtF32.recip (.fin s m e)
    else
      let k := bitLen m + 96
      pickUlp s (2 ^ k / m) (-(k : Int) - e) (2 ^ k % m ≠ 0) (Config.vrcpPick (bv 32 b))
  | x => fmtF32.recip x

/-- VEXP2 on an f32 lane: special results as given, otherwise within one ulp (R60; log entry 7). -/
def vexp2F32 (b : Nat) : Nat :=
  match fmtF32.decode b with
  | .fin s m e =>
    let r := exp2Fin s m e
    if m = 0 ∨ r.2.2 = false then fmtF32.exp2 (.fin s m e)
    else pickUlp false r.1 r.2.1 true (Config.vexp2Pick (bv 32 b))
  | x => fmtF32.exp2 x

/-- The float format of a 4-bit format code, if it names one (R37). -/
def fmtOfCode : Nat → Option Fmt
  | 0 => some fmtF32
  | 1 => some fmtF16
  | 2 => some fmtBf16
  | 3 => some fmtE4m3
  | 4 => some fmtE5m2
  | 5 => some fmtE2m1
  | _ => none

/-- The element width of a format code (R37). -/
def codeWidth : Nat → Nat
  | 0 => 32
  | 1 => 16
  | 2 => 16
  | 3 => 8
  | 4 => 8
  | 5 => 4
  | 6 => 8
  | 7 => 32
  | 8 => 8
  | 9 => 4
  | 10 => 8
  | 11 => 8
  | _ => 4

/-- The value of one element of a format code 0 to 7 (R37, R39, R43, R44). -/
def codeDecode (code b : Nat) : Num :=
  match fmtOfCode code with
  | some f => f.decode b
  | none => Num.ofInt (sgn (codeWidth code) b)

/-- A value converted to an element of a format code 0 to 7 (R50, R54, R55). -/
def codeEncode (code : Nat) (mode : RMode) (sat keep : Bool) (x : Num) : Nat :=
  match fmtOfCode code with
  | some f => f.encode mode sat keep x
  | none => intEncode (codeWidth code) mode sat x

/-- A converter configuration word (R49). -/
structure Conv where
  seed : Nat
  src : Nat
  dst : Nat
  round : Nat
  sat : Bool
  nanm : Nat
  rsvd : Nat
deriving DecidableEq, Repr

/-- The fields of a configuration word (R49). -/
def Conv.ofWord (n : Nat) : Conv :=
  ⟨bits n 31 16, bits n 15 12, bits n 11 8, bits n 7 5, bits n 4 4 = 1, bits n 3 2, bits n 1 0⟩

/-- Whether a configuration is accepted (R37, R49): no reserved code, destination not input-only, ROUND and NANM
defined, reserved bits zero. -/
def Conv.ok (c : Conv) : Bool :=
  c.src ≤ 12 && c.dst ≤ 9 && c.round ≤ 4 && c.nanm ≤ 2 && c.rsvd == 0

/-- The register L when a configuration takes effect (R50). -/
def Conv.seedL (c : Conv) : BitVec 32 := bv 32 (c.seed * 65536 + (c.seed ^^^ 0xACE1))

/-- One advance of L (R50). -/
def advanceL (l : BitVec 32) : BitVec 32 :=
  if l.getLsbD 0 then (l >>> 1) ^^^ 0x80200003#32 else l >>> 1

/-- The rounding mode of a configuration at a value of L (R49, R50). -/
def Conv.mode (c : Conv) (l : BitVec 32) : RMode :=
  match c.round with
  | 0 => .rne
  | 1 => .toZero
  | 2 => .down
  | 3 => .up
  | _ => .stochastic (l.toNat % 2 ^ 24)

/-- A NaN input under NANM 2 becomes +0 (R49). -/
def Conv.clean (c : Conv) (x : Num) : Num := if c.nanm = 2 ∧ x.isNan then .fin false 0 0 else x

/-- One element converted, and L advanced once (R50). Only NANM 0 makes NaNs canonical; under NANM 2 no input is a NaN, and one
that an overflow makes takes the input's sign (R54). -/
def Conv.elem (c : Conv) (l : BitVec 32) (x : Num) : Nat × BitVec 32 :=
  (codeEncode c.dst (c.mode l) c.sat (c.nanm ≠ 0) (c.clean x), advanceL l)

/-- Elements converted in order (R51). -/
def Conv.elems (c : Conv) : BitVec 32 → List Num → List Nat × BitVec 32
  | l, [] => ([], l)
  | l, x :: t =>
    let r := c.elem l x
    let rest := c.elems r.2 t
    (r.1 :: rest.1, rest.2)

/-- A converter with ROUND 0, SAT 0 and NANM 0 on one element (R53, R131). -/
def convertElem (src dst b : Nat) : Nat := codeEncode dst .rne false false (codeDecode src b)

/-- The parameters of a DB format: magnitude bits b and the step d to the second exponent (R46, R48). -/
def dbBits (code : Nat) : Nat := if code = 8 then 6 else 2
def dbStep (code : Nat) : Nat := if code = 8 then 3 else 1

/-- The value of a DB element under its block's exponents (R46). The spec gives the NaNs of a block no sign and no payload: here
they are positive with none, whatever the element's bits (log entry 82). -/
def dbDecode (code e0 e1 el : Nat) : Num :=
  if e0 = 0xFF ∨ e1 = 0xFF then .qnan
  else
    let b := dbBits code
    let sel := bits el (b + 1) (b + 1)
    let f : Int := (b : Int) - 1
    .fin (bits el b b = 1) (el % 2 ^ b) (((if sel = 0 then e0 else e1) : Int) - 127 - f)

/-- The value of an MX element under its block's scale (R45). The spec gives the NaNs of a block no sign and no payload: here
they are positive with none, whatever the element's bits (log entry 82). -/
def mxDecode (f : Fmt) (scale el : Nat) : Num :=
  if scale = 0xFF then .qnan
  else
    match f.decode el with
    | .fin s m e => .fin s m (e + scale - 127)
    | x => x

/-- Floor(Log2(|x|)) of a finite non-zero value. -/
def Num.lg : Num → Int
  | .fin _ m e => (bitLen m : Int) - 1 + e
  | _ => 0

/-- Whether a value is a finite non-zero one. -/
def Num.isFinNz : Num → Bool
  | .fin _ m _ => m ≠ 0
  | _ => false

/-- Whether a value is infinite. -/
def Num.isInf : Num → Bool
  | .inf _ => true
  | _ => false

/-- Whether |x| × 2^(127 + f − E) passes mmax (R48). -/
def dbPast (code : Nat) (ex : Int) (x : Num) : Bool :=
  match x with
  | .fin _ m e =>
    let b := dbBits code
    let k := e + 127 + ((b : Int) - 1) - ex
    if 0 ≤ k then m * 2 ^ k.toNat > 2 ^ b - 1 else m > (2 ^ b - 1) * 2 ^ (-k).toNat
  | _ => false

/-- The magnitude of a DB element, its selector, its sign: rounded once under its exponent (R48, R50). -/
def dbElem (code : Nat) (mode : RMode) (ex : Int) (sel : Bool) (x : Num) : Nat :=
  let b := dbBits code
  let mmax := 2 ^ b - 1
  let m :=
    match x with
    | .fin neg m e => min (roundAt mode neg m (e + 127 + ((b : Int) - 1) - ex) 0 false) mmax
    | _ => mmax
  (if sel then 2 ^ (b + 1) else 0) + (if x.negative then 2 ^ b else 0) + m

/-- The largest of a list of exponents, infinities counting as `none`: the bias is added by the caller. -/
def maxInt : Int → List Int → Int
  | a, [] => a
  | a, x :: t => maxInt (max a x) t

/-- The elements of a DB block under its final exponents, L advanced once an element (R48, R50). -/
def dbElems (c : Conv) (e0 e1 : Int) (low : Num → Bool) : BitVec 32 → List Num → List Nat × BitVec 32
  | l, [] => ([], l)
  | l, x :: t =>
    let sel := !(low x)
    let r := dbElems c e0 e1 low (advanceL l) t
    (dbElem c.dst (c.mode l) (if sel then e1 else e0) sel x :: r.1, r.2)

/-- L after `n` advances. -/
def advanceN : Nat → BitVec 32 → BitVec 32
  | 0, l => l
  | n + 1, l => advanceN n (advanceL l)

/-- A DB block built from its input values: E0, E1, the elements, and the register L after it (R48). -/
def dbEncode (c : Conv) (l : BitVec 32) (xs0 : List Num) : Nat × Nat × List Nat × BitVec 32 :=
  let xs := xs0.map c.clean
  let nan : Nat × Nat × List Nat × BitVec 32 :=
    (0xFF, 0xFF, xs.map (fun _ => 0), advanceN xs.length l)
  let someInf := xs.any Num.isInf
  if xs.any Num.isNan || (someInf && !c.sat) then nan
  else
    let fins := xs.filter Num.isFinNz
    let d := dbStep c.dst
    let lgs := fins.map Num.lg
    match lgs with
    | [] =>
      if someInf then
        let r := dbElems c 0 254 (fun x => !x.isInf) l xs
        (254, 254, r.1, r.2)
      else
        let r := dbElems c 0 0 (fun _ => true) l xs
        (0, 0, r.1, r.2)
    | g :: gs =>
      let emax := maxInt g gs
      let isLow : Num → Bool := fun x => !x.isInf && (!x.isFinNz || someInf || x.lg ≤ emax - d)
      let lows := (fins.filter isLow).map Num.lg
      let e1a : Int := if someInf then 255 else emax + 127
      let e0a : Int :=
        match lows with
        | [] => e1a
        | h :: hs => maxInt h hs + 127
      if e1a > 254 ∧ ¬ c.sat then nan
      else
        let e1b := max (if e1a > 254 then 254 else e1a) 0
        let e0b := max (if e0a > 254 then 254 else e0a) 0
        let e1 := if (xs.filter (fun x => !isLow x)).any (dbPast c.dst e1b) ∧ e1b < 254 then e1b + 1 else e1b
        let e0 := if (xs.filter isLow).any (dbPast c.dst e0b) ∧ e0b < 254 then e0b + 1 else e0b
        let r := dbElems c e0 e1 isLow l xs
        (e0.toNat, e1.toNat, r.1, r.2)

/-- Element `i` of packed elements of width `w` (R38). -/
def unpackAt (w n i : Nat) : Nat := bits n (w * i + w - 1) (w * i)

/-- `k` packed elements (R38). -/
def unpack (w k n : Nat) : List Nat := (List.range k).map (unpackAt w n)

/-- Elements packed, element 0 least significant (R38). -/
def pack (w : Nat) : List Nat → Nat
  | [] => 0
  | x :: t => x % 2 ^ w + 2 ^ w * pack w t

end Sys2Proof.Machine
end

