-- ==== Sys2Proof/Machine/State.lean ====
section
/-! DEFINITION. The state of the module as plain data: memory, the units of every cell, grove and region, the module's
own tables, and the model's own scheduling fields; why a step can stop; and the state after reset. -/

namespace Sys2Proof.Machine

/-! ## Memory -/

/-- The module's bytes by local physical address (R168, R169): listed bytes with rising addresses, none zero; a byte
not listed reads zero (log entry 4). Module memory, banks, canopy, accumulators and instruction stores lie here. -/
abbrev Memory := List Host.Cell

/-- The canonical form: addresses strictly rising from `lo`, no listed byte zero. -/
def memWfFrom : Nat → Memory → Bool
  | _, [] => true
  | lo, (a, b) :: t => lo ≤ a && b != 0 && memWfFrom (a + 1) t

/-- The canonical form of memory. -/
abbrev Memory.wf (m : Memory) : Prop := memWfFrom 0 m = true

/-- The byte at an address; a byte not listed reads zero (log entry 4). -/
def Memory.get : Memory → Nat → Byte
  | [], _ => 0
  | (b, v) :: t, a => if a < b then 0 else if a = b then v else Memory.get t a

/-- Memory with byte `v` at address `a`; writing zero removes the entry. -/
def Memory.set : Memory → Nat → Byte → Memory
  | [], a, v => if v = 0 then [] else [(a, v)]
  | (b, u) :: t, a, v =>
    if a < b then (if v = 0 then (b, u) :: t else (a, v) :: (b, u) :: t)
    else if a = b then (if v = 0 then t else (a, v) :: t)
    else (b, u) :: Memory.set t a v

/-- Memory after a list of byte writes, the newest first. -/
def Memory.write (m : Memory) : List Host.Cell → Memory
  | [] => m
  | (a, v) :: t => Memory.set (Memory.write m t) a v

/-! ## Task cores -/

/-- The task that a core runs: its tag, priority, work identifier, time (R148), the cycle it began to run (R145), the
effective priority it was chosen with (R144, R154), and whether its next instruction hits no breakpoint (R411). -/
structure Task where
  colour : BitVec 12
  iter : BitVec 16
  prio : Nat
  time : Word
  wid : Word
  started : Nat
  eff : Nat
  noHit : Bool
deriving DecidableEq, Repr

/-- The trap state that stays with a frozen task (R387): INTRAP, S.CAUSE, S.EPC, S.ESTATUS, S.FADDR, and whether trap entry
has suspended the tracking of a loop (R139). -/
structure TrapState where
  intrap : Bool
  cause : Word
  epc : Word
  estatus : Word
  faddr : Word
  loopHeld : Bool
deriving DecidableEq, Repr

/-- A continuation record (R148) or full record (R149): registers by number, resume address, wait kind, value slot,
object and register, and the loop state of a full record. `since` is the cycle it became
runnable, if it is; `order` the number of its suspension; `home` the grove whose core suspended it; `dval` a value delivered
for DREG where LIVE does not name it (R152); `trap` the trap state of a frozen task or of a freeze wave's running task
(R387); `pend` the requests that its wait covers (R208, R354). -/
structure Record where
  full : Bool
  pc : BitVec 16
  live : BitVec 32
  regs : List Word
  task : Task
  wait : Nat
  vslot : Nat
  wobj : Nat
  dreg : BitVec 5
  body : BitVec 16 × BitVec 16
  loopActive : Bool
  loopcnt : Word
  since : Option Nat
  order : Nat
  home : Nat
  dval : Option Word
  trap : Option TrapState
  halted : Bool
  pend : List Nat
deriving DecidableEq, Repr

/-- Who holds a program time (R191, R192): a task core; what the tokens of a cell carry; an agent of a cell, by kind (0 a twig,
1 a chain, 2 an unordered request, 3 a generator, 4 an owner, 5 a node of histories or rings) and number; a matrix element's
handlers; a host window (R424); a stream's requests at their target (R197); or an access on its own that follows a time (log
entry 13). -/
inductive Who where
  | core (g : Nat)
  | cell (mc : Nat)
  | agent (mc kind n : Nat)
  | mx (g : Nat)
  | window (n : Nat)
  | stream (source : Nat) (isCell : Bool) (agent : Nat)
  | after (p : Nat)
deriving DecidableEq, Repr

/-- A line held by an L1, with its write time, lease end, the cycle since which its bytes are the home's (R194), and its bytes
(R193). -/
structure L1Line where
  line : Nat
  w : Nat
  e : Nat
  since : Nat
  bytes : List Byte
deriving DecidableEq, Repr

/-- A translation held by a buffer (R182): ASID, page base and size, physical base, attributes of the entry. -/
structure Xlat where
  asid : Nat
  base : Nat
  size : Nat
  pa : Nat
  attr : BitVec 64
  pte : Nat
deriving DecidableEq, Repr

/-- A mail channel's queued words, at most 8 (R153). -/
structure Mail where
  words : List Word
deriving DecidableEq, Repr

/-- A word held for a full mail channel (R155, R172): its channel, the grove and the designator of its sender, and the cycle since
which it is held. -/
structure HeldWord where
  chan : Nat
  word : Word
  src : Nat
  desig : Nat
  since : Nat
deriving DecidableEq, Repr

/-- A unit's copy of a frontier slot (R273): its elements in ascending value and its update count. -/
structure FCopy where
  elems : List Word
  count : Nat
deriving DecidableEq, Repr

/-- A task core (R122 to R124, R139, R144 to R156, R193, R208, R390). G0 is kept zero and always reads zero; `trap` holds
INTRAP and system registers 1 to 4, `scratch` system register 6; `stall` is the cycle since
which the current instruction is held; `portWait` a drain port (0) or mail channel (1), with grove and number, that holds
the core's last store (R172, R230); `kept` the record whose registers still stand on the core (R362), `opens` a resumed
task's instruction that asks for a stream, with its target (R349); `mailHeld` words held for channels (R155); `issued` says that
it has issued an instruction in the present cycle (R124), `halting` that a HALT waits for its held instruction (R392). -/
structure Core where
  regs : List Word
  pc : BitVec 16
  loopActive : Bool
  bodyStart : BitVec 16
  bodyEnd : BitVec 16
  loopcnt : Word
  trap : TrapState
  scratch : Word
  asid : Nat
  task : Option Task
  halted : Bool
  halting : Bool
  issued : Bool
  stall : Option Nat
  slots : List Record
  suspOrder : Nat
  susp : Tbl (BitVec 32)
  mail : Tbl Mail
  mailHeld : List HeldWord
  portWait : Option (Nat × Nat × Nat)
  inbound : List (Nat × Word)
  runQ : List (BitVec 512)
  ptime : Nat
  l1 : List L1Line
  tlb : List Xlat
  lost : List Nat
  plmask : List Nat
  rldOut : List Nat
  rldLost : List Nat
  rldErr : Bool
  fcopies : Tbl FCopy
  kept : Option Nat
  opens : Option (BitVec 16 × Nat)
deriving DecidableEq, Repr

/-! ## Frontier copies and differential nodes -/

/-- A DSRC (R282): open or closed, its frontier element and the time slot that counts it, and the ring slot it is in
with the count read and the next change; `stale`: another record was loaded over its own (R108), so it closes. -/
structure Dsrc where
  isOpen : Bool
  element : Word
  item : Nat × Nat
  cur : Option (Nat × Option Nat × Nat)
  stale : Bool
deriving DecidableEq, Repr

/-- A DOUT (R283): the slot it fills, the changes in it, the cycle of the last write, the counts it holds, the handle the
slot is of; `stale`: another record was loaded over its own (R108), so the slot is posted. -/
structure Dout where
  slot : Option Nat
  n : Nat
  last : Nat
  items : List (Nat × Nat)
  ring : Nat
  stale : Bool
deriving DecidableEq, Repr

/-- An NPJOIN (R246, R247): a count per branch, detached branches, and the cycle since which it is stuck. -/
structure Join where
  counts : List Nat
  detached : List Nat
  stuck : Option Nat
deriving DecidableEq, Repr

/-! ## Cells -/

/-- A token in the matching store (R84, R85): the entry's number, its node and port. -/
structure Entry where
  id : Nat
  node : Nat
  port : Nat
  tok : Token
deriving DecidableEq, Repr

/-- A record of the overflow queue (R87, R88, R93): its place, whether it is a collided token, and the progress item
it carries, for an update that a NATOM's request waits for the logical cell and the id of that request (R202, R205), and whether
it enters without a breakpoint's check (R411); the token's bytes lie in memory. -/
structure OvRec where
  slot : Nat
  collided : Bool
  item : Option (Nat × Nat)
  req : Option (Nat × Nat)
  exempt : Bool
deriving DecidableEq, Repr

/-- A twig register's value: 256 bits and the null flag (R115). -/
structure TVal where
  bits : BitVec 256
  null : Bool
deriving DecidableEq, Repr

/-- An output a twig has written: whether it is null and its payload words (R70, R115). -/
structure TOut where
  null : Bool
  words : List Word
deriving DecidableEq, Repr

/-- A twig context (R112): the node record and firing that launched it (or the packet's handler, R255), its inputs by
port, the generation of the block it latched, the next word, temporaries and outputs, the order of its launch, and the registers
whose results are not yet ready, each with the cycle at which it is (R112, R124). -/
structure Twig where
  node : Nat
  record : BitVec 96
  colour : BitVec 12
  iter : BitVec 16
  seq : BitVec 8
  ins : List Token
  entry : Nat
  header : BitVec 64
  code : List Code
  next : Nat
  temps : List TVal
  outA : Option TOut
  outB : Option TOut
  order : Nat
  stall : Option Nat
  lsid : Nat
  packet : Nat
  busy : List (Nat × Nat)
deriving DecidableEq, Repr

/-- A mapping entry as written and as latched (R177). -/
structure MapEntry where
  v : Bool
  w : Bool
  st : Nat
  err : Nat
  va : Nat
  asid : Nat
  boff : Nat
  size : Nat
  nextWord : Word
  lines : List Nat
deriving DecidableEq, Repr

/-- An address generator (R185, R186, R393): CUR and whether the next trigger sets it anew, the shape latched at the
trigger, the extents in force, held parameters, the round that runs with its trigger's token, and for a remote element the
request it waits for and the bytes that came. -/
structure Gen where
  cur : Word
  fresh : Bool
  shape : BitVec 512
  extents : List Nat
  params : List (Nat × Word)
  busy : Bool
  node : Nat
  record : BitVec 96
  colour : BitVec 12
  iter : BitVec 16
  round : Nat
  index : List Nat
  count : Nat
  inRound : Bool
  ins : List Token
  wait : Option Nat
  got : Option (List Byte)
deriving DecidableEq, Repr

/-- A request at the memory interface (R187, R188): the firing that issued it and its access. -/
structure MemReq where
  id : Nat
  node : Nat
  record : BitVec 96
  colour : BitVec 12
  iter : BitVec 16
  seq : BitVec 8
  store : Bool
  addr : Word
  data : List Word
  null : Bool
  unord : Bool
  oseq : Nat
  opred : Nat
  osucc : Nat
  ins : List Token
  waiting : Bool
deriving DecidableEq, Repr

/-- An open chain (R188). -/
structure Chain where
  colour : BitVec 12
  iter : BitVec 16
  last : Nat
  lastsucc : Nat
deriving DecidableEq, Repr

/-! ## Arrangements -/

/-- An entry of an arrangement (R293): record words, time, diff, key hash, and the colour and iteration that DCON's
buffer keeps beside it (R294). -/
structure AEntry where
  words : List Word
  time : Word
  diff : Int
  hash : BitVec 32
  colour : BitVec 12
  iter : BitVec 16
deriving DecidableEq, Repr

/-- A pass that runs (R303): the C it fixed, its next bucket, the tiles that entries named when it began, the cycle it
stalls since, and whether it must move a full sapwood, so that firings wait for its end (R294). -/
structure PassRun where
  c : List Word
  bucket : Nat
  tiles : List Nat
  stall : Option Nat
  full : Bool
deriving DecidableEq, Repr

/-- An arrangement (R290 to R295): descriptor bytes 0 to 31, the cell and the node key of its maintaining node, the open
batch, sealed batches oldest first, heartwood, PASSN, CF, the tasks that ask for a pass (grove, the cycle they wait
since, whether it has ended), the pass that runs, DCON's bookkeeping (last arrival, held times with their counts), and the corrections of a DRED firing that wait for room
with the item it still counts (R294). `c` is the compaction frontier as last computed. -/
structure Arr where
  desc : BitVec 256
  cell : Nat
  node : Nat
  openB : List AEntry
  sealed : List (List AEntry)
  hw : List AEntry
  passn : Nat
  cf : List Word
  c : List Word
  asks : List (Nat × Nat × Bool)
  run : Option PassRun
  last : Nat
  held : List (Word × (Nat × Nat))
  inbox : List AEntry
  inboxItem : Option (Nat × Nat)
deriving DecidableEq, Repr

/-- A reader handle (R298). -/
structure Reader where
  v : Bool
  mode : Bool
  slot : Nat
  held : Word
deriving DecidableEq, Repr

/-! ## The cell as a whole -/

/-- A cell (R17, R84 to R96, R108, R112, R171, R177, R184, R187, R201, R414, R419). Node and twig stores list what is
loaded; node keys are 1,024 × context + node. `ready` holds the cycle since which each instance has been ready (R33);
`nextCtx` a context change under way; `reconf` records that wait for in-flight uses (R108), `pendTwig` twig blocks that
wait (R109); `pend` outputs of a long firing that wait for output room (R308); `inq` tokens on the way to the cell, each
with the number of its sender's stream (0: none); `outNo` the firing of each token of `outq`, counted by `firing` (R343);
`held` tokens that matched a breakpoint or wait behind one, each with whether it is exempt (R408, R411);
`graphCtx` the contexts that a graph load filled (R394); `owners` latched owner ranges by node (base, end); `fired` says that the cell has
fired a node in the present cycle and `issued` that its port unit has issued an instruction in it (R17); the rest is Flehild's. -/
structure Cell where
  nodes : Tbl (BitVec 96)
  active : Nat
  nextCtx : Option Nat
  usable : Nat
  nsuse : List Nat
  graphCtx : List Nat
  code : Tbl Code
  blocks : List Nat
  entries : List Entry
  entrySeq : Nat
  ovf : List OvRec
  spilled : Bool
  inq : List (Nat × Token)
  held : List (Bool × Token)
  outq : List Token
  outNo : List Nat
  firing : Nat
  pend : List (Nat × Token)
  ready : List (Fire × Nat)
  reconf : Tbl (BitVec 96)
  pendTwig : List (Nat × List Code)
  twigs : Tbl Twig
  twigOrder : Nat
  debug : Option Twig
  maps : Tbl MapEntry
  shapes : Tbl (BitVec 512)
  gens : Tbl Gen
  convL : Tbl (BitVec 32)
  chains : List Chain
  reqs : List MemReq
  reqSeq : Nat
  owners : Tbl (Nat × Nat)
  ownerFrozen : List Nat
  forks : Tbl Nat
  joins : Tbl Join
  dsrcs : Tbl Dsrc
  douts : Tbl Dout
  frozenPass : List Nat
  fcopies : Tbl FCopy
  probes : Tbl (List FCopy)
  mssel : Nat
  fired : Bool
  issued : Bool
  intv : Nat
  classNow : List Nat
  classPrev : List Nat
deriving DecidableEq, Repr

/-! ## Regions -/

/-- A colour out of the pool (R162, R164): its draw stamp, and where NRETURN sends, unless it is held since load. -/
structure ColourRec where
  stamp : Nat
  caller : Option (BitVec 12 × BitVec 16 × BitVec 24)
deriving DecidableEq, Repr

/-- The region cell table as last read (R176): grove entries (module grove, packet spill base and MiB) by region grove
index, cell entries (module cell 16 × grove + cell, overflow base and log of its capacity) by logical cell. -/
structure CellTable where
  ngrove : Nat
  spBase : Nat
  spn : Nat
  groves : Tbl (Nat × Nat × Nat)
  cells : Tbl (Nat × Nat × Nat)
deriving DecidableEq, Repr

/-- A fault record (R382), and whether it waits on a failed check of its slot (R383). -/
structure FaultRec where
  code : Nat
  okind : Nat
  nested : Bool
  stuck : Bool
  grove : Nat
  cell : Option Nat
  node : Nat
  tag : Nat
  addr : Word
  aux : Word
  pc : Nat
  wid : Word
  aux2 : Word
  fseq : Nat
  stamp : Nat
  checkFailed : Bool
deriving DecidableEq, Repr

/-- A frozen object (R381): its release number, kind and code, where it is, the tokens or record it keeps, and what
the raising rule keeps with it (a request number, a generator, an output count, a tag). -/
structure Frozen where
  fseq : Nat
  okind : Nat
  code : Nat
  stuck : Bool
  grove : Nat
  cell : Nat
  node : Nat
  colour : BitVec 12
  iter : BitVec 16
  toks : List (Nat × Token)
  task : Option Record
  what : Nat
  aux : Nat
deriving DecidableEq, Repr

/-! ## Launches -/

/-- A stage of a launch as captured (R319). -/
structure StageEnt where
  qcap : Nat
  ctx : Nat
  home : Nat
  ngrove : Nat
  qva : Nat
  cfgva : Nat
deriving DecidableEq, Repr

/-- A launch accepted by a region (R317 to R324): header bytes as captured and its address, the address space and mode
of its issuer, its stages, and the number its signal ends with (grove and context with it). -/
structure Launch where
  hdr : BitVec 2048
  addr : Nat
  asid : Nat
  sup : Bool
  stages : List StageEnt
  signal : Option (Nat × Nat × Nat)
deriving DecidableEq, Repr

/-- A stage queue of the running launch (R328, R335): records in order, the ring's next place, and the affinity table,
least recently used first. -/
structure StageQ where
  recs : List (BitVec 512)
  tail : Nat
  affinity : List (Nat × Nat)
deriving DecidableEq, Repr

/-- The running launch (R323, R326, R331): initial records pushed, tasks that have not ended and tasks ended, open
level groups by scope-15 slot (prefix and count), ticks completed, stage queues, the stage of each grove, groves whose
context change is not complete, the grove that the balancer moves, each die's last stage handled, and
the initial records of KIND 2 not yet started with their indices (R322). -/
structure Running where
  launch : Launch
  pushed : Nat
  live : Nat
  ended : Nat
  groups : Tbl (Nat × Nat)
  ticks : Nat
  tickDue : Nat
  queues : List StageQ
  stageOf : Tbl Nat
  changing : List Nat
  moving : Option Nat
  lastStage : List Nat
  initial : List (BitVec 512 × Nat)
deriving DecidableEq, Repr

/-- A residency entry (R333). -/
structure Resid where
  st : Nat
  tile : Nat
  bankb : Nat
  l2b : Nat
deriving DecidableEq, Repr

/-! ## Links, streams and invocations -/

/-- A Tralek port (R340, R347): status, retries, the pool its peer grants, and the pool granted to that peer. -/
structure Port where
  up : Bool
  peer : Nat
  retries : Nat
  grant : Nat
  given : Nat
deriving DecidableEq, Repr

/-- A request of this module that is not yet complete (R348): its number in the module, op, whether its request slot is
held, the response slot, and what the response does: local address of a block RLD, or the node firing of an invoke; `done`
says that an invoke's result has come and waits for its node to send it on; `due` is the cycle by which it is answered or its
target counts as lost (R208, R347). -/
structure OutReq where
  ident : Nat
  op : Nat
  reqHeld : Bool
  size : Nat
  addr : Nat
  dest : Option Nat
  asid : Nat
  sup : Bool
  node : Nat
  colour : BitVec 12
  iter : BitVec 16
  seq : BitVec 8
  record : BitVec 96
  lines : List Token
  done : Bool
  due : Nat
deriving DecidableEq, Repr

/-- An ordering stream at its source (R347): source agent (task core by grove, or cell), target, slots per side, the
port of its route, outstanding requests in order, the cycle since which every slot is free, whether it is frozen, and the requests
that wait here until its resume (R350). -/
structure Stream where
  isCell : Bool
  agent : Nat
  target : Nat
  slots : Nat
  port : Nat
  out : List OutReq
  idle : Option Nat
  frozen : Bool
  queued : List RemoteReq
deriving DecidableEq, Repr

/-- An agent that waits to open a stream (R349). -/
structure Opener where
  isCell : Bool
  agent : Nat
  target : Nat
  since : Nat
deriving DecidableEq, Repr

/-- A stream at its target that is frozen (R350): the faulting request first, then the held ones, and the fault. -/
structure HeldStream where
  source : Nat
  srcCell : Bool
  srcAgent : Nat
  reqs : List RemoteReq
  code : Nat
deriving DecidableEq, Repr

/-- A live invocation at the target (R355): its entry, number, and the request it answers. -/
structure Invocation where
  entry : Nat
  n : Nat
  region : Nat
  colour : BitVec 12
  source : Nat
  srcAgent : Nat
  ident : Nat
deriving DecidableEq, Repr

/-- A link-plan entry of a region and whether its group is bound (R342), with the receiver's words and token count
(R358), the sender's credit, the logical cell and node that name it (R359), and whether its peer holds it for a wave (R396, R410). -/
structure Plan where
  entry : LinkEntry
  bound : Bool
  lost : Bool
  rxWords : List Word
  credit : Nat
  k : Nat
  user : Option (Nat × Nat)
  held : Bool
deriving DecidableEq, Repr

/-! ## Engines and handles -/

/-- Who writes bytes to a drain port: a task core, an engine context, an engine of another module by its request, or an agent that
nothing holds (R172, R230). -/
inductive Writer where
  | core (g : Nat)
  | engine (g k : Nat)
  | remote (source ident : Nat)
  | other
deriving DecidableEq, Repr

/-- An access of an engine operation to another module that is under way, or a packet: its number, the module, and the port it left
by, none where it stays in this module (R233, R371, R378). -/
structure Ack where
  id : Nat
  module : Nat
  port : Option Nat
deriving DecidableEq, Repr

/-- An operation of an engine context (R222, R225 to R233, R371): number, op, the 64 descriptor bytes captured at issue,
the binding designator or cancel point, the mode at issue, converter register L now and as the present run began, whether
it runs and whether a firing is under way, the firings done, the source bytes moved in this firing, the slots taken (for
SMCAST by branch, 256 for none), detached branches, packets not yet accepted, whether it is cancelled, the error it has
met, converted bytes not yet sent on, the pieces sent on, bytes of the present beat, the remote read it waits for, and
remote writes not yet acknowledged; and for R249 and R334 the bank ranges written (grove,
address, bytes), the canopies written, and whether it wrote elsewhere or read other than module memory; and the program time
of its issuer at issue (R196), the port of a GSEND's route (R373), the indices it has read (R231) and whether the free bytes of its
overlap are put (R227), what its
present run began with (the pieces sent, the bytes not yet sent) and the drain bytes it has taken since, the bytes of a
restarted run that were sent before (R233), and its descriptor with the addresses of its last firing (R249). -/
structure EngOp where
  num : Nat
  op : Nat
  desc : BitVec 512
  bind : Word
  sup : Bool
  convL : BitVec 32
  runL : BitVec 32
  running : Bool
  firing : Bool
  fires : Nat
  moved : Nat
  inSlots : List Nat
  outSlots : List Nat
  detached : List Nat
  remote : Nat
  cancelled : Bool
  err : Option Nat
  payload : List Byte
  sent : Nat
  got : List Byte
  wait : Option Ack
  acks : List Ack
  notes : List (Nat × Nat × Nat)
  canopy : List Nat
  offCanopy : Bool
  srcOff : Bool
  itime : Nat
  port : Option Nat
  index : List Nat
  overlaid : Bool
  runSent : Nat
  runPay : List Byte
  took : List Byte
  skip : Nat
  ran : BitVec 512
deriving DecidableEq, Repr

/-- An engine context (R220 to R224, R230): its queue, ISSUED, TL, ECSTAT fields, and drain port with what it holds up. -/
structure Engine where
  queue : List EngOp
  issued : Nat
  tl : Nat
  err : Bool
  errc : Nat
  nerr : Nat
  errn : Nat
  drain : List Byte
  drainHeld : List (Writer × List Byte)
deriving DecidableEq, Repr

/-- A buffer-table entry (R236): the written fields, the state of each slot (0 free, 1 filling, 2 full, 3 draining),
the heads, and word +24. -/
structure Handle where
  kind : Nat
  base : Nat
  slotsz : Nat
  nslot : Nat
  slots : List Nat
  fh : Nat
  dh : Nat
  w24 : Word
deriving DecidableEq, Repr

/-! ## Glades and barriers -/

/-- A slot of a glade (R366, R368, R373): state (0 free, 1 reserved, 2 filling, 3 full, 4 draining, 5 torn), sender,
whether its own region's freeze holds it and, in `away`, whether its sender's does (HELD is either), phase, the cycle of the last
sign of life and the bound that began then (R347), the port of its grant, and the bytes received of its GSEND with the number that its
sender gives it. -/
structure GSlot where
  st : Nat
  sender : Nat
  held : Bool
  phase : Nat
  seen : Nat
  bound : Nat
  port : Option Nat
  got : Nat
  feed : Nat
  away : Bool
deriving DecidableEq, Repr

/-- A glade (R366, R367): its barrier, handle, sender ranges (first, last), its slots, and the GSENDs whose first packet it has
refused, by sender module and number (R371). -/
structure Glade where
  ab : Nat
  handle : Nat
  senders : List (Nat × Nat)
  slots : List GSlot
  refused : List (Nat × Nat)
deriving DecidableEq, Repr

/-- A phase word (R366). -/
structure Phase where
  posted : Bool
  lost : Bool
  ovf : Bool
  pend : Int
deriving DecidableEq, Repr

/-- An arrival barrier (R365, R366): two phase words and PH. -/
structure Barrier where
  even : Phase
  odd : Phase
  ph : Nat
deriving DecidableEq, Repr

/-- A reservation this grove holds as a sender (R373, R374): where, which slot and phase, whether a freeze at the other side
holds it and, in `away`, whether one of its own region does, the cycle of its last keep-alive, and the port of the route of its
grant (none where it is this module's own). -/
structure Sent where
  module : Nat
  grove : Nat
  glade : Nat
  slot : Nat
  phase : Nat
  held : Bool
  last : Nat
  port : Option Nat
  away : Bool
deriving DecidableEq, Repr

/-! ## The region as a whole -/

/-- A region (R18, R162 to R167, R175, R269 to R278, R290 to R305, R317 to R335, R341, R380 to R396, R407 to R416).
`cpoolSince` is the cycle since which colours wait with none returned (R166); `waitC` NCOLOUR instances that wait for a
grant, oldest first; `frozen` frozen objects; `faults` fault records that wait to be posted; `spill` records in the
spill area by place; `loaded`, `halted` and `stopped` say what runs; `balNext` the balancer's THR and BINT written during an
interval (R330); `purge` colours of purge waves under way, each with
the core whose task issued it and still runs; `stop` the object that a stop holds. -/
structure Region where
  loaded : Bool
  table : CellTable
  rasid : Nat
  cwdog : Nat
  gid : BitVec 32
  rctBase : Nat
  faultq : Word
  tvec : Word
  supBase : Nat
  thr : Nat
  bint : Nat
  lastBalance : Nat
  balNext : Option (Nat × Nat)
  freeColours : List Nat
  colours : Tbl ColourRec
  stampNext : Nat
  heldN : Nat
  waitC : List (Fire × Nat)
  cpoolSince : Option Nat
  shapes : Tbl Word
  fbind : Tbl Nat
  readers : Tbl Reader
  arrs : Tbl Arr
  timeSlots : Tbl Word
  rootF : Tbl (List Word)
  launchQ : List Launch
  running : Option Running
  resView : Tbl (Tbl Resid)
  frozen : List Frozen
  nextFseq : Nat
  faults : List FaultRec
  spill : Tbl Record
  plans : List Plan
  halted : Bool
  stopping : Option Nat
  stopped : Bool
  purge : List (Nat × Option Nat)
  freezing : Option (Nat × Nat × Nat)
  thawing : Option (Nat × Nat × Nat)
  dbp : Tbl (List Word)
  ibp : Tbl Word
  stop : Option FaultRec
  stopTok : List Byte
  stopHeld : Option (Nat × Token)
  stopFire : Option Fire
  stopCore : Option Nat
  pendRelease : List (Nat × BitVec 32)
  listVa : Nat
  listAsid : Nat
  listN : Nat
  trctl : Word
  trdrop : Nat
  trace : Option (Nat × Nat × Nat)
deriving DecidableEq, Repr

/-- A grove's units beside its cells, task core and matrix element (R17): the region that holds it and its index there,
engine contexts, handles, residency and the cycle since which a change of it is not yet told (R334), glades, barriers, the reservation queue, reservations made as a sender, progress
counters (by 64 × scope + slot), the grove translation buffer, the S.WEAR bytes of its own, and Flehild counters with
the snapshot block. -/
structure Grove where
  region : Option Nat
  gidx : Nat
  engines : Tbl Engine
  handles : Tbl Handle
  resid : Tbl Resid
  resSince : Option Nat
  glades : Tbl Glade
  barriers : Tbl Barrier
  gq : List Reservation
  sent : List Sent
  prog : Tbl Nat
  tlb : List Xlat
  ownOsc : Nat
  ownPct : Nat
  counters : List Nat
  snap : List Word
deriving DecidableEq, Repr

/-! ## The matrix array and its element -/

/-- A weight latch (R250): state (0 empty, 1 loading, 2 full for the shadow; the active latch uses `loaded`), the
range, format and scale binding it was loaded with, and the bytes of its 32 columns and their scale entries. -/
structure Latch where
  loaded : Bool
  st : Nat
  off : Nat
  kb : Nat
  fmt : Nat
  skind : Nat
  sboff : Nat
  cols : List (List Byte)
  scales : List (List Byte)
deriving DecidableEq, Repr

/-- An A packet (R253): header word, index in its feed, rows of equal length, and the feed (context and number) that
waits for its acceptance. -/
structure Packet where
  hdr : BitVec 32
  index : Nat
  rows : List (List Byte)
  rowLen : Nat
  ctx : Nat
  opNum : Nat
  order : Nat
deriving DecidableEq, Repr

/-- What stands at a tag (R258, R263, R264): kind 0 a k-step with its sequence, packet and MMA fields and the TLM
number it has taken; kind 1 a read token (ZAFTER, format, context and number); kind 2 a zero token. `order` is the
order of hand-over. -/
structure TagItem where
  kind : Nat
  order : Nat
  seq : Nat
  packet : Packet
  kdep : Nat
  afmt : Nat
  mrows : Nat
  num : Option Nat
  zafter : Bool
  fmt : Nat
  ctx : Nat
  opNum : Nat
deriving DecidableEq, Repr

/-- An accumulator tag (R257, R258): NEXT, queued items in order, held k-steps, the release number of the fault that froze
it, and the k-steps that came while it is frozen, a collided one first. -/
structure Tag where
  next : Nat
  queue : List TagItem
  held : List TagItem
  frozen : Option Nat
  kept : List TagItem
deriving DecidableEq, Repr

/-- A grove's matrix array and matrix element (R249 to R264). `spilled` are the packets that lie in the spill area, oldest
first, and `freed` those whose k-step has been performed or discarded while their handler still runs, by `order` (R256). -/
structure Mx where
  code : Tbl Code
  blocks : List Nat
  handlers : Tbl Word
  arrivals : List Packet
  handled : List Packet
  twigs : Tbl Twig
  twigOrder : Nat
  issued : Bool
  frozenEntries : List Nat
  pendingTwig : List (Nat × List Code)
  tags : Tbl Tag
  order : Nat
  active : Latch
  shadow : Latch
  aBind : Word
  bBind : Word
  tlm : Nat
  begun : Nat
  spilled : List Nat
  freed : List Nat
  srcList : List (BitVec 512 × Nat)
  overflow : Bool
deriving DecidableEq, Repr

/-! ## The module -/

/-- Who waits for a walk: a cell, and its memory request (0), generator (1), owner's update (2) or arrival of another
kind (3), by number; or a grove, and its task core (4) or an engine context (5). -/
structure Waiter where
  cell : Nat
  kind : Nat
  id : Nat
deriving DecidableEq, Repr

/-- A translation miss at a die's service (R183): ASID and page number, and what waits. -/
structure Miss where
  die : Nat
  asid : Nat
  vpn : Nat
  waits : List Waiter
deriving DecidableEq, Repr

/-- A capability entry (R403). -/
structure Cap where
  v : Bool
  holder : Nat
  region : Nat
  rights : Nat
  pv : Bool
  parent : Nat
  gen : BitVec 32
  check : Word
deriving DecidableEq, Repr

/-- A freeze image as taken (R398; log entry 20): the region it was taken of while that region stays halted, whether it holds
accumulators, its bytes as written, the region and units it holds by logical cell and region grove index as they stood, the
tokens of overflow queues, bytes of grove windows (region grove index, offset, byte), the streams a target fault froze
(R350), the cycle at which it was taken, and the invocations the region had accepted (R355). -/
structure FreezeImg where
  src : Nat
  accs : Bool
  raw : List Byte
  region : Region
  cells : Tbl Cell
  groves : Tbl Grove
  cores : Tbl Core
  mxs : Tbl Mx
  ovf : Tbl (List Token)
  bytes : List (Nat × Nat × Byte)
  streams : List Stream
  cycle : Nat
  invs : List Invocation
deriving DecidableEq, Repr

/-- The module's own registers and tables (R168, R180, R183, R192, R332, R340, R346 to R356, R403, R420 to R429).
`walkFaults` are failed walks not yet seen by what waited (waiter, ASID, page, code); `spoilt` the local addresses of bytes
whose read meets an uncorrectable error (log entry 79); `ptimes` the program times of agents that are no task cores, and
`maxTime` the largest logical time given; `ringFrom` the scheduling step at which the ring ports' buffers were
last at reset, and `ringTick` the present one (R344, R345); `bars` the six BAR registers (R422);
`wearAt` the period of 2^32 cycles of the last wear update (R429);
`dogs` what is stalled, since when, and whether its watchdog has raised its fault (R35). -/
structure Mod where
  modNo : Nat
  cycle : Nat
  asTable : Tbl (Word × Word)
  trBase : Nat
  remcfg : Nat × Nat × Nat
  remBase : Nat
  ports : Tbl Port
  routes : Tbl Word
  ringFrom : Nat
  ringTick : Nat
  streams : List Stream
  openers : List Opener
  nextIdent : Nat
  heldStreams : List HeldStream
  invokeTable : Tbl Word
  invocations : List Invocation
  binds : List (Nat × Nat × Nat × BitVec 32)
  caps : Tbl Cap
  snapN : Nat
  walks : Tbl Nat
  merged : Tbl Nat
  herr : Nat
  hwBase : Tbl Nat
  hqBase : Word
  hqTail : BitVec 32
  hqHead : BitVec 32
  hqStopped : Bool
  bootStage : Nat
  bootErr : Bool
  bootLog : Word
  nonce : List Byte
  attreq : Bool
  pcap : Nat
  clk : Word
  eolDays : Nat
  wgrove : Nat
  wpct : Nat
  wearAt : Nat
  bars : List (BitVec 32)
  walkQ : List Miss
  walkFaults : List (Waiter × Nat × Nat × Nat)
  spoilt : List Nat
  lineTimes : Tbl (Nat × Nat)
  homeTimes : Tbl Nat
  ptimes : List (Who × Nat)
  maxTime : Nat
  dogs : List (Stalled × Nat × Bool)
deriving DecidableEq, Repr

/-! ## The device, the state and the work of a step -/

/-- One move the model has chosen: run the next instruction of an agent, fire a node, or perform another step that no
word encodes. -/
inductive Move where
  | run (a : Agent)
  | fire (f : Fire)
  | event (i : Instr)
deriving DecidableEq, Repr

/-- Everything but the bytes of memory. Tables list the units that have left their reset values; a unit not listed is at
reset. The model's own fields (log entries 2 and 3): `moves` chosen, `inputs` offered from outside and from units whose
messages stay in the module, `outbox` messages that leave, `ways` the port and the hop count of each that a route carries (R346),
the scheduling count `tick`, the count of free values `freeCtr`, the agent `turn` whose instruction runs, the firing `fire` whose node's step runs, and the freeze images taken. -/
structure Dev where
  cores : Tbl Core
  cells : Tbl Cell
  groves : Tbl Grove
  mxs : Tbl Mx
  regions : Tbl Region
  mod : Mod
  moves : List Move
  inputs : List Instr
  outbox : List Msg
  ways : List (Nat × Nat)
  tick : Nat
  freeCtr : Nat
  turn : Agent
  fire : Fire
  images : List FreezeImg
deriving DecidableEq, Repr

/-- The state of the module: its units and its memory. -/
structure State extends Dev where
  mem : Memory
deriving DecidableEq, Repr

/-- The work of one step: the units as they change, memory as it stood, and the bytes written, newest first. -/
structure Work extends Dev where
  base : Memory
  log : List Host.Cell
deriving DecidableEq, Repr

/-- The work of a step that begins at a state. -/
def Work.of (s : State) : Work := { s.toDev with base := s.mem, log := [] }

/-- The state a step leaves: the units as they stand, and the memory with the bytes written. -/
def State.finish (s : State) (w : Work) : State := { w.toDev with mem := s.mem.write w.log }

/-- A step that ends in a next state. -/
def State.via (s : State) (f : Work → Work) : State := s.finish (f (Work.of s))

/-! ## Reasons to stop -/

/-- Why the machine stops with a fault. No meaning of this model ends so: every fault the spec names is taken, frozen
or recorded, and the machine goes on. -/
inductive Fault where
  /-- raised by nothing: a place for a fault that would stop the whole module (safe) -/
  | none
deriving DecidableEq, Repr

/-- Why a step is refused. -/
inductive Refusal where
  /-- raised by an arm of the dispatcher whose instruction has no meaning yet (safe) -/
  | notModelled (mnemonic : String)
deriving DecidableEq, Repr

/-! ## Reset -/

/-- No trap state (R387, R390). -/
def TrapState.reset : TrapState := ⟨false, 0, 0, 0, 0, false⟩

/-- A task core after reset (log entry 6). -/
def Core.reset : Core where
  regs := List.replicate 32 0
  pc := 0
  loopActive := false
  bodyStart := 0
  bodyEnd := 0
  loopcnt := 0
  trap := TrapState.reset
  scratch := 0
  asid := 0
  task := none
  halted := false
  halting := false
  issued := false
  stall := none
  slots := []
  suspOrder := 0
  susp := []
  mail := []
  mailHeld := []
  portWait := none
  inbound := []
  runQ := []
  ptime := 0
  l1 := []
  tlb := []
  lost := []
  plmask := []
  rldOut := []
  rldLost := []
  rldErr := false
  fcopies := []
  kept := none
  opens := none

/-- A generator that no trigger has started (R185). -/
def Gen.reset : Gen where
  cur := 0
  fresh := true
  shape := 0
  extents := []
  params := []
  busy := false
  node := 0
  record := 0
  colour := 0
  iter := 0
  round := 0
  index := []
  count := 0
  inRound := false
  ins := []
  wait := none
  got := none

/-- A cell after reset; the usable counts that repair sets are those of an unrepaired cell (R15; log entry 5). -/
def Cell.reset : Cell where
  nodes := []
  active := 0
  nextCtx := none
  usable := 1024
  nsuse := [1024, 1024, 1024, 1024]
  graphCtx := []
  code := []
  blocks := []
  entries := []
  entrySeq := 0
  ovf := []
  spilled := false
  inq := []
  held := []
  outq := []
  outNo := []
  firing := 0
  pend := []
  ready := []
  reconf := []
  pendTwig := []
  twigs := []
  twigOrder := 0
  debug := none
  maps := []
  shapes := []
  gens := []
  convL := []
  chains := []
  reqs := []
  reqSeq := 0
  owners := []
  ownerFrozen := []
  forks := []
  joins := []
  dsrcs := []
  douts := []
  frozenPass := []
  fcopies := []
  probes := []
  mssel := 0
  fired := false
  issued := false
  intv := 0
  classNow := List.replicate 9 0
  classPrev := List.replicate 9 0

/-- An engine context after reset. -/
def Engine.reset : Engine := ⟨[], 0, 0, false, 0, 0, 0, [], []⟩

/-- A handle after reset (R236). -/
def Handle.reset : Handle := ⟨0, 0, 0, 0, [], 0, 0, 0⟩

/-- A phase word after reset (R366). -/
def Phase.reset : Phase := ⟨false, false, false, 0⟩

/-- A barrier after reset (R366). -/
def Barrier.reset : Barrier := ⟨Phase.reset, Phase.reset, 0⟩

/-- A grove's units after reset. -/
def Grove.reset : Grove where
  region := none
  gidx := 0
  engines := []
  handles := []
  resid := []
  resSince := none
  glades := []
  barriers := []
  gq := []
  sent := []
  prog := []
  tlb := []
  ownOsc := 0
  ownPct := 0
  counters := List.replicate 7 0
  snap := []

/-- A latch that has never been loaded (R250). -/
def Latch.reset : Latch := ⟨false, 0, 0, 0, 0, 0, 0, [], []⟩

/-- An accumulator tag after reset (R257). -/
def Tag.reset : Tag := ⟨0, [], [], none, []⟩

/-- A matrix array and element after reset (R261). -/
def Mx.reset : Mx where
  code := []
  blocks := []
  handlers := []
  arrivals := []
  handled := []
  twigs := []
  twigOrder := 0
  issued := false
  frozenEntries := []
  pendingTwig := []
  tags := []
  order := 0
  active := Latch.reset
  shadow := Latch.reset
  aBind := 0
  bBind := 0
  tlm := 0
  begun := 0
  spilled := []
  freed := []
  srcList := []
  overflow := false

/-- A reader handle after reset (R298). -/
def Reader.reset : Reader := ⟨false, false, 0, BitVec.allOnes 64⟩

/-- A region after reset (R175, R330); SUPBASE before a graph load gives no supervisor area (log entry 5). -/
def Region.reset : Region where
  loaded := false
  table := ⟨0, 0, 0, [], []⟩
  rasid := 0
  cwdog := 24
  gid := 0
  rctBase := 0
  faultq := 0
  tvec := 0
  supBase := 0x10000
  thr := 64
  bint := 8192
  lastBalance := 0
  balNext := none
  freeColours := []
  colours := []
  stampNext := 0
  heldN := 0
  waitC := []
  cpoolSince := none
  shapes := []
  fbind := []
  readers := []
  arrs := []
  timeSlots := []
  rootF := []
  launchQ := []
  running := none
  resView := []
  frozen := []
  nextFseq := 1
  faults := []
  spill := []
  plans := []
  halted := false
  stopping := none
  stopped := false
  purge := []
  freezing := none
  thawing := none
  dbp := []
  ibp := []
  stop := none
  stopTok := List.replicate 64 0
  stopHeld := none
  stopFire := none
  stopCore := none
  pendRelease := []
  listVa := 0
  listAsid := 0
  listN := 0
  trctl := 0
  trdrop := 0
  trace := none

/-- A port after reset (R340). -/
def Port.reset : Port := ⟨false, 0, 0, 0, 0⟩

/-- A capability entry after reset (R403). -/
def Cap.reset : Cap := ⟨false, 0, 0, 0, false, 0, 0, 0⟩

/-- The module's registers after reset (R347, R423 to R429; log entry 5). -/
def Mod.reset : Mod where
  modNo := 0
  cycle := 0
  asTable := []
  trBase := 0
  remcfg := (20, 256, 8)
  remBase := 0
  ports := []
  routes := []
  ringFrom := 0
  ringTick := 0
  streams := []
  openers := []
  nextIdent := 0
  heldStreams := []
  invokeTable := []
  invocations := []
  binds := []
  caps := []
  snapN := 0
  walks := []
  merged := []
  herr := 0
  hwBase := []
  hqBase := 0
  hqTail := 0
  hqHead := 0
  hqStopped := false
  bootStage := 0
  bootErr := false
  bootLog := 0
  nonce := List.replicate 32 0
  attreq := false
  pcap := 3200
  clk := 0x8000
  eolDays := 0
  wgrove := 0
  wpct := 0
  wearAt := 0
  bars := [4, 0, 4, 0, 0xC, 0]
  walkQ := []
  walkFaults := []
  spoilt := []
  lineTimes := []
  homeTimes := []
  ptimes := []
  maxTime := 0
  dogs := []

/-- The units after reset: none has left its reset values. -/
def Dev.reset : Dev where
  cores := []
  cells := []
  groves := []
  mxs := []
  regions := []
  mod := Mod.reset
  moves := []
  inputs := []
  outbox := []
  ways := []
  tick := 0
  freeCtr := 0
  turn := .core 0
  fire := ⟨0, 0, 0, 0, 0⟩
  images := []

/-- The module right after reset: no graph, no task, memory with nothing listed. -/
def State.reset : State := { Dev.reset with mem := [] }

end Sys2Proof.Machine
end

