-- ==== Sys2Proof/Machine/Ops.lean ====
section
/-! DEFINITION. The named operations over units and memory: reading and changing a unit, bytes of memory, logical places
of a region, fault records and frozen objects, taking a trap and returning from one, and the frame in which a task
core's instruction runs (spec 05, 06, 20). -/

namespace Sys2Proof.Machine

/-! ## Units -/

/-- The task core of a module grove. -/
def Work.core (w : Work) (g : Nat) : Core := Tbl.getD w.cores g Core.reset

/-- The work with a task core replaced. -/
def Work.setCore (w : Work) (g : Nat) (c : Core) : Work := { w with cores := Tbl.put w.cores g c }

/-- The work with a task core changed. -/
def Work.updCore (w : Work) (g : Nat) (f : Core → Core) : Work := w.setCore g (f (w.core g))

/-- A cell, numbered 16 × module grove + cell. -/
def Work.cell (w : Work) (n : Nat) : Cell := Tbl.getD w.cells n Cell.reset

/-- The work with a cell replaced. -/
def Work.setCell (w : Work) (n : Nat) (c : Cell) : Work := { w with cells := Tbl.put w.cells n c }

/-- The work with a cell changed. -/
def Work.updCell (w : Work) (n : Nat) (f : Cell → Cell) : Work := w.setCell n (f (w.cell n))

/-- A grove's other units. -/
def Work.grove (w : Work) (g : Nat) : Grove := Tbl.getD w.groves g Grove.reset

/-- The work with a grove's units replaced. -/
def Work.setGrove (w : Work) (g : Nat) (x : Grove) : Work := { w with groves := Tbl.put w.groves g x }

/-- The work with a grove's units changed. -/
def Work.updGrove (w : Work) (g : Nat) (f : Grove → Grove) : Work := w.setGrove g (f (w.grove g))

/-- A grove's matrix array and element. -/
def Work.mx (w : Work) (g : Nat) : Mx := Tbl.getD w.mxs g Mx.reset

/-- The work with a matrix array replaced. -/
def Work.setMx (w : Work) (g : Nat) (x : Mx) : Work := { w with mxs := Tbl.put w.mxs g x }

/-- The work with a matrix array changed. -/
def Work.updMx (w : Work) (g : Nat) (f : Mx → Mx) : Work := w.setMx g (f (w.mx g))

/-- A region. -/
def Work.region (w : Work) (r : Nat) : Region := Tbl.getD w.regions r Region.reset

/-- The work with a region replaced. -/
def Work.setRegion (w : Work) (r : Nat) (x : Region) : Work := { w with regions := Tbl.put w.regions r x }

/-- The work with a region changed. -/
def Work.updRegion (w : Work) (r : Nat) (f : Region → Region) : Work := w.setRegion r (f (w.region r))

/-- The work with the module's registers changed. -/
def Work.updMod (w : Work) (f : Mod → Mod) : Work := { w with mod := f w.mod }

/-- The next free value, and the work after it is taken (log entry 3). -/
def Work.fresh (w : Work) : Word × Work := (Config.freeWord w.freeCtr, { w with freeCtr := w.freeCtr + 1 })

/-- `n` free bytes in turn. -/
def freshBytes : Nat → Work → List Byte × Work
  | 0, w => ([], w)
  | n + 1, w =>
    let r := w.fresh
    let t := freshBytes n r.2
    (r.1.setWidth 8 :: t.1, t.2)

/-! ## Bytes -/

/-- A byte as the writes of this step leave it. -/
def readLog (base : Memory) (a : Nat) : List Host.Cell → Byte
  | [] => base.get a
  | (b, v) :: t => if b = a then v else readLog base a t

/-- The byte at a local physical address. -/
def Work.byte (w : Work) (a : Nat) : Byte := readLog w.base a w.log

/-- `n` bytes from an address on. -/
def Work.bytes (w : Work) (a n : Nat) : List Byte := (List.range n).map fun i => w.byte (a + i)

/-- The number that little-endian bytes hold (R3). -/
def leNat : List Byte → Nat
  | [] => 0
  | b :: t => b.toNat + 256 * leNat t

/-- `n` little-endian bytes of a number (R3). -/
def leBytes : Nat → Nat → List Byte
  | 0, _ => []
  | n + 1, v => bv 8 v :: leBytes n (v / 256)

/-- The `n`-byte number at an address. -/
def Work.load (w : Work) (a n : Nat) : Nat := leNat (w.bytes a n)

/-- The log with bytes written from an address on. -/
def logBytes (log : List Host.Cell) : Nat → List Byte → List Host.Cell
  | _, [] => log
  | a, b :: t => logBytes ((a, b) :: log) (a + 1) t

/-- Bytes written from an address on. -/
def Work.store (w : Work) (a : Nat) (bs : List Byte) : Work := { w with log := logBytes w.log a bs }

/-- Bytes as 64-bit words, the last padded with zeros. -/
def wordsOf : Nat → List Byte → List Word
  | 0, _ => []
  | n + 1, bs => bv 64 (leNat (bs.take 8)) :: wordsOf n (bs.drop 8)

/-- Words as bytes. -/
def bytesOf : List Word → List Byte
  | [] => []
  | x :: t => leBytes 8 x.toNat ++ bytesOf t

/-! ## Addresses of the on-chip map (R168, R169) -/

/-- The size of module memory. -/
def memTop : Nat := 0x6000000000

/-- The window of a grove. -/
def groveBase (g : Nat) : Nat := 0x100000000000 + g * 0x4000000

/-- The bank of a module cell. -/
def bankBase (cell : Nat) : Nat := groveBase (cell / 16) + cell % 16 * 0x10000

/-- An accumulator of a grove. -/
def accBase (g n : Nat) : Nat := groveBase g + 0x1100000 + n * 0x1000

/-- The instruction store of a task core. -/
def codeBase (g : Nat) : Nat := groveBase g + 0x1210000

/-- A canopy column bank of a grove. -/
def canopyBase (g j : Nat) : Nat := groveBase g + 0x2000000 + j * 0x80000

/-! ## Regions and logical places (R18, R176) -/

/-- The number that stands for no region. -/
def noRegion : Nat := 320

/-- The region that holds a grove. -/
def Work.rno (w : Work) (g : Nat) : Nat := (w.grove g).region.getD noRegion

/-- The region that holds a grove. -/
def Work.regOf (w : Work) (g : Nat) : Region := w.region (w.rno g)

/-- The module cell of a logical cell. -/
def Work.lcell (w : Work) (r lc : Nat) : Option Nat := (Tbl.find (w.region r).table.cells lc).map fun e => e.1

/-- The logical cell of a module cell in a region's table. -/
def logicalIn (mc : Nat) : Tbl (Nat × Nat × Nat) → Nat
  | [] => 0
  | (lc, e) :: t => if e.1 = mc then lc else logicalIn mc t

/-- The logical cell of a module cell. -/
def Work.logical (w : Work) (mc : Nat) : Nat := logicalIn mc (w.regOf (mc / 16)).table.cells

/-- The module grove of a region grove index. -/
def Work.mgrove (w : Work) (r i : Nat) : Option Nat := (Tbl.find (w.region r).table.groves i).map fun e => e.1

/-- The module groves of a region. -/
def Work.grovesOf (w : Work) (r : Nat) : List Nat := (Tbl.vals (w.region r).table.groves).map fun e => e.1

/-- The module cells of a region. -/
def Work.cellsOf (w : Work) (r : Nat) : List Nat := (Tbl.vals (w.region r).table.cells).map fun e => e.1

/-- The number of groves of a region. -/
def Work.ngrove (w : Work) (r : Nat) : Nat := (w.region r).table.ngrove

/-! ## Progress counts (R274 to R276) -/

/-- A progress item counted up or down on a grove's counters. -/
def Work.count (w : Work) (g : Nat) (item : Option (Nat × Nat)) (up : Bool) : Work :=
  match item with
  | none => w
  | some (scope, slot) =>
    w.updGrove g fun x =>
      let n := Tbl.getD x.prog (64 * scope + slot) 0
      { x with prog := Tbl.put x.prog (64 * scope + slot) (if up then n + 1 else n - 1) }

/-- The items of several tokens released. -/
def releaseToks (g : Nat) : List Token → Work → Work
  | [], w => w
  | t :: ts, w => releaseToks g ts (w.count g t.item false)

/-! ## Packets of a feed (R229, R255) -/

/-- A packet of a feed counts as accepted. -/
def Work.acceptPacket (w : Work) (g ctx num : Nat) : Work :=
  w.updGrove g fun x =>
    { x with engines := x.engines.map fun e =>
        if e.1 = ctx then
          (e.1, { e.2 with queue := e.2.queue.map fun o => if o.num = num then { o with remote := o.remote - 1 } else o })
        else e }

/-! ## Fault records and frozen objects (R381, R382) -/

/-- A fault record with nothing filled in but its code, grove and stamp. -/
def Work.blank (w : Work) (g code : Nat) : FaultRec where
  code := code
  okind := 0
  nested := false
  stuck := false
  grove := (w.grove g).gidx
  cell := none
  node := 0
  tag := 0
  addr := 0
  aux := 0
  pc := 0
  wid := 0
  aux2 := 0
  fseq := 0
  stamp := w.mod.cycle % 2 ^ 32
  checkFailed := false

/-- A fault record queued to be posted (R383). -/
def Work.post (w : Work) (r : Nat) (f : FaultRec) : Work :=
  w.updRegion r fun x => { x with faults := x.faults ++ [f] }

/-- Whether a release number names a frozen object of a region, or its stop. -/
def Region.usesFseq (x : Region) (n : Nat) : Bool :=
  x.frozen.any (fun o => o.fseq == n) || x.stop.any fun f => f.fseq == n

/-- The release number after one: 1 to 2^32 − 1 in turn, passing over those in use (R382). -/
def Region.fseqAfter (x : Region) : Nat → Nat → Nat
  | 0, n => n
  | fuel + 1, n =>
    let m := if n + 1 < 2 ^ 32 then n + 1 else 1
    if x.usesFseq m then x.fseqAfter fuel m else m

/-- The release number that comes after the next one, once that is taken. -/
def Region.fseqNext (x : Region) : Nat := x.fseqAfter (x.frozen.length + 2) x.nextFseq

/-- An object frozen under the next release number and its record queued (R381 to R383). -/
def Work.freezeObj (w : Work) (r : Nat) (o : Frozen) (f : FaultRec) : Work :=
  let n := (w.region r).nextFseq
  w.updRegion r fun x =>
    { x with
      frozen := x.frozen ++ [{ o with fseq := n }]
      faults := x.faults ++ [{ f with fseq := n, okind := o.okind }]
      nextFseq := x.fseqNext }

/-- The NODE field of a record: logical cell, node and port (R382). -/
def Work.nodeField (w : Work) (mc node port : Nat) : Nat := w.logical mc + node * 2 ^ 12 + port * 2 ^ 22

/-- The TAG field of a record for a colour and iteration (R382). -/
def tagField (c : BitVec 12) (i : BitVec 16) : Nat := c.toNat + i.toNat * 2 ^ 12

/-- A colour frozen at a node of a cell (OKIND 2): its tokens by port stay with it (R121, R381). The record names the port of a token that faults on its way into the
store (`what` 0), and port 0 for a firing (R382). -/
def Work.freezeNode (w : Work) (mc node : Nat) (c : BitVec 12) (i : BitVec 16) (code : Nat) (toks : List (Nat × Token))
    (addr aux : Word) (what : Nat) : Work :=
  let g := mc / 16
  w.freezeObj (w.rno g)
    { fseq := 0, okind := 2, code := code, stuck := false, grove := g, cell := mc, node := node, colour := c, iter := i,
      toks := toks, task := none, what := what, aux := aux.toNat }
    { w.blank g code with
      cell := some (mc % 16), node := w.nodeField mc node (if what = 0 then (toks.head?.map Prod.fst).getD 0 else 0),
      tag := tagField c i, addr := addr, aux := aux }

/-- Whether a colour is frozen at a node. -/
def Work.isFrozenAt (w : Work) (mc node : Nat) (c : BitVec 12) : Bool :=
  (w.regOf (mc / 16)).frozen.any fun o => o.okind == 2 && o.cell == mc && o.node == node && o.colour == c

/-- Whether an object of a kind is frozen with a given place and number. -/
def Work.frozenIs (w : Work) (r okind cell what : Nat) : Bool :=
  (w.region r).frozen.any fun o => o.okind == okind && o.cell == cell && o.what == what

/-- A watchdog's record: no object freezes (R35). -/
def Work.watchdog (w : Work) (g : Nat) (f : FaultRec → FaultRec) : Work := w.post (w.rno g) (f (w.blank g 0x21))

/-! ## Task-core state -/

/-- A register as read: G0 is zero (R69, R122). -/
def Core.reg (c : Core) (r : BitVec 5) : Word := if r = 0 then 0 else c.regs.getD r.toNat 0

/-- A register as written: a write to G0 is discarded (R69, R122). -/
def Core.setReg (c : Core) (r : BitVec 5) (v : Word) : Core :=
  if r = 0 then c else { c with regs := setAt c.regs r.toNat v }

/-- The core after every inbound register write that waits has landed, in arrival order (R123). -/
def Core.landAll (c : Core) : Core :=
  { c.inbound.foldl (fun k e => k.setReg (bv 5 e.1) e.2) c with inbound := [] }

/-- Whether the core is in supervisor mode: its PC is at or above SUPBASE (R386). -/
def Work.super (w : Work) (g : Nat) : Bool := (w.regOf g).supBase ≤ (w.core g).pc.toNat

/-- S.STATUS: MODE in bit 0, INTRAP in bit 1 (R390). -/
def Work.status (w : Work) (g : Nat) : Word :=
  (if w.super g then 1 else 0) + (if (w.core g).trap.intrap then 2 else 0)

/-- The task that a core runs, with the reset task where it runs none. -/
def Core.cur (c : Core) : Task := c.task.getD ⟨0, 0, 0, 0, 0, 0, 0, false⟩

/-- The running task as a full record with its trap state, to resume at `pc` (R149, R381). -/
def Core.full (c : Core) (home order : Nat) (pc : BitVec 16) : Record where
  full := true
  pc := pc
  live := 0xFFFFFFFE#32
  regs := c.regs
  task := c.cur
  wait := 0
  vslot := 0
  wobj := 0
  dreg := 0
  body := (c.bodyStart, c.bodyEnd)
  loopActive := c.loopActive
  loopcnt := c.loopcnt
  since := none
  order := order
  home := home
  dval := none
  trap := some c.trap
  halted := c.halted
  pend := []

/-- The core with no running task: its registers stay as undefined values do, its loop ends. -/
def Core.idle (c : Core) : Core :=
  { c with
    task := none
    loopActive := false
    loopcnt := 0
    stall := none
    trap := { c.trap with intrap := false, loopHeld := false } }

/-- A running task frozen (OKIND 1) and its record queued (R387). `resume` is where a retry goes. -/
def Work.freezeTask (w : Work) (g code : Nat) (addr aux : Word) (resume : BitVec 16) : Work :=
  let c := w.core g
  let t := c.cur
  let r := c.full g c.suspOrder resume
  let w1 := w.freezeObj (w.rno g)
    { fseq := 0, okind := 1, code := code, stuck := false, grove := g, cell := 0, node := 0, colour := t.colour,
      iter := t.iter, toks := [], task := some r, what := 0, aux := 0 }
    { w.blank g code with
      nested := c.trap.intrap, tag := tagField t.colour t.iter, addr := addr, aux := aux, pc := c.pc.toNat, wid := t.wid }
  w1.updCore g fun x => x.idle

/-- A message put on its way by a port, with the hops it has made (R346). -/
def Work.sendBy (w : Work) (x : Msg) (port hops : Nat) : Work :=
  { w with outbox := w.outbox ++ [x], ways := w.ways ++ [(port, hops)] }

/-- A message to the peer of a link, or to the host. -/
def Work.sendOut (w : Work) (x : Msg) : Work := { w with outbox := w.outbox ++ [x] }

/-! ## Taking a trap and returning from one (R387, R389) -/

/-- A precise fault or TRAP taken: into the handler where TVEC holds one and no trap is open, otherwise the task
freezes. `num` is the trap number of a TRAP, which saves the address after it; a fault saves its own address. -/
def Work.raise (w : Work) (g code : Nat) (addr aux : Word) (num : Option Nat) : Work :=
  let c := w.core g
  let epc : BitVec 16 := match num with
    | some _ => c.pc + 4
    | none => c.pc
  let cause : Word := bv 64 (code + num.getD 0 * 256)
  let tvec := (w.regOf g).tvec
  if tvec.getLsbD 63 ∧ ¬ c.trap.intrap then
    w.setCore g
      { c with
        trap := ⟨true, cause, epc.setWidth 64, w.status g, addr, c.loopActive⟩
        stall := none
        pc := tvec.setWidth 16 &&& 0xFFFC#16 }
  else
    let c1 := if c.trap.intrap then c else { c with trap := { c.trap with cause := cause, epc := epc.setWidth 64, faddr := addr } }
    (w.setCore g c1).freezeTask g code addr aux epc

/-- ERET's return: S.STATUS from S.ESTATUS, the PC from S.EPC; loop tracking resumes (R389). -/
def Core.return (c : Core) : Core :=
  { c with
    trap := { c.trap with intrap := c.trap.estatus.getLsbD 1, loopHeld := false }
    pc := c.trap.epc.setWidth 16 }

/-! ## The translation service's queue (R183) -/

/-- The die of a module grove. -/
def dieOf (g : Nat) : Nat := g / 80

/-- A task core as what waits for a walk. -/
def coreWaiter (g : Nat) : Waiter := ⟨16 * g, 4, 0⟩

/-- A grove's engines as what waits for a walk. -/
def engineWaiter (g : Nat) : Waiter := ⟨16 * g, 5, 0⟩

/-- A Flehild counter of a grove raised (R420). -/
def Work.tally (w : Work) (g k n : Nat) : Work :=
  w.updGrove g fun x => { x with counters := setAt x.counters k (x.counters.getD k 0 + n) }

/-- The misses that a die's service takes: 32 that walk and 4,096 that queue (R183). -/
def walkRoom : Nat := 32 + 4096

/-- Whether a miss of a key waits at a die's service, or walks there. -/
def Miss.at (q : Miss) (die asid vpn : Nat) : Bool := q.die == die && q.asid == asid && q.vpn == vpn

/-- The queue of misses with a waiter of a key: joined to a miss of that key, or last where there is room (R183). -/
def putMiss (die asid vpn : Nat) (a : Waiter) (q : List Miss) : List Miss :=
  if q.any fun m => m.at die asid vpn then
    q.map fun m => if m.at die asid vpn ∧ ¬ m.waits.contains a then { m with waits := m.waits ++ [a] } else m
  else if (q.filter fun m => m.die == die).length < walkRoom then q ++ [⟨die, asid, vpn, [a]⟩]
  else q

/-- A miss put to its die's translation service, which joins a walk of the same key and counts the buffers that missed; the grove
holds it, to ask again, while the queue is full (R183, R420). -/
def Work.askWalk (w : Work) (a : Waiter) (asid vpn : Nat) : Work :=
  let g := a.cell / 16
  let has : List Miss → Bool := fun q => q.any fun m => m.at (dieOf g) asid vpn && m.waits.contains a
  let q := putMiss (dieOf g) asid vpn a w.mod.walkQ
  if has w.mod.walkQ then w
  else
    let w1 := w.updMod fun m => { m with walkQ := q }
    if has q then (if a.kind = 4 then w1.tally g 0 1 else w1).tally g 1 1 else w1

/-- The failed walk of a page that a waiter has not yet seen. -/
def Work.walkFault (w : Work) (a : Waiter) (asid vpn : Nat) : Option (Waiter × Nat × Nat × Nat) :=
  w.mod.walkFaults.find? fun f => f.1 == a && f.2.1 == asid && f.2.2.1 == vpn

/-- The failed walks of a waiter seen: it has taken its fault. -/
def Work.endWalks (w : Work) (a : Waiter) : Work :=
  if w.mod.walkFaults.any fun f => f.1 == a then
    w.updMod fun m => { m with walkFaults := m.walkFaults.filter fun f => f.1 != a }
  else w

/-- A page's failed walks of a waiter forgotten: a buffer holds the page by now. -/
def Work.endWalk (w : Work) (a : Waiter) (asid vpn : Nat) : Work :=
  if (w.walkFault a asid vpn).isSome then
    w.updMod fun m => { m with walkFaults := m.walkFaults.filter fun f => !(f.1 == a && f.2.1 == asid && f.2.2.1 == vpn) }
  else w

/-! ## The frame of a task core's instruction -/

/-- Why an instruction does not complete: a precise fault with address and AUX, or it is held and tries again, for room or for a
walk of the page that an address lies in (R183). -/
inductive Stop where
  | fault (code : Nat) (addr aux : Word)
  | stall
  | walk (va : Nat)
deriving DecidableEq, Repr

/-- A fault with no address. -/
def flt (code : Nat) : Stop := .fault code 0 0

/-- A fault unless a condition holds. -/
def need (p : Bool) (code : Nat) : Except Stop Unit := if p then .ok () else .error (flt code)

/-- A fault at an address unless a condition holds. -/
def needAt (p : Bool) (code addr : Nat) : Except Stop Unit :=
  if p then .ok () else .error (.fault code (bv 64 addr) 0)

/-- A grove's core holding its instruction since the present cycle (R155, R158). -/
def Work.hold (w : Work) (g : Nat) : Work :=
  w.updCore g fun c => { c with stall := some (c.stall.getD w.mod.cycle) }

/-- A task core's instruction: its effect, or its precise fault, or it is held. With no running task nothing happens. -/
def coreRun (f : Nat → Work → Except Stop Work) (w : Work) : Work :=
  match w.turn with
  | .core g =>
    if (w.core g).task = none ∨ (w.core g).halted = true then w
    else
      match f g w with
      | .ok w1 => w1.updCore g fun c => { c with stall := none }
      | .error .stall => w.hold g
      | .error (.walk va) => (w.askWalk (coreWaiter g) (w.core g).asid (va / 4096)).hold g
      | .error (.fault code addr aux) => (w.endWalks (coreWaiter g)).raise g code addr aux none
  | _ => w

/-- A task core's instruction that must be encoded as task cores accept it (R80). -/
def coreInstr (i : Instr) (f : Nat → Work → Except Stop Work) : Work → Work :=
  coreRun fun g w => if i.coreOk then f g w else .error (flt 0x01)

/-- The check that a transfer from below SUPBASE does not enter the supervisor area (R386). -/
def Work.enter (w : Work) (g : Nat) (pc : BitVec 16) : Except Stop Unit :=
  let sb := (w.regOf g).supBase
  need (!((w.core g).pc.toNat < sb && sb ≤ pc.toNat)) 0x02

/-- The next word, where no loop closes here (R124). -/
def Core.pc4 (c : Core) : BitVec 16 := c.pc + 4

/-- The core after an instruction that does not transfer control: the next word, or the loop's first (R139). A loop that trap
entry found active is not tracked until ERET; one that the handler starts is. -/
def Core.step (c : Core) : Core :=
  if c.loopActive ∧ ¬ c.trap.loopHeld ∧ c.pc = c.bodyEnd then
    if 1 < c.loopcnt.toNat then { c with loopcnt := c.loopcnt - 1, pc := c.bodyStart }
    else { c with loopcnt := 0, loopActive := false, pc := c.pc4 }
  else { c with pc := c.pc4 }

/-- An instruction completes and the core goes on (R124, R139, R386). -/
def Work.next (g : Nat) (w : Work) : Except Stop Work := do
  let c := (w.core g).step
  w.enter g c.pc
  return w.setCore g c

/-- An instruction writes a register and completes. -/
def Work.give (g : Nat) (d : BitVec 5) (v : Word) (w : Work) : Except Stop Work :=
  (w.updCore g fun c => c.setReg d v).next g

/-- A control transfer: out of the loop's body it ends the loop (R139); it may not enter the supervisor area (R386). -/
def Work.jump (g : Nat) (pc : BitVec 16) (w : Work) : Except Stop Work := do
  w.enter g pc
  return w.updCore g fun c =>
    let out := c.loopActive && !c.trap.loopHeld && !(c.bodyStart.toNat ≤ pc.toNat && pc.toNat ≤ c.bodyEnd.toNat)
    if out then { c with loopActive := false, loopcnt := 0, pc := pc } else { c with pc := pc }

/-- Supervisor mode, or Privilege (R388). -/
def Work.needSuper (w : Work) (g : Nat) : Except Stop Unit := need (w.super g) 0x02

/-- The value of a register of the core. -/
def Work.g (w : Work) (g : Nat) (r : BitVec 5) : Word := (w.core g).reg r

end Sys2Proof.Machine
end

