-- ==== Sys2Proof/Machine/Operands.lean ====
section
/-! DEFINITION. Operand forms: how a twig and a task core read their sources and write their destinations, and the
null flag (spec 03 R69 to R72; 05 R113 to R116). -/

namespace Sys2Proof.Machine

/-- What a step answers. -/
abbrev Out := Host.Outcome State Fault Refusal

/-- A step that ends in a next state, made by work. -/
def run (s : State) (f : Work → Work) : Out := .next (s.via f)

/-! ## Twig contexts as agents -/

/-- The twig context of an agent (R112, R254, R412). -/
def Work.twigAt (w : Work) : Agent → Option Twig
  | .twig c x => Tbl.find (w.cell c).twigs x
  | .mx g x => Tbl.find (w.mx g).twigs x
  | .debug c => (w.cell c).debug
  | .core _ => none

/-- The work with an agent's twig context replaced. -/
def Work.setTwig (w : Work) (a : Agent) (t : Twig) : Work :=
  match a with
  | .twig c x => w.updCell c fun k => { k with twigs := Tbl.put k.twigs x t }
  | .mx g x => w.updMx g fun m => { m with twigs := Tbl.put m.twigs x t }
  | .debug c => w.updCell c fun k => { k with debug := some t }
  | .core _ => w

/-- The work with an agent's twig context freed. -/
def Work.dropTwig (w : Work) (a : Agent) : Work :=
  match a with
  | .twig c x => w.updCell c fun k => { k with twigs := Tbl.del k.twigs x }
  | .mx g x => w.updMx g fun m => { m with twigs := Tbl.del m.twigs x }
  | .debug c => w.updCell c fun k => { k with debug := none }
  | .core _ => w

/-- The grove of an agent. -/
def agentGrove : Agent → Nat
  | .core g => g
  | .twig c _ => c / 16
  | .mx g _ => g
  | .debug c => c / 16

/-- The module cell of an agent; a core or matrix element has none, and its first cell stands in. -/
def agentCell : Agent → Nat
  | .core g => 16 * g
  | .twig c _ => c
  | .mx g _ => 16 * g
  | .debug c => c

/-- Whose program time an agent's accesses take (R192). -/
def agentWho : Agent → Who
  | .core g => .core g
  | .twig c x => .agent c 0 x
  | .debug c => .agent c 0 4
  | .mx g _ => .mx g

/-- Whether an agent is a matrix element's handler. -/
def agentIsMx : Agent → Bool
  | .mx _ _ => true
  | _ => false

/-- The null value (R115). -/
def TVal.null0 : TVal := ⟨0, true⟩

/-- Payload words as a 256-bit value, the first lowest (R114). -/
def wordsVal : List Word → BitVec 256
  | [] => 0
  | x :: t => x.setWidth 256 ||| (wordsVal t <<< 64)

/-- A 256-bit value as four payload words (R132). -/
def valWords (v : BitVec 256) : List Word :=
  [v.setWidth 64, v.extractLsb' 64 64, v.extractLsb' 128 64, v.extractLsb' 192 64]

/-- The value a token gives from payload word `k` on, words past 3 and words it lacks being zero (R70, R114). -/
def tokVal (t : Token) (k : Nat) : TVal :=
  if t.null then TVal.null0 else ⟨wordsVal ((t.payload.take 4).drop k), false⟩

/-- Input `k` of a twig: of its one token the words from `k` on, or of port `k`'s token the words from 0 on (R114). -/
def Twig.input (t : Twig) (k : Nat) : TVal :=
  match t.ins with
  | [x] => tokVal x k
  | xs =>
    match xs[k]? with
    | some x => tokVal x 0
    | none => ⟨0, false⟩

/-- The node literal, sign-extended (R70). -/
def Twig.lit (t : Twig) : Word := (t.record.setWidth 32).signExtend 64

/-- A twig's source register (R70, R114). -/
def Twig.src (t : Twig) (r : BitVec 5) : TVal :=
  let n := r.toNat
  if n < 8 then t.temps.getD n TVal.null0
  else if n < 12 then t.input (n - 8)
  else if n = 15 then ⟨t.lit.setWidth 256, false⟩
  else ⟨0, false⟩

/-- A twig's destination register written: a temporary whole, or an output of one word or four (R70, R115, R132). -/
def Twig.put (t : Twig) (r : BitVec 5) (v : TVal) (vec : Bool) : Twig :=
  let n := r.toNat
  let out : TOut := if v.null then ⟨true, [0]⟩ else ⟨false, if vec then valWords v.bits else [v.bits.setWidth 64]⟩
  if n < 8 then { t with temps := setAt t.temps n v }
  else if n = 12 then { t with outA := some out }
  else if n = 13 then { t with outB := some out }
  else t

/-- Whether a guard lets the instruction act (R71, R115). -/
def Twig.on (t : Twig) (g : BitVec 3) : Bool :=
  g == 0 || (let v := t.temps.getD g.toNat TVal.null0; !v.null && v.bits.getLsbD 0)

/-- The twig at its next instruction. -/
def Twig.adv (t : Twig) : Twig := { t with next := t.next + 1, stall := none }

/-- What an instruction with sources writes: null where it is guarded off or a source is null (R115). -/
def Twig.result (t : Twig) (g : BitVec 3) (srcs : List (BitVec 5)) (f : List (BitVec 256) → BitVec 256) : TVal :=
  let vs := srcs.map t.src
  if t.on g && !vs.any TVal.null then ⟨f (vs.map TVal.bits), false⟩ else TVal.null0

/-- A twig's register instruction (R115). -/
def twigOp (d : BitVec 5) (g : BitVec 3) (srcs : List (BitVec 5)) (vec : Bool) (f : List (BitVec 256) → BitVec 256)
    (a : Agent) (w : Work) : Work :=
  match w.twigAt a with
  | some t => w.setTwig a ((t.put d (t.result g srcs f) vec).adv)
  | none => w

/-- A register instruction that both task cores and twigs run: sources read in order, one destination written. `vec`
says that an output takes four words (R132). -/
def alu (i : Instr) (d : BitVec 5) (srcs : List (BitVec 5)) (vec : Bool) (f : List (BitVec 256) → BitVec 256)
    (w : Work) : Work :=
  match w.turn with
  | .core _ =>
    coreInstr i (fun g x => x.give g d ((f (srcs.map fun r => (x.g g r).setWidth 256)).setWidth 64)) w
  | a => if i.twigOk (agentIsMx a) then twigOp d i.guard srcs vec f a w else w

/-- One scalar source. -/
def scalar1 (f : Word → Word) : List (BitVec 256) → BitVec 256
  | [x] => (f (x.setWidth 64)).setWidth 256
  | _ => 0

/-- Two scalar sources. -/
def scalar2 (f : Word → Word → Word) : List (BitVec 256) → BitVec 256
  | [x, y] => (f (x.setWidth 64) (y.setWidth 64)).setWidth 256
  | _ => 0

/-- Three scalar sources, the last the old destination. -/
def scalar3 (f : Word → Word → Word → Word) : List (BitVec 256) → BitVec 256
  | [x, y, z] => (f (x.setWidth 64) (y.setWidth 64) (z.setWidth 64)).setWidth 256
  | _ => 0

/-- One 256-bit source. -/
def vector1 (f : Nat → Nat) : List (BitVec 256) → BitVec 256
  | [x] => bv 256 (f x.toNat)
  | _ => 0

/-- Two 256-bit sources. -/
def vector2 (f : Nat → Nat → Nat) : List (BitVec 256) → BitVec 256
  | [x, y] => bv 256 (f x.toNat y.toNat)
  | _ => 0

/-- Three 256-bit sources, the last the old destination. -/
def vector3 (f : Nat → Nat → Nat → Nat) : List (BitVec 256) → BitVec 256
  | [x, y, z] => bv 256 (f x.toNat y.toNat z.toNat)
  | _ => 0

/-! ## Integer operands (R67, R125) -/

/-- The width a type works on. -/
def opW (t : BitVec 3) : Nat := if t.toNat < 2 then 64 else 32

/-- Whether a type is signed. -/
def opSigned (t : BitVec 3) : Bool := t.toNat % 2 == 0

/-- An operand as unsigned. -/
def opU (t : BitVec 3) (x : Word) : Nat := x.toNat % 2 ^ opW t

/-- An operand as two's complement. -/
def opS (t : BitVec 3) (x : Word) : Int := sgn (opW t) x.toNat

/-- An operand as the type's signedness says. -/
def opV (t : BitVec 3) (x : Word) : Int := if opSigned t then opS t x else opU t x

/-- A result of the type's width extended to 64 bits: by sign for s32, by zeros for w32 (R125). -/
def extW (t : BitVec 3) (n : Nat) : Word :=
  if t.toNat = 2 then (bv 32 n).signExtend 64 else bv 64 (n % 2 ^ opW t)

/-- An integer result. -/
def extI (t : BitVec 3) (n : Int) : Word := extW t (wrap (opW t) n)

end Sys2Proof.Machine
end

