-- ==== Sys2Proof/Machine/Flags.lean ====
section
/-! DEFINITION. Conditions: the machine has no flags register; compares write 0 or 1 and branches test a register
(spec 03 R68; 02 R42). -/

namespace Sys2Proof.Machine

/-- A compare of two integers under condition code 0 to 5 (R68). -/
def condInt (c : Nat) (x y : Int) : Bool :=
  match c with
  | 0 => x == y
  | 1 => x != y
  | 2 => x < y
  | 3 => y ≤ x
  | 4 => x ≤ y
  | _ => y < x

/-- A branch's test of a register (R68, R137). -/
def condBr (k : Nat) (x : Word) : Bool :=
  match k with
  | 0 => true
  | 1 => x == 0
  | 2 => x != 0
  | 3 => x.toInt < 0
  | 4 => 0 ≤ x.toInt
  | 5 => 0 < x.toInt
  | _ => x.toInt ≤ 0

/-- A truth value as the word a compare writes. -/
def boolWord (b : Bool) : Word := if b then 1 else 0

end Sys2Proof.Machine
end

