-- ==== Sys2Proof/Machine/Integer.lean ====
section
/-! DEFINITION. Integer, division and immediate instructions (spec 05 R125 to R128). -/

namespace Sys2Proof.Machine

/-- The shift amount of a type: y[5:0] on 64 bits, y[4:0] on 32 (R126). -/
def shiftN (t : BitVec 3) (y : Word) : Nat := y.toNat % opW t

/-- The number of one bits among the low `n` (R126). -/
def ones : Nat → Nat → Nat
  | 0, _ => 0
  | n + 1, x => x % 2 + ones n (x / 2)

/-- The low `k` bits sign-extended to 64 (R126). -/
def sextBits (k : Nat) (x : Word) : Word := bv 64 (wrap 64 (sgn k x.toNat))

/-- Quotient and remainder of a division (R128). -/
def divRem (sg : Bool) (t : BitVec 3) (x y : Word) : Int × Int :=
  let n : Int := if sg then opS t x else opU t x
  let m : Int := if sg then opS t y else opU t y
  if m = 0 then (-1, n)
  else if sg ∧ n = -(2 ^ (opW t - 1) : Nat) ∧ m = -1 then (n, 0)
  else (n.tdiv m, n.tmod m)

/-- x + y (R126). -/
def execAdd (d a b : BitVec 5) (t g : BitVec 3) (s : State) : Out :=
  run s (alu (.add d a b t g) d [a, b] false (scalar2 fun x y => extW t (opU t x + opU t y)))

/-- x − y (R126). -/
def execSub (d a b : BitVec 5) (t g : BitVec 3) (s : State) : Out :=
  run s (alu (.sub d a b t g) d [a, b] false (scalar2 fun x y => extI t (opV t x - opV t y)))

/-- x × y, low bits (R126). -/
def execMul (d a b : BitVec 5) (t g : BitVec 3) (s : State) : Out :=
  run s (alu (.mul d a b t g) d [a, b] false (scalar2 fun x y => extW t (opU t x * opU t y)))

/-- The high half of the product, signed or unsigned as the type is (R126). -/
def execMulh (d a b : BitVec 5) (t g : BitVec 3) (s : State) : Out :=
  run s (alu (.mulh d a b t g) d [a, b] false (scalar2 fun x y => extI t (opV t x * opV t y / (2 ^ opW t : Nat))))

/-- The high half of the product with y unsigned (R126). -/
def execMulhu (d a b : BitVec 5) (t g : BitVec 3) (s : State) : Out :=
  run s (alu (.mulhu d a b t g) d [a, b] false (scalar2 fun x y => extI t (opV t x * opU t y / (2 ^ opW t : Nat))))

/-- Bitwise and (R126). -/
def execAnd (d a b : BitVec 5) (t g : BitVec 3) (s : State) : Out :=
  run s (alu (.and d a b t g) d [a, b] false (scalar2 fun x y => extW t (x &&& y).toNat))

/-- Bitwise or (R126). -/
def execOr (d a b : BitVec 5) (t g : BitVec 3) (s : State) : Out :=
  run s (alu (.or d a b t g) d [a, b] false (scalar2 fun x y => extW t (x ||| y).toNat))

/-- Bitwise exclusive or (R126). -/
def execXor (d a b : BitVec 5) (t g : BitVec 3) (s : State) : Out :=
  run s (alu (.xor d a b t g) d [a, b] false (scalar2 fun x y => extW t (x ^^^ y).toNat))

/-- Shift left (R126). -/
def execShl (d a b : BitVec 5) (t g : BitVec 3) (s : State) : Out :=
  run s (alu (.shl d a b t g) d [a, b] false (scalar2 fun x y => extW t (opU t x * 2 ^ shiftN t y)))

/-- Logical shift right (R126). -/
def execShr (d a b : BitVec 5) (t g : BitVec 3) (s : State) : Out :=
  run s (alu (.shr d a b t g) d [a, b] false (scalar2 fun x y => extW t (opU t x / 2 ^ shiftN t y)))

/-- Arithmetic shift right (R126). -/
def execSra (d a b : BitVec 5) (t g : BitVec 3) (s : State) : Out :=
  run s (alu (.sra d a b t g) d [a, b] false (scalar2 fun x y => extI t (opS t x / (2 ^ shiftN t y : Nat))))

/-- The smaller, signed (R126). -/
def execMin (d a b : BitVec 5) (t g : BitVec 3) (s : State) : Out :=
  run s (alu (.min d a b t g) d [a, b] false (scalar2 fun x y => extI t (if opS t x ≤ opS t y then opS t x else opS t y)))

/-- The larger, signed (R126). -/
def execMax (d a b : BitVec 5) (t g : BitVec 3) (s : State) : Out :=
  run s (alu (.max d a b t g) d [a, b] false (scalar2 fun x y => extI t (if opS t x ≤ opS t y then opS t y else opS t x)))

/-- The smaller, unsigned (R126). -/
def execMinu (d a b : BitVec 5) (t g : BitVec 3) (s : State) : Out :=
  run s (alu (.minu d a b t g) d [a, b] false (scalar2 fun x y => extW t (if opU t x ≤ opU t y then opU t x else opU t y)))

/-- The larger, unsigned (R126). -/
def execMaxu (d a b : BitVec 5) (t g : BitVec 3) (s : State) : Out :=
  run s (alu (.maxu d a b t g) d [a, b] false (scalar2 fun x y => extW t (if opU t x ≤ opU t y then opU t y else opU t x)))

/-- 1 if the condition holds of x and y, else 0 (R126, R68). -/
def execCmp (d a b : BitVec 5) (t c : BitVec 3) (s : State) : Out :=
  run s (alu (.cmp d a b t c) d [a, b] false (scalar2 fun x y => boolWord (condInt c.toNat (opV t x) (opV t y))))

/-- x if bit 0 of d is 1, else y (R126, R72). -/
def execSel (d a b : BitVec 5) (t g : BitVec 3) (s : State) : Out :=
  run s (alu (.sel d a b t g) d [a, b, d] false (scalar3 fun x y z => extW t (if z.getLsbD 0 then opU t x else opU t y)))

/-- Leading zero bits (R126). -/
def execClz (d a : BitVec 5) (t g : BitVec 3) (s : State) : Out :=
  run s (alu (.clz d a t g) d [a] false (scalar1 fun x => bv 64 (opW t - bitLen (opU t x))))

/-- One bits (R126). -/
def execPopc (d a : BitVec 5) (t g : BitVec 3) (s : State) : Out :=
  run s (alu (.popc d a t g) d [a] false (scalar1 fun x => bv 64 (ones (opW t) (opU t x))))

/-- The low 8, 16 or 32 bits sign-extended (R126, R72). -/
def execSext (d a b : BitVec 5) (g : BitVec 3) (s : State) : Out :=
  run s (alu (.sext d a b g) d [a] false (scalar1 fun x => sextBits (8 * 2 ^ b.toNat) x))

/-- Quotient (R128). -/
def execDiv (d a b : BitVec 5) (t : BitVec 3) (s : State) : Out :=
  run s (alu (.div d a b t) d [a, b] false (scalar2 fun x y => extI t (divRem (opSigned t) t x y).1))

/-- Unsigned quotient (R128). -/
def execDivu (d a b : BitVec 5) (t : BitVec 3) (s : State) : Out :=
  run s (alu (.divu d a b t) d [a, b] false (scalar2 fun x y => extI t (divRem false t x y).1))

/-- Remainder (R128). -/
def execRem (d a b : BitVec 5) (t : BitVec 3) (s : State) : Out :=
  run s (alu (.rem d a b t) d [a, b] false (scalar2 fun x y => extI t (divRem (opSigned t) t x y).2))

/-- Unsigned remainder (R128). -/
def execRemu (d a b : BitVec 5) (t : BitVec 3) (s : State) : Out :=
  run s (alu (.remu d a b t) d [a, b] false (scalar2 fun x y => extI t (divRem false t x y).2))

/-- a + SignExtend(imm16) (R127). -/
def execAddi (d a : BitVec 5) (i : BitVec 16) (s : State) : Out :=
  run s (alu (.addi d a i) d [a] false (scalar1 fun x => x + i.signExtend 64))

/-- a and SignExtend(imm16) (R127). -/
def execAndi (d a : BitVec 5) (i : BitVec 16) (s : State) : Out :=
  run s (alu (.andi d a i) d [a] false (scalar1 fun x => x &&& i.signExtend 64))

/-- a or ZeroExtend(imm16) (R127). -/
def execOri (d a : BitVec 5) (i : BitVec 16) (s : State) : Out :=
  run s (alu (.ori d a i) d [a] false (scalar1 fun x => x ||| i.setWidth 64))

/-- a xor ZeroExtend(imm16) (R127). -/
def execXori (d a : BitVec 5) (i : BitVec 16) (s : State) : Out :=
  run s (alu (.xori d a i) d [a] false (scalar1 fun x => x ^^^ i.setWidth 64))

/-- (a << 16) or ZeroExtend(imm16) (R127). -/
def execLih (d a : BitVec 5) (i : BitVec 16) (s : State) : Out :=
  run s (alu (.lih d a i) d [a] false (scalar1 fun x => (x <<< 16) ||| i.setWidth 64))

/-- a << n (R127). -/
def execShli (d a : BitVec 5) (n : BitVec 6) (s : State) : Out :=
  run s (alu (.shli d a n) d [a] false (scalar1 fun x => x <<< n.toNat))

/-- Logical a >> n (R127). -/
def execShri (d a : BitVec 5) (n : BitVec 6) (s : State) : Out :=
  run s (alu (.shri d a n) d [a] false (scalar1 fun x => x >>> n.toNat))

/-- Arithmetic a >> n (R127). -/
def execSrai (d a : BitVec 5) (n : BitVec 6) (s : State) : Out :=
  run s (alu (.srai d a n) d [a] false (scalar1 fun x => x.sshiftRight n.toNat))

/-- 1 if the condition holds of a and the signed immediate, else 0 (R127, R68). -/
def execCmpi (d a : BitVec 5) (c : BitVec 3) (i : BitVec 13) (s : State) : Out :=
  run s (alu (.cmpi d a c i) d [a] false (scalar1 fun x => boolWord (condInt c.toNat x.toInt i.toInt)))

end Sys2Proof.Machine
end

