-- ==== Sys2Proof/Machine/Xlat.lean ====
section
/-! DEFINITION. Physical bytes behind mapped ranges, logical times, translation buffers and the page-table walk, and
the access a task core makes to module memory through its L1 (spec 07 R168, R174 to R183; 08 R191 to R195). -/

namespace Sys2Proof.Machine

/-! ## Mapped ranges (R177 to R179) -/

/-- The place of an address in a captured list of 4 KiB pages, from byte `off` on. -/
def pageHit (a : Nat) : List Nat → Nat → Option Nat
  | [], _ => none
  | b :: t, off => if b ≤ a ∧ a < b + 4096 then some (off + (a - b)) else pageHit a t (off + 4096)

/-- The bank offset that a cell's mapping entries give an address, and whether stores are forwarded. -/
def mapsHit (a : Nat) : Tbl MapEntry → Option (Nat × Bool)
  | [] => none
  | (_, m) :: t =>
    if m.st = 2 ∨ m.st = 3 then
      match pageHit a m.lines (m.boff * 4096) with
      | some off => some (off, m.w)
      | none => mapsHit a t
    else mapsHit a t

/-- The bank address that an address of module memory is forwarded to, and whether stores are (R179). -/
def cellsHit (a : Nat) : Tbl Cell → Option (Nat × Bool)
  | [] => none
  | (n, c) :: t =>
    match mapsHit a c.maps with
    | some (off, p) => some (bankBase n + off, p)
    | none => cellsHit a t

/-- Where the byte at a local physical address is held: in a bank while a mapping holds it (R179). -/
def Work.loc (w : Work) (a : Nat) : Nat :=
  if a < memTop then
    match cellsHit a w.cells with
    | some (b, _) => b
    | none => a
  else a

/-- Whether a store to a local physical address is refused by a mapping with W = 0 (R179). -/
def Work.readOnly (w : Work) (a : Nat) : Bool :=
  if a < memTop then
    match cellsHit a w.cells with
    | some (_, p) => !p
    | none => false
  else false

/-- `n` bytes at a local physical address, forwarded where mapped. -/
def Work.pbytes (w : Work) (a n : Nat) : List Byte := (List.range n).map fun i => w.byte (w.loc (a + i))

/-- The number that `n` bytes at a local physical address hold. -/
def Work.pload (w : Work) (a n : Nat) : Nat := leNat (w.pbytes a n)

/-- Whether a byte of a range of local addresses cannot be corrected (R118, R189; log entry 79). -/
def Work.spoilt (w : Work) (a n : Nat) : Bool := w.mod.spoilt.any fun b => a ≤ b && b < a + n

/-- Whether a byte of a range of module memory, forwarded where mapped, cannot be corrected (R143, R182). -/
def Work.pspoilt (w : Work) (a n : Nat) : Bool :=
  !w.mod.spoilt.isEmpty && (List.range n).any fun i => w.mod.spoilt.contains (w.loc (a + i))

/-- Bytes written at a local physical address, forwarded where mapped. -/
def pstore : Nat → List Byte → Work → Work
  | _, [], w => w
  | a, b :: t, w => pstore (a + 1) t (w.store (w.loc a) [b])

/-! ## Logical times (R192 to R195) -/

/-- The program time of an agent (R192; log entry 13): it starts at 0, and an access on its own starts at the time it follows. -/
def Work.ptime (w : Work) : Who → Nat
  | .core g => (w.core g).ptime
  | .after p => p
  | a => ((w.mod.ptimes.find? fun e => e.1 == a).map Prod.snd).getD 0

/-- A table of program times with one set. -/
def putTime (a : Who) (p : Nat) (l : List (Who × Nat)) : List (Who × Nat) := (a, p) :: l.filter fun e => e.1 != a

/-- An agent's program time set. -/
def Work.setPtime (w : Work) (who : Who) (p : Nat) : Work :=
  let w1 := w.updMod fun m => { m with maxTime := max m.maxTime p }
  match who with
  | .core g => w1.updCore g fun c => { c with ptime := p }
  | .after _ => w1
  | a => w1.updMod fun m => { m with ptimes := putTime a p m.ptimes }

/-- An agent's program time raised to a time that it follows: that of a token it takes (R120, R188; log entry 13). -/
def Work.follow (w : Work) (who : Who) (p : Nat) : Work := if w.ptime who < p then w.setPtime who p else w

/-- An agent of a cell begins an access: it follows what the tokens of its cell carry (R120, R188; log entry 13). -/
def Work.startAgent (w : Work) (who : Who) : Work :=
  match who with
  | .agent mc _ _ => w.follow who (w.ptime (.cell mc))
  | _ => w

/-- An agent of a cell sends tokens: they carry its time (R120, R188; log entry 13). -/
def Work.agentSends (w : Work) (who : Who) : Work :=
  match who with
  | .agent mc _ _ => w.follow (.cell mc) (w.ptime who)
  | _ => w

/-- An agent is no more: the next of its name starts at 0 (R192). -/
def Work.endAgent (w : Work) (who : Who) : Work :=
  w.updMod fun m => { m with ptimes := m.ptimes.filter fun e => e.1 != who }

/-- The write time and lease end of the 192-byte line that holds an address. -/
def Work.lineTime (w : Work) (a : Nat) : Nat × Nat := Tbl.getD w.mod.lineTimes (a / 192) (0, 0)

/-- A line's write time and lease end set. -/
def Work.setLine (w : Work) (a : Nat) (we : Nat × Nat) : Work :=
  w.updMod fun m => { m with lineTimes := Tbl.put m.lineTimes (a / 192) we }

/-- An access to a bank or window: one home time for each 64 KiB of the map (R192). -/
def Work.homeAccess (w : Work) (who : Who) (a : Nat) : Work :=
  let p := max (w.ptime who) (Tbl.getD w.mod.homeTimes (a / 65536) 0)
  (w.setPtime who p).updMod fun m => { m with homeTimes := Tbl.put m.homeTimes (a / 65536) p }

/-- A load at the home of a location, not for an L1 (R192). -/
def Work.readTime (w : Work) (who : Who) (a : Nat) : Work :=
  if a < memTop then
    let t := w.lineTime a
    let p := max (w.ptime who) t.1
    (w.setPtime who p).setLine a (t.1, max t.2 p)
  else w.homeAccess who a

/-- A store or atomic at the home of a location (R192). -/
def Work.writeTime (w : Work) (who : Who) (a : Nat) : Work :=
  if a < memTop then
    let t := w.lineTime a
    let p := max (w.ptime who) (t.2 + 1)
    (w.setPtime who p).setLine a (p, p)
  else w.homeAccess who a

/-- An acquire: the core's program time passes every time given so far (R157, R196, R199, R279; log entry 13). -/
def Work.acquire (w : Work) (g : Nat) : Work := w.setPtime (.core g) (max (w.core g).ptime w.mod.maxTime)

/-- What a cell's tokens carry from now on follows every access performed before (R279). -/
def Work.acquireCell (w : Work) (mc : Nat) : Work := w.follow (.cell mc) w.mod.maxTime

/-! ## Translation (R180 to R183) -/

/-- The address-space table's entry of an ASID; LEASE reads 64 where it holds 0 (R180). -/
def Work.asEntry (w : Work) (asid : Nat) : Word × Word := Tbl.getD w.mod.asTable asid (0, 64)

/-- The default read lease of an ASID (R180). -/
def Work.leaseOf (w : Work) (asid : Nat) : Nat :=
  let l := (w.asEntry asid).2.toNat % 65536
  if l = 0 then 64 else l

/-- A field of a word. -/
def fld (x : Word) (hi lo : Nat) : Nat := bits x.toNat hi lo

/-- Module memory of this module at a physical address, for `n` bytes. -/
def Work.localMem (w : Work) (pa n : Nat) : Option Nat :=
  if pa / 2 ^ 45 = w.mod.modNo ∧ pa % 2 ^ 45 + n ≤ memTop then some (pa % 2 ^ 45) else none

/-- A page-table walk from level `l` down over a table: the leaf's page, its address and its entry (R181). -/
def walkFrom (w : Work) (va : Nat) : Nat → Nat → Option (Nat × Nat × Nat × Word)
  | lv, t =>
    let ix := va / 2 ^ (12 + 9 * lv) % 512
    match w.localMem (t + 8 * ix) 8 with
    | none => none
    | some ea =>
      let e := bv 64 (w.pload ea 8)
      let frame := fld e 55 12 * 4096
      if w.pspoilt ea 8 ∨ ¬ e.getLsbD 0 ∨ fld e 63 56 ≠ 0 ∨ fld e 5 4 ≠ 0 then none
      else if e.getLsbD 6 then
        if 2 < lv ∨ (e.getLsbD 11 ∧ lv = 1) ∨ frame % 2 ^ (12 + 9 * lv) ≠ 0 then none
        else some (2 ^ (12 + 9 * lv), frame, ea, e)
      else
        match lv with
        | 0 => none
        | n + 1 => walkFrom w va n frame

/-- Whether a walk comes to an entry that cannot be corrected (R182). -/
def walkSpoilt (w : Work) (va : Nat) : Nat → Nat → Bool
  | lv, t =>
    match w.localMem (t + 8 * (va / 2 ^ (12 + 9 * lv) % 512)) 8 with
    | none => false
    | some ea =>
      let e := bv 64 (w.pload ea 8)
      if w.pspoilt ea 8 then true
      else if ¬ e.getLsbD 0 ∨ fld e 63 56 ≠ 0 ∨ fld e 5 4 ≠ 0 ∨ e.getLsbD 6 then false
      else
        match lv with
        | 0 => false
        | n + 1 => walkSpoilt w va n (fld e 55 12 * 4096)

/-- What a failed walk of an address faults with: Uncorrectable Memory Error, or Translation (R181, R182). -/
def Work.walkCode (w : Work) (asid va : Nat) : Nat :=
  if va < 2 ^ 57 ∧ (w.asEntry asid).1.getLsbD 63 = true ∧ walkSpoilt w va 4 (fld (w.asEntry asid).1 55 12 * 4096) = true then
    0x0A
  else 0x08

/-- A whole walk (R181): the translation, and memory with the leaf's A bit set (R182). `none` is a failed walk. -/
def Work.walk (w : Work) (asid va : Nat) : Option (Xlat × Work) :=
  if 2 ^ 57 ≤ va ∨ (w.asEntry asid).1.getLsbD 63 = false then none
  else
    match walkFrom w va 4 (fld (w.asEntry asid).1 55 12 * 4096) with
    | none => none
    | some (size, frame, ea, e) =>
      let e1 := e ||| 0x80
      let w1 := if e.getLsbD 7 then w else (pstore ea (leBytes 8 e1.toNat) w).writeTime (.after 0) (w.loc ea)
      some (⟨asid, va / size * size, size, frame, e1, ea⟩, w1)

/-- Whether a translation serves an address. -/
def Xlat.serves (x : Xlat) (asid va : Nat) : Bool := x.asid == asid && x.base ≤ va && va < x.base + x.size

/-- A buffer with a translation as its latest (R182: least recently used goes first). -/
def bufPut (n : Nat) (x : Xlat) (l : List Xlat) : List Xlat :=
  (x :: l.filter fun y => !(y.asid == x.asid && y.base == x.base && y.size == x.size)).take n

/-- The kind of an access: read, write, or both for an atomic. -/
structure Need where
  r : Bool
  w : Bool
deriving DecidableEq, Repr

def needR : Need := ⟨true, false⟩
def needW : Need := ⟨false, true⟩
def needRW : Need := ⟨true, true⟩

/-- What the page's bits refuse (R182). -/
def Xlat.refuses (x : Xlat) (n : Need) (user : Bool) : Bool :=
  (n.r && !x.attr.getLsbD 1) || (n.w && !x.attr.getLsbD 2) || (user && !x.attr.getLsbD 3)

/-- D set at the entry's home by the first write through a translation (R182). -/
def Work.markDirty (w : Work) (n : Need) (x : Xlat) : Xlat × Work :=
  if n.w ∧ x.attr.getLsbD 8 = false then
    let e := bv 64 (w.pload x.pte 8) ||| 0x100
    ({ x with attr := x.attr ||| 0x100 }, (pstore x.pte (leBytes 8 e.toNat) w).writeTime (.after 0) (w.loc x.pte))
  else (x, w)

/-- A translation put into the grove's buffer and, for a task core, its own (R182). -/
def Work.fill (w : Work) (g : Nat) (ownCore : Bool) (x : Xlat) : Work :=
  let w1 := w.updGrove g fun k => { k with tlb := bufPut 2048 x k.tlb }
  if ownCore then w1.updCore g fun c => { c with tlb := bufPut 128 x c.tlb } else w1

/-- The translation the buffers hold for an address: the core's own first, then the grove's (R182). -/
def Work.buffered (w : Work) (g : Nat) (ownCore : Bool) (asid va : Nat) : Option Xlat :=
  let own := if ownCore then (w.core g).tlb.find? fun x => x.serves asid va else none
  match own with
  | some x => some x
  | none => (w.grove g).tlb.find? fun x => x.serves asid va

/-- An access checked against its translation: the physical address, or the fault code (R182). -/
def Work.through (w : Work) (g : Nat) (ownCore user : Bool) (n : Need) (va : Nat) (x : Xlat) : Except Nat (Nat × Work) :=
  if x.refuses n user then .error 0x09
  else
    let r := w.markDirty n x
    .ok (r.1.pa + (va - r.1.base), r.2.fill g ownCore r.1)

/-- The buffer misses of an address counted (R420). -/
def Work.missed (w : Work) (g : Nat) (ownCore : Bool) (asid va : Nat) : Work :=
  if ownCore ∧ ((w.core g).tlb.any fun x => x.serves asid va) = true then w
  else
    let w1 := if ownCore then w.tally g 0 1 else w
    if (w.grove g).tlb.any fun x => x.serves asid va then w1 else w1.tally g 1 1

/-- A walk counted at the die whose service made it: one walk, and the misses that joined it (R420). -/
def Mod.countWalk (m : Mod) (die joined : Nat) : Mod :=
  { m with
    walks := Tbl.put m.walks die (Tbl.getD m.walks die 0 + 1)
    merged := Tbl.put m.merged die (Tbl.getD m.merged die 0 + joined) }

/-- The walks that a die's service may make now: 32 keys at once, the others queue in arrival order (R183). -/
def Mod.walking (m : Mod) (die : Nat) : List Miss := (m.walkQ.filter fun q => q.die == die).take 32

/-- A miss taken from the service and answered: every waiter's grove takes the translation, or each waiter a fault of its own
(R183). -/
def Work.finishWalk (w : Work) (q : Miss) : Work :=
  let va := q.vpn * 4096
  let w1 := w.updMod fun m => { m with walkQ := m.walkQ.erase q }
  match w1.walk q.asid va with
  | some (x, w2) => q.waits.foldl (fun v a => v.fill (a.cell / 16) (a.kind == 4) x) w2
  | none =>
    w1.updMod fun m =>
      { m with walkFaults := m.walkFaults ++ q.waits.map fun a => (a, q.asid, q.vpn, w1.walkCode q.asid va) }

/-- The miss of a grove whose agent does not go on without it counted: a walk of its own, or one more that joins a walk under
way, which then ends (R183, R420). -/
def Work.joinWalk (w : Work) (g asid va : Nat) : Work :=
  match (w.mod.walking (dieOf g)).find? fun q => q.asid == asid && q.vpn == va / 4096 with
  | some q => (w.updMod fun m => m.countWalk q.die q.waits.length).finishWalk q
  | none => w.updMod fun m => m.countWalk (dieOf g) 0

/-- An address translated at once, walking where the buffers do not hold it (R181, R182): units whose wait for the service is time
alone (log entry 86). Trace counts nothing (R418). -/
def Work.translateNow (w : Work) (g : Nat) (counted : Bool) (asid : Nat) (user : Bool) (n : Need) (va : Nat) :
    Except Nat (Nat × Work) :=
  if 2 ^ 57 ≤ va then .error 0x08
  else
    match w.buffered g false asid va with
    | some x => w.through g false user n va x
    | none =>
      match (if counted then (w.missed g false asid va).joinWalk g asid va else w).walk asid va with
      | none => .error (w.walkCode asid va)
      | some (x, w1) => w1.through g false user n va x

/-- No fault's code: an access waits for a walk (R183). -/
def walkWait : Nat := 0x100

/-- An address translated for what waits for walks, a task core or a grove's engines, or for a unit that does not (R181 to
R183). -/
def Work.translate (w : Work) (g : Nat) (wt : Option Waiter) (asid : Nat) (user : Bool) (n : Need) (va : Nat) :
    Except Nat (Nat × Work) :=
  match wt with
  | none => w.translateNow g true asid user n va
  | some a =>
    let own := a.kind == 4
    if 2 ^ 57 ≤ va then .error 0x08
    else
      match w.buffered g own asid va with
      | some x => ((w.endWalk a asid (va / 4096)).missed g own asid va).through g own user n va x
      | none => .error (((w.walkFault a asid (va / 4096)).map fun f => f.2.2.2).getD walkWait)

/-- What an access that waits for the translation service comes to (R183). -/
inductive Xl where
  | wait (w : Work)
  | bad (code : Nat) (w : Work)
  | ok (pa : Nat) (w : Work)

/-- What the buffers hold for an address of a memory node, a generator or an owner: `none` where it waits on a miss, or the
walk's fault (R183). -/
def Work.findXlat (w : Work) (a : Waiter) (asid va : Nat) : Option (Except Nat Xlat) × Work :=
  if 2 ^ 57 ≤ va then (some (.error 0x08), w)
  else
    match w.buffered (a.cell / 16) false asid va with
    | some x => (some (.ok x), w.endWalk a asid (va / 4096))
    | none =>
      match w.walkFault a asid (va / 4096) with
      | some f => (some (.error f.2.2.2), w.updMod fun m => { m with walkFaults := m.walkFaults.erase f })
      | none => (none, w.askWalk a asid (va / 4096))

/-- An address translated for a memory node, a generator or an owner (R182, R183). -/
def Work.translateLater (w : Work) (a : Waiter) (asid : Nat) (n : Need) (va : Nat) : Xl :=
  match w.findXlat a asid va with
  | (none, w1) => .wait w1
  | (some (.error c), w1) => .bad c w1
  | (some (.ok x), w1) =>
    match w1.through (a.cell / 16) false true n va x with
    | .ok (pa, w2) => .ok pa w2
    | .error c => .bad c w1

/-! ## A task core's loads and stores of module memory (R192, R193) -/

/-- The bytes of an L1 line from the home, as they stand. -/
def Work.lineBytes (w : Work) (line : Nat) : List Byte := w.pbytes (line * 192) 192

/-- L1 after a line comes in: its set of 4 keeps the latest, and a line past them leaves (R14, R193; log entry 14). -/
def l1Put (l : L1Line) (ls : List L1Line) : List L1Line :=
  let rest := ls.filter fun x => x.line != l.line
  let same := (rest.filter fun x => x.line % 64 == l.line % 64).take 3
  l :: (same ++ rest.filter fun x => x.line % 64 != l.line % 64)

/-- Whether a copy has outlived its lease in cycles: the core that holds it has raised its program time past the copy's
lease end by then (R194). -/
def L1Line.old (l : L1Line) (now lease : Nat) : Bool := decide (l.since + 16 * (lease + 1) ≤ now)

/-- The copy of a line that serves a task core's loads: its lease holds (R193, R194). -/
def Work.l1Copy (w : Work) (g line : Nat) : Option L1Line :=
  (w.core g).l1.find? fun l =>
    l.line == line && decide ((w.core g).ptime ≤ l.e) && !l.old w.mod.cycle (w.leaseOf (w.core g).asid)

/-- Whether a task core's L1 serves a load (R193). -/
def Work.l1Serves (w : Work) (g a : Nat) : Bool := w.loc a = a && (w.l1Copy g (a / 192)).isSome

/-- The program time with which a core renews a line: past the lease end of a copy that is too old (R194). -/
def Work.renewTime (w : Work) (g line : Nat) : Nat :=
  match (w.core g).l1.find? fun l => l.line == line && l.old w.mod.cycle (w.leaseOf (w.core g).asid) with
  | some l => max (w.core g).ptime (l.e + 1)
  | none => (w.core g).ptime

/-- A task core's load of module memory: from its L1 while the lease holds, otherwise from the home (R192, R193). -/
def Work.coreLoad (w : Work) (g a n : Nat) : List Byte × Work :=
  let c := w.core g
  let line := a / 192
  if w.loc a ≠ a then (w.pbytes a n, w.homeAccess (.core g) (w.loc a))
  else
    match w.l1Copy g line with
    | some l => ((l.bytes.drop (a - line * 192)).take n, w)
    | none =>
      let t := w.lineTime a
      let p := max (w.renewTime g line) t.1
      let e := max t.2 (p + w.leaseOf c.asid)
      let w1 := (w.setPtime (.core g) p).setLine a (t.1, e)
      (w.pbytes a n, w1.updCore g fun k => { k with l1 := l1Put ⟨line, t.1, e, w.mod.cycle, w.lineBytes line⟩ k.l1 })

/-- A task core's store to module memory: performed at the home; its own copy takes the new bytes and times (R193). -/
def Work.coreStore (w : Work) (g a : Nat) (bs : List Byte) : Work :=
  let b := w.loc a
  let w1 := (pstore a bs w).writeTime (.core g) b
  if b ≠ a then w1
  else
    let t := w1.lineTime a
    w1.updCore g fun k =>
      { k with l1 := k.l1.map fun l =>
          if l.line = a / 192 then { l with w := t.1, e := t.2, since := w1.mod.cycle, bytes := w1.lineBytes l.line } else l }

end Sys2Proof.Machine
end

