-- ==== Sys2Proof/Machine/Tasks.lean ====
section
/-! DEFINITION. Continuation records, suspension and wake-up, mail channels, and the end of a task (spec 06 R144 to R157;
15 R323, R326). -/

namespace Sys2Proof.Machine

/-! ## Records (R146 to R152) -/

/-- The slots a record counts as (R146). -/
def Record.size (r : Record) : Nat := if r.full then 2 else 1

/-- The slots that records hold. -/
def slotSum : List Record → Nat
  | [] => 0
  | r :: t => r.size + slotSum t

/-- The frozen tasks that a grove's slots hold (R381): those that no place of the spill area holds. -/
def Work.frozenTasks (w : Work) (g : Nat) : List Record :=
  (w.regOf g).frozen.filterMap fun o => if o.okind = 1 ∧ o.grove = g ∧ o.what = 0 then o.task else none

/-- The continuation slots held of a grove (R146, R150). -/
def Work.slotsHeld (w : Work) (g : Nat) : Nat := slotSum (w.core g).slots + slotSum (w.frozenTasks g)

/-- The place of register `i` among those a live mask saves (R148). -/
def liveRank (live : BitVec 32) (i : Nat) : Nat := ones i (live.toNat % 2 ^ i)

/-- The registers a live mask saves, in ascending order (R148). -/
def saveRegs (live : BitVec 32) (regs : List Word) : List Word :=
  ((List.range 32).filter fun i => live.getLsbD i && i != 0).map fun i => regs.getD i 0

/-- The registers at resumption: those saved, undefined ones for the rest of G1 to G23, the core's own for G24 to G31
(R152; log entry 3). -/
def resumeRegs (live : BitVec 32) (saved old free : List Word) : List Word :=
  (List.range 32).map fun i =>
    if i = 0 then 0
    else if live.getLsbD i then saved.getD (liveRank live i) 0
    else if i < 24 then free.getD i 0
    else old.getD i 0

/-- `n` free words. -/
def freshWords : Nat → Work → List Word × Work
  | 0, w => ([], w)
  | n + 1, w =>
    let r := w.fresh
    let t := freshWords n r.2
    (r.1 :: t.1, t.2)

/-- The bytes of a record's header (R148). -/
def Record.head (r : Record) : List Byte :=
  leBytes 2 r.pc.toNat ++ leBytes 4 r.live.toNat ++
    leBytes 4 (r.task.colour.toNat + r.task.iter.toNat * 2 ^ 12 + r.task.prio * 2 ^ 28) ++ [0] ++
    leBytes 1 (r.wait + 16 * r.vslot) ++ leBytes 2 r.wobj ++ leBytes 2 r.dreg.toNat ++
    leBytes 8 r.task.time.toNat ++ leBytes 8 r.task.wid.toNat

/-- The bytes of a record: 160, or 320 of a full record (R148, R149). -/
def Record.image (r : Record) : List Byte :=
  if r.full then
    r.head ++ bytesOf ((List.range 31).map fun i => r.regs.getD (i + 1) 0) ++
      leBytes 2 r.body.1.toNat ++ leBytes 2 r.body.2.toNat ++ leBytes 1 (if r.loopActive then 1 else 0) ++ leBytes 3 0 ++
      leBytes 8 r.loopcnt.toNat ++ List.replicate 24 0
  else r.head ++ bytesOf ((List.range 16).map fun i => r.regs.getD i 0)

/-- A record's saved value of a register written: the slot of DREG (R148, R155); where LIVE does not name DREG the value is
kept beside the record, and resuming writes it (R152; log entry 83). -/
def Record.setReg (r : Record) (d : BitVec 5) (v : Word) : Record :=
  if d = 0 then r
  else if r.full then { r with regs := setAt r.regs d.toNat v }
  else if r.live.getLsbD d.toNat then { r with regs := setAt r.regs (liveRank r.live d.toNat) v }
  else { r with dval := some v }

/-- The value a wait condition compares (R148). -/
def Record.value (r : Record) : Word := r.regs.getD r.vslot 0

/-- A record made runnable at a cycle. -/
def Record.wake (r : Record) (cycle : Nat) : Record := { r with since := some (r.since.getD cycle) }

/-- A record's effective priority (R144). -/
def Record.eff (r : Record) (cycle : Nat) : Nat :=
  min 3 (r.task.prio + (cycle - r.since.getD cycle) / 16384)

/-- The lowest number a table does not use. -/
def freeKeyFrom {α : Type} : Nat → Tbl α → Nat
  | n, [] => n
  | n, (k, _) :: t => if k = n then freeKeyFrom (n + 1) t else freeKeyFrom n t

/-- The lowest place of the spill area that neither a record nor a frozen task holds. -/
def Region.spillFree (x : Region) : Nat :=
  freeKeyFrom 0 (x.frozen.foldl
    (fun t o => match o.task with
      | some r => if o.okind = 1 ∧ o.what ≠ 0 then Tbl.put t (o.what - 1) r else t
      | none => t) x.spill)

/-- A record's bytes put at a place of a region's spill area (R146). -/
def Work.spillImage (w : Work) (r k : Nat) (x : Record) : Work := pstore ((w.region r).table.spBase + 320 * k) x.image w

/-- A record written to the region's spill area, if a place is free (R146, R151). -/
def Work.spillPut (w : Work) (r : Nat) (x : Record) : Option Work :=
  let k := (w.region r).spillFree
  if k < (w.region r).table.spn then
    some ((w.spillImage r k x).updRegion r fun y => { y with spill := Tbl.put y.spill k x })
  else none

/-- The record that suspended earliest among those that are not runnable (R151). -/
def oldest : List Record → Option Record
  | [] => none
  | r :: t =>
    match oldest t with
    | none => if r.since = none then some r else none
    | some q => if r.since = none ∧ r.order ≤ q.order then some r else some q

/-- A record kept in a core's slots, records that wait going to the spill area for room (R151). `none`: nowhere. -/
def placeRec : Nat → Nat → Record → Work → Option Work
  | 0, _, _, _ => none
  | fuel + 1, g, x, w =>
    if w.slotsHeld g + x.size ≤ 32 then some (w.updCore g fun c => { c with slots := c.slots ++ [x] })
    else
      match oldest (w.core g).slots with
      | none => w.spillPut (w.rno g) x
      | some q =>
        match w.spillPut (w.rno g) q with
        | none => none
        | some w1 => placeRec fuel g x (w1.updCore g fun c => { c with slots := c.slots.erase q })

/-- A record kept for a core. -/
def Work.place (w : Work) (g : Nat) (x : Record) : Option Work := placeRec 34 g x w

/-- A core's frozen task moved to the spill area, if one holds slots and a place is free (R151, R381). -/
def Work.spillFrozen (w : Work) (g : Nat) : Option Work :=
  let r := w.rno g
  let k := (w.region r).spillFree
  match (w.region r).frozen.find? fun o => o.okind == 1 && o.grove == g && o.what == 0 && o.task.isSome with
  | none => none
  | some o =>
    if k < (w.region r).table.spn then
      o.task.map fun x => (w.spillImage r k x).updRegion r fun y =>
        { y with frozen := y.frozen.map fun z => if z.fseq = o.fseq then { z with what := k + 1 } else z }
    else none

/-- One record of a core moved to the spill area: the one that suspended earliest among those that are not runnable, else a
frozen task, else a runnable one (R151, R381). -/
def Work.spillOne (w : Work) (g : Nat) : Option Work :=
  let out : Record → Option Work := fun q =>
    (w.spillPut (w.rno g) q).map fun v => v.updCore g fun c => { c with slots := c.slots.erase q }
  match oldest (w.core g).slots with
  | some q => out q
  | none => (w.spillFrozen g).orElse fun _ => (w.core g).slots.getLast?.bind out

/-- Records moved to the spill area until a core holds at most 32 slots: a task that freezes, is released or is saved by a
wave takes its two slots before room is made. Where the spill area has no place left either, the core holds more than 32: no rule
says where such a task goes, and the model loses none (R146, R151, R381; log entry 83). -/
def fitSlots : Nat → Nat → Work → Work
  | 0, _, w => w
  | n + 1, g, w => if w.slotsHeld g ≤ 32 then w else match w.spillOne g with
    | some v => fitSlots n g v
    | none => w

/-- The register values that a suspension saves: DREG's slot is zero until its value comes, unless the wait condition reads
that register (R148, R152; log entry 83). -/
def Core.saved (c : Core) (live : BitVec 32) (val : Option (BitVec 5)) (dreg : BitVec 5) : List Word :=
  saveRegs live (if val = some dreg then c.regs else setAt c.regs dreg.toNat 0)

/-- The WOBJ under which RLD.DONE waits: no module's number (log entry 33). -/
def rldWait : Nat := 0x8000

/-- The remote stores and atomics of a core that are outstanding (R208). -/
def Work.storesOut (w : Work) (g : Nat) : List Nat :=
  ((w.mod.streams.filter fun s => !s.isCell && s.agent == g).map fun s =>
    (s.out.filter fun q => q.op == 1 || q.op == 2).map OutReq.ident).flatten

/-- The requests of its core that a suspended FENCE or RLD.DONE waits for: those issued before it (R208, R354). -/
def Work.covers (w : Work) (g kind wobj : Nat) : List Nat :=
  if kind = 9 then w.storesOut g else if kind = 7 ∧ wobj = rldWait then (w.core g).rldOut else []

/-- The running task suspended at its instruction (R27, R147 to R151): `val` the register a condition compares, `pc`
where it resumes. No suspension with a loop active or in a trap, nor where the table has no entry; an instruction without
an entry faults only where it would suspend (log entry 80). -/
def Work.suspend (w : Work) (g kind wobj : Nat) (val : Option (BitVec 5)) (dreg : BitVec 5) (pc : BitVec 16)
    (runnable : Bool) : Except Stop Work := do
  let c := w.core g
  need (!c.trap.intrap && !c.loopActive) 0x01
  w.enter g pc
  match Tbl.find c.susp c.pc.toNat with
  | none => .error (flt 0x01)
  | some live =>
    let x : Record :=
      { full := false, pc := pc, live := live, regs := c.saved live val dreg, task := c.cur, wait := kind,
        vslot := (val.map fun r => liveRank live r.toNat).getD 0, wobj := wobj, dreg := dreg, body := (0, 0),
        loopActive := false, loopcnt := 0, since := if runnable then some w.mod.cycle else none,
        order := c.suspOrder, home := g, dval := none, trap := none, halted := false,
        pend := w.covers g kind wobj }
    match w.place g x with
    | none => .error .stall
    | some w1 =>
      return w1.updCore g fun k =>
        { k.idle with
          suspOrder := k.suspOrder + 1
          kept := some c.suspOrder }

/-- Every record of a region changed where a condition holds: in its cores' slots and in its spill area, where
its bytes change with it (R155). -/
def Work.mapRecs (w : Work) (r : Nat) (p : Record → Bool) (f : Record → Record) : Work :=
  let h : Record → Record := fun x => if x.since = none ∧ p x then f x else x
  let w1 := (w.grovesOf r).foldl (fun v g => v.updCore g fun c => { c with slots := c.slots.map h }) w
  (w.region r).spill.foldl (fun v e =>
    if h e.2 = e.2 then v
    else (if (h e.2).image = e.2.image then v else v.spillImage r e.1 (h e.2)).updRegion r fun y =>
      { y with spill := Tbl.put y.spill e.1 (h e.2) }) w1

/-- The waiting records of a region, in its cores' slots and in its spill area. -/
def Work.waiting (w : Work) (r : Nat) : List Record :=
  (((w.grovesOf r).map fun g => (w.core g).slots).flatten ++ Tbl.vals (w.region r).spill).filter fun x => x.since == none

/-- Records that wait in a kind on an object become runnable (R150). -/
def Work.wakeKind (w : Work) (r kind : Nat) (p : Record → Bool) : Work :=
  let now := w.mod.cycle
  w.mapRecs r (fun x => x.wait == kind && p x) fun x => x.wake now

/-- The record that waited longest under a condition. -/
def longest : List Record → Option Record
  | [] => none
  | r :: t =>
    match longest t with
    | none => some r
    | some q => if r.order ≤ q.order then some r else some q

/-! ## Mail (R153 to R157) -/

/-- A channel of a core. -/
def Core.chan (c : Core) (n : Nat) : List Word := (Tbl.getD c.mail n ⟨[]⟩).words

/-- A channel's words set. -/
def Core.setChan (c : Core) (n : Nat) (ws : List Word) : Core := { c with mail := Tbl.put c.mail n ⟨ws⟩ }

/-- A word arriving at a channel: to the record that waited longest, or into the queue; `none` where it must be held
(R155). -/
def Work.deliver (w : Work) (g ch : Nat) (v : Word) : Option Work :=
  let mine : Record → Bool := fun x => x.wait == 1 && x.wobj == ch && x.home == g
  match longest ((w.waiting (w.rno g)).filter mine) with
  | some q =>
    let now := w.mod.cycle
    some (w.mapRecs (w.rno g) (fun x => mine x && x.order == q.order) fun x => (x.setReg x.dreg v).wake now)
  | none =>
    if ((w.core g).chan ch).length < 8 then some (w.updCore g fun c => c.setChan ch (c.chan ch ++ [v])) else none

/-- A word from a glade or a window: where the channel is full it is held, with the grove and the designator of its sender
(R155, R172). -/
def Work.deliverOrHold (w : Work) (g ch : Nat) (v : Word) (src : Nat × Nat) : Work :=
  let held := w.updCore g fun c => { c with mailHeld := c.mailHeld ++ [⟨ch, v, src.1, src.2, w.mod.cycle⟩] }
  if (w.core g).mailHeld.any fun h => h.chan == ch then held else (w.deliver g ch v).getD held

/-! ## Work identifiers (R29, R30) -/

/-- The width of WID field `i` in a launch header's WIDW word (R317). -/
def widWidth (widw i : Nat) : Nat := bits widw (6 * i + 5) (6 * i)

/-- The sum of the first `n` widths. -/
def widSum (widw : Nat) : Nat → Nat
  | 0 => 0
  | n + 1 => widSum widw n + widWidth widw n

/-- Field `i` of a WID (R29, R160). -/
def widField (widw i : Nat) (wid : Nat) : Nat :=
  wid / 2 ^ (widSum widw 6 - widSum widw (i + 1)) % 2 ^ widWidth widw i

/-- The prefix of a WID: fields 0 to n − 1 (R30). -/
def widPrefix (widw n : Nat) (wid : Nat) : Nat := wid / 2 ^ (widSum widw 6 - widSum widw n)

/-- A field of a launch header. -/
def Launch.fld (l : Launch) (hi lo : Nat) : Nat := bits l.hdr.toNat hi lo

/-- WIDW of a launch (R317). -/
def Launch.widw (l : Launch) : Nat := l.fld 127 64

/-- TICKL of a launch (R317). -/
def Launch.tickl (l : Launch) : Nat := l.fld 62 60

/-- AFFL of a launch (R317). -/
def Launch.affl (l : Launch) : Nat := l.fld 58 56

/-- PRIO of a launch (R317). -/
def Launch.prio (l : Launch) : Nat := l.fld 49 48

/-- The scope-15 slot that an open group holds. -/
def groupSlot (pre : Nat) : Tbl (Nat × Nat) → Option Nat
  | [] => none
  | (k, p, _) :: t => if p = pre then some k else groupSlot pre t

/-! ## The end of a task (R323, R326) -/

/-- A task of the running launch ends; `slot` its group's scope-15 slot, 0 for none. A group whose count comes to zero
frees its slot, and its tick is due (R326). -/
def Running.endTask (u : Running) (slot : Nat) : Running :=
  let u1 := { u with live := u.live - 1, ended := u.ended + 1 }
  match Tbl.find u.groups slot with
  | none => u1
  | some (pre, n) =>
    if n ≤ 1 then { u1 with groups := Tbl.del u.groups slot, tickDue := u.tickDue + 1 }
    else { u1 with groups := Tbl.put u.groups slot (pre, n - 1) }

/-- The group slot of a WID in the running launch, 0 where it holds none. -/
def Running.slotOf (u : Running) (wid : Word) : Nat :=
  if u.launch.tickl = 0 then 0 else (groupSlot (widPrefix u.launch.widw u.launch.tickl wid.toNat) u.groups).getD 0

/-- A task of a region's running launch ends, by its group's slot. -/
def Work.endSlot (w : Work) (r slot : Nat) : Work :=
  w.updRegion r fun x => { x with running := x.running.map fun u => u.endTask slot }

/-- A task of a region's running launch ends, by its WID. -/
def Work.endTask (w : Work) (r : Nat) (wid : Word) : Work :=
  w.updRegion r fun x => { x with running := x.running.map fun u => u.endTask (u.slotOf wid) }

end Sys2Proof.Machine
end

