-- ==== Sys2Proof/Machine/Cells.lean ====
section
/-! DEFINITION. Node records, the matching store and overflow queue, instances and their readiness, and the frame in
which a node fires (spec 01 R22 to R24, R33; 03 R62, R63, R75, R76; 04 R84 to R97). -/

namespace Sys2Proof.Machine

/-! ## Node records (R62) -/

/-- A node record. -/
abbrev NRec := BitVec 96

/-- The opcode. -/
def nOpc (r : NRec) : Nat := (r.extractLsb' 88 8).toNat
/-- Destination A. -/
def nDstA (r : NRec) : BitVec 24 := r.extractLsb' 64 24
/-- Destination B. -/
def nDstB (r : NRec) : BitVec 24 := r.extractLsb' 40 24
/-- The modifier's type. -/
def nType (r : NRec) : BitVec 3 := r.extractLsb' 37 3
/-- The demand bit. -/
def nDem (r : NRec) : Bool := r.getLsbD 36
/-- The priority. -/
def nPrio (r : NRec) : Nat := (r.extractLsb' 34 2).toNat
/-- The opcode-specific bits. -/
def nOsb (r : NRec) : Nat := (r.extractLsb' 32 2).toNat
/-- The literal. -/
def nLit (r : NRec) : BitVec 32 := r.extractLsb' 0 32
/-- A field of the literal. -/
def litF (r : NRec) (hi lo : Nat) : Nat := bits (nLit r).toNat hi lo
/-- OSB bit 0. -/
def osb0 (r : NRec) : Bool := nOsb r % 2 == 1
/-- OSB bit 1. -/
def osb1 (r : NRec) : Bool := nOsb r / 2 == 1

/-- No destination (R63). -/
def noDst : BitVec 24 := 0xFFF000#24
/-- The port of a destination. -/
def dPort (d : BitVec 24) : Nat := (d.extractLsb' 22 2).toNat
/-- The node of a destination. -/
def dNode (d : BitVec 24) : Nat := (d.extractLsb' 12 10).toNat
/-- The logical cell of a destination. -/
def dCell (d : BitVec 24) : Nat := (d.extractLsb' 0 12).toNat

/-- The key of a node of a cell's active context. -/
def Cell.key (c : Cell) (n : Nat) : Nat := 1024 * c.active + n

/-- The record of a node in a cell's active context; an empty record where none is loaded (R89). -/
def Cell.node (c : Cell) (n : Nat) : NRec := Tbl.getD c.nodes (c.key n) 0

/-- The ports an operation requires (R91 and each operation's rule). -/
def nPorts (r : NRec) : List Nat :=
  let o := nOpc r
  if o = 0 then []
  else if o ≤ 0x0B then (if osb0 r then [0] else [0, 1])
  else if o = 0x0C then (if osb0 r then [0, 2] else [0, 1, 2])
  else if o = 0x0D then (if osb0 r then [0, 1] else [0, 1, 2])
  else if o = 0x10 ∨ o = 0x14 ∨ o = 0x19 then [0, 1]
  else if o = 0x1A ∨ o = 0x1C then (if osb0 r then [0, 1] else [0])
  else if o = 0x1D then List.range (nOsb r + 1)
  else if o = 0x22 ∨ o = 0x24 ∨ o = 0x25 then [0, 1]
  else if o = 0x28 ∨ o = 0x2A ∨ o = 0x30 then []
  else if o = 0x3A then (if osb0 r then [] else [0])
  else [0]

/-- Whether each token of a node is an instance of its own: one required port, or an operation that says so (R85). -/
def nSingle (r : NRec) : Bool := (nPorts r).length ≤ 1

/-- The kinds that a port of an operation accepts, demand apart; none for a port it does not use (R76 and each
operation's rule; log entry 15). -/
def nKinds (r : NRec) (p : Nat) : List Nat :=
  let o := nOpc r
  let val := [0]
  let vc := [0, 1]
  let all := [0, 1, 3, 4, 5, 6, 7, 8, 9, 10]
  if o = 0x0C then (if (nPorts r).contains p then (if p = 0 then val else vc) else [])
  else if o = 0x10 ∨ o = 0x14 ∨ o = 0x19 then (if p = 0 then vc else if p = 1 then val else [])
  else if o = 0x11 then (if p ≤ 1 then vc else [])
  else if o = 0x12 ∨ o = 0x18 ∨ o = 0x1B then (if p = 0 then vc else [])
  else if o = 0x13 ∨ o = 0x15 then (if p = 0 then all else [])
  else if o = 0x1A ∨ o = 0x1D then (if (nPorts r).contains p then vc else [])
  else if o = 0x20 then (if p = 0 then all else if p = 1 ∧ osb0 r then vc else if p = 3 then val else [])
  else if o = 0x22 then (if p = 0 then val else if p = 1 then vc else [])
  else if o = 0x23 then (if p = 0 then [5] else [])
  else if o = 0x27 then (if p = 0 then vc else if p = 1 then [8, 9] else [])
  else if o = 0x28 then (if p ≤ nOsb r then [0, 8, 9] else [])
  else if o = 0x29 then (if p = 0 then vc else [])
  else if o = 0x33 then (if p ≤ 1 then [1] else [])
  else if 0x31 ≤ o ∧ o ≤ 0x39 then (if p = 0 then [1] else [])
  else if (nPorts r).contains p then val else []

/-! ## Tokens -/

/-- A value token as a firing sends it (R92). -/
def mkTok (dest : BitVec 24) (c : BitVec 12) (i : BitVec 16) (seq : BitVec 8) (prio : Nat) (ws : List Word) : Token where
  dest := dest
  colour := c
  iter := i
  seq := seq
  kind := 0
  words := ws.length
  null := false
  prio := prio
  unord := false
  oseq := 0
  opred := 0
  osucc := 0
  rsvd := 0
  payload := ws
  item := none
  req := none

/-- A null token: one word, read as zero (R75, R97). -/
def mkNull (dest : BitVec 24) (c : BitVec 12) (i : BitVec 16) (seq : BitVec 8) (prio : Nat) : Token :=
  { mkTok dest c i seq prio [0] with null := true }

/-- Word `k` of a token: null tokens and words it lacks read as zero (R75). -/
def tokW (t : Token) (k : Nat) : Word := if t.null then 0 else t.payload.getD k 0

/-- The 128-bit header of a token (R75). -/
def tokHeader (t : Token) : Nat :=
  t.dest.toNat + t.colour.toNat * 2 ^ 24 + t.iter.toNat * 2 ^ 36 + t.seq.toNat * 2 ^ 52 + t.kind * 2 ^ 60 +
    t.words * 2 ^ 64 + (if t.null then 2 ^ 67 else 0) + t.prio * 2 ^ 68 + (if t.unord then 2 ^ 70 else 0) +
    t.oseq * 2 ^ 71 + t.opred * 2 ^ 83 + t.osucc * 2 ^ 95 + t.rsvd * 2 ^ 107

/-- A token's 64 bytes as an overflow record holds them (R87). -/
def tokBytes (t : Token) : List Byte :=
  leBytes 16 (tokHeader t) ++ bytesOf ((List.range 6).map fun k => t.payload.getD k 0)

/-- A token read back from 64 bytes, with its progress item and the request it answers for (R87, R414: payload and NULL as they stand). -/
def tokOfBytes (bs : List Byte) (item req : Option (Nat × Nat)) : Token :=
  let h := leNat (bs.take 16)
  let f : Nat → Nat → Nat := bits h
  { dest := bv 24 (f 23 0), colour := bv 12 (f 35 24), iter := bv 16 (f 51 36), seq := bv 8 (f 59 52), kind := f 63 60,
    words := f 66 64, null := f 67 67 == 1, prio := f 69 68, unord := f 70 70 == 1, oseq := f 82 71, opred := f 94 83,
    osucc := f 106 95, rsvd := f 127 107, payload := (wordsOf 6 (bs.drop 16)).take (f 66 64), item := item, req := req }

/-! ## The way to a cell -/

/-- The number of the stream that an engine's feed, or one firing of a cell or a matrix element, makes: the tokens of one
arrive in the order sent, those of different firings in none that is promised (R94, R229, R343). -/
def feedStream (g k num : Nat) : Nat := 2 * (1 + (8 * g + k) + 2560 * num)
def cellStream (mc no : Nat) : Nat := 2 * (8192 * no + mc) + 1
def mxStream (g no : Nat) : Nat := 2 * (8192 * no + 5120 + g) + 1

/-- The streams of tokens that leave one stop for a cell and are no firing's, which arrive in the order sent (R343): SEND's of a
grove, the space tokens of a grove, and the invokes of a remote stream. -/
def sendStream (g : Nat) : Nat := 2 * (5440 + g) + 1
def spaceStream (g : Nat) : Nat := 2 * (5760 + g) + 1
def invokeStream (source agent : Nat) (isCell : Bool) : Nat :=
  2 * (8192 * (source + 2048 * (agent + 8192 * (if isCell then 1 else 0))) + 6080) + 1

/-- A token put on its way among those under way to a cell: at a place not promised, but after the last token of its
own stream (R94, R229, R343; log entries 2 and 3). Stream 0 promises nothing. -/
def inqPut (src : Nat) (t : Token) (pick : Nat) (q : List (Nat × Token)) : List (Nat × Token) :=
  let tail := if src = 0 then q else (q.reverse.takeWhile fun e => e.1 != src).reverse
  let front := q.take (q.length - tail.length)
  let k := pick % (tail.length + 1)
  front ++ tail.take k ++ [(src, t)] ++ tail.drop k

/-- A token sent from a grove to its destination in a region at a time of its sender, which the receiving cell's agents follow
(R188, R192); its count moves to the receiving grove (R276). A token for no destination, or for a cell that is not mapped,
is not sent. -/
def Work.sendTok (w : Work) (r g src time : Nat) (t : Token) : Work :=
  if t.dest = noDst then w
  else
    match w.lcell r (dCell t.dest) with
    | none => w
    | some mc =>
      let p := w.fresh
      let w1 := (p.2.updCell mc fun c => { c with inq := inqPut src t p.1.toNat c.inq }).follow (.cell mc) time
      if mc / 16 = g then w1
      else match t.item with
        | some (15, _) => w1
        | _ => (w1.count (mc / 16) t.item true).count g t.item false

/-! ## Entering the matching store (R76, R84 to R88, R93, R96) -/

/-- Whether a token's header breaks R75, or its kind or port is not one the node takes (R76, R96). -/
def badTok (r : NRec) (t : Token) : Bool :=
  t.rsvd != 0 || t.words == 7 || 11 ≤ t.kind ||
    (if t.kind = 2 then !nDem r || t.null || nOpc r == 0 else !(nKinds r (dPort t.dest)).contains t.kind)

/-- The overflow record's address: base and place in the cell's queue (R87, R176). -/
def Work.ovAddr (w : Work) (mc slot : Nat) : Nat :=
  match Tbl.find (w.regOf (mc / 16)).table.cells (w.logical mc) with
  | some (_, base, _) => base + 64 * slot
  | none => 0

/-- The overflow queue's capacity (R87, R176). -/
def Work.ovCap (w : Work) (mc : Nat) : Nat :=
  match Tbl.find (w.regOf (mc / 16)).table.cells (w.logical mc) with
  | some (_, _, lg) => 2 ^ lg
  | none => 0

/-- The lowest place no overflow record holds. -/
def ovFree : Nat → Nat → List OvRec → Nat
  | 0, k, _ => k
  | n + 1, k, q => if q.any fun o => o.slot == k then ovFree n (k + 1) q else k

/-- A token written to the overflow queue behind its first `n` records, and the record's address (R87, R88, R93). -/
def Work.ovPutAt (w : Work) (mc n : Nat) (collided exempt : Bool) (t : Token) : Work × Nat :=
  let c := w.cell mc
  let k := ovFree (c.ovf.length + 1) 0 c.ovf
  let a := w.ovAddr mc k
  ((pstore a (tokBytes t) w).updCell mc fun x =>
    { x with ovf := x.ovf.take n ++ [⟨k, collided, t.item, t.req, exempt⟩] ++ x.ovf.drop n, spilled := true }, a)

/-- A token written to the overflow queue as its last record (R87, R88, R93). -/
def Work.ovPut (w : Work) (mc : Nat) (collided : Bool) (t : Token) : Work × Nat :=
  w.ovPutAt mc (w.cell mc).ovf.length collided false t

/-- The node that an overflow record's token is for. -/
def Work.ovNode (w : Work) (mc : Nat) (o : OvRec) : Nat := dNode (bv 24 (w.pload (w.ovAddr mc o.slot) 3))

/-- Whether an earlier token for a node waits in the overflow queue, collided ones apart (R88). -/
def Work.ovHolds (w : Work) (mc node : Nat) : Bool :=
  (w.cell mc).ovf.any fun o => !o.collided && w.ovNode mc o == node

/-- The stored place of a token's port: demands have a place of their own (R96). -/
def slotPort (t : Token) : Nat := if t.kind = 2 then 4 else dPort t.dest

/-- A token given an entry (R84). -/
def Cell.addEntry (c : Cell) (t : Token) : Cell :=
  { c with
    entries := c.entries ++ [⟨c.entrySeq, dNode t.dest, slotPort t, t⟩]
    entrySeq := c.entrySeq + 1 }

/-- The count of an NFORK for its node: the literal's initial credits until one changes it (R245). -/
def Cell.credits (c : Cell) (node : Nat) : Nat := Tbl.getD c.forks (c.key node) (litF (c.node node) 7 0)

/-- An NPJOIN's counts (R246). -/
def Cell.join (c : Cell) (node : Nat) : Join :=
  Tbl.getD c.joins (c.key node) ⟨List.replicate (nOsb (c.node node) + 1) 0, [], none⟩

/-- Room in the output queue for `n` tokens (R94). -/
def Cell.room (c : Cell) (n : Nat) : Bool := c.outq.length + n ≤ 8

/-- Output tokens placed: those for no destination are dropped (R91). They are kept for the output queue in order. -/
def Cell.emit (c : Cell) (ts : List Token) : Cell :=
  let out := ts.filter fun t => t.dest != noDst
  { c with outq := c.outq ++ out, outNo := c.outNo ++ List.replicate out.length c.firing, firing := c.firing + 1 }

/-- Outputs of the firing under way, kept until the output queue has room (R308), each with its node and, above it, the
number of the firing. -/
def Cell.keepOut (c : Cell) (node : Nat) (ts : List Token) : Cell :=
  { c with pend := c.pend ++ (ts.filter fun t => t.dest != noDst).map fun t => (node + 1024 * c.firing, t) }

/-- The next firing has the next number: tokens of one firing keep their order, those of two need not (R94, R343). -/
def Cell.nextFiring (c : Cell) : Cell := { c with firing := c.firing + 1 }

/-- All outputs of a firing, kept until the output queue has room. -/
def Cell.emitLater (c : Cell) (node : Nat) (ts : List Token) : Cell := (c.keepOut node ts).nextFiring

/-- An NPJOIN's branches that are not detached. -/
def Join.live (j : Join) : List Nat := (List.range j.counts.length).filter fun k => !j.detached.contains k

/-- An NPJOIN after a token on branch `k`, and whether it sends a permit (R246). -/
def Join.arrive (j : Join) (k : Nat) : Join × Bool :=
  let cs := if j.detached.contains k then j.counts else setAt j.counts k (j.counts.getD k 0 + 1)
  let live := j.live
  if !live.isEmpty && live.all fun b => 1 ≤ cs.getD b 0 then
    ({ j with counts := (List.range cs.length).map fun b =>
        if live.contains b then cs.getD b 0 - 1 else cs.getD b 0 }, true)
  else ({ j with counts := cs }, false)

/-- A token's progress item released where it is consumed (R274). -/
def Work.release (w : Work) (g : Nat) (t : Token) : Work :=
  match t.item with
  | some (15, _) => w
  | i => w.count g i false

/-- Whether a token collides: another of its tag holds its port of a node that needs two or more (R93). -/
def Cell.collides (c : Cell) (t : Token) : Bool :=
  t.kind != 2 && !nSingle (c.node (dNode t.dest)) && nOpc (c.node (dNode t.dest)) != 0 &&
    c.entries.any fun e =>
      e.node == dNode t.dest && e.port == dPort t.dest && e.tok.kind != 2 && e.tok.colour == t.colour &&
        e.tok.iter == t.iter

/-- A collision: the second token kept as a collided record, the colour frozen at the node for good (R93). -/
def Work.collide (w : Work) (mc : Nat) (t : Token) : Work :=
  let p := w.ovPut mc true t
  let w1 := p.1
  let g := mc / 16
  w1.freezeObj (w1.rno g)
    { fseq := 0, okind := 2, code := 0x10, stuck := true, grove := g, cell := mc, node := dNode t.dest,
      colour := t.colour, iter := t.iter, toks := [], task := none, what := 0, aux := 0 }
    { w1.blank g 0x10 with
      stuck := true, cell := some (mc % 16), node := w1.nodeField mc (dNode t.dest) (dPort t.dest),
      tag := tagField t.colour t.iter, aux2 := bv 64 p.2 }

/-- A parameter token of a generator is held there and not kept in an entry; a selector past 4 faults, and a null
token counts as zeros (R186; log entry 103). `none`: the token is kept in an entry. -/
def Work.absorb (w : Work) (mc : Nat) (t : Token) : Option Work :=
  let c := w.cell mc
  let n := dNode t.dest
  let r := c.node n
  if nOpc r = 0x20 ∧ dPort t.dest = 3 then
    if 4 < (tokW t 0).toNat then some (w.freezeNode mc n t.colour t.iter 0x11 [(3, t)] 0 0 0)
    else
      let u := litF r 6 5
      let g := Tbl.getD c.gens u Gen.reset
      some ((w.setCell mc { c with
        gens := Tbl.put c.gens u { g with params := g.params ++ [((tokW t 0).toNat, tokW t 1)] } }).release (mc / 16) t)
  else none

/-- A token entering the matching store: checked, then collided, consumed, or kept in an entry (R76, R88, R93). A
token that starts a cell-token task ends that task (R322). -/
def Work.enterStore (w : Work) (mc : Nat) (t0 : Token) : Work :=
  let g := mc / 16
  let w0 := match t0.item with
    | some (15, slot) => w.endSlot (w.rno g) slot
    | _ => w
  let t := match t0.item with
    | some (15, _) => { t0 with item := none }
    | _ => t0
  let c := w0.cell mc
  let n := dNode t.dest
  if badTok (c.node n) t then w0.freezeNode mc n t.colour t.iter 0x11 [(dPort t.dest, t)] 0 0 0
  else if t.kind = 2 then w0.updCell mc fun x => x.addEntry t
  else if c.collides t then w0.collide mc t
  else (w0.absorb mc t).getD (w0.updCell mc fun x => x.addEntry t)

/-- Whether an uncollided record waits and an entry is free: refill comes before a new token (R88). -/
def Work.refillDue (w : Work) (mc : Nat) : Bool :=
  let c := w.cell mc
  decide (c.entries.length < c.usable) && c.ovf.any fun o => !o.collided

/-- Whether the cell can take a token: no change of context under way (R90), no refill due (R88), and a record free in its
overflow queue: a cell whose queue is full accepts no token (R87). -/
def Work.canTake (w : Work) (mc : Nat) : Bool :=
  let c := w.cell mc
  (match c.nextCtx with
    | some k => decide (4 ≤ k)
    | none => true) &&
  !w.refillDue mc && decide (c.ovf.length < w.ovCap mc)

/-- A token accepted by a cell: spilled, or entered (R88). -/
def Work.accept (w : Work) (mc : Nat) (t : Token) : Work :=
  let c := w.cell mc
  if c.usable ≤ c.entries.length ∨ w.ovHolds mc (dNode t.dest) = true then (w.ovPut mc false t).1
  else w.enterStore mc t

/-! ## Instances (R22, R23, R85, R94) -/

/-- An instance that has its tokens: its record, its tokens by port, and the entries a firing consumes. -/
structure Inst where
  r : NRec
  toks : List (Nat × Token)
  ids : List Nat
deriving DecidableEq, Repr

/-- The first entry of a node's port with a tag. -/
def Cell.entryAt (c : Cell) (n p : Nat) (k : BitVec 12) (i : BitVec 16) : Option Entry :=
  c.entries.find? fun e => e.node == n && e.port == p && e.tok.colour == k && e.tok.iter == i

/-- The entries of several ports, if every one is held. -/
def Cell.entriesAt (c : Cell) (n : Nat) (k : BitVec 12) (i : BitVec 16) : List Nat → Option (List Entry)
  | [] => some []
  | p :: ps =>
    match c.entryAt n p k i, c.entriesAt n k i ps with
    | some e, some es => some (e :: es)
    | _, _ => none

/-- The instance of a fire that holds a token on each of its ports (R22). -/
def Cell.held22 (c : Cell) (f : Fire) : Option Inst :=
  let r := c.node f.node
  let base : Option (List Entry) :=
    if nSingle r then
      match c.entries.find? fun e => e.id == f.entry && e.node == f.node && e.port != 4 && e.tok.colour == f.colour &&
          e.tok.iter == f.iter with
      | some e => some [e]
      | none => none
    else c.entriesAt f.node f.colour f.iter (nPorts r)
  base.map fun es => ⟨r, es.map fun e => (e.port, e.tok), es.map Entry.id⟩

/-- The instance of a fire whose tokens are held, with a pending demand where DEM = 1 (R22, R23). -/
def Cell.inst (c : Cell) (f : Fire) : Option Inst :=
  match c.held22 f with
  | none => none
  | some x =>
    if nDem x.r then
      match c.entryAt f.node 4 f.colour f.iter with
      | some d => some { x with ids := x.ids ++ [d.id] }
      | none => none
    else some x

/-- The token of a port of an instance. -/
def Inst.tok (x : Inst) (p : Nat) : Token :=
  match x.toks.find? fun e => e.1 == p with
  | some e => e.2
  | none => mkTok noDst 0 0 0 0 []

/-- Entries freed (R84). -/
def Cell.freeEntries (c : Cell) (ids : List Nat) : Cell :=
  { c with entries := c.entries.filter fun e => !ids.contains e.id }

/-- Whether a region runs: loaded, and not halted, stopped or on its way there (R396, R410). -/
def Region.runs (r : Region) : Bool := !r.halted && !r.stopped && r.stopping.isNone && r.freezing.isNone

/-- Whether nothing but its region may hold a node's firings for a colour: it is not reconfiguring nor frozen for the colour, and
no context change holds it (R94, R108, R110). -/
def Work.unheld (w : Work) (f : Fire) : Bool :=
  let c := w.cell f.cell
  (Tbl.find c.reconf (c.key f.node)).isNone &&
    (match c.nextCtx with
      | some k => decide (k < 4)
      | none => true) &&
    !w.isFrozenAt f.cell f.node f.colour

/-- Whether a node may fire for a colour: its region runs, and nothing else holds it (R36, R94, R108, R110). -/
def Work.mayFire (w : Work) (f : Fire) : Bool := (w.regOf (f.cell / 16)).runs && w.unheld f

/-- The draw stamp of a colour: colours held since load come first (R95). -/
def Region.stampOf (r : Region) (c : BitVec 12) : Nat :=
  match Tbl.find r.colours c.toNat with
  | some k => k.stamp + 1
  | none => 0

/-- Since when an instance has been ready. -/
def readySince (now : Nat) (f : Fire) : List (Fire × Nat) → Nat
  | [] => now
  | (g, t) :: r => if g = f then t else readySince now f r

/-- An instance's effective priority (R33). -/
def Work.effPrio (w : Work) (f : Fire) : Nat :=
  let c := w.cell f.cell
  min 3 (nPrio (c.node f.node) + (w.mod.cycle - readySince w.mod.cycle f c.ready) / 1024)

/-- Whether instance `a` is chosen before `b`: priority, then colour age, then node, then readiness, then iteration
(R33, R95). -/
def Work.before (w : Work) (a b : Fire) : Bool :=
  let r := w.regOf (a.cell / 16)
  let c := w.cell a.cell
  let now := w.mod.cycle
  let pa := w.effPrio a
  let pb := w.effPrio b
  let sa := r.stampOf a.colour
  let sb := r.stampOf b.colour
  let ta := readySince now a c.ready
  let tb := readySince now b c.ready
  if pa ≠ pb then pb < pa
  else if sa ≠ sb then sa < sb
  else if a.node ≠ b.node then a.node < b.node
  else if ta ≠ tb then ta < tb
  else if a.iter ≠ b.iter then a.iter < b.iter
  else a.entry ≤ b.entry

/-- The fires that a cell's entries name: one for each token of a one-port node, one for each first token of another. -/
def Cell.named (c : Cell) (mc : Nat) : List Fire :=
  c.entries.filterMap fun e =>
    let r := c.node e.node
    if e.port = 4 then none
    else if (nSingle r ∧ (nOpc r ≠ 0x20 ∨ e.port = 0)) ∨ (¬ nSingle r ∧ (nPorts r).head? = some e.port) then
      some (⟨mc, e.node, e.tok.colour, e.tok.iter, e.id⟩ : Fire)
    else none

/-- The fires of a cell whose instances are held. -/
def Cell.fires (c : Cell) (mc : Nat) : List Fire := (c.named mc).filter fun f => (c.inst f).isSome

end Sys2Proof.Machine
end

