-- ==== Sys2Proof/Machine/Frontier.lean ====
section
/-! DEFINITION. Times, time shapes, frontiers and the counting of items (spec 12 R269 to R280). -/

namespace Sys2Proof.Machine

/-! ## Times (R269 to R272) -/

/-- A scope's time shape (R269). -/
def Region.shape (r : Region) (s : Nat) : Word := Tbl.getD r.shapes s 0

/-- The loop fields of a shape. -/
def shDepth (x : Word) : Nat := fld x 26 25

/-- The width of field `i` of a shape (R269). -/
def shWidth (x : Word) (i : Nat) : Nat := fld x (6 * i + 5) (6 * i)

/-- The bits below field `i`. -/
def shOff (x : Word) : Nat → Nat
  | 0 => 0
  | i + 1 => shOff x i + shWidth x i

/-- The fields of a time, epoch first (R270). -/
def timeFields (x : Word) (t : Word) : List Nat :=
  (List.range (shDepth x + 1)).map fun i => t.toNat / 2 ^ shOff x i % 2 ^ shWidth x i

/-- A time of given fields (R270). -/
def ofFields (x : Word) (fs : List Nat) : Word :=
  bv 64 (((List.range (shDepth x + 1)).map fun i => fs.getD i 0 * 2 ^ shOff x i).sum)

/-- Whether a value is a time of a shape: no bit above its fields (R270). -/
def isTime (x : Word) (t : Word) : Bool := t.toNat < 2 ^ shOff x (shDepth x + 1)

/-- The product order of times (R271). -/
def timeLe (x : Word) (t u : Word) : Bool :=
  (List.zip (timeFields x t) (timeFields x u)).all fun p => p.1 ≤ p.2

/-- The join of two times (R271). -/
def timeJoin (x : Word) (t u : Word) : Word := ofFields x (List.zipWith max (timeFields x t) (timeFields x u))

/-- The meet of two times (R271). -/
def timeMeet (x : Word) (t u : Word) : Word := ofFields x (List.zipWith min (timeFields x t) (timeFields x u))

/-- Whether a time is complete against a frontier (R272). -/
def complete (x : Word) (fr : List Word) (t : Word) : Bool := fr.all fun f => !timeLe x f t

/-- A word put into an ascending list without repeats. -/
def ascend (v : Word) : List Word → List Word
  | [] => [v]
  | u :: t => if v.toNat < u.toNat then v :: u :: t else if v = u then u :: t else u :: ascend v t

/-- The minimal elements of a set of times, ascending (R272). -/
def minimal (x : Word) (ts : List Word) : List Word :=
  let us := ts.foldr ascend []
  us.filter fun t => !(us.any fun u => u != t && timeLe x u t)

/-- A frontier narrowed to at most 4 elements (R277). -/
def narrow (x : Word) (ts : List Word) : List Word :=
  let ms := minimal x ts
  if ms.length ≤ 4 then ms
  else
    match ms.drop 3 with
    | [] => ms
    | u :: us => minimal x (ms.take 3 ++ [us.foldl (timeMeet x) u])

/-! ## Scope trees (R269, R277) -/

/-- A scope and its ancestors up to the root. -/
def ancestors (r : Region) : Nat → Nat → List Nat
  | 0, s => [s]
  | n + 1, s => if shDepth (r.shape s) = 0 then [s] else s :: ancestors r n (fld (r.shape s) 30 27)

/-- The root of a scope's tree. -/
def rootOf (r : Region) (s : Nat) : Nat := (ancestors r 3 s).getLastD s

/-- The projection of a time of one scope into another of its tree: the fields they share, zeros after (R277). -/
def project (r : Region) (frm dst : Nat) (u : Word) : Word :=
  let a := ancestors r 3 frm
  let shared := match (ancestors r 3 dst).find? fun s => a.contains s with
    | some s => shDepth (r.shape s) + 1
    | none => 0
  ofFields (r.shape dst) ((timeFields (r.shape frm) u).take shared)

/-- The items of a time slot over a region's groves: whether the module counter is not zero (R276). -/
def Work.slotLive (w : Work) (r key : Nat) : Bool :=
  (w.grovesOf r).any fun g => Tbl.getD (w.grove g).prog key 0 != 0

/-- The times held by slots of a scope (R275). -/
def Work.slotTimes (w : Work) (r s : Nat) : List Word :=
  ((w.region r).timeSlots.filter fun e => e.1 / 64 == s && w.slotLive r e.1).map fun e => e.2

/-- The frontier of a scope as the module root computes it (R277). -/
def Work.frontierOf (w : Work) (r s : Nat) : List Word :=
  let reg := w.region r
  let ss := (Tbl.keys reg.shapes).filter fun k => rootOf reg k == rootOf reg s
  narrow (reg.shape s) ((ss.map fun k => (w.slotTimes r k).map (project reg k s)).flatten)

/-! ## Items (R274, R275) -/

/-- The lowest slot of a scope that is free: none holds it, or its count has come to zero. -/
def Work.freeSlot (w : Work) (r s : Nat) : Option Nat :=
  (List.range 64).find? fun j =>
    (Tbl.find (w.region r).timeSlots (64 * s + j)).isNone || !w.slotLive r (64 * s + j)

/-- The slot a new item at a time takes: the one that holds the time, a free one, or its cause's (R275). -/
def Work.slotFor (w : Work) (r s : Nat) (u : Word) (cause : Option (Nat × Nat)) : (Nat × Nat) × Work :=
  match (w.region r).timeSlots.find? fun e => e.1 / 64 == s && e.2 == u && w.slotLive r e.1 with
  | some e => ((s, e.1 % 64), w)
  | none =>
    match w.freeSlot r s with
    | some j => ((s, j), w.updRegion r fun x => { x with timeSlots := Tbl.put x.timeSlots (64 * s + j) u })
    | none => (cause.getD (s, 0), w)

/-- A new item counted at a grove (R274, R275). -/
def Work.newItem (w : Work) (g s : Nat) (u : Word) (cause : Option (Nat × Nat)) : (Nat × Nat) × Work :=
  let p := w.slotFor (w.rno g) s u cause
  (p.1, p.2.count g (some p.1) true)

/-! ## Copies (R273, R278) -/

/-- The scope a frontier slot is bound to (R273). -/
def Region.bound (r : Region) (k : Nat) : Option Nat := Tbl.find r.fbind k

/-- A unit's copy of a frontier slot. -/
def copyAt (cs : Tbl FCopy) (k : Nat) : FCopy := Tbl.getD cs k ⟨[], 0⟩

/-- The module root recomputes a scope's frontier; slots whose count has come to zero are free (R275, R277, R278). -/
def Work.recompute (w : Work) (r s : Nat) : Work :=
  let f := w.frontierOf r s
  w.updRegion r fun x =>
    { x with
      timeSlots := x.timeSlots.filter fun e => w.slotLive r e.1
      rootF := Tbl.put x.rootF s f }

/-- Whether a FWAIT record of a core may resume: its time is complete at the core's copy of its slot (R288). -/
def Work.fwaitDone (w : Work) (r g : Nat) (x : Record) : Bool :=
  match (w.region r).bound x.wobj with
  | some s => complete ((w.region r).shape s) (copyAt (w.core g).fcopies x.wobj).elems x.task.time
  | none => false

/-- The core's records that wait on completeness looked at again (R288). -/
def Work.wakeFwait (w : Work) (r g : Nat) : Work :=
  let now := w.mod.cycle
  w.updCore g fun c =>
    { c with slots := c.slots.map fun x =>
        if x.since = none ∧ x.wait = 6 ∧ w.fwaitDone r g x = true then (x.setReg x.dreg 0).wake now else x }

/-- Whether a copy of a slot bound to a scope still lacks the root's frontier (R278). -/
def Work.scopeBehind (w : Work) (r s : Nat) : Bool :=
  let f := Tbl.getD (w.region r).rootF s []
  (w.region r).fbind.any fun b =>
    b.2 == s && (((w.grovesOf r).any fun g => (copyAt (w.core g).fcopies b.1).elems != f) ||
      (w.cellsOf r).any fun c => (copyAt (w.cell c).fcopies b.1).elems != f)

/-- Whether the module root must recompute a scope's frontier (R278). -/
def Work.recomputeDue (w : Work) (r s : Nat) : Bool :=
  w.frontierOf r s != Tbl.getD (w.region r).rootF s [] || (w.region r).timeSlots.any fun t => !w.slotLive r t.1

/-- A cell's copy of a slot changed: each probe of its active context that watches the slot has one more report to make (R285). -/
def Cell.frontier (c : Cell) (k : Nat) (x : FCopy) : Cell :=
  let watch := c.nodes.filter fun e => e.1 / 1024 == c.active && nOpc e.2 == 0x3A && osb0 e.2 && litF e.2 4 0 == k
  { c with
    fcopies := Tbl.put c.fcopies k x
    probes := watch.foldl (fun t e => Tbl.put t e.1 (Tbl.getD t e.1 [] ++ [x])) c.probes }

/-- A unit's copy takes the root's frontier in one step, and its update count rises (R278). -/
def Work.deliverFrontier (w : Work) (r k : Nat) (isCell : Bool) (unit : Nat) : Work :=
  match (w.region r).bound k with
  | none => w
  | some s =>
    let f := Tbl.getD (w.region r).rootF s []
    let up : Tbl FCopy → Tbl FCopy := fun cs =>
      if (copyAt cs k).elems = f then cs else Tbl.put cs k ⟨f, (copyAt cs k).count + 1⟩
    if isCell then
      w.updCell unit fun c =>
        if (copyAt c.fcopies k).elems = f then c else c.frontier k ⟨f, (copyAt c.fcopies k).count + 1⟩
    else (w.updCore unit fun c => { c with fcopies := up c.fcopies }).wakeFwait r unit

/-- A core's copies brought up to what the root has delivered: a task that resumes there from another core reads no older
frontier than it has seen (R278, R287). -/
def Work.catchUp (w : Work) (g : Nat) : Work :=
  (w.regOf g).fbind.foldl (fun v b => v.deliverFrontier (v.rno g) b.1 false g) w

end Sys2Proof.Machine
end

