-- ==== Sys2Proof/Machine/Handles.lean ====
section
/-! DEFINITION. Buffer handles: slots, heads, space tokens, waking, and the HBUF-A instructions (spec 10 R235 to R240). -/

namespace Sys2Proof.Machine

/-- Consecutive slots in a state from a head on (R236). -/
def runLen (slots : List Nat) (st : Nat) : Nat → Nat → Nat
  | 0, _ => 0
  | n + 1, i => if slots.getD (i % slots.length) 9 = st then 1 + runLen slots st n (i + 1) else 0

/-- FILLED (R236). -/
def Handle.filled (h : Handle) : Nat := runLen h.slots 2 h.slots.length h.dh

/-- FREEN (R236). -/
def Handle.free (h : Handle) : Nat := runLen h.slots 0 h.slots.length h.fh

/-- The words of a handle entry; a glade's heads and counts read zero (R236, R367). -/
def Handle.word (h : Handle) (w : Nat) : Word :=
  match w with
  | 0 => bv 64 (h.kind * 2 ^ 62 + (if h.kind = 1 then h.slots.getD 0 0 * 2 ^ 60 else 0) + h.base)
  | 1 => bv 64 (h.slotsz * 2 ^ 32 + h.nslot)
  | 2 => if h.kind = 3 then 0 else bv 64 (h.fh * 2 ^ 56 + h.dh * 2 ^ 48 + h.filled * 2 ^ 32 + h.free * 2 ^ 16)
  | _ => h.w24

/-- Whether a handle keeps the bounds of its kind: those of every handle, and those of a glade's (R236, R367). -/
def handleOk (kind base slotsz nslot : Nat) : Bool :=
  decide (1 ≤ nslot ∧ nslot ≤ 256 ∧ 64 ≤ slotsz ∧ slotsz ≤ 16777216 ∧ slotsz % 64 = 0) && (kind != 1 || nslot == 1) &&
    (kind != 3 || decide (base % 4096 = 0 ∧ slotsz % 4096 = 0 ∧ slotsz ≤ 65536 ∧ nslot ≤ 64 ∧ base + nslot * slotsz ≤ 0x100000))

/-- A handle re-initialised with the fields of words +0 and +8; a glade's word +24 is zero (R236, R367). -/
def Handle.init (w0 w8 w24 : Word) : Handle :=
  let kind := fld w0 63 62
  let nslot := fld w8 8 0
  let slotsz := fld w8 63 32
  { kind := if handleOk kind (fld w0 56 0) slotsz nslot then kind else 0, base := fld w0 56 0, slotsz := slotsz, nslot := nslot,
    slots := List.replicate nslot 0, fh := 0, dh := 0, w24 := if kind = 3 then 0 else w24 }

/-- A handle of a grove. -/
def Grove.handle (g : Grove) (h : Nat) : Handle := Tbl.getD g.handles h Handle.reset

/-- A handle of a grove set. -/
def Work.setHandle (w : Work) (g h : Nat) (x : Handle) : Work :=
  w.updGrove g fun k => { k with handles := Tbl.put k.handles h x }

/-- Every record that waits on a handle becomes runnable (R239). -/
def Work.wakeHandle (w : Work) (g h : Nat) : Work :=
  let r := w.rno g
  w.wakeKind r 5 fun x =>
    x.wobj % 256 == h && (w.mgrove r (x.wobj / 256) == some g || (x.wobj / 256 == 0 && x.home == g))

/-- A handle changed, and the records that wait on it woken (R239). -/
def Work.changeHandle (w : Work) (g h : Nat) (x : Handle) : Work := (w.setHandle g h x).wakeHandle g h

/-- A slot's place, if an address names one whole (R239). -/
def Handle.slotOf (h : Handle) (a : Word) : Option Nat :=
  let x := (a - bv 64 h.base).toNat
  if h.slotsz ≠ 0 ∧ x % h.slotsz = 0 ∧ x / h.slotsz < h.nslot then some (x / h.slotsz) else none

/-- The address of a slot (R237). -/
def Handle.addr (h : Handle) (s : Nat) : Nat := h.base + s * h.slotsz

/-- The slot at the fill head taken as filling (R239). -/
def Handle.take (h : Handle) (fill : Bool) : Handle :=
  if fill then { h with slots := setAt h.slots h.fh 1, fh := (h.fh + 1) % h.nslot }
  else { h with slots := setAt h.slots h.dh 3, dh := (h.dh + 1) % h.nslot }

/-- Several slots taken in ring order, and which they are. -/
def takeSlots (fill : Bool) : Nat → Handle → Handle × List Nat
  | 0, h => (h, [])
  | n + 1, h =>
    let s := if fill then h.fh else h.dh
    let r := takeSlots fill n (h.take fill)
    (r.1, s :: r.2)

/-- A slot posted (R239). -/
def Work.postSlot (w : Work) (g h s : Nat) : Work :=
  let x := (w.grove g).handle h
  w.changeHandle g h { x with slots := setAt x.slots s 2 }

/-- A slot freed, with its space token where the handle sends one (R237, R239). -/
def Work.freeSlotOf (w : Work) (g h s : Nat) : Work :=
  let x := (w.grove g).handle h
  let w1 := w.changeHandle g h { x with slots := setAt x.slots s 0 }
  if x.w24.getLsbD 24 ∧ (x.kind = 1 ∨ x.kind = 2) then
    w1.sendTok (w.rno g) g (spaceStream g) w.mod.maxTime { mkTok (x.w24.setWidth 24) 0 0 (bv 8 s) 0 [] with kind := 8 }
  else w1

/-- The grove and handle of a designator, or Permission (R238). -/
def Work.handleAt (w : Work) (g : Nat) (x : Word) (anyKind : Bool) : Except Stop (Nat × Nat) := do
  let other := x.getLsbD 16
  need (fld x 63 17 = 0 && (other || fld x 15 8 = 0)) 0x09
  let mg ← if other then
      match w.mgrove (w.rno g) (fld x 15 8) with
      | some m => if fld x 15 8 < w.ngrove (w.rno g) then Except.ok m else .error (flt 0x09)
      | none => .error (flt 0x09)
    else Except.ok g
  let k := ((w.grove mg).handle (fld x 7 0)).kind
  need (anyKind || k == 1 || k == 2) 0x09
  return (mg, fld x 7 0)

/-- HFILL and HTAKE in either form: take the head slot, or wait, or answer that there is none (R239). -/
def takeHead (fill tryOnly : Bool) (d a : BitVec 5) (g : Nat) (w : Work) : Except Stop Work := do
  let (mg, h) ← w.handleAt g (w.g g a) false
  let x := (w.grove mg).handle h
  let s := if fill then x.fh else x.dh
  if x.slots.getD s 9 = (if fill then 0 else 2) then
    ((w.acquire g).changeHandle mg h (x.take fill)).give g d (bv 64 (x.addr s))
  else if tryOnly then w.give g d (BitVec.allOnes 64)
  else w.suspend g 5 ((w.g g a).toNat % 65536) none 0 (w.core g).pc false

/-- HFILL (R239). -/
def execHfill (d a : BitVec 5) (s : State) : Out := run s (coreInstr (.hfill d a) (takeHead true false d a))

/-- HFILL.TRY (R239). -/
def execHfillTry (d a : BitVec 5) (s : State) : Out := run s (coreInstr (.hfillTry d a) (takeHead true true d a))

/-- HTAKE (R239). -/
def execHtake (d a : BitVec 5) (s : State) : Out := run s (coreInstr (.htake d a) (takeHead false false d a))

/-- HTAKE.TRY (R239). -/
def execHtakeTry (d a : BitVec 5) (s : State) : Out := run s (coreInstr (.htakeTry d a) (takeHead false true d a))

/-- The slot that HPOST or HFREE names, or Permission (R239). -/
def Work.namedSlot (w : Work) (g : Nat) (a b : BitVec 5) (st : Nat) : Except Stop (Nat × Nat × Nat) := do
  let (mg, h) ← w.handleAt g (w.g g a) false
  let x := (w.grove mg).handle h
  match x.slotOf (w.g g b) with
  | none => .error (flt 0x09)
  | some s => if x.slots.getD s 9 = st then return (mg, h, s) else .error (flt 0x09)

/-- HPOST: a filling slot becomes full (R239). -/
def execHpost (a b : BitVec 5) (s : State) : Out :=
  run s (coreInstr (.hpost a b) fun g w => do
    let (mg, h, k) ← w.namedSlot g a b 1
    ((w.acquire g).postSlot mg h k).next g)

/-- HFREE: a draining slot becomes free (R239). -/
def execHfree (a b : BitVec 5) (s : State) : Out :=
  run s (coreInstr (.hfree a b) fun g w => do
    let (mg, h, k) ← w.namedSlot g a b 3
    ((w.acquire g).freeSlotOf mg h k).next g)

/-- HWAIT: until FREEN or FILLED reaches a count (R239). -/
def execHwait (d a b : BitVec 5) (s : State) : Out :=
  run s (coreInstr (.hwait d a b) fun g w => do
    let (mg, h) ← w.handleAt g (w.g g a) false
    let x := (w.grove mg).handle h
    let v := w.g g b
    need (fld v 61 9 = 0 && fld v 63 62 ≤ 1 && fld v 8 0 ≤ x.nslot) 0x09
    if fld v 8 0 ≤ (if fld v 63 62 = 0 then x.free else x.filled) then
      (w.acquire g).give g d (x.word 2)
    else w.suspend g 5 ((w.g g a).toNat % 65536) none 0 (w.core g).pc false)

/-- HSTAT: a word of the entry (R239). -/
def execHstat (d a : BitVec 5) (n : BitVec 2) (s : State) : Out :=
  run s (coreInstr (.hstat d a n) fun g w => do
    let (mg, h) ← w.handleAt g (w.g g a) true
    (w.acquire g).give g d (((w.grove mg).handle h).word n.toNat))

/-- A write of a handle's word +0 or +8 re-initialises it (R236); `second` says which. -/
def Work.reinit (w : Work) (g h : Nat) (second : Bool) (v : Word) : Work :=
  let x := (w.grove g).handle h
  let w0 : Word := if second then bv 64 (x.kind * 2 ^ 62 + x.base) else v
  let w8 : Word := if second then v else bv 64 (x.slotsz * 2 ^ 32 + x.nslot)
  w.changeHandle g h (Handle.init w0 w8 x.w24)

/-- HANDLE_REINIT: software's write of word +0 or +8 of an entry (R236). -/
def execHandleReinit (grove handle : Nat) (second : Bool) (value : Word) (s : State) : Out :=
  run s fun w => w.reinit grove handle second value

end Sys2Proof.Machine
end

