-- ==== Sys2Proof/Machine/Queues.lean ====
section
/-! DEFINITION. Task records, stage queues and run queues, and the tile registry and residency tables as data (spec 15
R320, R321, R326, R328 to R337). -/

namespace Sys2Proof.Machine

/-! ## Task records (R320) -/

/-- A task record. -/
abbrev TRec := BitVec 512

/-- A field of a task record. -/
def tr (x : TRec) (hi lo : Nat) : Nat := bits x.toNat hi lo
/-- The stage. -/
def trStage (x : TRec) : Nat := tr x 2 0
/-- The kind. -/
def trKind (x : TRec) : Nat := tr x 4 3
/-- The work identifier. -/
def trWid (x : TRec) : Word := bv 64 (tr x 95 32)
/-- The colour. -/
def trColour (x : TRec) : BitVec 12 := bv 12 (tr x 107 96)
/-- The iteration. -/
def trIter (x : TRec) : BitVec 16 := bv 16 (tr x 123 108)
/-- Tile `i` of eight. -/
def trTile (x : TRec) (i : Nat) : Nat := tr x (128 + 32 * i + 31) (128 + 32 * i)
/-- The entry point. -/
def trEpt (x : TRec) : Nat := tr x 447 384
/-- ARG0. -/
def trArg0 (x : TRec) : Nat := tr x 479 448
/-- ARG1. -/
def trArg1 (x : TRec) : Nat := tr x 511 480

/-- A task record from its fields. -/
def mkRec (sf : Nat) (wid : Word) (tag : Nat) (rest : Nat) : TRec :=
  bv 512 (sf + wid.toNat * 2 ^ 32 + tag * 2 ^ 96 + rest * 2 ^ 128)

/-- A record with its stage field set (R158). -/
def trSetStage (x : TRec) (s : Nat) : TRec := bv 512 (x.toNat / 8 * 8 + s % 8)

/-- Whether a record keeps the layout of R320 in a launch of `nstage` stages and WIDs of `sum` bits (R321). -/
def recOk (nstage sum : Nat) (x : TRec) : Bool :=
  tr x 31 5 == 0 && trKind x ≤ 2 && decide (trStage x < nstage) && tr x 127 124 == 0 &&
    (trWid x).toNat / 2 ^ sum == 0 &&
    ((List.range 8).all fun i => trTile x i < 65536 || trTile x i == 0xFFFFFFFF) &&
    (match trKind x with
      | 0 => trEpt x < 65536 && trEpt x % 4 == 0
      | 1 => trEpt x < 65536
      | _ => trEpt x < 2 ^ 57 && trEpt x % 64 == 0)

/-- The stages of a launch. -/
def Launch.nstage (l : Launch) : Nat := l.stages.length

/-- Whether a record keeps the layout for a launch. -/
def Launch.recOk (l : Launch) (x : TRec) : Bool := Machine.recOk l.nstage (widSum l.widw 6) x

/-! ## Stage queues (R328) -/

/-- A stage's queue. -/
def Running.queue (u : Running) (s : Nat) : StageQ := u.queues.getD s ⟨[], 0, []⟩

/-- A stage's entry. -/
def Running.stage (u : Running) (s : Nat) : StageEnt := u.launch.stages.getD s ⟨0, 0, 0, 0, 0, 0⟩

/-- Whether a stage queue has room (R328). -/
def Running.room (u : Running) (s : Nat) : Bool := decide ((u.queue s).recs.length < (u.stage s).qcap)

/-- A record pushed into its stage: its task counts from then on, and in its open group (R323, R326; log entry 16). -/
def Running.push (u : Running) (x : TRec) : Running :=
  let s := trStage x
  let q := u.queue s
  let slot := u.slotOf (trWid x)
  { u with
    live := u.live + 1
    queues := setAt u.queues s { q with recs := q.recs ++ [x], tail := (q.tail + 1) % (u.stage s).qcap }
    groups := match Tbl.find u.groups slot with
      | some (p, n) => Tbl.put u.groups slot (p, n + 1)
      | none => u.groups }

/-- The local address of place `k` of a stage's ring as the dispatcher reaches it: in the region's ASID and the mode of the
launch (R328, R442); or the code and address of the access that failed. -/
def Work.ringAt (w : Work) (r : Nat) (u : Running) (s k : Nat) (n : Need) : Except (Nat × Nat) (Nat × Work) :=
  let va := (u.stage s).qva + 64 * (k % (u.stage s).qcap)
  match w.translateNow ((w.mgrove r 0).getD 0) true (w.region r).rasid (!u.launch.sup) n va with
  | .error c => .error (c, va)
  | .ok (pa, w1) =>
    match w1.localMem pa 64 with
    | none => .error (0x09, va)
    | some a => .ok (a, w1)

/-- A failed access of a queue's ring posted to the region: the record goes on under the dispatcher's pointers (log entry
89). -/
def Work.ringFault (w : Work) (r : Nat) (e : Nat × Nat) : Work :=
  w.post r { w.blank ((w.mgrove r 0).getD 0) e.1 with addr := bv 64 e.2 }

/-- A record's bytes put into its queue's ring in memory, as a store of ordinary memory (R179, R192, R328). -/
def Work.ringStore (w : Work) (r : Nat) (u : Running) (s k : Nat) (x : TRec) : Work :=
  match w.ringAt r u s k needW with
  | .ok (a, w1) =>
    if w1.readOnly a then w.ringFault r (0x09, (u.stage s).qva + 64 * (k % (u.stage s).qcap))
    else (pstore a (leBytes 64 x.toNat) w1).writeTime (.after 0) (w1.loc a)
  | .error e => w.ringFault r e

/-- The head record of a queue read from its ring as it leaves (R328, R442): only the dispatcher accesses the ring while the
launch runs, so the bytes are those it put there. -/
def Work.ringRead (w : Work) (r : Nat) (u : Running) (s : Nat) : Work :=
  let q := u.queue s
  match w.ringAt r u s (q.tail + q.recs.length * ((u.stage s).qcap - 1)) needR with
  | .ok (a, w1) => w1.readTime (.after 0) (w1.loc a)
  | .error e => w.ringFault r e

/-- A record pushed into the running launch of a region. -/
def Work.pushRec (w : Work) (r : Nat) (x : TRec) : Work :=
  match (w.region r).running with
  | none => w
  | some u => (w.ringStore r u (trStage x) (u.queue (trStage x)).tail x).updRegion r fun y => { y with running := some (u.push x) }

/-! ## Tiles (R332) and residency (R333, R334) -/

/-- The address of a registry entry. -/
def Work.tileAt (w : Work) (id : Nat) : Nat := w.mod.trBase % 2 ^ 45 + 16 * id

/-- The two words of a registry entry. -/
def Work.tile (w : Work) (id : Nat) : Word × Word :=
  (bv 64 (w.pload (w.tileAt id) 8), bv 64 (w.pload (w.tileAt id + 8) 8))

/-- A registry entry written, as one access of its writer (R338). -/
def Work.setTile (w : Work) (who : Who) (id : Nat) (e : Word × Word) : Work :=
  let a := w.tileAt id
  let bs := leBytes 8 e.1.toNat ++ leBytes 8 e.2.toNat
  match who with
  | .core g => w.coreStore g a bs
  | _ => (pstore a bs w).writeTime who (w.loc a)

/-- The entry of a tile in a grove's table. -/
def residOf (t : Tbl Resid) (id : Nat) : Option (Nat × Resid) := t.find? fun e => e.2.st != 0 && e.2.tile == id

/-- The entry that a tile takes in a full or free table: a free one, or the one with the fewest bytes (R333). -/
def residSlot (t : Tbl Resid) : Nat :=
  let used : Nat → Option Resid := fun k => (Tbl.find t k).filter fun e => e.st != 0
  match (List.range 256).find? fun k => (used k).isNone with
  | some k => k
  | none =>
    let cost : Nat → Nat := fun k => match used k with
      | some e => e.bankb + e.l2b
      | none => 0
    (List.range 256).foldl (fun best k => if cost k < cost best then k else best) 0

/-- A count of a tile's bytes raised up to its size, or lowered no further than zero (R334, R337). -/
def residCount (size old : Nat) (by_ : Int) : Nat :=
  if by_ ≤ 0 then ((old : Int) + by_).toNat else max old (min size ((old : Int) + by_).toNat)

/-- A tile's bytes in a grove's banks or L2 raised or lowered; an entry with none is free (R333, R334). -/
def residChange (t : Tbl Resid) (id size : Nat) (bank l2 : Int) : Tbl Resid :=
  if bank = 0 ∧ l2 = 0 then t
  else
    let old : Nat × Resid := (residOf t id).getD (residSlot t, ⟨0, id, 0, 0⟩)
    let nb := residCount size old.2.bankb bank
    let nl := residCount size old.2.l2b l2
    if nb = 0 ∧ nl = 0 then (if (residOf t id).isSome then Tbl.del t old.1 else t) else Tbl.put t old.1 ⟨1, id, nb, nl⟩

/-- The bytes that a range of virtual addresses shares with a tile (R334). -/
def overlap (a n b m : Nat) : Nat := min (a + n) (b + m) - max a b

/-- Every registered tile of an address space that a range of addresses meets, with the bytes shared and its size. The
registry is searched over the IDs given. -/
def Work.tilesIn (w : Work) (ids : List Nat) (asid va n : Nat) : List (Nat × Nat × Nat) :=
  ids.filterMap fun id =>
    let e := w.tile id
    let size := fld e.2 63 32
    let k := overlap va n (fld e.1 56 0) size
    if e.1.getLsbD 63 ∧ fld e.1 62 57 = asid ∧ 0 < k then some (id, k, size) else none

/-- The IDs whose registry entries memory holds as written: the registry's listed bytes. -/
def Work.tileIds (w : Work) : List Nat :=
  let lo := w.mod.trBase % 2 ^ 45
  let ids := ((w.log ++ w.base).filter fun e => lo ≤ e.1 && e.1 < lo + 0x100000).map fun e => (e.1 - lo) / 16
  ids.eraseDups

/-- A grove's residency table changed: the dispatchers hear of it within 256 cycles of the first change that they have not heard
of (R334). -/
def Work.setResid (w : Work) (g : Nat) (t : Tbl Resid) : Work :=
  let now := w.mod.cycle
  w.updGrove g fun k => if k.resid = t then k else { k with resid := t, resSince := some (k.resSince.getD now) }

/-- Bytes of a virtual range gained or lost by a grove's banks, put to its residency table (R334). -/
def Work.residBank (w : Work) (g asid va n : Nat) (gain : Bool) : Work :=
  (w.tilesIn w.tileIds asid va n).foldl (fun v e =>
    v.setResid g
      (residChange (v.grove g).resid e.1 e.2.2 (if gain then (e.2.1 : Int) else -(e.2.1 : Int)) 0)) w

/-- The parts of a registered tile that its pages place: physical address and bytes (R334). -/
def Work.tileParts (w : Work) (id : Nat) : List (Nat × Nat) :=
  let e := w.tile id
  let base := fld e.1 56 0
  let size := fld e.2 63 32
  let first := base / 4096
  (List.range ((base + size + 4095) / 4096 - first)).filterMap fun i =>
    let lo := max base ((first + i) * 4096)
    let hi := min (base + size) ((first + i + 1) * 4096)
    (w.walk (fld e.1 62 57) lo).map fun x => (x.1.pa + (lo - x.1.base), hi - lo)

/-- Bytes that an access by physical address wrote into a grove's banks put to its residency table (R334, R430). -/
def Work.residArrive (w : Work) (g pa n : Nat) : Work :=
  (w.tileIds.filter fun id => (w.tile id).1.getLsbD 63).foldl (fun v id =>
    let k := ((v.tileParts id).map fun p => overlap p.1 p.2 (v.mod.modNo * 2 ^ 45 + pa) n).sum
    if k = 0 then v else v.setResid g (residChange (v.grove g).resid id (fld (v.tile id).2 63 32) k 0)) w

/-- A tile's residency entries cleared in every grove (R334, R338). -/
def Work.residClear (w : Work) (id : Nat) : Work :=
  (Tbl.keys w.groves).foldl (fun v g =>
    v.setResid g ((v.grove g).resid.filter fun e => !(e.2.st != 0 && e.2.tile == id))) w

end Sys2Proof.Machine
end

