-- ==== Sys2Proof/Machine/Streams.lean ====
section
/-! DEFINITION. Routes, ordering streams and the slots a remote request holds (spec 16 R346 to R351). -/

namespace Sys2Proof.Machine

/-- A port's register. -/
def Work.port (w : Work) (p : Nat) : Port := Tbl.getD w.mod.ports p Port.reset

/-- The port by which messages for a module leave, if a route reaches it (R346). -/
def Work.route (w : Work) (m : Nat) : Option Nat :=
  let e := Tbl.getD w.mod.routes m 0
  if e.getLsbD 7 ∧ (w.port (fld e 4 0)).up then some (fld e 4 0)
  else if e.getLsbD 15 ∧ (w.port (fld e 12 8)).up then some (fld e 12 8)
  else none

/-- REMCFG: LDET, POOL and RSLOTS (R347). -/
def Mod.rslots (m : Mod) : Nat := m.remcfg.2.2

/-- The detection bound in cycles (R347). -/
def Mod.ldet (m : Mod) : Nat := 2 ^ m.remcfg.1

/-- The pool that a target grants this module: the peer's grant where a link to it is up, else this module's own POOL
(R347; log entry 17). -/
def Work.granted (w : Work) (m : Nat) : Nat :=
  match w.mod.ports.find? fun e => e.2.up && e.2.peer == m with
  | some e => e.2.grant
  | none => w.mod.remcfg.2.1

/-- The stream of an agent to a target. -/
def Mod.stream (m : Mod) (isCell : Bool) (agent target : Nat) : Option Stream :=
  m.streams.find? fun s => s.isCell == isCell && s.agent == agent && s.target == target

/-- A stream replaced. -/
def Mod.setStream (m : Mod) (s : Stream) : Mod :=
  { m with streams := m.streams.map fun x =>
      if x.isCell = s.isCell ∧ x.agent = s.agent ∧ x.target = s.target then s else x }

/-- The credits that open streams to a target hold (R347). -/
def Mod.creditsHeld (m : Mod) (target : Nat) : Nat := ((m.streams.filter fun s => s.target == target).map Stream.slots).sum

/-- Whether a stream has a free request slot and a free response slot (R348). -/
def Stream.pairFree (s : Stream) : Bool :=
  decide ((s.out.filter OutReq.reqHeld).length < s.slots) && decide (s.out.length < s.slots)

/-- Whether an agent still waits to open a stream: a task of its core waits for one in the instruction that asked or has
resumed there and not yet issued it again, or its cell holds an instance that asks (R349). -/
def Work.opening (w : Work) (o : Opener) : Bool :=
  if o.isCell then
    let c := w.cell o.agent
    (c.entries.any fun e => nOpc (c.node e.node) == 0x26 && litF (c.node e.node) 10 0 == o.target) ||
      c.gens.any fun e => e.2.busy
  else
    let mine : Record → Bool := fun x => x.wait == 7 && x.wobj == o.target && x.home == o.agent
    ((w.core o.agent).task.isSome && (w.core o.agent).opens == some ((w.core o.agent).pc, o.target)) ||
      ((w.core o.agent).slots.any mine) || (Tbl.vals (w.regOf o.agent).spill).any mine

/-- Whether an agent may open a stream now: credits enough, and no earlier opener waits for that target (R349). -/
def Work.mayOpen (w : Work) (isCell : Bool) (agent target : Nat) : Bool :=
  decide (w.mod.creditsHeld target + w.mod.rslots ≤ w.granted target) &&
    match w.mod.openers.find? fun o => o.target == target && w.opening o with
    | some o => o.isCell == isCell && o.agent == agent
    | none => true

/-- An agent noted as waiting to open a stream (R349). -/
def Work.askOpen (w : Work) (isCell : Bool) (agent target : Nat) : Work :=
  w.updMod fun m =>
    if m.openers.any fun o => o.isCell == isCell && o.agent == agent && o.target == target then m
    else { m with openers := m.openers ++ [⟨isCell, agent, target, m.cycle⟩] }

/-- A stream as it opens: every slot free (R347). -/
def Stream.new (isCell : Bool) (agent target slots port : Nat) : Stream where
  isCell := isCell
  agent := agent
  target := target
  slots := slots
  port := port
  out := []
  idle := none
  frozen := false
  queued := []

/-- What an agent that would send a request finds (R346, R348, R349). -/
inductive Pair where
  | lost
  | wait
  | free (s : Stream)

/-- The state of an agent's stream to a target. -/
def Work.pair (w : Work) (isCell : Bool) (agent target : Nat) : Pair :=
  match w.mod.stream isCell agent target with
  | some s => if s.pairFree then .free s else .wait
  | none =>
    match w.route target with
    | none => .lost
    | some p =>
      if w.mayOpen isCell agent target then
        .free (Stream.new isCell agent target w.mod.rslots p)
      else .wait

/-- A message for a module that leaves by its route; with none it is lost at once (R346). -/
def Work.sendRouted (w : Work) (m : Nat) (x : Msg) : Work :=
  match w.route m with
  | some p => w.sendBy x p 0
  | none => w

/-- A response of this module to a source, lost at once where no route leads there (R346). -/
def Work.respond (w : Work) (source ident : Nat) (k : RespKind) : Work :=
  w.sendRouted source (.response source ⟨w.mod.modNo, ident, k⟩)

/-! ## Bound groups (R342) -/

/-- Whether a plan entry's group may be bound: its port up, the peer as expected, and the peer's message of the opposite role
here (R342). -/
def Work.mayBind (w : Work) (e : LinkEntry) : Bool :=
  (w.port e.port).up && (w.port e.port).peer == e.peer &&
    w.mod.binds.any fun b => b.1 == e.port && b.2.1 == e.group && b.2.2.1 == 1 - e.role && b.2.2.2 == e.ptag

/-- Every plan entry of a region that a wave has not taken bound that may be: its sender has the peer's whole buffer, its
receiver goes on with the words that it has not emitted (R342, R358, R359). -/
def Work.bindPlans (w : Work) : Work :=
  { w with regions := w.regions.map fun r =>
      (r.1, { r.2 with plans := if r.2.halted then r.2.plans else r.2.plans.map fun p =>
        if !p.bound && w.mayBind p.entry then { p with bound := true, lost := false, held := false, credit := 512 } else p }) }

/-- The bind messages of a plan sent (R342). -/
def Work.sendBinds (w : Work) (ps : List Plan) : Work :=
  ps.foldl (fun v p =>
    if (v.port p.entry.port).up then v.sendOut (.bindMsg p.entry.port p.entry.group p.entry.role p.entry.ptag) else v) w

/-- The peers of a region's bound groups told that a wave holds them, or that they go on (R396, R410; log entry 96). -/
def Work.tellGroups (w : Work) (r : Nat) (held : Bool) : Work :=
  ((w.region r).plans.filter fun p => p.bound && (w.port p.entry.port).up).foldl
    (fun v p => v.sendOut (.groupHold p.entry.port p.entry.group held)) w

/-- A group that its peer holds sends nothing; one that the peer releases and binds anew takes the words' credit anew (R342,
R359, R396). -/
def Work.groupHeld (w : Work) (port group : Nat) (f : Plan → Plan) : Work :=
  { w with regions := w.regions.map fun r =>
      (r.1, { r.2 with plans := r.2.plans.map fun p =>
        if p.bound && p.entry.port == port && p.entry.group == group then f p else p }) }

/-! ## Requests put on a stream (R347 to R349) -/

/-- The message of a request as it travels: a reservation (op 6) names its glade and grove in the address, its channel in the entry,
its phase in the type and its slots in the size (R370). -/
def reqMsg (r : RemoteReq) : Msg :=
  if r.op = 6 then
    .reserve
      { target := r.target, source := r.source, srcGrove := r.srcAgent, chan := r.entry, grove := bits r.addr 19 11,
        glade := bits r.addr 22 20, phase := r.type, count := r.size, ident := r.ident }
  else .request r

/-- A request put on a stream whose pair is free: the stream opens where it is not open, the request takes the next
number and leaves, or waits here for the resume of a frozen stream (R347, R348, R350). Its target answers within the detection
bound that begins now (R208, R347). -/
def Work.sendReq (w : Work) (s : Stream) (q : OutReq) (msg : RemoteReq) : Work :=
  let id := w.mod.nextIdent
  let sent := { msg with ident := id, target := s.target }
  let s1 := { s with
    out := s.out ++ [{ q with ident := id, due := w.mod.cycle + w.mod.ldet }]
    idle := none
    queued := if s.frozen then s.queued ++ [sent] else s.queued }
  let w1 := w.updMod fun m =>
    let m1 := { m with
      nextIdent := id + 1
      openers := m.openers.filter fun o => !(o.isCell == s.isCell && o.agent == s.agent && o.target == s.target) }
    match m1.stream s.isCell s.agent s.target with
    | some _ => m1.setStream s1
    | none => { m1 with streams := m1.streams ++ [s1] }
  if s.frozen then w1 else w1.sendBy (reqMsg sent) s.port 0

/-- A request of no effect yet, to fill in. -/
def OutReq.blank : OutReq := ⟨0, 0, true, 0, 0, none, 0, false, 0, 0, 0, 0, 0, [], false, 0⟩

/-- The region of an agent. -/
def Work.agentRegion (w : Work) (isCell : Bool) (agent : Nat) : Nat := w.rno (if isCell then agent / 16 else agent)

/-- Records that wait for a pair of a stream to a target become runnable (R348). A record that waits for a response
carries its request's number above the 16 bits of WOBJ. -/
def Work.wakePair (w : Work) (target : Nat) : Work :=
  let goes : Nat → Bool := fun g => match w.pair false g target with
    | .wait => false
    | _ => true
  (Tbl.keys w.regions).foldl (fun v r => v.wakeKind r 7 fun x => x.wobj == target && goes x.home) w

/-- A waiting opener served: its stream opens, every slot free, where the credits suffice and no earlier opener waits for that
target; with no route left it finds its request lost (R349, R351). -/
def Work.serveOpener (w : Work) (o : Opener) : Work :=
  let gone : Work → Work := fun v => v.updMod fun m => { m with openers := m.openers.erase o }
  match w.route o.target with
  | none => gone w
  | some p =>
    if w.mayOpen o.isCell o.agent o.target then
      (gone w).updMod fun m =>
        { m with streams := m.streams ++
            [{ Stream.new o.isCell o.agent o.target m.rslots p with idle := some m.cycle }] }
    else w

/-- The agents that still wait to open a stream, each served in the order in which they first asked, whatever the agent does
meanwhile; a task whose stream has opened is runnable (R349). -/
def Work.openers (w : Work) : Work :=
  let waits := w.mod.openers.filter w.opening
  let targets := (w.mod.openers.map Opener.target).eraseDups
  let w1 := waits.foldl Work.serveOpener (w.updMod fun m => { m with openers := waits })
  targets.foldl Work.wakePair w1

end Sys2Proof.Machine
end

