-- ==== Sys2Proof/Machine/Debug.lean ====
section
/-! DEFINITION. Flehild's checks and records: breakpoints, the beginning of a stop, and trace (spec 22 R407 to R410, R416
to R418). -/

namespace Sys2Proof.Machine

/-! ## Breakpoints (R407 to R409) -/

/-- Whether a token matches a dataflow breakpoint (R407, R408). -/
def dbpMatches (ws : List Word) (t : Token) : Bool :=
  let a := ws.getD 0 0
  let b := ws.getD 1 0
  let port := if a.getLsbD 25 then 0x3FFFFF else 0xFFFFFF
  a.getLsbD 63 && t.dest.toNat &&& port == fld a 23 0 &&& port &&
    t.colour.toNat &&& fld b 23 12 == fld b 11 0 &&& fld b 23 12 &&
    decide (fld b 39 24 ≤ t.iter.toNat) && decide (t.iter.toNat ≤ fld b 55 40) &&
    ((if fld a 28 26 ≤ 5 then tokW t (fld a 28 26) else 0) ^^^ ws.getD 2 0) &&& ws.getD 3 0 == 0

/-- The first dataflow breakpoint that a token matches. -/
def Region.dbpHit (r : Region) (t : Token) : Option Nat := (r.dbp.find? fun e => dbpMatches e.2 t).map fun e => e.1

/-- The first instruction breakpoint of a kind at a place whose address a test accepts (R409). -/
def Region.ibpHit (r : Region) (kind place : Nat) (p : Nat → Bool) : Option Nat :=
  (r.ibp.find? fun e =>
    e.2.getLsbD 63 && fld e.2 62 62 == kind && fld e.2 43 32 == place && p (fld e.2 15 0)).map fun e => e.1

/-- A stop begun: its record stands for STOPREC under the next release number (R410). -/
def Work.beginStop (w : Work) (r : Nat) (f : FaultRec) (f2 : Region → Region) : Work :=
  let n := (w.region r).nextFseq
  w.updRegion r fun x =>
    f2 { x with
      stopping := some n
      stop := some { f with fseq := n, okind := 8 }
      nextFseq := x.fseqNext }

/-- A stop at a token that a breakpoint holds at a cell's input (R408, R410). -/
def Work.stopToken (w : Work) (mc i : Nat) (t : Token) : Work :=
  let g := mc / 16
  w.beginStop (w.rno g)
    { w.blank g 0x31 with
      cell := some (mc % 16), node := w.nodeField mc (dNode t.dest) (dPort t.dest), tag := tagField t.colour t.iter,
      aux := bv 64 i, aux2 := tokW t 0 }
    fun x => { x with stopHeld := some (mc, t), stopTok := tokBytes t }

/-- A stop at an instance whose twig block holds a breakpoint (R409, R410). -/
def Work.stopInstance (w : Work) (f : Fire) (i : Nat) : Work :=
  let g := f.cell / 16
  w.beginStop (w.rno g)
    { w.blank g 0x31 with
      cell := some (f.cell % 16), node := w.nodeField f.cell f.node 0, tag := tagField f.colour f.iter,
      aux := bv 64 (i + 256) }
    fun x => { x with stopFire := some f }

/-- A stop before a task core's instruction (R409, R410). -/
def Work.stopBefore (w : Work) (g i : Nat) : Work :=
  let t := (w.core g).cur
  w.beginStop (w.rno g)
    { w.blank g 0x31 with
      tag := tagField t.colour t.iter, aux := bv 64 (i + 256), pc := (w.core g).pc.toNat, wid := t.wid }
    fun x => { x with stopCore := some g }

/-! ## Trace (R416 to R418) -/

/-- The trace ring's grove and handle, if trace is on and the handle is a ring (R416). -/
def Work.traceRing (w : Work) (r : Nat) : Option (Nat × Nat) :=
  let c := (w.region r).trctl
  if c.getLsbD 63 then
    match w.mgrove r (fld c 47 40) with
    | some g => if ((w.grove g).handle (fld c 39 32)).kind = 2 then some (g, fld c 39 32) else none
    | none => none
  else none

/-- The bytes of a trace record (R417). -/
def Work.traceBytes (w : Work) (mc : Nat) (firing : Bool) (t : Token) : List Byte :=
  let r := w.regOf (mc / 16)
  leBytes 8 w.mod.cycle ++
    leBytes 4 (t.dest.toNat + t.kind % 16 * 2 ^ 24 + (if t.null then 2 ^ 28 else 0) + (if firing then 2 ^ 29 else 0)) ++
    leBytes 4 (tagField t.colour t.iter) ++ leBytes 2 (w.grove (mc / 16)).gidx ++ [t.seq] ++ List.replicate 5 0 ++
    leBytes 8 (if r.trctl.getLsbD 62 then (tokW t 0).toNat else 0)

/-- The trace slot that fills posted (R283, R417). -/
def Work.tracePost (w : Work) (r : Nat) : Work :=
  match w.traceRing r, (w.region r).trace with
  | some (g, h), some (s, _) => (w.postSlot g h s).updRegion r fun x => { x with trace := none }
  | _, _ => w

/-- A trace record of a grove's cell written into the slot that fills, a slot taken where none does, and counted in TRBYTES;
dropped where none is free or its bytes have no translation (R417, R418; log entry 18). -/
def Work.traceWrite (w : Work) (r from_ : Nat) (bs : List Byte) : Work :=
  let drop := w.updRegion r fun x => { x with trdrop := x.trdrop + 1 }
  match w.traceRing r with
  | none => w
  | some (g, h) =>
    let x := (w.grove g).handle h
    let cap := x.slotsz / 32 - 1
    let start : Option (Nat × Nat × Work) :=
      match (w.region r).trace with
      | some (s, n, _) => some (s, n, w)
      | none =>
        if x.slots.getD x.fh 9 = 0 then some (x.fh, 0, w.changeHandle g h (x.take true)) else none
    match start with
    | none => drop
    | some (s, n, w1) =>
      match w1.translateNow g false (w1.region r).rasid false needW (x.addr s) with
      | .error _ => drop
      | .ok (pa, w2) =>
        match w2.localMem pa x.slotsz with
        | none => drop
        | some a =>
          let w3 := (pstore a (leBytes 8 (n + 1)) (pstore (a + 32 * (n + 1)) bs w2)).tally from_ 6 32
          let w4 := w3.updRegion r fun y => { y with trace := some (s, n + 1, w3.mod.cycle) }
          if n + 1 = cap then w4.tracePost r else w4

/-- A cell that fires a node in this cycle noted for its cycle class (R419). -/
def Work.noteFired (w : Work) (mc : Nat) (firing : Bool) : Work :=
  if firing then w.updCell mc fun c => { c with fired := true } else w

/-- A token's entry or an instance's firing traced, where the region traces it (R416 to R418). -/
def Work.traced (w0 : Work) (mc : Nat) (firing : Bool) (t : Token) : Work :=
  let w := w0.noteFired mc firing
  let r := w.rno (mc / 16)
  let c := (w.region r).trctl
  if c.getLsbD 63 ∧ fld c 61 60 / (if firing then 2 else 1) % 2 = 1 ∧
      t.colour.toNat &&& fld c 23 12 = fld c 11 0 &&& fld c 23 12 then
    w.traceWrite r (mc / 16) (w.traceBytes mc firing t)
  else w

end Sys2Proof.Machine
end

