-- ==== Sys2Proof/Machine/Ready.lean ====
section
/-! DEFINITION. When an instance is ready, which ready instance a cell chooses, and the frame in which a node fires
(spec 01 R33; 04 R91 to R97; and the readiness each operation's rule gives). -/

namespace Sys2Proof.Machine

/-! ## Room in the output queue (R94) -/

/-- How many of several destinations are some destination. -/
def dests : List (BitVec 24) → Nat
  | [] => 0
  | d :: t => (if d = noDst then 0 else 1) + dests t

/-- The tokens that go to destination A and to destination B (R94). -/
structure Sends where
  a : Nat
  b : Nat
deriving DecidableEq, Repr

/-- A token to A, to B, or to each, where they are destinations. -/
def sendsTo (r : NRec) (a b : Bool) : Sends :=
  ⟨if a then dests [nDstA r] else 0, if b then dests [nDstB r] else 0⟩

/-- The outputs a twig's header declares, by destination (R73, R107). -/
def maskSends (r : NRec) (hdr : BitVec 64) : Sends := sendsTo r (hdr.getLsbD 25) (hdr.getLsbD 26)

/-- How many outputs a twig's header declares (R73, R107). -/
def maskOuts (r : NRec) (hdr : BitVec 64) : Nat := (maskSends r hdr).a + (maskSends r hdr).b

/-- Output places reserved for the twigs that run (R120). -/
def reserved : List Twig → Nat
  | [] => 0
  | t :: ts => maskOuts t.record t.header + reserved ts

/-- The header of the twig block at a twig-store address of a cell (R73). -/
def blockHeader (code : Tbl Code) (a : Nat) : BitVec 64 := Tbl.getD code (a + 1) 0 ++ Tbl.getD code a 0

/-- The tokens that a firing will send to the output queue, by the record's destinations (R94); a token to a destination that
the firing itself names counts as one for A. -/
def sendsOf (c : Cell) (x : Inst) : Sends :=
  let r := x.r
  let o := nOpc r
  let ab := sendsTo r true true
  let anyNull := x.toks.any fun e => e.2.null
  if o = 0x10 then
    if (x.tok 1).null then ab else if (tokW (x.tok 1) 0).getLsbD 0 then sendsTo r true false else sendsTo r false true
  else if o = 0x13 ∧ osb0 r = true ∧ anyNull = true then ⟨0, 0⟩
  else if o = 0x1B then ⟨1, 0⟩
  else if o = 0x1D then maskSends r (blockHeader c.code (litF r 10 0))
  else if o = 0x23 then ⟨if (tokW (x.tok 0) 2).toNat / 8 % 4 = 0 then 0 else 1, 0⟩
  else if o = 0x24 then (if anyNull then sendsTo r false true else sendsTo r true false)
  else if o = 0x25 then (if osb0 r then (if anyNull then sendsTo r false true else sendsTo r true false) else ⟨0, 0⟩)
  else if o = 0x26 then (if anyNull then ab else ⟨0, 0⟩)
  else if o = 0x27 then (if x.toks.any fun e => e.1 == 1 then ⟨0, 0⟩ else ab)
  else if o = 0x28 then
    (match x.toks with
      | (p, t) :: _ => if ((c.join (dNode t.dest)).arrive p).2 then ab else ⟨0, 0⟩
      | [] => ⟨0, 0⟩)
  else if o = 0x20 then (if anyNull then sendsTo r false true else ⟨0, 0⟩)
  else if [0x15, 0x21, 0x22, 0x29, 0x31, 0x33, 0x34, 0x35].contains o then ⟨0, 0⟩
  else ab

/-- How many tokens a firing will send to the output queue (R94). -/
def nSend (c : Cell) (x : Inst) : Nat := (sendsOf c x).a + (sendsOf c x).b

/-! ## What an operation waits for besides its tokens -/

/-- The first entry of a node's port 0 in arrival order; a colour frozen at the node holds back no other (R203, R381). -/
def Work.firstAt (w : Work) (mc n : Nat) : Option Nat :=
  ((w.cell mc).entries.find? fun e => e.node == n && e.port == 0 && !w.isFrozenAt mc n e.tok.colour).map Entry.id

/-- Whether a loaded block overlaps words that wait to be written (R109). -/
def Cell.blockPending (c : Cell) (a : Nat) : Bool :=
  let n := (blockHeader c.code a).toNat / 2 ^ 27 % 32 + 3
  c.pendTwig.any fun b => decide (b.1 < a + n) && decide (a < b.1 + b.2.length)

/-- Whether a long firing of a node still sends (R308). -/
def Cell.busyNode (c : Cell) (n : Nat) : Bool := c.pend.any fun e => e.1 % 1024 == n

/-- An arrangement of a region. -/
def Region.arr (r : Region) (a : Nat) : Option Arr := Tbl.find r.arrs a

/-- The entries that stand in an arrangement's sapwood (R294). -/
def Arr.sap (a : Arr) : Nat := a.openB.length + (a.sealed.map List.length).sum

/-- SAPLEN (R291). -/
def Arr.saplen (a : Arr) : Nat := bits a.desc.toNat 95 80

/-- Whether an arrangement's sapwood has room for an insertion: a unit is free, and no pass moves a sapwood that was full;
DCON's buffer counts the same (R294, R313). -/
def Region.sapRoom (r : Region) (a : Nat) : Bool :=
  match r.arr a with
  | some x => x.sap < x.saplen && !x.run.any fun p => p.full
  | none => true

/-- Whether no correction of a DRED firing before waits for room (R294, R312). -/
def Region.inboxEmpty (r : Region) (a : Nat) : Bool := (r.arr a).all fun x => x.inbox.isEmpty

/-- An arrangement's scope (R291). -/
def Arr.scope (a : Arr) : Nat := bits a.desc.toNat 11 8

/-- The scope that an operator's arrangement is in, and its shape. -/
def Region.arrShape (x : Region) (n : Nat) : Word :=
  match x.arr n with
  | some a => x.shape a.scope
  | none => 0

/-- Whether a token at an operator finds the room that it needs in an arrangement's sapwood: a null token, a diff of 0, and a time
that is none of the scope insert nothing (R294, R308). -/
def Region.takesIn (x : Region) (n : Nat) (t : Token) : Bool :=
  t.null || fld (tokW t 5) 31 0 == 0 || !isTime (x.arrShape n) (tokW t 4) || x.sapRoom n

/-- Whether a firing of a node is frozen, before its outputs or partway through them (R36, R381). -/
def Work.joinFrozen (w : Work) (mc node : Nat) : Bool :=
  (w.regOf (mc / 16)).frozen.any fun o => o.okind == 2 && o.cell == mc && o.node == node && (o.what == 1 || o.what == 6)

/-- The bound plan entry a link node names (R357, R358). -/
def Region.plan (r : Region) (i : Nat) : Option Plan := r.plans[i]?

/-- The conditions of an operation beyond its tokens and output room. -/
def Work.opReady (w : Work) (f : Fire) (x : Inst) : Bool :=
  let c := w.cell f.cell
  let g := f.cell / 16
  let reg := w.regOf g
  let r := x.r
  let anyNull := x.toks.any fun e => e.2.null
  match nOpc r with
  | 0x1A => false
  | 0x1C =>
    anyNull || (match reg.running with
      | some u => litF r 2 0 ≥ u.launch.nstage || u.room (litF r 2 0)
      | none => true)
  | 0x1D => decide (c.twigs.length < 4) && !c.blockPending (litF r 10 0)
  | 0x20 => !(Tbl.getD c.gens (litF r 6 5) Gen.reset).busy
  | 0x23 => w.firstAt f.cell f.node == some f.entry && !c.ownerFrozen.contains f.node
  | 0x26 =>
    osb0 r || anyNull || (match w.pair true f.cell (litF r 10 0) with
      | .wait => false
      | _ => true)
  | 0x27 =>
    (x.toks.any fun e => e.1 == 1) || (w.firstAt f.cell f.node == some f.entry && decide (0 < c.credits f.node))
  | 0x29 =>
    (match reg.plan (litF r 6 0) with
      | some p => p.bound && !p.held && (anyNull || decide ((x.tok 0).words ≤ p.credit))
      | none => false)
  | 0x31 =>
    (x.tok 0).null || (match Tbl.find c.douts (c.key f.node) with
      | some d => d.slot.isSome
      | none => false) || (let h := (w.grove g).handle (litF r 7 0); h.slots.getD h.fh 9 == 0)
  | 0x32 => !c.busyNode f.node && reg.takesIn (litF r 7 0) (x.tok 0)
  | 0x33 =>
    !c.busyNode f.node && !w.joinFrozen f.cell f.node &&
      (match x.toks with
       | (p, t) :: _ => reg.takesIn (if p = 0 then litF r 7 0 else litF r 15 8) t
       | [] => true)
  | 0x34 => !c.busyNode f.node && reg.takesIn (litF r 7 0) (x.tok 0) && reg.inboxEmpty (litF r 15 8)
  | 0x35 => !c.busyNode f.node && reg.takesIn (litF r 7 0) (x.tok 0)
  | _ => true

/-- Whether an instance meets the conditions of readiness, whether or not its region runs: time that it stands still drops no
count (R33, R36, R94, R410). -/
def Work.meets (w : Work) (f : Fire) : Bool :=
  let c := w.cell f.cell
  match c.inst f with
  | none => false
  | some x =>
    w.unheld f && c.room (reserved (Tbl.vals c.twigs) + nSend c x) && w.opReady f x

/-- Whether an instance is ready (R94). -/
def Work.ready (w : Work) (f : Fire) : Bool := (w.regOf (f.cell / 16)).runs && w.meets f

/-- Whether a cell chooses an instance now: it is ready, and no other ready instance comes before it (R33, R95). Updates
of an owner take no part in that choice: they fire in their own order (R201). -/
def Work.chosen (w : Work) (f : Fire) : Bool :=
  let c := w.cell f.cell
  w.ready f && (nOpc (c.node f.node) == 0x23 ||
    (c.fires f.cell).all fun e =>
      e == f || nOpc (c.node e.node) == 0x23 || !w.ready e || w.before f e)

/-! ## The frame of a firing (R91, R92, R274) -/

/-- What a firing comes to: its outputs in order, counted, with the work it did; or the fault that freezes its colour. -/
inductive NRes where
  | done (outs : List Token) (w : Work)
  | fault (code : Nat) (addr aux : Word)

/-- Outputs that carry a progress count counted at the sending grove (R274, R276). -/
def countOuts (g : Nat) : List Token → Work → Work
  | [], w => w
  | t :: ts, w => countOuts g ts (if t.dest = noDst then w else w.count g t.item true)

/-- The token that a firing's trace record names: its first token at its node (R417). -/
def fireToken (f : Fire) (x : Inst) (lc : Nat) : Token :=
  let t := match x.toks with
    | e :: _ => e.2
    | [] => mkTok noDst f.colour f.iter 0 0 []
  { t with dest := bv 24 (lc + f.node * 2 ^ 12 + dPort t.dest * 2 ^ 22) }

/-- A node fires: its operation's work, outputs placed, tokens consumed, their counts released; a fault keeps the tokens
with the frozen colour. A fire the cell does not choose changes nothing (log entry 2). -/
def fireNode (opc : Nat) (eff : Fire → Inst → Work → NRes) (f : Fire) (w : Work) : Work :=
  match (w.cell f.cell).inst f with
  | none => w
  | some x =>
    if nOpc x.r = opc ∧ w.chosen f = true then
      match eff f x w with
      | .fault code addr aux => w.freezeNode f.cell f.node f.colour f.iter code x.toks addr aux 1
      | .done outs w1 =>
        let w2 := w1.updCell f.cell fun c => (c.freeEntries x.ids).emit outs
        (releaseToks (f.cell / 16) (x.toks.map Prod.snd) w2).traced f.cell true (fireToken f x (w.logical f.cell))
    else w

/-- The same outputs to both destinations. -/
def both (r : NRec) (mk : BitVec 24 → Token) : List Token := [mk (nDstA r), mk (nDstB r)]

/-- A one-word value token of a firing to both destinations (R92). -/
def sendWord (f : Fire) (x : Inst) (v : Word) : List Token :=
  both x.r fun d => mkTok d f.colour f.iter (x.tok 0).seq (nPrio x.r) [v]

/-- Null tokens of a firing to both destinations (R97). -/
def sendNull (f : Fire) (x : Inst) : List Token :=
  both x.r fun d => mkNull d f.colour f.iter (x.tok 0).seq (nPrio x.r)

/-- A token passed on whole to a destination (R92, R103). -/
def pass (r : NRec) (t : Token) (d : BitVec 24) : Token :=
  { t with dest := d, prio := nPrio r, unord := false, oseq := 0, opred := 0, osucc := 0 }

/-- A token that a node passes on, as a null token: its words and kind stand, and it is no item (R97, R103, R274). -/
def passNull (r : NRec) (t : Token) (d : BitVec 24) : Token := { pass r t d with null := true, item := none }

/-- A firing that passes tokens on whole: a change keeps its count (R274). -/
def passed (f : Fire) (outs : List Token) (w : Work) : NRes := .done outs (countOuts (f.cell / 16) outs w)

/-- Whether a token of the instance is null. -/
def Inst.anyNull (x : Inst) : Bool := x.toks.any fun e => e.2.null

end Sys2Proof.Machine
end

