-- ==== Sys2Proof/Machine/Float.lean ====
section
/-! DEFINITION. Scalar floating point (spec 05 R129 to R131). -/

namespace Sys2Proof.Machine

/-- The float format of a type code 4 to 6 (R67, R129). -/
def fpFmt (t : BitVec 3) : Fmt := if t.toNat = 4 then fmtF32 else if t.toNat = 5 then fmtBf16 else fmtF16

/-- An operand: the low bits of its register (R129). -/
def fpVal (t : BitVec 3) (x : Word) : Num := (fpFmt t).decode (x.toNat % 2 ^ (fpFmt t).width)

/-- A result rounded to nearest even; every higher bit is zero (R129, R53). -/
def fpOut (t : BitVec 3) (x : Num) : Word := bv 64 ((fpFmt t).round x)

/-- Round(x + y) (R130). -/
def execFadd (d a b : BitVec 5) (t g : BitVec 3) (s : State) : Out :=
  run s (alu (.fadd d a b t g) d [a, b] false (scalar2 fun x y => fpOut t ((fpVal t x).add (fpVal t y))))

/-- Round(x − y) (R130). -/
def execFsub (d a b : BitVec 5) (t g : BitVec 3) (s : State) : Out :=
  run s (alu (.fsub d a b t g) d [a, b] false (scalar2 fun x y => fpOut t ((fpVal t x).add (fpVal t y).neg)))

/-- Round(x × y) (R130). -/
def execFmul (d a b : BitVec 5) (t g : BitVec 3) (s : State) : Out :=
  run s (alu (.fmul d a b t g) d [a, b] false (scalar2 fun x y => fpOut t ((fpVal t x).mul (fpVal t y))))

/-- Round(x × y + d), one rounding (R130, R72). -/
def execFfma (d a b : BitVec 5) (t g : BitVec 3) (s : State) : Out :=
  run s (alu (.ffma d a b t g) d [a, b, d] false (scalar3 fun x y z => fpOut t (((fpVal t x).mul (fpVal t y)).add (fpVal t z))))

/-- minimumNumber (R130, R42). -/
def execFmin (d a b : BitVec 5) (t g : BitVec 3) (s : State) : Out :=
  run s (alu (.fmin d a b t g) d [a, b] false (scalar2 fun x y => fpOut t (Num.pick false (fpVal t x) (fpVal t y))))

/-- maximumNumber (R130, R42). -/
def execFmax (d a b : BitVec 5) (t g : BitVec 3) (s : State) : Out :=
  run s (alu (.fmax d a b t g) d [a, b] false (scalar2 fun x y => fpOut t (Num.pick true (fpVal t x) (fpVal t y))))

/-- 1 if the condition holds, else 0 (R130, R68, R42). -/
def execFcmp (d a b : BitVec 5) (t c : BitVec 3) (s : State) : Out :=
  run s (alu (.fcmp d a b t c) d [a, b] false (scalar2 fun x y => boolWord (Num.cond c.toNat (fpVal t x) (fpVal t y))))

/-- One element converted between the formats of two codes (R131). -/
def execFcvt (d a : BitVec 5) (dst src : BitVec 4) (s : State) : Out :=
  run s (alu (.fcvt d a dst src) d [a] false (scalar1 fun x => bv 64 (convertElem src.toNat dst.toNat (x.toNat % 2 ^ codeWidth src.toNat))))

/-- Round(1 / x) (R130, R60). -/
def execFrcp (d a : BitVec 5) (t g : BitVec 3) (s : State) : Out :=
  run s (alu (.frcp d a t g) d [a] false (scalar1 fun x => bv 64 ((fpFmt t).recip (fpVal t x))))

/-- Round(√x) (R130, R60). -/
def execFsqrt (d a : BitVec 5) (t g : BitVec 3) (s : State) : Out :=
  run s (alu (.fsqrt d a t g) d [a] false (scalar1 fun x => bv 64 ((fpFmt t).sqrt (fpVal t x))))

/-- Round(2^x) (R130, R60). -/
def execFexp2 (d a : BitVec 5) (t g : BitVec 3) (s : State) : Out :=
  run s (alu (.fexp2 d a t g) d [a] false (scalar1 fun x => bv 64 ((fpFmt t).exp2 (fpVal t x))))

end Sys2Proof.Machine
end

