-- ==== Sys2Proof/Machine/Vector.lean ====
section
/-! DEFINITION. Vector instructions, which only twigs run (spec 05 R132 to R136). -/

namespace Sys2Proof.Machine

/-- The lane width of a lane type (R132). -/
def laneW (t : BitVec 3) : Nat := if t.toNat ≤ 4 then 32 else if t.toNat ≤ 6 then 16 else 8

/-- The lanes of a register (R132). -/
def laneN (t : BitVec 3) : Nat := 256 / laneW t

/-- Whether a lane type is a float (R133). -/
def laneFloat (t : BitVec 3) : Bool := 4 ≤ t.toNat && t.toNat ≤ 6

/-- A lane as two's complement. -/
def laneS (t : BitVec 3) (x : Nat) : Int := sgn (laneW t) x

/-- A lane as its type compares it: signed for s32 and int8, unsigned for w32 (R133). -/
def laneV (t : BitVec 3) (x : Nat) : Int := if t.toNat = 3 then x else laneS t x

/-- The lanes of a 256-bit value, lane 0 first (R38). -/
def lanes (t : BitVec 3) (x : Nat) : List Nat := unpack (laneW t) (laneN t) x

/-- Lanes as a 256-bit value (R38). -/
def unlanes (t : BitVec 3) (xs : List Nat) : Nat := pack (laneW t) xs

/-- An operation on exact values in a float lane type. -/
def laneF2 (t : BitVec 3) (f : Num → Num → Num) (x y : Nat) : Nat :=
  (fpFmt t).round (f ((fpFmt t).decode x) ((fpFmt t).decode y))

/-- One lane of VADD. -/
def laneAdd (t : BitVec 3) (x y : Nat) : Nat :=
  if laneFloat t then laneF2 t Num.add x y else (x + y) % 2 ^ laneW t

/-- One lane of VSUB. -/
def laneSub (t : BitVec 3) (x y : Nat) : Nat :=
  if laneFloat t then laneF2 t (fun p q => p.add q.neg) x y else (x + 2 ^ laneW t - y) % 2 ^ laneW t

/-- One lane of VMUL. -/
def laneMul (t : BitVec 3) (x y : Nat) : Nat :=
  if laneFloat t then laneF2 t Num.mul x y else (x * y) % 2 ^ laneW t

/-- One lane of VFMA. -/
def laneFma (t : BitVec 3) (x y z : Nat) : Nat :=
  if laneFloat t then
    (fpFmt t).round ((((fpFmt t).decode x).mul ((fpFmt t).decode y)).add ((fpFmt t).decode z))
  else (x * y + z) % 2 ^ laneW t

/-- One lane of VMIN or VMAX (R133). -/
def laneMinMax (larger : Bool) (t : BitVec 3) (x y : Nat) : Nat :=
  if laneFloat t then laneF2 t (Num.pick larger) x y
  else if laneV t x ≤ laneV t y then (if larger then y else x) else (if larger then x else y)

/-- One lane of VCMP (R133). -/
def laneCmp (t : BitVec 3) (c : Nat) (x y : Nat) : Nat :=
  let p := if laneFloat t then Num.cond c ((fpFmt t).decode x) ((fpFmt t).decode y)
    else condInt c (laneV t x) (laneV t y)
  if p then 2 ^ laneW t - 1 else 0

/-- An operation on lanes of two registers. -/
def laneMap2 (t : BitVec 3) (f : Nat → Nat → Nat) (x y : Nat) : Nat :=
  unlanes t (List.zipWith f (lanes t x) (lanes t y))

/-- An operation on lanes of three registers. -/
def laneMap3 (t : BitVec 3) (f : Nat → Nat → Nat → Nat) (x y z : Nat) : Nat :=
  unlanes t (List.zipWith (fun p r => f p r.1 r.2) (lanes t x) (List.zip (lanes t y) (lanes t z)))

/-- One level of the pairwise tree: neighbours joined (R58). -/
def pairUp {α : Type} (f : α → α → α) : List α → List α
  | x :: y :: r => f x y :: pairUp f r
  | xs => xs

/-- `n` levels of the pairwise tree (R58). -/
def treeReduce {α : Type} (f : α → α → α) : Nat → List α → List α
  | 0, xs => xs
  | n + 1, xs => treeReduce f n (pairUp f xs)

/-- An f32 sum of two f32 encodings, rounded to nearest even (R135). -/
def addF32 (x y : Nat) : Nat := fmtF32.round ((fmtF32.decode x).add (fmtF32.decode y))

/-- VRED's result (R135). -/
def reduce (t r : BitVec 3) (x : Nat) : Nat :=
  if r.toNat = 0 then
    if laneFloat t then
      ((treeReduce addF32 5 ((lanes t x).map fun l => fmtF32.round ((fpFmt t).decode l))).headD 0)
    else
      ((treeReduce (fun p q => (p + q) % 2 ^ 32) 5 ((lanes t x).map fun l => wrap 32 (laneS t l))).headD 0)
  else (treeReduce (laneMinMax (r.toNat == 2) t) 5 (lanes t x)).headD 0

/-- VCVT's result: n elements of the wider element's count (R134). -/
def vcvt (src dst : Nat) (x : Nat) : Nat :=
  let ws := codeWidth src
  let wd := codeWidth dst
  pack wd ((unpack ws (256 / max ws wd) x).map (convertElem src dst))

/-- VSHUF's result (R133). -/
def shuffle (t : BitVec 3) (x y : Nat) : Nat :=
  let xs := lanes t x
  unlanes t ((lanes t y).map fun j => xs.getD (j % laneN t) 0)

/-- VPACK's result (R136). -/
def vpackVal (t : BitVec 3) (x y : Nat) : Nat :=
  let w := laneW t
  let half : Nat → List Nat := fun v => (unpack (2 * w) (laneN t / 2) v).map fun e =>
    if laneFloat t then (fpFmt t).round (fmtF32.decode e) else e % 2 ^ w
  unlanes t (half x ++ half y)

/-- VUNPK's result (R136). -/
def vunpkVal (t : BitVec 3) (x : Nat) : Nat :=
  let w := laneW t
  pack (2 * w) ((unpack w (laneN t / 2) x).map fun e =>
    if laneFloat t then fmtF32.round ((fpFmt t).decode e) else wrap (2 * w) (laneV t e))

/-- One lane of VEXP2: f32 within one ulp, narrow lanes correctly rounded (R60, R133). -/
def laneExp2 (t : BitVec 3) (x : Nat) : Nat :=
  if t.toNat = 4 then vexp2F32 x else (fpFmt t).exp2 ((fpFmt t).decode x)

/-- One lane of VRCP: f32 within one ulp, narrow lanes correctly rounded (R60, R133). -/
def laneRcp (t : BitVec 3) (x : Nat) : Nat :=
  if t.toNat = 4 then vrcpF32 x else (fpFmt t).recip ((fpFmt t).decode x)

/-- a + b lane by lane (R133). -/
def execVadd (d a b : BitVec 5) (t g : BitVec 3) (s : State) : Out :=
  run s (alu (.vadd d a b t g) d [a, b] true (vector2 (laneMap2 t (laneAdd t))))

/-- a − b lane by lane (R133). -/
def execVsub (d a b : BitVec 5) (t g : BitVec 3) (s : State) : Out :=
  run s (alu (.vsub d a b t g) d [a, b] true (vector2 (laneMap2 t (laneSub t))))

/-- a × b lane by lane (R133). -/
def execVmul (d a b : BitVec 5) (t g : BitVec 3) (s : State) : Out :=
  run s (alu (.vmul d a b t g) d [a, b] true (vector2 (laneMap2 t (laneMul t))))

/-- a × b + d lane by lane, one rounding (R133, R72). -/
def execVfma (d a b : BitVec 5) (t g : BitVec 3) (s : State) : Out :=
  run s (alu (.vfma d a b t g) d [a, b, d] true (vector3 (laneMap3 t (laneFma t))))

/-- The smaller lane by lane (R133). -/
def execVmin (d a b : BitVec 5) (t g : BitVec 3) (s : State) : Out :=
  run s (alu (.vmin d a b t g) d [a, b] true (vector2 (laneMap2 t (laneMinMax false t))))

/-- The larger lane by lane (R133). -/
def execVmax (d a b : BitVec 5) (t g : BitVec 3) (s : State) : Out :=
  run s (alu (.vmax d a b t g) d [a, b] true (vector2 (laneMap2 t (laneMinMax true t))))

/-- All ones in each lane where the condition holds (R133, R68). -/
def execVcmp (d a b : BitVec 5) (t c : BitVec 3) (s : State) : Out :=
  run s (alu (.vcmp d a b t c) d [a, b] true (vector2 (laneMap2 t (laneCmp t c.toNat))))

/-- a where bit 0 of the lane of d is 1, else b (R133, R72). -/
def execVsel (d a b : BitVec 5) (t g : BitVec 3) (s : State) : Out :=
  run s (alu (.vsel d a b t g) d [a, b, d] true (vector3 (laneMap3 t fun x y z => if z % 2 = 1 then x else y)))

/-- Elements converted between the formats of two codes (R134). -/
def execVcvt (d a : BitVec 5) (dst src : BitVec 4) (s : State) : Out :=
  run s (alu (.vcvt d a dst src) d [a] true (vector1 (vcvt src.toNat dst.toNat)))

/-- A pairwise reduction of the lanes (R135). -/
def execVred (d a : BitVec 5) (t r : BitVec 3) (s : State) : Out :=
  run s (alu (.vred d a t r) d [a] true (vector1 (reduce t r)))

/-- Lanes of a by the indexes in b (R133). -/
def execVshuf (d a b : BitVec 5) (t g : BitVec 3) (s : State) : Out :=
  run s (alu (.vshuf d a b t g) d [a, b] true (vector2 (shuffle t)))

/-- The low lane of a scalar read of a in every lane (R133). -/
def execVbcast (d a : BitVec 5) (t g : BitVec 3) (s : State) : Out :=
  run s (alu (.vbcast d a t g) d [a] true (vector1 (fun x => unlanes t (List.replicate (laneN t) (x % 2 ^ laneW t)))))

/-- Lanes of a and b narrowed (R136). -/
def execVpack (d a b : BitVec 5) (t g : BitVec 3) (s : State) : Out :=
  run s (alu (.vpack d a b t g) d [a, b] true (vector2 (vpackVal t)))

/-- The low half of a widened (R136). -/
def execVunpk (d a : BitVec 5) (t g : BitVec 3) (s : State) : Out :=
  run s (alu (.vunpk d a t g) d [a] true (vector1 (vunpkVal t)))

/-- 2 to the power of each lane (R133, R60). -/
def execVexp2 (d a : BitVec 5) (t g : BitVec 3) (s : State) : Out :=
  run s (alu (.vexp2 d a t g) d [a] true (vector1 (fun x => unlanes t ((lanes t x).map (laneExp2 t)))))

/-- The reciprocal of each lane (R133, R60). -/
def execVrcp (d a : BitVec 5) (t g : BitVec 3) (s : State) : Out :=
  run s (alu (.vrcp d a t g) d [a] true (vector1 (fun x => unlanes t ((lanes t x).map (laneRcp t)))))

end Sys2Proof.Machine
end

