-- ==== Sys2Proof/Machine/Nodes.lean ====
section
/-! DEFINITION. Arithmetic, flow and tag nodes, and the converter node (spec 04 R98 to R106; 02 R45 to R52). -/

namespace Sys2Proof.Machine

/-! ## Arithmetic (R98 to R101) -/

/-- A node's literal as the operand its type gives (R98, R104); for bf16x4 its high half is not looked at (log entry 82). -/
def litOp (r : NRec) : Word :=
  let l := nLit r
  match (nType r).toNat with
  | 0 => l.signExtend 64
  | 2 => l.signExtend 64
  | 5 => bv 64 (pack 16 (List.replicate 4 (l.toNat % 65536)))
  | _ => l.setWidth 64

/-- An operation on f32, or lane by lane on bf16x4 (R98). -/
def nodeFp (t : BitVec 3) (f : Num → Num → Num → Num) (a b c : Word) : Word :=
  if t.toNat = 4 then
    bv 64 (fmtF32.round (f (fmtF32.decode (a.toNat % 2 ^ 32)) (fmtF32.decode (b.toNat % 2 ^ 32))
      (fmtF32.decode (c.toNat % 2 ^ 32))))
  else
    bv 64 (pack 16 ((List.range 4).map fun i =>
      fmtBf16.round (f (fmtBf16.decode (unpackAt 16 a.toNat i)) (fmtBf16.decode (unpackAt 16 b.toNat i))
        (fmtBf16.decode (unpackAt 16 c.toNat i)))))

/-- An operation by type: integers by one function, floats by another (R98, R99). -/
def nodeOp (int : BitVec 3 → Word → Word → Word) (fp : Num → Num → Num) (t : BitVec 3) (a b : Word) : Word :=
  if t.toNat < 4 then int t a b else nodeFp t (fun x y _ => fp x y) a b 0

/-- A two-operand node's firing: operands, the immediate and the swap (R98). -/
def arith (op : BitVec 3 → Word → Word → Word) (f : Fire) (x : Inst) (w : Work) : NRes :=
  let a := tokW (x.tok 0) 0
  let b := if osb0 x.r then litOp x.r else tokW (x.tok 1) 0
  if x.anyNull then .done (sendNull f x) w
  else .done (sendWord f x (if osb1 x.r then op (nType x.r) b a else op (nType x.r) a b)) w

/-- The smaller or larger of two integers of a type (R99). -/
def nodeMinMax (larger : Bool) (t : BitVec 3) (a b : Word) : Word :=
  if opV t a ≤ opV t b then extI t (if larger then opV t b else opV t a)
  else extI t (if larger then opV t a else opV t b)

/-- a + b. -/
def naddOp : BitVec 3 → Word → Word → Word := nodeOp (fun t a b => extW t (opU t a + opU t b)) Num.add
/-- a − b. -/
def nsubOp : BitVec 3 → Word → Word → Word := nodeOp (fun t a b => extI t (opV t a - opV t b)) fun x y => x.add y.neg
/-- a × b. -/
def nmulOp : BitVec 3 → Word → Word → Word := nodeOp (fun t a b => extW t (opU t a * opU t b)) Num.mul
/-- The smaller. -/
def nminOp : BitVec 3 → Word → Word → Word := nodeOp (nodeMinMax false) (Num.pick false)
/-- The larger. -/
def nmaxOp : BitVec 3 → Word → Word → Word := nodeOp (nodeMinMax true) (Num.pick true)
/-- Bitwise and. -/
def nbandOp (t : BitVec 3) (a b : Word) : Word := extW t (a &&& b).toNat
/-- Bitwise or. -/
def nborOp (t : BitVec 3) (a b : Word) : Word := extW t (a ||| b).toNat
/-- Bitwise exclusive or. -/
def nbxorOp (t : BitVec 3) (a b : Word) : Word := extW t (a ^^^ b).toNat
/-- Shift left. -/
def nshlOp (t : BitVec 3) (a b : Word) : Word := extW t (opU t a * 2 ^ shiftN t b)
/-- Shift right, arithmetic for signed types. -/
def nshrOp (t : BitVec 3) (a b : Word) : Word := extI t (opV t a / (2 ^ shiftN t b : Nat))

/-- NADD (R99). -/
def execNadd (s : State) : Out := run s (fireNode 0x01 (arith naddOp) s.fire)
/-- NSUB (R99). -/
def execNsub (s : State) : Out := run s (fireNode 0x02 (arith nsubOp) s.fire)
/-- NMUL (R99). -/
def execNmul (s : State) : Out := run s (fireNode 0x03 (arith nmulOp) s.fire)
/-- NMIN (R99). -/
def execNmin (s : State) : Out := run s (fireNode 0x04 (arith nminOp) s.fire)
/-- NMAX (R99). -/
def execNmax (s : State) : Out := run s (fireNode 0x05 (arith nmaxOp) s.fire)
/-- NBAND (R99). -/
def execNband (s : State) : Out := run s (fireNode 0x06 (arith nbandOp) s.fire)
/-- NBOR (R99). -/
def execNbor (s : State) : Out := run s (fireNode 0x07 (arith nborOp) s.fire)
/-- NBXOR (R99). -/
def execNbxor (s : State) : Out := run s (fireNode 0x08 (arith nbxorOp) s.fire)
/-- NSHL (R99). -/
def execNshl (s : State) : Out := run s (fireNode 0x09 (arith nshlOp) s.fire)
/-- NSHR (R99). -/
def execNshr (s : State) : Out := run s (fireNode 0x0A (arith nshrOp) s.fire)

/-- NCMP's result: 0 or 1, or a bit a lane (R100). -/
def ncmpOp (c : Nat) (t : BitVec 3) (a b : Word) : Word :=
  if t.toNat < 4 then boolWord (condInt c (opV t a) (opV t b))
  else if t.toNat = 4 then
    boolWord (Num.cond c (fmtF32.decode (a.toNat % 2 ^ 32)) (fmtF32.decode (b.toNat % 2 ^ 32)))
  else
    bv 64 (pack 1 ((List.range 4).map fun i =>
      if Num.cond c (fmtBf16.decode (unpackAt 16 a.toNat i)) (fmtBf16.decode (unpackAt 16 b.toNat i)) then 1 else 0))

/-- NCMP's immediate: LIT[31:3] (R100). -/
def ncmpImm (r : NRec) : Word :=
  let l : BitVec 29 := (nLit r).extractLsb' 3 29
  if (nType r).toNat % 2 = 0 then l.signExtend 64 else l.setWidth 64

/-- NCMP (R100). -/
def execNcmp (s : State) : Out :=
  run s (fireNode 0x0B (fun f x w =>
    let a := tokW (x.tok 0) 0
    let b := if osb0 x.r then ncmpImm x.r else tokW (x.tok 1) 0
    let op := ncmpOp (litF x.r 2 0) (nType x.r)
    if x.anyNull then .done (sendNull f x) w
    else .done (sendWord f x (if osb1 x.r then op b a else op a b)) w) s.fire)

/-- NSEL (R101). -/
def execNsel (s : State) : Out :=
  run s (fireNode 0x0C (fun f x w =>
    let sel := (tokW (x.tok 0) 0).getLsbD 0
    if x.anyNull then .done (sendNull f x) w
    else if sel && osb0 x.r then .done (sendWord f x (litOp x.r)) w
    else
      let t := x.tok (if sel then 1 else 2)
      passed f (both x.r fun d => { pass x.r t d with seq := (x.tok 0).seq }) w) s.fire)

/-- NFMA (R101). -/
def execNfma (s : State) : Out :=
  run s (fireNode 0x0D (fun f x w =>
    let c := if osb0 x.r then litOp x.r else tokW (x.tok 2) 0
    if x.anyNull then .done (sendNull f x) w
    else .done (sendWord f x
      (nodeFp (nType x.r) (fun p q r => (p.mul q).add r) (tokW (x.tok 0) 0) (tokW (x.tok 1) 0) c)) w) s.fire)

/-! ## Conversion (R48 to R52, R102) -/

/-- Whether a format code is a block format (R37). -/
def isBlock (code : Nat) : Bool := 8 ≤ code && code ≤ 12

/-- The value of an element of any input format under its block's scale entry (R45, R46). -/
def decodeScaled (code scale el : Nat) : Num :=
  if code = 8 ∨ code = 9 then dbDecode code (scale % 256) (scale / 256 % 256) el
  else if code = 10 then mxDecode fmtE4m3 (scale % 256) el
  else if code = 11 then mxDecode fmtE5m2 (scale % 256) el
  else if code = 12 then mxDecode fmtE2m1 (scale % 256) el
  else codeDecode code el

/-- A group of elements converted in order: the elements, the scale entry of a block, and L after them (R48 to R51). -/
def Conv.group (c : Conv) (l : BitVec 32) (scale : Nat) (els : List Nat) : List Nat × Nat × BitVec 32 :=
  let xs := els.map (decodeScaled c.src scale)
  if isBlock c.dst then
    let r := dbEncode c l xs
    (r.2.2.1, r.1 + r.2.1 * 256, r.2.2.2)
  else
    let r := c.elems l xs
    (r.1, 0, r.2)

/-- A converter node's group: 8 elements, or a block of 32 (R102). -/
def Conv.groupN (c : Conv) : Nat := if isBlock c.src || isBlock c.dst then 32 else 8

/-- A converter node's payload converted, and L after it (R102). -/
def Conv.payload (c : Conv) (l : BitVec 32) (ws : List Word) : List Word × BitVec 32 :=
  let n := leNat (bytesOf ((List.range 4).map fun k => ws.getD k 0))
  let r := c.group l ((ws.getD 4 0).toNat % 65536) (unpack (codeWidth c.src) c.groupN n)
  let bytes := (codeWidth c.dst * c.groupN + 7) / 8
  let body := leBytes ((bytes + 7) / 8 * 8) (pack (codeWidth c.dst) r.1)
  if isBlock c.dst then (wordsOf 4 (body ++ List.replicate 32 0) ++ [bv 64 r.2.1], r.2.2)
  else (wordsOf ((bytes + 7) / 8) body, r.2.2)

/-- NCVT (R102). -/
def execNcvt (s : State) : Out :=
  run s (fireNode 0x0E (fun f x w =>
    if x.anyNull then .done (sendNull f x) w
    else
      let c := Conv.ofWord (nLit x.r).toNat
      let k := w.cell f.cell
      let key := k.key f.node
      let r := c.payload (Tbl.getD k.convL key c.seedL) ((List.range 6).map (tokW (x.tok 0)))
      .done (both x.r fun d => mkTok d f.colour f.iter (x.tok 0).seq (nPrio x.r) r.1)
        (w.setCell f.cell { k with convL := Tbl.put k.convL key r.2 })) s.fire)

/-! ## Flow and tag nodes (R103 to R106) -/

/-- NSTEER (R103, R97). -/
def execNsteer (s : State) : Out :=
  run s (fireNode 0x10 (fun f x w =>
    let d := x.tok 0
    let c := x.tok 1
    let out : BitVec 24 := if (tokW c 0).getLsbD 0 then nDstA x.r else nDstB x.r
    if c.null then .done (both x.r (passNull x.r d)) w
    else passed f [pass x.r d out] w) s.fire)

/-- NMERGE: the token passed on keeps its own SEQ (R92, R103). -/
def execNmerge (s : State) : Out :=
  run s (fireNode 0x11 (fun f x w =>
    match x.toks with
    | e :: _ => passed f (both x.r (pass x.r e.2)) w
    | [] => .done [] w) s.fire)

/-- NCOPY (R103). -/
def execNcopy (s : State) : Out :=
  run s (fireNode 0x12 (fun f x w => passed f (both x.r (pass x.r (x.tok 0))) w) s.fire)

/-- A demand token (R92, R96). -/
def mkDemand (d : BitVec 24) (c : BitVec 12) (i : BitVec 16) (seq : BitVec 8) (prio : Nat) : Token :=
  { mkTok d c i seq prio [] with kind := 2 }

/-- NCONST: a constant, or demands in its demand form (R104, R97). -/
def execNconst (s : State) : Out :=
  run s (fireNode 0x13 (fun f x w =>
    let t := x.tok 0
    if osb0 x.r then
      if t.null then .done [] w
      else .done (both x.r fun d => mkDemand d f.colour f.iter t.seq (nPrio x.r)) w
    else if t.null then .done (sendNull f x) w
    else .done (sendWord f x (litOp x.r)) w) s.fire)

/-- NGATE: data to A, the gate's token to B; a null on either port nulls both (R103, R97). -/
def execNgate (s : State) : Out :=
  run s (fireNode 0x14 (fun f x w =>
    let gate : Token := { x.tok 1 with seq := (x.tok 0).seq }
    if x.anyNull then .done [passNull x.r (x.tok 0) (nDstA x.r), passNull x.r gate (nDstB x.r)] w
    else passed f [pass x.r (x.tok 0) (nDstA x.r), pass x.r gate (nDstB x.r)] w) s.fire)

/-- NSINK (R105). -/
def execNsink (s : State) : Out := run s (fireNode 0x15 (fun _ _ w => .done [] w) s.fire)

/-- NITER: ITER incremented or set; an increment past the top faults (R106). -/
def execNiter (s : State) : Out :=
  run s (fireNode 0x18 (fun f x w =>
    if nOsb x.r = 0 ∧ f.iter = 0xFFFF#16 then .fault 0x11 0 0
    else
      let i : BitVec 16 := if nOsb x.r = 0 then f.iter + 1 else (nLit x.r).setWidth 16
      passed f (both x.r fun d => { pass x.r (x.tok 0) d with iter := i }) w) s.fire)

/-- NTAGSET: ITER and SEQ from port 1 (R106, R97); with both ports null the incoming tag is sent (log entry 82). -/
def execNtagset (s : State) : Out :=
  run s (fireNode 0x19 (fun f x w =>
    let v := tokW (x.tok 1) 0
    let i : BitVec 16 := if osb0 x.r then v.setWidth 16 else f.iter
    let q : BitVec 8 := if osb1 x.r then v.extractLsb' 16 8 else (x.tok 0).seq
    if (x.tok 1).null then .done (both x.r (passNull x.r (x.tok 0))) w
    else passed f (both x.r fun d => { pass x.r (x.tok 0) d with iter := i, seq := q }) w) s.fire)

end Sys2Proof.Machine
end

