-- ==== Sys2Proof/Machine/Colours.lean ====
section
/-! DEFINITION. The colour pool: NCOLOUR's requests and grants, NRETURN, and the colour watchdog (spec 06 R162 to R167). -/

namespace Sys2Proof.Machine

/-- NCOLOUR: an instance that has its tokens, and a pending demand where DEM = 1, asks the pool, once, and waits holding its entries
(R23, R164; log entry 95). -/
def execNcolour (s : State) : Out :=
  run s fun w =>
    let f := w.fire
    let g := f.cell / 16
    let r := w.rno g
    if ((w.cell f.cell).inst f).isSome ∧ nOpc ((w.cell f.cell).node f.node) = 0x1A ∧ w.mayFire f = true ∧
        ((w.region r).waitC.any fun e => e.1 == f) = false then
      w.updRegion r fun x =>
        { x with waitC := x.waitC ++ [(f, w.mod.cycle)], cpoolSince := some (x.cpoolSince.getD w.mod.cycle) }
    else w

/-- A colour drawn from the head of the free list and recorded for its caller (R162, R164). -/
def Region.draw (x : Region) (c : Nat) (f : Fire) (ret : BitVec 24) (rest : List Nat) (now : Nat) : Region :=
  let left := x.waitC.filter fun e => e.1 != f
  { x with
    freeColours := rest
    colours := Tbl.put x.colours c ⟨x.stampNext, some (f.colour, f.iter, ret)⟩
    stampNext := x.stampNext + 1
    waitC := left
    cpoolSince := if left.isEmpty then none else some (x.cpoolSince.getD now) }

/-- NCOLOUR's outputs in a fresh colour: port 0 to A, port 1 to B, or port 0 to both (R164). -/
def colourOuts (x : Inst) (c : BitVec 12) : List Token :=
  let t := x.tok 0
  let u := if osb0 x.r then x.tok 1 else t
  [{ pass x.r t (nDstA x.r) with colour := c, iter := 0 }, { pass x.r u (nDstB x.r) with colour := c, iter := 0 }]

/-- Whether a request at the pool is still that of an instance: one whose node, tokens or context have changed asks anew. -/
def Work.asksPool (w : Work) (f : Fire) : Bool :=
  ((w.cell f.cell).inst f).isSome && nOpc ((w.cell f.cell).node f.node) == 0x1A

/-- The instance that the pool serves next: the request that reached it first among those that may fire. One whose colour is
frozen at its node holds back no other (R36, R164, R381). -/
def Work.grantee (w : Work) (r : Nat) : Option Fire :=
  ((w.region r).waitC.find? fun e => w.mayFire e.1 && w.asksPool e.1).map Prod.fst

/-- The requests that no instance makes any longer taken from the pool (R108, R110, R164). -/
def Work.dropAsks (w : Work) (r : Nat) : Work :=
  let x := w.region r
  if x.waitC.all fun e => w.asksPool e.1 then w
  else
    let left := x.waitC.filter fun e => w.asksPool e.1
    w.setRegion r { x with waitC := left, cpoolSince := if left.isEmpty then none else x.cpoolSince }

/-- COLOUR_GRANT: the pool serves the request that came first, and its node sends in the new colour (R164). -/
def execColourGrant (region : Nat) (s : State) : Out :=
  run s fun w =>
    let reg := w.region region
    match w.grantee region with
    | none => w
    | some f =>
      match (w.cell f.cell).inst f, reg.freeColours with
      | some x, c :: rest =>
        if (w.cell f.cell).room (reserved (Tbl.vals (w.cell f.cell).twigs) + dests [nDstA x.r, nDstB x.r]) = true then
          let w1 := w.updRegion region fun y => y.draw c f (bv 24 (litF x.r 23 0)) rest w.mod.cycle
          let outs := colourOuts x (bv 12 c)
          let w2 := (countOuts (f.cell / 16) outs w1).updCell f.cell fun k => (k.freeEntries x.ids).emit outs
          (releaseToks (f.cell / 16) (x.toks.map Prod.snd) w2).traced f.cell true (fireToken f x (w.logical f.cell))
        else w
      | _, _ => w

/-- A colour returned to the tail of the free list; the watchdog's count returns to zero (R165, R166). -/
def Region.giveBack (x : Region) (c now : Nat) : Region :=
  { x with
    freeColours := x.freeColours ++ [c]
    colours := Tbl.del x.colours c
    cpoolSince := if x.waitC.isEmpty then none else some now }

/-- NRETURN: the token goes to the recorded destination in the caller's tag, and the colour returns (R165). -/
def execNreturn (s : State) : Out :=
  run s (fireNode 0x1B (fun f x w =>
    let r := w.rno (f.cell / 16)
    match Tbl.find (w.region r).colours f.colour.toNat with
    | some ⟨_, some (c, i, d)⟩ =>
      passed f [{ pass x.r (x.tok 0) d with colour := c, iter := i }]
        (w.updRegion r fun y => y.giveBack f.colour.toNat w.mod.cycle)
    | _ => .fault 0x11 0 0) s.fire)

/-- COLOUR_WATCHDOG: after its period of unbroken waiting every waiting instance freezes its caller's colour at its node,
and the count restarts (R166). -/
def execColourWatchdog (region : Nat) (s : State) : Out :=
  run s fun w =>
    let reg := w.region region
    match reg.cpoolSince with
    | none => w
    | some t =>
      if reg.waitC.isEmpty = false ∧ 2 ^ reg.cwdog ≤ w.mod.cycle - t then
        let w1 := reg.waitC.foldl (fun v e =>
          let toks := match (v.cell e.1.cell).inst e.1 with
            | some x => x.toks
            | none => []
          v.freezeNode e.1.cell e.1.node e.1.colour e.1.iter 0x22 toks 0 0 1) w
        w1.updRegion region fun x => { x with waitC := [], cpoolSince := none }
      else w

end Sys2Proof.Machine
end

