-- ==== Sys2Proof/Machine/Joins.lean ====
section
/-! DEFINITION. Nodes gated by credits, joins of branches, the node that pushes tasks, and the two ends of a bound lane
group (spec 10 R245, R246; 15 R336; 16 R357, R358). -/

namespace Sys2Proof.Machine

/-- NFORK: a credit on port 1, or a port 0 token passed on for a credit (R245). -/
def execNfork (s : State) : Out :=
  run s (fireNode 0x27 (fun f x w =>
    let c := (w.cell f.cell).credits f.node
    let put : Nat → Work := fun n => w.updCell f.cell fun k => { k with forks := Tbl.put k.forks (k.key f.node) n }
    if x.toks.any fun e => e.1 == 1 then
      if 65535 ≤ c then .fault 0x11 0 0 else .done [] (put (c + 1))
    else passed f (both x.r (pass x.r (x.tok 0))) (put (c - 1))) s.fire)

/-- A permit token (R246). -/
def mkPermit (d : BitVec 24) (c : BitVec 12) (i : BitVec 16) (prio : Nat) : Token :=
  { mkTok d c i 0 prio [] with kind := 9 }

/-- NPJOIN: a branch counted, and a permit once every live branch has one (R246); a permit ends the stretch in which a branch
is stuck (R247). -/
def execNpjoin (s : State) : Out :=
  run s (fireNode 0x28 (fun f x w =>
    match x.toks with
    | [] => .done [] w
    | (p, _) :: _ =>
      let j := (w.cell f.cell).join f.node
      let a := j.arrive p
      if j.detached.contains p = false ∧ 65535 ≤ j.counts.getD p 0 then .fault 0x11 0 0
      else
        .done (if a.2 then both x.r fun d => mkPermit d f.colour f.iter (nPrio x.r) else [])
          (w.updCell f.cell fun k => { k with joins := Tbl.put k.joins (k.key f.node) { a.1 with stuck := if a.2 then none else j.stuck } })) s.fire)

/-- The record that NTASK builds: SF from its literal, the WID, the firing's tag, bytes 16 to 63 from port 0 (R336). -/
def taskRec (f : Fire) (x : Inst) : TRec :=
  let wid : Word := if osb0 x.r then tokW (x.tok 1) 0 else 0
  let body := leNat (bytesOf ((List.range 6).map (tokW (x.tok 0))))
  mkRec (litF x.r 4 0) wid (tagField f.colour f.iter) body

/-- NTASK: a record pushed into the running launch; its WID goes to A and B (R336). -/
def execNtask (s : State) : Out :=
  run s (fireNode 0x1C (fun f x w =>
    let r := w.rno (f.cell / 16)
    let t := taskRec f x
    if x.anyNull then .done (sendNull f x) w
    else
      match (w.region r).running with
      | none => .fault 0x11 0 0
      | some u => if u.launch.recOk t then .done (sendWord f x (trWid t)) (w.pushRec r t) else .fault 0x11 0 0) s.fire)

/-- The words a token carries. -/
def tokWords (t : Token) : List Word := (List.range t.words).map (tokW t)

/-- NLTX: payload words leave on the bound group; a null token is consumed (R357). -/
def execNltx (s : State) : Out :=
  run s (fireNode 0x29 (fun f x w =>
    let r := w.rno (f.cell / 16)
    let i := litF x.r 6 0
    let t := x.tok 0
    if t.null then .done [] w
    else
      match (w.region r).plan i with
      | none => .done [] w
      | some p =>
        let w1 := w.updRegion r fun y => { y with plans := setAt y.plans i { p with credit := p.credit - t.words } }
        .done [] (w1.sendOut (.words p.entry.port p.entry.group (tokWords t)))) s.fire)

/-- The token that NLRX makes of the next words (R358). -/
def rxToken (r : NRec) (k : Nat) (ws : List Word) (d : BitVec 24) : Token :=
  { mkTok d (bv 12 (litF r 19 8)) (bv 16 k) 0 (nPrio r) ws with kind := if ws.length = 6 then 1 else 0 }

/-- NLRX: token k of the next TOKW words received, where the output queue has room; the words' room goes back to the
sender as credit (R358). A lost link has frozen colour 0 at the node, and with it the node (R359). -/
def execNlrx (cell node : Nat) (s : State) : Out :=
  run s fun w =>
    let c := w.cell cell
    let n := c.node node
    let r := w.rno (cell / 16)
    let tokw := litF n 22 20
    if nOpc n = 0x2A ∧ w.mayFire ⟨cell, node, bv 12 (litF n 19 8), 0, 0⟩ = true ∧ w.mayFire ⟨cell, node, 0, 0, 0⟩ = true then
      match (w.region r).plan (litF n 6 0) with
      | none => w
      | some p =>
        if tokw ≤ p.rxWords.length ∧ 0 < tokw ∧
            c.room (reserved (Tbl.vals c.twigs) + dests [nDstA n, nDstB n]) = true then
          let outs := both n (rxToken n p.k (p.rxWords.take tokw))
          let w1 := (w.setCell cell (c.emit outs)).updRegion r fun y =>
            { y with plans := setAt y.plans (litF n 6 0) { p with rxWords := p.rxWords.drop tokw, k := p.k + 1 } }
          w1.sendOut (.credit p.entry.port p.entry.group tokw)
        else w
    else w

end Sys2Proof.Machine
end

