-- ==== Sys2Proof/Machine/Twigs.lean ====
section
/-! DEFINITION. Twigs: launch, commit and abandonment (spec 01 R25; 04 R107; 05 R112, R113, R118 to R121; 22 R409). -/

namespace Sys2Proof.Machine

/-- The instruction words of a loaded block (R73). -/
def blockCode (code : Tbl Code) (a : Nat) : List Code :=
  (List.range ((blockHeader code a).toNat / 2 ^ 27 % 32 + 1)).map fun i => Tbl.getD code (a + 2 + i) 0

/-- Eight temporaries with free values, not null (R113; log entry 3). -/
def freshTemps (w : Work) : List TVal × Work :=
  let r := freshWords 32 w
  ((List.range 8).map fun i => ⟨wordsVal ((r.1.drop (4 * i)).take 4), false⟩, r.2)

/-- A twig as launched by an instance of NTWIG: its inputs by port, its block's generation latched (R25, R107). -/
def twigOf (f : Fire) (x : Inst) (code : Tbl Code) (temps : List TVal) (order : Nat) : Twig :=
  let a := litF x.r 10 0
  { node := f.node, record := x.r, colour := f.colour, iter := f.iter, seq := (x.tok 0).seq,
    ins := (nPorts x.r).map x.tok, entry := f.entry, header := blockHeader code a, code := blockCode code a, next := 0,
    temps := temps, outA := none, outB := none, order := order, stall := none, lsid := 0, packet := 0, busy := [] }

/-- The lowest free twig context of four (R112). -/
def freeCtx {α : Type} (t : Tbl α) : Nat := freeKeyFrom 0 t

/-- The words of the block an instance would launch contain a breakpoint's address (R409). -/
def Work.twigBreak (w : Work) (f : Fire) (x : Inst) : Option Nat :=
  let a := litF x.r 10 0
  let n := (blockCode (w.cell f.cell).code a).length + 2
  (w.regOf (f.cell / 16)).ibpHit 0 (w.logical f.cell) fun p => decide (a ≤ p) && decide (p < a + n)

/-- An agent of a cell begins its life: its program time starts at 0 and follows what its tokens carry (R192; log entry 13). -/
def Work.newAgent (w : Work) (who : Who) : Work := (w.endAgent who).startAgent who

/-- An instance of NTWIG launched: its entries freed, its tokens kept with the twig. -/
def Work.launchTwig (w : Work) (f : Fire) (x : Inst) : Work :=
  let p := freshTemps w
  let k := freeCtx (w.cell f.cell).twigs
  let w1 := (p.2.updCell f.cell fun c =>
    { c.freeEntries x.ids with
      twigs := Tbl.put c.twigs k (twigOf f x c.code p.1 c.twigOrder)
      twigOrder := c.twigOrder + 1 }).newAgent (.agent f.cell 0 k)
  w1.traced f.cell true (fireToken f x (w.logical f.cell))

/-- NTWIG: a twig launched in a free context; a breakpoint in its block stops the region instead, and a literal that
addresses no loaded block faults (R107, R409). -/
def execNtwig (s : State) : Out :=
  run s fun w =>
    let f := w.fire
    match (w.cell f.cell).inst f with
    | none => w
    | some x =>
      if nOpc x.r = 0x1D ∧ w.chosen f = true then
        if (w.cell f.cell).blocks.contains (litF x.r 10 0) then
          match w.twigBreak f x with
          | some i => w.stopInstance f i
          | none => w.launchTwig f x
        else w.freezeNode f.cell f.node f.colour f.iter 0x11 x.toks 0 0 1
      else w

/-- An output of a twig at commit: a value, or a null token of one word (R107, R115). -/
def twigOut (t : Twig) (d : BitVec 24) : Option TOut → Token
  | some ⟨false, ws⟩ => mkTok d t.colour t.iter t.seq (nPrio t.record) ws
  | _ => mkNull d t.colour t.iter t.seq (nPrio t.record)

/-- The tokens a twig sends at commit: O0 to A, then O1 to B, where its header declares them (R107, R120). -/
def Twig.outs (t : Twig) : List Token :=
  (if t.header.getLsbD 25 then [twigOut t (nDstA t.record) t.outA] else []) ++
    (if t.header.getLsbD 26 then [twigOut t (nDstB t.record) t.outB] else [])

/-- Whether every instruction of a twig's block has been issued (R120). -/
def Twig.isDone (t : Twig) : Bool := t.code.length ≤ t.next

/-! ## Results that are not ready (R112, R124) -/

/-- The instruction that a twig issues next. -/
def Twig.nextInstr (t : Twig) : Option Instr :=
  match (t.code[t.next]?).map decode with
  | some (.ok i) => some i
  | _ => none

/-- Whether a twig's next instruction waits for the result of an earlier one: a source or its guard is not ready (R112). -/
def Twig.awaits (t : Twig) (now : Nat) : Bool :=
  match t.nextInstr with
  | some i =>
    let rs := i.twigReads.map BitVec.toNat ++ if i.guard = 0 then [] else [i.guard.toNat]
    t.busy.any fun e => decide (now < e.2) && rs.contains e.1
  | none => false

/-- A twig issues its next instruction: the register it writes is ready after the cycles of its class (R124). -/
def Twig.issues (t : Twig) (now : Nat) : Twig :=
  match t.nextInstr.bind fun i => i.twigDest.map fun d => (d.toNat, now + i.latency) with
  | some e => { t with busy := e :: t.busy.filter fun b => b.1 != e.1 && decide (now < b.2) }
  | none => t

/-- A matrix handler commits: its O0 leaves, and its packet is accepted (R255). -/
def Work.commitHandler (w : Work) (g : Nat) (t : Twig) : Work :=
  let w1 := t.outs.foldl (fun v o => v.sendTok (v.rno g) g (mxStream g t.order) (v.ptime (.mx g)) o) w
  let m := w1.mx g
  match m.handled.find? fun p => p.order == t.packet with
  | none => w1
  | some p =>
    (w1.setMx g { m with handled := m.handled.erase p, freed := m.freed.erase p.order }).acceptPacket g p.ctx p.opNum

/-- TWIG_COMMIT: outputs placed, the context freed, the counts of consumed changes released (R120, R255, R274). -/
def execTwigCommit (who : Agent) (s : State) : Out :=
  run s fun w =>
    match w.twigAt who with
    | none => w
    | some t =>
      if t.isDone then
        let w1 := w.dropTwig who
        if agentIsMx who then w1.commitHandler (agentGrove who) t
        else
          let c := agentCell who
          releaseToks (c / 16) t.ins (((w1.agentSends (agentWho who)).endAgent (agentWho who)).updCell c fun k => k.emit t.outs)
      else w

/-- A twig abandoned: its context frees, its colour freezes at its node, and its inputs stay with it (R121); a matrix
handler freezes its handler entry with its packet, and the record names the packet by its header word (R255, R382; log
entry 84). -/
def Work.abandon (w : Work) (a : Agent) (t : Twig) (code addr lsid : Nat) : Work :=
  let w1 := w.dropTwig a
  match a with
  | .mx g _ =>
    let tag := t.node
    (w1.freezeObj (w1.rno g)
      { fseq := 0, okind := 7, code := code, stuck := false, grove := g, cell := 0, node := tag, colour := 0, iter := 0,
        toks := t.ins.map fun x => (0, x), task := none, what := tag, aux := t.packet }
      { w1.blank g code with
        addr := bv 64 addr, aux := tokW (t.ins.getD 0 (mkNull noDst 0 0 0 0)) 0 }).updMx g fun m =>
        { m with frozenEntries := m.frozenEntries ++ [tag] }
  | _ =>
    w1.freezeNode (agentCell a) t.node t.colour t.iter code (List.zip (nPorts t.record) t.ins) (bv 64 addr)
      (bv 64 lsid) 4

end Sys2Proof.Machine
end

