-- ==== Sys2Proof/Machine/Records.lean ====
section
/-! DEFINITION. Which node records, twig blocks and shape records a load accepts, and what loading them sets (spec 03 R62
to R64, R74, R80; 04 R98 to R110; 05 R117; 07 R184, R185, R187; 08 R201 to R205; 11 R254; and each operation's rule). -/

namespace Sys2Proof.Machine

/-! ## Shape records (R184) -/

/-- A field of a shape record. -/
def sh (x : BitVec 512) (hi lo : Nat) : Nat := bits x.toNat hi lo
/-- BASE. -/
def shBase (x : BitVec 512) : Nat := sh x 63 0
/-- The element size in bytes. -/
def shSize (x : BitVec 512) : Nat :=
  let e := sh x 71 64
  if e = 6 then 48 else 2 ^ e
/-- NDIM. -/
def shNdim (x : BitVec 512) : Nat := sh x 79 72
/-- ROUNDS. -/
def shRounds (x : BitVec 512) : Nat := sh x 127 96
/-- RSTRIDE, signed. -/
def shRstride (x : BitVec 512) : Int := sgn 40 (sh x 167 128)
/-- The extent of dimension `d`. -/
def shExtent (x : BitVec 512) (d : Nat) : Nat := sh x (192 + 64 * d + 23) (192 + 64 * d)
/-- The stride of dimension `d`, signed. -/
def shStride (x : BitVec 512) (d : Nat) : Int := sgn 40 (sh x (192 + 64 * d + 63) (192 + 64 * d + 24))

/-- Whether a shape record is accepted (R184): sizes and dimensions defined, reserved bytes and unused dimensions zero, and at least
one round (log entry 103). -/
def shapeOk (x : BitVec 512) : Bool :=
  decide (sh x 71 64 ≤ 6) && decide (1 ≤ shNdim x) && decide (shNdim x ≤ 4) && sh x 95 80 == 0 &&
    decide (1 ≤ shRounds x) && sh x 191 168 == 0 &&
    (List.range 4).all fun d => d < shNdim x || sh x (192 + 64 * d + 63) (192 + 64 * d) == 0

/-- A shape record of a cell; one never loaded is zero. -/
def Cell.shape (c : Cell) (i : Nat) : BitVec 512 := Tbl.getD c.shapes i 0

/-! ## Node records -/

/-- Whether a destination is not the reserved one (R63). -/
def dstOk (d : BitVec 24) : Bool := !(dPort d == 3 && dNode d == 0x3FF && dCell d != 0)

/-- Whether a record names neither destination. -/
def noDsts (r : NRec) : Bool := nDstA r == noDst && nDstB r == noDst

/-- The literal's rule for an ordered-memory triple (R187). -/
def tripleOk (r : NRec) : Bool :=
  let q := litF r 11 0
  let d := litF r 31 24
  if osb0 r then nLit r == 0
  else q != 0 && q != 0xFFF && (d == 0 || d == 255 || decide (q + d ≤ 0xFFE))

/-- The latched range of an owner record: BASE to BASE + extent0 × esize (R201). -/
def ownerRange (c : Cell) (r : NRec) : Nat × Nat :=
  let s := c.shape (litF r 4 0)
  (shBase s, shBase s + shExtent s 0 * shSize s)

/-- Whether an owner record's shape suits it, by type and route (R201). -/
def ownerShapeOk (c : Cell) (r : NRec) : Bool :=
  let s := c.shape (litF r 4 0)
  let t := (nType r).toNat
  shNdim s == 1 && shSize s == (if t < 2 then 8 else 4) &&
    (if osb0 r then decide (shExtent s 0 * shSize s ≤ 0x1000000) else decide ((ownerRange c r).2 ≤ 0x10000))

/-- The rule of each operation for its record's own fields (log entry 82: a record with no operation may hold anything else;
NITER and NTAGSET take every TYPE; NTAGSET's literal is zero; a destination is not looked at beyond its layout, R82), apart from what other objects it names (R80, R98 to R107,
R164, R165, R185, R187, R201 to R205, R245, R246, R282 to R285, R308 to R313, R336, R356 to R358). -/
def fieldsRuleOk (modNo : Nat) (r : NRec) : Bool :=
  let o := nOpc r
  let t := (nType r).toNat
  let q := nOsb r
  let l := nLit r
  let plain := nDem r == false && q == 0
  if o = 0 then true
  else if o ≤ 0x05 then decide (t ≤ 5) && (osb0 r || l == 0)
  else if o ≤ 0x0A then decide (t ≤ 3) && (osb0 r || l == 0)
  else if o = 0x0B then
    decide (t ≤ 5) && (osb0 r || litF r 31 3 == 0) && !(osb0 r && decide (4 ≤ t)) && (decide (4 ≤ t) || decide (litF r 2 0 ≤ 5))
  else if o = 0x0C then t != 6 && !osb1 r && (osb0 r || l == 0)
  else if o = 0x0D then (t == 4 || t == 5) && !osb1 r && (osb0 r || l == 0)
  else if o = 0x0E then
    let c := Conv.ofWord l.toNat
    let small : Nat → Bool := fun k => (3 ≤ k && k ≤ 6) || isBlock k
    t == 7 && q == 0 && c.ok && (!(isBlock c.src || isBlock c.dst) || (small c.src && small c.dst))
  else if o = 0x10 ∨ o = 0x11 ∨ o = 0x12 ∨ o = 0x14 then q == 0 && l == 0
  else if o = 0x13 then t != 6 && !osb1 r && (!osb0 r || l == 0)
  else if o = 0x15 then plain && l == 0 && noDsts r
  else if o = 0x18 then (q == 0 && l == 0) || (q == 1 && litF r 31 16 == 0)
  else if o = 0x19 then q != 0 && l == 0
  else if o = 0x1A then t == 7 && !osb1 r && litF r 31 24 == 0 && dstOk (bv 24 (litF r 23 0))
  else if o = 0x1B then t == 7 && plain && l == 0 && noDsts r
  else if o = 0x1C then t == 7 && nDem r == false && !osb1 r && litF r 31 5 == 0 && litF r 4 3 != 3
  else if o = 0x1D then t == 7 && litF r 31 11 == 0 && l.toNat % 2 == 0
  else if o = 0x20 then
    t == 7 && nDem r == false && !osb1 r && litF r 7 7 == 0 && litF r 31 21 == 0 &&
      (litF r 9 8 == 3 || litF r 20 10 == 0) && !(osb0 r && litF r 9 8 == 2)
  else if o = 0x21 ∨ o = 0x22 then tripleOk r
  else if o = 0x23 then decide (t ≤ 4) && !osb1 r && nDem r == false && litF r 31 5 == 0 && noDsts r
  else if o = 0x24 then q == 0 && l == 0
  else if o = 0x25 then !osb1 r && tripleOk r && nDstB r != noDst
  else if o = 0x26 then
    t == 7 && nDem r == false && !osb1 r &&
      (if osb0 r then l == 0 && noDsts r else litF r 31 19 == 0 && nDstA r != noDst && litF r 10 0 != modNo)
  else if o = 0x27 then plain && litF r 31 8 == 0
  else if o = 0x28 then t == 7 && nDem r == false && l == 0
  else if o = 0x29 then t == 7 && plain && litF r 31 7 == 0 && noDsts r
  else if o = 0x2A then
    t == 7 && plain && litF r 7 7 == 0 && litF r 31 23 == 0 && decide (1 ≤ litF r 22 20) && decide (litF r 22 20 ≤ 6)
  else if o = 0x30 then t == 6 && plain && litF r 31 14 == 0 && litF r 13 12 != 3
  else if o = 0x31 then t == 6 && plain && litF r 31 8 == 0 && noDsts r
  else if o = 0x32 ∨ o = 0x35 then t == 6 && plain && litF r 31 8 == 0
  else if o = 0x33 then t == 6 && plain && litF r 31 16 == 0
  else if o = 0x34 then t == 6 && plain && litF r 31 19 == 0 && decide (litF r 18 16 ≤ 4)
  else if o = 0x36 then t == 6 && q == 0 && l == 0
  else if o = 0x37 ∨ o = 0x39 then t == 6 && q == 0 && litF r 31 8 == 0
  else if o = 0x38 then t == 6 && q == 0 && litF r 31 4 == 0
  else if o = 0x3A then t == 7 && nDem r == false && !osb1 r && litF r 31 5 == 0
  else false

/-- An arrangement's key code, value width and key bytes (R291). -/
def Arr.keyw (a : Arr) : Nat := bits a.desc.toNat 1 0
def Arr.vw (a : Arr) : Nat := bits a.desc.toNat 39 32
def Arr.kw (a : Arr) : Nat := 4 * 2 ^ a.keyw

/-- Whether scope `t` is a loop scope entered from `s` (R269, R284). -/
def Region.loopOf (x : Region) (s t : Nat) : Bool :=
  (x.shape t).getLsbD 24 && shDepth (x.shape t) != 0 && fld (x.shape t) 30 27 == s

/-- The rule of each operation for the objects of its region that its record names (R201, R269, R282, R284, R285, R291,
R310, R312, R357, R358). `ring` says that a handle of the node's grove is a ring. -/
def namesRuleOk (x : Region) (ring : Nat → Bool) (r : NRec) : Bool :=
  let o := nOpc r
  let declared : Nat → Bool := fun s => (x.shape s).getLsbD 24
  if o = 0x29 ∨ o = 0x2A then
    match x.plan (litF r 6 0) with
    | some p => p.entry.role == (if o = 0x29 then 0 else 1)
    | none => false
  else if o = 0x30 then ring (litF r 7 0) && declared (litF r 11 8)
  else if o = 0x32 ∨ o = 0x35 then (x.arr (litF r 7 0)).isSome
  else if o = 0x33 then
    match x.arr (litF r 7 0), x.arr (litF r 15 8) with
    | some a, some b => a.keyw == b.keyw && a.scope == b.scope && decide (a.kw + a.vw + b.vw ≤ 32)
    | _, _ => false
  else if o = 0x34 then
    match x.arr (litF r 7 0), x.arr (litF r 15 8) with
    | some a, some b =>
      let f := litF r 18 16
      a.keyw == b.keyw && a.scope == b.scope &&
        (if f = 4 then a.vw == b.vw else decide (8 ≤ b.vw) && (f == 0 || decide (8 ≤ a.vw)))
    | _, _ => false
  else if o = 0x37 then x.loopOf (litF r 3 0) (litF r 7 4)
  else if o = 0x38 then declared (litF r 3 0) && shDepth (x.shape (litF r 3 0)) != 0
  else if o = 0x39 then x.loopOf (litF r 7 4) (litF r 3 0)
  else if o = 0x3A then (x.bound (litF r 4 0)).isSome
  else true

/-- The rule for a record among the others of its cell: one NAG a generator and at most eight owners in its context, owner
ranges apart in the whole cell (R185, R201). -/
def amongOk (c : Cell) (ctx node : Nat) (r : NRec) : Bool :=
  let others := c.nodes.filter fun e => e.1 / 1024 == ctx && e.1 % 1024 != node
  if nOpc r = 0x20 then others.all fun e => !(nOpc e.2 == 0x20 && litF e.2 6 5 == litF r 6 5)
  else if nOpc r = 0x23 then
    let x := ownerRange c r
    let owns := c.nodes.filter fun e => e.1 != 1024 * ctx + node && nOpc e.2 == 0x23
    ownerShapeOk c r && decide ((others.filter fun e => nOpc e.2 == 0x23).length < 8) &&
      owns.all fun e =>
        let y := Tbl.getD c.owners e.1 (ownerRange c e.2)
        osb0 e.2 != osb0 r || decide (x.2 ≤ y.1) || decide (y.2 ≤ x.1)
  else true

/-- The records a context holds, one more included where it is new (R15, R20, R89). -/
def usedWith (c : Cell) (ctx node : Nat) (r : NRec) : Nat :=
  (c.nodes.filter fun e => e.1 / 1024 == ctx && e.1 % 1024 != node && nOpc e.2 != 0).length + (if nOpc r = 0 then 0 else 1)

/-- Whether a record may be loaded at a node of a context. -/
def recordOk (modNo : Nat) (x : Region) (ring : Nat → Bool) (c : Cell) (ctx node : Nat) (r : NRec) : Bool :=
  fieldsRuleOk modNo r && dstOk (nDstA r) && dstOk (nDstB r) && namesRuleOk x ring r && amongOk c ctx node r &&
    decide (usedWith c ctx node r ≤ c.nsuse.getD ctx 0)

/-- Whether a handle of a grove is a ring (R236). -/
def Work.isRing (w : Work) (g h : Nat) : Bool := ((w.grove g).handle h).kind == 2

/-- A configuration interval begins: the class counts become those of the previous one (R420). -/
def Cell.newInterval (c : Cell) : Cell :=
  { c with classPrev := c.classNow, classNow := List.replicate 9 0, intv := c.intv + 1 }

/-- A record put in its place, with what loading it sets: L, credits, branch counts, the latched owner range, the update count
that a probe watches from (R50, R108, R201, R245 to R247, R285); what an old record of the node kept is gone, a source or sink
as soon as its cell sees to it. -/
def Cell.loadNode (c : Cell) (ctx node : Nat) (r : NRec) : Cell :=
  let k := 1024 * ctx + node
  let c1 := { c with nodes := if nOpc r = 0 then Tbl.del c.nodes k else Tbl.put c.nodes k r }
  { c1 with
    convL := if nOpc r = 0x0E then Tbl.put c.convL k (Conv.ofWord (nLit r).toNat).seedL else Tbl.del c.convL k
    forks := Tbl.del c.forks k
    joins := Tbl.del c.joins k
    owners := if nOpc r = 0x23 then Tbl.put c.owners k (ownerRange c r) else Tbl.del c.owners k
    dsrcs := c.dsrcs.map fun e => if e.1 = k then (k, { e.2 with stale := true }) else e
    douts := c.douts.map fun e => if e.1 = k then (k, { e.2 with stale := true }) else e
    probes := Tbl.del c.probes k }

/-! ## Twig blocks (R74, R117, R254) -/

/-- Words decoded, if each is a defined encoding. -/
def decodeAll : List Code → Option (List Instr)
  | [] => some []
  | x :: t =>
    match decode x, decodeAll t with
    | .ok i, some is => some (i :: is)
    | _, _ => none

/-- Whether memory instructions carry rising LSIDs, stores exactly those of SMASK (R74, R117). -/
def lsidsOk (smask : Nat) : Nat → List (Nat × Bool) → Bool
  | lo, [] => smask / 2 ^ lo == 0
  | lo, (n, st) :: t =>
    decide (lo ≤ n) && bits smask (n - 1) lo * (if n ≤ lo then 0 else 1) == 0 &&
      (smask / 2 ^ n % 2 == (if st then 1 else 0)) && lsidsOk smask (n + 1) t

/-- Whether a twig block is accepted: header and instruction words as given (R74, R117, R254). -/
def blockOk (mx : Bool) (hdr : BitVec 64) (code : List Code) : Bool :=
  match decodeAll code with
  | none => false
  | some is =>
    let outs := is.filterMap Instr.twigDest
    let writes : Nat → Nat := fun n => (outs.filter fun d => d.toNat == n).length
    let exits := (is.filter fun i => i == Instr.exit).length
    decide (code.length = hdr.toNat / 2 ^ 27 % 32 + 1) && hdr.toNat % 2 ^ 24 == 0 &&
      (if hdr.getLsbD 24 then exits == 1 && is.getLast? == some Instr.exit else exits == 0) &&
      lsidsOk (fld hdr 63 32) 0 (is.filterMap Instr.lsid) &&
      writes 12 == (if hdr.getLsbD 25 then 1 else 0) && writes 13 == (if hdr.getLsbD 26 then 1 else 0) &&
      (is.all fun i => i.twigOk mx) &&
      (!mx || (!hdr.getLsbD 26 && (is.filterMap Instr.lsid).isEmpty &&
        (is.filter fun i => match i with
          | .mma .. => true
          | _ => false).length == 1))

/-- Words written into a twig store from an address on. -/
def codePut : Nat → List Code → Tbl Code → Tbl Code
  | _, [], t => t
  | a, x :: xs, t => codePut (a + 1) xs (Tbl.put t a x)

/-- The blocks that stand after words are written: those overwritten are gone, the new one is there (R74, R109). -/
def blocksPut (blocks : List Nat) (code : Tbl Code) (a n : Nat) : List Nat :=
  (blocks.filter fun b =>
    let m := (blockHeader code b).toNat / 2 ^ 27 % 32 + 3
    decide (b + m ≤ a) || decide (a + n ≤ b)) ++ [a]

/-- The twig words of a block: header first (R73). -/
def blockWords (hdr : BitVec 64) (code : List Code) : List Code :=
  hdr.setWidth 32 :: hdr.extractLsb' 32 32 :: code

/-- A twig block written into a cell's twig store. -/
def Cell.loadBlock (c : Cell) (a : Nat) (ws : List Code) : Cell :=
  { c with blocks := blocksPut c.blocks c.code a ws.length, code := codePut a ws c.code }

/-- A twig block written into a matrix element's twig store. -/
def Mx.loadBlock (m : Mx) (a : Nat) (ws : List Code) : Mx :=
  { m with blocks := blocksPut m.blocks m.code a ws.length, code := codePut a ws m.code }

end Sys2Proof.Machine
end

