-- ==== Sys2Proof/Machine/Arrivals.lean ====
section
/-! DEFINITION. Tokens reaching a cell, refills from the overflow queue, and changes of a live node, a twig block and an
active context (spec 04 R84 to R90, R93, R108 to R110; 22 R408). -/

namespace Sys2Proof.Machine

/-! ## Arrival and refill (R88, R408) -/

/-- Whether tokens that stand at a cell's input may go in: its region has not stopped and is not on its way there (R408, R410). -/
def Work.inputGoes (w : Work) (mc : Nat) : Bool :=
  let r := w.regOf (mc / 16)
  !r.halted && !r.stopped && r.stopping.isNone

/-- Whether a cell takes no token: a breakpoint's token stands at its input, or its region is halted (R396, R408, R415). -/
def Work.inputHeld (w : Work) (mc : Nat) : Bool :=
  !(w.cell mc).held.isEmpty || (w.regOf (mc / 16)).halted ||
    (match (w.regOf (mc / 16)).stopHeld with
      | some (c, _) => c == mc
      | none => false)

/-- Whether a token that is offered enters the matching store: none that freezes its colour there does (R76, R93, R186). -/
def Cell.stores (c : Cell) (t : Token) : Bool :=
  let r := c.node (dNode t.dest)
  !badTok r t && !c.collides t && !(nOpc r == 0x20 && dPort t.dest == 3 && decide (4 < (tokW t 0).toNat))

/-- A token entering the matching store, its entry traced (R88, R417). -/
def Work.enterTraced (w : Work) (mc : Nat) (t : Token) : Work :=
  let v := w.enterStore mc t
  if (w.cell mc).stores t then v.traced mc false t else v

/-- Whether a token that stands at a cell's input can go in: to an entry, or where none is free or it collides to a free record of
the overflow queue (R84, R87, R93). -/
def Work.canEnter (w : Work) (mc : Nat) (t : Token) : Bool :=
  let c := w.cell mc
  decide (c.ovf.length < w.ovCap mc) || (decide (c.entries.length < c.usable) && !c.collides t)

/-- Tokens offered to a cell's matching store in order, before all that wait: each enters and its entry is traced, or spills in
its order before every record that waits; one that a breakpoint matches stops the region, and the rest stand at the input, as they
do where the next has no room (R84, R87, R88, R408, R417). `k` counts those that have spilled. -/
def offerList (mc : Nat) : Nat → List (Bool × Token) → Work → Work
  | _, [], w => w
  | k, (x, t) :: rest, w =>
    let stand : Work → List (Bool × Token) → Work := fun v l => v.updCell mc fun c => { c with held := l ++ c.held }
    match if x then none else (w.regOf (mc / 16)).dbpHit t with
    | some i => if w.inputGoes mc then stand (w.stopToken mc i t) rest else stand w ((x, t) :: rest)
    | none =>
      if w.canEnter mc t = false then stand w ((x, t) :: rest)
      else if (w.cell mc).usable ≤ (w.cell mc).entries.length then offerList mc (k + 1) rest (w.ovPutAt mc k false x t).1
      else offerList mc k rest (w.enterTraced mc t)

/-- A token that a breakpoint does not check, or does, offered alone. -/
def Work.offer (w : Work) (mc : Nat) (x : Bool) (t : Token) : Work := offerList mc 0 [(x, t)] w

/-- The tokens that stand at a cell's input offered again (R88, R411). -/
def Work.offerHeld (w : Work) (mc : Nat) : Work :=
  offerList mc 0 (w.cell mc).held (w.updCell mc fun c => { c with held := [] })

/-- Whether the first token that stands at a cell's input can go in, or waits for room (R87, R88). -/
def Work.heldGoes (w : Work) (mc : Nat) : Bool :=
  w.inputGoes mc && ((w.cell mc).held.head?.any fun e => w.canEnter mc e.2)
/-- Whether that token waits because it finds no room (R88). -/
def Work.heldWaits (w : Work) (mc : Nat) : Bool :=
  w.inputGoes mc && ((w.cell mc).held.head?.any fun e => !w.canEnter mc e.2)

/-- Whether a token spills rather than enters (R88). -/
def Work.spills (w : Work) (mc : Nat) (t : Token) : Bool :=
  decide ((w.cell mc).usable ≤ (w.cell mc).entries.length) || w.ovHolds mc (dNode t.dest)

/-- A token dropped on its way: its count is released, or the task it starts has ended (R322, R395). -/
def Work.dropTok (w : Work) (mc : Nat) (t : Token) : Work :=
  match t.item with
  | some (15, slot) => w.endSlot (w.rno (mc / 16)) slot
  | _ => w.release (mc / 16) t

/-- TOKEN_ARRIVAL: the tokens that stand at a cell's input go in, or the first token under way to it that the cell can take
spills or enters (R88); a token of a colour that a purge wave discards is dropped (R395). -/
def execTokenArrival (cell : Nat) (s : State) : Out :=
  run s fun w =>
    if w.heldGoes cell then w.offerHeld cell
    else match (w.cell cell).inq with
    | [] => w
    | (_, t) :: rest =>
      let r := w.rno (cell / 16)
      let w1 := w.updCell cell fun c => { c with inq := rest }
      if (w.region r).purge.any fun p => p.1 == t.colour.toNat then w1.dropTok cell t
      else if w.canTake cell = true ∧ w.inputHeld cell = false then
        if w.spills cell t then (w1.ovPut cell false t).1 else w1.offer cell false t
      else w

/-- The record of a cell that is refilled next: the oldest that is not collided; while a token at the input waits for a free
record, one of another node where there is one (R88). -/
def Work.refillNext (w : Work) (mc : Nat) : Option OvRec :=
  let c := w.cell mc
  let other : OvRec → Bool := fun o => !o.collided && !c.held.any fun e => dNode e.2.dest == w.ovNode mc o
  match if c.held.isEmpty then none else c.ovf.find? other with
  | some o => some o
  | none => c.ovf.find? fun o => !o.collided

/-- OVERFLOW_REFILL: the oldest record that is not collided enters before any new token (R88). -/
def execOverflowRefill (cell : Nat) (s : State) : Out :=
  run s fun w =>
    if w.refillDue cell = true ∧ (w.inputHeld cell = false ∨ w.heldWaits cell = true) then
      match w.refillNext cell with
      | none => w
      | some o =>
        let t := tokOfBytes (w.pbytes (w.ovAddr cell o.slot) 64) o.item o.req
        (w.updCell cell fun k => { k with ovf := k.ovf.erase o }).offer cell o.exempt t
    else w

/-! ## Replacing a live node (R108, R110) -/

/-- Whether a source stands inside a slot (R282). -/
def Cell.midSlot (c : Cell) (n : Nat) : Bool := (Tbl.find c.dsrcs (c.key n)).any fun d => d.cur.isSome

/-- Whether a node has uses in flight: twigs, long firings, requests, a generator's round, a source's slot (R108; log entry
81). -/
def Cell.inUse (c : Cell) (n : Nat) : Bool :=
  (c.twigs.any fun e => e.2.node == n) || c.busyNode n || (c.reqs.any fun q => q.node == n) ||
    (c.gens.any fun e => e.2.busy && e.2.node == n) || c.midSlot n

/-- Whether any node of the active context has uses in flight (R110). -/
def Cell.anyUse (c : Cell) : Bool :=
  !c.twigs.isEmpty || !c.pend.isEmpty || !c.reqs.isEmpty || (c.gens.any fun e => e.2.busy) ||
    c.dsrcs.any fun e => e.1 / 1024 == c.active && e.2.cur.isSome

/-- Held tokens of nodes offered again in the order they were received, as tokens that have just arrived (R108, R408). -/
def Work.reoffer (w : Work) (mc : Nat) (p : Nat → Bool) : Work :=
  let es := (w.cell mc).entries.filter fun e => p e.node
  offerList mc 0 (es.map fun e => (false, e.tok)) (w.updCell mc fun c => { c with entries := c.entries.filter fun e => !p e.node })

/-- The records of the active context replaced by the pending ones, every other node emptied (R110, R393). -/
def Cell.reloadCtx (c : Cell) : Cell :=
  let ctx := c.active
  let new := c.reconf.filter fun e => e.1 / 1024 == ctx
  let olds := (Tbl.keys c.nodes).filter fun k => k / 1024 == ctx
  let emptied := olds.foldl (fun d k => d.loadNode ctx (k % 1024) 0) c
  let filled := new.foldl (fun d e => d.loadNode ctx (e.1 % 1024) e.2) emptied
  { filled with reconf := c.reconf.filter fun e => e.1 / 1024 != ctx, nextCtx := none }

/-- A context made the active one: its probes watch from now on (R285). -/
def Cell.activate (c : Cell) (k : Nat) : Cell := { c with active := k, nextCtx := none }

/-- A flip puts in every record of the incoming context anew: each converter's L is reseeded (R52, R108, R110). -/
def Cell.reseed (c : Cell) (k : Nat) : Cell :=
  let ns := c.nodes.filter fun e => e.1 / 1024 == k && nOpc e.2 == 0x0E
  { c with convL := ns.foldl (fun t e => Tbl.put t e.1 (Conv.ofWord (nLit e.2).toNat).seedL) c.convL }

/-- Every pending record put in its place. -/
def Cell.patchAll (c : Cell) : Cell :=
  { c.reconf.foldl (fun d e => d.loadNode (e.1 / 1024) (e.1 % 1024) e.2) c with reconf := [] }

/-- The pending record of a node whose uses have ended, if there is one. -/
def Cell.duePatch (c : Cell) : Option (Nat × NRec) :=
  c.reconf.find? fun e => e.1 / 1024 == c.active && !c.inUse (e.1 % 1024)

/-- Groves whose cells have all changed leave the list of those that change (R331). -/
def Work.changedGrove (w : Work) (r g : Nat) : Work :=
  if ((w.cellsOf r).filter fun c => c / 16 == g).all fun c => (w.cell c).nextCtx.isNone then
    w.updRegion r fun x => { x with running := x.running.map fun u => { u with changing := u.changing.erase g } }
  else w

/-- NODE_RECONFIGURE: a pending record replaces the old one, or a pending context takes effect, once the uses in flight
have ended; held tokens are offered to what stands then (R108, R110). -/
def execNodeReconfigure (cell : Nat) (s : State) : Out :=
  run s fun w =>
    let c := w.cell cell
    match c.nextCtx with
    | some k =>
      if k < 4 ∨ c.anyUse = true then w
      else if k < 8 then
        let w1 := (w.setCell cell ((c.patchAll.newInterval.activate (k - 4)).reseed (k - 4))).reoffer cell fun _ => true
        w1.changedGrove (w1.rno (cell / 16)) (cell / 16)
      else
        let w1 := (w.setCell cell c.reloadCtx.newInterval).reoffer cell fun _ => true
        w1.changedGrove (w1.rno (cell / 16)) (cell / 16)
    | none =>
      match c.duePatch with
      | none => w
      | some (k, r) =>
        let c1 := { (c.loadNode (k / 1024) (k % 1024) r).newInterval with reconf := Tbl.del c.reconf k }
        (w.setCell cell c1).reoffer cell fun n => n == k % 1024

/-! ## Twig blocks that wait (R109) -/

/-- Whether a running twig's block overlaps words to be written; `at_` gives a twig's header address. -/
def twigsOverlap (ts : Tbl Twig) (addr : Twig → Nat) (a n : Nat) : Bool :=
  ts.any fun e => decide (a < addr e.2 + e.2.code.length + 2) && decide (addr e.2 < a + n)

/-- The header address a cell's twig was launched from. -/
def twigAddr (t : Twig) : Nat := litF t.record 10 0

/-- TWIG_STORE_WRITE: a pending block is written once no running twig overlaps it (R109, R254). -/
def execTwigStoreWrite (mx : Bool) (unit : Nat) (s : State) : Out :=
  run s fun w =>
    if mx then
      let m := w.mx unit
      match m.pendingTwig.find? fun b => !twigsOverlap m.twigs Twig.entry b.1 b.2.length with
      | none => w
      | some b => w.setMx unit { m.loadBlock b.1 b.2 with pendingTwig := m.pendingTwig.erase b }
    else
      let c := w.cell unit
      match c.pendTwig.find? fun b => !twigsOverlap c.twigs twigAddr b.1 b.2.length with
      | none => w
      | some b => w.setCell unit { (c.loadBlock b.1 b.2).newInterval with pendTwig := c.pendTwig.erase b }

/-! ## Changes of context at a stage's grove (R90, R331) -/

/-- Whether a cell holds nothing of its outgoing context (R90). -/
def Cell.quiet (c : Cell) : Bool :=
  c.entries.isEmpty && c.ovf.isEmpty && c.twigs.isEmpty && c.pend.isEmpty && c.reqs.isEmpty

/-- CONTEXT_CHANGE_COMPLETE: a cell that holds nothing of the outgoing context takes the incoming one (R90). -/
def execContextChangeComplete (cell : Nat) (s : State) : Out :=
  run s fun w =>
    let c := w.cell cell
    match c.nextCtx with
    | some k =>
      if k < 4 ∧ c.quiet = true then
        let w1 := w.setCell cell (c.newInterval.activate k)
        w1.changedGrove (w1.rno (cell / 16)) (cell / 16)
      else w
    | none => w

end Sys2Proof.Machine
end

