-- ==== Sys2Proof/Machine/Rings.lean ====
section
/-! DEFINITION. The buffers of a ring input port: flits that enter the shared pool or an escape slot, and the port's word (spec 16
R343 to R345; log entry 87). Which packets pass which port when is timing, and free. -/

namespace Sys2Proof.Machine

/-- The taken slots of one class at a ring input port: the shared pool's 16, and 2 escape slots each of VC0 and VC1 (R344). -/
structure RingBuf where
  pool : Nat
  e0 : Nat
  e1 : Nat
deriving DecidableEq, Repr

/-- Flits leave a class's slots (R344). -/
def RingBuf.leave (b : RingBuf) (pool e0 e1 : Nat) : RingBuf := ⟨b.pool - pool, b.e0 - e0, b.e1 - e1⟩

/-- The flits of one packet enter a class's slots: the shared pool while it has room, otherwise an escape slot of the packet's
own VC, otherwise they wait upstream; and whether one took an escape slot (R344). -/
def RingBuf.enter (vc1 : Bool) : Nat → RingBuf × Bool → RingBuf × Bool
  | 0, x => x
  | n + 1, (b, esc) =>
    if b.pool < 16 then RingBuf.enter vc1 n ({ b with pool := b.pool + 1 }, esc)
    else if vc1 = false ∧ b.e0 < 2 then RingBuf.enter vc1 n ({ b with e0 := b.e0 + 1 }, true)
    else if vc1 = true ∧ b.e1 < 2 then RingBuf.enter vc1 n ({ b with e1 := b.e1 + 1 }, true)
    else (b, esc)

/-- A ring input port: its request and response slots, and the packets that took an escape slot (R344, R345). -/
structure RingPort where
  req : RingBuf
  resp : RingBuf
  escn : Nat
deriving DecidableEq, Repr

/-- A ring port with every slot free (R345). -/
def RingPort.reset : RingPort := ⟨⟨0, 0, 0⟩, ⟨0, 0, 0⟩, 0⟩

/-- One class's slots after a scheduling step: what leaves, then a packet of up to 4 flits that comes, in one of the VCs (R343,
R344). -/
def RingBuf.step (b : RingBuf) (v : Nat) : RingBuf × Bool :=
  RingBuf.enter (bits v 10 10 == 1) (bits v 13 11 % 5) (b.leave (bits v 4 0) (bits v 6 5) (bits v 8 7), false)

/-- A ring port after a scheduling step (R344, R345; log entry 87). -/
def RingPort.step (p : RingPort) (v : Nat) : RingPort :=
  let q := p.req.step v
  let r := p.resp.step (v / 2 ^ 16)
  ⟨q.1, r.1, (p.escn + (if q.2 then 1 else 0) + (if r.2 then 1 else 0)) % 2 ^ 32⟩

/-- Ring port `k` after a count of scheduling steps from one on (R345). -/
def ringAfter (k start : Nat) : Nat → RingPort
  | 0 => RingPort.reset
  | n + 1 => (ringAfter k start n).step (Config.ringFlits (start + n) k)

/-- A ring port's word: the packets that took an escape slot, the free shared slots, and the free escape slots, for responses and
then for requests (R345). -/
def RingPort.word (p : RingPort) : Word :=
  bv 64 (p.escn * 2 ^ 32 + (16 - p.resp.pool) * 2 ^ 24 + (2 - p.resp.e1) * 2 ^ 22 + (2 - p.resp.e0) * 2 ^ 20 +
    (16 - p.req.pool) * 2 ^ 8 + (2 - p.req.e1) * 2 ^ 6 + (2 - p.req.e0) * 2 ^ 4)

/-- Ring port `k`'s buffer state as it stands: every slot free at reset (R345). -/
def Mod.ring (m : Mod) (k : Nat) : Word := (ringAfter k m.ringFrom (m.ringTick - m.ringFrom)).word

end Sys2Proof.Machine
end

