-- ==== Sys2Proof/Machine/Registers.lean ====
section
/-! DEFINITION. The words that the control windows show: each read of a register as the chapters lay it out (spec 04 R86;
06 R150, R163; 07 R171 to R177, R180; 10 R223, R224, R236; 12 R269, R273; 13 R291, R292, R298; 15 R330, R333; 16 R340, R345
to R347, R355; 18 R366; 20 R382; 22 R403 to R421; 23 R423 to R429). -/

namespace Sys2Proof.Machine

/-- A truth value as a bit of a word. -/
def bit (b : Bool) (k : Nat) : Nat := if b then 2 ^ k else 0

/-! ## Cells (R86, R171, R177, R414) -/

/-- CTSTAT (R86). -/
def Work.ctstat (w : Work) (mc : Nat) : Word :=
  let c := w.cell mc
  bv 64 (c.usable * 2 ^ 32 + c.entries.length * 2 ^ 21 + c.ovf.length * 2 ^ 2 +
    bit (decide (w.ovCap mc ≤ c.ovf.length) && !c.ovf.isEmpty) 1 + bit c.spilled 0)

/-- NSUSE (R171). -/
def Cell.nsuseWord (c : Cell) : Word :=
  bv 64 (c.nsuse.getD 0 0 + c.nsuse.getD 1 0 * 2 ^ 11 + c.nsuse.getD 2 0 * 2 ^ 22 + c.nsuse.getD 3 0 * 2 ^ 33)

/-- A mapping entry never written (R177). -/
def MapEntry.reset : MapEntry := ⟨false, false, 0, 0, 0, 0, 0, 0, 0, []⟩

/-- A mapping entry of a cell. -/
def Cell.map (c : Cell) (k : Nat) : MapEntry := Tbl.getD c.maps k MapEntry.reset

/-- MAPk+0 (R177). -/
def MapEntry.word0 (m : MapEntry) : Word :=
  bv 64 (bit m.v 63 + bit m.w 62 + m.st * 2 ^ 60 + m.err * 2 ^ 57 + m.va * 2 ^ 12)

/-- MAPk+8: the latched values while an entry is in use (R177). -/
def MapEntry.word8 (m : MapEntry) : Word :=
  if m.st = 0 then m.nextWord else bv 64 (m.asid * 2 ^ 16 + m.boff * 2 ^ 12 + m.size)

/-- A 64-bit word of bytes. -/
def wordAt (bs : List Byte) (off : Nat) : Word := bv 64 (leNat ((bs.drop off).take 8))

/-- A word of a cell's control window (R171, R414). -/
def Work.cellReg (w : Work) (mc off : Nat) : Option Word :=
  let c := w.cell mc
  if off = 0 then some (w.ctstat mc)
  else if off = 8 then some c.nsuseWord
  else if 0x100 ≤ off ∧ off < 0x200 then
    some (if off % 16 = 0 then (c.map ((off - 0x100) / 16)).word0 else (c.map ((off - 0x100) / 16)).word8)
  else if 0x200 ≤ off ∧ off < 0xA00 then
    some (bv 64 ((c.shape ((off - 0x200) / 64)).toNat / 2 ^ (off % 64 * 8)))
  else if off = 0xC00 then some (bv 64 c.mssel)
  else if 0xC40 ≤ off ∧ off < 0xC80 then
    match c.entries[c.mssel]? with
    | some e => some (wordAt (tokBytes e.tok) (off - 0xC40))
    | none => some 0
  else none

/-! ## Task cores (R150, R172, R173) -/

/-- The runnable records of a core's slots. -/
def Core.runnable (c : Core) : List Record := c.slots.filter fun r => r.since.isSome

/-- The full records of frozen tasks of a grove that lie in the spill area (R381). -/
def Work.frozenSpilled (w : Work) (g : Nat) : List Frozen :=
  (w.regOf g).frozen.filter fun o => o.okind == 1 && o.grove == g && o.what != 0 && o.task.isSome

/-- TCSTAT: records of this core in the spill area, frozen tasks' among them (R150, R381). -/
def Work.tcstat (w : Work) (g : Nat) : Word :=
  let spilled := ((Tbl.vals (w.regOf g).spill).filter fun r => r.home == g).length + (w.frozenSpilled g).length
  bv 64 (min 255 spilled * 2 ^ 16 + (w.core g).runnable.length * 2 ^ 8 + min 32 (w.slotsHeld g))

/-- A word of a task core's window (R172, R173). -/
def Work.coreReg (w : Work) (g off : Nat) : Option Word :=
  let c := w.core g
  if off < 0x100 then
    let n := off / 8
    some (if n = 0 then 0 else if 24 ≤ n ∨ c.halted = true ∨ (w.regOf g).stopped = true then c.regs.getD n 0 else 0)
  else if off < 0x300 then some 0
  else if off = 0x300 then
    some (bv 64 (((List.range 64).map fun k => bit (!(c.chan k).isEmpty) k).sum))
  else if 0x308 ≤ off ∧ off < 0x348 then
    some (bv 64 (((List.range 8).map fun i => (c.chan (off - 0x308 + i)).length * 2 ^ (4 * i)).sum))
  else if off = 0x380 then some (w.tcstat g)
  else if 0x400 ≤ off ∧ off < 0x500 then
    let k := (off - 0x400) / 8
    some (bv 64 (((List.range 64).map fun m => bit (c.plmask.contains (64 * k + m)) m).sum))
  else none

/-! ## Timelines, handles, residency, glades (R223, R224, R236, R333, R366) -/

/-- An engine context of a grove. -/
def Grove.engine (g : Grove) (k : Nat) : Engine := Tbl.getD g.engines k Engine.reset

/-- ECSTATk (R224). -/
def Engine.ecstat (e : Engine) : Word :=
  bv 64 (bit e.err 63 + e.errc * 2 ^ 48 + e.nerr * 2 ^ 40 + e.errn % 2 ^ 32 * 2 ^ 8 + e.queue.length)

/-- A word of the timeline page (R223). -/
def Work.tlReg (w : Work) (g off : Nat) : Option Word :=
  let e : Nat → Engine := (w.grove g).engine
  let k := off / 8 % 8
  if off < 0x40 then some (bv 64 (e k).tl)
  else if off = 0x40 then some (bv 64 (w.mx g).tlm)
  else if 0x80 ≤ off ∧ off < 0xC0 then some (bv 64 (e k).issued)
  else if 0xC0 ≤ off ∧ off < 0x100 then some (e k).ecstat
  else if 0x100 ≤ off ∧ off < 0x140 then some 0
  else none

/-- The words of a residency entry (R333). -/
def Work.residWord (w : Work) (g n : Nat) (second : Bool) : Word :=
  match Tbl.find (w.grove g).resid n with
  | none => 0
  | some e => bv 64 (if second then e.bankb * 2 ^ 32 + e.l2b else e.st * 2 ^ 62 + e.tile)

/-- HELD of a slot: a freeze of its own region, or of its sender's, holds it (R366, R374). -/
def GSlot.isHeld (s : GSlot) : Bool := s.held || s.away

/-- A slot's half-word (R366). -/
def GSlot.half (s : GSlot) : Nat :=
  if s.st = 0 then 0 else s.st * 2 ^ 29 + s.sender * 2 ^ 17 + bit s.isHeld 16 + s.phase

/-- A phase word (R366). -/
def Phase.word (p : Phase) : Word := bv 64 (bit p.posted 63 + bit p.lost 62 + bit p.ovf 61 + wrap 48 p.pend)

/-- A barrier of a grove. -/
def Grove.barrier (g : Grove) (b : Nat) : Barrier := Tbl.getD g.barriers b Barrier.reset

/-- The reservations that wait for a barrier's glades (R366). -/
def Grove.qreq (g : Grove) (b : Nat) : Nat :=
  (g.gq.filter fun q => match Tbl.find g.glades q.glade with
    | some z => z.ab == b
    | none => false).length

/-- A word of the glade and barrier table (R366). -/
def Work.gladeReg (w : Work) (g off : Nat) : Option Word :=
  let k := w.grove g
  if off < 0x200 then
    let z := Tbl.find k.glades (off / 64)
    let i := off % 64 / 8
    if 5 ≤ i then none
    else match z with
      | none => some 0
      | some z =>
        if i = 0 then some (bv 64 (2 ^ 63 + z.ab * 2 ^ 8 + z.handle))
        else match z.senders[i - 1]? with
          | some (a, b) => some (bv 64 (2 ^ 63 + b * 2 ^ 16 + a))
          | none => some 0
  else if off < 0x400 then
    let b := k.barrier ((off - 0x200) / 32)
    match off % 32 / 8 with
    | 0 => some b.even.word
    | 1 => some b.odd.word
    | 2 => some (bv 64 (min 255 (k.qreq ((off - 0x200) / 32)) * 2 ^ 16 + b.ph))
    | _ => none
  else if off < 0xC00 then
    match Tbl.find k.glades ((off - 0x400) / 256) with
    | none => some 0
    | some z =>
      let i := (off - 0x400) % 256 / 8
      let h : Nat → Nat := fun j => match z.slots[j]? with
        | some s => s.half
        | none => 0
      some (bv 64 (h (2 * i) + h (2 * i + 1) * 2 ^ 32))
  else none

/-! ## The Flehild page (R414, R420, R421) -/

/-- The records that a core's continuation slots hold in order: its own, then those of its frozen tasks (R381, R414). -/
def Work.slotRecs (w : Work) (g : Nat) : List Record := (w.core g).slots ++ w.frozenTasks g

/-- The bytes of a core's continuation slots in order (R414). -/
def Work.slotBytes (w : Work) (g : Nat) : List Byte := ((w.slotRecs g).map Record.image).flatten

/-- A word of a debug slot (R414). -/
def debugWord (t : Option Twig) (off : Nat) : Option Word :=
  if off < 0x100 then
    match t with
    | some x =>
      some ((x.temps.getD (off / 32) TVal.null0).bits.extractLsb' (off % 32 * 8) 64)
    | none => some 0
  else if off = 0x100 then
    match t with
    | some x => some (bv 64 (((List.range 8).map fun i => bit (x.temps.getD i TVal.null0).null i).sum))
    | none => some 0
  else if off = 0x108 then
    match t with
    | some x => some (bv 64 (litF x.record 10 0 + 2 + x.next))
    | none => some 0
  else none

/-- A word of a grove's Flehild page. -/
def Work.flehReg (w : Work) (g off : Nat) : Option Word :=
  let k := w.grove g
  if off < 0x1400 then some (wordAt (w.slotBytes g) off)
  else if 0x2000 ≤ off ∧ off < 0x4000 then debugWord (w.cell (16 * g + (off - 0x2000) / 512)).debug (off % 512)
  else if 0x4000 ≤ off ∧ off < 0x5000 then
    let c := w.cell (16 * g + (off - 0x4000) / 256)
    let o := off % 256
    if o = 0 then some (bv 64 c.intv)
    else if o < 0x50 then some (bv 64 (c.classNow.getD ((o - 8) / 8) 0))
    else if 0x88 ≤ o ∧ o < 0xD0 then some (bv 64 (c.classPrev.getD ((o - 0x88) / 8) 0))
    else none
  else if 0x5000 ≤ off ∧ off < 0x5580 then some (k.snap.getD ((off - 0x5000) / 8) 0)
  else if 0x5800 ≤ off ∧ off < 0x5838 then some (bv 64 (k.counters.getD ((off - 0x5800) / 8) 0))
  else none

/-! ## Fault records (R382) -/

/-- The 64 bytes of a fault record (R382). -/
def FaultRec.image (f : FaultRec) : List Byte :=
  [bv 8 f.code, bv 8 f.okind, bv 8 (bit f.nested 0 + bit f.stuck 1), 0] ++ leBytes 2 f.grove ++
    [bv 8 (f.cell.getD 0xFF), 0] ++ leBytes 4 f.node ++ leBytes 4 f.tag ++ leBytes 8 f.addr.toNat ++
    leBytes 8 f.aux.toNat ++ leBytes 8 f.pc ++ leBytes 8 f.wid.toNat ++ leBytes 8 f.aux2.toNat ++ leBytes 4 f.fseq ++
    leBytes 4 f.stamp

/-! ## Regions (R163, R175, R269, R273, R291, R292, R298, R330, R341, R383, R390, R404 to R416) -/

/-- CPSTAT (R163). -/
def Region.cpstat (x : Region) : Word :=
  let free := if x.loaded then x.freeColours.length else 4096
  bv 64 (min 0xFFFF x.waitC.length * 2 ^ 32 + (4096 - free) * 2 ^ 16 + free)

/-- STGSTATs (R330). -/
def Region.stgstat (x : Region) (s : Nat) : Word :=
  match x.running with
  | none => 0
  | some u =>
    if s < u.launch.nstage then
      let ngr := (u.stageOf.filter fun e => e.2 == s).length
      bv 64 ((u.stage s).qcap * 2 ^ 48 + (u.queue s).recs.length * 2 ^ 32 + ngr * 2 ^ 16 + (u.stage s).ctx)
    else 0

/-- CF as the descriptor shows it: up to four times, all ones where absent (R291). -/
def Arr.cfWord (a : Arr) (i : Nat) : Word := a.cf.getD i (BitVec.allOnes 64)

/-- ASTATa (R292). -/
def Arr.astat (a : Arr) : Word := bv 64 (a.passn % 2 ^ 32 * 2 ^ 32 + a.sealed.length * 2 ^ 27 + a.hw.length)

/-- A word of the Flehild block (R404 to R416). -/
def Region.flehWord (x : Region) (off : Nat) : Option Word :=
  if off < 0x8200 then some ((Tbl.getD x.dbp ((off - 0x8000) / 32) []).getD (off % 32 / 8) 0)
  else if off < 0x8300 then some (if off % 16 = 0 then Tbl.getD x.ibp ((off - 0x8200) / 16) 0 else 0)
  else if 0x8400 ≤ off ∧ off < 0x8440 then
    match x.stop with
    | some f => some (if x.stopped then wordAt f.image (off - 0x8400) else 0)
    | none => some 0
  else if off = 0x8440 then some 0
  else if off = 0x8448 then some (bv 64 x.listVa)
  else if off = 0x8450 then some (bv 64 x.listN)
  else if off = 0x8480 then some x.trctl
  else if off = 0x8488 then some (bv 64 x.trdrop)
  else if 0x8500 ≤ off ∧ off < 0x8540 then some (wordAt x.stopTok (off - 0x8500))
  else none

/-- A word of a region's control window (R175). -/
def Work.regionReg (w : Work) (n off : Nat) : Option Word :=
  let x := w.region n
  if off = 0 then some x.cpstat
  else if off = 8 then some (bv 64 x.rasid)
  else if off = 0x10 then some (bv 64 x.cwdog)
  else if off = 0x18 then some (x.gid.setWidth 64)
  else if off = 0x20 then some (bv 64 x.rctBase)
  else if off = 0x28 then some x.faultq
  else if off = 0x30 then some x.tvec
  else if off = 0x800 then
    let y := x.balNext.getD (x.thr, x.bint)
    some (bv 64 (y.1 * 2 ^ 32 + y.2))
  else if off = 0x810 then some (bv 64 x.supBase)
  else if off = 0x818 then some 0
  else if 0x840 ≤ off ∧ off < 0x880 then some (x.stgstat ((off - 0x840) / 8))
  else if 0x1000 ≤ off ∧ off < 0x1078 then some (x.shape ((off - 0x1000) / 8))
  else if 0x1080 ≤ off ∧ off < 0x1180 then
    some (match x.bound ((off - 0x1080) / 8) with
      | some s => bv 64 (16 + s)
      | none => 0)
  else if 0x2000 ≤ off ∧ off < 0x3000 then
    let r := Tbl.getD x.readers ((off - 0x2000) / 16) Reader.reset
    some (if off % 16 = 0 then bv 64 (bit r.v 63 + bit r.mode 62 + r.slot) else r.held)
  else if 0x3000 ≤ off ∧ off < 0x3800 then
    some (match x.arr ((off - 0x3000) / 8) with
      | some a => a.astat
      | none => 0)
  else if 0x4000 ≤ off ∧ off < 0x8000 then
    some (match x.arr ((off - 0x4000) / 64) with
      | some a => if off % 64 < 32 then a.desc.extractLsb' (off % 64 * 8) 64 else a.cfWord ((off % 64 - 32) / 8)
      | none => 0)
  else if 0x8000 ≤ off ∧ off < 0x8540 then x.flehWord off
  else none

/-! ## The module (R180, R332, R340 to R355, R403, R420 to R429) -/

/-- PORTSTATp (R340). -/
def Work.portstat (w : Work) (p : Nat) : Word :=
  let x := w.port p
  let bound := ((Tbl.vals w.regions).map fun r => (r.plans.filter fun e => e.bound && e.entry.port == p).map
    fun e => 2 ^ (32 + e.entry.group)).flatten.sum
  bv 64 (bit x.up 63 + (if x.up then x.peer * 2 ^ 45 else 0) + bound + x.retries % 2 ^ 32)

/-- A capability entry. -/
def Mod.cap (m : Mod) (i : Nat) : Cap := Tbl.getD m.caps i Cap.reset

/-- A word of a capability entry (R403). -/
def Cap.word (c : Cap) (i : Nat) : Word :=
  match i with
  | 0 => bv 64 (bit c.v 63 + c.holder * 2 ^ 57 + c.region * 2 ^ 48 + c.rights * 2 ^ 32 + bit c.pv 17 + c.parent * 2 ^ 8)
  | 1 => c.gen.setWidth 64
  | 2 => c.check
  | _ => 0

/-- A word of the module control window. -/
def Work.modReg (w : Work) (off : Nat) : Option Word :=
  let m := w.mod
  if off < 0x400 then
    some (if off % 16 = 0 then (w.asEntry (off / 16)).1 else bv 64 (w.leaseOf (off / 16)))
  else if off = 0x800 then some (bv 64 m.trBase)
  else if off = 0xC00 then some (bv 64 (m.remcfg.1 * 2 ^ 40 + m.remcfg.2.1 * 2 ^ 19 + m.remcfg.2.2))
  else if off = 0xC08 then some (bv 64 m.remBase)
  else if 0x1000 ≤ off ∧ off < 0x1300 ∧ off % 32 = 0 then some (w.portstat ((off - 0x1000) / 32))
  else if 0x2000 ≤ off ∧ off < 0x6000 then some (Tbl.getD m.routes ((off - 0x2000) / 8) 0)
  else if 0x6000 ≤ off ∧ off < 0x7000 then
    some (if off % 16 = 0 then Tbl.getD m.invokeTable ((off - 0x6000) / 16) 0 else 0)
  else if 0x8000 ≤ off ∧ off < 0xA800 then some (m.ring ((off - 0x8000) / 8))
  else if 0xA800 ≤ off ∧ off < 0xC800 then some ((m.cap ((off - 0xA800) / 32)).word (off % 32 / 8))
  else if off = 0xC800 then some 0
  else if 0xC900 ≤ off ∧ off < 0xC940 then
    some (bv 64 (Tbl.getD (if off % 16 = 0 then m.walks else m.merged) ((off - 0xC900) / 16) 0))
  else if off = 0xD000 then some (bv 64 m.herr)
  else if 0xD008 ≤ off ∧ off < 0xD020 then some (bv 64 (Tbl.getD m.hwBase ((off - 0xD000) / 8) 0 * 2 ^ 36))
  else if off = 0xD020 then some m.hqBase
  else if off = 0xD028 then some (m.hqTail.setWidth 64)
  else if off = 0xD030 then some (m.hqHead.setWidth 64)
  else if off = 0xD100 then some (bv 64 (m.bootStage % 256 + bit m.bootErr 63))
  else if off = 0xD108 then some m.bootLog
  else if off = 0xD138 then some (if m.attreq then 1 else 0)
  else if 0xD140 ≤ off ∧ off < 0xD160 then some (wordAt m.nonce (off - 0xD140))
  else if off = 0xD200 then some (bv 64 m.pcap)
  else none

/-! ## The local address map (R168, R169) -/

/-- What lies at a local address past module memory: bytes of a store, or a register's word, of a unit. -/
inductive Place where
  | bank (g : Nat)
  | acc (g : Nat)
  | canopy (g : Nat)
  | code (g : Nat)
  | cell (mc off : Nat)
  | core (g off : Nat)
  | tl (g off : Nat)
  | handle (g off : Nat)
  | resid (g off : Nat)
  | glade (g off : Nat)
  | fleh (g off : Nat)
  | region (n off : Nat)
  | module (off : Nat)
  | hole
deriving DecidableEq, Repr

/-- The place of an offset of a grove's window (R169). -/
def grovePlace (g off : Nat) : Place :=
  if off < 0x100000 then .bank g
  else if 0x1000000 ≤ off ∧ off < 0x1010000 then .cell (16 * g + (off - 0x1000000) / 0x1000) (off % 0x1000)
  else if 0x1100000 ≤ off ∧ off < 0x1140000 then .acc g
  else if 0x1200000 ≤ off ∧ off < 0x1201000 then .core g (off - 0x1200000)
  else if 0x1210000 ≤ off ∧ off < 0x1220000 then .code g
  else if 0x1300000 ≤ off ∧ off < 0x1301000 then .tl g (off - 0x1300000)
  else if 0x1310000 ≤ off ∧ off < 0x1312000 then .handle g (off - 0x1310000)
  else if 0x1320000 ≤ off ∧ off < 0x1321000 then .resid g (off - 0x1320000)
  else if 0x1330000 ≤ off ∧ off < 0x1331000 then .glade g (off - 0x1330000)
  else if 0x1340000 ≤ off ∧ off < 0x1346000 then .fleh g (off - 0x1340000)
  else if 0x2000000 ≤ off ∧ off < 0x3000000 then .canopy g
  else .hole

/-- The place of a local address past module memory (R168). -/
def placeOf (a : Nat) : Place :=
  if 0x100000000000 ≤ a ∧ a < groveBase 320 then
    grovePlace ((a - 0x100000000000) / 0x4000000) ((a - 0x100000000000) % 0x4000000)
  else if 0x100800000000 ≤ a ∧ a < 0x100800000000 + 320 * 0x10000 then
    .region ((a - 0x100800000000) / 0x10000) (a % 0x10000)
  else if 0x100C00000000 ≤ a ∧ a < 0x100C00010000 then .module (a - 0x100C00000000)
  else .hole

/-- The word of a register place; a store of bytes or a hole has none. -/
def Work.placeWord (w : Work) : Place → Option Word
  | .cell mc off => w.cellReg mc off
  | .core g off => w.coreReg g off
  | .tl g off => w.tlReg g off
  | .handle g off => some (((w.grove g).handle (off / 32)).word (off % 32 / 8))
  | .resid g off => some (w.residWord g (off / 16) (off % 16 == 8))
  | .glade g off => w.gladeReg g off
  | .fleh g off => w.flehReg g off
  | .region n off => w.regionReg n off
  | .module off => w.modReg off
  | _ => none

end Sys2Proof.Machine
end

