-- ==== Sys2Proof/Machine/Access.lean ====
section
/-! DEFINITION. Accesses by physical and virtual address: which agents a window word refuses, what a write of each word
does, and loads and stores of module memory and windows (spec 07 R168 to R175, R182, R442; 05 R123; 20 R396; 22 R404,
R414; the chapters that give each word). -/

namespace Sys2Proof.Machine

/-- Who makes an access: the grove whose buffers translate, whose program time it takes, its address space, whether in user
mode, its region (none for the host), whether it is an engine's (R192, R442), and who is held while a port holds its bytes or a
walk is under way (R183, R230). -/
structure Acc where
  grove : Nat
  who : Who
  asid : Nat
  user : Bool
  region : Option Nat
  engine : Bool
  writer : Writer
deriving DecidableEq, Repr

/-- Whether the grove's task core makes it. -/
def Acc.core (a : Acc) : Bool := a.who == .core a.grove

/-- What waits for the walks of an access: its task core, or its grove's engines; other units do not, nor does the replay of a
canopy, on context 8 (R183, R249; log entry 86). -/
def Acc.waiter (a : Acc) : Option Waiter :=
  match a.writer with
  | .core g => some (coreWaiter g)
  | .engine g k => if k < 8 then some (engineWaiter g) else none
  | _ => none

/-- A task core's accesses at its instruction. -/
def Work.accCore (w : Work) (g : Nat) : Acc := ⟨g, .core g, (w.core g).asid, !w.super g, some (w.rno g), false, .core g⟩

/-- The accesses of an agent of a cell: user mode (R175, R192, R442). -/
def Work.accAgent (w : Work) (mc kind n : Nat) : Acc :=
  ⟨mc / 16, .agent mc kind n, (w.regOf (mc / 16)).rasid, true, some (w.rno (mc / 16)), false, .other⟩

/-- The accesses of a source, sink or pass of a node: an agent of its own (R175, R192, R442). -/
def Work.accNode (w : Work) (mc n : Nat) : Acc := w.accAgent mc 5 n

/-- The accesses of an engine operation or a matrix array, in the mode of its issue (R196, R442). -/
def Work.accEngine (w : Work) (g : Nat) (sup : Bool) (who : Who) : Acc :=
  ⟨g, who, (w.regOf g).rasid, !sup, some (w.rno g), true, .other⟩

/-- The accesses of an operation of an engine context, from its issuer's time on (R196). -/
def Work.accOp (w : Work) (g k : Nat) (o : EngOp) : Acc :=
  { w.accEngine g o.sup (.after o.itime) with writer := .engine g k }

/-- The host's accesses through a window, which is an agent of its own (R423, R424). -/
def accHost (window : Nat) : Acc := ⟨0, .window window, 0, false, none, false, .other⟩

/-! ## Rights (R170, R404) -/

/-- Whether a live capability gives an address space a right in a region, or in any region (R404). -/
def Work.hasRight (w : Work) (asid : Nat) (reg : Option Nat) (right : Nat) : Bool :=
  (Tbl.vals w.mod.caps).any fun c =>
    c.v && c.holder == asid && c.rights / 2 ^ right % 2 == 1 &&
      match reg with
      | some r => c.region == r
      | none => true

/-- The region and right that a Flehild block's word needs (R404, R406 to R416). -/
def flehRight (off : Nat) (wr : Bool) (v : Word) : Nat :=
  if off < 0x8300 then 2
  else if off = 0x8440 then (if fld v 63 61 = 2 then 2 else 5)
  else if off = 0x8480 ∨ off = 0x8488 then 3
  else if 0x8500 ≤ off ∧ wr = true then 1
  else 0

/-- A checked word's region and right; none for a word that R170 governs (R404). -/
def Work.checkedWord (w : Work) (p : Place) (wr : Bool) (v : Word) : Option (Option Nat × Nat) :=
  let st := if wr then 1 else 0
  match p with
  | .cell mc off => if 0xC00 ≤ off then some (some (w.rno (mc / 16)), st) else none
  | .core g off => if off < 0x100 ∧ (w.regOf g).stopped = true then some (some (w.rno g), st) else none
  | .fleh g off => some (some (w.rno g), if off < 0x4000 then st else 4)
  | .region n off => if 0x8000 ≤ off then some (some n, flehRight off wr v) else none
  | .module off => if off = 0xC800 ∨ (0xC900 ≤ off ∧ off < 0xC940) then some (none, 4) else none
  | _ => none

/-- Whether the agent may make the access (R170, R404, R442). -/
def Work.mayAccess (w : Work) (a : Acc) (p : Place) (wr : Bool) (v : Word) : Bool :=
  !a.user ||
    match w.checkedWord p wr v with
    | some (reg, right) => w.hasRight a.asid reg right
    | none =>
      match p with
      | .bank _ => true
      | .acc _ => !wr
      | .canopy _ => !wr || a.engine
      | .tl _ off => !wr && decide (off < 0x100)
      | .core _ off => wr && 0x100 ≤ off && off < 0x300
      | _ => false

/-- Whether a freeze wave refuses a write by an agent outside its region (R396). -/
def Work.waveRefuses (w : Work) (a : Acc) (p : Place) : Bool :=
  let shut : Nat → Bool := fun g =>
    let n := w.rno g
    ((w.region n).freezing.isSome || (w.region n).halted) && a.region != some n
  match p with
  | .bank g => shut g
  | .acc g => shut g
  | .core g off => off < 0x300 && shut g
  | _ => false

/-! ## Writes whose behaviour is a step of its own -/

/-- A step that a write begins, performed before anything else (log entry 19). -/
def Work.trigger (w : Work) (i : Instr) : Work := { w with moves := .event i :: w.moves }

/-- S.FRELEASE and the release port (R384). -/
def Work.askRelease (w : Work) (r : Nat) (v : Word) : Work :=
  if fld v 61 32 ≠ 0 then w
  else
    match fld v 63 62 with
    | 0 => w.trigger (.freleaseRetry r (v.setWidth 32))
    | 1 => w.trigger (.freleaseDiscard r (v.setWidth 32))
    | _ => w

/-- FCMD; its reserved field is not looked at (R6, R411). -/
def Work.askCommand (w : Work) (r : Nat) (v : Word) : Work :=
  let q : BitVec 32 := v.setWidth 32
  match fld v 63 61 with
  | 0 => w.trigger (.fcmdResumeRetry r q)
  | 1 => w.trigger (.fcmdResumeDiscard r q)
  | 2 => w.trigger (.fcmdStep r q)
  | 3 => if q = 0 then w.trigger (.fcmdStop r) else w
  | 4 => if q = 0 then w.trigger (.fcmdList r) else w
  | _ => w

/-! ## Writes of words -/

/-- Eight bytes of a list replaced. -/
def putWord (bs : List Byte) (off : Nat) (v : Word) : List Byte := bs.take off ++ leBytes 8 v.toNat ++ bs.drop (off + 8)

/-- A token image with a word written: payload words and NULL alone may change (R414); none where another field would. -/
def editToken (bs : List Byte) (off : Nat) (v : Word) : Option (List Byte) :=
  if 16 ≤ off then some (putWord bs off v)
  else if off = 8 ∧ v &&& ~~~8#64 = wordAt bs 8 &&& ~~~8#64 then some (putWord bs off v)
  else none

/-- Whether a region is stopped at a breakpoint or command. -/
def Work.stoppedAt (w : Work) (g : Nat) : Bool := (w.regOf g).stopped

/-- A write of a cell's control window (R86, R171, R177, R414). -/
def Work.cellWrite (w : Work) (mc off : Nat) (v : Word) : Option Work :=
  let c := w.cell mc
  if off = 0 then some (if v.getLsbD 0 then w.setCell mc { c with spilled := false } else w)
  else if 0x100 ≤ off ∧ off < 0x200 then
    let k := (off - 0x100) / 16
    if off % 16 = 0 then some (w.trigger (if v.getLsbD 63 then .mapRegister mc k v else .mapUnmap mc k v))
    else if (c.map k).st = 0 then
      some (w.setCell mc { c with maps := Tbl.put c.maps k { c.map k with nextWord := v &&& 0x3FF007 } })
    else some w
  else if off = 0xC00 then
    if w.stoppedAt (mc / 16) then some (w.setCell mc { c with mssel := fld v 9 0 }) else none
  else if 0xC40 ≤ off ∧ off < 0xC80 then
    match w.stoppedAt (mc / 16), c.entries[c.mssel]? with
    | true, some e =>
      (editToken (tokBytes e.tok) (off - 0xC40) v).map fun bs =>
        let t := tokOfBytes bs e.tok.item e.tok.req
        w.setCell mc { c with entries := setAt c.entries c.mssel { e with tok := { e.tok with payload := t.payload, null := t.null } } }
    | _, _ => none
  else some w

/-- A write of a task core's window: registers by R123 and R173, and the mail ports (R155, R172). A core that stands still
is at an instruction boundary: what waits for it lands first. -/
def Work.coreWrite (w : Work) (src g off : Nat) (v : Word) : Option Work :=
  let c := w.core g
  let still := c.halted || w.stoppedAt g
  if off < 0x100 then
    let n := off / 8
    if n = 0 then some w
    else if still then some (w.setCore g (c.landAll.setReg (bv 5 n) v))
    else if n < 24 then none
    else some (w.setCore g { c with inbound := c.inbound ++ [(n, v)] })
  else if off < 0x300 then some (w.deliverOrHold g ((off - 0x100) / 8) v (src, 0))
  else some w

/-- Bytes given to a drain port: held where they find no room (R230). -/
def Engine.giveDrain (e : Engine) (by_ : Writer) (bs : List Byte) : Engine :=
  if e.drainHeld.isEmpty ∧ e.drain.length + bs.length ≤ 4096 then { e with drain := e.drain ++ bs }
  else { e with drainHeld := e.drainHeld ++ [(by_, bs)] }

/-- Whether a drain port of a module holds bytes of a writer (R230). -/
def Work.drainHolds (w : Work) (by_ : Writer) : Bool :=
  w.groves.any fun x => x.2.engines.any fun e => e.2.drainHeld.any fun h => h.1 == by_

/-- A write of the timeline page: ECSTAT's ERR and the drain ports (R223, R224, R230). -/
def Work.tlWrite (w : Work) (by_ : Writer) (g off : Nat) (v : Word) : Work :=
  let k := off / 8 % 8
  if 0xC0 ≤ off ∧ off < 0x100 then
    if v.getLsbD 63 then
      w.updGrove g fun x =>
        { x with engines := Tbl.put x.engines k { x.engine k with err := false, errc := 0, nerr := 0, errn := 0 } }
    else w
  else if 0x100 ≤ off then
    w.updGrove g fun x => { x with engines := Tbl.put x.engines k ((x.engine k).giveDrain by_ (leBytes 8 v.toNat)) }
  else w

/-- A write of a handle's word (R236); word +24 of a glade's handle stays zero (R367). -/
def Work.handleWrite (w : Work) (g h n : Nat) (v : Word) : Work :=
  let x := (w.grove g).handle h
  match n with
  | 0 => w.trigger (.handleReinit g h false v)
  | 1 => w.trigger (.handleReinit g h true v)
  | 3 => if x.kind = 3 then w else w.setHandle g h { x with w24 := v &&& 0x1FFFFFF }
  | _ => w

/-- The record that a byte of the continuation slots lies in, and its offset there (R414). -/
def recAt : List Record → Nat → Option (Nat × Nat)
  | [], _ => none
  | r :: t, off =>
    let n := 160 * r.size
    if off < n then some (0, off) else (recAt t (off - n)).map fun e => (e.1 + 1, e.2)

/-- A register saved in a record replaced by its slot: bytes 32 to 159 of a record, which a full record fills with G1 to
G16 (R148, R149, R414). -/
def Record.editWord (r : Record) (k : Nat) (v : Word) : Record :=
  if r.full then { r with regs := setAt r.regs (k + 1) v } else { r with regs := setAt r.regs k v }

/-- The record of the `i`-th frozen task that a grove's slots hold changed (R381, R414). -/
def editFrozen (g : Nat) (f : Record → Record) : Nat → List Frozen → List Frozen
  | _, [] => []
  | i, o :: t =>
    if o.okind = 1 ∧ o.grove = g ∧ o.what = 0 ∧ o.task.isSome = true then
      match i with
      | 0 => { o with task := o.task.map f } :: t
      | j + 1 => o :: editFrozen g f j t
    else o :: editFrozen g f i t

/-- A record that a core's continuation slots hold changed, by its place among them (R414). -/
def Work.editSlot (w : Work) (g i : Nat) (f : Record → Record) : Work :=
  let n := (w.core g).slots.length
  if i < n then
    w.updCore g fun c => { c with slots := (c.slots.take i) ++ ((c.slots.drop i).take 1).map f ++ c.slots.drop (i + 1) }
  else w.updRegion (w.rno g) fun x => { x with frozen := editFrozen g f (i - n) x.frozen }

/-- A write of a grove's Flehild page: continuation slots and debug slots at a stop (R414). -/
def Work.flehWrite (w : Work) (g off : Nat) (v : Word) : Option Work :=
  if off < 0x1400 then
    match w.stoppedAt g, recAt (w.slotRecs g) off with
    | true, some (i, o) =>
      if 32 ≤ o ∧ o < 160 then some (w.editSlot g i fun r => r.editWord ((o - 32) / 8) v) else none
    | _, _ => none
  else if 0x2000 ≤ off ∧ off < 0x4000 then
    let mc := 16 * g + (off - 0x2000) / 512
    let o := off % 512
    match w.stoppedAt g, (w.cell mc).debug with
    | true, some t =>
      if o < 0x100 then
        let i := o / 32
        let x := t.temps.getD i TVal.null0
        let ws := setAt (valWords x.bits) (o % 32 / 8) v
        some (w.updCell mc fun c => { c with debug := some { t with temps := setAt t.temps i { x with bits := wordsVal ws } } })
      else if o = 0x100 then
        let ts := (List.range 8).map fun i => { t.temps.getD i TVal.null0 with null := v.getLsbD i }
        some (w.updCell mc fun c => { c with debug := some { t with temps := ts } })
      else none
    | _, _ => none
  else some w

/-- A write of the Flehild block of a loaded region (R406 to R416). -/
def Work.flehBlock (w : Work) (a : Acc) (n off : Nat) (v : Word) : Option Work :=
  let x := w.region n
  if off < 0x8200 then
    let i := (off - 0x8000) / 32
    let k := off % 32 / 8
    let mask : Word := match k with
      | 0 => 0x800000001EFFFFFF
      | 1 => 0x00FFFFFFFFFFFFFF
      | _ => BitVec.allOnes 64
    let old := Tbl.getD x.dbp i [0, 0, 0, 0]
    some (w.setRegion n { x with dbp := Tbl.put x.dbp i (setAt old k (v &&& mask)) })
  else if off < 0x8300 then
    if off % 16 = 0 then
      some (w.setRegion n { x with ibp := Tbl.put x.ibp ((off - 0x8200) / 16) (v &&& 0xC0000FFF0000FFFF) })
    else some w
  else if off = 0x8440 then some (w.askCommand n v)
  else if off = 0x8448 then some (w.setRegion n { x with listVa := fld v 56 6 * 64, listAsid := a.asid })
  else if off = 0x8480 then
    some ((w.tracePost n).updRegion n fun y => { y with trctl := v &&& 0xF000FFFF00FFFFFF })
  else if 0x8500 ≤ off then
    if x.stopped then (editToken x.stopTok (off - 0x8500) v).map fun bs => w.setRegion n { x with stopTok := bs } else none
  else some w

/-- TVEC as written: V, and the handler's PC, which must lie in the supervisor area; a region without a graph keeps it as written (R175, R390). -/
def Region.tvecOf (x : Region) (v : Word) : Word :=
  let pc := fld v 15 2 * 4
  bv 64 (pc + bit (v.getLsbD 63 && (!x.loaded || decide (x.supBase ≤ pc))) 63)

/-- Whether a fault-queue designator breaks its layout for a region; one without groves has no count yet (R175, R238, R383). -/
def Work.badQueue (w : Work) (r : Nat) (v : Word) : Bool :=
  fld v 63 17 != 0 || (if v.getLsbD 16 then (w.region r).loaded && decide (w.ngrove r ≤ fld v 15 8) else fld v 15 8 != 0)

/-- A write of a region's control window (R175, R330, R383, R384, R390). -/
def Work.regionWrite (w : Work) (a : Acc) (n off : Nat) (v : Word) : Option Work :=
  let x := w.region n
  if off = 0x8 then some (w.setRegion n { x with rasid := fld v 5 0 })
  else if off = 0x10 then
    some (if 16 ≤ fld v 5 0 ∧ fld v 5 0 ≤ 32 then w.setRegion n { x with cwdog := fld v 5 0 } else w)
  else if off = 0x20 then some (w.setRegion n { x with rctBase := fld v 55 12 * 4096 })
  else if off = 0x28 then
    some (if w.badQueue n v = true then w else w.trigger (.faultqWrite n (v ||| 0x10000)))
  else if off = 0x30 then some (w.setRegion n { x with tvec := x.tvecOf v })
  else if off = 0x800 then
    let y := (fld v 39 32, fld v 23 0)
    if x.bint = 0 then some (w.setRegion n { x with thr := y.1, bint := y.2, lastBalance := w.mod.cycle })
    else some (w.setRegion n (if x.loaded then { x with balNext := some y } else { x with thr := y.1, bint := y.2 }))
  else if off = 0x818 then some (if x.loaded then w.askRelease n v else w)
  else if 0x8000 ≤ off then (if x.loaded then w.flehBlock a n off v else some w)
  else some w

/-- A field kept where a new value lies out of its range (R347). -/
def inRange (lo hi old v : Nat) : Nat := if lo ≤ v ∧ v ≤ hi then v else old

/-- A write of a capability entry's word (R403). -/
def Cap.write (c : Cap) (i : Nat) (v : Word) : Cap :=
  match i with
  | 0 => { c with v := v.getLsbD 63, holder := fld v 62 57, region := fld v 56 48, rights := fld v 37 32 }
  | 2 => { c with check := v }
  | _ => c

/-- A write of the module control window (R180, R332, R346, R347, R355, R403, R421, R423 to R427, and PCAP). -/
def Work.modWrite (w : Work) (off : Nat) (v : Word) : Work :=
  let m := w.mod
  if off < 0x400 then
    let i := off / 16
    let e := w.asEntry i
    let e1 : Word × Word := if off % 16 = 0 then (v &&& 0x80FFFFFFFFFFF000, e.2) else (e.1, bv 64 (fld v 15 0))
    w.updMod fun m => { m with asTable := Tbl.put m.asTable i e1 }
  else if off = 0x800 then w.updMod fun m => { m with trBase := fld v 55 20 * 2 ^ 20 }
  else if off = 0xC00 then
    w.updMod fun m =>
      { m with remcfg := (inRange 16 28 m.remcfg.1 (fld v 47 40), inRange 64 4096 m.remcfg.2.1 (fld v 31 19),
          inRange 1 32 m.remcfg.2.2 (fld v 5 0)) }
  else if off = 0xC08 then w.updMod fun m => { m with remBase := fld v 55 12 * 4096 }
  else if 0x2000 ≤ off ∧ off < 0x6000 then
    w.updMod fun m => { m with routes := Tbl.put m.routes ((off - 0x2000) / 8) (v &&& 0x9F9F) }
  else if 0x6000 ≤ off ∧ off < 0x7000 then
    if off % 16 = 0 then
      w.updMod fun m => { m with invokeTable := Tbl.put m.invokeTable ((off - 0x6000) / 16) (v &&& 0x801FF00FFFFFFFFF) }
    else w
  else if 0xA800 ≤ off ∧ off < 0xC800 then
    let i := (off - 0xA800) / 32
    w.updMod fun m => { m with caps := Tbl.put m.caps i ((m.cap i).write (off % 32 / 8) v) }
  else if off = 0xC800 then w.trigger .snaptrig
  else if off = 0xD000 then w.updMod fun m => { m with herr := m.herr - (m.herr &&& fld v 2 0) }
  else if 0xD008 ≤ off ∧ off < 0xD020 then
    w.updMod fun m => { m with hwBase := Tbl.put m.hwBase ((off - 0xD000) / 8) (fld v 44 36) }
  else if off = 0xD020 then w.trigger (.hqbaseWrite v)
  else if off = 0xD028 then w.trigger (.hqtailWrite (v.setWidth 32))
  else if off = 0xD138 then w.updMod fun m => { m with attreq := m.attreq || v.getLsbD 0 }
  else if 0xD140 ≤ off ∧ off < 0xD160 then
    if m.attreq then w else w.updMod fun m => { m with nonce := putWord m.nonce (off - 0xD140) v }
  else if off = 0xD200 then w.updMod fun m => { m with pcap := min 3200 (fld v 15 0) }
  else w

/-- A task core waits until the port takes the word it stored: it runs nothing while the port holds words (R172, R230). -/
def Work.portHolds (w : Work) (a : Acc) (p : Nat × Nat × Nat) : Work :=
  if a.core then w.updCore a.grove fun c => { c with portWait := some p } else w

/-- A write of a register word; none where the word refuses it. -/
def Work.placeWrite (w : Work) (a : Acc) (p : Place) (v : Word) : Option Work :=
  match p with
  | .cell mc off => w.cellWrite mc off v
  | .core g off => (w.coreWrite a.grove g off v).map fun w1 =>
      if 0x100 ≤ off ∧ off < 0x300 ∧ ((w1.core g).mailHeld.any fun h => h.chan == (off - 0x100) / 8 && h.src == a.grove && h.desig == 0) = true then
        w1.portHolds a (1, g, (off - 0x100) / 8)
      else w1
  | .tl g off => some (let w1 := w.tlWrite a.writer g off v; if 0x100 ≤ off then w1.portHolds a (0, g, off / 8 % 8) else w1)
  | .handle g off => some (w.handleWrite g (off / 32) (off % 32 / 8) v)
  | .fleh g off => w.flehWrite g off v
  | .region n off => w.regionWrite a n off v
  | .module off => some (w.modWrite off v)
  | _ => some w

/-! ## Accesses by physical address -/

/-- Whether a place holds bytes rather than words (R170). -/
def Place.bytes : Place → Bool
  | .bank _ | .acc _ | .canopy _ | .code _ => true
  | _ => false

/-- Whether a place takes an access of a size at an address (R170). -/
def Place.takes (p : Place) (a : Acc) (la n : Nat) : Bool :=
  if p.bytes then a.engine || ((n == 1 || n == 2 || n == 4 || n == 8) && la % n == 0) else n == 8 && la % 8 == 0

/-- The bytes at a physical address (R168 to R174); a refusal is Permission, and bytes that
cannot be corrected are an Uncorrectable Memory Error (R143, R189, R224). -/
def Work.pread (w : Work) (a : Acc) (pa n : Nat) : Except Nat (List Byte × Work) :=
  let la := pa % 2 ^ 45
  if pa / 2 ^ 45 ≠ w.mod.modNo then .error 0x09
  else if la + n ≤ memTop then
    if (!a.core || !w.l1Serves a.grove la) && w.pspoilt la n then .error 0x0A
    else if a.core then .ok (w.coreLoad a.grove la n) else .ok (w.pbytes la n, w.readTime a.who (w.loc la))
  else
    let p := placeOf la
    if !p.takes a la n || !w.mayAccess a p false 0 then .error 0x09
    else if p.bytes then (if w.spoilt la n then .error 0x0A else .ok (w.bytes la n, w.homeAccess a.who la))
    else
      match w.placeWord p with
      | some v => .ok (leBytes 8 v.toNat, w.homeAccess a.who la)
      | none => .error 0x09

/-- Bytes written at a physical address; a canopy notes a write that no operation of its own module's engines makes, since those
are noted as they complete (R249). -/
def Work.pwrite (w : Work) (a : Acc) (pa : Nat) (bs : List Byte) : Except Nat Work :=
  let la := pa % 2 ^ 45
  let n := bs.length
  if pa / 2 ^ 45 ≠ w.mod.modNo then .error 0x09
  else if la + n ≤ memTop then
    if w.readOnly la then .error 0x09
    else if a.core then .ok (w.coreStore a.grove la bs)
    else .ok ((pstore la bs w).writeTime a.who (w.loc la))
  else
    let p := placeOf la
    let v := bv 64 (leNat bs)
    if !p.takes a la n || !w.mayAccess a p true v || w.waveRefuses a p then .error 0x09
    else if p.bytes then
      let w1 := (w.store la bs).homeAccess a.who la
      match p, a.writer with
      | .canopy _, .engine _ _ => .ok w1
      | .canopy g, _ => .ok (w1.updMx g fun m => { m with overflow := true })
      | _, _ => .ok w1
    else
      match w.placeWord p with
      | none => .error 0x09
      | some _ =>
        match w.placeWrite a p v with
        | some w1 => .ok (w1.homeAccess a.who la)
        | none => .error 0x09

/-! ## Accesses by virtual address -/

/-- One access at a virtual address: its bytes, or the fault code. -/
def Work.vread1 (w : Work) (a : Acc) (va n : Nat) : Except Nat (List Byte × Work) := do
  let (pa, w1) ← w.translate a.grove a.waiter a.asid a.user needR va
  w1.pread a pa n

/-- One store at a virtual address. -/
def Work.vwrite1 (w : Work) (a : Acc) (va : Nat) (bs : List Byte) : Except Nat Work := do
  let (pa, w1) ← w.translate a.grove a.waiter a.asid a.user needW va
  w1.pwrite a pa bs

/-- An address range cut into aligned words of 8 bytes, and single bytes at its ends. -/
def pieces : Nat → Nat → Nat → List (Nat × Nat)
  | 0, _, _ => []
  | fuel + 1, va, n =>
    if n = 0 then []
    else
      let k := if va % 8 = 0 ∧ 8 ≤ n then 8 else 1
      (va, k) :: pieces fuel (va + k) (n - k)

/-- What a range of accesses fails with: the code and the address that met it. -/
abbrev Bad := Nat × Nat

/-- A code with an address. -/
def badAt {α : Type} (va : Nat) : Except Nat α → Except Bad α
  | .ok x => .ok x
  | .error c => .error (c, va)

/-- Bytes of a virtual range, piece by piece. -/
def vreadPieces (a : Acc) : List (Nat × Nat) → Work → Except Bad (List Byte × Work)
  | [], w => .ok ([], w)
  | (va, n) :: t, w => do
    let (bs, w1) ← badAt va (w.vread1 a va n)
    let (cs, w2) ← vreadPieces a t w1
    return (bs ++ cs, w2)

/-- Bytes of a virtual range. -/
def Work.vread (w : Work) (a : Acc) (va n : Nat) : Except Bad (List Byte × Work) := vreadPieces a (pieces n va n) w

/-- Bytes written over a virtual range, piece by piece. -/
def vwritePieces (a : Acc) : List (Nat × Nat) → List Byte → Work → Except Bad Work
  | [], _, w => .ok w
  | (va, n) :: t, bs, w => do
    let w1 ← badAt va (w.vwrite1 a va (bs.take n))
    vwritePieces a t (bs.drop n) w1

/-- Bytes written over a virtual range. -/
def Work.vwrite (w : Work) (a : Acc) (va : Nat) (bs : List Byte) : Except Bad Work :=
  vwritePieces a (pieces bs.length va bs.length) bs w

/-- A virtual range translated and checked without an access. -/
def vcheckPieces (a : Acc) (n : Need) : List (Nat × Nat) → Work → Except Bad Work
  | [], w => .ok w
  | (va, _) :: t, w => do
    let (_, w1) ← badAt va (w.translate a.grove a.waiter a.asid a.user n va)
    vcheckPieces a n t w1

/-- A virtual range checked for a need. -/
def Work.vcheck (w : Work) (a : Acc) (n : Need) (va len : Nat) : Except Bad Work := vcheckPieces a n (pieces len va len) w

/-- A code as a task core's precise fault at an address, or its wait for a walk (R183). -/
def stopAt {α : Type} : Except Bad α → Except Stop α
  | .ok x => .ok x
  | .error (c, va) => .error (if c = walkWait then .walk va else .fault c (bv 64 va) 0)

end Sys2Proof.Machine
end

