-- ==== Sys2Proof/Machine/Loads.lean ====
section
/-! DEFINITION. Loads and stores of task cores and twigs (spec 05 R117 to R119, R121, R141 to R143). -/

namespace Sys2Proof.Machine

/-- The effective address: base plus the offset in units of the access size, modulo 2^64 (R118, R142). -/
def effAddr (base : Word) (o : BitVec 9) (n : Nat) : Nat := (base + o.signExtend 64 * bv 64 n).toNat

/-- A task core's load, checked in the order of R142. -/
def coreLd (d b : BitVec 5) (o : BitVec 9) (n g : Nat) (w : Work) : Except Stop Work := do
  let a := effAddr (w.g g b) o n
  needAt (a % n = 0) 0x03 a
  let (bs, w1) ← stopAt (badAt a (w.vread1 (w.accCore g) a n))
  w1.give g d (bv 64 (leNat bs))

/-- A task core's store, checked in the order of R142. -/
def coreSt (d b : BitVec 5) (o : BitVec 9) (n g : Nat) (w : Work) : Except Stop Work := do
  let a := effAddr (w.g g b) o n
  needAt (a % n = 0) 0x03 a
  let w1 ← stopAt (badAt a (w.vwrite1 (w.accCore g) a (leBytes n (w.g g d).toNat)))
  w1.next g

/-- Whether a twig launched earlier, of the same colour and cell, still runs (R119). -/
def Work.twigWaits (w : Work) (a : Agent) (t : Twig) : Bool :=
  (Tbl.vals (w.cell (agentCell a)).twigs).any fun u => u.colour == t.colour && decide (u.order < t.order)

/-- A twig's memory instruction, decided in the order of R118: nullified, misaligned, out of the bank, held behind an
earlier twig of the colour (R119), a load of bytes that cannot be corrected, or performed. -/
def twigMem (a : Agent) (t : Twig) (addr n lsid : Nat) (load nul : Bool) (onNull : Twig) (perform : Nat → Work → Twig × Work)
    (w : Work) : Work :=
  if nul then w.setTwig a onNull.adv
  else if addr % n ≠ 0 then w.abandon a t 0x03 addr lsid
  else if 0x10000 < addr + n then w.abandon a t 0x09 addr lsid
  else if w.twigWaits a t then w.setTwig a { t with stall := some (t.stall.getD w.mod.cycle) }
  else if load ∧ w.spoilt (bankBase (agentCell a) + addr) n then w.abandon a t 0x0A addr lsid
  else
    let p := bankBase (agentCell a) + addr
    let r := perform p (w.homeAccess (agentWho a) p)
    r.2.setTwig a r.1.adv

/-- A twig's load of `n` bytes (R118, R143). -/
def twigLd (d b l : BitVec 5) (o : BitVec 9) (n : Nat) (vec : Bool) (a : Agent) (w : Work) : Work :=
  match w.twigAt a with
  | none => w
  | some t =>
    let base := t.src b
    twigMem a t (effAddr (base.bits.setWidth 64) o n) n l.toNat true base.null (t.put d TVal.null0 vec)
      (fun p x => (t.put d ⟨bv 256 (leNat (x.bytes p n)), false⟩ vec, x)) w

/-- A twig's store of `n` bytes (R118, R143). -/
def twigSt (d b l : BitVec 5) (o : BitVec 9) (n : Nat) (a : Agent) (w : Work) : Work :=
  match w.twigAt a with
  | none => w
  | some t =>
    let base := t.src b
    let v := t.src d
    twigMem a t (effAddr (base.bits.setWidth 64) o n) n l.toNat false (base.null || v.null) t
      (fun p x => (t, x.store p (leBytes n v.bits.toNat))) w

/-- LD (R141 to R143). -/
def execLd (d b l : BitVec 5) (sz : BitVec 2) (o : BitVec 9) (s : State) : Out :=
  run s fun w =>
    match w.turn with
    | .core _ => coreInstr (.ld d b l sz o) (coreLd d b o (2 ^ sz.toNat)) w
    | a => twigLd d b l o (2 ^ sz.toNat) false a w

/-- ST (R141 to R143). -/
def execSt (d b l : BitVec 5) (sz : BitVec 2) (o : BitVec 9) (s : State) : Out :=
  run s fun w =>
    match w.turn with
    | .core _ => coreInstr (.st d b l sz o) (coreSt d b o (2 ^ sz.toNat)) w
    | a => twigSt d b l o (2 ^ sz.toNat) a w

/-- LDV: 32 bytes (R143); a task core takes it as illegal (R80). -/
def execLdv (d b l : BitVec 5) (o : BitVec 9) (s : State) : Out :=
  run s fun w =>
    match w.turn with
    | .core _ => coreRun (fun _ _ => .error (flt 0x01)) w
    | a => twigLd d b l o 32 true a w

/-- STV: 32 bytes (R143); a task core takes it as illegal (R80). -/
def execStv (d b l : BitVec 5) (o : BitVec 9) (s : State) : Out :=
  run s fun w =>
    match w.turn with
    | .core _ => coreRun (fun _ _ => .error (flt 0x01)) w
    | a => twigSt d b l o 32 a w

end Sys2Proof.Machine
end

