-- ==== Sys2Proof/Machine/Atomics.lean ====
section
/-! DEFINITION. Updates of owners and default owners, AMO and CAS, timelines and FENCE (spec 08 R196, R202, R207 to R210). -/

namespace Sys2Proof.Machine

/-! ## Updates (R202) -/

/-- The new value of an update: operation 0 to 7 on an element of a type (R202). -/
def updateOp (op : Nat) (t : BitVec 3) (old v : Nat) : Nat :=
  let f := t.toNat = 4
  let n := bv 64 old
  let m := bv 64 v
  let w := 2 ^ opW t
  match op with
  | 0 => (old + v) % w
  | 1 => if f then fmtF32.round (Num.pick false (fmtF32.decode old) (fmtF32.decode v)) else if opV t n ≤ opV t m then old else v
  | 2 => if f then fmtF32.round (Num.pick true (fmtF32.decode old) (fmtF32.decode v)) else if opV t n ≤ opV t m then v else old
  | 3 => (n &&& m).toNat
  | 4 => (n ||| m).toNat
  | 5 => (n ^^^ m).toNat
  | 6 => v
  | _ => fmtF32.round ((fmtF32.decode old).add (fmtF32.decode v))

/-- The bytes of an element type. -/
def opBytes (t : BitVec 3) : Nat := opW t / 8

/-- An old value as a result shows it: extended by its type, an f32 by zeros (R67, R202, R207). -/
def oldWord (t : BitVec 3) (n : Nat) : Word := if t.toNat = 4 then bv 64 (n % 2 ^ 32) else extW t n

/-- One indivisible read and write at the home of a physical address (R192, R207): module memory, a mapped range, or a
bank's window; any other window refuses it, and an old value that cannot be corrected is an Uncorrectable Memory Error. `f` gives the new value, none for no write. -/
def Work.atomicAt (w : Work) (a : Acc) (pa n : Nat) (f : Nat → Option Nat) : Except Nat (Nat × Work) :=
  let la := pa % 2 ^ 45
  if pa / 2 ^ 45 ≠ w.mod.modNo then .error 0x09
  else if la + n ≤ memTop then
    let old := w.pload la n
    if w.readOnly la then .error 0x09
    else if w.pspoilt la n then .error 0x0A
    else
      match f old with
      | some v =>
        if a.core then .ok (old, w.coreStore a.grove la (leBytes n v))
        else .ok (old, (pstore la (leBytes n v) w).writeTime a.who (w.loc la))
      | none => .ok (old, w.writeTime a.who (w.loc la))
  else
    match placeOf la with
    | .bank g =>
      let old := w.load la n
      if w.waveRefuses a (.bank g) then .error 0x09
      else if w.spoilt la n then .error 0x0A
      else
        match f old with
        | some v => .ok (old, (w.store la (leBytes n v)).homeAccess a.who la)
        | none => .ok (old, w.homeAccess a.who la)
    | _ => .error 0x09

/-- One indivisible read and write at a virtual address. -/
def Work.atomic (w : Work) (a : Acc) (va n : Nat) (f : Nat → Option Nat) : Except Nat (Nat × Work) := do
  let (pa, w1) ← w.translate a.grove a.waiter a.asid a.user needRW va
  w1.atomicAt a pa n f

/-- AMO (R207). -/
def execAmo (d a b o : BitVec 5) (t : BitVec 3) (s : State) : Out :=
  run s (coreInstr (.amo d a b o t) fun g w => do
    let va := (w.g g a).toNat
    let n := opBytes t
    needAt (va % n = 0) 0x03 va
    let v := opU t (w.g g b)
    let (old, w1) ← stopAt (badAt va (w.atomic (w.accCore g) va n fun old => some (updateOp o.toNat t old v)))
    w1.give g d (oldWord t old))

/-- CAS: the swap is made only where the old value equals d (R207). -/
def execCas (d a b : BitVec 5) (t : BitVec 3) (s : State) : Out :=
  run s (coreInstr (.cas d a b t) fun g w => do
    let va := (w.g g a).toNat
    let n := opBytes t
    needAt (va % n = 0) 0x03 va
    let want := opU t (w.g g d)
    let v := opU t (w.g g b)
    let (old, w1) ← stopAt (badAt va (w.atomic (w.accCore g) va n fun old => if old = want then some v else none))
    w1.give g d (oldWord t old))

/-! ## Timelines (R209, R210) -/

/-- A designator of a grove's unit: OTHER in bit 4, GROVE in [15:8], a number in [3:0]; none where it breaks R209. -/
def Work.designator (w : Work) (g : Nat) (x : Word) : Option (Nat × Nat) :=
  if fld x 63 16 ≠ 0 ∨ fld x 7 5 ≠ 0 then none
  else if x.getLsbD 4 then
    if fld x 15 8 < w.ngrove (w.rno g) then (w.mgrove (w.rno g) (fld x 15 8)).map fun m => (m, fld x 3 0) else none
  else if fld x 15 8 = 0 then some (g, fld x 3 0) else none

/-- A timeline counter: TL0 to TL7, or TLM. -/
def Work.timeline (w : Work) (g t : Nat) : Nat := if t < 8 then ((w.grove g).engine t).tl else (w.mx g).tlm

/-- The timeline that a designator names, or Permission (R209). -/
def Work.timelineAt (w : Work) (g : Nat) (x : Word) : Except Stop (Nat × Nat) :=
  match w.designator g x with
  | some (m, t) => if t ≤ 8 then .ok (m, t) else .error (flt 0x09)
  | none => .error (flt 0x09)

/-- WAITTL (R210): at once where the counter holds the value, else suspended; an acquire (R196). -/
def execWaittl (d a b : BitVec 5) (s : State) : Out :=
  run s (coreInstr (.waittl d a b) fun g w => do
    let (m, t) ← w.timelineAt g (w.g g b)
    let v := w.timeline m t
    if (w.g g a).toNat ≤ v then (w.acquire g).give g d (bv 64 v)
    else w.suspend g 4 ((w.g g b).toNat % 65536) (some a) d (w.core g).pc4 false)

/-- TLRD (R210). -/
def execTlrd (d b : BitVec 5) (s : State) : Out :=
  run s (coreInstr (.tlrd d b) fun g w => do
    let (m, t) ← w.timelineAt g (w.g g b)
    (w.acquire g).give g d (bv 64 (w.timeline m t)))

/-- Records that wait for a timeline to reach their value become runnable with the counter (R150, R210). -/
def Work.wakeTimeline (w : Work) (g t : Nat) : Work :=
  let r := w.rno g
  let v := w.timeline g t
  let now := w.mod.cycle
  let names : Record → Bool := fun x =>
    x.wobj % 16 == t &&
      (if x.wobj / 16 % 2 = 1 then w.mgrove r (x.wobj / 256) == some g else x.home == g)
  w.mapRecs r (fun x => x.wait == 4 && names x && decide (x.value.toNat ≤ v)) fun x => (x.setReg x.dreg (bv 64 v)).wake now

/-! ## FENCE (R208) -/

/-- The status of a set of lost modules (R208). -/
def lostStatus (ms : List Nat) : Word :=
  match ms with
  | [] => 0
  | m :: t => bv 64 (2 ^ 63 + (t.foldl min m) * 2 ^ 32 + (m :: t).length)

/-- Whether a remote store or atomic of a core is outstanding (R208). -/
def Work.fenceWaits (w : Work) (g : Nat) : Bool :=
  !(w.storesOut g).isEmpty

/-- FENCE's completion for requests of core `home`, run on core `g`: the reported set goes to PLMASK, and the mask is
cleared (R208). -/
def Work.fenceDone (w : Work) (home g : Nat) : Word × Work :=
  let ms := (w.core home).lost
  (lostStatus ms, (w.updCore g fun c => { c with plmask := ms }).updCore home fun c => { c with lost := [] })

/-- FENCE (R208). -/
def execFence (d : BitVec 5) (s : State) : Out :=
  run s (coreInstr (.fence d) fun g w =>
    if w.fenceWaits g then w.suspend g 9 0 none d (w.core g).pc4 false
    else
      let r := w.fenceDone g g
      r.2.give g d r.1)

end Sys2Proof.Machine
end

