-- ==== Sys2Proof/Machine/Requests.lean ====
section
/-! DEFINITION. Memory nodes and their chains, address generators, and owners with the nodes that send them updates (spec
07 R185 to R189; 08 R200 to R206). -/

namespace Sys2Proof.Machine

/-! ## Accesses of memory nodes and generators (R189) -/

/-- What an access of a node comes to: it waits for a translation, it fails, or it is done with the bytes read. -/
inductive Got where
  | wait (w : Work)
  | bad (code : Nat) (w : Work)
  | done (bs : List Byte) (w : Work)

/-- An access cut at 16 bytes, so that each piece lies in one page. -/
def nodePieces (a n : Nat) : List (Nat × Nat) :=
  if n ≤ 16 then [(a, n)] else (List.range (n / 16)).map fun i => (a + 16 * i, 16)

/-- The physical addresses of pieces of virtual addresses, if each translates now (R183). -/
inductive Places where
  | wait (w : Work)
  | bad (code : Nat) (w : Work)
  | ok (pas : List (Nat × Nat)) (w : Work)

/-- Pieces whose pages are known checked against them, in order (R182). -/
def nodeThrough (a : Waiter) (asid : Nat) (n : Need) : List (Nat × Nat) → Work → Places
  | [], w => .ok [] w
  | (va, k) :: t, w =>
    match w.translateLater a asid n va with
    | .wait w1 => .wait w1
    | .bad c w1 => .bad c w1
    | .ok pa w1 =>
      match nodeThrough a asid n t w1 with
      | .ok ps w2 => .ok ((pa, k) :: ps) w2
      | r => r

/-- Pieces translated, every one before a page refuses any (R189). -/
def nodeXlate (a : Waiter) (asid : Nat) (n : Need) (ps : List (Nat × Nat)) : List (Nat × Nat) → Work → Places
  | [], w => nodeThrough a asid n ps w
  | (va, _) :: t, w =>
    match w.findXlat a asid va with
    | (none, w1) => .wait w1
    | (some (.error c), w1) => .bad c w1
    | (some (.ok _), w1) => nodeXlate a asid n ps t w1

/-- What pieces that cannot all be accessed fail with: a refusal of any comes before an error in the bytes of another (R189). -/
def worstOf (ok : Nat × Nat → Except Nat Unit) (ps : List (Nat × Nat)) (code : Nat) : Nat :=
  if ps.any fun p => match ok p with
    | .error c => c == 0x09
    | .ok _ => false
  then 0x09 else code

/-- Pieces read in order. -/
def nodeRead (a : Acc) : List (Nat × Nat) → Work → Except Nat (List Byte × Work)
  | [], w => .ok ([], w)
  | (pa, k) :: t, w => do
    let (bs, w1) ← w.pread a pa k
    let (cs, w2) ← nodeRead a t w1
    return (bs ++ cs, w2)

/-- Pieces written in order. -/
def nodeWrite (a : Acc) : List (Nat × Nat) → List Byte → Work → Except Nat Work
  | [], _, w => .ok w
  | (pa, k) :: t, bs, w => do
    let w1 ← w.pwrite a pa (bs.take k)
    nodeWrite a t (bs.drop k) w1

/-- An access of `n` bytes by an agent of a cell (a kind and a number): its own bank (route 0), module memory by virtual address
(1), or its grove's canopy (2), with the bytes to write, if it writes (R185, R187, R189, R191). -/
def nodeAccess (me : Waiter) (kind num route a n : Nat) (wr : Option (List Byte)) (w0 : Work) : Got :=
  let mc := me.cell
  let who : Who := .agent mc kind num
  let w := w0.startAgent who
  let near : Nat → Got := fun p =>
    match wr with
    | none => if w.spoilt p n then .bad 0x0A w else .done (w.bytes p n) (w.homeAccess who p)
    | some bs => .done [] ((w.store p (bs.take n)).homeAccess who p)
  if route = 0 then (if a + n ≤ 0x10000 then near (bankBase mc + a) else .bad 0x09 w)
  else if route = 2 then (if a + n ≤ 0x1000000 then near (canopyBase (mc / 16) 0 + a) else .bad 0x09 w)
  else
    let acc := w.accAgent mc kind num
    let pieces := nodePieces a n
    match nodeXlate me acc.asid (if wr.isSome then needW else needR) pieces pieces w with
    | .wait w1 => .wait w1
    | .bad c w1 => .bad c w1
    | .ok ps w1 =>
      match wr with
      | none =>
        match nodeRead acc ps w1 with
        | .ok (bs, w2) => .done bs w2
        | .error c => .bad (worstOf (fun p => (w1.pread acc p.1 p.2).map fun _ => ()) ps c) w1
      | some bs =>
        match nodeWrite acc ps bs w1 with
        | .ok w2 => .done [] w2
        | .error c => .bad c w1

/-- An object frozen at a node of a cell, with the AUX its record shows and the number it keeps (R381, R382). -/
def Work.freezeAt (w : Work) (okind mc node : Nat) (c : BitVec 12) (i : BitVec 16) (code : Nat)
    (toks : List (Nat × Token)) (addr aux : Word) (what keep : Nat) : Work :=
  let g := mc / 16
  w.freezeObj (w.rno g)
    { fseq := 0, okind := okind, code := code, stuck := false, grove := g, cell := mc, node := node, colour := c,
      iter := i, toks := toks, task := none, what := what, aux := keep }
    { w.blank g code with
      cell := some (mc % 16), node := w.nodeField mc node 0, tag := tagField c i, addr := addr, aux := aux }

/-! ## Requests and chains (R187, R188) -/

/-- The access size of a memory node by type (R187). -/
def memSize (t : BitVec 3) : Nat :=
  match t.toNat with
  | 0 | 1 | 5 => 8
  | 7 => 32
  | 6 => 48
  | _ => 4

/-- The alignment that an access of a size needs (R185, R187). -/
def memAlign (n : Nat) : Nat := if n = 48 then 16 else n

/-- OSUCC of an ordered record's literal (R187). -/
def litSucc (r : NRec) : Nat :=
  let d := litF r 31 24
  if d = 0 then 0 else if d = 255 then 0xFFF else litF r 11 0 + d

/-- A request of a firing, numbered when it is issued. -/
def memReq (f : Fire) (x : Inst) (store : Bool) (data : List Word) : MemReq where
  id := 0
  node := f.node
  record := x.r
  colour := f.colour
  iter := f.iter
  seq := (x.tok 0).seq
  store := store
  addr := tokW (x.tok 0) 0
  data := data
  null := x.anyNull
  unord := osb0 x.r
  oseq := if osb0 x.r then 0 else litF x.r 11 0
  opred := if osb0 x.r then 0 else litF x.r 23 12
  osucc := if osb0 x.r then 0 else litSucc x.r
  ins := x.toks.map Prod.snd
  waiting := false

/-- The chain of a colour and iteration. -/
def Cell.chain (c : Cell) (k : BitVec 12) (i : BitVec 16) : Option Chain :=
  c.chains.find? fun x => x.colour == k && x.iter == i

/-- A chain opened where it is not open and fewer than 256 are (R188). -/
def Cell.openChain (c : Cell) (k : BitVec 12) (i : BitVec 16) : Cell :=
  if (c.chain k i).isSome ∨ 256 ≤ c.chains.length then c
  else { c with chains := c.chains ++ [⟨k, i, 0, 0xFFF⟩] }

/-- Whether a chain lets a request be performed (R188). -/
def Chain.admits (x : Chain) (q : MemReq) : Bool :=
  q.opred == x.last || (q.opred == 0xFFF && x.lastsucc == q.oseq)

/-- The chain after a request of it; it closes where the request ends it (R188). -/
def Cell.advance (c : Cell) (q : MemReq) : Cell :=
  if q.unord then c
  else
    let mine : Chain → Bool := fun x => x.colour == q.colour && x.iter == q.iter
    { c with chains :=
        if q.osucc = 0 then c.chains.filter fun x => !mine x
        else c.chains.map fun x => if mine x then { x with last := q.oseq, lastsucc := q.osucc } else x }

/-- A firing that issues a request: its entries are freed, its tokens stay with the request (R187, R274). -/
def issueNode (opc : Nat) (mk : Fire → Inst → MemReq) (f : Fire) (w : Work) : Work :=
  match (w.cell f.cell).inst f with
  | none => w
  | some x =>
    if nOpc x.r = opc ∧ w.chosen f = true then
      (w.updCell f.cell fun c =>
        let q := { mk f x with id := c.reqSeq }
        let c1 := { c.freeEntries x.ids with reqs := c.reqs ++ [q], reqSeq := c.reqSeq + 1 }
        if q.unord then c1 else c1.openChain f.colour f.iter).traced f.cell true (fireToken f x (w.logical f.cell))
    else w

/-- NLD (R187). -/
def execNld (s : State) : Out := run s (issueNode 0x21 (fun f x => memReq f x false []) s.fire)

/-- NST (R187). -/
def execNst (s : State) : Out :=
  run s (issueNode 0x22 (fun f x => memReq f x true ((List.range 6).map (tokW (x.tok 1)))) s.fire)

/-- Whether a request may not go on now: its region does not run, or its chain or its colour at its node is frozen (R36,
R189, R381). -/
def Work.reqHeld (w : Work) (mc : Nat) (q : MemReq) : Bool :=
  let reg := w.regOf (mc / 16)
  q.waiting || !reg.runs || w.isFrozenAt mc q.node q.colour ||
    (!q.unord && reg.frozen.any fun o => o.okind == 3 && o.cell == mc && o.colour == q.colour && o.iter == q.iter)

/-- Whether a request's place in its chain has come (R188). -/
def Cell.reqDue (c : Cell) (q : MemReq) : Bool :=
  q.unord ||
    match c.chain q.colour q.iter with
    | some x => x.admits q
    | none => false

/-- A request that is performed leaves: its chain advances, its outputs are placed, its tokens' counts released. -/
def Work.endReq (w : Work) (mc : Nat) (q : MemReq) (outs : List Token) : Work :=
  releaseToks (mc / 16) q.ins
    (w.updCell mc fun c => ({ c with reqs := c.reqs.filter fun p => p.id != q.id }.advance q).emit outs)

/-- A faulting request: its chain freezes, or its colour at its node where it is unordered (R189). -/
def Work.freezeReq (w : Work) (mc : Nat) (q : MemReq) (code : Nat) : Work :=
  w.freezeAt (if q.unord then 2 else 3) mc q.node q.colour q.iter code [] q.addr (bv 64 q.oseq) 2 q.id

/-- The tokens that a load's bytes make (R187). -/
def loadOuts (q : MemReq) (bs : List Byte) : List Token :=
  let t := nType q.record
  let ws : List Word :=
    if t.toNat = 7 then wordsOf 4 bs
    else if t.toNat = 6 then wordsOf 6 bs
    else if memSize t = 8 then [bv 64 (leNat bs)]
    else [oldWord t (leNat bs)]
  both q.record fun d =>
    { mkTok d q.colour q.iter q.seq (nPrio q.record) ws with kind := if t.toNat = 6 then 1 else 0 }

/-- The agent that performs a request: its chain, or the request alone (R188, R191). -/
def MemReq.agent (q : MemReq) : Nat × Nat :=
  if q.unord then (2, q.id) else (1, q.colour.toNat + 4096 * q.iter.toNat)

/-- A request's agent sends its tokens; it is no more where it was the request's own, or its chain closes (R188, R191). -/
def Work.reqSends (w : Work) (mc : Nat) (q : MemReq) : Work :=
  let who : Who := .agent mc q.agent.1 q.agent.2
  let w1 := w.agentSends who
  if q.unord ∨ q.osucc = 0 then w1.endAgent who else w1

/-- A load or store request performed now (R187, R189). -/
def Work.performAccess (w : Work) (mc : Nat) (q : MemReq) : Work :=
  let n := memSize (nType q.record)
  let a := q.addr.toNat
  let route := if osb1 q.record then 1 else 0
  if a % memAlign n ≠ 0 then w.freezeReq mc q 0x03
  else
    match nodeAccess ⟨mc, 0, q.id⟩ q.agent.1 q.agent.2 route a n (if q.store then some ((bytesOf q.data).take n) else none) w with
    | .wait w1 => w1
    | .bad c w1 => w1.freezeReq mc q c
    | .done bs w1 =>
      (w1.reqSends mc q).endReq mc q (if q.store then both q.record fun d => mkTok d q.colour q.iter q.seq (nPrio q.record) [q.addr]
        else loadOuts q bs)

/-- An owner-update token (R202): reply kind 1 asks for the old value, 2 for an acknowledgement. -/
def mkUpdate (dest : BitVec 24) (c : BitVec 12) (i : BitVec 16) (seq : BitVec 8) (prio : Nat) (a v : Word)
    (op reply : Nat) (back : BitVec 24) : Token :=
  { mkTok dest c i seq prio [a, v, bv 64 (op + reply * 8 + back.toNat * 256)] with kind := 5 }

/-- The update that an NATOM request sends; the fields of a triple are zero in it (R75, R202, R205). `req` is the request that
waits for the owner to apply it. -/
def natomUpdate (q : MemReq) (req : Option (Nat × Nat)) : Token :=
  { mkUpdate (nDstA q.record) q.colour q.iter q.seq (nPrio q.record) q.addr (q.data.getD 0 0) (nType q.record).toNat 1
      (nDstB q.record) with req := req }

/-- The null tokens of a nullified request (R188, R205). -/
def nullOuts (q : MemReq) : List Token :=
  let mk : BitVec 24 → Token := fun d => mkNull d q.colour q.iter q.seq (nPrio q.record)
  if nOpc q.record = 0x25 then [mk (nDstB q.record)] else both q.record mk

/-- The tokens that a request sends as it is performed. -/
def MemReq.sends (q : MemReq) : Nat :=
  if nOpc q.record = 0x25 then (if q.null then dests [nDstB q.record] else dests [nDstA q.record]) else dests [nDstA q.record, nDstB q.record]

/-- A request whose place has come. An NATOM's update leaves, and the request waits for the owner (R205). -/
def Work.performReq (w : Work) (mc : Nat) (q : MemReq) : Work :=
  if q.null then w.endReq mc q (nullOuts q)
  else if nOpc q.record = 0x25 then
    (w.agentSends (.agent mc q.agent.1 q.agent.2)).updCell mc fun c =>
      let rs := c.reqs.map fun (p : MemReq) => if p.id = q.id then { p with waiting := true } else p
      { c with reqs := rs }.emit [natomUpdate q (some (w.logical mc, q.id))]
  else w.performAccess mc q

/-- ORDERED_REQUEST_PERFORM: a request at a cell's memory interface is performed once its chain lets it and its outputs
have room; an unordered one at any time (R188, R189). -/
def execOrderedRequestPerform (cell req : Nat) (s : State) : Out :=
  run s fun w0 =>
    match (w0.cell cell).reqs.find? fun q => q.id == req with
    | none => w0
    | some q =>
      if w0.reqHeld cell q then w0
      else
        let w := if q.unord then w0 else w0.updCell cell fun c => c.openChain q.colour q.iter
        let c := w.cell cell
        if c.reqDue q ∧ c.room (reserved (Tbl.vals c.twigs) + q.sends) = true then w.performReq cell q else w

/-! ## Reductions and returning atomics (R204, R205) -/

/-- NRED: an update without a reply, or acknowledged to DSTB (R204). -/
def execNred (s : State) : Out :=
  run s (fireNode 0x24 (fun f x w =>
    if x.anyNull then .done [mkNull (nDstB x.r) f.colour f.iter (x.tok 0).seq (nPrio x.r)] w
    else
      let back := nDstB x.r
      .done [mkUpdate (nDstA x.r) f.colour f.iter (x.tok 0).seq (nPrio x.r) (tokW (x.tok 0) 0) (tokW (x.tok 1) 0)
        (nType x.r).toNat (if back = noDst then 0 else 2) (if back = noDst then 0 else back)] w) s.fire)

/-- NATOM: unordered, its update leaves at once; ordered, its request enters its chain (R205). -/
def execNatom (s : State) : Out :=
  run s fun w =>
    let f := w.fire
    let mk : Fire → Inst → MemReq := fun g x => memReq g x true [tokW (x.tok 1) 0]
    if osb0 ((w.cell f.cell).node f.node) then
      fireNode 0x25 (fun g x v =>
        .done [if x.anyNull then mkNull (nDstB x.r) g.colour g.iter (x.tok 0).seq (nPrio x.r)
          else natomUpdate (mk g x) none] v) f w
    else issueNode 0x25 mk f w

/-! ## Owners (R201 to R203) -/

/-- Whether an update's operation suits the owner's type (R202). -/
def updateOk (t : BitVec 3) (op : Nat) : Bool := if t.toNat = 4 then !([0, 3, 4, 5].contains op) else op != 7

/-- An update applied to its element: the old value. -/
inductive Owned where
  | wait (w : Work)
  | bad (code : Nat) (w : Work)
  | done (old : Nat) (w : Work)

/-- An update of an owner performed as one indivisible read and write (R192, R201, R202). -/
def ownerApply (mc id node : Nat) (r : NRec) (a op : Nat) (v : Word) (w0 : Work) : Owned :=
  let t := nType r
  let who : Who := .agent mc 4 node
  let w := w0.startAgent who
  let n := opBytes t
  let new : Nat → Nat := fun old => updateOp op t old (opU t v)
  if osb0 r then
    let acc := w.accAgent mc 4 node
    match w.translateLater ⟨mc, 2, id⟩ acc.asid needW a with
    | .wait w1 => .wait w1
    | .bad c w1 => .bad c w1
    | .ok pa w1 =>
      match w1.atomicAt acc pa n fun old => some (new old) with
      | .ok (old, w2) => .done old w2
      | .error c => .bad c w1
  else
    let p := bankBase mc + a
    let old := w.load p n
    .done old ((w.store p (leBytes n (new old))).homeAccess who p)

/-- The reply that an update asks for (R202). -/
def updateReply (r : NRec) (t : Token) (old : Nat) : List Token :=
  let x := tokW t 2
  let mk : Word → Token := fun v => mkTok (bv 24 (fld x 31 8)) t.colour t.iter t.seq (nPrio r) [v]
  match fld x 4 3 with
  | 1 => [mk (oldWord (nType r) old)]
  | 2 => [mk (tokW t 0)]
  | _ => []

/-- The ordered NATOM that sent an update counts as performed at a time of its owner, and its chain advances (R205). -/
def Work.natomDone (w : Work) (r time : Nat) (t : Token) : Work :=
  match t.req.bind fun e => (w.lcell r e.1).map fun mc => (mc, e.2) with
  | none => w
  | some (mc, id) =>
    match (w.cell mc).reqs.find? fun q => q.waiting && q.id == id with
    | some q => ((w.follow (.agent mc q.agent.1 q.agent.2) time).reqSends mc q).endReq mc q []
    | none => w

/-- NOWN: one update, applied in the order it entered, or its fault: of the requester's colour, or of the whole queue
where a memory route's translation fails (R201 to R203). A null update, and an element that runs past its range's end, fault
(log entry 101). -/
def execNown (s : State) : Out :=
  run s fun w =>
    let f := w.fire
    let mc := f.cell
    match (w.cell mc).inst f with
    | none => w
    | some x =>
      if nOpc x.r = 0x23 ∧ w.chosen f = true then
        let t := x.tok 0
        let u := tokW t 2
        let a := (tokW t 0).toNat
        let range := Tbl.getD (w.cell mc).owners ((w.cell mc).key f.node) (0, 0)
        let n := opBytes (nType x.r)
        let bad : Nat → Work → Work := fun code v => v.freezeNode mc f.node f.colour f.iter code x.toks (tokW t 0) 0 1
        if t.null ∨ fld u 7 5 ≠ 0 ∨ fld u 63 32 ≠ 0 ∨ fld u 4 3 = 3 ∨ updateOk (nType x.r) (fld u 2 0) = false then
          bad 0x11 w
        else if a % n ≠ 0 then bad 0x03 w
        else if a < range.1 ∨ range.2 < a + n then bad 0x09 w
        else
          match ownerApply mc f.entry f.node x.r a (fld u 2 0) (tokW t 1) w with
          | .wait w1 => w1
          | .bad c w1 =>
            if c = 0x09 then bad c w1
            else
              (w1.freezeAt 4 mc f.node f.colour f.iter c x.toks (tokW t 0) 0 1 0).updCell mc fun k =>
                { k with ownerFrozen := k.ownerFrozen ++ [f.node] }
          | .done old w1 =>
            let who : Who := .agent mc 4 f.node
            let w2 := (w1.agentSends who).updCell mc fun c => (c.freeEntries x.ids).emit (updateReply x.r t old)
            ((releaseToks (mc / 16) (x.toks.map Prod.snd) w2).natomDone (w.rno (mc / 16)) (w2.ptime who) t).traced mc true
              (fireToken f x (w.logical mc))
      else w

/-! ## Address generators (R185, R186) -/

/-- A generator of a cell. -/
def Cell.gen (c : Cell) (u : Nat) : Gen := Tbl.getD c.gens u Gen.reset

/-- A generator of a cell set. -/
def Work.setGen (w : Work) (mc u : Nat) (g : Gen) : Work := w.updCell mc fun c => { c with gens := Tbl.put c.gens u g }

/-- A generator started by a trigger: a shape loaded since its last trigger sets CUR and the extents anew (R185, R393). -/
def Gen.start (g : Gen) (shape : BitVec 512) (f : Fire) (x : Inst) : Gen :=
  { g with
    cur := if g.fresh then bv 64 (shBase shape) else g.cur
    fresh := false
    shape := shape
    extents := if g.fresh then (List.range 4).map (shExtent shape) else g.extents
    busy := true
    node := f.node
    record := x.r
    colour := f.colour
    iter := f.iter
    round := 0
    index := []
    count := 0
    inRound := false
    ins := x.toks.map Prod.snd
    wait := none
    got := none }

/-- NAG: a trigger starts the generator on its rounds; a null one sends a null to B (R185). -/
def execNag (s : State) : Out :=
  run s fun w =>
    let f := w.fire
    match (w.cell f.cell).inst f with
    | none => w
    | some x =>
      if nOpc x.r = 0x20 ∧ w.chosen f = true then
        if x.anyNull then
          let w1 := w.updCell f.cell fun c =>
            (c.freeEntries x.ids).emit [mkNull (nDstB x.r) f.colour f.iter (x.tok 0).seq (nPrio x.r)]
          (releaseToks (f.cell / 16) (x.toks.map Prod.snd) w1).traced f.cell true (fireToken f x (w.logical f.cell))
        else
          let u := litF x.r 6 5
          let c := w.cell f.cell
          ((w.setGen f.cell u ((c.gen u).start (c.shape (litF x.r 4 0)) f x)).updCell f.cell fun k =>
            k.freeEntries x.ids).traced f.cell true (fireToken f x (w.logical f.cell))
      else w

/-- A generator after a held parameter (R186). -/
def Gen.apply (g : Gen) (p : Nat × Word) : Gen :=
  if p.1 = 0 then { g with cur := p.2 } else { g with extents := setAt g.extents (p.1 - 1) (p.2.toNat % 2 ^ 24) }

/-- A round begun: held parameters apply in arrival order; a zero extent gives an empty round (R185). -/
def Gen.begin (g : Gen) : Gen :=
  let g1 := { (g.params.foldl Gen.apply g) with params := [], inRound := true, count := 0 }
  let ex := g1.extents.take (shNdim g1.shape)
  { g1 with index := if ex.any fun e => e == 0 then [] else List.replicate ex.length 0 }

/-- The next index of a walk, dimension 0 fastest; empty at its end. -/
def nextIndex : List Nat → List Nat → List Nat
  | i :: is, e :: es =>
    if i + 1 < e then (i + 1) :: is
    else
      match nextIndex is es with
      | [] => []
      | js => 0 :: js
  | _, _ => []

/-- The address of a generator's element (R185). -/
def Gen.addr (g : Gen) : Nat :=
  let off : Int := (((List.range g.index.length).map fun d => (g.index.getD d 0 : Int) * shStride g.shape d).sum)
  wrap 64 ((g.cur.toNat : Int) + off)

/-- The generator past an element. -/
def Gen.past (g : Gen) : Gen := { g with index := nextIndex g.index g.extents, count := g.count + 1, wait := none, got := none }

/-- The token that a loaded element makes (R185). -/
def Gen.element (g : Gen) (bs : List Byte) : Token :=
  let n := shSize g.shape
  { mkTok (nDstA g.record) g.colour g.iter (bv 8 g.count) (nPrio g.record) (wordsOf ((n + 7) / 8) bs) with
    kind := if n = 48 then 1 else 0 }

/-- The first data token held for a generator's colour (R185). -/
def Cell.genData (c : Cell) (g : Gen) : Option Entry :=
  c.entries.find? fun e => e.node == g.node && e.port == 1 && e.tok.colour == g.colour

/-- The request of a generator's remote element (R185, R347). -/
def Work.genRequest (w : Work) (mc : Nat) (g : Gen) (s : Stream) (data : Option (List Byte)) : Work :=
  let asid := (w.regOf (mc / 16)).rasid
  let op := if data.isSome then 1 else 0
  w.sendReq s
    { OutReq.blank with
      op := op, size := shSize g.shape, addr := g.addr, asid := asid, node := g.node, colour := g.colour, iter := g.iter,
      record := g.record }
    { target := s.target, source := w.mod.modNo, srcCell := true, srcAgent := mc, ident := 0, op := op, amo := 0, type := 0, asid := asid,
      super := false, addr := g.addr, size := shSize g.shape, data := data.getD [], entry := 0, seq := 0 }

/-- A generator's element meets a fault: its colour freezes at its node, and it keeps its round and index (R189). -/
def Work.genFault (w : Work) (mc u : Nat) (g : Gen) (code : Nat) : Work :=
  w.freezeAt 2 mc g.node g.colour g.iter code [] (bv 64 g.addr) (bv 64 g.count) 3 u

/-- A loaded element sent on, where the output queue has room (R94, R185). -/
def Work.genEmit (w : Work) (mc u : Nat) (g : Gen) (bs : List Byte) : Work :=
  ((w.setGen mc u g.past).agentSends (.agent mc 3 u)).updCell mc fun c => c.emit [g.element bs]

/-- A load element (R185, R189). -/
def Work.genLoad (w : Work) (mc u : Nat) (g : Gen) : Work :=
  let c := w.cell mc
  let n := shSize g.shape
  if c.room (reserved (Tbl.vals c.twigs) + dests [nDstA g.record]) = false then w
  else
    match g.got, g.wait with
    | some bs, _ => w.genEmit mc u g bs
    | none, some _ => w
    | none, none =>
      if g.addr % memAlign n ≠ 0 then w.genFault mc u g 0x03
      else if litF g.record 9 8 = 3 then
        match w.pair true mc (litF g.record 20 10) with
        | .lost => w.genFault mc u g 0x1A
        | .wait =>
          if (w.mod.stream true mc (litF g.record 20 10)).isNone then w.askOpen true mc (litF g.record 20 10) else w
        | .free st => (w.setGen mc u { g with wait := some w.mod.nextIdent }).genRequest mc g st none
      else
        match nodeAccess ⟨mc, 1, u⟩ 3 u (litF g.record 9 8) g.addr n none w with
        | .wait w1 => w1
        | .bad code w1 => w1.genFault mc u g code
        | .done bs w1 => w1.genEmit mc u g bs

/-- A data token taken by a generator, its count released (R185, R274). -/
def Work.genTake (w : Work) (mc u : Nat) (g : Gen) (e : Entry) : Work :=
  ((w.setGen mc u g.past).updCell mc fun c => c.freeEntries [e.id]).release (mc / 16) e.tok

/-- A store element: the next data token's bytes, or nothing for a null one (R185, R189). -/
def Work.genStore (w : Work) (mc u : Nat) (g : Gen) : Work :=
  let n := shSize g.shape
  match (w.cell mc).genData g with
  | none => w
  | some e =>
    let bs := (bytesOf ((List.range 6).map (tokW e.tok))).take n
    if e.tok.null then w.genTake mc u g e
    else if g.addr % memAlign n ≠ 0 then w.genFault mc u g 0x03
    else if litF g.record 9 8 = 3 then
      match w.pair true mc (litF g.record 20 10) with
      | .lost => w.genFault mc u g 0x1A
      | .wait =>
        if (w.mod.stream true mc (litF g.record 20 10)).isNone then w.askOpen true mc (litF g.record 20 10) else w
      | .free st => (w.genTake mc u g e).genRequest mc g st (some bs)
    else
      match nodeAccess ⟨mc, 1, u⟩ 3 u (litF g.record 9 8) g.addr n (some bs) w with
      | .wait w1 => w1
      | .bad code w1 => w1.genFault mc u g code
      | .done _ w1 => w1.genTake mc u g e

/-- The end of a round: its count to B, CUR on by RSTRIDE (R185). -/
def Work.genRound (w : Work) (mc u : Nat) (g : Gen) : Work :=
  let c := w.cell mc
  if c.room (reserved (Tbl.vals c.twigs) + dests [nDstB g.record]) then
    let g1 := { g with round := g.round + 1, inRound := false, cur := bv 64 (wrap 64 ((g.cur.toNat : Int) + shRstride g.shape)) }
    ((w.setGen mc u g1).agentSends (.agent mc 3 u)).updCell mc fun k =>
      k.emit [mkTok (nDstB g.record) g.colour g.iter (g.ins.head?.map Token.seq |>.getD 0) (nPrio g.record) [bv 64 g.count]]
  else w

/-- NAG_ELEMENT: the next step of a generator's walk: a round begun, an element, a round ended, or the last (R185). -/
def execNagElement (cell gen : Nat) (s : State) : Out :=
  run s fun w =>
    let g := (w.cell cell).gen gen
    if g.busy = false ∨ (w.regOf (cell / 16)).runs = false ∨ w.isFrozenAt cell g.node g.colour = true then w
    else if g.inRound = false then
      if g.round < shRounds g.shape then w.setGen cell gen g.begin
      else releaseToks (cell / 16) g.ins (w.setGen cell gen { g with busy := false, ins := [] })
    else if g.index.isEmpty then w.genRound cell gen g
    else if osb0 g.record then w.genStore cell gen g
    else w.genLoad cell gen g

end Sys2Proof.Machine
end

