-- ==== Sys2Proof/Machine/Engines.lean ====
section
/-! DEFINITION. Engine operations: descriptors and their validity, issue, beats, bound firings, multicast, the drain port
and completion (spec 10 R220 to R234, R240 to R244; 11 R248, R249; 18 R371). -/

namespace Sys2Proof.Machine

/-! ## Descriptors (R226) -/

/-- A descriptor. -/
abbrev Desc := BitVec 512

/-- A field of a descriptor. -/
def de (d : Desc) (hi lo : Nat) : Nat := bits d.toNat hi lo
/-- SRC. -/
def deSrc (d : Desc) : Nat := de d 63 0
/-- DST. -/
def deDst (d : Desc) : Nat := de d 127 64
/-- RUN. -/
def deRun (d : Desc) : Nat := de d 151 128
/-- The converter configuration. -/
def deConv (d : Desc) : Conv := Conv.ofWord (de d 191 160)
/-- Runs in a row. -/
def deN1 (d : Desc) : Nat := de d 207 192 + 1
/-- Rows. -/
def deN2 (d : Desc) : Nat := de d 223 208 + 1
/-- CV. -/
def deCv (d : Desc) : Bool := de d 224 224 == 1
/-- TOKW. -/
def deTokw (d : Desc) : Nat := de d 227 225
/-- Branches of a multicast. -/
def deBranches (d : Desc) : Nat := de d 231 228 + 1
/-- NPORT. -/
def deNport (d : Desc) : Nat := de d 233 232
/-- SSTR1. -/
def deS1 (d : Desc) : Int := sgn 40 (de d 295 256)
/-- DSTR1. -/
def deD1 (d : Desc) : Int := sgn 40 (de d 359 320)
/-- SSTR2 as a stride; it is laid out as SSTR1 (log entry 30). -/
def deS2 (d : Desc) : Int := sgn 40 (de d 423 384)
/-- DSTR2 as a stride. -/
def deD2 (d : Desc) : Int := sgn 40 (de d 487 448)
/-- Bytes 48 to 55 whole: IDX, branches or the source's scale address. -/
def deX2 (d : Desc) : Nat := de d 447 384
/-- Bytes 56 to 63 whole: the destination's scale address. -/
def deY2 (d : Desc) : Nat := de d 511 448
/-- The handle of a branch (R244). -/
def deBranch (d : Desc) (j : Nat) : Nat := de d (391 + 8 * j) (384 + 8 * j)

/-- The bytes that a run of `n` source bytes writes (R227). -/
def deOut (d : Desc) (n : Nat) : Nat :=
  if deCv d then n * codeWidth (deConv d).dst / codeWidth (deConv d).src else n

/-- The source bytes of a stream. -/
def deTotal (d : Desc) : Nat := deRun d * deN1 d * deN2 d

/-- Whether the source, or the destination, is a block format with a scale stream (R227). -/
def deSrcBlock (d : Desc) : Bool := deCv d && isBlock (deConv d).src
def deDstBlock (d : Desc) : Bool := deCv d && isBlock (deConv d).dst

/-! ## Binding designators (R241) -/

/-- Whether an input, or an output, handle is bound. -/
def bnIv (b : Word) : Bool := b.getLsbD 8
def bnOv (b : Word) : Bool := b.getLsbD 24
/-- The bound handles. -/
def bnIn (b : Word) : Nat := fld b 7 0
def bnOut (b : Word) : Nat := fld b 23 16
/-- Slots in a firing. -/
def bnIcnt (b : Word) : Nat := fld b 55 52 + 1
def bnOcnt (b : Word) : Nat := fld b 59 56 + 1
/-- NFIRE. -/
def bnFires (b : Word) : Nat := fld b 47 32

/-! ## Valid (R226 to R245, R371) -/

/-- Whether runs from an offset on, at both ends of both strides, keep within a limit. -/
def runsFit (base len n1 n2 : Nat) (s1 s2 : Int) (limit : Nat) : Bool :=
  [((0 : Int), (0 : Int)), ((n1 : Int) - 1, 0), (0, (n2 : Int) - 1), ((n1 : Int) - 1, (n2 : Int) - 1)].all fun c =>
    let a := (base : Int) + c.1 * s1 + c.2 * s2
    decide (0 ≤ a) && decide (a + len ≤ limit)

/-- The fields that must be zero (R226), and the converter's own rules (R227); a multicast's bytes 48 to 55 hold its branches, so
its source has no scale stream (log entry 56). -/
def descFields (op : Nat) (d : Desc) : Bool :=
  let node := op == 2 && de d 127 126 == 0
  let c := deConv d
  let stride2 := !([4, 5, 6].contains op) && !deSrcBlock d
  de d 159 152 == 0 && decide (1 ≤ deRun d) && de d 255 240 == 0 && de d 239 234 == 0 && de d 319 296 == 0 &&
    de d 383 360 == 0 && (!stride2 || de d 447 424 == 0) && (deDstBlock d || de d 511 488 == 0) &&
    (op == 4 || deBranches d == 1) && (node || (deTokw d == 0 && deNport d == 0)) &&
    (if deCv d then
      let ws := codeWidth c.src
      let n := 8 * deRun d
      decide (op ≤ 4) && c.ok && n % ws == 0 && n / ws * codeWidth c.dst % 8 == 0 &&
        (!(isBlock c.src || isBlock c.dst) || (n / ws % 32 == 0 && deN2 d == 1)) && !(isBlock c.src && op == 4)
    else de d 191 160 == 0)

/-- The rules of each command (R228, R230, R231, R234, R244). -/
def descCommand (op : Nat) (d : Desc) : Bool :=
  let rows : List Int → Bool := fun l => l.all fun x => x % 8192 == 0
  match op with
  | 3 => deSrc d == 0
  | 4 => deN2 d == 1 && deBranches d ≤ 8 && bits d.toNat 447 (384 + 8 * deBranches d) == 0
  | 5 | 6 => deN2 d == 1
  | 7 => rows [(deRun d : Int), (deSrc d : Int), (deDst d : Int), deS1 d, deD1 d, deS2 d, deD2 d]
  | 8 => rows [(deRun d : Int), (deDst d : Int), deD1 d, deD2 d] && deSrc d == 0 && deS1 d == 0 && deS2 d == 0
  | _ => true

/-- A port designator of SFEED, with the stream's length (R229). -/
def Work.portOk (w : Work) (r : Nat) (d : Desc) : Bool :=
  let p := deDst d
  let len := deOut d (deTotal d)
  let row := deOut d (deRun d)
  match bits p 63 62 with
  | 0 =>
    let t := deTokw d
    bits p 61 60 == 0 && bits p 31 24 == 0 && bv 24 p != noDst && (w.lcell r (dCell (bv 24 p))).isSome &&
      [1, 2, 3, 4, 6].contains t && dPort (bv 24 p) + deNport d ≤ 3 && len % (8 * t) == 0
  | 1 => bits p 61 32 == 0 && row % 32 == 0 && decide (32 ≤ row) && row ≤ 512
  | 2 => bits p 61 32 == 0 && bits p 23 6 == 0 && bits p 31 24 < w.ngrove r && len % 8 == 0
  | _ => false

/-- Whether a handle can be bound with a count (R241). -/
def Work.bindOk (w : Work) (g h n : Nat) : Bool :=
  let x := (w.grove g).handle h
  (x.kind == 1 || x.kind == 2) && n ≤ x.nslot

/-- A binding designator of a command (R228, R241). -/
def Work.bindingOk (w : Work) (g op : Nat) (d : Desc) (b : Word) : Bool :=
  let len := deOut d (deRun d)
  b == 0 ||
    (fld b 63 60 == 0 && fld b 51 48 == 0 && fld b 31 25 == 0 && fld b 15 9 == 0 && decide (1 ≤ op) && op ≤ 4 &&
      !(bnIv b && op == 3) && !(bnOv b && (op == 2 || op == 4)) && (bnIv b || bnOv b || bnFires b == 0) &&
      (!bnIv b || (w.bindOk g (bnIn b) (bnIcnt b) &&
        runsFit (deSrc d) (deRun d) (deN1 d) (deN2 d) (deS1 d) (if deSrcBlock d then 0 else deS2 d)
          (bnIcnt b * ((w.grove g).handle (bnIn b)).slotsz))) &&
      (!bnOv b || (w.bindOk g (bnOut b) (bnOcnt b) &&
        runsFit (deDst d) len (deN1 d) (deN2 d) (deD1 d) (if deDstBlock d then 0 else deD2 d)
          (bnOcnt b * ((w.grove g).handle (bnOut b)).slotsz))))

/-- The branches of a multicast: handles of the grove, whose slots its stream fits (R241, R244). -/
def Work.branchesOk (w : Work) (g op : Nat) (d : Desc) : Bool :=
  op != 4 || (List.range (deBranches d)).all fun j =>
    w.bindOk g (deBranch d j) 1 &&
      runsFit (deDst d) (deOut d (deRun d)) (deN1 d) 1 (deD1 d) 0 ((w.grove g).handle (deBranch d j)).slotsz

/-- Whether some node of a region links by a plan entry (R371). -/
def Work.planNamed (w : Work) (r i : Nat) : Bool :=
  (w.cellsOf r).any fun mc => (Tbl.vals (w.cell mc).nodes).any fun x => (nOpc x == 0x29 || nOpc x == 0x2A) && litF x 6 0 == i

/-- A descriptor of GSEND (R371). -/
def Work.gsendOk (w : Work) (r : Nat) (d : Desc) (b : Word) : Bool :=
  let p := deDst d
  de d 159 152 == 0 && decide (1 ≤ deRun d) && de d 255 224 == 0 && de d 191 160 == 0 && de d 319 296 == 0 &&
    de d 383 320 == 0 && de d 447 424 == 0 && de d 511 448 == 0 && bits p 63 61 == 0 && bits p 19 11 < 320 &&
    deTotal d % 8 == 0 && bits p 44 29 + deTotal d ≤ 65536 &&
    (b == 0 || (fld b 63 8 == 0 && b.getLsbD 7 &&
      match (w.region r).plans[fld b 6 0]? with
      | some pl => pl.entry.role == 0 && !w.planNamed r (fld b 6 0)
      | none => false))

/-- Valid of R225. -/
def Work.descOk (w : Work) (g op : Nat) (d : Desc) (b : Word) : Bool :=
  let r := w.rno g
  if op = 10 then w.gsendOk r d b
  else
    descFields op d && descCommand op d && (op != 2 || w.portOk r d) && w.branchesOk g op d && w.bindingOk g op d b

/-! ## Issue (R220, R225, R232) -/

/-- An engine context changed. -/
def Work.updEngine (w : Work) (g k : Nat) (f : Engine → Engine) : Work :=
  w.updGrove g fun x => { x with engines := Tbl.put x.engines k (f (x.engine k)) }

/-- An operation as it is enqueued, at its issuer's program time. -/
def EngOp.new (num op : Nat) (d : Desc) (b : Word) (sup : Bool) (time : Nat) : EngOp where
  num := num
  op := op
  desc := d
  bind := b
  sup := sup
  convL := if deCv d then (deConv d).seedL else 0
  runL := if deCv d then (deConv d).seedL else 0
  running := false
  firing := false
  fires := 0
  moved := 0
  inSlots := []
  outSlots := []
  detached := []
  remote := 0
  cancelled := false
  err := none
  payload := []
  sent := 0
  got := []
  wait := none
  acks := []
  notes := []
  canopy := []
  offCanopy := false
  srcOff := false
  itime := time
  port := none
  index := []
  overlaid := false
  runSent := 0
  runPay := []
  took := []
  skip := 0
  ran := d

/-- Whether a context holds the signal entry of a launch (R324); code 0xFD stands for it. -/
def Engine.holdsSignal (e : Engine) : Bool := e.queue.any fun o => o.op == 0xFD

/-- An operation enqueued under the next number (R222, R225). Codes from 0xFA on are the operations that no ENG word
issues: THAW 0xFA, FREEZE 0xFB, a launch's signal 0xFD, a read-out 0xFE. -/
def Work.enqueueOp (w : Work) (g k op : Nat) (d : Desc) (b : Word) (sup : Bool) (who : Who := .core g) : Nat × Work :=
  let n := ((w.grove g).engine k).issued + 1
  (n, w.updEngine g k fun e => { e with issued := n, queue := e.queue ++ [EngOp.new n op d b sup (w.ptime who)] })

/-- Whether an operation was issued with a binding (R228, R241). -/
def EngOp.bound (o : EngOp) : Bool := o.bind != 0 && decide (1 ≤ o.op) && decide (o.op ≤ 4)

/-- An ENG instruction other than SCANC (R225). -/
def engIssue (op : Nat) (d e h : BitVec 5) (c : BitVec 3) (g : Nat) (w : Work) : Except Stop Work := do
  let va := (w.g g e).toNat
  needAt (va % 64 = 0) 0x03 va
  let (bs, w1) ← stopAt (w.vread (w.accCore g) va 64)
  let desc : Desc := bv 512 (leNat bs)
  let b := w.g g h
  need (w1.descOk g op desc b) 0x05
  let x := (w1.grove g).engine c.toNat
  need (!x.holdsSignal) 0x09
  if 16 ≤ x.queue.length then .error .stall
  else
    let r := w1.enqueueOp g c.toNat op desc b (w.super g)
    r.2.give g d (bv 64 r.1)

/-- SCOPY (R225 to R228). -/
def execScopy (d e h : BitVec 5) (c : BitVec 3) (s : State) : Out := run s (coreInstr (.scopy d e h c) (engIssue 1 d e h c))
/-- SFEED (R225, R229). -/
def execSfeed (d e h : BitVec 5) (c : BitVec 3) (s : State) : Out := run s (coreInstr (.sfeed d e h c) (engIssue 2 d e h c))
/-- SDRAIN (R225, R230). -/
def execSdrain (d e h : BitVec 5) (c : BitVec 3) (s : State) : Out := run s (coreInstr (.sdrain d e h c) (engIssue 3 d e h c))
/-- SMCAST (R225, R244). -/
def execSmcast (d e h : BitVec 5) (c : BitVec 3) (s : State) : Out := run s (coreInstr (.smcast d e h c) (engIssue 4 d e h c))
/-- SGATH (R225, R231). -/
def execSgath (d e h : BitVec 5) (c : BitVec 3) (s : State) : Out := run s (coreInstr (.sgath d e h c) (engIssue 5 d e h c))
/-- SSCAT (R225, R231). -/
def execSscat (d e h : BitVec 5) (c : BitVec 3) (s : State) : Out := run s (coreInstr (.sscat d e h c) (engIssue 6 d e h c))
/-- SROWC (R225, R234). -/
def execSrowc (d e h : BitVec 5) (c : BitVec 3) (s : State) : Out := run s (coreInstr (.srowc d e h c) (engIssue 7 d e h c))
/-- SROWZ (R225, R234). -/
def execSrowz (d e h : BitVec 5) (c : BitVec 3) (s : State) : Out := run s (coreInstr (.srowz d e h c) (engIssue 8 d e h c))
/-- GSEND (R225, R371). -/
def execGsend (d e h : BitVec 5) (c : BitVec 3) (s : State) : Out := run s (coreInstr (.gsend d e h c) (engIssue 10 d e h c))

/-- The operations that a SCANC cancels: numbered at or above its point, and not started or bound (R232). -/
def EngOp.cancel (o : EngOp) (p : Word) : EngOp :=
  if p.toNat ≤ o.num ∧ (o.running = false ∨ o.bound = true) then { o with cancelled := true } else o

/-- SCANC (R225, R232). -/
def execScanc (d h : BitVec 5) (c : BitVec 3) (s : State) : Out :=
  run s (coreInstr (.scanc d h c) fun g w => do
    let p := w.g g h
    let x := (w.grove g).engine c.toNat
    need (!x.holdsSignal) 0x09
    if 16 ≤ x.queue.length then .error .stall
    else
      let w1 := w.updEngine g c.toNat fun e => { e with queue := e.queue.map fun o => o.cancel p }
      let r := w1.enqueueOp g c.toNat 9 0 p (w.super g)
      r.2.give g d (bv 64 r.1))

/-! ## Accesses of an operation (R225, R233) -/

/-- A range cut at multiples of 64, so that each piece lies in one page and in one slot. -/
def segs : Nat → Nat → Nat → List (Nat × Nat)
  | 0, _, _ => []
  | fuel + 1, a, n =>
    if n = 0 then []
    else
      let k := min n (64 - a % 64)
      (a, k) :: segs fuel (a + k) (n - k)

/-- Why an operation's reads do not all come now: a fault, a wait for a walk, or bytes of another module. -/
inductive EngStop where
  | none
  | bad (code : Nat)
  | walk (va : Nat)
  | far (pa n : Nat)
deriving DecidableEq, Repr

/-- The bytes an operation has read, whether all lie in module memory, and why it stops there. -/
structure EngRead where
  bytes : List Byte
  mem : Bool
  stop : EngStop
  w : Work

/-- A piece at a physical address of this module, as aligned words and single bytes. -/
def preadParts (a : Acc) : List (Nat × Nat) → Work → Except Nat (List Byte × Work)
  | [], w => .ok ([], w)
  | (pa, n) :: t, w => do
    let (bs, w1) ← w.pread a pa n
    let (cs, w2) ← preadParts a t w1
    return (bs ++ cs, w2)

/-- A piece written at a physical address of this module. -/
def pwriteParts (a : Acc) : List (Nat × Nat) → List Byte → Work → Except Nat Work
  | [], _, w => .ok w
  | (pa, n) :: t, bs, w => do
    let w1 ← w.pwrite a pa (bs.take n)
    pwriteParts a t (bs.drop n) w1

/-- Pieces read in order, the first `skip` bytes being read already; a piece in another module stops the reading (R233). -/
def engRead (a : Acc) : List (Nat × Nat) → Nat → Work → EngRead
  | [], _, w => ⟨[], true, .none, w⟩
  | (va, n) :: t, skip, w =>
    if n ≤ skip then engRead a t (skip - n) w
    else
      match w.translate a.grove a.waiter a.asid a.user needR va with
      | .error c => ⟨[], true, if c = walkWait then .walk va else .bad c, w⟩
      | .ok (pa, w1) =>
        if pa / 2 ^ 45 ≠ w1.mod.modNo then ⟨[], false, .far pa n, w1⟩
        else
          match preadParts a (pieces n pa n) w1 with
          | .error c => ⟨[], true, .bad c, w1⟩
          | .ok (bs, w2) =>
            let r := engRead a t 0 w2
            ⟨bs ++ r.bytes, r.mem && decide (pa % 2 ^ 45 + n ≤ memTop), r.stop, r.w⟩

/-- The error of an operation whose route to a module failed: Link Lost, and the module above it (R224, R378). -/
def routeLost (m : Nat) : Nat := 0x119 + 65536 * m

/-- An operation that waits for a walk, as the code of a write that is not made yet: the address above the code (R183). -/
def walkAt (va : Nat) : Nat := walkWait + 65536 * va

/-- An operation that has met a fault: the failed walks that its grove's engines wait for are seen (R183, R224). -/
def Work.engFails (w : Work) (g : Nat) : Work := w.endWalks (engineWaiter g)

/-- A request of an engine to another module, under the next number (R233); none where no route reaches it. -/
def Work.sendFar (w : Work) (g k : Nat) (sup : Bool) (pa n : Nat) (data : Option (List Byte)) : Option (Ack × Work) :=
  let id := w.mod.nextIdent
  let m := pa / 2 ^ 45
  (w.route m).map fun port =>
    (⟨id, m, some port⟩, (w.updMod fun x => { x with nextIdent := id + 1 }).sendBy
      (.request
        { target := m, source := w.mod.modNo, srcCell := false, srcAgent := 8 * g + k, ident := id,
          op := if data.isSome then 5 else 4, amo := 0, type := 0, asid := (w.regOf g).rasid, super := sup, addr := pa,
          size := n, data := data.getD [], entry := 0, seq := 0 }) port 0)

/-- An operation with a written piece noted: a bank's range, a canopy, or some other place (R249, R334). -/
def EngOp.note (o : EngOp) (modNo va pa n : Nat) : EngOp :=
  if pa / 2 ^ 45 ≠ modNo then { o with offCanopy := true }
  else
    match placeOf (pa % 2 ^ 45) with
    | .bank g => { o with notes := o.notes ++ [(g, va, n)], offCanopy := true }
    | .canopy g => { o with canopy := if o.canopy.contains g then o.canopy else o.canopy ++ [g] }
    | _ => { o with offCanopy := true }

/-- The physical address of the byte that stands at an address of this module: a bank's, where a mapping forwards it (R179). -/
def Work.placed (w : Work) (pa : Nat) : Nat := w.mod.modNo * 2 ^ 45 + w.loc (pa % 2 ^ 45)

/-- Pieces written in order; what is written stays written where one fails (R224). -/
def engWrite (a : Acc) (k : Nat) : List (Nat × Nat) → List Byte → EngOp × Work → EngOp × Work
  | [], _, p => p
  | (va, n) :: t, bs, (o, w) =>
    match w.translate a.grove a.waiter a.asid a.user needW va with
    | .error c => ({ o with err := some (if c = walkWait then walkAt va else c) }, w)
    | .ok (pa, w1) =>
      if pa / 2 ^ 45 ≠ w1.mod.modNo then
        match w1.sendFar a.grove k o.sup pa n (some (bs.take n)) with
        | none => ({ o with err := some (routeLost (pa / 2 ^ 45)) }, w1)
        | some (x, w2) => engWrite a k t (bs.drop n) ({ o.note w1.mod.modNo va pa n with acks := o.acks ++ [x] }, w2)
      else
        match pwriteParts a (pieces n pa n) (bs.take n) w1 with
        | .error c => ({ o with err := some c }, w1)
        | .ok w2 => engWrite a k t (bs.drop n) (o.note w1.mod.modNo va (w1.placed pa) n, w2)

/-! ## Addresses of runs (R227, R231, R242) -/

/-- An offset into taken slots, end to end in slot order (R242). -/
def Handle.inSlots (x : Handle) (slots : List Nat) (off : Nat) : Nat :=
  x.addr (slots.getD (off / x.slotsz) 0) + off % x.slotsz

/-- The source address of an offset. -/
def EngOp.srcVa (o : EngOp) (w : Work) (g off : Nat) : Nat :=
  if o.bound ∧ bnIv o.bind = true then ((w.grove g).handle (bnIn o.bind)).inSlots o.inSlots off else off

/-- The destination address of an offset. -/
def EngOp.dstVa (o : EngOp) (w : Work) (g off : Nat) : Nat :=
  if o.bound ∧ bnOv o.bind = true then ((w.grove g).handle (bnOut o.bind)).inSlots o.outSlots off else off

/-- Whether a command reads an index for each run. -/
def EngOp.indexed (o : EngOp) : Bool := o.op == 5 || o.op == 6

/-- Where run `i` begins at the source; `ix` is its index. -/
def EngOp.srcRun (o : EngOp) (i ix : Nat) : Nat :=
  let d := o.desc
  let n := deN1 d
  if o.op = 5 then wrap 64 ((deSrc d : Int) + ix * deS1 d)
  else wrap 64 ((deSrc d : Int) + (i % n : Nat) * deS1 d + (i / n : Nat) * deS2 d)

/-- Where run `i` begins at the destination. -/
def EngOp.dstRun (o : EngOp) (i ix : Nat) : Nat :=
  let d := o.desc
  let n := deN1 d
  if o.op = 6 then wrap 64 ((deDst d : Int) + ix * deD1 d)
  else wrap 64 ((deDst d : Int) + (i % n : Nat) * deD1 d + (i / n : Nat) * deD2 d)

/-- The index of a run, read before the first run moves (R231; log entry 97). -/
def EngOp.ix (o : EngOp) (i : Nat) : Nat := o.index.getD i 0

/-- The runs of an operation whose index is not read yet (R231). -/
def EngOp.unread (o : EngOp) : Nat := if o.indexed then deN1 o.desc * deN2 o.desc - o.index.length else 0

/-- Every piece that the source runs, or the destination runs, of an operation cover. -/
def EngOp.cover (o : EngOp) (w : Work) (g : Nat) (dst : Bool) : List (Nat × Nat) :=
  let d := o.desc
  let len := if dst then deOut d (deRun d) else deRun d
  ((List.range (deN1 d * deN2 d)).map fun i =>
    let ix := o.ix i
    (segs len (if dst then o.dstRun i ix else o.srcRun i ix) len).map fun p =>
      (if dst then o.dstVa w g p.1 else o.srcVa w g p.1, p.2)).flatten

/-- Whether an address lies in one of several pieces. -/
def inPieces (a : Nat) (l : List (Nat × Nat)) : Bool := l.any fun p => decide (p.1 ≤ a) && decide (a < p.1 + p.2)

/-- A piece without the bytes that lie in others, with the bytes to write there. -/
def outside (l : List (Nat × Nat)) (p : Nat × Nat) (bs : List Byte) : List ((Nat × Nat) × List Byte) :=
  if l.any fun q => decide (q.1 < p.1 + p.2) && decide (p.1 < q.1 + q.2) then
    (List.zip (List.range p.2) bs).filterMap fun e => if inPieces (p.1 + e.1) l then none else some ((p.1 + e.1, 1), [e.2])
  else [(p, bs.take p.2)]

/-- Pieces with their bytes, without what lies in others. -/
def outsideAll (l : List (Nat × Nat)) : List (Nat × Nat) → List Byte → List ((Nat × Nat) × List Byte)
  | [], _ => []
  | p :: t, bs => outside l p bs ++ outsideAll l t (bs.drop p.2)

/-- Whether a command moves bytes from addresses to addresses. -/
def EngOp.copies (o : EngOp) : Bool := [1, 4, 5, 6, 7].contains o.op

/-- The pieces whose bytes the operation also reads: they are written at the end of the firing (R227). -/
def EngOp.readPieces (o : EngOp) (w : Work) (g : Nat) : List (Nat × Nat) := if o.copies then o.cover w g false else []

/-- Bytes written to a destination, apart from what the operation also reads (R227). -/
def engStore (g k : Nat) (ps : List (Nat × Nat)) (bs : List Byte) (p : EngOp × Work) : EngOp × Work :=
  let o := p.1
  let w := p.2
  let l := outsideAll (o.readPieces w g) ps bs
  engWrite (w.accOp g k o) k (l.map Prod.fst) (l.map Prod.snd).flatten (o, w)

/-! ## Beats (R222, R227) -/

/-- The operation at the head of a context set. -/
def Work.setHead (w : Work) (g k : Nat) (o : EngOp) : Work :=
  w.updEngine g k fun e => { e with queue := setAt e.queue 0 o }

/-- The scale bytes of an entry of a format (R47). -/
def scaleBytes (code : Nat) : Nat := if code = 8 ∨ code = 9 then 2 else 1

/-- The pieces that a beat of `n` bytes at byte `off` of run `i` reads, its data and scale entries in turn; before the first run
moves, the next 64 indices at most: each index is read once (R222, R231; log entry 97). -/
def EngOp.plan (o : EngOp) (w : Work) (g i off n : Nat) : List (Nat × Nat) :=
  let d := o.desc
  let data := if o.op = 3 then [] else (segs n (o.srcRun i (o.ix i) + off) n).map fun p => (o.srcVa w g p.1, p.2)
  let c := deConv d
  let blocks : Nat → Nat := fun k => k * 8 / codeWidth c.src / 32
  let sb := scaleBytes c.src
  let scales := if deSrcBlock d then segs (blocks n * sb) (deX2 d + blocks o.moved * sb) (blocks n * sb) else []
  if 0 < o.unread then
    let m := 4 * min 64 o.unread
    segs m (wrap 64 ((deX2 d : Int) + 4 * o.index.length)) m
  else data ++ scales

/-- Groups of 32 elements converted in turn: the elements, the scale entries, and L (R48 to R51). -/
def Conv.blocks (c : Conv) : Nat → BitVec 32 → List Nat → List Nat → List Nat × List Nat × BitVec 32
  | 0, l, _, _ => ([], [], l)
  | n + 1, l, els, scs =>
    let r := c.group l (scs.headD 0) (els.take 32)
    let t := c.blocks n r.2.2 (els.drop 32) scs.tail
    (r.1 ++ t.1, r.2.1 :: t.2.1, t.2.2)

/-- Stream bytes converted as a descriptor says: bytes, scale entries, and L after them (R49 to R51, R227). -/
def convertBytes (d : Desc) (l : BitVec 32) (data scale : List Byte) : List Byte × List Nat × BitVec 32 :=
  if deCv d then
    let c := deConv d
    let n := data.length * 8 / codeWidth c.src
    let els := unpack (codeWidth c.src) n (leNat data)
    let r :=
      if isBlock c.src || isBlock c.dst then
        c.blocks (n / 32) l els (unpack (8 * scaleBytes c.src) (scale.length / scaleBytes c.src) (leNat scale))
      else
        let x := c.group l 0 els
        (x.1, [], x.2.2)
    (leBytes (n * codeWidth c.dst / 8) (pack (codeWidth c.dst) r.1), r.2.1, r.2.2)
  else (data, [], l)

/-- The destination pieces of a branch slot of a multicast, for output bytes at an offset (R244). -/
def Work.branchPieces (w : Work) (g : Nat) (o : EngOp) (j off n : Nat) : List (Nat × Nat) :=
  let x := (w.grove g).handle (deBranch o.desc j)
  segs n (x.addr (o.outSlots.getD j 0) + off) n

/-- The branches that a firing writes: those it took slots of, and that are not detached (R244, R247). -/
def EngOp.branches (o : EngOp) : List Nat :=
  (List.range (deBranches o.desc)).filter fun j => o.outSlots.getD j 256 < 256 && !o.detached.contains j

/-- The scale entries that a beat of `o` makes, written to their stream at DSTR2 where the destination is a block format
(R227). -/
def engScales (g k : Nat) (scales : List Nat) (p : EngOp) (o : EngOp) (w : Work) : EngOp × Work :=
  if deDstBlock o.desc then
    let sc := leBytes (2 * scales.length) (pack 16 scales)
    let b := o.moved * 8 / codeWidth (deConv o.desc).src / 32
    engStore g k (segs sc.length (deY2 o.desc + 2 * b) sc.length) sc (p, w)
  else (p, w)

/-- A beat's bytes converted and put to their destination (R227 to R230, R244). -/
def engPut (g k i off n : Nat) (data scale : List Byte) (o : EngOp) (w : Work) : EngOp × Work :=
  let d := o.desc
  let r := convertBytes d o.convL data scale
  let o1 := { o with
    got := []
    moved := o.moved + n
    convL := r.2.2 }
  let at_ := o.dstRun i (o.ix i) + deOut d off
  if o.op = 2 then
    let all := o1.payload ++ r.1
    engScales g k r.2.1 { o1 with payload := all.drop o.skip, skip := o.skip - all.length } o w
  else if o.op = 4 then
    let p := o.branches.foldl (fun p j => engStore g k (p.2.branchPieces g o j at_ r.1.length) r.1 p) (o1, w)
    engScales g k r.2.1 p.1 o p.2
  else
    let p := engStore g k ((segs r.1.length at_ r.1.length).map fun q => (o.dstVa w g q.1, q.2)) r.1 (o1, w)
    engScales g k r.2.1 p.1 o p.2

/-- A drain port after bytes leave it: held writes enter in order while they fit in its 4 KiB (R230). -/
def Engine.refill : List (Writer × List Byte) → Engine → Engine
  | [], e => e
  | h :: t, e =>
    if e.drain.length + h.2.length ≤ 4096 then Engine.refill t { e with drain := e.drain ++ h.2, drainHeld := t } else e

/-- `n` bytes taken from a drain port. -/
def Engine.takeDrain (e : Engine) (n : Nat) : List Byte × Engine :=
  let e1 := { e with drain := e.drain.drop n }
  (e.drain.take n, Engine.refill e1.drainHeld e1)

/-- Writes of other modules' engines whose last bytes have entered a port are performed, and acknowledged (R230, R233). -/
def Work.ackDrains (w : Work) (old : Engine) : Work :=
  (old.drainHeld.map Prod.fst).eraseDups.foldl (fun v x =>
    match x with
    | .remote source ident => if v.drainHolds x then v else v.respond source ident (.answer [])
    | _ => v) w

/-- `n` bytes of a context's drain port taken by its running SDRAIN (R230). -/
def Work.drainTake (w : Work) (g k n : Nat) : List Byte × Work :=
  let e := (w.grove g).engine k
  let t := e.takeDrain n
  (t.1, (w.updEngine g k fun _ => t.2).ackDrains e)

/-- The physical address of an 8 KiB row, on a row-aligned page of this module's memory (R234). -/
def Work.rowAt (w : Work) (a : Acc) (n : Need) (va : Nat) : Except Nat (Nat × Work) := do
  let half : Nat → Work → Except Nat (Nat × Work) := fun x v => do
    let (pa, v1) ← (v.translate a.grove a.waiter a.asid a.user n x).mapError fun c => if c = walkWait then walkAt x else c
    match v1.buffered a.grove false a.asid x with
    | some t => if t.attr.getLsbD 10 ∧ (v1.localMem pa 4096).isSome = true then .ok (pa, v1) else .error 0x09
    | none => .error 0x09
  let (p, w1) ← half va w
  let (q, w2) ← half (va + 4096) w1
  if p % 8192 = 0 ∧ q = p + 4096 then .ok (p, w2) else .error 0x09

/-- 64-byte pieces of a row. -/
def rowParts (pa : Nat) : List (Nat × Nat) := (List.range 128).map fun i => (pa + 64 * i, 64)

/-- An operation after a step's writes: the step is not taken where one of them waits for a walk (R183). -/
def Work.putHead (w : Work) (g k : Nat) (o : EngOp) (p : EngOp × Work) : Work :=
  match p.1.err with
  | some c =>
    if c % 65536 = walkWait then (w.askWalk (engineWaiter g) (w.regOf g).rasid (c / 65536 / 4096)).setHead g k o
    else (p.2.engFails g).setHead g k p.1
  | none => p.2.setHead g k p.1

/-- An operation whose reads have stopped: at a fault, a walk, or a read of another module (R183, R224, R233). -/
def EngRead.stopped (r : EngRead) (g k : Nat) (o : EngOp) : Option Work :=
  match r.stop with
  | .none => none
  | .bad c => some ((r.w.engFails g).setHead g k { o with err := some c })
  | .walk va => some ((r.w.askWalk (engineWaiter g) (r.w.regOf g).rasid (va / 4096)).setHead g k o)
  | .far pa n => some (match r.w.sendFar g k o.sup pa n none with
    | none => r.w.setHead g k { o with err := some (routeLost (pa / 2 ^ 45)) }
    | some (x, w1) => w1.setHead g k { o with wait := some x })

/-- A row moved or zeroed (R234); one that the operation also reads is written at the end of the firing (R227). -/
def engRow (g k i off : Nat) (o : EngOp) (w : Work) : Work :=
  let a := w.accOp g k o
  let src : Except Nat (List Byte × Work) := do
    if o.op = 8 then return (List.replicate 8192 0, w)
    let (pa, w1) ← w.rowAt a needR (o.srcRun i 0 + off)
    preadParts a (rowParts pa) w1
  let out : Except Nat Work := do
    let (bs, w1) ← src
    let dst := o.dstRun i 0 + off
    let (pa, w2) ← w1.rowAt a needW dst
    if inPieces dst (o.readPieces w g) then return w2 else pwriteParts a (rowParts pa) bs w2
  match out with
  | .ok w1 => w1.setHead g k { o with moved := o.moved + 8192, offCanopy := true }
  | .error c => w.putHead g k o ({ o with err := some c }, w)

/-- An operation as its next run begins: where an image would start it again (R233). -/
def EngOp.runStart (o : EngOp) : EngOp :=
  if o.moved % deRun o.desc = 0 ∧ o.got.isEmpty then
    { o with runL := o.convL, runSent := o.sent, runPay := o.payload, took := [] }
  else o

/-- Whether a drain port still holds bytes that a context wrote there (R230). -/
def Work.portFull (w : Work) (g k : Nat) : Bool := w.drainHolds (.engine g k)

/-- The next beat of an operation: at most 256 source bytes, within one run (R222, R227, R230, R231). -/
def engBeat (g k : Nat) (o0 : EngOp) (w : Work) : Work :=
  let o := o0.runStart
  let run := deRun o.desc
  let i := o.moved / run
  let off := o.moved % run
  let n := min 256 (run - off)
  if o.op = 7 ∨ o.op = 8 then engRow g k i off o w
  else if o.op = 3 ∧ ((w.grove g).engine k).drain.length < n then w
  else
    let r := engRead (w.accOp g k o) (o.plan w g i off n) o.got.length w
    let o1 := { o with got := o.got ++ r.bytes, srcOff := o.srcOff || !r.mem }
    match r.stopped g k o1 with
    | some w1 => w1
    | none =>
      if 0 < o.unread then
        let ixs := (List.range (o1.got.length / 4)).map fun j => leNat ((o1.got.drop (4 * j)).take 4)
        r.w.setHead g k { o1 with got := [], index := o.index ++ ixs }
      else if o.op = 3 then
        let t := r.w.drainTake g k n
        r.w.putHead g k o1 (engPut g k i off n t.1 o1.got { o1 with took := o1.took ++ t.1 } t.2)
      else r.w.putHead g k o1 (engPut g k i off n (o1.got.take n) (o1.got.drop n) o1 r.w)

/-! ## Ports (R229) -/

/-- The bytes of the next piece of a feed: a token, a packet, a word. -/
def EngOp.piece (o : EngOp) : Nat :=
  match bits (deDst o.desc) 63 62 with
  | 0 => 8 * deTokw o.desc
  | 1 => 32 * deOut o.desc (deRun o.desc)
  | _ => 8

/-- Whether a piece of a feed can be sent. -/
def EngOp.pieceDue (o : EngOp) : Bool :=
  o.op == 2 && (decide (o.piece ≤ o.payload.length) || (o.moved == deTotal o.desc && !o.payload.isEmpty))

/-- Token `k` of a feed (R229). -/
def EngOp.token (o : EngOp) (bs : List Byte) : Token :=
  let p := deDst o.desc
  let dest : BitVec 24 := bv 24 p
  let port := dPort dest + o.sent % (deNport o.desc + 1)
  { mkTok (bv 24 (dest.toNat % 2 ^ 22 + port * 2 ^ 22)) (bv 12 (bits p 59 48)) (bv 16 (bits p 47 32)) (bv 8 o.sent) 0
      (wordsOf (deTokw o.desc) bs) with kind := if deTokw o.desc = 6 then 1 else 0 }

/-- Rows of equal length. -/
def rowsOf (l : Nat) : Nat → List Byte → List (List Byte)
  | 0, _ => []
  | n + 1, bs => if bs.isEmpty then [] else bs.take l :: rowsOf l n (bs.drop l)

/-- The bytes that a packet takes in the packet store. -/
def Packet.size (p : Packet) : Nat := p.rows.length * p.rowLen

/-- The packets that a tag keeps. -/
def Tag.packets (t : Tag) : List Packet :=
  (t.queue ++ t.held ++ t.kept).filterMap fun i => if i.kind = 0 then some i.packet else none

/-- The packets whose bytes a grove keeps: those of no k-step performed or discarded yet (R256). -/
def Mx.packets (m : Mx) : List Packet :=
  (m.arrivals ++ m.handled ++ ((Tbl.vals m.tags).map Tag.packets).flatten).eraseDups.filter fun p => !m.freed.contains p.order

/-- The bytes that a grove's packet store holds (R256). -/
def Mx.used (m : Mx) : Nat := ((m.packets.filter fun p => !m.spilled.contains p.order).map Packet.size).sum

/-- The bytes that a grove's packet spill area holds (R256). -/
def Mx.spillUsed (m : Mx) : Nat := ((m.packets.filter fun p => m.spilled.contains p.order).map Packet.size).sum

/-- The size of the packet store (R256). -/
def packetStore : Nat := 0x40000

/-- The size of a grove's packet spill area (R176, R256). -/
def Work.packetSpill (w : Work) (g : Nat) : Nat :=
  0x100000 * match (Tbl.vals (w.regOf g).table.groves).find? fun e => e.1 == g with
    | some e => e.2.2
    | none => 0

/-- Where a packet of `n` bytes goes: the store where no packet is spilled and it has room, else the spill area where that
has; none where both are full (R88, R256). -/
def Mx.packetPlace (m : Mx) (spill n : Nat) : Option Bool :=
  if m.spilled.isEmpty ∧ m.used + n ≤ packetStore then some false
  else if m.spillUsed + n ≤ spill then some true
  else none

/-- Spilled packets back in the store, oldest first, while it has room (R88, R256). -/
def Mx.unspill : Nat → Mx → Mx
  | 0, m => m
  | fuel + 1, m =>
    match m.spilled with
    | [] => m
    | k :: ks =>
      let n := ((m.packets.filter fun p => p.order == k).map Packet.size).sum
      if m.used + n ≤ packetStore then Mx.unspill fuel { m with spilled := ks } else m

/-- A packet's bytes freed, and the store filled again from the spill area (R256). -/
def Mx.freePackets (m : Mx) (ps : List Packet) : Mx :=
  let gone := (ps.filter m.handled.contains).map Packet.order
  Mx.unspill m.spilled.length { m with freed := m.freed ++ gone.filter fun k => !m.freed.contains k }

/-- The next piece of a feed sent (R229, R253, R256). -/
def engEmit (g k : Nat) (o : EngOp) (w : Work) : Work :=
  let p := deDst o.desc
  let bs := o.payload.take o.piece
  let o1 := { o with payload := o.payload.drop o.piece, sent := o.sent + 1 }
  match bits p 63 62 with
  | 0 => (w.sendTok (w.rno g) g (feedStream g k o.num) o.itime (o.token bs)).setHead g k o1
  | 1 =>
    let l := deOut o.desc (deRun o.desc)
    let m := w.mx g
    let x : Packet :=
      { hdr := bv 32 p, index := o.sent, rows := rowsOf l 32 bs, rowLen := l, ctx := k, opNum := o.num, order := m.order }
    match m.packetPlace (w.packetSpill g) x.size with
    | none => w
    | some out =>
      (w.setMx g
        { m with
          arrivals := m.arrivals ++ [x]
          order := m.order + 1
          spilled := if out then m.spilled ++ [x.order] else m.spilled }).setHead g k { o1 with remote := o1.remote + 1 }
  | _ =>
    match w.mgrove (w.rno g) (bits p 31 24) with
    | none => w
    | some h =>
      let ch := bits p 5 0
      if (w.core h).mailHeld.any fun x => x.chan == ch then w
      else
        match w.deliver h ch (bv 64 (leNat bs)) with
        | some w1 => w1.setHead g k o1
        | none => w

/-! ## Firings (R242, R244) -/

/-- The pieces of the scale stream that an operation writes (R227). -/
def EngOp.scalePieces (o : EngOp) : List (Nat × Nat) :=
  if deDstBlock o.desc then
    let n := 2 * (deTotal o.desc * 8 / codeWidth (deConv o.desc).src / 32)
    segs n (deY2 o.desc) n
  else []

/-- The free bytes of what an operation both read and wrote (R227), put to memory. -/
def engOverlap (g k : Nat) (o : EngOp) (w : Work) : EngOp × Work :=
  let rd := o.readPieces w g
  let dst :=
    if o.op = 4 then
      (o.branches.map fun j =>
        ((List.range (deN1 o.desc)).map fun i =>
          w.branchPieces g o j (o.dstRun i 0) (deOut o.desc (deRun o.desc))).flatten).flatten
    else o.cover w g true
  let both := ((dst ++ o.scalePieces).map fun p => (List.range p.2).filterMap fun i => if inPieces (p.1 + i) rd then some (p.1 + i, 1) else none).flatten
  if both.isEmpty then (o, w)
  else
    let r := freshBytes both.length w
    engWrite (r.2.accOp g k o) k both r.1 (o, r.2)

/-- The slots of a firing returned: outputs posted, then inputs freed, in slot order (R242, R244). -/
def Work.endSlots (w : Work) (g : Nat) (o : EngOp) : Work :=
  let w1 :=
    if o.op = 4 then o.branches.foldl (fun v j => v.postSlot g (deBranch o.desc j) (o.outSlots.getD j 0)) w
    else o.outSlots.foldl (fun v s => v.postSlot g (bnOut o.bind) s) w
  o.inSlots.foldl (fun v s => v.freeSlotOf g (bnIn o.bind) s) w1

/-- A firing's end, once every byte is moved and every write acknowledged, those of an overlap too; where it ends in an
error the bytes of an overlap stand as they are (R227, R233, R240, R242; log entry 97). -/
def engEnd (g k : Nat) (o : EngOp) (w : Work) : Work :=
  let p := if o.copies ∧ o.overlaid = false then engOverlap g k o w else (o, w)
  if p.1.err.isSome ∨ p.1.acks.isEmpty = false then w.putHead g k o ({ p.1 with overlaid := p.1.err.isNone }, p.2)
  else (p.2.endSlots g o).setHead g k
    { p.1 with
      firing := false
      fires := o.fires + 1
      moved := 0
      inSlots := []
      outSlots := []
      skip := 0
      index := []
      overlaid := false }

/-- Whether a bound operation's input, if it has one, is ready (R242). -/
def Work.inputReady (w : Work) (g : Nat) (b : Word) : Bool :=
  !bnIv b || decide (bnIcnt b ≤ ((w.grove g).handle (bnIn b)).filled)

/-- Input slots taken from the drain head (R242). -/
def Work.takeInput (w : Work) (g : Nat) (b : Word) : List Nat × Work :=
  if bnIv b then
    let t := takeSlots false (bnIcnt b) ((w.grove g).handle (bnIn b))
    (t.2, w.changeHandle g (bnIn b) t.1)
  else ([], w)

/-- Whether a context's head may begin another firing. -/
def EngOp.mayFire (o : EngOp) : Bool :=
  o.running && !o.firing && !o.cancelled && o.err.isNone &&
    (if o.bound then bnFires o.bind == 0 || decide (o.fires < bnFires o.bind) else o.fires == 0)

/-- Slots that follow one another. -/
def consecutive (l : List Nat) : Bool := (List.range l.length).all fun i => l.getD i 0 == l.headD 0 + i

/-- A bound operation with the addresses of its firing in the descriptor that a canopy source list takes; slots that do not
follow one another have no such descriptor (R249; log entry 45). -/
def EngOp.located (o : EngOp) (w : Work) (g : Nat) : EngOp :=
  let d := o.desc
  let keep := d.toNat - d.toNat % 2 ^ 128
  { o with
    ran := bv 512 (keep + o.srcVa w g (deSrc d) % 2 ^ 64 + o.dstVa w g (deDst d) % 2 ^ 64 * 2 ^ 64)
    srcOff := o.srcOff || !consecutive o.inSlots || !consecutive o.outSlots }

/-- BOUND_FIRING: a bound operation takes its slots once its input is full enough and its output has room (R242). -/
def execBoundFiring (grove ctx : Nat) (s : State) : Out :=
  run s fun w =>
    match ((w.grove grove).engine ctx).queue with
    | o :: _ =>
      let b := o.bind
      let out := (w.grove grove).handle (bnOut b)
      if o.bound ∧ o.op ≠ 4 ∧ o.mayFire = true ∧ (w.regOf grove).runs = true ∧ w.inputReady grove b = true ∧
          (bnOv b = false ∨ bnOcnt b ≤ out.free) then
        let t := w.takeInput grove b
        let u := if bnOv b then takeSlots true (bnOcnt b) ((t.2.grove grove).handle (bnOut b)) else (out, [])
        let w1 := if bnOv b then t.2.changeHandle grove (bnOut b) u.1 else t.2
        let o1 := { o with firing := true, moved := 0, inSlots := t.1, outSlots := u.2 }
        w1.setHead grove ctx (o1.located w1 grove)
      else w
    | [] => w

/-- The branch slots of a multicast taken: 256 stands for a detached branch (R244). -/
def takeBranches (g : Nat) (o : EngOp) : List Nat → Work → List Nat × Work
  | [], w => ([], w)
  | j :: js, w =>
    if o.detached.contains j then
      let r := takeBranches g o js w
      (256 :: r.1, r.2)
    else
      let t := takeSlots true 1 ((w.grove g).handle (deBranch o.desc j))
      let r := takeBranches g o js (w.changeHandle g (deBranch o.desc j) t.1)
      (t.2.headD 0 :: r.1, r.2)

/-- SMCAST_FIRING: a multicast takes its input and one slot of every branch that is not detached, once each has one
(R244). -/
def execSmcastFiring (grove ctx : Nat) (s : State) : Out :=
  run s fun w =>
    match ((w.grove grove).engine ctx).queue with
    | o :: _ =>
      let js := List.range (deBranches o.desc)
      if o.op = 4 ∧ o.mayFire = true ∧ (w.regOf grove).runs = true ∧ w.inputReady grove o.bind = true ∧
          (js.all fun j => o.detached.contains j || decide (1 ≤ ((w.grove grove).handle (deBranch o.desc j)).free)) = true then
        let t := w.takeInput grove o.bind
        let u := takeBranches grove o js t.2
        u.2.setHead grove ctx { o with firing := true, moved := 0, inSlots := t.1, outSlots := u.1 }
      else w
    | [] => w

/-! ## GSEND and read-outs (R263, R371) -/

/-- The slot designator of a GSEND: module, grove, glade, slot, offset, phase (R371). -/
def gsModule (d : Desc) : Nat := bits (deDst d) 10 0
def gsGrove (d : Desc) : Nat := bits (deDst d) 19 11
def gsGlade (d : Desc) : Nat := bits (deDst d) 22 20
def gsSlot (d : Desc) : Nat := bits (deDst d) 28 23
def gsOffset (d : Desc) : Nat := bits (deDst d) 44 29
def gsPhase (d : Desc) : Nat := bits (deDst d) 60 45

/-- Whether a freeze at the other side holds a GSEND's reservation, whichever grove of this module made it (R374). -/
def Work.gsendHeld (w : Work) (d : Desc) : Bool :=
  w.groves.any fun e => e.2.sent.any fun x =>
    x.module == gsModule d && x.grove == gsGrove d && x.glade == gsGlade d && x.slot == gsSlot d && x.held

/-- The way of a GSEND's bytes (R371): this module's rings, a port of the route, or a bound lane group. -/
inductive GWay where
  | rings
  | route (port : Nat)
  | group (port group : Nat)
deriving DecidableEq, Repr

/-- The way of a GSEND's bytes: lost where there is no route or its group is lost, `wait` where its group is not bound
(R371). One that has begun keeps the route that it took (R373). -/
def Work.gsendWay (w : Work) (g : Nat) (o : EngOp) : Except Bool GWay :=
  if o.bind = 0 then
    if gsModule o.desc = w.mod.modNo then .ok .rings
    else
      match o.port, w.route (gsModule o.desc) with
      | some p, _ => .ok (.route p)
      | none, some p => .ok (.route p)
      | none, none => .error true
  else
    match (w.regOf g).plans[fld o.bind 6 0]? with
    | some p => if p.lost then .error true else if p.bound then .ok (.group p.entry.port p.entry.group) else .error false
    | none => .error true

/-- The port that a packet leaves by, none where it stays in this module. -/
def GWay.out : GWay → Option Nat
  | .rings => none
  | .route p => some p
  | .group p _ => some p

/-- The lane group that a packet goes on. -/
def GWay.via : GWay → Option (Nat × Nat)
  | .group p q => some (p, q)
  | _ => none

/-- A packet of a GSEND sent: to another module, or to this module's own glade unit (R371). -/
def Work.sendPacket (w : Work) (way : GWay) (p : GladePacket) : Work :=
  match way with
  | .rings => { w with inputs := w.inputs ++ [.gladePacketArrival p] }
  | .route port => w.sendBy (.packet p) port 0
  | .group port _ => w.sendBy (.packet p) port 0

/-- The next packet of a GSEND: at most 112 bytes (R343, R371). -/
def gsendBeat (g k : Nat) (o : EngOp) (w : Work) : Work :=
  let d := o.desc
  let run := deRun d
  let i := o.moved / run
  let off := o.moved % run
  let n := min 112 (run - off)
  match w.gsendWay g o with
  | .error true => w.setHead g k { o with err := some (routeLost (gsModule d)) }
  | .error false => w
  | .ok way =>
    if w.gsendHeld d then w
    else
      let r := engRead (w.accOp g k o) (segs n (o.srcRun i 0 + off) n) o.got.length w
      let o1 := { o with got := o.got ++ r.bytes }
      match r.stopped g k o1 with
      | some w1 => w1
      | none =>
        let id := r.w.mod.nextIdent
        let w1 := (r.w.updMod fun x => { x with nextIdent := id + 1 }).sendPacket way
          { target := gsModule d, source := w.mod.modNo, ident := id,
            feed := feedStream g k o.num, via := way.via, grove := gsGrove d, glade := gsGlade d,
            slot := gsSlot d, phase := gsPhase d, offset := gsOffset d, total := deTotal d, position := o.moved,
            bytes := o1.got }
        let port := match way with
          | .route p => some p
          | _ => none
        w1.setHead g k { o1 with got := [], moved := o.moved + n, acks := o1.acks ++ [⟨id, gsModule d, way.out⟩], port := port }

/-- The next bytes of a read-out, which its capture left as payload (R230, R263). -/
def mrdBeat (g k : Nat) (o : EngOp) (w : Work) : Work :=
  let bs := o.payload.take 256
  let o1 := { o with payload := o.payload.drop 256, moved := o.moved + bs.length }
  if fld o.bind 63 62 = 1 then
    let e := (w.grove g).engine k
    if e.drainHeld.isEmpty ∧ e.drain.length + bs.length ≤ 4096 then
      (w.updEngine g k fun x => x.giveDrain (.engine g k) bs).setHead g k o1
    else w
  else w.putHead g k o (engWrite (w.accOp g k o) k (segs bs.length (fld o.bind 56 0 + o.moved) bs.length) bs (o1, w))

/-! ## Start and completion (R220 to R224, R249, R334) -/

/-- The next step of a running operation's firing. -/
def engStep (g k : Nat) (o : EngOp) (w : Work) : Work :=
  if o.wait.isSome ∨ o.err.isSome ∨ w.portFull g k = true then w
  else if o.op = 0xFE then
    if o.payload.isEmpty then (if o.acks.isEmpty then w.setHead g k { o with firing := false, fires := 1 } else w)
    else mrdBeat g k o w
  else if o.pieceDue then engEmit g k o w
  else if o.moved < deTotal o.desc then (if o.op = 10 then gsendBeat g k o w else engBeat g k o w)
  else if o.acks.isEmpty then engEnd g k o w
  else w

/-- Whether an operation is one of ENG's that moves bytes. -/
def EngOp.moves (o : EngOp) : Bool := decide (o.op ≤ 10) && o.op != 9

/-- ENGINE_OP_START: a context's head operation starts once the one before it has completed; while its firing is under
way, this step performs its next beat, or sends the next piece of its stream, in stream order (R222, R227; log entry 31). -/
def execEngineOpStart (grove ctx : Nat) (s : State) : Out :=
  run s fun w =>
    match ((w.grove grove).engine ctx).queue with
    | o :: _ =>
      if (w.regOf grove).runs = false ∨ (o.cancelled = true ∧ o.firing = false) then w
      else if o.firing then engStep grove ctx o w
      else if o.moves = true ∧ o.running = false then
        w.setHead grove ctx { o with running := true, firing := !o.bound && o.op != 4 }
      else w
    | [] => w

/-- Whether the tokens and packets of a feed have all been accepted (R229). -/
def Work.feedDone (w : Work) (g k : Nat) (o : EngOp) : Bool :=
  o.op != 2 ||
    (o.remote == 0 &&
      match w.lcell (w.rno g) (dCell (bv 24 (deDst o.desc))) with
      | some mc => bits (deDst o.desc) 63 62 != 0 || (w.cell mc).inq.all fun e => e.1 != feedStream g k o.num
      | none => true)

/-- Whether a context's head operation has done all it does: one with an error waits for what it has sent (R222, R224, R229,
R232, R233, R242, R377). -/
def Work.opDone (w : Work) (g k : Nat) (o : EngOp) : Bool :=
  (o.err.isSome && o.acks.isEmpty) ||
    (o.err.isNone && !o.firing && !w.portFull g k && w.feedDone g k o &&
      (o.op == 9 || o.cancelled ||
        (o.running && (if o.bound then bnFires o.bind != 0 && bnFires o.bind == o.fires else o.fires == 1))))

/-- ECSTAT after an operation that ends with an error (R224). -/
def Engine.fail (e : Engine) (num code : Nat) : Engine :=
  if e.err then { e with nerr := min 255 (e.nerr + 1) }
  else { e with err := true, errc := code, nerr := 1, errn := num % 2 ^ 32 }

/-- The canopy source lists and overflow flags after an operation's writes (R249). -/
def Work.noteCanopy (w : Work) (g : Nat) (o : EngOp) : Work :=
  let plain := o.op == 1 && o.err.isNone && !o.srcOff && !o.offCanopy && o.canopy.length == 1
  o.canopy.foldl (fun v h =>
    v.updMx h fun m =>
      if plain ∧ m.srcList.length < 64 then { m with srcList := m.srcList ++ [(o.ran, (v.regOf g).rasid)] }
      else { m with overflow := true }) w

/-- The timeline of a context whose head is a launch's signal: the ticks so far (R324). The entry's `moved` holds how many
numbers it took, `sent` the ticks completed. -/
def Engine.ticked (e : Engine) : Engine :=
  match e.queue with
  | o :: _ => if o.op = 0xFD then { e with tl := max e.tl (o.num - o.moved + min o.sent (o.moved - 1)) } else e
  | [] => e

/-- The head operation of a context completes; one that its route failed marks the module lost, and a reservation that is filled or
lost is its sender's no more (R222, R224, R249, R334, R368, R373, R378). -/
def Work.completeOp (w : Work) (g k : Nat) (o : EngOp) : Work :=
  let w1 := w.updEngine g k fun e =>
    let e1 := match o.err with
      | some c => e.fail o.num (c % 256)
      | none => e
    { e1 with queue := e1.queue.tail, tl := o.num }.ticked
  let w2 := w1.noteCanopy g o
  let w3 := o.notes.foldl (fun v n => v.residBank n.1 (v.regOf g).rasid n.2.1 n.2.2 true) w2
  let code := o.err.getD 0
  let w4 := if 256 ≤ code then w3.updCore g fun c => { c with lost := (c.lost.erase (code / 65536)) ++ [code / 65536] } else w3
  let mine : Sent → Bool := fun x =>
    x.module == gsModule o.desc && x.grove == gsGrove o.desc && x.glade == gsGlade o.desc && x.slot == gsSlot o.desc
  let ended := o.op == 10 && (code == routeLost (gsModule o.desc) || (code == 0 && o.fires == 1))
  let w5 : Work :=
    if ended then { w4 with groves := w4.groves.map fun e => (e.1, { e.2 with sent := e.2.sent.filter fun y => !mine y }) } else w4
  w5.wakeTimeline g k

/-- ENGINE_OP_COMPLETE (R222, R224). -/
def execEngineOpComplete (grove ctx : Nat) (s : State) : Out :=
  run s fun w =>
    match ((w.grove grove).engine ctx).queue with
    | o :: _ => if w.opDone grove ctx o then w.completeOp grove ctx o else w
    | [] => w

/-- DRAIN_PORT_WRITE: eight bytes enter a context's drain port, or are held while it has no room (R230). -/
def execDrainPortWrite (grove ctx : Nat) (value : Word) (s : State) : Out :=
  run s fun w => w.updEngine grove ctx fun e => e.giveDrain .other (leBytes 8 value.toNat)

end Sys2Proof.Machine
end

