-- ==== Sys2Proof/Machine/Matrix.lean ====
section
/-! DEFINITION. The matrix array and its element: packets and handlers, latches, tags, k-steps, read-outs and zeroing
(spec 11 R250 to R265; 02 R56, R57). -/

namespace Sys2Proof.Machine

/-! ## Instructions of cores and twigs (R251) -/

/-- What a matrix instruction comes to: Fail(0x09), a stall, or done with the word for its destination. -/
inductive MxRes where
  | fail
  | stall
  | done (v : Word) (w : Work)

/-- A matrix instruction on a task core or in a twig: its sources' words, its own grove, and whether it is issued in
supervisor mode. A null source nullifies it in a twig (R115), and a failed check abandons the twig (R251). -/
def mxRun (i : Instr) (d : Option (BitVec 5)) (srcs : List (BitVec 5)) (f : Nat → Bool → List Word → Work → MxRes)
    (w : Work) : Work :=
  match w.turn with
  | .core _ =>
    coreInstr i (fun g x =>
      match f g (x.super g) (srcs.map (x.g g)) x with
      | .fail => .error (flt 0x09)
      | .stall => .error .stall
      | .done v y => y.give g (d.getD 0) v) w
  | k =>
    match w.twigAt k with
    | none => w
    | some t =>
      let vs := srcs.map t.src
      let put : TVal → Twig := fun v => match d with
        | some r => t.put r v false
        | none => t
      if vs.any TVal.null then w.setTwig k (put TVal.null0).adv
      else
        match f (agentGrove k) false (vs.map fun v => v.bits.setWidth 64) w with
        | .fail => w.abandon k t 0x09 0 0
        | .stall => w.setTwig k { t with stall := some (t.stall.getD w.mod.cycle) }
        | .done v y => y.setTwig k (put ⟨v.setWidth 256, false⟩).adv

/-! ## Formats (R37, R262) -/

/-- The format code of a matrix code, read as MX under scale kind 1 (R37, R262). -/
def mxCode (f kind : Nat) : Nat :=
  if kind = 1 ∧ 2 ≤ f ∧ f ≤ 4 then f + 8 else [2, 1, 3, 4, 5, 6, 8, 9].getD f 0

/-- The width of a matrix code's elements. -/
def mxWidth (f : Nat) : Nat := codeWidth (mxCode f 0)

/-- Whether a matrix code may be read under a scale kind (R262). -/
def kindOk (f kind : Nat) : Bool := if 6 ≤ f then kind == 2 else if 2 ≤ f ∧ f ≤ 4 then kind ≤ 1 else kind == 0

/-- The bytes of a scale entry of a kind (R262). -/
def kindBytes (kind : Nat) : Nat := if kind = 2 then 2 else 1

/-! ## Latches (R250, R252) -/

/-- The B binding's kind and offset (R261). -/
def bKind (b : Word) : Nat := fld b 20 19
def bOff (b : Word) : Nat := fld b 18 0
/-- The A binding's kind and handle (R261). -/
def aKind (b : Word) : Nat := fld b 9 8
def aHandle (b : Word) : Nat := fld b 7 0

/-- Bytes of a column bank; past the bank's end they are free (R252; log entry 32). -/
def bankBytes (g j off n : Nat) (w : Work) : List Byte × Work :=
  let near := min n (0x80000 - off)
  let r := freshBytes (n - near) w
  (w.bytes (canopyBase g j + off) near ++ r.1, r.2)

/-- The same range of every column bank. -/
def allBanks (g off n : Nat) : List Nat → Work → List (List Byte) × Work
  | [], w => ([], w)
  | j :: js, w =>
    let r := bankBytes g j off n w
    let t := allBanks g off n js r.2
    (r.1 :: t.1, t.2)

/-- The scale entries of a column that an MLDB reads. -/
def colScales (kb f : Nat) : Nat := kb * 8 / mxWidth f / 32

/-- MLDB's work: the shadow latch loads the range of every column (R252). -/
def mldb (f g : Nat) (vs : List Word) (w : Work) : MxRes :=
  let off := (vs.getD 0 0).toNat
  let kb := (vs.getD 1 0).toNat
  let m := w.mx g
  if off % 32 ≠ 0 ∨ kb % 32 ≠ 0 ∨ kb < 32 ∨ 512 < kb ∨ 0x80000 < off + kb then .fail
  else if m.shadow.st ≠ 0 then .stall
  else
    let cols := allBanks g off kb (List.range 32) w
    let kind := bKind m.bBind
    let scs := if kind = 0 then ([], cols.2)
      else allBanks g (bOff m.bBind) (colScales kb f * kindBytes kind) (List.range 32) cols.2
    .done 0 (scs.2.setMx g { m with
      shadow := { loaded := true, st := 1, off := off, kb := kb, fmt := f, skind := kind, sboff := bOff m.bBind,
                  cols := cols.1, scales := scs.1 } })

/-- MLDB (R252). -/
def execMldb (a b : BitVec 5) (f : BitVec 3) (s : State) : Out :=
  run s (mxRun (.mldb a b f) none [a, b] fun g _ => mldb f.toNat g)

/-- SHADOW_LATCH_FULL: a loading shadow latch is full (R250, R252). -/
def execShadowLatchFull (grove : Nat) (s : State) : Out :=
  run s fun w =>
    w.updMx grove fun m => if m.shadow.st = 1 then { m with shadow := { m.shadow with st := 2 } } else m

/-- MSCL's work: both bindings set (R261). -/
def mscl (g : Nat) (vs : List Word) (w : Work) : MxRes :=
  let a := vs.getD 0 0
  let b := vs.getD 1 0
  if fld a 63 10 ≠ 0 ∨ fld b 63 21 ≠ 0 ∨ aKind a = 3 ∨ bKind b = 3 ∨ (aKind a = 0 ∧ aHandle a ≠ 0) ∨
      (aKind a ≠ 0 ∧ w.isRing g (aHandle a) = false) ∨ (bKind b = 2 ∧ bOff b % 2 ≠ 0) then .fail
  else .done 0 (w.updMx g fun m => { m with aBind := a, bBind := b })

/-- MSCL (R261). -/
def execMscl (a b : BitVec 5) (s : State) : Out := run s (mxRun (.mscl a b) none [a, b] fun g _ => mscl g)

/-! ## Tags (R257, R258, R264) -/

/-- A tag of a grove. -/
def Mx.tag (m : Mx) (n : Nat) : Tag := Tbl.getD m.tags n Tag.reset

/-- A tag set. -/
def Work.setTag (w : Work) (g n : Nat) (t : Tag) : Work := w.updMx g fun m => { m with tags := Tbl.put m.tags n t }

/-- Held k-steps whose turn has come, queued in sequence (R258). -/
def promoteFrom : Nat → Nat → Tag → Tag
  | 0, _, t => t
  | fuel + 1, s, t =>
    match t.held.find? fun i => i.seq == s with
    | some i => promoteFrom fuel ((s + 1) % 256) { t with held := t.held.erase i, queue := t.queue ++ [i] }
    | none => t

/-- Held k-steps of a tag queued from NEXT on (R258). -/
def Tag.promote (t : Tag) : Tag := promoteFrom 128 t.next t

/-- The numbers that begun k-steps of a grove have taken and not completed (R259, R264). -/
def Mx.open (m : Mx) : List Nat := ((Tbl.vals m.tags).map fun t => (t.queue ++ t.held ++ t.kept).filterMap TagItem.num).flatten

/-- TLM after completions: the number below the first that is not complete (R259). -/
def Work.settleTlm (w : Work) (g : Nat) : Work :=
  let m := w.mx g
  let n := m.open.foldl (fun a x => min a (x - 1)) m.begun
  (w.setMx g { m with tlm := max m.tlm n }).wakeTimeline g 8

/-- A tag frozen under its fault's release number (R258, R262). -/
def Work.freezeTag (w : Work) (g n seq code : Nat) : Work :=
  let r := w.rno g
  let num := (w.region r).nextFseq
  (w.freezeObj r
    { fseq := 0, okind := 6, code := code, stuck := false, grove := g, cell := 0, node := n, colour := 0, iter := 0,
      toks := [], task := none, what := n, aux := seq }
    { w.blank g code with tag := n + seq * 2 ^ 16 }).updMx g fun m =>
      { m with tags := Tbl.put m.tags n { m.tag n with frozen := some num } }

/-- A k-step handed to its tag (R255, R258). -/
def Work.handOver (w : Work) (g n : Nat) (i : TagItem) : Work :=
  let t := (w.mx g).tag n
  let e := (i.seq + 256 - t.next) % 256
  if t.frozen.isSome then w.setTag g n { t with kept := t.kept ++ [i] }
  else if 128 ≤ e ∨ ((t.queue ++ t.held).any fun x => x.kind == 0 && x.seq == i.seq) = true then
    (w.setTag g n { t with kept := [i] }).freezeTag g n i.seq 0x10
  else if e = 0 then w.setTag g n { t with queue := t.queue ++ [i] }
  else w.setTag g n { t with held := t.held ++ [i] }

/-- A token or k-step's place among what is handed over in a grove. -/
def Work.nextOrder (w : Work) (g : Nat) : Nat × Work :=
  ((w.mx g).order, w.updMx g fun m => { m with order := m.order + 1 })

/-- A packet of no rows, which tokens carry. -/
def Packet.blank : Packet := ⟨0, 0, [], 0, 0, 0, 0⟩

/-- ACC of a packet header (R253). -/
def hdAcc (h : BitVec 32) : Nat := bits h.toNat 15 10
/-- SEQ of a packet header. -/
def hdSeq (h : BitVec 32) : Nat := bits h.toNat 23 16
/-- KLAST of a packet header. -/
def hdKlast (h : BitVec 32) : Nat := bits h.toNat 28 24
/-- SWAP of a packet header. -/
def hdSwap (h : BitVec 32) : Bool := h.getLsbD 31
/-- TTAG of a packet header. -/
def hdTag (h : BitVec 32) : Nat := bits h.toNat 7 0

/-- MMA: its k-step is handed to its tag, relative to its packet (R255, R258, R260). A task core takes it as illegal
(R80). -/
def execMma (t : BitVec 6) (sq : BitVec 8) (k : BitVec 4) (f : BitVec 3) (m : BitVec 5) (s : State) : Out :=
  run s fun w =>
    match w.turn with
    | .core _ => coreRun (fun _ _ => .error (flt 0x01)) w
    | a =>
      let g := agentGrove a
      match w.twigAt a with
      | none => w
      | some x =>
        match (w.mx g).handled.find? fun p => p.order == x.packet with
        | some p =>
          if agentIsMx a then
            let r := w.nextOrder g
            (r.2.handOver g ((t.toNat + hdAcc p.hdr + p.index) % 64)
              { kind := 0, order := r.1, seq := (sq.toNat + hdSeq p.hdr) % 256, packet := p, kdep := k.toNat,
                afmt := f.toNat, mrows := m.toNat, num := none, zafter := false, fmt := 0, ctx := 0, opNum := 0 }).setTwig
              a x.adv
          else w
        | none => w

/-! ## Packets and handlers (R253 to R255) -/

/-- A packet that launches nothing: it counts as accepted, and a record names the grove and its header (R253, R255). -/
def Work.discardPacket (w : Work) (g : Nat) (p : Packet) : Work :=
  (w.acceptPacket g p.ctx p.opNum).post (w.rno g) { w.blank g 0x11 with aux := p.hdr.setWidth 64 }

/-- The handler-table entry of a packet, if it holds a handler whose block is loaded (R254, R255). -/
def Mx.handlerOf (m : Mx) (p : Packet) : Option Word :=
  (Tbl.find m.handlers (hdTag p.hdr)).filter fun e => e.getLsbD 63 && m.blocks.contains (fld e 8 0)

/-- A handler as a packet launches it (R255). -/
def handlerTwig (m : Mx) (e : Word) (p : Packet) (temps : List TVal) : Twig :=
  let a := fld e 8 0
  let rec0 : BitVec 96 := (bv 24 (fld e 47 24)).setWidth 96 <<< 64 ||| noDst.setWidth 96 <<< 40
  let colour : BitVec 12 := bv 12 (fld e 59 48)
  let tok := mkTok noDst colour 0 (bv 8 p.index) 0 [p.hdr.setWidth 64, bv 64 p.index, bv 64 p.rows.length, bv 64 p.rowLen]
  { node := hdTag p.hdr, record := rec0, colour := colour, iter := 0, seq := bv 8 p.index, ins := [tok], entry := a,
    header := blockHeader m.code a, code := blockCode m.code a, next := 0, temps := temps, outA := none, outB := none,
    order := m.twigOrder, stall := none, lsid := 0, packet := p.order, busy := [] }

/-- A handler launched for a packet. -/
def Work.launchHandler (w : Work) (g : Nat) (e : Word) (p : Packet) : Work :=
  let t := freshTemps w
  t.2.updMx g fun m =>
    { m with
      handled := m.handled ++ [p]
      twigs := Tbl.put m.twigs (freeCtx m.twigs) (handlerTwig m e p t.1)
      twigOrder := m.twigOrder + 1 }

/-- PACKET_ARRIVAL: the first packet whose handler entry is not frozen launches its handler where a context is free, or is
discarded (R253, R255). -/
def execPacketArrival (grove : Nat) (s : State) : Out :=
  run s fun w =>
    let m := w.mx grove
    match m.arrivals.find? fun p => !m.frozenEntries.contains (hdTag p.hdr) && !m.spilled.contains p.order with
    | none => w
    | some p =>
      let m1 := { m with arrivals := m.arrivals.erase p }
      let w1 := w.setMx grove (if bits p.hdr.toNat 30 29 ≠ 0 ∨ bits p.hdr.toNat 9 8 ≠ 0 ∨ (m.handlerOf p).isNone = true then m1.freePackets [p] else m1)
      if bits p.hdr.toNat 30 29 ≠ 0 ∨ bits p.hdr.toNat 9 8 ≠ 0 then w1.discardPacket grove p
      else
        match m.handlerOf p with
        | none => w1.discardPacket grove p
        | some e =>
          let a := fld e 8 0
          let n := (blockCode m.code a).length + 2
          if 4 ≤ m.twigs.length ∨ (m.pendingTwig.any fun b => decide (b.1 < a + n) && decide (a < b.1 + b.2.length)) = true then w
          else w1.launchHandler grove e p

/-! ## k-steps (R259 to R262) -/

/-- The k-step that the array performs next: of those queued at tags that are not frozen, the one handed over first; a token
that stands before it is served first (R259, R263). -/
def earliest : Tbl Tag → Option (Nat × TagItem)
  | [] => none
  | (n, t) :: rest =>
    let tail := earliest rest
    match t.frozen, t.queue.find? fun i => i.kind == 0 with
    | none, some i =>
      match tail with
      | some (k, j) => if i.order < j.order then some (n, i) else some (k, j)
      | none => some (n, i)
    | _, _ => tail

/-- An element of packed bytes under its block's scale: zero past the last whole element (R260). -/
def mxElem (code wd : Nat) (bytes : List Byte) (scale : Nat → Nat) (k : Nat) : Num :=
  if bytes.length * 8 < (k + 1) * wd then .fin false 0 0 else decodeScaled code (scale (k / 32)) (unpackAt wd (leNat bytes) k)

/-- A scale entry of packed entries. -/
def scaleAt (kind : Nat) (bs : List Byte) (i : Nat) : Nat := unpackAt (8 * kindBytes kind) (leNat bs) i

/-- The exact sum of products; the empty sum stands for no product. -/
def exactSum : List Num → Num
  | [] => .fin false 0 0
  | [x] => x
  | x :: t => x.add (exactSum t)

/-- What a k-step reads besides its packet: its A scale entries, the latch it multiplies by. -/
structure StepIn where
  scales : List Byte
  latch : Latch

/-- The elements of a k-step. -/
def TagItem.depth (i : TagItem) : Nat := (i.kdep + 1) * 32 * 8 / mxWidth i.afmt

/-- The rows that a k-step updates. -/
def TagItem.rows (i : TagItem) : Nat := min (i.mrows + 1) i.packet.rows.length

/-- Whether an element counts (R260). -/
def TagItem.counts (i : TagItem) (k : Nat) : Bool :=
  let kl := hdKlast i.packet.hdr
  kl == 0 || decide (k < (i.depth - 32) + kl)

/-- The sum of products of row `r` and column `j` (R56, R260). -/
def TagItem.dot (i : TagItem) (akind : Nat) (x : StepIn) (r j : Nat) : Num :=
  let wa := mxWidth i.afmt
  let row := (i.packet.rows.getD r []).take ((i.kdep + 1) * 32)
  let col := x.latch.cols.getD j []
  let nb := i.depth / 32
  let a : Nat → Num := mxElem (mxCode i.afmt akind) wa row fun b => scaleAt akind x.scales (r * nb + b)
  let b : Nat → Num := mxElem (mxCode x.latch.fmt x.latch.skind) (mxWidth x.latch.fmt) col fun b =>
    scaleAt x.latch.skind (x.latch.scales.getD j []) b
  exactSum (((List.range i.depth).filter i.counts).map fun k => (a k).mul (b k))

/-- A k-step's writes to its accumulator (R260). -/
def TagItem.apply (i : TagItem) (g n akind : Nat) (x : StepIn) (w : Work) : Work :=
  let cells := ((List.range i.rows).map fun r => (List.range 32).map fun j => (r, j)).flatten
  cells.foldl (fun v e =>
    let a := accBase g n + 4 * (32 * e.1 + e.2)
    let old := fmtF32.decode (v.load a 4)
    (v.store a (leBytes 4 (fmtF32.round (old.add (i.dot akind x e.1 e.2))))).homeAccess (.mx g) a) w

/-- A k-step begun: it takes the next number on TLM, unless a retry kept one (R259). -/
def Work.beginStep (w : Work) (g n : Nat) (i : TagItem) : TagItem × Work :=
  match i.num with
  | some _ => (i, w)
  | none =>
    let m := w.mx g
    let i1 := { i with num := some (m.begun + 1) }
    let t := m.tag n
    (i1, w.setMx g { m with begun := m.begun + 1, tags := Tbl.put m.tags n { t with queue := setAt t.queue 0 i1 } })

/-- A k-step performed: swap, products, NEXT, and its number complete (R259, R260). -/
def Work.performStep (w : Work) (g n : Nat) (i : TagItem) (x : StepIn) : Work :=
  let akind := aKind (w.mx g).aBind
  let w1 := w.updMx g fun m => if hdSwap i.packet.hdr then { m with active := { m.shadow with st := 0 }, shadow := Latch.reset } else m
  let w2 := i.apply g n akind x w1
  (w2.updMx g fun m =>
    let t := m.tag n
    { m with tags := Tbl.put m.tags n { t with queue := t.queue.tail, next := (t.next + 1) % 256 }.promote }.freePackets
      [i.packet]).settleTlm g

/-- The A scale entries that a k-step reads from a slot: none where the slot breaks R262 or cannot be read. -/
def Work.scaleSlot (w : Work) (g : Nat) (i : TagItem) (kind addr slotsz : Nat) : Option (List Byte × Work) :=
  let n := i.rows * (i.depth / 32)
  let len := n * kindBytes kind
  match w.vread (w.accEngine g false (.mx g)) addr 8 with
  | .error _ => none
  | .ok (hd, w1) =>
    if leNat hd = n ∧ 8 + len ≤ slotsz then
      match w1.vread (w1.accEngine g false (.mx g)) (addr + 8) len with
      | .ok (bs, w2) => some (bs, w2)
      | .error _ => none
    else none

/-- KSTEP: the array begins its next k-step once the shadow it swaps in is full and its scale slot is there, checks its
scales, and performs it or freezes its tag (R259 to R262). -/
def execKstep (grove : Nat) (s : State) : Out :=
  run s fun w =>
    let m := w.mx grove
    match earliest m.tags with
    | none => w
    | some (n, i0) =>
      let swap := hdSwap i0.packet.hdr
      let latch := if swap then m.shadow else m.active
      let kind := aKind m.aBind
      if (w.regOf grove).runs = false ∨ (m.tag n).queue.head? ≠ some i0 ∨ (swap = true ∧ m.shadow.st ≠ 2) then w
      else if kindOk i0.afmt kind = false ∨ kindOk latch.fmt latch.skind = false then
        let b := w.beginStep grove n i0
        b.2.freezeTag grove n i0.seq 0x14
      else
        let nb := i0.depth / 32
        let fits := latch.skind = 0 ∨ colScales latch.kb latch.fmt = nb
        if kind = 0 then
          let b := w.beginStep grove n i0
          if fits then b.2.performStep grove n b.1 ⟨[], latch⟩ else b.2.freezeTag grove n i0.seq 0x14
        else
          let h := aHandle m.aBind
          let x := (w.grove grove).handle h
          if x.slots.getD x.dh 9 ≠ 2 then w
          else
            let b := w.beginStep grove n i0
            let sl := x.dh
            let w1 := b.2.changeHandle grove h (x.take false)
            match w1.scaleSlot grove i0 kind (x.addr sl) x.slotsz with
            | some (bs, w2) =>
              let w3 := w2.freeSlotOf grove h sl
              if fits then w3.performStep grove n b.1 ⟨bs, latch⟩ else w3.freezeTag grove n i0.seq 0x14
            | none => (w1.freeSlotOf grove h sl).freezeTag grove n i0.seq 0x14

/-! ## Read-outs and zeroing (R263, R264) -/

/-- The accumulator and NEXT of a tag cleared. -/
def Work.clearAcc (w : Work) (g n : Nat) : Work :=
  ((w.store (accBase g n) (List.replicate 4096 0)).homeAccess (.mx g) (accBase g n)).updMx g fun m =>
    { m with tags := Tbl.put m.tags n { m.tag n with next := 0 } }

/-- A token queued at a tag. -/
def Work.queueToken (w : Work) (g n : Nat) (i : TagItem) : Work :=
  let r := w.nextOrder g
  let t := (r.2.mx g).tag n
  r.2.setTag g n { t with queue := t.queue ++ [{ i with order := r.1 }] }

/-- A token of a kind. -/
def mkItem (kind : Nat) : TagItem := ⟨kind, 0, 0, Packet.blank, 0, 0, 0, none, false, 0, 0, 0⟩

/-- Whether a word names a tag alone (R263, R264). -/
def tagWord (x : Word) (zafter : Bool) : Bool := fld x 63 9 == 0 && fld x 7 6 == 0 && (zafter || fld x 8 8 == 0)

/-- MRD's work: a read token to the tag, and a read-out that takes the next number on its context; a reserved
read-out code raises Permission (R263, R324; log entry 94). -/
def mrd (f g : Nat) (sup : Bool) (vs : List Word) (w : Work) : MxRes :=
  let a := vs.getD 0 0
  let b := vs.getD 1 0
  let k := fld b 61 59
  let e := (w.grove g).engine k
  let dk := fld b 63 62
  if 4 < f ∨ tagWord a true = false ∨ 1 < dk ∨ fld b 58 57 ≠ 0 ∨ (dk = 0 ∧ fld b 56 0 % 64 ≠ 0) ∨ (dk = 1 ∧ fld b 56 0 ≠ 0) then .fail
  else if e.holdsSignal then .fail
  else if 16 ≤ e.queue.length then .stall
  else
    let r := w.enqueueOp g k 0xFE 0 b sup (agentWho w.turn)
    .done (bv 64 r.1) (r.2.queueToken g (fld a 5 0) { mkItem 1 with zafter := a.getLsbD 8, fmt := f, ctx := k, opNum := r.1 })

/-- MRD (R263). -/
def execMrd (d a b : BitVec 5) (f : BitVec 4) (s : State) : Out :=
  run s (mxRun (.mrd d a b f) (some d) [a, b] fun g sup => mrd f.toNat g sup)

/-- Tokens that stand at a frozen tag, served as the very next steps in their order (R264). -/
def Work.serveFrozen (w : Work) (g n : Nat) : Work :=
  let ts := ((w.mx g).tag n).queue.filterMap fun i =>
    if i.kind = 1 then some (Move.event (.mrdServe g n)) else if i.kind = 2 then some (Move.event (.mzeroServe g n)) else none
  { w with moves := ts ++ w.moves }

/-- MZERO's work: a token to the tag; a frozen tag serves what stands before it and then it, at once (R264). -/
def mzero (g : Nat) (vs : List Word) (w : Work) : MxRes :=
  let a := vs.getD 0 0
  let n := fld a 5 0
  if tagWord a false = false then .fail
  else
    let w1 := w.queueToken g n (mkItem 2)
    .done 0 (if ((w.mx g).tag n).frozen.isSome then w1.serveFrozen g n else w1)

/-- MZERO (R264). -/
def execMzero (a : BitVec 5) (s : State) : Out := run s (mxRun (.mzero a) none [a] fun g _ => mzero g)

/-- The token that a tag can serve: at its head, or, on a frozen tag that a zero token waits at, the first token there
(R263, R264). -/
def Tag.token (t : Tag) : Option TagItem :=
  match t.frozen with
  | none => t.queue.head?.filter fun i => i.kind != 0
  | some _ => if t.queue.any fun i => i.kind == 2 then t.queue.find? fun i => i.kind != 0 else none

/-- A tile converted to a read-out format, row-major (R53, R263). -/
def tileBytes (f : Nat) (bs : List Byte) : List Byte :=
  let n := codeWidth f
  leBytes (1024 * n / 8) (pack n ((unpack 32 1024 (leNat bs)).map (convertElem 0 f)))

/-- A captured tile given to its read-out (R263). -/
def Work.captured (w : Work) (g k num : Nat) (bs : List Byte) : Work :=
  w.updEngine g k fun e =>
    { e with queue := e.queue.map fun o =>
        if o.num = num ∧ o.op = 0xFE ∧ o.cancelled = false then { o with running := true, firing := true, payload := bs } else o }

/-- MRD_SERVE: a read token captures its tile, which its context then writes; with ZAFTER the tag is zeroed in the same step
(R263). -/
def execMrdServe (grove tag : Nat) (s : State) : Out :=
  run s fun w =>
    let t := (w.mx grove).tag tag
    match t.token with
    | some i =>
      if i.kind = 1 then
        let a := accBase grove tag
        let w1 := (w.setTag grove tag { t with queue := t.queue.erase i }).homeAccess (.mx grove) a
        let w2 := w1.captured grove i.ctx i.opNum (tileBytes i.fmt (w.bytes a 4096))
        if i.zafter then
          let w3 := w2.clearAcc grove tag
          w3.updMx grove fun m =>
            if (m.tag tag).frozen.isSome then m else { m with tags := Tbl.put m.tags tag (m.tag tag).promote }
        else w2
      else w
    | none => w

/-- MZERO_SERVE: the accumulator and NEXT are cleared and held k-steps discarded; a frozen tag loses every k-step it kept and
is no longer frozen (R264). -/
def execMzeroServe (grove tag : Nat) (s : State) : Out :=
  run s fun w =>
    let t := (w.mx grove).tag tag
    match t.token with
    | some i =>
      if i.kind = 2 then
        let q := t.queue.erase i
        let t1 : Tag :=
          if t.frozen.isSome then { t with queue := q.filter fun x => x.kind != 0, held := [], kept := [], frozen := none }
          else { t with queue := q, held := [] }
        let gone := (t.packets.filter fun p => !t1.packets.contains p)
        let w1 := ((w.setTag grove tag t1).updMx grove fun m => m.freePackets gone).clearAcc grove tag
        let w2 := match t.frozen with
          | some n => w1.updRegion (w.rno grove) fun x => { x with frozen := x.frozen.filter fun o => o.fseq != n }
          | none => w1
        w2.settleTlm grove
      else w
    | none => w

/-- MSTAT's word (R264). -/
def Mx.stat (m : Mx) (n : Nat) : Word :=
  let t := m.tag n
  bv 64 (m.begun % 2 ^ 32 * 2 ^ 32 + m.shadow.st * 2 ^ 25 + bit t.frozen.isSome 24 + t.held.length * 2 ^ 16 +
    min 255 t.queue.length * 2 ^ 8 + t.next)

/-- MSTAT (R264). -/
def execMstat (d a : BitVec 5) (s : State) : Out :=
  run s (mxRun (.mstat d a) (some d) [a] fun g _ vs w =>
    if tagWord (vs.getD 0 0) false then .done ((w.mx g).stat (fld (vs.getD 0 0) 5 0)) w else .fail)

end Sys2Proof.Machine
end

