-- ==== Sys2Proof/Machine/Remote.lean ====
section
/-! DEFINITION. Remote loads, stores, atomics and invocations, at the source and at the target, and the streams that carry
them (spec 16 R346 to R356). -/

namespace Sys2Proof.Machine

/-! ## Issue (R352, R353) -/

/-- The target of a remote instruction, and the checks of its address (R353). -/
def Work.remoteCheck (w : Work) (g : Nat) (a b : BitVec 5) (n : Nat) : Except Stop (Nat × Nat) := do
  let t := w.g g b
  let va := (w.g g a).toNat
  need (fld t 63 11 = 0 && fld t 10 0 ≠ w.mod.modNo) 0x09
  needAt (va < 2 ^ 57) 0x08 va
  needAt (va % n = 0) 0x03 va
  return (fld t 10 0, va)

/-- A module entered in a list of modules, once. -/
def addOnce (m : Nat) (l : List Nat) : List Nat := if l.contains m then l else l ++ [m]

/-- A target marked in a core's lost-module mask (R351). -/
def Work.markLost (w : Work) (g m : Nat) : Work := w.updCore g fun c => { c with lost := addOnce m c.lost }

/-- A task that waits for a pair of its stream to a target (R348, R349). -/
def Work.awaitPair (w : Work) (g t : Nat) : Except Stop Work :=
  (if (w.mod.stream false g t).isNone then w.askOpen false g t else w).suspend g 7 t none 0 (w.core g).pc false

/-- A core's request as it travels. -/
def Work.coreReq (w : Work) (g op va n : Nat) (data : List Byte) : RemoteReq where
  target := 0
  source := w.mod.modNo
  srcCell := false
  srcAgent := g
  ident := 0
  op := op
  amo := 0
  type := 0
  asid := (w.core g).asid
  super := w.super g
  addr := va
  size := n
  data := data
  entry := 0
  seq := 0

/-- A core's request as its stream keeps it. -/
def Work.coreOut (w : Work) (g op va n : Nat) (dest : Option Nat) : OutReq :=
  { OutReq.blank with
    op := op, size := n, addr := va, dest := dest, asid := (w.core g).asid, sup := w.super g }

/-- The WOBJ of a record that waits for a response: the target in its 16 bits, the request's number, from one, above
them; a record that waits for a stream names the target alone. -/
def waitObj (t id : Nat) : Nat := t + 65536 * (id + 1)

/-- A request whose answer resumes the task with `d` (R353). A lost one raises Peer Lost at once (R351). -/
def sendAndWait (g t : Nat) (d : BitVec 5) (q : OutReq) (msg : RemoteReq) (w : Work) : Except Stop Work :=
  match w.pair false g t with
  | .wait => w.awaitPair g t
  | .lost => .ok ((w.markLost g t).raise g 0x1A 0 (bv 64 t) none)
  | .free s => (w.sendReq s q msg).suspend g 7 (waitObj t w.mod.nextIdent) none d (w.core g).pc4 false

/-- RLD (R353). -/
def execRld (d a b : BitVec 5) (s : State) : Out :=
  run s (coreInstr (.rld d a b) fun g w => do
    let (t, va) ← w.remoteCheck g a b 8
    sendAndWait g t d (w.coreOut g 0 va 8 none) (w.coreReq g 0 va 8 []) w)

/-- The local range of a block form checked as a load or a store of its whole size: it lies in one page of this module's memory,
since no window takes the size (R142, R170, R174, R353). -/
def Work.blockCheck (w : Work) (g va n : Nat) (store : Bool) : Except Stop Work := do
  let a := w.accCore g
  let (pa, w1) ← stopAt (badAt va (w.translate g a.waiter a.asid a.user (if store then needW else needR) va))
  needAt (pa / 2 ^ 45 = w1.mod.modNo && pa % 2 ^ 45 + n ≤ memTop && !(store && w1.readOnly (pa % 2 ^ 45))) 0x09 va
  return w1

/-- A block RLD: its bytes are written at G[d] when they come (R353, R354). -/
def rldBlock (n : Nat) (d a b : BitVec 5) (g : Nat) (w : Work) : Except Stop Work := do
  let (t, va) ← w.remoteCheck g a b n
  let dst := (w.g g d).toNat
  needAt (dst % n = 0) 0x03 dst
  let w1 ← w.blockCheck g dst n true
  match w1.pair false g t with
  | .wait => w1.awaitPair g t
  | .lost => ((w1.markLost g t).updCore g fun c => { c with rldLost := addOnce t c.rldLost }).next g
  | .free s =>
    ((w1.sendReq s (w1.coreOut g 0 va n (some dst)) (w1.coreReq g 0 va n [])).updCore g fun c =>
      { c with rldOut := c.rldOut ++ [w1.mod.nextIdent] }).next g

/-- RLD.B32 (R353, R354). -/
def execRldB32 (d a b : BitVec 5) (s : State) : Out := run s (coreInstr (.rldB32 d a b) (rldBlock 32 d a b))
/-- RLD.B64 (R353, R354). -/
def execRldB64 (d a b : BitVec 5) (s : State) : Out := run s (coreInstr (.rldB64 d a b) (rldBlock 64 d a b))
/-- RLD.B128 (R353, R354). -/
def execRldB128 (d a b : BitVec 5) (s : State) : Out := run s (coreInstr (.rldB128 d a b) (rldBlock 128 d a b))

/-- RLD.DONE's report of a core: lost modules, and ERR (R354). -/
def Core.rldStatus (c : Core) : Word := lostStatus c.rldLost ||| (if c.rldErr then bv 64 (2 ^ 62) else 0)

/-- RLD.DONE (R354). -/
def execRldDone (d : BitVec 5) (s : State) : Out :=
  run s (coreInstr (.rldDone d) fun g w =>
    let c := w.core g
    if c.rldOut.isEmpty then
      ((w.setCore g { c with rldLost := [], rldErr := false }).acquire g).give g d c.rldStatus
    else w.suspend g 7 rldWait none d c.pc4 false)

/-- A store's request sent: the task goes on (R353). -/
def sendStore (g t va n : Nat) (data : List Byte) (w : Work) : Except Stop Work :=
  match w.pair false g t with
  | .wait => w.awaitPair g t
  | .lost => (w.markLost g t).next g
  | .free s => (w.sendReq s (w.coreOut g 1 va n none) (w.coreReq g 1 va n data)).next g

/-- RST (R353). -/
def execRst (d a b : BitVec 5) (s : State) : Out :=
  run s (coreInstr (.rst d a b) fun g w => do
    let (t, va) ← w.remoteCheck g a b 8
    sendStore g t va 8 (leBytes 8 (w.g g d).toNat) w)

/-- A block RST: its bytes are read now, in program order (R353). -/
def rstBlock (n : Nat) (d a b : BitVec 5) (g : Nat) (w : Work) : Except Stop Work := do
  let (t, va) ← w.remoteCheck g a b n
  let src := (w.g g d).toNat
  needAt (src % n = 0) 0x03 src
  let w1 ← w.blockCheck g src n false
  match w1.pair false g t with
  | .wait => w1.awaitPair g t
  | _ =>
    let (bs, w2) ← stopAt (w1.vread (w1.accCore g) src n)
    sendStore g t va n bs w2

/-- RST.B32 (R353). -/
def execRstB32 (d a b : BitVec 5) (s : State) : Out := run s (coreInstr (.rstB32 d a b) (rstBlock 32 d a b))
/-- RST.B64 (R353). -/
def execRstB64 (d a b : BitVec 5) (s : State) : Out := run s (coreInstr (.rstB64 d a b) (rstBlock 64 d a b))
/-- RST.B128 (R353). -/
def execRstB128 (d a b : BitVec 5) (s : State) : Out := run s (coreInstr (.rstB128 d a b) (rstBlock 128 d a b))

/-- RAMO (R207, R353). -/
def execRamo (d a b : BitVec 5) (t o : BitVec 3) (s : State) : Out :=
  run s (coreInstr (.ramo d a b t o) fun g w => do
    let n := opBytes t
    let (m, va) ← w.remoteCheck g a b n
    sendAndWait g m d { w.coreOut g 2 va n none with node := t.toNat }
      { w.coreReq g 2 va n (leBytes n (w.g g d).toNat) with amo := o.toNat, type := t.toNat } w)

/-! ## What a source's requests come to (R348, R350, R351) -/

/-- A request gone from its stream, whose slots may all be free now (R347). -/
def Mod.dropReq (m : Mod) (s : Stream) (id : Nat) : Mod :=
  let out := s.out.filter fun q => q.ident != id
  m.setStream { s with out := out, idle := if out.isEmpty then some m.cycle else none }

/-- The stream and request that a response names. -/
def Mod.request (m : Mod) (target id : Nat) : Option (Stream × OutReq) :=
  match m.streams.find? fun s => s.target == target && s.out.any fun q => q.ident == id with
  | some s => (s.out.find? fun q => q.ident == id).map fun q => (s, q)
  | none => none

/-- A waiting record of a core's request given its value (R348, R353). -/
def Work.wakeWith (w : Work) (g t id : Nat) (v : Word) : Work :=
  let now := w.mod.cycle
  w.mapRecs (w.rno g) (fun x => x.wait == 7 && x.wobj == waitObj t id) fun x => (x.setReg x.dreg v).wake now

/-- A waiting record of a core's request marked with the fault that it raises as it resumes, and the
remote address that the fault names (R350, R351, R385). -/
def Work.wakeBad (w : Work) (g t id code addr : Nat) : Work :=
  let now := w.mod.cycle
  w.mapRecs (w.rno g) (fun x => x.wait == 7 && x.wobj == waitObj t id) fun x =>
    { x with wobj := t + 65536 * (2 ^ 40 + code), dval := some (bv 64 addr) }.wake now

/-- Whether a record waits in RLD.DONE of a core for no block RLD any more (R354). -/
def Work.rldReady (w : Work) (g : Nat) (x : Record) : Bool :=
  x.wait == 7 && x.wobj == rldWait && x.home == g && !x.pend.any fun k => (w.core g).rldOut.contains k

/-- The task that has waited longest in RLD.DONE of a core resumes with the losses since the previous RLD.DONE completed, and then
the next, `n` at most (R354). -/
def wakeRlds (g : Nat) : Nat → Work → Work
  | 0, w => w
  | n + 1, w =>
    match longest ((w.waiting (w.rno g)).filter (w.rldReady g)) with
    | none => w
    | some x =>
      let now := w.mod.cycle
      let v := (w.core g).rldStatus
      wakeRlds g n ((w.mapRecs (w.rno g) (fun y => w.rldReady g y && y.order == x.order) fun y =>
        (y.setReg y.dreg v).wake now).updCore g fun k => { k with rldLost := [], rldErr := false })

/-- Tasks that wait in RLD.DONE of a core resume with its report once no block RLD issued before it is outstanding (R354). -/
def Work.wakeRldDone (w : Work) (g : Nat) : Work :=
  wakeRlds g ((w.waiting (w.rno g)).filter (w.rldReady g)).length w

/-- Tasks that wait in FENCE of a core resume once no remote store or atomic issued before it is outstanding (R208). -/
def Work.wakeFence (w : Work) (g : Nat) : Work :=
  let out := w.storesOut g
  w.wakeKind (w.rno g) 9 fun x => x.home == g && !x.pend.any fun k => out.contains k

/-- A request of a stream has ended: what waits for its slots, its acknowledgement or its bytes goes on. -/
def Work.reqEnded (w : Work) (s : Stream) : Work :=
  let w1 := w.wakePair s.target
  if s.isCell then w1 else (w1.wakeFence s.agent).wakeRldDone s.agent

/-- A block RLD's bytes written, as accesses of the core's remote unit: those of its stream (R354; log entry 13). -/
def Work.landBlock (w : Work) (g : Nat) (q : OutReq) (dst : Nat) (bs : List Byte) : Work :=
  let a : Acc := ⟨g, .stream w.mod.modNo false g, q.asid, !q.sup, some (w.rno g), false, .other⟩
  let w1 := w.updCore g fun c => { c with rldOut := c.rldOut.erase q.ident }
  match w1.vwrite a dst (bs.take q.size) with
  | .ok w2 => w2
  | .error _ => w1.updCore g fun c => { c with rldErr := true }

/-- The generator of a cell that waits for a request's bytes. -/
def Cell.genOf (c : Cell) (id : Nat) : Option (Nat × Gen) := c.gens.find? fun e => e.2.wait == some id

/-- The slots that a grant gives a grove as a sender: a glade of a grove of a module, a phase, and the mask (R369, R373). -/
def Work.noteGrant (w : Work) (g m designator phase mask : Nat) (port : Option Nat) : Work :=
  let got := (List.range 64).filter fun k => mask / 2 ^ k % 2 == 1
  w.updGrove g fun x =>
    { x with sent := x.sent ++ got.map fun k =>
        ⟨m, bits designator 19 11, bits designator 22 20, k, phase, false, w.mod.cycle, port, false⟩ }

/-- An answer given to what waits for it (R348, R353 to R356, R369). -/
def Work.answer (w : Work) (s : Stream) (q : OutReq) (bs : List Byte) : Work :=
  match q.op, s.isCell with
  | 0, false =>
    match q.dest with
    | some dst => w.landBlock s.agent q dst bs
    | none => w.wakeWith s.agent s.target q.ident (bv 64 (leNat bs))
  | 2, _ => w.wakeWith s.agent s.target q.ident (oldWord (bv 3 q.node) (leNat bs))
  | 0, true =>
    match (w.cell s.agent).genOf q.ident with
    | some (u, g) => w.setGen s.agent u { g with wait := none, got := some bs }
    | none => w
  | 3, _ =>
    let ws := wordsOf (bs.length / 8) bs
    w.updCell s.agent fun c => c.emitLater q.node
      (both q.record fun d => mkTok d q.colour q.iter q.seq (nPrio q.record) ws)
  | 6, _ => (w.noteGrant s.agent s.target q.addr q.size (leNat bs) (some s.port)).deliverOrHold s.agent (q.dest.getD 0) (bv 64 (leNat bs)) (s.agent, 2 ^ 32 + q.addr)
  | _, _ => w

/-- A cell's request that failed for good: its caller's colour freezes at its node (R351); a generator keeps its element. -/
def Work.cellLost (w : Work) (mc : Nat) (q : OutReq) (code : Nat) : Work :=
  match (w.cell mc).genOf q.ident with
  | some (u, g) => (w.setGen mc u { g with wait := none }).genFault mc u { g with wait := none } code
  | none =>
    if q.op = 3 then
      w.freezeNode mc q.node q.colour q.iter code (q.lines.map fun t => (dPort t.dest, t)) 0 0 4
    else w.freezeNode mc q.node q.colour q.iter code [] (bv 64 q.addr) 0 0

/-- A request discarded at its target (R350). -/
def Work.discarded (w : Work) (s : Stream) (q : OutReq) (code : Nat) : Work :=
  if s.isCell then
    match (w.cell s.agent).genOf q.ident with
    | some _ => w.cellLost s.agent q code
    | none => w
  else
    match q.op, q.dest with
    | 0, some _ => w.updCore s.agent fun c => { c with rldOut := c.rldOut.erase q.ident, rldErr := true }
    | 0, none => w.wakeBad s.agent s.target q.ident code q.addr
    | 2, _ => w.wakeBad s.agent s.target q.ident code q.addr
    | _, _ => w

/-- A request lost with its stream (R351, R370). -/
def Work.lostReq (w : Work) (s : Stream) (q : OutReq) : Work :=
  if s.isCell then w.cellLost s.agent q 0x1A
  else
    let g := s.agent
    let w1 := w.markLost g s.target
    match q.op, q.dest with
    | 0, some _ =>
      w1.updCore g fun c => { c with rldOut := c.rldOut.erase q.ident, rldLost := addOnce s.target c.rldLost }
    | 0, none => w1.wakeBad g s.target q.ident 0x1A 0
    | 2, _ => w1.wakeBad g s.target q.ident 0x1A 0
    | 6, _ => w1.deliverOrHold g (q.dest.getD 0) 0 (g, 2 ^ 32 + q.addr)
    | _, _ => w1

/-- A broken stream: its target is marked in its core's mask, each outstanding request completes as lost, its frozen record names
nothing any more, and the stream closes (R351). -/
def Work.breakStream (w : Work) (s : Stream) : Work :=
  let w1 := w.updMod fun m =>
    { m with streams := m.streams.filter fun x => !(x.isCell == s.isCell && x.agent == s.agent && x.target == s.target) }
  let mine : Frozen → Bool := fun o =>
    o.okind == 5 && o.cell == s.agent && o.node == (if s.isCell then 1 else 0) && o.what == s.target
  let w2 := w1.updRegion (w.agentRegion s.isCell s.agent) fun x => { x with frozen := x.frozen.filter fun o => !mine o }
  let w3 := if s.isCell then w2 else w2.markLost s.agent s.target
  ((s.out.filter fun q => !q.done).foldl (fun v q => v.lostReq s q) w3).reqEnded s

/-- The access of an engine operation that has a number, if it waits for one (R233). -/
def EngOp.access (o : EngOp) (id : Nat) : Option Ack := (o.wait.toList ++ o.acks).find? fun x => x.id == id

/-- The engine operation that waits for a number: grove and context. -/
def engineWith (id : Nat) : Tbl Grove → Option (Nat × Nat)
  | [] => none
  | (g, x) :: t =>
    match x.engines.find? fun e => e.2.queue.any fun o => (o.access id).isSome with
    | some e => some (g, e.1)
    | none => engineWith id t

/-- The error that a refusal of an access ends its operation with: a Link Lost names the module too, as a route that failed does
(R224, R373, R378). -/
def Ack.error (x : Ack) (code : Nat) : Nat := if code = 0x19 then routeLost x.module else code

/-- An engine operation after a response: its read's bytes, or its write acknowledged, or its error (R224, R233, R371). -/
def EngOp.response (o : EngOp) (id : Nat) (k : RespKind) : EngOp :=
  match o.access id with
  | none => o
  | some x =>
    let acks := o.acks.filter fun y => y.id != id
    match k with
    | .answer bs => if o.wait = some x then { o with wait := none, got := o.got ++ bs } else { o with acks := acks }
    | .credit => o
    | .discarded c | .faulted c => { o with wait := none, acks := acks, err := some (o.err.getD (x.error c)) }

/-- The fault at a target, recorded at the source: its stream freezes, and only S.RSRESUME goes on with it (R350, R382). -/
def Work.streamFault (w : Work) (s : Stream) (q : OutReq) (code : Nat) : Work :=
  let g := if s.isCell then s.agent / 16 else s.agent
  (w.updMod fun m => m.setStream { s with frozen := true }).freezeObj (w.rno g)
    { fseq := 0, okind := 5, code := code, stuck := true, grove := g, cell := s.agent, node := if s.isCell then 1 else 0,
      colour := 0, iter := 0, toks := [], task := none, what := s.target, aux := q.ident }
    { w.blank g code with
      stuck := true, cell := if s.isCell then some (s.agent % 16) else none, addr := bv 64 q.addr,
      aux2 := bv 64 (s.target + q.asid * 65536) }

/-- What returns for a request of this module; an invoke's response slot stays until its node has sent the result on (R348 to
R351, R233). -/
def Work.respondedTo (w : Work) (r : RemoteResp) : Work :=
    match w.mod.request r.target r.ident with
    | some (st, q) =>
      match r.kind with
      | .credit =>
        let out := st.out.map fun (p : OutReq) => if p.ident = q.ident then { p with reqHeld := false } else p
        (w.updMod fun m => m.setStream { st with out := out }).wakePair st.target
      | .answer bs =>
        if q.op = 3 then
          let out := st.out.map fun (p : OutReq) => if p.ident = q.ident then { p with done := true } else p
          (w.updMod fun m => m.setStream { st with out := out }).answer st q bs
        else ((w.updMod fun m => m.dropReq st q.ident).answer st q bs).reqEnded st
      | .discarded c => ((w.updMod fun m => m.dropReq st q.ident).discarded st q c).reqEnded st
      | .faulted c => w.streamFault st q c
    | none =>
      match engineWith r.ident w.groves with
      | some (g, k) => w.updEngine g k fun e => { e with queue := e.queue.map fun o => o.response r.ident r.kind }
      | none => w

/-- REMOTE_RESPONSE (R348 to R351, R233). -/
def execRemoteResponse (r : RemoteResp) (s : State) : Out := run s fun w => w.respondedTo r

/-! ## Streams closing (R347, R349) -/

/-- STREAM_CLOSE: a stream whose slots have all been free long enough returns its credits (R347, R349). -/
def execStreamClose (isCell : Bool) (agent target : Nat) (s : State) : Out :=
  run s fun w =>
    match w.mod.stream isCell agent target with
    | some st =>
      let bound := if w.mod.openers.any fun o => o.target == target then 256 else 4096
      match st.idle with
      | some c =>
        if st.out.isEmpty ∧ c + bound ≤ w.mod.cycle then
          (w.updMod fun m =>
            { m with streams := m.streams.filter fun x => !(x.isCell == isCell && x.agent == agent && x.target == target) }).wakePair
            target
        else w
      | none => w
    | none => w

/-! ## At the target (R350, R353, R355) -/

/-- The access of a request at this module: no region's, in its issuer's mode (R352, R442). -/
def reqAcc (r : RemoteReq) : Acc :=
  ⟨0, .stream r.source r.srcCell r.srcAgent, r.asid, !r.super, none, false, .other⟩

/-- An address of a request translated under this module's table for its ASID number (R352, R182). -/
def Work.remoteXlate (w : Work) (r : RemoteReq) (n : Need) (va : Nat) : Except Nat (Nat × Work) :=
  match w.walk r.asid va with
  | none => .error (w.walkCode r.asid va)
  | some (x, w1) =>
    if x.refuses n (!r.super) then .error 0x09
    else
      let m := w1.markDirty n x
      .ok (m.1.pa + (va - m.1.base), m.2)

/-- The ranges of one page each that a request's range is made of: two where it crosses a page (R181, R185). -/
def pageParts (va n : Nat) : List (Nat × Nat) :=
  let k := 4096 - va % 4096
  if n ≤ k then [(va, n)] else [(va, k), (va + k, n - k)]

/-- Ranges of a request translated: physical addresses and sizes. -/
def Work.remoteXlates (r : RemoteReq) (n : Need) : List (Nat × Nat) → Work → Except Nat (List (Nat × Nat) × Work)
  | [], w => .ok ([], w)
  | (va, k) :: t, w => do
    let (pa, w1) ← w.remoteXlate r n va
    let (ps, w2) ← Work.remoteXlates r n t w1
    return ((pa, k) :: ps, w2)

/-- Whether a place takes a request whole: memory any, a window what R170 allows of its size and address. -/
def takesWhole (a : Acc) (n : Nat) (p : Nat × Nat) : Bool :=
  decide (p.1 % 2 ^ 45 + p.2 ≤ memTop) || (placeOf (p.1 % 2 ^ 45)).takes a (p.1 % 2 ^ 45) n

/-- A load, store or atomic of a request performed by the owner of its address: the bytes it answers (R170, R353). -/
def Work.performRemote (w : Work) (r : RemoteReq) : Except Nat (List Byte × Work) :=
  let a := reqAcc r
  let cut : Nat × Nat → List (Nat × Nat) := fun p => pieces p.2 p.1 p.2
  if r.op = 0 then do
    let (ps, w1) ← w.remoteXlates r needR (pageParts r.addr r.size)
    if ps.all (takesWhole a r.size) then preadParts a (ps.map cut).flatten w1 else .error 0x09
  else if r.op = 1 then do
    let (ps, w1) ← w.remoteXlates r needW (pageParts r.addr r.size)
    if ps.all (takesWhole a r.size) then
      let w2 ← pwriteParts a (ps.map cut).flatten (r.data.take r.size) w1
      return ([], w2)
    else .error 0x09
  else do
    let (pa, w1) ← w.remoteXlate r needRW r.addr
    let t : BitVec 3 := bv 3 r.type
    let v := opU t (bv 64 (leNat r.data))
    let (old, w2) ← w1.atomicAt a pa r.size fun old => some (updateOp r.amo t old v)
    return (leBytes r.size old, w2)

/-- The lowest number no live invocation of an entry has, if one is free (R355). -/
def freeInvocation (entry : Nat) (l : List Invocation) : Option Nat :=
  let used := (l.filter fun i => i.entry == entry).map Invocation.n
  if used.length < 65536 then (List.range (used.length + 1)).find? fun n => !used.contains n else none

/-- What a request at its target comes to. -/
inductive Served where
  | done (w : Work)
  | fault (code : Nat)
  | wait

/-- An invoke accepted, where its region runs and a number is free (R355). -/
def Work.acceptInvoke (w : Work) (r : RemoteReq) : Served :=
  let e := Tbl.getD w.mod.invokeTable r.entry 0
  let n := fld e 52 44
  let reg := w.region n
  if e.getLsbD 63 = false ∨ reg.loaded = false then .fault 0x09
  else if reg.halted ∨ reg.freezing.isSome then .wait
  else
    match freeInvocation r.entry w.mod.invocations with
    | none => .wait
    | some k =>
      let colour : BitVec 12 := bv 12 (fld e 35 24)
      let tok := mkTok (bv 24 (fld e 23 0)) colour (bv 16 k) r.seq 0 (wordsOf (r.data.length / 8) r.data)
      let w1 := w.updMod fun m =>
        { m with invocations := m.invocations ++ [⟨r.entry, k, n, colour, r.source, r.srcAgent, r.ident⟩] }
      .done ((w1.sendTok n 0 (invokeStream r.source r.srcAgent r.srcCell) (w1.ptime (reqAcc r).who) tok).respond r.source r.ident .credit)

/-- One request served at this module (R350, R353, R355). -/
def Work.serve (w : Work) (r : RemoteReq) : Served :=
  if r.op = 3 then w.acceptInvoke r
  else
    match w.performRemote r with
    | .error c => .fault c
    | .ok (bs, w1) => .done ((w1.respond r.source r.ident .credit).respond r.source r.ident (.answer bs))

/-- A stream held at this module; code 0 stands for an invoke that waits to be accepted. -/
def Work.holdStream (w : Work) (rs : List RemoteReq) (code : Nat) : Work :=
  match rs with
  | [] => w
  | r :: _ => w.updMod fun m => { m with heldStreams := m.heldStreams ++ [⟨r.source, r.srcCell, r.srcAgent, rs, code⟩] }

/-- Requests of one stream served in order until one must wait or faults; then it and the rest are held (R350). -/
def serveAll : List RemoteReq → Work → Work
  | [], w => w
  | r :: t, w =>
    match w.serve r with
    | .done w1 => serveAll t w1
    | .fault c => (w.holdStream (r :: t) c).respond r.source r.ident (.faulted c)
    | .wait => w.holdStream (r :: t) 0

/-- Whether a held stream is a source agent's. -/
def HeldStream.isOf (h : HeldStream) (source : Nat) (isCell : Bool) (agent : Nat) : Bool :=
  h.source == source && h.srcCell == isCell && h.srcAgent == agent

/-- The residency of the tiles that an engine of another module has written into a bank (R334, R430). -/
def Work.residFar (w : Work) (pa n : Nat) : Work :=
  match placeOf (w.loc (pa % 2 ^ 45)) with
  | .bank g => w.residArrive g (pa % 2 ^ 45) n
  | _ => w

/-- An engine's access of this module's memory by physical address (R233); a write is performed, and answered, once no drain port
holds its bytes (R230). -/
def Work.serveEngine (w : Work) (r : RemoteReq) : Work :=
  let by_ := Writer.remote r.source r.ident
  let a : Acc := ⟨0, .stream r.source r.srcCell (4096 + r.srcAgent), r.asid, !r.super, none, true, by_⟩
  let ps := pieces r.size r.addr r.size
  let res : Except Nat (List Byte × Work) :=
    if r.op = 4 then preadParts a ps w
    else (pwriteParts a ps (r.data.take r.size) w).map fun w1 => ([], w1.residFar r.addr r.size)
  match res with
  | .ok (bs, w1) => if w1.drainHolds by_ then w1 else w1.respond r.source r.ident (.answer bs)
  | .error c => w.respond r.source r.ident (.faulted c)

/-- A request that has reached this module: behind its stream's held requests, or served now (R350). -/
def Work.arrive (w : Work) (r : RemoteReq) : Work :=
  if 4 ≤ r.op then w.serveEngine r
  else
    let mine : HeldStream → Bool := fun h => h.isOf r.source r.srcCell r.srcAgent
    if w.mod.heldStreams.any mine then
      w.updMod fun m =>
        { m with heldStreams := m.heldStreams.map fun h => if mine h then { h with reqs := h.reqs ++ [r] } else h }
    else serveAll [r] w

/-- REMOTE_REQUEST_ARRIVAL (R350, R353). -/
def execRemoteRequestArrival (r : RemoteReq) (s : State) : Out := run s fun w => w.arrive r

/-- A held stream taken out, with what it holds. -/
def Work.unhold (w : Work) (source : Nat) (isCell : Bool) (agent : Nat) : Work :=
  w.updMod fun m => { m with heldStreams := m.heldStreams.filter fun h => !h.isOf source isCell agent }

/-- INVOKE_ACCEPT: an invoke that waits is tried again, and what its stream holds behind it is served (R355). -/
def execInvokeAccept (r : RemoteReq) (s : State) : Out :=
  run s fun w =>
    match w.mod.heldStreams.find? fun h => h.isOf r.source r.srcCell r.srcAgent && (h.code == 0 && h.reqs.head? == some r) with
    | some h => serveAll h.reqs (w.unhold r.source r.srcCell r.srcAgent)
    | none => w

/-- A resume reaching this module: the faulting request performed again, or dropped, then the rest in order (R350). -/
def Work.resumeHeld (w : Work) (source : Nat) (isCell : Bool) (agent : Nat) (discard : Bool) : Work :=
  match w.mod.heldStreams.find? fun h => h.isOf source isCell agent && h.code != 0 with
  | none => w
  | some h =>
    let w1 := w.unhold source isCell agent
    match h.reqs with
    | [] => w1
    | r :: t =>
      if discard then
        serveAll t ((w1.respond source r.ident .credit).respond source r.ident (.discarded h.code))
      else serveAll h.reqs w1

/-! ## S.RSRESUME at the source (R350) -/

/-- A frozen stream resumed: the resume leaves by the stream's route, under the agent that the target knows, then the requests
queued here in order; the detection bound of what is outstanding begins anew (R208, R350). -/
def Work.resumeStream (w : Work) (s : Stream) (agent : Nat) (discard : Bool) : Work :=
  let out := s.out.map fun q => { q with due := w.mod.cycle + w.mod.ldet }
  let w1 := (w.updMod fun m => m.setStream { s with frozen := false, queued := [], out := out }).sendBy
    (.resume s.target w.mod.modNo s.isCell agent discard) s.port 0
  s.queued.foldl (fun v q => v.sendBy (reqMsg q) s.port 0) w1

/-- A frozen stream of this module resumed, and its record names nothing any more (R350). -/
def Work.rsresume (w : Work) (isCell : Bool) (agent target : Nat) (discard : Bool) : Work :=
  let r := w.agentRegion isCell agent
  let mine : Frozen → Bool := fun o =>
    o.okind == 5 && o.cell == agent && o.node == (if isCell then 1 else 0) && o.what == target
  match w.mod.stream isCell agent target with
  | some st =>
    if (w.region r).frozen.any mine then
      (w.updRegion r fun x => { x with frozen := x.frozen.filter fun o => !mine o }).resumeStream st agent discard
    else w
  | none => w

/-- RSRESUME_RETRY (R350). -/
def execRsresumeRetry (isCell : Bool) (agent target : Nat) (s : State) : Out :=
  run s fun w => w.rsresume isCell agent target false

/-- RSRESUME_DISCARD (R350). -/
def execRsresumeDiscard (isCell : Bool) (agent target : Nat) (s : State) : Out :=
  run s fun w => w.rsresume isCell agent target true

/-! ## NINVOKE (R356) -/

/-- The bytes of an argument or result token's words. -/
def argBytes (t : Token) : List Byte := bytesOf (tokWords t)

/-- NINVOKE's call: the words leave as an invoke on the cell's stream; a null argument passes nulls on; a target that no
route reaches is lost at once (R351, R356). -/
def ninvokeCall (f : Fire) (x : Inst) (w : Work) : NRes :=
  let target := litF x.r 10 0
  if x.anyNull then .done (sendNull f x) w
  else
    match w.pair true f.cell target with
    | .lost => .fault 0x1A 0 0
    | .wait => .done [] w
    | .free s =>
      let asid := (w.regOf (f.cell / 16)).rasid
      let bs := argBytes (x.tok 0)
      .done [] (w.sendReq s
        { OutReq.blank with
          op := 3, size := bs.length, asid := asid, node := f.node, colour := f.colour, iter := f.iter,
          seq := (x.tok 0).seq, record := x.r, lines := [x.tok 0] }
        { target := target, source := w.mod.modNo, srcCell := true, srcAgent := f.cell, ident := 0, op := 3, amo := 0,
          type := 0, asid := asid, super := false, addr := 0, size := bs.length, data := bs, entry := litF x.r 18 11,
          seq := (x.tok 0).seq })

/-- NINVOKE_CALL: an instance whose stream is not open asks for it and is not ready until it is (R348, R349, R356). -/
def execNinvokeCall (s : State) : Out :=
  run s fun w =>
    let f := w.fire
    let r := (w.cell f.cell).node f.node
    match (w.cell f.cell).inst f with
    | none => w
    | some x =>
      if nOpc r ≠ 0x26 ∨ osb0 r = true then w
      else
        match w.pair true f.cell (litF r 10 0), x.anyNull with
        | .wait, false =>
          if (w.mod.stream true f.cell (litF r 10 0)).isNone then w.askOpen true f.cell (litF r 10 0) else w
        | _, _ => fireNode 0x26 ninvokeCall f w

/-- NINVOKE_RETURN: the token goes back as the result of its invocation, whose number is free again (R356). -/
def execNinvokeReturn (s : State) : Out :=
  run s fun w =>
    if osb0 ((w.cell w.fire.cell).node w.fire.node) then
      fireNode 0x26 (fun f x v =>
        let r := v.rno (f.cell / 16)
        let mine : Invocation → Bool := fun i => i.region == r && i.colour == f.colour && i.n == f.iter.toNat
        match v.mod.invocations.find? mine with
        | none => .fault 0x11 0 0
        | some i =>
          .done [] ((v.updMod fun m => { m with invocations := m.invocations.erase i }).respond i.source i.ident
            (.answer (argBytes (x.tok 0))))) w.fire w
    else w

end Sys2Proof.Machine
end

