-- ==== Sys2Proof/Machine/Changes.lean ====
section
/-! DEFINITION. Sources, sinks and the operators on times and diffs, probes, the frontier instructions, and the steps of
the progress tree (spec 12). -/

namespace Sys2Proof.Machine

/-! ## Change payloads (R77) -/

/-- CRC-32C's register after `n` bits (R77). -/
def crcBits : Nat → BitVec 32 → BitVec 32
  | 0, c => c
  | n + 1, c => crcBits n (if c.getLsbD 0 then (c >>> 1) ^^^ 0x82F63B78#32 else c >>> 1)

/-- CRC-32C's register after bytes. -/
def crcBytes : BitVec 32 → List Byte → BitVec 32
  | c, [] => c
  | c, b :: t => crcBytes (crcBits 8 (c ^^^ b.setWidth 32)) t

/-- CRC-32C of bytes (R77). -/
def crc32c (bs : List Byte) : BitVec 32 := ~~~(crcBytes 0xFFFFFFFF#32 bs)

/-- The time of a change. -/
def chTime (ws : List Word) : Word := ws.getD 4 0

/-- The diff of a change. -/
def chDiff (ws : List Word) : Int := sgn 32 (fld (ws.getD 5 0) 31 0)

/-- The six words of a change from its record words, time, diff and hash. -/
def chWords (rec4 : List Word) (t : Word) (d : Int) (h : BitVec 32) : List Word :=
  (List.range 4).map (fun i => rec4.getD i 0) ++ [t, bv 64 (wrap 32 d + h.toNat * 2 ^ 32)]

/-- The words of a change token (R77). -/
def changeOf (t : Token) : List Word := (List.range 6).map (tokW t)

/-- A change token made by an operator (R308). -/
def mkChange (d : BitVec 24) (c : BitVec 12) (i : BitVec 16) (seq prio : Nat) (ws : List Word) : Token :=
  { mkTok d c i (bv 8 seq) prio ws with kind := 1 }

/-- Several tokens given the slot of a new item at a time, each counted as an item of its own (R274, R275). -/
def Work.countNew (w : Work) (g s : Nat) (u : Word) (cause : Option (Nat × Nat)) (ts : List Token) : List Token × Work :=
  let live := ts.filter fun t => t.dest != noDst
  if live.isEmpty then ([], w)
  else
    let p := w.slotFor (w.rno g) s u cause
    (live.map fun t => { t with item := some p.1 }, live.foldl (fun v _ => v.count g (some p.1) true) p.2)

/-! ## Sources (R282, R289) -/

/-- The ring handle of a DSRC or DOUT. -/
def ringOf (r : NRec) : Nat := litF r 7 0
/-- The scope of a DSRC. -/
def srcScope (r : NRec) : Nat := litF r 11 8
/-- The key bytes of a DSRC. -/
def srcKey (r : NRec) : Nat := 4 * 2 ^ litF r 13 12

/-- Whether what a node does for no colour of its own may go on: its region runs and its record stands (R36, R108, R110). -/
def Work.nodeStands (w : Work) (mc node opc : Nat) : Bool :=
  let c := w.cell mc
  nOpc (c.node node) == opc && (w.regOf (mc / 16)).runs && (Tbl.find c.reconf (c.key node)).isNone &&
    c.nextCtx.all fun k => decide (k < 4)

/-- Whether a node's own steps in colour 0 may go on: its region runs and its record stands (R36, R108, R110, R381). -/
def Work.nodeRuns (w : Work) (mc node opc : Nat) : Bool :=
  let c := w.cell mc
  nOpc (c.node node) == opc && w.mayFire ⟨mc, node, 0, 0, 0⟩

/-- A source opened: its element 0 is counted (R274, R282). -/
def Work.openSource (w : Work) (mc key : Nat) (r : NRec) : Work :=
  let p := w.newItem (mc / 16) (srcScope r) 0 none
  p.2.updCell mc fun c => { c with dsrcs := Tbl.put c.dsrcs key ⟨true, 0, p.1, none, false⟩ }

/-- Whether a source's step may go on: as its colour 0 lets it, and inside a slot also while its node waits for that slot's end
to be replaced (R108, R282). -/
def Work.sourceRuns (w : Work) (mc node : Nat) : Bool :=
  w.nodeRuns mc node 0x30 ||
    ((w.cell mc).midSlot node && nOpc ((w.cell mc).node node) == 0x30 && (w.regOf (mc / 16)).runs &&
      !w.isFrozenAt mc node 0)

/-- The link nodes of a cell's active context: the node, and the plan entry that it names. -/
def Cell.linkNodes (c : Cell) : List (Nat × Nat) :=
  (c.nodes.filter fun e => e.1 / 1024 == c.active && (nOpc e.2 == 0x29 || nOpc e.2 == 0x2A)).map fun e =>
    (e.1 % 1024, litF e.2 6 0)

/-- A link node that names a plan entry: where it named another before, the entry's group binds anew and its count k starts
at 0 (R359). -/
def Work.useLink (w : Work) (mc node i : Nat) : Work :=
  let r := w.rno (mc / 16)
  let me := some (w.logical mc, node)
  match (w.region r).plans[i]? with
  | none => w
  | some p =>
    if p.user = me then w
    else
      let other := (w.region r).plans.any fun q => q.user == me
      let mine : Plan := { p with user := me, k := if other then 0 else p.k }
      let w1 := w.updRegion r fun x =>
        { x with plans := setAt (x.plans.map fun q => if q.user = me then { q with user := none } else q) i mine }
      if other && !p.bound then (w1.sendBinds [p]).bindPlans else w1

/-- What nodes of a cell keep is there for the records that stand: a source that came is opened, one that went is closed, a
sink that went has its slot posted and its counts released, a link node that came uses its plan entry (R359, R108, R282, R283; log entry 81). -/
def Work.syncCell (w : Work) (mc : Nat) : Work :=
  let c := w.cell mc
  let opcAt : Nat → Nat := fun k => nOpc (Tbl.getD c.nodes k 0)
  let g := mc / 16
  let w1 := (c.dsrcs.filter fun e => opcAt e.1 != 0x30 || e.2.stale).foldl (fun v e =>
    (if e.2.isOpen then v.count g (some e.2.item) false else v).updCell mc fun x =>
      { x with dsrcs := Tbl.del x.dsrcs e.1 }) w
  let w2 := (c.douts.filter fun e => opcAt e.1 != 0x31 || e.2.stale).foldl (fun v e =>
    let v1 := match e.2.slot with
      | some k => v.postSlot g e.2.ring k
      | none => v
    (e.2.items.foldl (fun u i => u.count g (some i) false) v1).updCell mc fun x =>
      { x with douts := Tbl.del x.douts e.1 }) w1
  (c.nodes.filter fun e => nOpc e.2 == 0x30 && (Tbl.find c.dsrcs e.1).all Dsrc.stale).foldl (fun v e => v.openSource mc e.1 e.2)
    (c.linkNodes.foldl (fun v e => v.useLink mc e.1 e.2) w2)

/-- A source of a cell's active context. -/
def Work.source (w : Work) (mc node : Nat) : Dsrc :=
  let c := w.cell mc
  Tbl.getD c.dsrcs (c.key node) ⟨false, 0, (0, 0), none, false⟩

/-- A source set. -/
def Work.setSource (w : Work) (mc node : Nat) (d : Dsrc) : Work :=
  w.updCell mc fun c => { c with dsrcs := Tbl.put c.dsrcs (c.key node) d }

/-- The AUX of a freeze at the count (R282). -/
def noIndex : Word := BitVec.allOnes 64

/-- A source freezes: colour 0 at its node; the record names the handle in AUX2 (log entry 84), the slot's address, and the
change's index or none (R282). -/
def Work.freezeSource (w : Work) (mc node code addr : Nat) (aux : Word) : Work :=
  let g := mc / 16
  w.freezeObj (w.rno g)
    { fseq := 0, okind := 2, code := code, stuck := false, grove := g, cell := mc, node := node, colour := 0, iter := 0,
      toks := [], task := none, what := 5, aux := aux.toNat }
    { w.blank g code with
      cell := some (mc % 16), node := w.nodeField mc node 0, tag := tagField 0 0, addr := bv 64 addr, aux := aux,
      aux2 := bv 64 (ringOf ((w.cell mc).node node)) }

/-- The count of a source's slot read and checked (R282). -/
def Work.sourceCount (w : Work) (mc node slot : Nat) : Work :=
  let g := mc / 16
  let h := (w.grove g).handle (ringOf ((w.cell mc).node node))
  let va := h.addr slot
  match (w.startAgent (w.accNode mc node).who).vread (w.accNode mc node) va 8 with
  | .error (c, _) => w.freezeSource mc node c va noIndex
  | .ok (bs, w1) =>
    let n := leNat bs
    if n = 0 ∨ h.slotsz / 48 - 1 < n then w1.freezeSource mc node 0x11 va noIndex
    else w1.setSource mc node { w1.source mc node with cur := some (slot, some n, 0) }

/-- Change `i` of a source's slot read, checked, hashed, counted and sent (R282). -/
def Work.sourceChange (w : Work) (mc node slot n i : Nat) : Work :=
  let g := mc / 16
  let r := (w.cell mc).node node
  let d := w.source mc node
  let va := ((w.grove g).handle (ringOf r)).addr slot
  let x := (w.regOf g).shape (srcScope r)
  match (w.startAgent (w.accNode mc node).who).vread (w.accNode mc node) (va + 48 * (i + 1)) 48 with
  | .error (c, _) => w.freezeSource mc node c va (bv 64 i)
  | .ok (bs, w1) =>
    let ws := wordsOf 6 bs
    if !d.isOpen || !isTime x (chTime ws) || !timeLe x d.element (chTime ws) then w1.freezeSource mc node 0x11 va (bv 64 i)
    else
      let w2 := w1.setSource mc node { d with cur := some (slot, some n, i + 1) }
      if chDiff ws = 0 then w2
      else
        let out := chWords ws (chTime ws) (chDiff ws) (crc32c (bs.take (srcKey r)))
        let p := w2.countNew g (srcScope r) (chTime ws) (some d.item)
          (both r fun a => mkChange a 0 0 i (nPrio r) out)
        p.2.updCell mc fun c => c.emit p.1

/-- DSRC: a source's next step: take the slot at the drain head, read its count, send a change, or free the slot (R282). -/
def execDsrc (cell node : Nat) (s : State) : Out :=
  run s fun w =>
    let g := cell / 16
    let c := w.cell cell
    let r := c.node node
    let h := (w.grove g).handle (ringOf r)
    let d := w.source cell node
    if !w.sourceRuns cell node then w
    else
      match d.cur with
      | none =>
        if 1 ≤ h.filled then
          (w.changeHandle g (ringOf r) (h.take false)).setSource cell node { d with cur := some (h.dh, none, 0) }
        else w
      | some (slot, none, _) => w.sourceCount cell node slot
      | some (slot, some n, i) =>
        if n ≤ i then (w.freeSlotOf g (ringOf r) slot).setSource cell node { d with cur := none }
        else if c.room (reserved (Tbl.vals c.twigs) + dests [nDstA r, nDstB r]) then w.sourceChange cell node slot n i
        else w

/-! ## Sinks (R283) -/

/-- The changes a sink's slot holds at most. -/
def Handle.changes (h : Handle) : Nat := h.slotsz / 48 - 1

/-- A sink of a cell's active context. -/
def Work.sink (w : Work) (mc node : Nat) : Dout :=
  let c := w.cell mc
  Tbl.getD c.douts (c.key node) ⟨none, 0, 0, [], 0, false⟩

/-- A sink set. -/
def Work.setSink (w : Work) (mc node : Nat) (d : Dout) : Work :=
  w.updCell mc fun c => { c with douts := Tbl.put c.douts (c.key node) d }

/-- A sink's slot posted, and the counts of its changes released: a sink by the context and node of its record (R283). -/
def Work.postSink (w : Work) (mc key : Nat) : Work :=
  let d := Tbl.getD (w.cell mc).douts key ⟨none, 0, 0, [], 0, false⟩
  let g := mc / 16
  match d.slot with
  | none => w
  | some k =>
    let w1 := (w.postSlot g d.ring k).updCell mc fun c =>
      { c with douts := Tbl.put c.douts key ⟨none, 0, 0, [], 0, false⟩ }
    d.items.foldl (fun v i => v.count g (some i) false) w1

/-- A sink with a slot: the one it fills, or the one at the fill head (R283). -/
def Work.sinkSlot (w : Work) (mc node : Nat) : Nat × Work :=
  let d := w.sink mc node
  let g := mc / 16
  match d.slot with
  | some k => (k, w)
  | none =>
    let n := ringOf ((w.cell mc).node node)
    let h := (w.grove g).handle n
    (h.fh, (w.changeHandle g n (h.take true)).setSink mc node { d with slot := some h.fh, n := 0, ring := n })

/-- DOUT: the change written into the slot that fills, then the count; a full slot is posted (R283). -/
def execDout (s : State) : Out :=
  run s (fireNode 0x31 (fun f x w =>
    let g := f.cell / 16
    let t := x.tok 0
    if t.null then .done [] w
    else
      let p := w.sinkSlot f.cell f.node
      let d := p.2.sink f.cell f.node
      let h := (p.2.grove g).handle (ringOf x.r)
      let va := h.addr p.1
      let acc := p.2.accNode f.cell f.node
      match (do
        let w1 ← (p.2.startAgent acc.who).vwrite acc (va + 48 * (d.n + 1)) (bytesOf (changeOf t))
        w1.vwrite acc va (leBytes 48 (d.n + 1))) with
      | .error (c, a) => .fault c (bv 64 a) 0
      | .ok w2 =>
        let items := d.items ++ t.item.toList
        let w3 := (w2.setSink f.cell f.node ⟨some p.1, d.n + 1, w2.mod.cycle, items, ringOf x.r, false⟩).count g t.item true
        .done [] (if h.changes ≤ d.n + 1 then w3.postSink f.cell ((w3.cell f.cell).key f.node) else w3)) s.fire)

/-- DOUT_IDLE_POST: 64 cycles after the latest write into a sink's slot it is posted, whichever context its record is in; the sink
is named by the context and node of that record (R283). -/
def execDoutIdlePost (cell node : Nat) (s : State) : Out :=
  run s fun w =>
    match Tbl.find (w.cell cell).douts node with
    | none => w
    | some d =>
      if (w.regOf (cell / 16)).runs = true ∧ 1 ≤ d.n ∧ 64 ≤ w.mod.cycle - d.last then w.postSink cell node else w

/-! ## Times and diffs (R284) -/

/-- The token passed on with its words changed. -/
def rewrite (x : Inst) (ws : List Word) : List Token := both x.r fun d => { pass x.r (x.tok 0) d with payload := ws }

/-- Outputs whose count moves to a scope and time; a token that is no item makes none (R274, R275, R284). -/
def moved (f : Fire) (x : Inst) (s : Nat) (u : Word) (outs : List Token) (w : Work) : NRes :=
  match (x.tok 0).item with
  | none => .done outs w
  | some i =>
    let p := w.countNew (f.cell / 16) s u (some i) outs
    .done p.1 p.2

/-- DNEG (R284). -/
def execDneg (s : State) : Out :=
  run s (fireNode 0x36 (fun f x w =>
    let ws := changeOf (x.tok 0)
    if x.anyNull then .done (both x.r (passNull x.r (x.tok 0))) w
    else if chDiff ws = -2147483648 then .fault 0x12 0 0
    else passed f (rewrite x (chWords ws (chTime ws) (-chDiff ws) (bv 32 (fld (ws.getD 5 0) 63 32)))) w) s.fire)

/-- The scope that a time operator reads its input's time in. -/
def inScope (r : NRec) : Nat := litF r 3 0

/-- DENTER: the time stands, the count moves into the loop (R284). -/
def execDenter (s : State) : Out :=
  run s (fireNode 0x37 (fun f x w =>
    let reg := w.regOf (f.cell / 16)
    let ws := changeOf (x.tok 0)
    if x.anyNull then .done (both x.r (passNull x.r (x.tok 0))) w
    else if isTime (reg.shape (inScope x.r)) (chTime ws) = false then .fault 0x11 0 0
    else moved f x (litF x.r 7 4) (chTime ws) (rewrite x ws) w) s.fire)

/-- The innermost field of a time. -/
def innermost (x t : Word) : Nat := t.toNat / 2 ^ shOff x (shDepth x) % 2 ^ shWidth x (shDepth x)

/-- DFEED: the innermost field rises by one (R284). -/
def execDfeed (s : State) : Out :=
  run s (fireNode 0x38 (fun f x w =>
    let sh := (w.regOf (f.cell / 16)).shape (inScope x.r)
    let ws := changeOf (x.tok 0)
    let u := chTime ws + bv 64 (2 ^ shOff sh (shDepth sh))
    if x.anyNull then .done (both x.r (passNull x.r (x.tok 0))) w
    else if isTime sh (chTime ws) = false ∨ innermost sh (chTime ws) + 1 = 2 ^ shWidth sh (shDepth sh) then .fault 0x11 0 0
    else moved f x (inScope x.r) u (rewrite x (setAt ws 4 u)) w) s.fire)

/-- DLEAVE: the innermost field falls to zero, the count moves out of the loop (R284). -/
def execDleave (s : State) : Out :=
  run s (fireNode 0x39 (fun f x w =>
    let sh := (w.regOf (f.cell / 16)).shape (inScope x.r)
    let ws := changeOf (x.tok 0)
    let u := bv 64 ((chTime ws).toNat % 2 ^ shOff sh (shDepth sh))
    if x.anyNull then .done (both x.r (passNull x.r (x.tok 0))) w
    else if isTime sh (chTime ws) = false then .fault 0x11 0 0
    else moved f x (litF x.r 7 4) u (rewrite x (setAt ws 4 u)) w) s.fire)

/-! ## Probes (R285) -/

/-- The sum of a grove's counters of a scope over all slots (R285). -/
def Grove.scopeSum (g : Grove) (s : Nat) : Nat := ((List.range 64).map fun j => Tbl.getD g.prog (64 * s + j) 0).sum

/-- The six words of a report of a copy (R285). -/
def Work.report (w : Work) (mc : Nat) (r : NRec) (c : FCopy) : List Word :=
  let s := ((w.regOf (mc / 16)).bound (litF r 4 0)).getD 0
  bv 64 (c.elems.length + s * 16 + c.count % 2 ^ 32 * 2 ^ 32) ::
    ((List.range 4).map (fun i => c.elems.getD i (BitVec.allOnes 64)) ++ [bv 64 ((w.grove (mc / 16)).scopeSum s)])

/-- The copy that a probe observes. -/
def Cell.probed (c : Cell) (r : NRec) : FCopy := copyAt c.fcopies (litF r 4 0)

/-- DPROBE: a report for each trigger; the nodes that fire on it follow the firings that the copy counts as done (R279, R285). -/
def execDprobe (s : State) : Out :=
  run s (fireNode 0x3A (fun f x w =>
    if x.anyNull then .done (sendNull f x) w
    else
      .done (both x.r fun d =>
        mkTok d f.colour f.iter (x.tok 0).seq (nPrio x.r) (w.report f.cell x.r ((w.cell f.cell).probed x.r)))
        (w.acquireCell f.cell)) s.fire)

/-- The changes of its cell's copy that a probe which watches has not reported yet, oldest first (R285). -/
def Cell.unreported (c : Cell) (node : Nat) : List FCopy := Tbl.getD c.probes (c.key node) []

/-- Whether a probe that watches has a change of its copy to report (R285). -/
def Work.probeDue (w : Work) (mc node : Nat) : Bool :=
  nOpc ((w.cell mc).node node) == 0x3A && !((w.cell mc).unreported node).isEmpty

/-- DPROBE_WATCH: a probe that watches reports a change of its cell's copy; the nodes that fire on it follow the firings that the
copy counts as done (R279, R285). -/
def execDprobeWatch (cell node : Nat) (s : State) : Out :=
  run s fun w =>
    let c := w.cell cell
    let r := c.node node
    match c.unreported node with
    | [] => w
    | x :: t =>
      if w.nodeRuns cell node 0x3A = true ∧ c.room (reserved (Tbl.vals c.twigs) + dests [nDstA r, nDstB r]) = true then
        (w.setCell cell ({ c with probes := Tbl.put c.probes (c.key node) t }.emit
          (both r fun d => mkTok d 0 0 (bv 8 x.count) (nPrio r) (w.report cell r x)))).acquireCell cell
      else w

/-! ## Frontier instructions (R286 to R289) -/

/-- FRD: an element of the core's copy; an acquire (R279, R287). -/
def execFrd (d k n : BitVec 5) (s : State) : Out :=
  run s (coreInstr (.frd d k n) fun g w => do
    need ((w.regOf g).bound k.toNat).isSome 0x09
    (w.acquire g).give g d ((copyAt (w.core g).fcopies k.toNat).elems.getD n.toNat (BitVec.allOnes 64)))

/-- FRD.STAT (R287). -/
def execFrdStat (d k : BitVec 5) (s : State) : Out :=
  run s (coreInstr (.frdStat d k) fun g w =>
    match (w.regOf g).bound k.toNat with
    | none => .error (flt 0x09)
    | some sc =>
      let c := copyAt (w.core g).fcopies k.toNat
      (w.acquire g).give g d (bv 64 (c.count * 2 ^ 32 + 256 + sc * 16 + c.elems.length)))

/-- FRD.TIME (R287). -/
def execFrdTime (d : BitVec 5) (s : State) : Out :=
  run s (coreInstr (.frdTime d) fun g w => w.give g d (w.core g).cur.time)

/-- FWAIT: at once where the time is complete at the core's copy, else suspended; an acquire (R279, R288). -/
def execFwait (d k b : BitVec 5) (s : State) : Out :=
  run s (coreInstr (.fwait d k b) fun g w =>
    let t := w.g g b
    match (w.regOf g).bound k.toNat with
    | none => .error (flt 0x09)
    | some sc => do
      let x := (w.regOf g).shape sc
      need (isTime x t) 0x09
      if complete x (copyAt (w.core g).fcopies k.toNat).elems t then (w.acquire g).give g d 0
      else
        (w.updCore g fun c => { c with task := some { c.cur with time := t } }).suspend g 6 k.toNat (some b) d
          (w.core g).pc4 false)

/-- The source that FADV names: its cell and node (R289). -/
def Work.sourceAt (w : Work) (g : Nat) (a : Word) : Except Stop (Nat × Nat) :=
  if fld a 63 22 ≠ 0 then .error (flt 0x09)
  else
    match w.lcell (w.rno g) (fld a 11 0) with
    | none => .error (flt 0x09)
    | some mc => if nOpc ((w.cell mc).node (fld a 21 12)) = 0x30 then .ok (mc, fld a 21 12) else .error (flt 0x09)

/-- FADV: a source's element advanced, or the source closed, once it has drained what was posted before (R289). -/
def execFadv (d a b : BitVec 5) (s : State) : Out :=
  run s (coreInstr (.fadv d a b) fun g w => do
    let (mc, node) ← w.sourceAt g (w.g g a)
    let r := (w.cell mc).node node
    let src := w.source mc node
    let h := (w.grove (mc / 16)).handle (ringOf r)
    if src.cur.isSome || h.slots.contains 2 then .error .stall
    else
      let x := (w.regOf g).shape (srcScope r)
      let v := w.g g b
      let close := v == BitVec.allOnes 64
      need (src.isOpen && (close || (isTime x v && timeLe x src.element v))) 0x09
      let w1 :=
        if close then
          (w.count (mc / 16) (some src.item) false).setSource mc node { src with isOpen := false, element := v }
        else
          let p := w.newItem (mc / 16) (srcScope r) v (some src.item)
          (p.2.count (mc / 16) (some src.item) false).setSource mc node { src with element := v, item := p.1 }
      w1.give g d src.element)

/-! ## The progress tree (R277, R278) -/

/-- FRONTIER_RECOMPUTE: the module root's frontier of a scope made anew, once every copy has received the one before (R277,
R278; log entry 90). -/
def execFrontierRecompute (region scope : Nat) (s : State) : Out :=
  run s fun w => if w.scopeBehind region scope then w else w.recompute region scope

/-- FRONTIER_DELIVERY: a unit's copy of a slot takes the root's frontier; a unit that a wave takes receives it at the thaw (R278). -/
def execFrontierDelivery (region slot : Nat) (isCell : Bool) (unit : Nat) (s : State) : Out :=
  run s fun w => if (w.region region).freezing.isSome then w else w.deliverFrontier region slot isCell unit

/-- Whether every frontier of a region has been made and has reached every copy (R278). -/
def Work.frontiersStill (w : Work) (r : Nat) : Bool :=
  let x := w.region r
  (x.shapes.all fun e => !w.recomputeDue r e.1) &&
  x.fbind.all fun b =>
    let f := Tbl.getD x.rootF b.2 []
    ((w.grovesOf r).all fun g => (copyAt (w.core g).fcopies b.1).elems == f) &&
      (w.cellsOf r).all fun c => (copyAt (w.cell c).fcopies b.1).elems == f

end Sys2Proof.Machine
end

