-- ==== Sys2Proof/Machine/Mail.lean ====
section
/-! DEFINITION. Mail, spawning, yielding and identity, and what a task core does when it runs no task (spec 06 R144 to R161;
05 R123; 15 R320 to R322). -/

namespace Sys2Proof.Machine

/-! ## SEND and RECV (R154 to R157) -/

/-- What a SEND comes to: a failure, a word its channel has no room for, or done. -/
inductive Sent1 where
  | fail
  | full
  | done (w : Work)

/-- A SEND of an agent of a grove: a mail word, or a token for a mapped destination (R154). -/
def Work.sendWord (w : Work) (who : Who) (g : Nat) (v a : Word) (ch prio : Nat) : Sent1 :=
  let r := w.rno g
  let k := fld a 63 62
  let dest : BitVec 24 := a.setWidth 24
  if k = 3 ∨ fld a 61 60 ≠ 0 then .fail
  else if k = 0 then
    if fld a 59 32 ≠ 0 ∨ dest ≠ 0 ∨ w.ngrove r ≤ fld a 31 24 then .fail
    else
      match w.mgrove r (fld a 31 24) with
      | none => .fail
      | some m =>
        match w.deliver m ch v with
        | some w1 => .done w1
        | none => .full
  else if fld a 31 24 ≠ 0 ∨ dest = noDst ∨ (w.lcell r (dCell dest)).isNone then .fail
  else
    let t := mkTok dest (bv 12 (fld a 59 48)) (bv 16 (fld a 47 32)) 0 prio (if k = 1 then [v] else [])
    .done (w.sendTok r g (sendStream g) (w.ptime who) (if k = 1 then t else { t with kind := 2 }))

/-- SEND (R154, R155, R157): a task core stalls and a twig keeps its context while the channel is full. -/
def execSend (d a : BitVec 5) (c : BitVec 6) (s : State) : Out :=
  run s fun w =>
    match w.turn with
    | .core _ =>
      coreInstr (.send d a c) (fun g x =>
        match x.sendWord (.core g) g (x.g g d) (x.g g a) c.toNat (x.core g).cur.eff with
        | .fail => .error (flt 0x09)
        | .full => .error .stall
        | .done y => y.next g) w
    | k =>
      match w.twigAt k with
      | none => w
      | some t =>
        let v := t.src d
        let x := t.src a
        if v.null || x.null then w.setTwig k t.adv
        else
          match w.sendWord (agentWho k) (agentGrove k) (v.bits.setWidth 64) (x.bits.setWidth 64) c.toNat (nPrio t.record) with
          | .fail => w.abandon k t 0x09 0 0
          | .full => w.setTwig k { t with stall := some (t.stall.getD w.mod.cycle) }
          | .done y => y.setTwig k t.adv

/-- RECV (R156, R157). -/
def execRecv (d : BitVec 5) (c : BitVec 6) (s : State) : Out :=
  run s (coreInstr (.recv d c) fun g w =>
    match (w.core g).chan c.toNat with
    | v :: t => ((w.updCore g fun k => k.setChan c.toNat t).acquire g).give g d v
    | [] => w.suspend g 1 c.toNat none d (w.core g).pc4 false)

/-- MAIL_DELIVERY: a word held for a channel goes to a waiting record or into the queue once it can (R155). -/
def execMailDelivery (grove chan : Nat) (value : Word) (s : State) : Out :=
  run s fun w =>
    match (w.core grove).mailHeld.find? fun h => h.chan == chan with
    | none => w
    | some h =>
      if h.word = value then
        match w.deliver grove chan value with
        | some w1 => w1.updCore grove fun c => { c with mailHeld := c.mailHeld.erase h }
        | none => w
      else w

/-- Whether a core is between two instructions: none that it has issued is held (R123, R392). -/
def Core.atBoundary (c : Core) : Bool := c.stall.isNone && c.portWait.isNone

/-- INBOUND_REGISTER_WRITE: the first write that waits lands, once the instruction issued before it has completed (R123). -/
def execInboundRegisterWrite (grove : Nat) (s : State) : Out :=
  run s fun w =>
    match (w.core grove).atBoundary, (w.core grove).inbound with
    | true, (n, v) :: t => w.updCore grove fun c => { c.setReg (bv 5 n) v with inbound := t }
    | _, _ => w

/-! ## SPAWN, YIELD, WIDF and COLR (R158 to R161) -/

/-- SPAWN (R158, R321). -/
def execSpawn (d a b : BitVec 5) (s : State) : Out :=
  run s (coreInstr (.spawn d a b) fun g w => do
    let r := w.rno g
    let va := (w.g g a).toNat
    let st := (w.g g b).toNat
    needAt (va % 64 = 0) 0x03 va
    let w1 ← stopAt (w.vcheck (w.accCore g) needR va 64)
    match (w1.region r).running with
    | none => .error (flt 0x09)
    | some u =>
      need (st < u.launch.nstage) 0x09
      if !u.room st then w1.suspend g 3 st none 0 (w.core g).pc false
      else
        let (bs, w2) ← stopAt (w1.vread (w1.accCore g) va 64)
        let x := bv 512 (leNat bs)
        need (u.launch.recOk x) 0x09
        (w2.pushRec r (trSetStage x st)).give g d 0)

/-- YIELD (R159). -/
def execYield (s : State) : Out :=
  run s (coreInstr .yield fun g w => w.suspend g 0 0 none 0 (w.core g).pc4 true)

/-- YIELD.UNTIL (R159). -/
def execYieldUntil (a : BitVec 5) (s : State) : Out :=
  run s (coreInstr (.yieldUntil a) fun g w =>
    if (w.g g a).toNat ≤ w.mod.cycle then w.next g
    else w.suspend g 2 0 (some a) 0 (w.core g).pc4 false)

/-- WIDF: a field of the task's work identifier, or all of it (R160). -/
def execWidf (d n : BitVec 5) (s : State) : Out :=
  run s (coreInstr (.widf d n) fun g w =>
    let wid := (w.core g).cur.wid
    let widw := match (w.regOf g).running with
      | some u => u.launch.widw
      | none => 0
    w.give g d (if n = 6 then wid else bv 64 (widField widw n.toNat wid.toNat)))

/-- COLR (R161). -/
def execColr (d : BitVec 5) (s : State) : Out :=
  run s (coreInstr (.colr d) fun g w =>
    let t := (w.core g).cur
    w.give g d (bv 64 (tagField t.colour t.iter)))

/-! ## What a core runs next (R144, R145, R151, R152, R322) -/

/-- The running task's effective priority, and a record's, compared: whether `a` is chosen before `b` (R144). -/
def recBefore (now : Nat) (a b : Record) : Bool :=
  let pa := a.eff now
  let pb := b.eff now
  let ta := a.since.getD now
  let tb := b.since.getD now
  if pa ≠ pb then pb < pa else if ta ≠ tb then ta < tb else a.order ≤ b.order

/-- The record chosen among several. -/
def bestRec (now : Nat) : List Record → Option Record
  | [] => none
  | r :: t =>
    match bestRec now t with
    | none => some r
    | some q => if recBefore now r q then some r else some q

/-- The record that has been runnable longest. -/
def longestRun (now : Nat) : List Record → Option Record
  | [] => none
  | r :: t =>
    match longestRun now t with
    | none => some r
    | some q => if r.since.getD now ≤ q.since.getD now then some r else some q

/-- The core with a record's task running, its registers as R152 gives: those saved, and DREG with the value that came for
it (`free` the values of those that were not saved); trap state comes back with a task that froze or that a freeze wave stopped (R387). -/
def Core.resume (c : Core) (r : Record) (free : List Word) (now : Nat) : Core :=
  { c with
    regs := if r.full then r.regs
      else match r.dval with
        | some v => setAt (resumeRegs r.live r.regs c.regs free) r.dreg.toNat v
        | none => resumeRegs r.live r.regs c.regs free
    pc := r.pc
    task := some { r.task with started := now, eff := r.eff now }
    loopActive := r.full && r.loopActive
    bodyStart := if r.full then r.body.1 else c.bodyStart
    bodyEnd := if r.full then r.body.2 else c.bodyEnd
    loopcnt := if r.full then r.loopcnt else 0
    halted := r.halted
    stall := none
    trap := r.trap.getD { c.trap with intrap := false, loopHeld := false } }

/-- A record's marks beyond WOBJ's 16 bits: the fault that a lost or discarded request brings (R350, R351). -/
def Record.bad (r : Record) : Option Nat :=
  if r.wait = 7 ∧ 2 ^ 40 ≤ r.wobj / 65536 then some (r.wobj / 65536 - 2 ^ 40) else none

/-- A record resumed on a core: FENCE reports as it completes, a lost or discarded request's fault is raised at its
instruction, and the accesses before what woke it are behind it (R152, R157, R208, R350, R351). -/
def Work.resumeOn (w : Work) (g : Nat) (r : Record) : Work :=
  let p := freshWords 24 (if r.home = g then w else w.catchUp g)
  let stands := decide ((w.core g).kept = some r.order) && r.home == g
  let w1 := (p.2.updCore g fun c =>
    { c.resume (if r.bad.isSome then { r with dval := none } else r) (if stands then c.regs else p.1) w.mod.cycle with
      kept := none
      opens := if r.wait = 7 ∧ r.wobj < rldWait then some (r.pc, r.wobj) else none }).acquire g
  if r.wait = 9 ∧ r.full = false then
    let f := w1.fenceDone r.home g
    f.2.updCore g fun c => c.setReg r.dreg f.1
  else
    match r.bad with
    | some code => (w1.updCore g fun c => { c with pc := c.pc - 4 }).raise g code (r.dval.getD 0) (bv 64 (r.wobj % 65536)) none
    | none => w1

/-- A new task on a core: it follows what started it (R148, R322; log entry 13). -/
def Work.startTask (w : Work) (g : Nat) (u : Running) (x : TRec) : Work :=
  let p := freshWords 32 (w.acquire g)
  let regs := [0, bv 64 u.launch.addr, bv 64 (trArg0 x), bv 64 (trArg1 x)] ++ p.1.drop 4
  p.2.updCore g fun c =>
    { c with
      regs := regs
      pc := bv 16 (trEpt x)
      asid := (w.regOf g).rasid
      task := some ⟨trColour x, trIter x, u.launch.prio, 0, trWid x, w.mod.cycle, u.launch.prio, false⟩
      loopActive := false
      loopcnt := 0
      stall := none
      kept := none
      opens := none
      trap := { c.trap with intrap := false, loopHeld := false } }

/-- A continuation record read from memory (R148, R149). -/
def recordOf (bs : List Byte) (home : Nat) : Record :=
  let f : Nat → Nat → Nat := fun off n => leNat ((bs.drop off).take n)
  let live : BitVec 32 := bv 32 (f 2 4)
  let full := live = 0xFFFFFFFE#32
  let words := (List.range 31).map fun i => bv 64 (f (32 + 8 * i) 8)
  { full := full, pc := bv 16 (f 0 2), live := live, regs := if full then 0 :: words else words.take 16,
    task := ⟨bv 12 (f 6 4), bv 16 (f 6 4 / 2 ^ 12), f 6 4 / 2 ^ 28 % 4, bv 64 (f 16 8), bv 64 (f 24 8), 0, 0, false⟩,
    wait := f 11 1 % 16, vslot := f 11 1 / 16, wobj := f 12 2, dreg := bv 5 (f 14 2),
    body := (bv 16 (f 280 2), bv 16 (f 282 2)), loopActive := full && f 284 1 % 2 == 1, loopcnt := bv 64 (f 288 8),
    since := none, order := 0, home := home, dval := none, trap := none, halted := false, pend := [] }

/-- A task record of KIND 2: the continuation record it names resumes; one whose WID or wait kind differs, or whose read
fails, ends the task and posts Permission, with its index where it is an initial record. The record is read behind every access
that preceded its push (R321, R322, R431). -/
def Work.startSaved (w : Work) (g : Nat) (u : Running) (x : TRec) : Work :=
  let a : Acc := ⟨g, .after w.mod.maxTime, (w.regOf g).rasid, !u.launch.sup, some (w.rno g), false, .other⟩
  let r := w.rno g
  let at_ := (u.initial.find? fun e => e.1 == x).map Prod.snd
  let w := w.updRegion r fun y =>
    { y with running := y.running.map fun v => { v with initial := v.initial.eraseP fun e => e.1 == x } }
  let bad := (w.endTask r (trWid x)).post r { w.blank g 0x09 with wid := trWid x, aux := bv 64 (at_.getD 0) }
  match w.vread a (trEpt x) 32 with
  | .error _ => bad
  | .ok (hd, w1) =>
    let n := if (recordOf hd g).full then 320 else 160
    match w1.vread a (trEpt x) n with
    | .error _ => bad
    | .ok (bs, w2) =>
      let r := recordOf bs g
      if r.task.wid = trWid x ∧ r.wait = 0 then
        ((w2.updCore g fun c => { c with kept := none }).resumeOn g r).updCore g fun c => { c with asid := (w.regOf g).rasid }
      else bad

/-- A runnable record on another core of the region, longest first, with its core (R144). -/
def Work.elsewhere (w : Work) (g : Nat) : Option (Nat × Record) :=
  let r := w.rno g
  let all := ((w.grovesOf r).filter fun h => h != g).map fun h => (w.core h).runnable.map fun x => (h, x)
  let pairs := all.flatten
  (longestRun w.mod.cycle (pairs.map Prod.snd)).bind fun x => pairs.find? fun p => p.2 == x

/-- TASK_SCHEDULE: a core with no running task resumes its best runnable record, starts its next new task, or takes the
record that has waited longest on another core of its region (R144). -/
def execTaskSchedule (grove : Nat) (s : State) : Out :=
  run s fun w =>
    let c := w.core grove
    let reg := w.regOf grove
    let own := bestRec w.mod.cycle c.runnable
    let prio := match reg.running with
      | some u => u.launch.prio
      | none => 0
    if c.task.isSome || c.halted || !reg.runs then w
    else
      match own, c.runQ, reg.running with
      | some r, [], _ => (w.updCore grove fun k => { k with slots := k.slots.erase r }).resumeOn grove r
      | some r, x :: q, some u =>
        if prio ≤ r.eff w.mod.cycle then (w.updCore grove fun k => { k with slots := k.slots.erase r }).resumeOn grove r
        else
          let w1 := w.updCore grove fun k => { k with runQ := q }
          if trKind x = 2 then w1.startSaved grove u x else w1.startTask grove u x
      | some r, _, none => (w.updCore grove fun k => { k with slots := k.slots.erase r }).resumeOn grove r
      | none, x :: q, some u =>
        let w1 := w.updCore grove fun k => { k with runQ := q }
        if trKind x = 2 then w1.startSaved grove u x else w1.startTask grove u x
      | none, _, _ =>
        match w.elsewhere grove with
        | some (h, r) => (w.updCore h fun k => { k with slots := k.slots.erase r }).resumeOn grove r
        | none => w

/-- Whether a core's task must give way: it has run 16,384 cycles and a continuation of equal or higher effective priority is
runnable on its core. It does so at an instruction boundary, never inside an instruction that is held, nor in a trap (R145,
R387). -/
def Core.switchDue (c : Core) (now : Nat) : Bool :=
  match c.task with
  | none => false
  | some t =>
    decide (16384 ≤ now - t.started) && !c.trap.intrap && !c.halted && !c.halting && c.atBoundary &&
      c.runnable.any fun r => decide (t.eff ≤ r.eff now)

/-- Whether a core's task has issued a CKILL whose purge wave is under way (R395). -/
def Work.purging (w : Work) (g : Nat) : Bool := (w.regOf g).purge.any fun p => p.2 == some g

/-- The work with a core's task switched out, where it must give way, no CKILL of its own is under way, and its full record finds
room (R145, R149, R151, R395). -/
def Work.switched (w : Work) (g : Nat) : Option Work :=
  let c := w.core g
  if c.switchDue w.mod.cycle ∧ w.purging g = false then
    (w.place g { c.full g c.suspOrder c.pc with since := some w.mod.cycle, trap := none }).map fun w1 =>
      w1.updCore g fun k => { k.idle with suspOrder := k.suspOrder + 1 }
  else none

/-- FORCED_SWITCH: a task that has run 16,384 cycles gives way to a continuation of equal or higher effective priority on
its core; it is saved as a full record, runnable (R145). -/
def execForcedSwitch (grove : Nat) (s : State) : Out := run s fun w => (w.switched grove).getD w

/-- CYCLE_WAIT_EXPIRY: a record that waits on S.CYCLE becomes runnable; places from 32 on are those of the spill area
(R150, R159). -/
def execCycleWaitExpiry (grove slot : Nat) (s : State) : Out :=
  run s fun w =>
    let now := w.mod.cycle
    let up : Record → Record := fun r =>
      if r.since = none ∧ r.wait = 2 ∧ r.value.toNat ≤ now then r.wake now else r
    if slot < 32 then
      match (w.core grove).slots[slot]? with
      | some r => w.updCore grove fun c => { c with slots := setAt c.slots slot (up r) }
      | none => w
    else
      match Tbl.find (w.regOf grove).spill (slot - 32) with
      | some r => w.updRegion (w.rno grove) fun x => { x with spill := Tbl.put x.spill (slot - 32) (up r) }
      | none => w

/-- The place of the spilled record that has been runnable longest. -/
def longestSpilled (now : Nat) (t : Tbl Record) : Option (Nat × Record) :=
  (longestRun now ((Tbl.vals t).filter fun r => r.since.isSome)).bind fun r => t.find? fun e => e.2 == r

/-- The spilled record that a core of a region would read back, with its place: the one that has been runnable longest, else
one whose FWAIT is complete at this core's copy, runnable from now on (R151, R288). -/
def Work.readable (w : Work) (region grove : Nat) : Option (Nat × Record) :=
  (longestSpilled w.mod.cycle (w.region region).spill).orElse fun _ =>
    ((w.region region).spill.find? fun e => e.2.since.isNone && e.2.wait == 6 && w.fwaitDone region grove e.2).map fun e =>
      (e.1, (e.2.setReg e.2.dreg 0).wake w.mod.cycle)

/-- Whether a core has a record of the spill area to read back and the slots for it (R151). -/
def Work.reads (w : Work) (region grove : Nat) : Bool :=
  w.rno grove == region && (w.readable region grove).any fun e => decide (w.slotsHeld grove + e.2.size ≤ 32)

/-- SPILL_READBACK: a core with free slots reads a runnable record back (R151, R288). -/
def execSpillReadback (region grove : Nat) (s : State) : Out :=
  run s fun w =>
    match w.readable region grove with
    | some (k, r) =>
      if w.slotsHeld grove + r.size ≤ 32 ∧ w.rno grove = region then
        (w.updRegion region fun x => { x with spill := Tbl.del x.spill k }).updCore grove fun c =>
          { c with slots := c.slots ++ [r] }
      else w
    | none => w

end Sys2Proof.Machine
end

