-- ==== Sys2Proof/Machine/Configure.lean ====
section
/-! DEFINITION. CFGW: loading a node record, a twig block, a shape record or a whole context into a cell (spec 04 R108 to
R110; 20 R393). -/

namespace Sys2Proof.Machine

/-- The bytes of CFGW's object, read as LD reads (R142, R393). -/
def cfgRead (g va n : Nat) (w : Work) : Except Stop (List Byte × Work) := stopAt (w.vread (w.accCore g) va n)

/-- The cell that CFGW's target names, or Permission (R393). -/
def Work.cfgCell (w : Work) (g : Nat) (x : Word) : Except Stop Nat :=
  match w.lcell (w.rno g) (fld x 11 0) with
  | some mc => .ok mc
  | none => .error (flt 0x09)

/-- Whether a record may be loaded into a cell of a region, the pending ones counted as loaded. -/
def Work.recordFits (w : Work) (mc : Nat) (c : Cell) (ctx node : Nat) (r : NRec) : Bool :=
  recordOk w.mod.modNo (w.regOf (mc / 16)) (w.isRing (mc / 16)) c ctx node r

/-- A record accepted by a cell: at once over an empty node or in an inactive context, else the node reconfigures (R108,
R393). -/
def Cell.acceptNode (c : Cell) (ctx node : Nat) (r : NRec) : Cell :=
  if ctx = c.active ∧ nOpc (c.node node) ≠ 0 then { c with reconf := Tbl.put c.reconf (1024 * ctx + node) r }
  else (c.loadNode ctx node r).newInterval

/-- CFGW.NODE (R393). -/
def execCfgwNode (a b : BitVec 5) (s : State) : Out :=
  run s (coreInstr (.cfgwNode a b) fun g w => do
    let va := (w.g g a).toNat
    let x := w.g g b
    let ctx := fld x 23 22
    let node := fld x 21 12
    needAt (va % 8 = 0) 0x03 va
    let (bs, w1) ← cfgRead g va 12 w
    need (fld x 63 24 = 0) 0x09
    let mc ← w1.cfgCell g x
    let c := w1.cell mc
    let r : NRec := bv 96 (leNat bs)
    need (w1.recordFits mc c.patchAll ctx node r) 0x05
    if c.nextCtx.isSome || (Tbl.find c.reconf (1024 * ctx + node)).isSome then .error .stall
    else (w1.setCell mc (c.acceptNode ctx node r)).next g)

/-- The words of a twig block read from an address: header, then COUNT + 1 instructions (R73, R393). -/
def cfgTwig (g va : Nat) (w : Work) : Except Stop (BitVec 64 × List Code × Work) := do
  let (hd, w1) ← cfgRead g va 8 w
  let h := bv 64 (leNat hd)
  let n := fld h 31 27 + 1
  let (bs, w2) ← cfgRead g (va + 8) (4 * n) w1
  return (h, (List.range n).map fun i => bv 32 (leNat ((bs.drop (4 * i)).take 4)), w2)

/-- Whether words to be written overlap blocks that wait to be written. -/
def pendOverlap (p : List (Nat × List Code)) (a n : Nat) : Bool :=
  p.any fun b => decide (b.1 < a + n) && decide (a < b.1 + b.2.length)

/-- A twig block accepted by a cell: written at once where no running twig overlaps it (R109). -/
def Cell.acceptBlock (c : Cell) (a : Nat) (ws : List Code) : Cell :=
  if twigsOverlap c.twigs twigAddr a ws.length then { c with pendTwig := c.pendTwig ++ [(a, ws)] }
  else (c.loadBlock a ws).newInterval

/-- A twig block accepted by a matrix element (R109, R254). -/
def Mx.acceptBlock (m : Mx) (a : Nat) (ws : List Code) : Mx :=
  if twigsOverlap m.twigs Twig.entry a ws.length then { m with pendingTwig := m.pendingTwig ++ [(a, ws)] }
  else m.loadBlock a ws

/-- CFGW of a twig block, into a cell or a matrix element whose store has `size` words (R254, R393). -/
def cfgwBlock (mx : Bool) (size : Nat) (a b : BitVec 5) (g : Nat) (w : Work) : Except Stop Work := do
  let va := (w.g g a).toNat
  let x := w.g g b
  let at_ := fld x 26 16
  needAt (va % 8 = 0) 0x03 va
  let (h, code, w1) ← cfgTwig g va w
  need (fld x 15 12 = 0 && fld x 63 27 = 0 && at_ % 2 == 0 && decide (at_ + code.length + 2 ≤ size)) 0x09
  let mc ← w1.cfgCell g x
  need (blockOk mx h code) 0x05
  let ws := blockWords h code
  if mx then
    let m := w1.mx (mc / 16)
    if pendOverlap m.pendingTwig at_ ws.length then .error .stall
    else (w1.setMx (mc / 16) (m.acceptBlock at_ ws)).next g
  else
    let c := w1.cell mc
    if pendOverlap c.pendTwig at_ ws.length then .error .stall
    else (w1.setCell mc (c.acceptBlock at_ ws)).next g

/-- CFGW.TWIG (R393). -/
def execCfgwTwig (a b : BitVec 5) (s : State) : Out := run s (coreInstr (.cfgwTwig a b) (cfgwBlock false 2048 a b))

/-- CFGW.TWIG.MX (R254, R393). -/
def execCfgwTwigMx (a b : BitVec 5) (s : State) : Out := run s (coreInstr (.cfgwTwigMx a b) (cfgwBlock true 512 a b))

/-- A shape record loaded: each generator whose NAG names it starts anew at its next trigger (R393). -/
def Cell.loadShape (c : Cell) (i : Nat) (x : BitVec 512) : Cell :=
  let us := (Tbl.vals c.nodes).filterMap fun r => if nOpc r = 0x20 ∧ litF r 4 0 = i then some (litF r 6 5) else none
  let c1 := { c with shapes := Tbl.put c.shapes i x }
  us.foldl (fun d u => { d with gens := Tbl.put d.gens u { d.gen u with fresh := true } }) c1

/-- CFGW.SHAPE (R184, R393). -/
def execCfgwShape (a b : BitVec 5) (s : State) : Out :=
  run s (coreInstr (.cfgwShape a b) fun g w => do
    let va := (w.g g a).toNat
    let x := w.g g b
    needAt (va % 8 = 0) 0x03 va
    let (bs, w1) ← cfgRead g va 64 w
    need (fld x 15 12 = 0 && fld x 63 21 = 0) 0x09
    let mc ← w1.cfgCell g x
    let sr : BitVec 512 := bv 512 (leNat bs)
    need (shapeOk sr) 0x05
    (w1.updCell mc fun c => (c.loadShape (fld x 20 16) sr).newInterval).next g)

/-- The records of a whole-context image (R393). -/
def ctxRecords (n : Nat) (bs : List Byte) : List NRec :=
  (List.range n).map fun i => bv 96 (leNat ((bs.drop (12 * i)).take 12))

/-- A cell with a context emptied. -/
def Cell.emptyCtx (c : Cell) (ctx : Nat) : Cell :=
  ((Tbl.keys c.nodes).filter fun k => k / 1024 == ctx).foldl (fun d k => d.loadNode ctx (k % 1024) 0) c

/-- A context filled with records in order, each checked as it is loaded; none where one is rejected. -/
def Work.fillCtx (w : Work) (mc ctx : Nat) : Nat → List NRec → Cell → Option Cell
  | _, [], c => some c
  | i, r :: t, c => if w.recordFits mc c ctx i r then w.fillCtx mc ctx (i + 1) t (c.loadNode ctx i r) else none

/-- A whole context accepted by a cell: at once where it is inactive, else by R110. Its records are no longer those of a graph
load (R394). -/
def Cell.acceptCtx (c filled : Cell) (ctx : Nat) (rs : List NRec) : Cell :=
  if ctx = c.active then
    { c with
      graphCtx := c.graphCtx.filter fun k => k != ctx
      nextCtx := some (8 + ctx)
      reconf := (List.zip (List.range rs.length) rs).foldl
        (fun t e => if nOpc e.2 = 0 then t else Tbl.put t (1024 * ctx + e.1) e.2) c.reconf }
  else { filled.newInterval with graphCtx := c.graphCtx.filter fun k => k != ctx }

/-- CFGW.CTX (R393). -/
def execCfgwCtx (a b : BitVec 5) (s : State) : Out :=
  run s (coreInstr (.cfgwCtx a b) fun g w => do
    let va := (w.g g a).toNat
    let x := w.g g b
    let ctx := fld x 23 22
    needAt (va % 8 = 0) 0x03 va
    let (hd, w1) ← cfgRead g va 8 w
    let n := leNat hd
    let (bs, w2) ← if 1 ≤ n ∧ n ≤ 1024 then cfgRead g (va + 8) (12 * n) w1 else .ok ([], w1)
    need (fld x 21 12 = 0 && fld x 63 24 = 0) 0x09
    let mc ← w2.cfgCell g x
    let c := w2.cell mc
    let rs := ctxRecords n bs
    need (decide (1 ≤ n) && decide (n ≤ 1024)) 0x05
    match w2.fillCtx mc ctx 0 rs (c.emptyCtx ctx) with
    | none => .error (flt 0x05)
    | some filled =>
      if c.nextCtx.isSome || c.reconf.any fun e => e.1 / 1024 == ctx then .error .stall
      else (w2.setCell mc (c.acceptCtx filled ctx rs)).next g)

end Sys2Proof.Machine
end

