-- ==== Sys2Proof/Machine/Histories.lean ====
section
/-! DEFINITION. Arrangements, the operators that keep histories, compaction and passes, and the reader instructions (spec
13). An arrangement is kept as entries; sapwood and heartwood bytes follow them in an order of the model's (log entry 20). -/

namespace Sys2Proof.Machine

/-! ## Descriptors and entries (R291, R293) -/

/-- 2^LOGB buckets. -/
def Arr.buckets (a : Arr) : Nat := 2 ^ bits a.desc.toNat 23 16
/-- The entries at which the open batch seals. -/
def Arr.sealN (a : Arr) : Nat := 2 ^ bits a.desc.toNat 31 24
/-- Whether entries name attached tiles. -/
def Arr.att (a : Arr) : Bool := a.desc.getLsbD 40
/-- SAPOFF. -/
def Arr.sapoff (a : Arr) : Nat := bits a.desc.toNat 79 64
/-- HWCAP. -/
def Arr.hwcap (a : Arr) : Nat := bits a.desc.toNat 127 96
/-- HWBASE. -/
def Arr.hwbase (a : Arr) : Nat := bits a.desc.toNat 184 128
/-- The reader handles that RMASK marks. -/
def Arr.readerList (a : Arr) : List Nat :=
  ((List.range 8).filter fun i => a.desc.getLsbD (48 + i)).map fun i => bits a.desc.toNat (199 + 8 * i) (192 + 8 * i)

/-- A record's place in ascending byte order (R310, R312). -/
def recKey (ws : List Word) : Nat := leNat ((bytesOf ((List.range 4).map fun i => ws.getD i 0)).reverse)

/-- The key bytes of a record. -/
def keyOf (kw : Nat) (ws : List Word) : List Byte := (bytesOf ws).take kw

/-- The entry of a change. -/
def entryOf (ws : List Word) : AEntry := ⟨ws.take 4, chTime ws, chDiff ws, bv 32 (fld (ws.getD 5 0) 63 32), 0, 0⟩

/-- The 48 bytes of an entry. -/
def AEntry.bytes (e : AEntry) : List Byte := bytesOf (chWords e.words e.time e.diff e.hash)

/-- Whether an entry comes before another: by record, then time. -/
def AEntry.before (d e : AEntry) : Bool :=
  recKey d.words < recKey e.words || (recKey d.words == recKey e.words && d.time.toNat < e.time.toNat)

/-- An entry put into a list in a given order, after those that do not come after it. -/
def putEntry (lt : AEntry → AEntry → Bool) (e : AEntry) : List AEntry → List AEntry
  | [] => [e]
  | d :: t => if lt e d then e :: d :: t else d :: putEntry lt e t

/-- Entries in a given order. -/
def sortEntries (lt : AEntry → AEntry → Bool) (es : List AEntry) : List AEntry := es.foldl (fun l e => putEntry lt e l) []

/-- The entries of a key inside its bucket: heartwood, sealed batches oldest first, the open batch (R293, R310). -/
def Arr.lookup (a : Arr) (ws : List Word) : List AEntry :=
  let k := keyOf a.kw ws
  let b := (crc32c k).toNat % a.buckets
  let mine : AEntry → Bool := fun e => e.hash.toNat % a.buckets == b && keyOf a.kw e.words == k
  ((a.hw :: a.sealed ++ [a.openB]).map fun l => sortEntries AEntry.before (l.filter mine)).flatten

/-- The exact sum of each record and time of sorted entries. -/
def sumEntries : List AEntry → List AEntry
  | [] => []
  | e :: t =>
    match sumEntries t with
    | [] => [e]
    | d :: r =>
      if d.words = e.words ∧ d.time = e.time ∧ d.colour = e.colour ∧ d.iter = e.iter then
        { d with diff := d.diff + e.diff } :: r
      else e :: d :: r

/-- A sum as entries in s32: none for zero, several where it lies outside (R294, R297). -/
def splitSum (e : AEntry) : Nat → Int → List AEntry
  | 0, _ => []
  | n + 1, s =>
    if s = 0 then []
    else if 2147483647 < s then { e with diff := 2147483647 } :: splitSum e n (s - 2147483647)
    else if s < -2147483648 then { e with diff := -2147483648 } :: splitSum e n (s + 2147483648)
    else [{ e with diff := s }]

/-- Entries merged, and the buckets where a sum fell outside s32 (R294, R297, R300). -/
def Arr.consolidate (a : Arr) (es : List AEntry) : List AEntry × List Nat :=
  let sums := sumEntries (sortEntries AEntry.before es)
  let wide := sums.filter fun e => decide (e.diff < -2147483648) || decide (2147483647 < e.diff)
  ((sums.map fun e => splitSum e (es.length + 1) e.diff).flatten, wide.map fun e => e.hash.toNat % a.buckets)

/-- An arrangement set. -/
def Work.setArr (w : Work) (r n : Nat) (a : Arr) : Work := w.updRegion r fun x => { x with arrs := Tbl.put x.arrs n a }

/-- Merges outside s32 reported: nothing freezes (R297; AUX the arrangement, AUX2 the bucket). -/
def Work.wideSums (w : Work) (r g n : Nat) (bs : List Nat) : Work :=
  bs.foldl (fun v b => v.post r { v.blank g 0x12 with aux := bv 64 n, aux2 := bv 64 b }) w

/-! ## Sapwood (R294) -/

/-- The sapwood units from a place on, as they stand. -/
def Arr.sapUnits (a : Arr) (frm : Nat) : List Byte :=
  (((a.sealed.flatten ++ a.openB).drop frm).take (a.saplen - frm)).flatMap fun e =>
    e.bytes ++ leBytes 4 (tagField e.colour e.iter) ++ List.replicate 12 0

/-- Sapwood bytes in the maintaining cell's bank, from a unit on. -/
def Work.sapStore (w : Work) (a : Arr) (frm : Nat) : Work :=
  w.store (bankBase a.cell + a.sapoff + 64 * frm) (a.sapUnits frm)

/-- The open batch sealed; four sealed batches make the two oldest merge (R294). -/
def Work.sealArr (w : Work) (r n : Nat) (a : Arr) : Work :=
  if a.openB.isEmpty then w
  else
    match a.sealed ++ [a.openB] with
    | x :: y :: z :: u :: t =>
      let m := a.consolidate (x ++ y)
      let b := { a with sealed := m.1 :: z :: u :: t, openB := [] }
      ((w.setArr r n b).wideSums r (a.cell / 16) n m.2).sapStore b 0
    | s => w.setArr r n { a with sealed := s, openB := [] }

/-- An entry inserted by the maintaining node; one that takes the last unit while a pass runs makes firings wait for the
pass's end (R294). -/
def Work.insertArr (w : Work) (r n : Nat) (e : AEntry) : Work :=
  match (w.region r).arr n with
  | none => w
  | some a =>
    let b := { a with
      openB := a.openB ++ [e]
      run := a.run.map fun p => { p with full := p.full || decide (a.saplen ≤ a.sap + 1) } }
    let w1 := (w.setArr r n b).sapStore b a.sap
    if b.openB.length = a.sealN then w1.sealArr r n b else w1

/-- Entries inserted in order while the sapwood has room; the others wait for the pass that frees it (R294). -/
def Work.insertAll (r n : Nat) : List AEntry → Work → Work
  | [], w => w
  | e :: t, w =>
    if (w.region r).sapRoom n then insertAll r n t (w.insertArr r n e)
    else
      match (w.region r).arr n with
      | none => w
      | some a => w.setArr r n { a with inbox := e :: t }

/-- The entries that waited inserted after a pass; when none waits any more their firing's item is released (R294). -/
def Work.refill (w : Work) (r n : Nat) : Work :=
  match (w.region r).arr n with
  | none => w
  | some a =>
    let w1 := Work.insertAll r n a.inbox (w.setArr r n { a with inbox := [] })
    match (w1.region r).arr n with
    | none => w1
    | some b =>
      if b.inbox.isEmpty then (w1.count (a.cell / 16) a.inboxItem false).setArr r n { b with inboxItem := none } else w1

/-! ## Operators (R308 to R313) -/

/-- A firing that does its whole work itself; a fire the cell does not choose changes nothing. -/
def fireLong (opc : Nat) (eff : Fire → Inst → Work → Work) (f : Fire) (w : Work) : Work :=
  match (w.cell f.cell).inst f with
  | none => w
  | some x => if nOpc x.r = opc ∧ w.chosen f = true then eff f x w else w

/-- A firing's tokens consumed, their counts released, after its outputs are counted (R274). -/
def consume (f : Fire) (x : Inst) (w : Work) : Work :=
  (releaseToks (f.cell / 16) (x.toks.map Prod.snd) (w.updCell f.cell fun c => c.freeEntries x.ids)).traced f.cell true
    (fireToken f x (w.logical f.cell))

/-- A firing that faults: its tokens stay with the frozen colour (R121, R381). -/
def failFiring (f : Fire) (x : Inst) (code : Nat) (w : Work) : Work :=
  w.freezeNode f.cell f.node f.colour f.iter code x.toks 0 0 1

/-- An output of an operator, as it is sent: time, words, and its index in the firing. -/
structure COut where
  words : List Word
  time : Word
  index : Nat
  colour : BitVec 12
  iter : BitVec 16
  cause : Option (Nat × Nat)
deriving DecidableEq, Repr

/-- Outputs counted in order and kept until the output queue has room (R275, R308). -/
def keepChanges (mc node : Nat) (r : NRec) (scope : Nat) : List COut → Work → Work
  | [], w => w
  | o :: t, w =>
    let p := w.countNew (mc / 16) scope o.time o.cause
      (both r fun d => mkChange d o.colour o.iter o.index (nPrio r) o.words)
    keepChanges mc node r scope t (p.2.updCell mc fun c => c.keepOut node p.1)

/-- The outputs of one firing, in order under its number. -/
def sendChanges (mc node : Nat) (r : NRec) (scope : Nat) (os : List COut) (w : Work) : Work :=
  (keepChanges mc node r scope os w).updCell mc Cell.nextFiring

/-- DARR: the change inserted, and sent whole, its SEQ the index of the output within the firing; a null token or a change
with diff 0 passes on unchanged (R308, R309). -/
def execDarr (s : State) : Out :=
  run s (fireNode 0x32 (fun f x w =>
    let r := w.rno (f.cell / 16)
    let n := litF x.r 7 0
    let ws := changeOf (x.tok 0)
    if x.anyNull then .done (both x.r (passNull x.r (x.tok 0))) w
    else if isTime ((w.region r).arrShape n) (chTime ws) = false then .fault 0x11 0 0
    else
      if chDiff ws = 0 then passed f (both x.r (pass x.r (x.tok 0))) w
      else passed f (both x.r fun d => { pass x.r (x.tok 0) d with seq := 0 }) (w.insertArr r n (entryOf ws))) s.fire)

/-- The record that a join makes: the key, the value of side 0, the value of side 1, zeros (R310). -/
def joinRecord (kw vw0 vw1 : Nat) (v0 v1 : List Word) : List Word :=
  wordsOf 4 (keyOf kw v0 ++ ((bytesOf v0).drop kw).take vw0 ++ ((bytesOf v1).drop kw).take vw1 ++ List.replicate 32 0)

/-- DJOIN's firing, whose first `skip` outputs are not sent (R310, R384). -/
def joinFire (skip : Nat) (f : Fire) (x : Inst) (w : Work) : Work :=
  let r := w.rno (f.cell / 16)
  let reg := w.region r
  match x.toks, reg.arr (litF x.r 7 0), reg.arr (litF x.r 15 8) with
  | (p, t) :: _, some a0, some a1 =>
    let ws := changeOf t
    let sh := reg.shape a0.scope
    if t.null then consume f x w
    else if isTime sh (chTime ws) = false then failFiring f x 0x11 w
    else if chDiff ws = 0 then consume f x w
    else
      let other := if p = 0 then a1 else a0
      let fits : AEntry → Bool := fun e =>
        decide (-2147483648 ≤ chDiff ws * e.diff) && decide (chDiff ws * e.diff ≤ 2147483647)
      let es := other.lookup ws
      let good := es.takeWhile fits
      let h := crc32c (keyOf a0.kw ws)
      let outs : List COut := (List.zip (List.range good.length) good).map fun e =>
        let u := timeJoin sh (chTime ws) e.2.time
        let v := if p = 0 then joinRecord a0.kw a0.vw a1.vw ws e.2.words else joinRecord a0.kw a0.vw a1.vw e.2.words ws
        ⟨chWords v u (chDiff ws * e.2.diff) h, u, e.1, f.colour, f.iter, t.item⟩
      let w1 := sendChanges f.cell f.node x.r a0.scope (outs.drop skip) w
      if good.length < es.length then
        w1.freezeNode f.cell f.node f.colour f.iter 0x12 x.toks 0 (bv 64 good.length) 6
      else consume f x (w1.insertArr r (if p = 0 then litF x.r 7 0 else litF x.r 15 8) (entryOf ws))
  | _, _, _ => consume f x w

/-- DJOIN (R310). -/
def execDjoin (s : State) : Out := run s (fireLong 0x33 (joinFire 0) s.fire)

/-- The accumulations at a time of the records of entries (R293). -/
def accumulate (sh : Word) (u : Word) (es : List AEntry) : List (List Word × Int) :=
  let live := (es.filter fun e => timeLe sh e.time u).map fun e => { e with time := 0 }
  (sumEntries (sortEntries AEntry.before live)).map fun e => (e.words, e.diff)

/-- The value of an input record (R312). -/
def redValue (kw : Nat) (ws : List Word) : Word := bv 64 (leNat (((bytesOf ws).drop kw).take 8))

/-- The record of a key and a value (R312). -/
def redRecord (kw : Nat) (ws : List Word) (v : Word) : List Word :=
  wordsOf 4 (keyOf kw ws ++ leBytes 8 v.toNat ++ List.replicate 32 0)

/-- The least or greatest signed value of a list. -/
def pickSigned (largest : Bool) : List Word → Option Word
  | [] => none
  | v :: t =>
    match pickSigned largest t with
    | none => some v
    | some u => if (if largest then u.toInt ≤ v.toInt else v.toInt ≤ u.toInt) then some v else some u

/-- The aggregate of a key: output records with their multiplicities (R312). -/
def aggregate (fn kw : Nat) (key : List Word) (acc : List (List Word × Int)) : List (List Word × Int) :=
  let live := acc.filter fun e => e.2 != 0
  let pos := acc.filter fun e => 0 < e.2
  let one : Word → List (List Word × Int) := fun v => [(redRecord kw key v, 1)]
  let best : Bool → List (List Word × Int) := fun b =>
    match pickSigned b (pos.map fun e => redValue kw e.1) with
    | some v => one v
    | none => []
  match fn with
  | 0 => if live.isEmpty then [] else one (bv 64 (wrap 64 (live.map fun e => e.2).sum))
  | 1 => if live.isEmpty then [] else one (bv 64 (wrap 64 (live.map fun e => e.2 * (redValue kw e.1).toInt).sum))
  | 2 => best false
  | 3 => best true
  | _ => pos.map fun e => (e.1, 1)

/-- The differences of two multisets of records, negative ones first, each in ascending bytes (R312). -/
def differences (new old : List (List Word × Int)) : List (List Word × Int) :=
  let es : List AEntry := (new.map fun e => ⟨e.1, 0, e.2, 0, 0, 0⟩) ++ old.map fun e => ⟨e.1, 0, -e.2, 0, 0, 0⟩
  let ds := (sumEntries (sortEntries AEntry.before es)).filter fun e => e.diff != 0
  ((ds.filter fun e => e.diff < 0) ++ ds.filter fun e => 0 < e.diff).map fun e => (e.words, e.diff)

/-- The times of a reduction: the change's, closed under joins with the times of its key (R312). -/
def closeTimes (sh t : Word) (ss : List Word) : List Word :=
  ss.foldl (fun l s => (l.map (timeJoin sh s)).foldr ascend l) [t]

/-- The corrections of a reduction, each put into the output entries as it is made (R312). -/
def corrections (fn : Nat) (ai : Arr) (sh : Word) (key : List Word) (h : BitVec 32) (ins : List AEntry) :
    List Word → List AEntry → List AEntry
  | [], _ => []
  | u :: us, olds =>
    let ds := (differences (aggregate fn ai.kw key (accumulate sh u ins)) (accumulate sh u olds)).map
      fun e => (⟨e.1, u, e.2, h, 0, 0⟩ : AEntry)
    ds ++ corrections fn ai sh key h ins us (olds ++ ds)

/-- DRED's firing; corrections that find the output's sapwood full are inserted as passes free it, and the node fires again
only after them (R294, R312). -/
def redFire (f : Fire) (x : Inst) (w : Work) : Work :=
  let r := w.rno (f.cell / 16)
  let ni := litF x.r 7 0
  let no := litF x.r 15 8
  let t := x.tok 0
  let ws := changeOf t
  match (w.region r).arr ni with
  | none => consume f x w
  | some a =>
    let sh := (w.region r).shape a.scope
    if t.null then consume f x w
    else if isTime sh (chTime ws) = false then failFiring f x 0x11 w
    else if chDiff ws = 0 then consume f x w
    else
      let w1 := w.insertArr r ni (entryOf ws)
      let look : Nat → List AEntry := fun n => match (w1.region r).arr n with
        | some b => b.lookup ws
        | none => []
      let times := closeTimes sh (chTime ws) ((look ni ++ look no).map fun e => e.time)
      let h := crc32c (keyOf a.kw ws)
      let cs := corrections (litF x.r 18 16) a sh ws h (look ni) times (look no)
      let outs : List COut := (List.zip (List.range cs.length) cs).map fun e =>
        ⟨chWords e.2.words e.2.time e.2.diff h, e.2.time, e.1, f.colour, f.iter, t.item⟩
      let w2 := Work.insertAll r no cs w1
      let w3 := match (w2.region r).arr no with
        | none => w2
        | some b =>
          if b.inbox.isEmpty then w2
          else
            let q := w2.newItem (f.cell / 16) a.scope (chTime ws) t.item
            q.2.setArr r no { b with inboxItem := some q.1 }
      consume f x (sendChanges f.cell f.node x.r a.scope outs w3)

/-- DRED (R312). -/
def execDred (s : State) : Out := run s (fireLong 0x34 redFire s.fire)

/-- The order of a flush: colour, iteration, time, record (R313). -/
def AEntry.flushBefore (d e : AEntry) : Bool :=
  if d.colour ≠ e.colour then d.colour < e.colour
  else if d.iter ≠ e.iter then d.iter < e.iter
  else if d.time ≠ e.time then d.time < e.time
  else recKey d.words < recKey e.words

/-- A buffer flushed: consolidated by colour and iteration, sent, its held times released, emptied (R313). -/
def Work.flushCon (w : Work) (mc node n : Nat) : Work :=
  let r := w.rno (mc / 16)
  match (w.region r).arr n with
  | none => w
  | some a =>
    let sums := sumEntries (sortEntries AEntry.flushBefore (a.sealed.flatten ++ a.openB))
    let wide := sums.filter fun e => decide (e.diff < -2147483648) || decide (2147483647 < e.diff)
    let es := (sums.map fun e => splitSum e (a.sap + 1) e.diff).flatten
    let held : Word → Option (Nat × Nat) := fun u => (a.held.find? fun e => e.1 == u).map fun e => e.2
    let outs : List COut := (List.zip (List.range es.length) es).map fun e =>
      ⟨chWords e.2.words e.2.time e.2.diff e.2.hash, e.2.time, e.1, e.2.colour, e.2.iter, held e.2.time⟩
    let w1 := (sendChanges mc node ((w.cell mc).node node) a.scope outs w).wideSums r (mc / 16) n
      (wide.map fun e => e.hash.toNat % a.buckets)
    let w2 := a.held.foldl (fun v e => v.count (mc / 16) (some e.2) false) w1
    w2.setArr r n { a with openB := [], sealed := [], held := [] }

/-- DCON's firing: the change appended, its time held, its count released; a full buffer is flushed (R313). -/
def conFire (f : Fire) (x : Inst) (w : Work) : Work :=
  let r := w.rno (f.cell / 16)
  let n := litF x.r 7 0
  let t := x.tok 0
  let ws := changeOf t
  match (w.region r).arr n with
  | none => consume f x w
  | some a0 =>
    let a := { a0 with last := w.mod.cycle }
    let w0 := w.setArr r n a
    if t.null then consume f x w0
    else if isTime ((w.region r).shape a.scope) (chTime ws) = false then failFiring f x 0x11 w
    else if chDiff ws = 0 then consume f x w0
    else
      let p := if a.held.any fun e => e.1 == chTime ws then (a.held, w0)
        else
          let q := w0.newItem (f.cell / 16) a.scope (chTime ws) t.item
          (a.held ++ [(chTime ws, q.1)], q.2)
      let b := { a with held := p.1, openB := a.openB ++ [{ entryOf ws with colour := f.colour, iter := f.iter }] }
      let w1 := (p.2.setArr r n b).sapStore b a.sap
      consume f x (if a.sealN ≤ b.openB.length then w1.flushCon f.cell f.node n else w1)

/-- DCON (R313). -/
def execDcon (s : State) : Out := run s (fireLong 0x35 conFire s.fire)

/-- DCON_FLUSH: 64 cycles with no arrival flush a buffer that is not empty (R313). -/
def execDconFlush (cell node : Nat) (s : State) : Out :=
  run s fun w =>
    let n := litF ((w.cell cell).node node) 7 0
    match (w.regOf (cell / 16)).arr n with
    | none => w
    | some a =>
      if w.nodeStands cell node 0x35 ∧ ¬ (w.cell cell).busyNode node = true ∧ 0 < a.sap ∧ 64 ≤ w.mod.cycle - a.last then
        w.flushCon cell node n
      else w

/-! ## Readers and the compaction frontier (R298, R299) -/

/-- The retention frontier of a reader handle (R298). -/
def Region.retain (x : Region) (h : Nat) : List Word :=
  let d := Tbl.getD x.readers h Reader.reset
  let s := (x.bound d.slot).getD 0
  let fr := Tbl.getD x.rootF s []
  if d.mode then minimal (x.shape s) (d.held :: fr) else fr

/-- The compaction frontier of an arrangement (R299). -/
def Region.compFrontier (x : Region) (a : Arr) : List Word :=
  narrow (x.shape a.scope) ((a.readerList.map x.retain).flatten)

/-- The opcode of an arrangement's maintaining node. -/
def Work.keeper (w : Work) (a : Arr) : Nat := nOpc (Tbl.getD (w.cell a.cell).nodes a.node 0)

/-- COMPACTION_FRONTIER_RECOMPUTE (R299). -/
def execCompactionFrontierRecompute (region arr : Nat) (s : State) : Out :=
  run s fun w =>
    match (w.region region).arr arr with
    | none => w
    | some a => w.setArr region arr { a with c := (w.region region).compFrontier a }

/-! ## Passes (R300, R303, R304, R307) -/

/-- A time advanced to a compaction frontier (R300). -/
def advance (sh t : Word) : List Word → Word
  | [] => t
  | c :: cs => cs.foldl (fun u d => timeMeet sh u (timeJoin sh t d)) (timeJoin sh t c)

/-- The entries of a pass's bucket advanced: an empty frontier drops them all (R299, R300). -/
def advanceAll (sh : Word) (c : List Word) (es : List AEntry) : List AEntry :=
  if c.isEmpty then [] else es.map fun e => { e with time := advance sh e.time c }

/-- The tiles that entries name (R307). -/
def Arr.tiles (a : Arr) : List Nat :=
  if a.att then
    ((a.hw ++ a.sealed.flatten ++ a.openB).map fun e => leNat (((bytesOf e.words).drop a.kw).take 4)).eraseDups
  else []

/-- The slot of a handle that holds an address (R332). -/
def Handle.holds (h : Handle) (a : Nat) : Option Nat :=
  if h.slotsz ≠ 0 ∧ h.base ≤ a ∧ (a - h.base) / h.slotsz < h.nslot then some ((a - h.base) / h.slotsz) else none

/-- A tile freed: its residency, its registry entry, and its slot if it drains (R307). -/
def Work.freeTile (w : Work) (id : Nat) : Work :=
  let e := w.tile id
  if 65536 ≤ id ∨ e.1.getLsbD 63 = false then w
  else
    let w1 := (w.residClear id).setTile (.after 0) id (0, 0)
    let g := fld e.2 28 20
    let n := fld e.2 19 12
    let h := (w1.grove g).handle n
    match if e.2.getLsbD 31 then h.holds (fld e.1 56 0) else none with
    | some k => if h.slots.getD k 9 = 3 then w1.freeSlotOf g n k else w1
    | none => w1

/-- Whether a DJOIN firing on an arrangement is frozen (R381). -/
def Work.arrHeld (w : Work) (r n : Nat) : Bool :=
  (w.region r).frozen.any fun o => o.okind == 2 && (o.what == 1 || o.what == 6) &&
    (let x := (w.cell o.cell).node o.node
     nOpc x == 0x33 && (litF x 7 0 == n || litF x 15 8 == n))

/-- Whether a pass of an arrangement is due: its frontier moved, its sapwood is full, or a task asks (R303). -/
def Arr.passDue (a : Arr) : Bool := a.c != a.cf || decide (a.saplen ≤ a.sap) || a.asks.any fun q => !q.2.2

/-- Whether an arrangement's pass may take a step now. -/
def Work.passRuns (w : Work) (r n : Nat) (a : Arr) : Bool :=
  (w.region r).runs && w.keeper a != 0x35 && !w.arrHeld r n &&
    !((w.region r).frozen.any fun o => o.okind == 9 && o.what == n)

/-- A pass begins: the open batch sealed, the frontier fixed, the tiles noted; a firing that found every unit taken waits until the
pass has moved the sapwood, whatever the seal's merge dropped (R294, R303, R304, R307). -/
def Work.beginPass (w : Work) (r n : Nat) (a : Arr) : Work :=
  let w1 := w.sealArr r n a
  match (w1.region r).arr n with
  | none => w1
  | some b =>
    let c := (w1.region r).compFrontier b
    w1.setArr r n { b with c := c, run := some ⟨c, 0, a.tiles, none, decide (a.saplen ≤ a.sap)⟩ }

/-- A pass ends: CF, PASSN, NSAP 0, the tasks that asked go on, the corrections that waited are inserted, and tiles that no
entry names any more are freed (R294, R303, R307). -/
def Work.endPass (w : Work) (r n : Nat) (a : Arr) (p : PassRun) : Work :=
  let b := { a with
    cf := p.c, passn := (a.passn + 1) % 2 ^ 32, sealed := a.sealed.filter fun l => !l.isEmpty, run := none
    asks := a.asks.map fun q => (q.1, q.2.1, true) }
  ((p.tiles.filter fun t => !b.tiles.contains t).foldl (fun v t => v.freeTile t) (w.setArr r n b)).refill r n

/-- The bucket of a pass moved into heartwood, in one step (R296, R303). -/
def Work.passBucket (w : Work) (r n : Nat) (a : Arr) (p : PassRun) (b : Nat) : Work :=
  let inB : AEntry → Bool := fun e => e.hash.toNat % a.buckets == b
  let old := a.hw.filter inB
  let m := a.consolidate (advanceAll ((w.region r).shape a.scope) p.c (old ++ (a.sealed.flatten.filter inB)))
  let below := a.hw.filter fun e => e.hash.toNat % a.buckets < b
  let above := a.hw.filter fun e => b < e.hash.toNat % a.buckets
  let hw := below ++ m.1 ++ above
  let g := a.cell / 16
  let acc := w.accNode a.cell (a.node % 1024)
  if a.hwcap < hw.length then w.setArr r n { a with run := some { p with bucket := b, stall := some (p.stall.getD w.mod.cycle) } }
  else
    let at_ := a.hwbase + 48 * below.length
    match (do
      let (_, w1) ← (w.startAgent acc.who).vread acc at_ (48 * old.length)
      w1.vwrite acc at_ ((hw.drop below.length).flatMap AEntry.bytes)) with
    | .error (code, va) =>
      (w.setArr r n { a with run := some { p with bucket := b } }).freezeObj r
        { fseq := 0, okind := 9, code := code, stuck := false, grove := g, cell := a.cell, node := a.node % 1024,
          colour := 0, iter := 0, toks := [], task := none, what := n, aux := n }
        { w.blank g code with addr := bv 64 va, aux := bv 64 n }
    | .ok w1 =>
      let x := { a with
        hw := hw
        sealed := a.sealed.map fun l => l.filter fun e => !inB e
        run := some { p with bucket := b + 1, stall := none } }
      ((w1.setArr r n x).sapStore x 0).wideSums r g n m.2

/-- The least number of a list. -/
def leastOf : List Nat → Option Nat
  | [] => none
  | b :: t => some (t.foldl min b)

/-- The next bucket of a pass that holds entries; a batch sealed while it ran sends it to the lowest bucket of that batch's
entries, so that every sealed batch has moved when it ends (R303; log entry 61). -/
def Arr.nextBucket (a : Arr) (p : PassRun) : Option Nat :=
  let at_ : List AEntry → List Nat := fun es => es.map fun e => e.hash.toNat % a.buckets
  match leastOf ((at_ (a.hw ++ a.sealed.flatten)).filter fun b => p.bucket ≤ b) with
  | some b => some b
  | none => leastOf (at_ a.sealed.flatten)

/-- PASS: a pass of an arrangement begins, takes its next bucket, or ends (R303). -/
def execPass (region arr : Nat) (s : State) : Out :=
  run s fun w =>
    match (w.region region).arr arr with
    | none => w
    | some a =>
      if !w.passRuns region arr a then w
      else
        match a.run with
        | none => if a.passDue then w.beginPass region arr a else w
        | some p =>
          match a.nextBucket p with
          | none => w.endPass region arr a p
          | some b => w.passBucket region arr a p b

/-! ## Reader instructions (R305) -/

/-- The reader handle that a designator names, or Permission. -/
def Work.readerAt (w : Work) (g : Nat) (a : Word) : Except Stop (Nat × Reader) := do
  let d := Tbl.getD (w.regOf g).readers (fld a 7 0) Reader.reset
  need (fld a 63 8 = 0 && d.v) 0x09
  return (fld a 7 0, d)

/-- A reader handle set. -/
def Work.setReader (w : Work) (g h : Nat) (d : Reader) : Work :=
  w.updRegion (w.rno g) fun x => { x with readers := Tbl.put x.readers h d }

/-- AHOLD (R305). -/
def execAhold (d a b : BitVec 5) (s : State) : Out :=
  run s (coreInstr (.ahold d a b) fun g w => do
    let (h, k) ← w.readerAt g (w.g g a)
    let x := w.regOf g
    let sh := x.shape ((x.bound k.slot).getD 0)
    let t := w.g g b
    need (isTime sh t) 0x09
    if (x.retain h).any fun f => timeLe sh f t then (w.setReader g h { k with mode := true, held := t }).give g d 0
    else w.give g d 1)

/-- AREL (R305). -/
def execArel (d a : BitVec 5) (s : State) : Out :=
  run s (coreInstr (.arel d a) fun g w => do
    let (h, k) ← w.readerAt g (w.g g a)
    (w.setReader g h { k with mode := false, held := BitVec.allOnes 64 }).give g d k.held)

/-- ACMP's outcome: the instruction completes, it waits, or it asks for a pass and waits (R305). -/
inductive Compact where
  | done (w : Work)
  | wait
  | ask
deriving DecidableEq, Repr

/-- ACMP for an arrangement: a pass is asked for where one has work to do; none runs on a buffer (R305, R313). -/
def Work.compact (w : Work) (g n : Nat) (a : Arr) : Compact :=
  let r := w.rno g
  let since := (w.core g).stall.getD w.mod.cycle
  let c := (w.region r).compFrontier a
  match a.asks.find? fun q => q.1 == g && q.2.1 == since with
  | some (_, _, true) => .done (w.setArr r n { a with asks := a.asks.filter fun q => q.1 != g })
  | some _ => .wait
  | none =>
    if a.run.isSome then .wait
    else if w.keeper a ≠ 0x35 ∧ (c ≠ a.cf ∨ a.sealed ≠ [] ∨ a.openB ≠ []) then .ask
    else .done (w.setArr r n { a with c := c })

/-- A core's ask for a pass noted (R305). -/
def Work.noteAsk (w : Work) (g n : Nat) (a : Arr) : Work :=
  let r := w.rno g
  let since := (w.core g).stall.getD w.mod.cycle
  w.setArr r n { a with c := (w.region r).compFrontier a, asks := (a.asks.filter fun q => q.1 != g) ++ [(g, since, false)] }

/-- ACMP (R305). -/
def execAcmp (d a : BitVec 5) (s : State) : Out :=
  run s fun w0 =>
    let n : Nat → Nat := fun g => fld (w0.g g a) 7 0
    let w1 := coreInstr (.acmp d a) (fun g w => do
      need (fld (w.g g a) 63 8 = 0) 0x09
      match (w.regOf g).arr (n g) with
      | none => .error (flt 0x09)
      | some x =>
        match w.compact g (n g) x with
        | .done w2 =>
          let cf := match (w2.regOf g).arr (n g) with
            | some y => y.cfWord 0
            | none => 0
          w2.give g d cf
        | _ => .error .stall) w0
    match w0.turn with
    | .core g =>
      match (w1.core g).stall.isSome, (w1.regOf g).arr (n g) with
      | true, some x => (match w1.compact g (n g) x with
          | .ask => w1.noteAsk g (n g) x
          | _ => w1)
      | _, _ => w1
    | _ => w1

end Sys2Proof.Machine
end

