-- ==== Sys2Proof/Machine/Residency.lean ====
section
/-! DEFINITION. The residency tables' own steps and the instructions that read and set them, and the tile registry's
(spec 15 R332 to R338). -/

namespace Sys2Proof.Machine

/-- The grove that a designator of RESD or RESW names, or Permission; `tile` allows a tile ID in it (R337). -/
def Work.residAt (w : Work) (g : Nat) (x : Word) (tile : Bool) : Except Stop Nat := do
  let r := w.rno g
  need (fld x 7 0 = 0 && fld x 31 17 = 0 && fld x 63 48 = 0 && (tile || fld x 47 32 = 0)) 0x09
  need (fld x 15 8 < w.ngrove r) 0x09
  if x.getLsbD 16 then
    match w.mgrove r (fld x 15 8) with
    | some m => Except.ok m
    | none => .error (flt 0x09)
  else Except.ok g

/-- One access of a core at a grove's residency table, in the module order (R192, R337). -/
def Work.residAccess (w : Work) (g m : Nat) : Work := w.homeAccess (.core g) (groveBase m + 0x1320000)

/-- RESD: word +8 of the entry of a tile, or 0 (R337). -/
def execResd (d a b : BitVec 5) (s : State) : Out :=
  run s (coreInstr (.resd d a b) fun g w => do
    let m ← w.residAt g (w.g g a) false
    let x := w.g g b
    need (fld x 63 16 = 0) 0x09
    let v := match residOf (w.grove m).resid (fld x 15 0) with
      | some (k, _) => w.residWord m k true
      | none => 0
    (w.residAccess g m).give g d v)

/-- A word of the entry that a register indexes (R337). -/
def residEntry (second : Bool) (d a b : BitVec 5) (g : Nat) (w : Work) : Except Stop Work := do
  let m ← w.residAt g (w.g g a) false
  let x := w.g g b
  need (x.toNat ≤ 255) 0x09
  (w.residAccess g m).give g d (w.residWord m x.toNat second)

/-- RESD.E0 (R337). -/
def execResdE0 (d a b : BitVec 5) (s : State) : Out := run s (coreInstr (.resdE0 d a b) (residEntry false d a b))

/-- RESD.E1 (R337). -/
def execResdE1 (d a b : BitVec 5) (s : State) : Out := run s (coreInstr (.resdE1 d a b) (residEntry true d a b))

/-- RESW: a hint in the tile's entry, a free one, or the one with the fewest bytes; 0 frees it (R333, R337). -/
def execResw (a b : BitVec 5) (s : State) : Out :=
  run s (coreInstr (.resw a b) fun g w => do
    w.needSuper g
    let x := w.g g a
    let v := w.g g b
    let m ← w.residAt g x true
    let id := fld x 47 32
    let t := (w.grove m).resid
    let k := match residOf t id with
      | some (k, _) => k
      | none => residSlot t
    let t1 := if v = 0 then Tbl.del t k else Tbl.put t k ⟨2, id, fld v 63 32, fld v 31 0⟩
    ((w.residAccess g m).setResid m t1).next g)

/-- Whether a registry entry keeps its layout (R332). -/
def tileOk (e : Word × Word) : Bool :=
  fld e.1 56 0 % 64 == 0 && decide (64 ≤ fld e.2 63 32) && fld e.2 63 32 % 64 == 0 && fld e.2 30 29 == 0 &&
    fld e.2 11 9 == 0 && decide (fld e.2 28 20 ≤ 319) && decide (fld e.2 8 0 ≤ 319)

/-- TILEREG (R338). -/
def execTilereg (d a b : BitVec 5) (s : State) : Out :=
  run s (coreInstr (.tilereg d a b) fun g w => do
    let x := w.g g a
    let id := fld x 15 0
    let old := w.tile id
    let user := !w.super g
    let mine : Word → Bool := fun e => !user || fld e 62 57 == (w.core g).asid
    need (fld x 63 17 = 0) 0x09
    if x.getLsbD 16 then
      if old.1.getLsbD 63 = false then w.give g d 1
      else
        need (mine old.1) 0x09
        ((w.residClear id).setTile (.core g) id (old.1 &&& 0x7FFFFFFFFFFFFFFF, old.2)).give g d 0
    else
      let va := (w.g g b).toNat
      needAt (va % 16 = 0) 0x03 va
      let (bs, w1) ← stopAt (w.vread (w.accCore g) va 16)
      let e : Word × Word := (bv 64 (leNat (bs.take 8)) ||| 0x8000000000000000, bv 64 (leNat (bs.drop 8)))
      need (tileOk e && mine e.1) 0x09
      if old.1.getLsbD 63 then w1.give g d 1
      else (w1.setTile (.core g) id e).give g d 0)

/-- The bytes of a tile that an L2 may hold: those in module memory that no mapping gives to a bank (R170, R179). -/
def Work.tileCached (w : Work) (id : Nat) : Nat :=
  ((w.tileParts id).filterMap fun p =>
    if p.1 / 2 ^ 45 = w.mod.modNo ∧ w.loc (p.1 % 2 ^ 45) < memTop then some p.2 else none).sum

/-- The lines of registered tiles that entered or left a grove's L2 slice: free amounts, since the spec does not say which
lines an L2 holds (R8, R334; log entry 23). -/
def l2Shift (g : Nat) : List Nat → Work → Work
  | [], w => w
  | id :: t, w =>
    let size := w.tileCached id
    if (w.tile id).1.getLsbD 63 ∧ 0 < size then
      let r := w.fresh
      let up : Int := (r.1.toNat % (2 * size + 1) : Nat) - (size : Int)
      l2Shift g t (r.2.setResid g (residChange (r.2.grove g).resid id size 0 up))
    else l2Shift g t w

/-- Whether the dispatchers must hear of a grove's residency table now: its first unheard change is half the bound of 256 cycles
old, so that the change arrives within it (R334). -/
def Work.residDue (w : Work) (g : Nat) : Bool := (w.grove g).resSince.any fun c => decide (c + 128 ≤ w.mod.cycle)

/-- RESIDENCY_NOTIFY: a grove's table, with what its L2 slice gained or lost, reaches the region's dispatchers (R334). -/
def execResidencyNotify (region grove : Nat) (s : State) : Out :=
  run s fun w =>
    if w.rno grove = region then
      let w1 := l2Shift grove w.tileIds w
      (w1.updGrove grove fun k => { k with resSince := none }).updRegion region fun x =>
        { x with resView := Tbl.put x.resView grove (w1.grove grove).resid }
    else w

end Sys2Proof.Machine
end

