-- ==== Sys2Proof/Machine/Launches.lean ====
section
/-! DEFINITION. Launches: issue, start, the initial records, dispatch, level ticks, the balancer and the end (spec 15 R317 to
R335; 01 R29 to R32). -/

namespace Sys2Proof.Machine

/-! ## Headers and stage tables (R29, R317 to R320) -/

/-- ITEMS of a launch. -/
def Launch.items (l : Launch) : Nat := l.fld 159 128
/-- ITEMVA. -/
def Launch.itemva (l : Launch) : Nat := l.fld 255 192
/-- STAGEVA. -/
def Launch.stageva (l : Launch) : Nat := l.fld 319 256
/-- NSTAGE as the header gives it. -/
def Launch.nst (l : Launch) : Nat := l.fld 327 320
/-- ENTRY. -/
def Launch.entry (l : Launch) : Nat := l.fld 367 352
/-- GROUPS. -/
def Launch.groups (l : Launch) : Nat := l.fld 447 416

/-- How many widths come before the first zero. -/
def widths (widw : Nat) : Nat → Nat
  | 0 => 0
  | n + 1 => if widths widw n = n ∧ widWidth widw n ≠ 0 then n + 1 else widths widw n

/-- Whether WID widths keep R29. -/
def widwOk (widw : Nat) : Bool :=
  widw / 2 ^ 36 == 0 && decide (widSum widw 6 ≤ 64) &&
    (List.range 6).all fun i => decide (i < widths widw 6) || widWidth widw i == 0

/-- Whether a header keeps R29, R317 and R320 for a region of `ngrove` groves that holds graph `gid`. -/
def Launch.headerOk (l : Launch) (gid ngrove : Nat) : Bool :=
  let z : Nat → Nat → Bool := fun hi lo => l.fld hi lo == 0
  l.fld 31 0 == gid && z 55 50 && z 59 59 && z 63 63 && widwOk l.widw &&
    decide (l.affl ≤ widths l.widw 6) && decide (l.tickl ≤ widths l.widw 6) &&
    decide (1 ≤ l.items) && z 191 160 && l.itemva % 64 == 0 && l.stageva % 256 == 0 &&
    decide (1 ≤ l.nst) && decide (l.nst ≤ 8) && z 351 328 && l.entry % 4 == 0 && (l.itemva == 0 || l.entry == 0) && z 383 368 &&
    z 391 387 && z 415 401 && (l.tickl != 0 || l.groups == 0) && (z 400 400 || decide (l.fld 399 392 < ngrove)) &&
    z 511 448 && z 575 512 && z 2047 576 &&
    (l.itemva != 0 || widSum l.widw 6 == 64 || decide (l.items ≤ 2 ^ widSum l.widw 6))

/-- A stage entry as its 32 bytes give it (R319). -/
def stageOfBytes (bs : List Byte) : StageEnt :=
  let f : Nat → Nat → Nat := fun off n => leNat ((bs.drop off).take n)
  ⟨f 0 2, f 2 1, f 3 1, f 4 2, f 8 8, f 16 8⟩

/-- Whether a stage entry keeps R319 in a table of `n` stages. -/
def stageOk (n : Nat) (bs : List Byte) : Bool :=
  let e := stageOfBytes bs
  decide (1 ≤ e.qcap) && decide (e.qcap ≤ 4096) && decide (e.ctx < 4) && decide (e.home < 4) && (e.ngrove != 0 || n == 1) &&
    leNat ((bs.drop 6).take 2) == 0 && e.qva % 64 == 0 && leNat ((bs.drop 24).take 8) == 0

/-- The translation of a page, whether or not a buffer holds it. -/
def Work.pageAt (w : Work) (g asid va : Nat) : Option Xlat :=
  (w.buffered g false asid va).orElse fun _ => (w.walk asid va).map Prod.fst

/-- Whether a stage's queue storage lies on near-die pages of the region's address space (R181, R319); which die a near-die page is
of no rule says (log entry 89). -/
def Work.ringNear (w : Work) (r : Nat) (e : StageEnt) : Bool :=
  let first := e.qva / 4096
  (List.range ((e.qva + 64 * e.qcap - 1) / 4096 + 1 - first)).all fun i =>
    (w.pageAt ((w.mgrove r 0).getD 0) (w.region r).rasid (4096 * (first + i))).any fun x => x.attr.getLsbD 9

/-- The entries of a stage table. -/
def tableEntries (n : Nat) (bs : List Byte) : List (List Byte) := (List.range n).map fun i => (bs.drop (32 * i)).take 32

/-- A launch read and checked for its issuer (R318, R327); `here` is the region that 0xFFFF stands for. -/
def Work.readLaunch (w : Work) (a : Acc) (here addr : Nat) : Except Stop (Nat × Launch × Work) := do
  needAt (addr % 256 = 0) 0x03 addr
  let (bs, w1) ← stopAt (w.vread a addr 256)
  let l : Launch := ⟨bv 2048 (leNat bs), addr, a.asid, !a.user, [], none⟩
  let rg := l.fld 47 32
  let r := if rg = 0xFFFF then here else rg
  need (!(a.user && r != here)) 0x09
  need (decide (r < 320) && (w1.region r).loaded) 0x05
  let ng := w1.ngrove r
  need (l.headerOk (w1.region r).gid.toNat ng) 0x05
  let (tb, w2) ← stopAt (w1.vread a l.stageva (32 * l.nst))
  let es := tableEntries l.nst tb
  let stages := (es.map stageOfBytes).map fun e => if e.ngrove = 0 then { e with ngrove := ng } else e
  need (es.all (stageOk l.nst) && (stages.map fun e => e.ngrove).sum == ng && stages.all (w2.ringNear r)) 0x05
  return (r, { l with stages := stages }, w2)

/-- A launch accepted: its signal numbers reserved and the launch queued; the final number is answered. `none` while the
queue or the signal's context has no room (R324, R327). -/
def Work.acceptLaunch (w : Work) (r : Nat) (l : Launch) : Option (Word × Work) :=
  if 8 ≤ (w.region r).launchQ.length then none
  else
    let put : Launch → Work → Work := fun x v => v.updRegion r fun y => { y with launchQ := y.launchQ ++ [x] }
    if l.fld 400 400 = 0 then some (0, put l w)
    else
      match w.mgrove r (l.fld 399 392) with
      | none => none
      | some m =>
        let k := l.fld 386 384
        let e := (w.grove m).engine k
        if 16 ≤ e.queue.length then none
        else
          let n := e.issued + l.groups + 1
          let o := { EngOp.new n 0xFD 0 0 l.sup 0 with moved := l.groups + 1 }
          some (bv 64 n, put { l with signal := some (m, k, n) }
            (w.updEngine m k fun x => { x with issued := n, queue := x.queue ++ [o] }))

/-- LAUNCH (R327). -/
def execLaunch (d a : BitVec 5) (s : State) : Out :=
  run s (coreInstr (.launch d a) fun g w => do
    let (r, l, w1) ← w.readLaunch (w.accCore g) (w.rno g) (w.g g a).toNat
    match w1.acceptLaunch r l with
    | none => .error .stall
    | some (v, w2) => w2.give g d v)

/-! ## Contexts of a stage's groves (R90, R319, R323, R331) -/

/-- The accesses that a region's dispatcher makes for a launch (R442). -/
def Work.accLaunch (w : Work) (r : Nat) (l : Launch) : Acc := ⟨(w.mgrove r 0).getD 0, .after 0, l.asid, !l.sup, some r, false, .other⟩

/-- The records of a whole-context image read for a stage, or the code and address that the read met. -/
def Work.stageRecords (w : Work) (a : Acc) (va : Nat) : Except Bad (List NRec × Work) := do
  let (hd, w1) ← w.vread a va 8
  let n := leNat hd
  if 1 ≤ n ∧ n ≤ 1024 then
    let (bs, w2) ← w1.vread a (va + 8) (12 * n)
    return (ctxRecords n bs, w2)
  else .error (0x05, va)

/-- A stage's context loaded into a cell; the fault code where the image is not accepted. -/
def Work.loadStage (w : Work) (ctx : Nat) (rs : List NRec) (mc : Nat) : Except Nat Work :=
  let c := w.cell mc
  match w.fillCtx mc ctx 0 rs (c.emptyCtx ctx) with
  | none => .error 0x05
  | some filled => .ok (w.setCell mc (c.acceptCtx filled ctx rs))

/-- A cell that holds no change of context that reads records. -/
def Cell.settled (c : Cell) : Bool :=
  c.reconf.isEmpty && (match c.nextCtx with
    | some k => k < 4
    | none => true)

/-- A cell told to make a context active; one that it has already stays (R90). -/
def Cell.turnTo (c : Cell) (ctx : Nat) : Cell :=
  match c.nextCtx with
  | some k => if 4 ≤ k then c else if ctx = c.active then { c with nextCtx := none } else { c with nextCtx := some ctx }
  | none => if ctx = c.active then c else { c with nextCtx := some ctx }

/-- The cells of a grove that changes its context. -/
def Work.turnCells (w : Work) (ctx : Nat) (mcs : List Nat) : Work := mcs.foldl (fun v mc => v.updCell mc fun c => c.turnTo ctx) w

/-- A stage's context loaded into the cells of a grove; an image that cannot be read or loaded changes nothing more, and its
fault is reported with no object (log entry 24). -/
def loadCells (ctx va g : Nat) (rs : List NRec) : List Nat → Work → Work
  | [], w => w
  | mc :: t, w =>
    match w.loadStage ctx rs mc with
    | .ok w1 => loadCells ctx va g rs t w1
    | .error c => w.post (w.rno g) { w.blank g c with cell := some (mc % 16), addr := bv 64 va }

/-- A grove put to a stage: its context loaded where the stage names an image, then made active (R323, R331). -/
def Work.toStage (w : Work) (r : Nat) (l : Launch) (st : StageEnt) (g : Nat) : Work :=
  let mcs := (w.cellsOf r).filter fun c => c / 16 == g
  let w1 :=
    if st.cfgva = 0 then w
    else
      match w.stageRecords (w.accLaunch r l) st.cfgva with
      | .error (c, va) => w.post r { w.blank g c with addr := bv 64 va }
      | .ok (rs, v) => loadCells st.ctx st.cfgva g rs mcs v
  let w2 := w1.turnCells st.ctx mcs
  if mcs.all fun c => (w2.cell c).nextCtx.isNone then w2
  else w2.updRegion r fun x => { x with running := x.running.map fun u => { u with changing := g :: u.changing.erase g } }

/-- Whether every cell of several groves can change its context now. -/
def Work.canTurn (w : Work) (r : Nat) (gs : List Nat) : Bool :=
  ((w.cellsOf r).filter fun c => gs.contains (c / 16)).all fun c => (w.cell c).settled

/-! ## Start, initial records, end (R323, R324) -/

/-- The stage that region grove index `i` is allotted to, by counts in order (R319). -/
def stageAt (i : Nat) : Nat → List StageEnt → Nat
  | s, [] => s
  | s, e :: t => if i < e.ngrove then s else stageAt (i - e.ngrove) (s + 1) t

/-- A launch as it starts. -/
def startRunning (l : Launch) (stages : Tbl Nat) : Running where
  launch := l
  pushed := 0
  live := 0
  ended := 0
  groups := []
  ticks := 0
  tickDue := 0
  queues := l.stages.map fun _ => ⟨[], 0, []⟩
  stageOf := stages
  changing := []
  moving := none
  lastStage := [7, 7, 7, 7]
  initial := []

/-- The module groves of a region with their indices. -/
def Work.indexed (w : Work) (r : Nat) : List (Nat × Nat) := (w.region r).table.groves.map fun e => (e.1, e.2.1)

/-- LAUNCH_START: the first launch in the queue starts; every grove goes to its stage (R319, R323). -/
def execLaunchStart (region : Nat) (s : State) : Out :=
  run s fun w =>
    let x := w.region region
    match x.launchQ, x.running with
    | l :: q, none =>
      if x.runs = false ∨ w.canTurn region (w.grovesOf region) = false then w
      else
        let gs := w.indexed region
        let stages := gs.foldl (fun t e => Tbl.put t e.2 (stageAt e.1 0 l.stages)) []
        let u := startRunning l stages
        let w1 := w.updRegion region fun y => { y with launchQ := q, running := some u }
        gs.foldl (fun v e => v.toStage region l (u.stage (Tbl.getD stages e.2 0)) e.2) w1
    | _, _ => w

/-- Initial record `i`: read where the header names records, else synthesised; or the code and address of a failed read
(R318, R320). -/
def Work.initialRec (w : Work) (r : Nat) (l : Launch) (i : Nat) : Except Bad (TRec × Work) :=
  if l.itemva = 0 then
    .ok (mkRec 0 (bv 64 i) 0 ((2 ^ 256 - 1) + l.entry * 2 ^ 256), w)
  else
    match w.vread (w.accLaunch r l) (l.itemva + 64 * i) 64 with
    | .ok (bs, w1) => .ok (bv 512 (leNat bs), w1)
    | .error (c, _) => .error (c, l.itemva + 64 * i)

/-- An initial record skipped: it counts as ended (R321). -/
def Work.skipRec (w : Work) (r : Nat) (f : FaultRec → FaultRec) : Work :=
  let w1 := w.updRegion r fun x =>
    { x with running := x.running.map fun u => { u with pushed := u.pushed + 1, ended := u.ended + 1 } }
  let g := (w.mgrove r 0).getD 0
  w1.post r (f (w1.blank g 0x09))

/-- INITIAL_PUSH: the next initial record goes into its stage's queue, or is skipped (R321, R323). -/
def execInitialPush (region : Nat) (s : State) : Out :=
  run s fun w =>
    match (w.region region).running with
    | none => w
    | some u =>
      let l := u.launch
      if (w.region region).runs = false ∨ l.items ≤ u.pushed then w
      else
        match w.initialRec region l u.pushed with
        | .error (c, va) => w.skipRec region fun f => { f with code := c, addr := bv 64 va }
        | .ok (x, w1) =>
          if l.recOk x = false then w1.skipRec region fun f => { f with aux := bv 64 u.pushed }
          else if u.room (trStage x) then
            let kept := if trKind x = 2 then [(x, u.pushed)] else []
            (w1.pushRec region x).updRegion region fun y =>
              { y with running := y.running.map fun v => { v with pushed := v.pushed + 1, initial := v.initial ++ kept } }
          else w

/-- A launch's signal entry changed, and the tasks that wait on its context woken. -/
def Work.signalled (w : Work) (l : Launch) (f : EngOp → EngOp) : Work :=
  match l.signal with
  | none => w
  | some (m, k, n) =>
    (w.updEngine m k fun e =>
      { e with queue := e.queue.map fun (o : EngOp) => if o.num = n ∧ o.op = 0xFD then f o else o }.ticked).wakeTimeline m k

/-- LEVEL_TICK: the next tick number completes for a level group that has ended; ticks past GROUPS are dropped (R324). -/
def execLevelTick (region : Nat) (s : State) : Out :=
  run s fun w =>
    match (w.region region).running with
    | none => w
    | some u =>
      if u.tickDue = 0 ∨ (w.region region).runs = false then w
      else
        let w1 := w.updRegion region fun y => { y with running := some { u with tickDue := u.tickDue - 1, ticks := u.ticks + 1 } }
        w1.signalled u.launch fun o => { o with sent := o.sent + 1 }

/-- LAUNCH_END: every initial record is pushed and every task has ended: STATUS is written, then the signal's numbers complete
(R323, R324), once the frontiers that the tasks moved have reached their copies (R278, R316; log entry 90). A STATUS that
cannot be written is left (log entry 25). -/
def execLaunchEnd (region : Nat) (s : State) : Out :=
  run s fun w =>
    match (w.region region).running with
    | none => w
    | some u =>
      let l := u.launch
      if (w.region region).runs = false ∨ u.pushed < l.items ∨ u.live ≠ 0 ∨ u.tickDue ≠ 0 ∨ w.frontiersStill region = false then w
      else
        let st := 2 ^ 63 + u.ended % 2 ^ 32
        let w1 := match w.vwrite (w.accLaunch region l) (l.addr + 64) (leBytes 8 st) with
          | .ok v => v
          | .error _ => w
        let w2 := w1.updRegion region fun y => { y with running := none }
        w2.signalled l fun o => { o with running := true, fires := 1 }

/-! ## Dispatch (R326, R329, R335) -/

/-- The level-TICKL group of a record. -/
def Running.groupOf (u : Running) (x : TRec) : Nat := widPrefix u.launch.widw u.launch.tickl (trWid x).toNat

/-- A free scope-15 slot. -/
def Running.freeSlot (u : Running) : Option Nat :=
  ((List.range 63).map fun i => i + 1).find? fun k => (Tbl.find u.groups k).isNone

/-- Whether a record must wait for a slot of its group (R326). -/
def Running.groupWaits (u : Running) (x : TRec) : Bool :=
  u.launch.tickl != 0 && (groupSlot (u.groupOf x) u.groups).isNone && u.freeSlot.isNone

/-- The groves that may take a stage's record, in region order (R335). -/
def Work.candidates (w : Work) (r : Nat) (u : Running) (s : Nat) : List Nat :=
  (w.grovesOf r).filter fun g =>
    Tbl.find u.stageOf g == some s && !u.changing.contains g && decide ((w.core g).runQ.length < 16)

/-- A record's score at a grove, by the dispatchers' view (R335). -/
def placeScore (view : Tbl (Tbl Resid)) (x : TRec) (g : Nat) : Nat :=
  let ids := (((List.range 8).map fun i => trTile x i).filter fun i => i != 0xFFFFFFFF).eraseDups
  (ids.map fun id => match residOf (Tbl.getD view g []) id with
    | some (_, e) => 2 * e.bankb + e.l2b
    | none => 0).sum

/-- The affinity prefix of a record. -/
def Running.prefixOf (u : Running) (x : TRec) : Nat := widPrefix u.launch.widw u.launch.affl (trWid x).toNat

/-- The affinity grove of a record in its stage (R335). -/
def Running.affinityOf (u : Running) (s : Nat) (x : TRec) : Option Nat :=
  if u.launch.affl = 0 then none
  else ((u.queue s).affinity.find? fun e => e.1 == u.prefixOf x).map Prod.snd

/-- The affinity table after a grove takes a record: the latest prefix last, at most 64. -/
def Running.remember (u : Running) (x : TRec) (g : Nat) (t : List (Nat × Nat)) : List (Nat × Nat) :=
  if u.launch.affl = 0 then t
  else
    let rest := t.filter fun e => e.1 != u.prefixOf x
    (if 64 ≤ rest.length then rest.tail else rest) ++ [(u.prefixOf x, g)]

/-- The grove chosen among candidates (R335). -/
def Work.choosePlace (w : Work) (r : Nat) (u : Running) (s : Nat) (x : TRec) : Option Nat :=
  let view := (w.region r).resView
  let cand := w.candidates r u s
  let best := (cand.map (placeScore view x)).foldl max 0
  let top := cand.filter fun g => placeScore view x g == best
  let len : Nat → Nat := fun g => (w.core g).runQ.length
  match top with
  | [] => none
  | g :: t =>
    let least := (t.map len).foldl min (len g)
    let few := top.filter fun g => len g == least
    match u.affinityOf s x with
    | some a => if few.contains a then some a else few.head?
    | none => few.head?

/-- The token of a KIND 1 record, which holds its task's count until it enters its cell (R322). -/
def Work.startToken (w : Work) (r g slot : Nat) (u : Running) (x : TRec) : Work :=
  let e := trEpt x
  let lc := w.logical (16 * g + e / 4096)
  let dest := bv 24 (lc + e % 1024 * 2 ^ 12 + e / 1024 % 4 * 2 ^ 22)
  let t := mkTok dest (trColour x) (trIter x) 0 u.launch.prio [bv 64 (trArg0 x), bv 64 (trArg1 x)]
  w.sendTok r g 0 w.mod.maxTime { t with item := some (15, slot) }

/-- The running launch as the head record of a stage leaves its queue for a grove: its group opens where it holds no slot,
counting every queued record of the group (R326; log entry 16). -/
def Running.leave (u : Running) (die s g : Nat) (x : TRec) : Running :=
  let q := u.queue s
  let grp := u.groupOf x
  let n := ((u.queues.map fun k => k.recs).flatten.filter fun y => u.groupOf y == grp).length
  let groups :=
    if u.launch.tickl = 0 then u.groups
    else
      match groupSlot grp u.groups, u.freeSlot with
      | none, some k => Tbl.put u.groups k (grp, n)
      | _, _ => u.groups
  { u with
    groups := groups
    lastStage := setAt u.lastStage die s
    queues := setAt u.queues s { q with recs := q.recs.tail, affinity := u.remember x g q.affinity } }

/-- The stages a die's dispatcher holds, in the order it visits them (R335). -/
def Running.visit (u : Running) (die : Nat) : List Nat :=
  let last := u.lastStage.getD die 7
  ((List.range 8).map fun i => (last + 1 + i) % 8).filter fun s => decide (s < u.launch.nstage) && (u.stage s).home == die

/-- The record, stage and grove of the dispatcher's next step, if some stage's head need not wait. -/
def Work.nextPlace (w : Work) (r die : Nat) (u : Running) : Option (Nat × TRec × Nat) :=
  (u.visit die).findSome? fun s =>
    match (u.queue s).recs with
    | x :: _ => if u.groupWaits x then none else (w.choosePlace r u s x).map fun g => (s, x, g)
    | [] => none

/-- DISPATCH: the next head record that need not wait goes to the grove chosen for it (R322, R329, R335). -/
def execDispatch (region die : Nat) (s : State) : Out :=
  run s fun w =>
    match (w.region region).running with
    | none => w
    | some u =>
      if (w.region region).runs = false then w
      else
        match w.nextPlace region die u with
        | none => w
        | some (st, x, g) =>
          let u1 := u.leave die st g x
          let w1 := ((w.ringRead region u st).updRegion region fun y => { y with running := some u1 }).wakeKind region 3 fun q =>
            q.wobj == st
          if trKind x = 1 then w1.startToken region g (u1.slotOf (trWid x)) u1 x
          else w1.updCore g fun c => { c with runQ := c.runQ ++ [x] }

/-! ## The balancer (R32, R331) -/

/-- Whether the occupancy ratio of stage `a` is less than that of stage `b`. -/
def Running.lessFull (u : Running) (a b : Nat) : Bool :=
  decide ((u.queue a).recs.length * (u.stage b).qcap < (u.queue b).recs.length * (u.stage a).qcap)

/-- The first stage of a list that none of the list beats. -/
def firstBy (better : Nat → Nat → Bool) : List Nat → Option Nat
  | [] => none
  | s :: t =>
    match firstBy better t with
    | none => some s
    | some k => if better k s then some k else some s

/-- The groves allotted to a stage. -/
def Work.ofStage (w : Work) (r : Nat) (u : Running) (s : Nat) : List Nat :=
  (w.grovesOf r).filter fun g => Tbl.find u.stageOf g == some s

/-- The move of a balance interval: the grove, and its old and new stage (R331). -/
def Work.balanceMove (w : Work) (r : Nat) (u : Running) : Option (Nat × Nat × Nat) :=
  let all := List.range u.launch.nstage
  match firstBy u.lessFull (all.filter fun s => 2 ≤ (w.ofStage r u s).length), firstBy (fun a b => u.lessFull b a) all with
  | some lo, some hi =>
    let h := (u.queue hi).recs.length * (u.stage lo).qcap
    let l := (u.queue lo).recs.length * (u.stage hi).qcap
    if lo = hi ∨ 256 * (h - l) ≤ (w.region r).thr * ((u.stage lo).qcap * (u.stage hi).qcap) then none
    else
      let len : Nat → Nat := fun g => (w.core g).runQ.length
      (firstBy (fun a b => decide (len a < len b)) (w.ofStage r u lo).reverse).map fun g => (g, lo, hi)
  | _, _ => none

/-- A grove moved from a stage to another: its records go back to the front of their queue and its ring (R328, R331). -/
def Work.moveGrove (w : Work) (r : Nat) (u : Running) (g lo hi : Nat) : Work :=
  let q := u.queue lo
  let u1 := { u with
    queues := setAt u.queues lo { q with recs := (w.core g).runQ ++ q.recs }
    stageOf := Tbl.put u.stageOf g hi
    moving := some g }
  let back := (w.core g).runQ
  let n := back.length
  let head := q.tail + q.recs.length * ((u.stage lo).qcap - 1)
  let w0 := (List.zip (List.range n) back).foldl (fun v e =>
    v.ringStore r u lo (head + (n - e.1) * ((u.stage lo).qcap - 1)) e.2) w
  let w1 := (w0.updCore g fun c => { c with runQ := [] }).updRegion r fun y => { y with running := some u1 }
  w1.toStage r u.launch (u.stage hi) g

/-- Whether a balance interval has ended (R330). -/
def Region.balanceDue (x : Region) (now : Nat) : Bool := x.bint != 0 && decide (x.lastBalance + x.bint ≤ now)

/-- BALANCE_INTERVAL: at the end of an interval one grove may move, unless a move is incomplete; THR and BINT as written
hold from then on (R330, R331). -/
def execBalanceInterval (region : Nat) (s : State) : Out :=
  run s fun w =>
    let x := w.region region
    if x.runs = false ∨ x.balanceDue w.mod.cycle = false then w
    else
      let done := w.updRegion region fun y =>
        { y with lastBalance := w.mod.cycle, thr := (y.balNext.getD (y.thr, y.bint)).1,
                 bint := (y.balNext.getD (y.thr, y.bint)).2, balNext := none }
      match x.running with
      | none => done
      | some u =>
        if u.moving.any fun g => u.changing.contains g then done
        else
          match w.balanceMove region u with
          | none => done
          | some (g, lo, hi) => if w.canTurn region [g] then done.moveGrove region u g lo hi else w

end Sys2Proof.Machine
end

