-- ==== Sys2Proof/Machine/Glades.lean ====
section
/-! DEFINITION. Glades, arrival barriers, reservations and the bytes that arrive in slots (spec 18; 19 R377). -/

namespace Sys2Proof.Machine

/-! ## Slots, phases and barriers (R366 to R368) -/

/-- How far a phase lies ahead of a barrier's base phase (R368). -/
def Barrier.dist (b : Barrier) (q : Nat) : Nat := (q + 65536 - b.ph) % 65536

/-- The phase word of a phase's parity. -/
def Barrier.word (b : Barrier) (q : Nat) : Phase := if q % 2 = 0 then b.even else b.odd

/-- A barrier with the phase word of a phase's parity set. -/
def Barrier.setWord (b : Barrier) (q : Nat) (x : Phase) : Barrier := if q % 2 = 0 then { b with even := x } else { b with odd := x }

/-- A grove's barrier set, and the tasks that wait at it looked at again (R150, R372). -/
def Work.setBarrier (w : Work) (g n : Nat) (b : Barrier) : Work :=
  (w.updGrove g fun x => { x with barriers := Tbl.put x.barriers n b }).wakeKind (w.rno g) 8 fun x => x.wobj % 16 == n

/-- A grove's glade set. -/
def Work.setGlade (w : Work) (g z : Nat) (x : Glade) : Work := w.updGrove g fun k => { k with glades := Tbl.put k.glades z x }

/-- A free slot (R366). -/
def GSlot.free : GSlot := ⟨0, 0, false, 0, 0, 0, none, 0, 0, false⟩

/-- A slot with a sign of life of its sender: the detection bound begins anew, as it stands now (R347, R373). -/
def GSlot.alive (s : GSlot) (m : Mod) : GSlot := { s with seen := m.cycle, bound := m.ldet }

/-- Whether a barrier's glades have a slot of a phase in one of several states. -/
def Grove.anySlot (k : Grove) (b q : Nat) (sts : List Nat) : Bool :=
  k.glades.any fun e => e.2.ab == b && e.2.slots.any fun s => s.phase == q && sts.contains s.st

/-- The slots of a phase of a barrier's glades moved from some states to another (R368). -/
def Grove.moveSlots (k : Grove) (b q : Nat) (frm : List Nat) (dst : Nat) : Grove :=
  { k with glades := k.glades.map fun e =>
      if e.2.ab = b then
        (e.1, { e.2 with slots := e.2.slots.map fun s =>
          if s.phase = q ∧ frm.contains s.st = true then (if dst = 0 then GSlot.free else { s with st := dst }) else s })
      else e }

/-! ## Reservations (R369, R370) -/

/-- What names a glade as the sender of a word: its designator, past every register number (R155, R370). -/
def gladeSender (r : Reservation) : Nat := 2 ^ 32 + r.target + r.grove * 2 ^ 11 + r.glade * 2 ^ 20

/-- A word returned as a reservation's response: here to a core of this module, with the slots it gives, or to its module
(R369, R373). -/
def Work.grant (w : Work) (r : Reservation) (x : Nat) : Work :=
  if r.source = w.mod.modNo then
    (w.noteGrant r.srcGrove w.mod.modNo (r.grove * 2 ^ 11 + r.glade * 2 ^ 20) r.phase x none).deliverOrHold r.srcGrove r.chan (bv 64 x) (r.srcGrove, gladeSender r)
  else w.respond r.source r.ident (.answer (leBytes 8 x))

/-- Whether a reservation is refused at once (R369). -/
def Work.refuses (w : Work) (r : Reservation) : Bool :=
  let k := w.grove r.grove
  match Tbl.find k.glades r.glade with
  | none => true
  | some z =>
    !(z.senders.any fun p => p.1 ≤ r.source && r.source ≤ p.2) || decide (z.slots.length < r.count) ||
      decide (32768 ≤ (k.barrier z.ab).dist r.phase)

/-- The request slot of a reservation returned (R348, R370). -/
def Work.creditFor (w : Work) (r : Reservation) : Work :=
  if r.source = w.mod.modNo then w else w.respond r.source r.ident .credit

/-- A reservation at its grove: refused, queued, or not accepted yet while the queue is full or its region frozen (R369,
R374). -/
def Work.reserveArrive (w : Work) (r : Reservation) : Work :=
  let reg := w.regOf r.grove
  if reg.halted ∨ reg.freezing.isSome then { w with inputs := w.inputs ++ [.reservationArrival r] }
  else if w.refuses r then (w.creditFor r).grant r 0
  else if 256 ≤ (w.grove r.grove).gq.length then { w with inputs := w.inputs ++ [.reservationArrival r] }
  else (w.creditFor r).updGrove r.grove fun k => { k with gq := k.gq ++ [r] }

/-- RESERVATION_ARRIVAL (R369). -/
def execReservationArrival (r : Reservation) (s : State) : Out := run s fun w => w.reserveArrive r

/-- The lowest free slots of a glade, `n` of them if there are as many. -/
def Glade.freeSlots (z : Glade) (n : Nat) : Option (List Nat) :=
  let free := (List.range z.slots.length).filter fun k => match z.slots[k]? with
    | some s => s.st == 0
    | none => false
  if n ≤ free.length then some (free.take n) else none

/-- RESERVATION_GRANT: the oldest reservation of a glade granted, its phase open and its slots free (R368, R369). -/
def execReservationGrant (grove glade : Nat) (s : State) : Out :=
  run s fun w =>
    let k := w.grove grove
    match k.gq.find? fun r => r.glade == glade, Tbl.find k.glades glade with
    | some r, some z =>
      let reg := w.regOf grove
      if reg.halted ∨ reg.freezing.isSome ∨ 1 < (k.barrier z.ab).dist r.phase then w
      else
        match z.freeSlots r.count with
        | none => w
        | some ks =>
          let way := if r.source = w.mod.modNo then none else w.route r.source
          let slots := ks.foldl (fun l i => setAt l i (GSlot.alive ⟨1, r.source, false, r.phase, 0, 0, way, 0, 0, false⟩ w.mod)) z.slots
          ((w.setGlade grove glade { z with slots := slots }).updGrove grove fun x => { x with gq := x.gq.erase r }).grant r
            ((ks.map fun i => 2 ^ i).sum)
    | _, _ => w

/-- GRSV's request sent: over the rings, or on the core's stream; lost at once where no route leads (R351, R370). `none`: it
waits for a pair. -/
def Work.reserve (w : Work) (g : Nat) (a b : Word) : Option Work :=
  let m := fld a 10 0
  let r : Reservation :=
    { target := m, source := w.mod.modNo, srcGrove := g, chan := fld b 29 24, grove := fld a 19 11, glade := fld a 22 20,
      phase := fld b 15 0, count := fld b 22 16, ident := w.mod.nextIdent }
  if m = w.mod.modNo then some { w with inputs := w.inputs ++ [.reservationArrival r] }
  else
    match w.pair false g m with
    | .wait => none
    | .lost => some ((w.markLost g m).deliverOrHold g r.chan 0 (g, gladeSender r))
    | .free s =>
      some (w.sendReq s { OutReq.blank with op := 6, addr := fld a 22 0, size := r.phase, dest := some r.chan }
        { w.coreReq g 6 (fld a 22 0) r.count [] with target := m, entry := r.chan, type := r.phase })

/-- GRSV (R370). -/
def execGrsv (d a b : BitVec 5) (s : State) : Out :=
  run s (coreInstr (.grsv d a b) fun g w => do
    let x := w.g g a
    let y := w.g g b
    need (fld x 63 23 = 0 && fld x 19 11 ≤ 319 && fld y 63 30 = 0 && fld y 23 23 = 0 && 1 ≤ fld y 22 16 && fld y 22 16 ≤ 64) 0x09
    let ch := fld y 29 24
    match w.reserve g x y with
    | none => w.awaitPair g (fld x 10 0)
    | some w1 =>
      match (w1.core g).chan ch with
      | v :: t => ((w1.updCore g fun k => k.setChan ch t).acquire g).give g d v
      | [] => w1.suspend g 1 ch none d (w1.core g).pc4 false)

/-! ## Packets (R371, R373, R377, R430) -/

/-- A packet's acknowledgement, or its refusal, returned to its sender (R371, R377). -/
def Work.ackPacket (w : Work) (p : GladePacket) (k : RespKind) : Work :=
  if p.source = w.mod.modNo then w.respondedTo ⟨w.mod.modNo, p.ident, k⟩ else w.respond p.source p.ident k

/-- Whether a slot takes a packet: it is the first of a GSEND that suits the slot, or another of the GSEND that fills it; or
the code it is refused with. A later packet at a slot that is only reserved is one of a GSEND whose slot was torn, freed and reserved
again, and is refused as at a torn slot (R371, R373; log entry 102). -/
def GSlot.takes (s : GSlot) (p : GladePacket) (slotsz : Nat) : Except Nat Unit :=
  if s.st = 5 ∧ s.sender = p.source ∧ s.phase = p.phase then .error 0x19
  else if s.sender ≠ p.source ∨ s.phase ≠ p.phase ∨ slotsz < p.offset + p.total then .error 0x09
  else if s.st = 1 then (if p.position = 0 then .ok () else .error 0x19)
  else if s.st = 2 ∧ (s.feed = 0 ∨ s.feed = p.feed) then .ok ()
  else .error 0x09

/-- An arrival counted in its phase word, or noted as uncounted with its fault record (R371). -/
def Work.countArrival (w : Work) (g ab q n : Nat) : Work :=
  let b := (w.grove g).barrier ab
  let x := b.word q
  if x.pend - n < -140737488355327 then
    (w.setBarrier g ab (b.setWord q { x with ovf := true })).post (w.rno g) (w.blank g 0x18)
  else w.setBarrier g ab (b.setWord q { x with pend := x.pend - n })

/-- Whether a packet reaches the glade units: one on a lane group needs the bound receive entry of that group, and no NLRX
that names it (R371; log entry 91). -/
def Work.packetIn (w : Work) (p : GladePacket) : Bool :=
  p.via.all fun v => w.regions.any fun r => r.2.plans.any fun x =>
    x.bound && x.entry.port == v.1 && x.entry.group == v.2 && x.entry.role == 1 && x.user.isNone

/-- A glade that refuses a packet refuses every later one of its GSEND, until the last has come (R371). -/
def Glade.refuse (z : Glade) (p : GladePacket) : Glade :=
  let me := (p.source, p.feed)
  let rest := z.refused.filter fun x => x != me
  { z with refused := if p.position + p.bytes.length < p.total then rest ++ [me] else rest }

/-- A grove's glade unit as the agent that writes what arrives (R191, R371; log entry 13). -/
def gladeWho (g : Nat) : Who := .agent (16 * g) 6 0

/-- A packet that a slot takes: written at the bank ports, put to the residency table, counted, acknowledged (R371, R377, R430). -/
def Work.packetLands (w : Work) (p : GladePacket) (z : Glade) (sl : GSlot) (h : Handle) : Work :=
  let at_ := groveBase p.grove + h.base + p.slot * h.slotsz + p.offset + p.position
  let got := sl.got + p.bytes.length
  let s1 := GSlot.alive { sl with st := if p.total ≤ got then 3 else 2, feed := p.feed, got := got } w.mod
  let w1 := ((w.store at_ p.bytes).homeAccess (gladeWho p.grove) at_).residArrive p.grove at_ p.bytes.length
  ((w1.countArrival p.grove z.ab p.phase p.bytes.length).setGlade p.grove p.glade
    { z with slots := setAt z.slots p.slot s1 }).ackPacket p (.answer [])

/-- A packet at its slot: taken, or refused; at a grove whose region's image is read out it waits for the thaw, neither counted nor
acknowledged (R371, R374; log entry 98). -/
def Work.packetArrive (w : Work) (p : GladePacket) : Work :=
  let k := w.grove p.grove
  if w.packetIn p = false then w
  else if (w.regOf p.grove).halted then { w with inputs := w.inputs ++ [.gladePacketArrival p] }
  else
    match Tbl.find k.glades p.glade with
    | none => w.ackPacket p (.faulted 0x09)
    | some z =>
      let refuse : Nat → Work := fun c => (w.setGlade p.grove p.glade (z.refuse p)).ackPacket p (.faulted c)
      match z.slots[p.slot]? with
      | none => refuse 0x09
      | some sl =>
        match if z.refused.contains (p.source, p.feed) then .error 0x09 else sl.takes p (k.handle z.handle).slotsz with
        | .error c => refuse c
        | .ok () => w.packetLands p z sl (k.handle z.handle)

/-- GLADE_PACKET_ARRIVAL (R371). -/
def execGladePacketArrival (p : GladePacket) (s : State) : Out := run s fun w => w.packetArrive p

/-! ## Keep-alives, revocation and holds (R373, R374) -/

/-- A message on its way to a module; one for this module comes in by itself. -/
def Work.sendTo (w : Work) (m : Nat) (x : Msg) : Work :=
  if m = w.mod.modNo then { w with inputs := w.inputs ++ [.messageForward m 0 x] }
  else w.sendRouted m x

/-- A slot changed. -/
def Work.updSlot (w : Work) (g z k : Nat) (f : GSlot → GSlot) : Work :=
  w.updGrove g fun x => { x with glades := x.glades.map fun e =>
    if e.1 = z then
      (e.1, { e.2 with slots := match e.2.slots[k]? with
        | some s => setAt e.2.slots k (f s)
        | none => e.2.slots })
    else e }

/-- A slot of a grove's glade. -/
def Work.gslot (w : Work) (g z k : Nat) : GSlot :=
  match Tbl.find (w.grove g).glades z with
  | some x => x.slots.getD k GSlot.free
  | none => GSlot.free

/-- A keep-alive at its slot's grove (R373). -/
def Work.keptAlive (w : Work) (source g z k : Nat) : Work :=
  w.updSlot g z k fun s => if s.sender = source ∧ (s.st = 1 ∨ s.st = 2) then s.alive w.mod else s

/-- Whether a freeze of either side holds a reservation (R374). -/
def Sent.isHeld (x : Sent) : Bool := x.held || x.away

/-- A keep-alive on the route of its reservation's grant; with that link lost it is lost (R346, R373). -/
def Work.keepAlive (w : Work) (x : Sent) (m : Msg) : Work :=
  match x.port with
  | none => w.sendTo x.module m
  | some p => if (w.port p).up then w.sendBy m p 0 else w

/-- GLADE_KEEPALIVE: a grove's glade unit sends the keep-alives of the reservations it made of a slot and does not hold (R373). -/
def execGladeKeepalive (grove glade slot : Nat) (s : State) : Out :=
  run s fun w =>
    let mine : Sent → Bool := fun x => x.glade == glade && x.slot == slot && !x.isHeld
    let w1 := ((w.grove grove).sent.filter mine).foldl (fun v x =>
      v.keepAlive x (.keepAlive x.module w.mod.modNo x.grove glade slot)) w
    w1.updGrove grove fun k =>
      { k with sent := k.sent.map fun x => if mine x then { x with last := w.mod.cycle } else x }

/-- A reservation revoked: the slot torn, LOST set, its sender's queued reservations for the grove dropped (R373). -/
def Work.revoke (w : Work) (g z k : Nat) : Work :=
  match Tbl.find (w.grove g).glades z with
  | none => w
  | some x =>
    let sl := w.gslot g z k
    if sl.st ≠ 1 ∧ sl.st ≠ 2 then w
    else
      let b := (w.grove g).barrier x.ab
      let w1 := (w.updSlot g z k fun s => { s with st := 5 }).updGrove g fun y =>
        { y with gq := y.gq.filter fun r => r.source != sl.sender }
      w1.setBarrier g x.ab (b.setWord sl.phase { b.word sl.phase with lost := true })

/-- GLADE_REVOCATION: silence for the detection bound revokes a reservation that is not held (R373, R374). -/
def execGladeRevocation (grove glade slot : Nat) (s : State) : Out :=
  run s fun w =>
    let sl := w.gslot grove glade slot
    if (sl.st = 1 ∨ sl.st = 2) ∧ sl.isHeld = false ∧ sl.seen + sl.bound ≤ w.mod.cycle then w.revoke grove glade slot else w

/-- Reservations made of a slot of a module's grove held at their sender (R374). -/
def Work.holdSent (w : Work) (m g z k : Nat) (held : Bool) : Work :=
  (Tbl.keys w.groves).foldl (fun v n => v.updGrove n fun x =>
    { x with sent := x.sent.map fun y =>
        if y.module = m ∧ y.grove = g ∧ y.glade = z ∧ y.slot = k then { y with held := held } else y }) w

/-- A hold: at the sender it stops the GSEND, at the receiver it marks the slot (R374). -/
def Work.holdGlade (w : Work) (sending : Bool) (m g z k : Nat) : Work :=
  if sending then w.holdSent m g z k true
  else w.updSlot g z k fun s => if s.sender = m ∧ (s.st = 1 ∨ s.st = 2) then { s with away := true } else s

/-- GLADE_HOLD (R374). -/
def execGladeHold (sending : Bool) (module grove glade slot : Nat) (s : State) : Out :=
  run s fun w => w.holdGlade sending module grove glade slot

/-- A GSEND's descriptor with the module and grove of its slot changed (R371, R374). -/
def redirect (d : BitVec 512) (m g : Nat) : BitVec 512 :=
  let keep := d.toNat - (gsModule d + gsGrove d * 2 ^ 11) * 2 ^ 64
  bv 512 (keep + (m + g * 2 ^ 11) * 2 ^ 64)

/-- Where the packet before a place of a GSEND began: packets are of 112 bytes, but for the last of a run (R371). -/
def packetBack (run moved : Nat) : Nat :=
  let off := if moved % run = 0 then run else moved % run
  moved - (if off % 112 = 0 then 112 else off % 112)

/-- A GSEND that goes on towards another module begins at its first byte not acknowledged: what was still under way did not reach
the image (R374; log entry 98). -/
def EngOp.reset (o : EngOp) : EngOp :=
  { o with moved := o.acks.foldl (fun m _ => packetBack (deRun o.desc) m) o.moved, acks := [], got := [] }

/-- A resume: the sender goes on towards the module and grove where the receiver is now; the receiver goes on with its
sender's new module, each over the route that leads there now (R374). -/
def Work.resumeGlade (w : Work) (sending : Bool) (m g z k nm ng : Nat) : Work :=
  if sending then
    let mine : Sent → Bool := fun y => y.module == m && y.grove == g && y.glade == z && y.slot == k
    let op : EngOp → EngOp := fun o =>
      if o.op = 10 ∧ gsModule o.desc = m ∧ gsGrove o.desc = g ∧ gsGlade o.desc = z ∧ gsSlot o.desc = k then
        { (if nm = m then o else o.reset) with desc := redirect o.desc nm ng, port := none } else o
    if w.groves.any fun e => e.2.sent.any mine then
      (Tbl.keys w.groves).foldl (fun v n =>
        v.updGrove n fun x =>
          { x with
            sent := x.sent.map fun y =>
              if mine y then { y with module := nm, grove := ng, held := false, port := if nm = w.mod.modNo then none else w.route nm }
              else y
            engines := x.engines.map fun e => (e.1, { e.2 with queue := e.2.queue.map op }) }) w
    else w
  else
    w.updSlot g z k fun s =>
      if s.sender = m ∧ (s.st = 1 ∨ s.st = 2) then
        GSlot.alive { s with sender := nm, away := false, port := if nm = w.mod.modNo then none else w.route nm, feed := 0 } w.mod
      else s

/-- GLADE_RESUME (R374). -/
def execGladeResume (sending : Bool) (module grove glade slot newModule newGrove : Nat) (s : State) : Out :=
  run s fun w => w.resumeGlade sending module grove glade slot newModule newGrove

/-! ## Posting, waiting and clearing (R372) -/

/-- The grove, barrier and phase that a designator names, or Permission. -/
def Work.barrierAt (w : Work) (g : Nat) (x : Word) : Except Stop (Nat × Nat × Nat) := do
  let other := x.getLsbD 16
  need (fld x 63 48 = 0 && fld x 31 17 = 0 && fld x 7 4 = 0 && (other || fld x 15 8 = 0)) 0x09
  let mg ← if other then
      match w.mgrove (w.rno g) (fld x 15 8) with
      | some m => if fld x 15 8 < w.ngrove (w.rno g) then Except.ok m else .error (flt 0x09)
      | none => .error (flt 0x09)
    else Except.ok g
  need (((w.grove mg).barrier (fld x 3 0)).dist (fld x 47 32) ≤ 1) 0x09
  return (mg, fld x 3 0, fld x 47 32)

/-- ABPOST (R372). -/
def execAbpost (d a b : BitVec 5) (s : State) : Out :=
  run s (coreInstr (.abpost d a b) fun g w => do
    let (mg, n, q) ← w.barrierAt g (w.g g a)
    let ab := (w.grove mg).barrier n
    let v := (w.g g b).toNat
    need (v ≤ 140737488355327) 0x09
    let x := (ab.word q).pend + v
    need (x ≤ 140737488355327) 0x18
    (w.setBarrier mg n (ab.setWord q { ab.word q with pend := x, posted := true })).give g d (bv 64 (wrap 64 x)))

/-- ABWAIT; its completion is an acquire (R199, R372). -/
def execAbwait (d a : BitVec 5) (s : State) : Out :=
  run s (coreInstr (.abwait d a) fun g w => do
    let (mg, n, q) ← w.barrierAt g (w.g g a)
    let x := ((w.grove mg).barrier n).word q
    if x.lost || x.ovf || (x.posted && x.pend = 0) then
      ((w.acquire g).updGrove mg fun k => k.moveSlots n q [3] 4).give g d (bv 64 (bit x.lost 63 + bit x.ovf 62 + q))
    else w.suspend g 8 (fld (w.g g a) 15 0) none 0 (w.core g).pc false)

/-- GCLR: a phase cleared after a loss (R372). -/
def execGclr (d a : BitVec 5) (s : State) : Out :=
  run s (coreInstr (.gclr d a) fun g w => do
    let (mg, n, q) ← w.barrierAt g (w.g g a)
    let k := w.grove mg
    let b := k.barrier n
    if (!(b.word q).lost && !(b.word q).ovf) || k.anySlot n q [1, 2] then w.give g d 1
    else ((w.updGrove mg fun y => y.moveSlots n q [5] 0).setBarrier mg n (b.setWord q Phase.reset)).give g d 0)

/-- GCLR.DONE: a phase retired (R372). -/
def execGclrDone (d a : BitVec 5) (s : State) : Out :=
  run s (coreInstr (.gclrDone d a) fun g w => do
    let (mg, n, q) ← w.barrierAt g (w.g g a)
    let k := w.grove mg
    let b := k.barrier n
    let x := b.word q
    if q ≠ b.ph || !(x.posted && x.pend = 0) || x.lost || x.ovf || k.anySlot n q [1, 2, 5] then w.give g d 1
    else
      ((w.updGrove mg fun y => y.moveSlots n q [3, 4] 0).setBarrier mg n
        { b.setWord q Phase.reset with ph := (b.ph + 1) % 65536 }).give g d 0)

end Sys2Proof.Machine
end

