-- ==== Sys2Proof/Machine/Links.lean ====
section
/-! DEFINITION. Tralek ports, bound lane groups, lost links and modules, and the messages that come in or pass through
(spec 16 R340 to R346, R351, R357 to R359). -/

namespace Sys2Proof.Machine

/-! ## Ports and link plans (R340, R342) -/

/-- A port set. -/
def Work.setPort (w : Work) (p : Nat) (x : Port) : Work := w.updMod fun m => { m with ports := Tbl.put m.ports p x }

/-- A bind message of a peer noted, and what it completes bound (R342). -/
def Work.noteBind (w : Work) (port group role : Nat) (ptag : BitVec 32) : Work :=
  ((w.groupHeld port group fun p => if p.held then { p with bound := false } else p).updMod fun m =>
    { m with binds := (m.binds.filter fun b => !(b.1 == port && b.2.1 == group && b.2.2.1 == role)) ++
        [(port, group, role, ptag)] }).bindPlans

/-- LINK_PLAN_BIND: the peer's bind message for a group (R342). -/
def execLinkPlanBind (port group role peer : Nat) (ptag : BitVec 32) (s : State) : Out :=
  run s fun w => if (w.port port).up ∧ (w.port port).peer = peer then w.noteBind port group role ptag else w

/-- LINK_UP: link training ends: the peer's number and the pool it grants, and this module's grant to the peer, its own POOL
as it stands (R340, R347); ports stay down after a failed boot (R426). -/
def execLinkUp (port peer pool : Nat) (s : State) : Out :=
  run s fun w =>
    if port < 24 ∧ (w.port port).up = false ∧ w.mod.bootErr = false then
      let own := w.mod.remcfg.2.1
      ((w.setPort port { w.port port with up := true, peer := peer, grant := pool, given := own }).sendOut (.grant port own)).bindPlans
    else w

/-- LINK_FLIT_RETRY: a flit retried (R340). -/
def execLinkFlitRetry (port : Nat) (s : State) : Out :=
  run s fun w => w.setPort port { w.port port with retries := ((w.port port).retries + 1) % 2 ^ 32 }

/-! ## What a lost link takes with it (R346, R351, R359, R373, R378) -/

/-- The routes whose primary port is lost lose VP (R346). -/
def Mod.loseRoutes (m : Mod) (port : Nat) : Mod :=
  { m with routes := m.routes.map fun e =>
      (e.1, if e.2.getLsbD 7 ∧ fld e.2 4 0 = port then e.2 &&& ~~~0x80#64 else e.2) }

/-- The nodes of a region's active contexts with an opcode that name a plan entry: cell and node. -/
def Work.planNodes (w : Work) (r opc i : Nat) : List (Nat × Nat) :=
  ((w.cellsOf r).map fun mc =>
    let c := w.cell mc
    (c.nodes.filter fun e => e.1 / 1024 == c.active && nOpc e.2 == opc && litF e.2 6 0 == i).map fun e =>
      (mc, e.1 % 1024)).flatten

/-- Link Lost at a group's nodes: colour 0 at the NLRX, the colour of the waiting token at the NLTX (R359). -/
def Work.planFault (w : Work) (r i : Nat) : Work :=
  let w1 := (w.planNodes r 0x2A i).foldl (fun v n => v.freezeNode n.1 n.2 0 0 0x19 [] 0 0 1) w
  (w1.planNodes r 0x29 i).foldl (fun v n =>
    match (v.cell n.1).entries.find? fun e => e.node == n.2 && e.port == 0 with
    | some e => v.freezeNode n.1 n.2 e.tok.colour e.tok.iter 0x19 [(0, e.tok)] 0 0 1
    | none => v) w1

/-- A region's groups bound on a port released, and their nodes' faults raised (R359). -/
def Work.losePlans (w : Work) (r port : Nat) : Work :=
  let ps := (w.region r).plans
  let hit := (List.range ps.length).filter fun i => match ps[i]? with
    | some p => p.bound && p.entry.port == port
    | none => false
  let w1 := w.updRegion r fun x =>
    { x with plans := x.plans.map fun p => if p.bound ∧ p.entry.port = port then { p with bound := false, lost := true } else p }
  hit.foldl (fun v i => v.planFault r i) w1

/-- An operation whose accesses that a test names are lost: it ends with Link Lost, and waits for its other accesses alone (R224,
R233, R378). -/
def EngOp.lose (o : EngOp) (p : Ack → Bool) : EngOp :=
  match (o.wait.toList ++ o.acks).find? p with
  | some x =>
    { o with
      err := some (o.err.getD (routeLost x.module))
      wait := o.wait.filter fun y => !p y
      acks := o.acks.filter fun y => !p y }
  | none => o

/-- Engine operations with an access that a test names end with Link Lost, and so do those that `gsend` names: GSENDs under way over a
lost route or group with nothing sent unacknowledged (R224, R371, R373, R378). -/
def Work.loseEngines (w : Work) (p : Ack → Bool) (gsend : Nat → EngOp → Bool) : Work :=
  let op : Nat → EngOp → EngOp := fun g o =>
    let x := o.lose p
    if gsend g o then { x with err := some (x.err.getD (routeLost (gsModule o.desc))) } else x
  { w with groves := w.groves.map fun e =>
      (e.1, { e.2 with engines := e.2.engines.map fun k => (k.1, { k.2 with queue := k.2.queue.map (op e.1) }) }) }

/-- The streams that a test names broken (R351). -/
def Work.loseStreams (w : Work) (p : Stream → Bool) : Work :=
  (w.mod.streams.filter p).foldl (fun v s => v.breakStream s) w

/-- The reservations whose grant left through a port revoked, held ones too (R373, R374). -/
def Work.revokePort (w : Work) (port : Nat) : Work :=
  let hits := (w.groves.map fun e => (e.2.glades.map fun z =>
    ((List.range z.2.slots.length).filter fun k => match z.2.slots[k]? with
      | some s => s.port == some port && (s.st == 1 || s.st == 2)
      | none => false).map fun k => (e.1, z.1, k)).flatten).flatten
  hits.foldl (fun v h => v.revoke h.1 h.2.1 h.2.2) w

/-- What this module holds for the streams of sources that a test names is dropped: those streams are broken, and a later one begins
anew (R350, R351; log entry 99). -/
def Mod.dropHeld (m : Mod) (p : Nat → Bool) : Mod := { m with heldStreams := m.heldStreams.filter fun h => !p h.source }

/-- A sender's reservations whose grant came over a port are its no more: no keep-alive reaches them (R373). -/
def Work.dropSent (w : Work) (port : Nat) : Work :=
  { w with groves := w.groves.map fun e => (e.1, { e.2 with sent := e.2.sent.filter fun x => x.port != some port }) }

/-- Whether a GSEND's packets leave by a port: its route's, or its bound group's (R371). -/
def Work.sendsOver (w : Work) (port g : Nat) (o : EngOp) : Bool :=
  o.op == 10 && if o.bind = 0 then o.port == some port else (o.firing || !o.acks.isEmpty) &&
    match (w.regOf g).plans[fld o.bind 6 0]? with
    | some p => p.entry.port == port
    | none => false

/-- LINK_LOST: routes, groups, streams, engine operations and reservations of a port are lost (R346, R351, R359, R373). -/
def execLinkLost (port : Nat) (s : State) : Out :=
  run s fun w =>
    if (w.port port).up = false then w
    else
      let w1 := w.loseEngines (fun x => x.port == some port) (w.sendsOver port)
      let w2 := (w1.setPort port { w1.port port with up := false }).updMod fun m =>
        { (m.loseRoutes port).dropHeld fun src => w.route src == some port with binds := m.binds.filter fun b => b.1 != port }
      let w3 := (Tbl.keys w2.regions).foldl (fun v r => v.losePlans r port) w2
      ((w3.loseStreams fun st => st.port == port).revokePort port).dropSent port

/-- PEER_LOST_DECLARED: a module that no message reaches any more: its streams break, and operations on it end (R351). -/
def execPeerLostDeclared (target : Nat) (s : State) : Out :=
  run s fun w =>
    ((w.loseEngines (fun x => x.module == target && x.port.isSome) fun _ o =>
        o.op == 10 && o.bind == 0 && o.port.isSome && gsModule o.desc == target).updMod fun m =>
      m.dropHeld fun src => src == target).loseStreams fun st => st.target == target

/-! ## Messages (R346, R357, R358) -/

/-- A region's plan entries on a port and group changed. -/
def Work.updPlans (w : Work) (port group role : Nat) (f : Plan → Plan) : Work :=
  { w with regions := w.regions.map fun r =>
      (r.1, { r.2 with plans := r.2.plans.map fun p =>
        if p.bound && p.entry.port == port && p.entry.group == group && p.entry.role == role then f p else p }) }

/-- A message for this module delivered. -/
def Work.deliverMsg (w : Work) : Msg → Work
  | .request r => w.arrive r
  | .response _ r => w.respondedTo r
  | .resume _ source isCell agent discard => w.resumeHeld source isCell agent discard
  | .reserve r => w.reserveArrive r
  | .packet p => w.packetArrive p
  | .keepAlive _ source g z k => w.keptAlive source g z k
  | .hold _ source sending g z k => w.holdGlade sending source g z k
  | .gladeResume _ source sending g z k nm ng => w.resumeGlade sending source g z k nm ng
  | .bindMsg port group role ptag => w.noteBind port group role ptag
  | .groupHold port group held => w.groupHeld port group fun p => { p with held := held }
  | .words port group ws => w.updPlans port group 1 fun p => { p with rxWords := p.rxWords ++ ws }
  | .credit port group n => w.updPlans port group 0 fun p => { p with credit := min 512 (p.credit + n) }
  | .grant port pool => if (w.port port).up then w.setPort port { w.port port with grant := pool } else w
  | .hostData _ _ => w
  | .loadReport _ _ => w

/-- MESSAGE_FORWARD: a message for this module is delivered; another goes on by this module's own route table, unless that
would be its ninth hop or no route leads on: its hop count is 0 to 7, 0 on the first (R346). -/
def execMessageForward (target hops : Nat) (msg : Msg) (s : State) : Out :=
  run s fun w =>
    if target = w.mod.modNo then w.deliverMsg msg
    else
      match w.route target with
      | some p => if hops < 7 then w.sendBy msg p (hops + 1) else w
      | none => w

end Sys2Proof.Machine
end

