-- ==== Sys2Proof/Machine/System.lean ====
section
/-! DEFINITION. System registers, translation removal, halting, context flips, reclaiming a colour, and debug capabilities
(spec 05 R139; 20 R386 to R395; 22 R402 to R406). -/

namespace Sys2Proof.Machine

/-! ## System registers (R390) -/

/-- Whether a user-mode access of a register is allowed: reads of those the table gives, no others (R390). -/
def sysUser (n : Nat) : Bool := [0, 7, 9, 10, 11, 12, 13, 14].contains n

/-- S.GROVE (R390). -/
def Work.sGrove (w : Work) (g : Nat) : Word :=
  bv 64 (w.mod.modNo * 2 ^ 32 + w.rno g * 2 ^ 20 + (w.grove g).gidx * 2 ^ 12 + g)

/-- S.WEAR (R429). -/
def Work.sWear (w : Work) (g : Nat) : Word :=
  bv 64 (w.mod.eolDays * 2 ^ 48 + w.mod.wgrove * 2 ^ 32 + w.mod.wpct * 2 ^ 24 + (w.grove g).ownOsc * 2 ^ 8 +
    (w.grove g).ownPct)

/-- A system register's value; a write-only one reads zero (R7, R390). -/
def Work.sysRead (w : Work) (g n : Nat) : Word :=
  let c := w.core g
  match n with
  | 0 => w.status g
  | 1 => c.trap.cause
  | 2 => c.trap.epc
  | 3 => c.trap.estatus
  | 4 => c.trap.faddr
  | 5 => (w.regOf g).tvec
  | 6 => c.scratch
  | 7 => bv 64 c.asid
  | 8 => (w.asEntry c.asid).1
  | 9 => bv 64 w.mod.cycle
  | 10 => c.loopcnt
  | 11 => w.sGrove g
  | 12 => (w.regOf g).faultq
  | 13 => w.sWear g
  | 14 => w.mod.clk
  | _ => 0

/-- SRD (R388, R390). -/
def execSrd (d n : BitVec 5) (s : State) : Out :=
  run s (coreInstr (.srd d n) fun g w => do
    need (w.super g || sysUser n.toNat) 0x02
    w.give g d (w.sysRead g n.toNat))

/-- S.RSRESUME: the resume it asks for; its reserved fields are not looked at (R6, R350). -/
def rsresumeOf (v : Word) : Instr :=
  if v.getLsbD 63 then .rsresumeDiscard (v.getLsbD 13) (fld v 12 0) (fld v 39 29)
  else .rsresumeRetry (v.getLsbD 13) (fld v 12 0) (fld v 39 29)

/-- A supervisor's write of a system register; read-only ones ignore it (R7, R390). -/
def Work.sysWrite (w : Work) (g n : Nat) (v : Word) : Except Stop Work :=
  let r := w.rno g
  let trap : (TrapState → TrapState) → Work := fun f => w.updCore g fun c => { c with trap := f c.trap }
  match n with
  | 1 => .ok (trap fun t => { t with cause := v &&& 0x1FFF })
  | 2 => .ok (trap fun t => { t with epc := v &&& 0xFFFC })
  | 3 => .ok (trap fun t => { t with estatus := v &&& 3 })
  | 4 => .ok (trap fun t => { t with faddr := v })
  | 5 => .ok (w.updRegion r fun x => { x with tvec := x.tvecOf v })
  | 6 => .ok (w.updCore g fun c => { c with scratch := v })
  | 7 => .ok (w.updCore g fun c => { c with asid := fld v 5 0 })
  | 10 => .ok (w.updCore g fun c => { c with loopcnt := v })
  | 12 =>
    if w.badQueue r v then .error (flt 0x09)
    else
      let own := bv 64 (2 ^ 16 + (w.grove g).gidx * 2 ^ 8 + fld v 7 0)
      .ok (w.trigger (.faultqWrite r (if v.getLsbD 16 then v else own)))
  | 15 => .ok (w.askRelease r v)
  | 16 => .ok (w.trigger (.pjdet r v))
  | 17 => .ok (w.trigger (rsresumeOf v))
  | _ => .ok w

/-- SWR (R385, R388, R390). -/
def execSwr (a n : BitVec 5) (s : State) : Out :=
  run s (coreInstr (.swr a n) fun g w => do
    need (w.super g || sysUser n.toNat) 0x02
    if w.super g then
      let w1 ← w.sysWrite g n.toNat (w.g g a)
      w1.next g
    else w.next g)

/-! ## TLBINV (R391) -/

/-- The translations that a test names removed from every buffer; records that wait on a failed check are tried again
(R383, R391). -/
def Work.tlbRemove (w : Work) (p : Xlat → Bool) : Work :=
  let keep : List Xlat → List Xlat := fun l => l.filter fun x => !p x
  { w with
    cores := w.cores.map fun e => (e.1, { e.2 with tlb := keep e.2.tlb })
    groves := w.groves.map fun e => (e.1, { e.2 with tlb := keep e.2.tlb })
    regions := w.regions.map fun e =>
      (e.1, { e.2 with faults := e.2.faults.map fun f => { f with checkFailed := false } }) }

/-- TLBINV: of an ASID, at an address (R391). -/
def execTlbinv (a b : BitVec 5) (s : State) : Out :=
  run s (coreInstr (.tlbinv a b) fun g w => do
    w.needSuper g
    need (fld (w.g g a) 63 6 = 0) 0x09
    (w.tlbRemove fun x => x.serves (fld (w.g g a) 5 0) (w.g g b).toNat).next g)

/-- TLBINV.ASID (R391). -/
def execTlbinvAsid (a : BitVec 5) (s : State) : Out :=
  run s (coreInstr (.tlbinvAsid a) fun g w => do
    w.needSuper g
    need (fld (w.g g a) 63 6 = 0) 0x09
    (w.tlbRemove fun x => x.asid == fld (w.g g a) 5 0).next g)

/-- TLBINV.ALL (R391). -/
def execTlbinvAll (s : State) : Out :=
  run s (coreInstr .tlbinvAll fun g w => do
    w.needSuper g
    (w.tlbRemove fun _ => true).next g)

/-! ## HALT (R392) -/

/-- The core that a designator names, TIMELINE being zero (R209, R392). -/
def Work.coreAt (w : Work) (g : Nat) (x : Word) : Except Stop Nat :=
  match w.designator g x with
  | some (m, 0) => .ok m
  | _ => .error (flt 0x09)

/-- HALT: the target completes the instruction that it has issued, and stops at the next boundary (R392). -/
def execHalt (a : BitVec 5) (s : State) : Out :=
  run s (coreInstr (.halt a) fun g w => do
    w.needSuper g
    let m ← w.coreAt g (w.g g a)
    let w1 ← w.next g
    return w1.updCore m fun c =>
      if c.halted || (c.atBoundary || m == g) then { c with halted := true } else { c with halting := true })

/-- HALT.RUN: the target continues (R392). -/
def execHaltRun (a : BitVec 5) (s : State) : Out :=
  run s (coreInstr (.haltRun a) fun g w => do
    w.needSuper g
    let m ← w.coreAt g (w.g g a)
    let w1 ← w.next g
    return w1.updCore m fun c => { c with halted := false, halting := false })

/-! ## CFGFLIP (R110, R394) -/

/-- Whether a graph load gave a cell's context records (R394; log entry 69). -/
def Cell.hasCtx (c : Cell) (k : Nat) : Bool := c.graphCtx.contains k

/-- The cells that G[a] of CFGFLIP names: one logical cell, or every cell of the region; none where it breaks R394. -/
def Work.flipCells (w : Work) (r : Nat) (x : Word) : Option (List Nat) :=
  if x = BitVec.allOnes 64 then some (w.cellsOf r)
  else if fld x 63 12 = 0 then (w.lcell r (fld x 11 0)).map fun c => [c]
  else none

/-- CFGFLIP: each named cell accepts the flip, which takes effect by R110 (R394). -/
def execCfgflip (a b : BitVec 5) (s : State) : Out :=
  run s (coreInstr (.cfgflip a b) fun g w => do
    w.needSuper g
    let k := (w.g g b).toNat
    need (k ≤ 3) 0x09
    match w.flipCells (w.rno g) (w.g g a) with
    | none => .error (flt 0x09)
    | some cs =>
      need (cs.any fun c => (w.cell c).hasCtx k) 0x09
      if cs.any fun c => (w.cell c).nextCtx.isSome then .error .stall
      else
        (cs.foldl (fun v c => if (v.cell c).active = k then v else v.updCell c fun x => { x with nextCtx := some (4 + k) })
          w).next g)

/-! ## CKILL (R395) -/

/-- CKILL: a purge wave begins, and its issuer stalls until the wave has passed (R395). -/
def execCkill (a : BitVec 5) (s : State) : Out :=
  run s (coreInstr (.ckill a) fun g w => do
    w.needSuper g
    let c := w.g g a
    need (fld c 63 12 = 0 && fld c 11 0 != (w.core g).cur.colour.toNat) 0x09
    return w.updRegion (w.rno g) fun x =>
      if x.purge.any fun p => p.2 == some g then x else { x with purge := x.purge ++ [(fld c 11 0, some g)] })

/-- Tokens of a list that a purge drops, their counts released. -/
def dropToks (mc : Nat) : List Token → Work → Work
  | [], w => w
  | t :: ts, w => dropToks mc ts (w.dropTok mc t)

/-- A cell purged of a colour: tokens on their way, held, stored, spilled and waiting to leave; chains, requests, generators
and a stopped instance's twig (R395). -/
def Work.purgeCell (w : Work) (k : BitVec 12) (mc : Nat) : Work :=
  let c := w.cell mc
  let mine : Token → Bool := fun t => t.colour == k
  let ov := c.ovf.filter fun o => bits (w.pload (w.ovAddr mc o.slot) 8) 35 24 == k.toNat
  let gone := (c.inq.map Prod.snd).filter mine ++ (c.held.map Prod.snd).filter mine ++ (c.entries.map Entry.tok).filter mine ++
    c.outq.filter mine ++ (c.pend.map Prod.snd).filter mine ++
    ((c.reqs.filter fun q => q.colour == k).map MemReq.ins).flatten ++
    (((Tbl.vals c.gens).filter fun u => u.busy && u.colour == k).map Gen.ins).flatten ++
    ((Option.filter (fun t => t.colour == k) c.debug).map Twig.ins).getD []
  let w1 := dropToks mc gone (ov.foldl (fun v o => v.count (mc / 16) o.item false) w)
  w1.updCell mc fun x =>
    { x with
      inq := x.inq.filter fun e => !mine e.2
      held := x.held.filter fun e => !mine e.2
      entries := x.entries.filter fun e => !mine e.tok
      outq := x.outq.filter fun t => !mine t
      outNo := ((x.outq.zip x.outNo).filter fun e => !mine e.1).map Prod.snd
      pend := x.pend.filter fun e => !mine e.2
      ovf := x.ovf.filter fun o => !ov.contains o
      chains := x.chains.filter fun y => y.colour != k
      reqs := x.reqs.filter fun q => q.colour != k
      gens := x.gens.map fun e =>
        if e.2.busy = true ∧ e.2.colour = k then
          (e.1, { e.2 with busy := false, inRound := false, ins := [], wait := none, got := none }) else e
      debug := Option.filter (fun t => t.colour != k) x.debug }

/-- A core purged of a colour: its records, its dispatched records and its running task, each counting as ended;
a purge wave that this task waited for keeps no issuer (R395). -/
def Work.purgeCore (w : Work) (r : Nat) (k : BitVec 12) (g : Nat) : Work :=
  let c := w.core g
  let dead := (c.slots.filter fun x => x.task.colour == k).map fun x => x.task.wid
  let deadQ := (c.runQ.filter fun x => trColour x == k).map trWid
  let runs := match c.task with
    | some t => t.colour == k
    | none => false
  let w1 := (dead ++ deadQ ++ (if runs then [c.cur.wid] else [])).foldl (fun v wid => v.endTask r wid) w
  let w2 := w1.updCore g fun x =>
    let y := { x with slots := x.slots.filter fun q => q.task.colour != k, runQ := x.runQ.filter fun q => trColour q != k }
    if runs then y.idle else y
  if runs then
    w2.updRegion r fun x => { x with purge := x.purge.map fun p => if p.2 = some g then (p.1, none) else p }
  else w2

/-- Stage queues purged of a colour; the room made wakes those that wait for it (R150, R395). -/
def Work.purgeQueues (w : Work) (r : Nat) (k : BitVec 12) : Work :=
  match (w.region r).running with
  | none => w
  | some u =>
    let dead := ((u.queues.map fun q => q.recs).flatten.filter fun x => trColour x == k).map trWid
    let u1 := { u with
      queues := u.queues.map fun q => { q with recs := q.recs.filter fun x => trColour x != k }
      initial := u.initial.filter fun e => trColour e.1 != k }
    let w1 := dead.foldl (fun v wid => v.endTask r wid) (w.updRegion r fun x => { x with running := some u1 })
    w1.wakeKind r 3 fun q => ((u.queues[q.wobj]?).any fun y => y.recs.any fun x => trColour x == k)

/-- Spilled records of a colour discarded (R395). -/
def Work.purgeSpill (w : Work) (r : Nat) (k : BitVec 12) : Work :=
  let dead := ((Tbl.vals (w.region r).spill).filter fun x => x.task.colour == k).map fun x => x.task.wid
  dead.foldl (fun v wid => v.endTask r wid)
    (w.updRegion r fun x => { x with spill := x.spill.filter fun e => e.2.task.colour != k })

/-- The colour's pool record freed, and the colour back at the tail of the pool unless it is held since load (R395). -/
def Region.reclaim (x : Region) (k : BitVec 12) (now : Nat) : Region :=
  let left := x.waitC.filter fun e => e.1.colour != k
  let y := { x with waitC := left, cpoolSince := if left.isEmpty then none else x.cpoolSince }
  match Tbl.find y.colours k.toNat with
  | some c => if c.caller.isSome then y.giveBack k.toNat now else y
  | none => y

/-! ## Debug capabilities (R402 to R406) -/

/-- A handle's 128 bits. -/
def handleBits (i : Nat) (c : Cap) : Nat :=
  i + c.rights * 2 ^ 8 + c.region * 2 ^ 16 + c.gen.toNat * 2 ^ 32 + c.check.toNat * 2 ^ 64

/-- The entry of a handle, where the handle is live and its layout sound (R402, R403). -/
def Mod.liveCap (m : Mod) (h : Nat) : Option (Nat × Cap) :=
  let i := bits h 7 0
  let c := m.cap i
  if c.v ∧ handleBits i c = h then some (i, c) else none

/-- The live capability that a task holds at an address, or its fault (R405). -/
def Work.heldCap (w : Work) (g : Nat) (va : Nat) : Except Stop (Nat × Cap × Work) := do
  needAt (va % 16 = 0) 0x03 va
  let (bs, w1) ← stopAt (w.vread (w.accCore g) va 16)
  match w1.mod.liveCap (leNat bs) with
  | some (i, c) => if c.holder = (w1.core g).asid then return (i, c, w1) else .error (flt 0x02)
  | none => .error (flt 0x02)

/-- DCAPD: a narrowed capability for another address space (R405). -/
def execDcapd (d a b : BitVec 5) (s : State) : Out :=
  run s (coreInstr (.dcapd d a b) fun g w => do
    let va := (w.g g a).toNat
    let x := w.g g b
    let (i, e, w1) ← w.heldCap g va
    need (fld x 63 14 = 0 && fld x 7 6 = 0 && (w1.asEntry (fld x 5 0)).1.getLsbD 63) 0x09
    let w2 ← stopAt (w1.vcheck (w1.accCore g) needW (va + 16) 16)
    match (List.range 256).find? fun k => !(w2.mod.cap k).v with
    | none => w2.give g d 1
    | some n =>
      let p := w2.fresh
      let c : Cap :=
        { w2.mod.cap n with
          v := true, holder := fld x 5 0, region := e.region, rights := (bv 64 e.rights &&& bv 64 (fld x 13 8)).toNat,
          pv := true, parent := i, check := p.1 }
      let w3 := p.2.updMod fun m => { m with caps := Tbl.put m.caps n c }
      let w4 ← stopAt (w3.vwrite (w3.accCore g) (va + 16) (leBytes 16 (handleBits n c)))
      w4.give g d 0)

/-- Whether an entry is one, or its chain of parents reaches it (R405). -/
def Mod.derives (m : Mod) (i : Nat) : Nat → Nat → Bool
  | 0, k => k == i
  | n + 1, k => k == i || ((m.cap k).pv && m.derives i n (m.cap k).parent)

/-- DCAPR: an entry and all delegated from it revoked (R405, R406). -/
def execDcapr (d a : BitVec 5) (s : State) : Out :=
  run s (coreInstr (.dcapr d a) fun g w => do
    let (i, _, w1) ← w.heldCap g (w.g g a).toNat
    let gone := (List.range 256).filter fun k => w1.mod.derives i 256 k
    let w2 := gone.foldl (fun v k =>
      v.updMod fun m => { m with caps := Tbl.put m.caps k { m.cap k with v := false, gen := (m.cap k).gen + 1 } }) w1
    w2.give g d (bv 64 gone.length))

end Sys2Proof.Machine
end

