-- ==== Sys2Proof/Machine/Releases.lean ====
section
/-! DEFINITION. Fault records posted, frozen objects released, and a stopped region resumed (spec 20 R381 to R385, R400; 10
R247; 22 R411). -/

namespace Sys2Proof.Machine

/-! ## Fault queues (R383) -/

/-- The first record of each grove, in the order raised, that waits on no failed check. -/
def firstDue : List Nat → List FaultRec → Option FaultRec
  | _, [] => none
  | seen, f :: t => if f.checkFailed || seen.contains f.grove then firstDue (f.grove :: seen) t else some f

/-- The ring that FAULTQ names, if it names one: its grove, handle and entry (R383). -/
def Work.faultRing (w : Work) (r : Nat) : Option (Nat × Nat) :=
  let q := (w.region r).faultq
  match w.mgrove r (fld q 15 8) with
  | some g => if ((w.grove g).handle (fld q 7 0)).kind = 2 then some (g, fld q 7 0) else none
  | none => none

/-- The accesses of a fault record: supervisor, in the region's address space (R383, R442). -/
def Work.accRecord (w : Work) (r g : Nat) : Acc := ⟨g, .after 0, (w.region r).rasid, false, some r, false, .other⟩

/-- FAULT_RECORD_POST: the slot at FH is checked, taken, written and posted; a record whose check fails waits (R383). -/
def execFaultRecordPost (region : Nat) (s : State) : Out :=
  run s fun w =>
    let x := w.region region
    match firstDue [] x.faults, w.faultRing region with
    | some f, some (g, h) =>
      let e := (w.grove g).handle h
      let acc := w.accRecord region g
      if x.runs = false ∨ e.slots.getD e.fh 9 ≠ 0 then w
      else
        match (do
          let w1 ← w.vcheck acc needW (e.addr e.fh) 64
          (w1.changeHandle g h (e.take true)).vwrite acc (e.addr e.fh) f.image) with
        | .ok w2 => (w2.postSlot g h e.fh).updRegion region fun y => { y with faults := y.faults.erase f }
        | .error _ =>
          w.updRegion region fun y =>
            { y with faults := y.faults.map fun k => if k = f then { k with checkFailed := true } else k }
    | _, _ => w

/-- FAULTQ_WRITE: the designator set; records that wait on a failed check are tried again (R383). -/
def execFaultqWrite (region : Nat) (value : Word) (s : State) : Out :=
  run s fun w => w.updRegion region fun x =>
    { x with faultq := value, faults := x.faults.map fun f => { f with checkFailed := false } }

/-! ## What a release does with each kind of object (R384) -/

/-- A frozen object gone from its region's list. -/
def Work.unlist (w : Work) (r : Nat) (o : Frozen) : Work :=
  w.updRegion r fun x => { x with frozen := x.frozen.filter fun p => p.fseq != o.fseq }

/-- The entry of a cell that holds a frozen firing's token on a port. -/
def Cell.entryOf (c : Cell) (o : Frozen) (p : Nat × Token) : Option Entry :=
  c.entries.find? fun e => e.node == o.node && e.port == p.1 && e.tok == p.2

/-- Tokens of entries dropped, their counts released. -/
def dropEntries (mc : Nat) : List (Option Entry) → Work → Work
  | [], w => w
  | none :: t, w => dropEntries mc t w
  | some e :: t, w => dropEntries mc t ((w.updCell mc fun c => c.freeEntries [e.id]).dropTok mc e.tok)

/-- A firing whose entries stand is dropped: its tokens, its demand, and their counts (R384). -/
def Work.dropFiring (w : Work) (o : Frozen) : Work :=
  let c := w.cell o.cell
  let demand := if nDem (c.node o.node) then c.entryAt o.node 4 o.colour o.iter else none
  dropEntries o.cell ((o.toks.map fun p => c.entryOf o p) ++ [demand]) w

/-- Tokens of an instance that had entered the store put back, with no check of theirs made again: in entries, in the overflow
queue before every record that waits where none is free, and at the cell's input where neither has room (R84, R87, R88). `k` counts
those that have spilled. -/
def putBack (mc : Nat) : Nat → List Token → Work → Work
  | _, [], w => w
  | k, t :: ts, w =>
    let c := w.cell mc
    if c.entries.length < c.usable then putBack mc k ts (w.updCell mc fun x => x.addEntry t)
    else if c.ovf.length < w.ovCap mc then putBack mc (k + 1) ts (w.ovPutAt mc k false true t).1
    else w.updCell mc fun x => { x with held := ((t :: ts).map fun u => (true, u)) ++ x.held }

/-- The tokens of a twig that was abandoned put back, with the demand its firing consumed (R121, R384). -/
def Work.restoreFiring (w : Work) (o : Frozen) : Work :=
  let demand : List Token :=
    match o.toks with
    | (_, t) :: _ =>
      if nDem ((w.cell o.cell).node o.node) then [{ mkTok t.dest o.colour o.iter 0 0 [] with kind := 2 }] else []
    | [] => []
  putBack o.cell 0 (o.toks.map Prod.snd ++ demand) w

/-- The instance of a frozen firing in its cell, with the firing. -/
def Work.frozenInst (w : Work) (o : Frozen) : Option (Fire × Inst) :=
  match o.toks with
  | p :: _ =>
    match (w.cell o.cell).entryOf o p with
    | some e =>
      let f : Fire := ⟨o.cell, o.node, o.colour, o.iter, e.id⟩
      ((w.cell o.cell).inst f).map fun x => (f, x)
    | none => none
  | [] => none

/-- A colour frozen at a node fires again (R384). `what` says what the freeze kept: 0 tokens not in the store, 1 a firing
whose entries stand, 2 a request, 3 a generator, 4 tokens of an abandoned twig, 5 a source, 6 a join partway. -/
def Work.retryNode (w : Work) (r : Nat) (o : Frozen) : Work :=
  let w1 := w.unlist r o
  match o.what with
  | 0 => offerList o.cell 0 (o.toks.map fun p => (false, p.2)) w1
  | 4 => w1.restoreFiring o
  | 6 =>
    match w1.frozenInst o with
    | some (f, x) => joinFire o.aux f x w1
    | none => w1
  | _ => w1

/-- A frozen generator's round dropped, with the data token it was storing (R384). -/
def Work.dropGen (w : Work) (mc u : Nat) : Work :=
  let g := (w.cell mc).gen u
  let w1 := dropEntries mc [if osb0 g.record then (w.cell mc).genData g else none] w
  releaseToks (mc / 16) g.ins (w1.setGen mc u { g with busy := false, inRound := false, ins := [], wait := none, got := none })

/-- A frozen source skips its change, or frees its slot unsent (R282, R384). -/
def Work.skipChange (w : Work) (mc node aux : Nat) : Work :=
  let d := w.source mc node
  match d.cur with
  | none => w
  | some (slot, n, _) =>
    if bv 64 aux = noIndex then
      (w.freeSlotOf (mc / 16) (ringOf ((w.cell mc).node node)) slot).setSource mc node { d with cur := none }
    else w.setSource mc node { d with cur := some (slot, n, aux + 1) }

/-- A request of a memory node dropped, its tokens' counts released. -/
def Work.dropReq (w : Work) (mc id : Nat) : Work :=
  match (w.cell mc).reqs.find? fun q => q.id == id with
  | some q => releaseToks (mc / 16) q.ins (w.updCell mc fun c => { c with reqs := c.reqs.filter fun p => p.id != id })
  | none => w

/-- A colour frozen at a node loses its firing (R384). -/
def Work.discardNode (w : Work) (r : Nat) (o : Frozen) : Work :=
  let w1 := w.unlist r o
  match o.what with
  | 0 => dropToks o.cell (o.toks.map Prod.snd) w1
  | 2 => w1.dropReq o.cell o.aux
  | 3 => w1.dropGen o.cell o.aux
  | 4 => dropToks o.cell (o.toks.map Prod.snd) w1
  | 5 => w1.skipChange o.cell o.node o.aux
  | _ => w1.dropFiring o

/-- An owner's faulting update dropped: a null token answers reply kinds 1 and 2 (R384). -/
def Work.dropUpdate (w : Work) (o : Frozen) : Work :=
  let r := (w.cell o.cell).node o.node
  let replies := (o.toks.filter fun p => fld (tokW p.2 2) 4 3 == 1 || fld (tokW p.2 2) 4 3 == 2).map fun p =>
    mkNull (bv 24 (fld (tokW p.2 2) 31 8)) p.2.colour p.2.iter p.2.seq (nPrio r)
  (w.dropFiring o).updCell o.cell fun c => c.emitLater o.node replies

/-- An owner's queue goes on. -/
def Work.freeOwner (w : Work) (o : Frozen) : Work :=
  w.updCell o.cell fun c => { c with ownerFrozen := c.ownerFrozen.erase o.node }

/-- A frozen tag's k-steps, once the tag runs: those kept while it was frozen are handed over in order (R262, R384). -/
def Work.freeTag (w : Work) (o : Frozen) (f : Tag → Tag) : Work :=
  let g := o.grove
  let t := f ((w.mx g).tag o.what)
  let gone := ((w.mx g).tag o.what).packets.filter fun p => !t.packets.contains p
  let w1 := w.setTag g o.what { t with kept := [], frozen := none }.promote
  ((t.kept.foldl (fun v i => v.handOver g o.what i) w1).updMx g fun m => m.freePackets gone).settleTlm g

/-- A tag's faulting k-step dropped, and NEXT advanced (R384): a collided one was never queued. -/
def Tag.dropStep (collided : Bool) (t : Tag) : Tag :=
  let t1 := { t with next := (t.next + 1) % 256 }
  if collided then { t1 with kept := t1.kept.tail } else { t1 with queue := t1.queue.tail }

/-- A frozen handler entry goes on; its packet launches its handler again, or is dropped as accepted (R255, R384). -/
def Work.freeHandler (w : Work) (o : Frozen) (discard : Bool) : Work :=
  let g := o.grove
  let m := w.mx g
  let m1 := { m with frozenEntries := m.frozenEntries.erase o.what, freed := m.freed.erase o.aux }
  match m.handled.find? fun p => p.order == o.aux with
  | none => w.setMx g m1
  | some p =>
    if discard then (w.setMx g ({ m1 with handled := m1.handled.erase p }.freePackets [])).acceptPacket g p.ctx p.opNum
    else w.setMx g { m1 with handled := m1.handled.erase p, arrivals := p :: m1.arrivals }

/-- A frozen task runnable again on its grove (R384). -/
def Work.retryTask (w : Work) (o : Frozen) : Work :=
  match o.task with
  | none => w
  | some t =>
    let t1 := { t with since := some w.mod.cycle }
    fitSlots 34 o.grove (w.updCore o.grove fun c => { c with slots := c.slots ++ [t1] })

/-- A frozen object released (R384). A stream takes no release here (R350). -/
def Work.letGo (w : Work) (r : Nat) (discard : Bool) (o : Frozen) : Work :=
  let w1 := w.unlist r o
  match o.okind with
  | 1 =>
    if discard then
      match o.task with
      | some t => w1.endTask r t.task.wid
      | none => w1
    else w1.retryTask o
  | 2 => if discard then w.discardNode r o else w.retryNode r o
  | 3 =>
    if discard then
      w1.updCell o.cell fun c =>
        { c with reqs := c.reqs.map fun (q : MemReq) => if q.id = o.aux then { q with null := true } else q }
    else w1
  | 4 => if discard then (w1.freeOwner o).dropUpdate o else w1.freeOwner o
  | 6 => if discard then w1.freeTag o (Tag.dropStep (o.code == 0x10)) else w1.freeTag o id
  | 7 => w1.freeHandler o discard
  | 9 => w1
  | _ => w

/-! ## A stopped region goes on (R374, R411, R415) -/

/-- The token of a stop as STOPTOK shows it: its payload and NULL may have been edited (R414). -/
def Region.heldTok (x : Region) (t : Token) : Token :=
  let e := tokOfBytes x.stopTok t.item t.req
  { t with payload := e.payload, null := e.null }

/-- A breakpoint's instance, in its cell's debug slot or still in the store, goes on or is dropped (R411, R412). -/
def Work.resumeFire (w : Work) (f : Fire) (discard : Bool) : Work :=
  match (w.cell f.cell).debug with
  | some t =>
    if discard then dropToks f.cell t.ins (w.updCell f.cell fun c => { c with debug := none }) else w
  | none =>
    match (w.cell f.cell).inst f with
    | none => w
    | some x =>
      if x.ids.contains f.entry = false then w
      else if discard then dropToks f.cell (x.toks.map Prod.snd) (w.updCell f.cell fun c => c.freeEntries x.ids)
      else w.launchTwig f x

/-- The object of a stop retried or discarded (R411). -/
def Work.resumeObject (w : Work) (r : Nat) (x : Region) (discard : Bool) : Work :=
  let w1 := match x.stopHeld with
    | some (mc, t) =>
      let u := x.heldTok t
      if discard then w.dropTok mc u else w.offer mc true u
    | none => w
  let w2 := match x.stopFire with
    | some f => w1.resumeFire f discard
    | none => w1
  match x.stopCore with
  | none => w2
  | some g =>
    if (w2.core g).task.isNone then w2
    else if discard then (w2.endTask r (w2.core g).cur.wid).updCore g fun c => c.idle
    else w2.updCore g fun c => { c with task := c.task.map fun t => { t with noHit := true } }

/-- What a region tells the glade peers of its groves: a hold, or that it goes on where it stands (R374). `at_` gives the
module and grove that a message names. -/
def Work.tellPeers (w : Work) (g : Nat) (msg : Bool → Nat → Nat → Nat → Nat → Msg) : Work :=
  let k := w.grove g
  let slots := (k.glades.map fun z => ((List.range z.2.slots.length).filterMap fun i => match z.2.slots[i]? with
    | some s => if s.st = 1 ∨ s.st = 2 then some (z.1, i, s.sender) else none
    | none => none)).flatten
  let w1 := slots.foldl (fun v e => v.sendTo e.2.2 (msg true e.2.2 g e.1 e.2.1)) w
  k.sent.foldl (fun v x => v.sendTo x.module (msg false x.module x.grove x.glade x.slot)) w1

/-- HELD set or cleared for a region's reserved and filling slots and its own reservations (R374). -/
def Work.markHeld (w : Work) (r : Nat) (held : Bool) : Work :=
  (w.grovesOf r).foldl (fun v g => v.updGrove g fun k =>
    { k with
      glades := k.glades.map fun z => (z.1, { z.2 with slots := z.2.slots.map fun s =>
        if s.st = 1 ∨ s.st = 2 then (GSlot.alive { s with held := held } w.mod) else s })
      sent := k.sent.map fun x => { x with away := held, last := w.mod.cycle } }) w

/-- Holds sent for every grove of a region (R374, R396). -/
def Work.holdPeers (w : Work) (r : Nat) : Work :=
  (w.grovesOf r).foldl (fun v g => v.tellPeers g fun sending m y z k => .hold m w.mod.modNo sending y z k) (w.markHeld r true)

/-- Resumes sent for every grove of a region that goes on where it stood (R374). -/
def Work.unholdPeers (w : Work) (r : Nat) : Work :=
  (w.grovesOf r).foldl (fun v g => v.tellPeers g fun sending m y z k =>
    .gladeResume m w.mod.modNo sending y z k w.mod.modNo g) (w.markHeld r false)

/-- Releases that came while a region was stopped take effect (R400, R411). -/
def Work.lateReleases (w : Work) (r : Nat) (ps : List (Nat × BitVec 32)) : Work :=
  ps.foldl (fun v p =>
    match (v.region r).frozen.find? fun o => o.fseq == p.2.toNat && !o.stuck with
    | some o => v.letGo r (p.1 == 1) o
    | none => v) w

/-- A stopped region resumed (R411): the stop's object goes on or is dropped, held tokens are offered again, glade and group
peers go on, and releases that waited take effect. -/
def Work.resume (w : Work) (r : Nat) (discard : Bool) : Work :=
  let x := w.region r
  let w1 := w.updRegion r fun y =>
    { y with stopped := false, stop := none, stopHeld := none, stopFire := none, stopCore := none, pendRelease := [] }
  let w2 := w1.resumeObject r x discard
  ((((w2.cellsOf r).foldl Work.offerHeld w2).unholdPeers r).tellGroups r false).lateReleases r x.pendRelease

/-! ## S.FRELEASE and the release port (R384, R400) -/

/-- A release asked for: of a frozen object, or of the stop of a stopped region (R384, R400, R411). -/
def Work.askedRelease (w : Work) (r : Nat) (discard : Bool) (q : BitVec 32) : Work :=
  let x := w.region r
  if x.halted || x.freezing.isSome then w
  else if x.stopped && (x.stop.any fun f => f.fseq == q.toNat) then w.resume r discard
  else
    match x.frozen.find? fun o => o.fseq == q.toNat && !o.stuck with
    | none => w
    | some o =>
      if x.stopped || x.stopping.isSome then
        w.updRegion r fun y => { y with pendRelease := y.pendRelease ++ [(if discard then 1 else 0, q)] }
      else w.letGo r discard o

/-- FRELEASE_RETRY (R384). -/
def execFreleaseRetry (region : Nat) (fseq : BitVec 32) (s : State) : Out :=
  run s fun w => w.askedRelease region false fseq

/-- FRELEASE_DISCARD (R384). -/
def execFreleaseDiscard (region : Nat) (fseq : BitVec 32) (s : State) : Out :=
  run s fun w => w.askedRelease region true fseq

/-! ## The end of a purge wave (R395) -/

/-- Frozen objects of a colour discarded (R384, R395): their tokens' counts released, a
source's change skipped, their tasks ended. -/
def Work.purgeFrozen (w : Work) (r : Nat) (k : BitVec 12) : Work :=
  let mine : Frozen → Bool := fun o => decide (o.okind ≤ 4) && o.colour == k
  let dead := (w.region r).frozen.filter mine
  let w1 := dead.foldl (fun v o =>
    let v1 := if o.okind = 2 ∧ o.what = 5 then v.skipChange o.cell o.node o.aux
      else if o.what = 0 ∨ o.what = 4 then dropToks o.cell (o.toks.map Prod.snd) v else v
    let v2 := if o.okind = 4 then v1.updCell o.cell fun c => { c with ownerFrozen := c.ownerFrozen.erase o.node } else v1
    match o.task with
    | some t => v2.endTask r t.task.wid
    | none => v2) w
  w1.updRegion r fun x => { x with frozen := x.frozen.filter fun o => !mine o }

/-- PURGE_WAVE_COMPLETE: the wave has passed every unit; running twigs of the colour have committed; what the colour held
is gone, and the issuer goes on (R395). -/
def execPurgeWaveComplete (region : Nat) (s : State) : Out :=
  run s fun w =>
    match (w.region region).purge with
    | [] => w
    | (c, g) :: _ =>
      let k : BitVec 12 := bv 12 c
      let cells := w.cellsOf region
      if cells.any fun mc => (w.cell mc).twigs.any fun e => e.2.colour == k then w
      else
        let w1 := (w.grovesOf region).foldl (fun v h => v.purgeCore region k h)
          (cells.foldl (fun v mc => v.purgeCell k mc) w)
        let w2 := (((w1.purgeQueues region k).purgeSpill region k).purgeFrozen region k).updRegion region fun x =>
          { x.reclaim k w.mod.cycle with purge := x.purge.tail }
        match g.filter fun h => (w2.core h).task.isSome with
        | none => w2
        | some h =>
          let w3 := w2.updCore h fun x => { x with stall := none }
          match w3.next h with
          | .ok w4 => w4
          | .error (.fault code addr aux) => w3.raise h code addr aux none
          | .error _ => w3

/-! ## S.PJDET (R247) -/

/-- The permits that a detachment makes due (R246): no token completes their sets, so their tags are free values (log entry
26). -/
def freshPermits (r : NRec) : Nat → Work → List Token × Work
  | 0, w => ([], w)
  | n + 1, w =>
    let p := w.fresh
    let t := freshPermits r n p.2
    ((both r fun d => mkPermit d (bv 12 p.1.toNat) (bv 16 (p.1.toNat / 4096)) (nPrio r)) ++ t.1, t.2)

/-- An NPJOIN's branch detached; a node that is still stuck counts its cycles anew (R246, R247; log entry 28). -/
def Work.detachNode (w : Work) (mc node branch : Nat) : Work :=
  let c := w.cell mc
  let r := c.node node
  let j := c.join node
  if nOpc r ≠ 0x28 ∨ nOsb r < branch then w
  else
    let j1 := { j with detached := branch :: j.detached.erase branch, stuck := none }
    let live := j1.live.map fun k => j1.counts.getD k 0
    let n := match live with
      | [] => 0
      | x :: t => t.foldl min x
    let cs := (List.range j1.counts.length).map fun k => if j1.live.contains k then j1.counts.getD k 0 - n else j1.counts.getD k 0
    let p := freshPermits r n w
    p.2.updCell mc fun k => { k with joins := Tbl.put k.joins (k.key node) { j1 with counts := cs } }.emitLater node p.1

/-- A running SMCAST's branch detached (R247). -/
def Work.detachCast (w : Work) (g k branch : Nat) : Work :=
  w.updEngine g k fun e =>
    match e.queue with
    | o :: t =>
      if o.op = 4 ∧ o.running = true ∧ branch < deBranches o.desc then
        { e with queue := { o with detached := branch :: o.detached.erase branch } :: t }
      else e
    | [] => e

/-- PJDET; its reserved fields are not looked at (R6, R247). -/
def execPjdet (region : Nat) (value : Word) (s : State) : Out :=
  run s fun w =>
    let b := fld value 26 24
    if value.getLsbD 31 then
      if fld value 15 11 ≠ 0 ∨ fld value 7 0 ≠ 0 then w
      else
        match w.mgrove region (fld value 23 16) with
        | some g => w.detachCast g (fld value 10 8) b
        | none => w
    else if fld value 23 22 ≠ 0 then w
    else
      match w.lcell region (fld value 11 0) with
      | some mc => w.detachNode mc (fld value 21 12) b
      | none => w

end Sys2Proof.Machine
end

