-- ==== Sys2Proof/Machine/Load.lean ====
section
/-! DEFINITION. Graph load: the region cell table, the checks of an image as a whole, and what a load sets (spec 01 R18 to
R20; 07 R176; 11 R249 to R257; 12 R269, R273; 13 R291, R298; 15 R339; 16 R341, R342; 18 R363 to R367, R376). -/

namespace Sys2Proof.Machine

/-! ## The region cell table (R176) -/

/-- Whether a list names something twice. -/
def repeated : List Nat → Bool
  | [] => false
  | x :: t => t.contains x || repeated t

/-- The 64-bit word of the table at a local address. -/
def Work.tableWord (w : Work) (a : Nat) : Word := bv 64 (w.pload a 8)

/-- Grove entry `g` of the table at a local address: module grove, spill base and MiB (R176). A base that names no memory of
this module breaks the limits (log entry 88). -/
def Work.groveEntry (w : Work) (a g : Nat) : Option (Nat × Nat × Nat) :=
  let x := w.tableWord (a + 0x40 + 16 * g)
  let y := w.tableWord (a + 0x48 + 16 * g)
  if x.getLsbD 63 ∧ fld x 62 9 = 0 ∧ fld x 8 0 ≤ 319 ∧ fld y 63 56 = 0 ∧ fld y 19 7 = 0 ∧ fld y 6 0 ≤ 64 ∧
      (fld y 6 0 = 0 ∨ (w.localMem (fld y 55 20 * 2 ^ 20) (fld y 6 0 * 2 ^ 20)).isSome = true) then
    some (fld x 8 0, fld y 55 20 * 2 ^ 20 % 2 ^ 45, fld y 6 0)
  else none

/-- Cell entry `c`: `none` for a field that breaks the limits, `some none` for a logical cell not in use (R176). -/
def Work.cellEntry (w : Work) (groves : Tbl (Nat × Nat × Nat)) (a c : Nat) : Option (Option (Nat × Nat × Nat)) :=
  let x := w.tableWord (a + 0x1040 + 16 * c)
  let y := w.tableWord (a + 0x1048 + 16 * c)
  if ¬ x.getLsbD 63 then some none
  else if fld x 62 16 ≠ 0 ∨ fld x 7 4 ≠ 0 ∨ fld y 63 56 ≠ 0 ∨ fld y 11 5 ≠ 0 ∨ fld y 4 0 < 6 ∨ 18 < fld y 4 0 ∨
      w.localMem (fld y 55 12 * 4096) (64 * 2 ^ fld y 4 0) = none then none
  else
    match Tbl.find groves (fld x 15 8) with
    | none => none
    | some g => some (some (16 * g.1 + fld x 3 0, fld y 55 12 * 4096 % 2 ^ 45, fld y 4 0))

/-- Entries in order, if none breaks the limits. -/
def readEntries {α : Type} (f : Nat → Option (Option α)) : List Nat → Option (Tbl α)
  | [] => some []
  | n :: t =>
    match f n, readEntries f t with
    | some none, some es => some es
    | some (some e), some es => some ((n, e) :: es)
    | _, _ => none

/-- The region cell table as a graph load or a THAW reads it; none where it fails (R176). -/
def Work.readTable (w : Work) (r : Nat) : Option CellTable :=
  match w.localMem (w.region r).rctBase 0x11040 with
  | none => none
  | some a =>
    let h0 := w.tableWord a
    let h1 := w.tableWord (a + 8)
    let h2 := w.tableWord (a + 16)
    let n := fld h0 8 0
    if h0.toNat ≠ n ∨ n = 0 ∨ 256 < n ∨ fld h1 63 56 ≠ 0 ∨ fld h1 5 0 ≠ 0 ∨ 65536 < h2.toNat ∨
        (h2 ≠ 0 ∧ w.localMem h1.toNat (320 * h2.toNat) = none) ∨
        w.pload (a + 24) 40 ≠ 0 then none
    else
      match readEntries (fun g => (w.groveEntry a g).map some) (List.range n) with
      | none => none
      | some gs =>
        let mgs := (Tbl.vals gs).map fun e => e.1
        if repeated mgs || mgs.any fun g => (w.grove g).region.any fun q => q != r then none
        else
          match readEntries (w.cellEntry gs a) (List.range 4096) with
          | none => none
          | some cs =>
            if repeated ((Tbl.vals cs).map fun e => e.1) then none
            else some ⟨n, h1.toNat % 2 ^ 45, h2.toNat, gs, cs⟩

/-! ## The image's own statements -/

/-- Whether a time shape keeps its own limits (R269). -/
def timeShapeOk (x : Word) : Bool :=
  let ws := (List.range 4).map fun i => shWidth x i
  let used := ws.take (shDepth x + 1)
  fld x 63 31 == 0 && (used.all fun n => n != 0) && ((ws.drop (shDepth x + 1)).all fun n => n == 0) &&
    decide (used.sum ≤ 63) && (shDepth x != 0 || fld x 30 27 == 0)

/-- Whether a loop scope's parent suits it (R269). -/
def parentOk (ss : Tbl Word) (x : Word) : Bool :=
  shDepth x == 0 ||
    match Tbl.find ss (fld x 30 27) with
    | none => false
    | some p => shDepth p + 1 == shDepth x && ((List.range (shDepth x)).all fun i => shWidth p i == shWidth x i)

/-- The time shapes of an image as declared. -/
def Image.shapeTable (img : Image) : Tbl Word := img.timeShapes.foldl (fun t e => Tbl.put t e.1 (e.2 ||| 0x1000000)) []

/-- Whether an image's time shapes and frontier slots are accepted (R269, R273). -/
def Image.timesOk (img : Image) : Bool :=
  let ss := Image.shapeTable img
  !repeated (img.timeShapes.map Prod.fst) && !repeated (img.fbinds.map Prod.fst) &&
    (ss.all fun e => decide (e.1 ≤ 14) && timeShapeOk e.2 && parentOk ss e.2) &&
    img.fbinds.all fun e => decide (e.1 < 32) && (Tbl.find ss e.2).isSome

/-- Whether an arrangement's descriptor keeps its limits (R291). `scopeOf` gives the scope that a reader handle reads. -/
def collOk (scopeOf : Nat → Option Nat) (d : BitVec 512) : Bool :=
  let f : Nat → Nat → Nat := fun hi lo => bits d.toNat hi lo
  let byte : Nat → Nat := fun i => f (8 * i + 7) (8 * i)
  let kw := 4 * 2 ^ byte 0
  decide (byte 0 ≤ 2) && decide (byte 1 ≤ 14) && decide (4 ≤ byte 2) && decide (byte 2 ≤ 16) && decide (4 ≤ byte 3) &&
    decide (byte 3 ≤ 10) && decide (kw + byte 4 ≤ 32) && decide (byte 5 ≤ 1) && byte 6 % 2 == 1 && byte 7 == 0 &&
    f 79 64 % 64 == 0 && decide (1 ≤ f 95 80) && decide (f 95 80 ≤ 1024) && decide (f 79 64 + 64 * f 95 80 ≤ 65536) &&
    decide (1 ≤ f 127 96) && decide (f 127 96 < 2 ^ 24) && f 133 128 == 0 && f 191 185 == 0 &&
    (List.range 8).all fun i =>
      if byte 6 / 2 ^ i % 2 = 1 then scopeOf (byte (24 + i)) == some (byte 1) else byte (24 + i) == 0

/-- The arrangements that a node record maintains (R290). -/
def maintained (r : NRec) : List Nat :=
  if nOpc r = 0x32 ∨ nOpc r = 0x35 then [litF r 7 0]
  else if nOpc r = 0x33 ∨ nOpc r = 0x34 then [litF r 7 0, litF r 15 8].eraseDups
  else []

/-- The history nodes of an image by the arrangement they maintain. -/
def Image.keepers (img : Image) : List (Nat × ImgNode) :=
  (img.nodes.map fun n => (maintained n.record).map fun a => (a, n)).flatten

/-- The link-plan entries that the nodes of an image name (R341). -/
def Image.planUses (img : Image) : List Nat :=
  (img.nodes.filter fun n => nOpc n.record == 0x29 || nOpc n.record == 0x2A).map fun n => litF n.record 6 0

/-- Whether an image's arrangements and readers are accepted (R291, R298). -/
def Image.historiesOk (img : Image) : Bool :=
  let slot : Nat → Option Nat := fun h => (img.readers.find? fun e => e.1 == h).map Prod.snd
  let scopeOf : Nat → Option Nat := fun h => (slot h).bind fun k => (img.fbinds.find? fun e => e.1 == k).map Prod.snd
  !repeated (img.readers.map Prod.fst) && !repeated (img.colls.map Prod.fst) &&
    (img.readers.all fun e => decide (e.1 < 256) && decide (e.2 < 32)) &&
    (img.colls.all fun e => decide (e.1 < 256) && collOk scopeOf e.2) && !repeated ((Image.keepers img).map Prod.fst)

/-- Whether an image's link plan is accepted (R341, R342). -/
def Work.planOk (w : Work) (r : Nat) (img : Image) : Bool :=
  let held : Nat → Bool := fun p =>
    w.regions.any fun e => e.1 != r && e.2.plans.any fun q => q.bound && q.entry.port == p
  decide (img.links.length ≤ 72) && !repeated (img.links.map fun e => 4 * e.port + e.group) &&
    (img.links.all fun e => decide (e.port < 24) && decide (1 ≤ e.group) && decide (e.group ≤ 3) && decide (e.role ≤ 1) &&
      decide (e.peer < 2048) && !held e.port) &&
    !repeated (Image.planUses img)

/-- The registry entry of a tile statement (R332, R339). -/
def Work.tileEntry (w : Work) (r : Nat) (t : ImgTile) : Word × Word :=
  (bv 64 (2 ^ 63 + (w.region r).rasid * 2 ^ 57 + t.base % 2 ^ 57), bv 64 (t.size * 2 ^ 32))

/-- Whether an image's tiles may be registered (R339). -/
def Work.tilesOk (w : Work) (r : Nat) (img : Image) : Bool :=
  !repeated (img.tiles.map ImgTile.id) &&
    img.tiles.all fun t => decide (t.id < 65536) && decide (t.base < 2 ^ 57) && decide (t.size < 2 ^ 32) &&
      tileOk (w.tileEntry r t) && !(w.tile t.id).1.getLsbD 63

/-! ## What an image puts into groves and cells -/

/-- The module cell of an image's logical cell. -/
def CellTable.cellAt (t : CellTable) (lc : Nat) : Option Nat := (Tbl.find t.cells lc).map fun e => e.1

/-- Whether a module cell lies in a grove and holds an image's logical cell. -/
def CellTable.inGrove (t : CellTable) (g lc : Nat) : Bool := (t.cellAt lc).any fun mc => mc / 16 == g

/-- Whether the logical cells that a glade's span runs through are consecutive cells of one grove (R376). -/
def CellTable.spanOk (t : CellTable) (z : ImgGlade) : Bool :=
  match t.cellAt z.lcell with
  | none => false
  | some mc =>
    (List.range ((z.offset + z.nslot * z.slotsz + 65535) / 65536)).all fun i =>
      t.cellAt (z.lcell + i) == some (mc + i) && (mc + i) / 16 == mc / 16

/-- Whether an image's glades are accepted (R363, R366, R367, R376). -/
def CellTable.gladesOk (t : CellTable) (img : Image) : Bool :=
  !repeated (img.glades.map fun z => 8 * ((t.cellAt z.lcell).getD 0 / 16) + z.glade) &&
    img.glades.all fun z =>
      decide (z.glade < 8) && decide (z.handle < 256) && decide (z.ab < 16) && decide (z.senders.length ≤ 4) &&
        (z.senders.all fun s => decide (s.1 < 2048) && decide (s.2 < 2048)) && decide (4096 ≤ z.slotsz) &&
        decide (z.slotsz ≤ 65536) && z.slotsz % 4096 == 0 && decide (1 ≤ z.nslot) && decide (z.nslot ≤ 64) &&
        z.offset % 4096 == 0 && decide (z.offset < 65536) && t.spanOk z

/-- The handles of an image in a grove: those of its handle statements, then those of its glades (R236, R367). -/
def CellTable.handles (t : CellTable) (img : Image) (g : Nat) : Tbl Handle :=
  let t1 := (img.handles.filter fun h => t.inGrove g h.lcell).foldl
    (fun a h => Tbl.put a h.handle (Handle.init h.w0 h.w8 h.w24)) []
  (img.glades.filter fun z => t.inGrove g z.lcell).foldl
    (fun a z =>
      let base := (t.cellAt z.lcell).getD 0 % 16 * 65536 + z.offset
      Tbl.put a z.handle ⟨3, base, z.slotsz, z.nslot, List.replicate z.nslot 0, 0, 0, 0⟩) t1

/-- The glades of an image in a grove (R366). -/
def CellTable.glades (t : CellTable) (img : Image) (g : Nat) : Tbl Glade :=
  (img.glades.filter fun z => t.inGrove g z.lcell).foldl
    (fun a z => Tbl.put a z.glade ⟨z.ab, z.handle, z.senders, List.replicate z.nslot GSlot.free, []⟩) []

/-- A cell with no graph: what repair, mappings, time and Flehild hold of it stands (R15, R171, R177, R420). -/
def Cell.blank (c : Cell) : Cell :=
  ({ Cell.reset with
    usable := c.usable, nsuse := c.nsuse, maps := c.maps, classNow := c.classNow, classPrev := c.classPrev,
    intv := c.intv, mssel := c.mssel } : Cell).newInterval

/-- The region as an image declares it, before its records are loaded (R162, R269, R273, R291, R298, R341, R386). -/
def Work.imageRegion (w : Work) (r : Nat) (img : Image) (t : CellTable) : Region :=
  let x := w.region r
  let arr : Nat × BitVec 512 → Nat × Arr := fun e =>
    let at_ := match (Image.keepers img).find? fun k => k.1 == e.1 with
      | some (_, n) => ((t.cellAt n.lcell).getD 0, 1024 * n.ctx + n.node)
      | none => (16 * ((Tbl.vals t.groves).map fun (g : Nat × Nat × Nat) => g.1).headD 0, 4096)
    (e.1, ⟨e.2.setWidth 256, at_.1, at_.2, [], [], [], 0, [0], [0], [], none, w.mod.cycle, [], [], none⟩)
  { Region.reset with
    loaded := true
    table := t
    rasid := x.rasid
    cwdog := x.cwdog
    gid := img.graphId
    rctBase := x.rctBase
    faultq := x.faultq
    tvec := x.tvec
    supBase := img.supBase.getD 0x10000
    thr := x.thr
    bint := x.bint
    balNext := x.balNext
    lastBalance := w.mod.cycle
    freeColours := (List.range (4096 - img.held)).map fun i => img.held + i
    stampNext := 1
    heldN := img.held
    shapes := Image.shapeTable img
    fbind := img.fbinds.foldl (fun a e => Tbl.put a e.1 e.2) []
    readers := img.readers.foldl (fun a e => Tbl.put a e.1 ⟨true, false, e.2, BitVec.allOnes 64⟩) []
    arrs := img.colls.foldl (fun a e => Tbl.put a e.1 (arr e).2) []
    nextFseq := x.nextFseq
    faults := x.faults
    plans := img.links.map fun e => ⟨e, false, false, [], 0, 0, none, false⟩
    dbp := x.dbp
    ibp := x.ibp
    listVa := x.listVa
    listAsid := x.listAsid
    trctl := x.trctl
    trdrop := x.trdrop }

/-- The twig blocks of an image for a cell, or for the matrix element of a grove, written in order (R73, R109). -/
def Cell.takeBlocks (c : Cell) (bs : List ImgTwig) : Cell := bs.foldl (fun d b => d.loadBlock b.addr b.code) c

/-- The header and instructions of a block of an image. -/
def ImgTwig.ok (b : ImgTwig) : Bool :=
  b.addr % 2 == 0 && decide (b.addr + b.code.length ≤ if b.mx then 512 else 2048) &&
    blockOk b.mx (b.code.getD 1 0 ++ b.code.getD 0 0) (b.code.drop 2)

/-- Records of an image loaded into a cell, each checked among those before it; none where one is rejected (R15, R20, R80). -/
def takeNodes (modNo : Nat) (x : Region) (ring : Nat → Bool) : List ImgNode → Cell → Option Cell
  | [], c => some c
  | n :: t, c =>
    if n.ctx < 4 ∧ n.node < 1024 ∧ recordOk modNo x ring c n.ctx n.node n.record = true then
      takeNodes modNo x ring t (c.loadNode n.ctx n.node n.record)
    else none

/-- A cell as an image fills it, with the contexts that hold its records noted (R20, R176, R184, R394). -/
def Work.imageCell (w : Work) (x : Region) (img : Image) (lc mc : Nat) : Option Cell :=
  let c0 := (w.cell mc).blank
  let c1 : Cell :=
    { c0 with shapes := (img.shapes.filter fun s => s.lcell == lc).foldl (fun a s => Tbl.put a s.index s.record) [] }
  let c2 := c1.takeBlocks (img.twigs.filter fun b => b.lcell == lc && !b.mx)
  let hs := x.table.handles img (mc / 16)
  let ns := img.nodes.filter fun n => n.lcell == lc
  (takeNodes w.mod.modNo x (fun h => (Tbl.getD hs h Handle.reset).kind == 2) ns c2).map fun c =>
    { c with graphCtx := ((ns.filter fun n => nOpc n.record != 0).map fun n => n.ctx).eraseDups }

/-- The cells as an image fills them, by module cell. -/
def Work.imageCells (w : Work) (x : Region) (img : Image) : Tbl (Nat × Nat × Nat) → Option (Tbl Cell)
  | [] => some []
  | (lc, mc, _) :: t =>
    match w.imageCell x img lc mc, w.imageCells x img t with
    | some c, some cs => some (Tbl.put cs mc c)
    | _, _ => none

/-- The logical cells that an image uses. -/
def Image.lcells (img : Image) : List Nat :=
  img.nodes.map ImgNode.lcell ++ img.twigs.map ImgTwig.lcell ++ img.handlers.map ImgHandler.lcell ++
    img.shapes.map ImgShape.lcell ++ img.handles.map ImgHandle.lcell ++ img.glades.map ImgGlade.lcell

/-- The ones in a 32-bit mask. -/
def onesIn (m : BitVec 32) : Nat := ((List.range 32).filter fun i => m.getLsbD i).length

/-- Whether an image's statements that name no other object are accepted (R20, R74, R147, R162, R176, R184, R386,
R438). -/
def Image.plainOk (img : Image) (t : CellTable) : Bool :=
  decide (img.groves ≤ t.groves.length) && decide (1 ≤ img.held) && decide (img.held ≤ 4096) && ((Image.lcells img).all fun lc => (t.cellAt lc).isSome) &&
    (img.twigs.all ImgTwig.ok) && (img.shapes.all fun s => decide (s.index < 32) && shapeOk s.record) &&
    (img.handlers.all fun h => decide (h.ttag < 256)) && (img.handles.all fun h => decide (h.handle < 256)) &&
    !repeated (img.nodes.map fun n => 4096 * n.lcell + 1024 * n.ctx + n.node) &&
    decide (img.code.length ≤ 16384) && decide (img.susp.length ≤ 1024) &&
    (img.susp.all fun e => decide (e.1 < 65536) && decide (onesIn e.2 ≤ 16) && !e.2.getLsbD 0) &&
    img.supBase.all fun b => decide (b ≤ 0x10000)

/-! ## A grove taken and released -/

/-- Every listed byte of a range set to zero. -/
def Work.zeroRange (w : Work) (lo n : Nat) : Work :=
  let hit : List Nat := ((w.base ++ w.log).map Prod.fst).filter fun a => decide (lo ≤ a) && decide (a < lo + n)
  hit.foldl (fun v a => v.store a [0]) w

/-- A grove's units with no graph: buffers, residency, wear and Flehild counters stand (R182, R333, R420, R429). -/
def Grove.blank (k : Grove) (region : Option Nat) (gidx : Nat) : Grove :=
  { Grove.reset with
    region := region, gidx := gidx, resid := k.resid, resSince := k.resSince, tlb := k.tlb, ownOsc := k.ownOsc, ownPct := k.ownPct,
    counters := k.counters, snap := k.snap }

/-- A task core with no graph: its program time, L1 and buffer stand (R192, R193). -/
def Core.blank (c : Core) (asid : Nat) : Core := { Core.reset with asid := asid, ptime := c.ptime, l1 := c.l1, tlb := c.tlb }

/-- A grove emptied: units, cells and accumulators (R249, R250, R257). -/
def Work.emptyGrove (w : Work) (g : Nat) (region : Option Nat) (gidx asid : Nat) : Work :=
  let w1 := (((w.updGrove g fun k => k.blank region gidx).updCore g fun c => c.blank asid).setMx g Mx.reset).zeroRange
    (accBase g 0) 0x40000
  (List.range 16).foldl (fun v i => v.updCell (16 * g + i) Cell.blank) w1

/-- A grove filled by an image: task code and its suspension table, handlers and their twigs, handles and glades (R147,
R236, R255, R366). -/
def Work.fillGrove (w : Work) (t : CellTable) (img : Image) (g : Nat) : Work :=
  let code : List Byte := (img.code.map fun x => leBytes 4 x.toNat).flatten
  let mx0 := (img.twigs.filter fun b => b.mx && t.inGrove g b.lcell).foldl (fun m b => m.loadBlock b.addr b.code) Mx.reset
  let mx1 : Mx :=
    { mx0 with handlers := (img.handlers.filter fun h => t.inGrove g h.lcell).foldl (fun a h => Tbl.put a h.ttag h.entry) [] }
  let w1 := ((w.zeroRange (codeBase g) 0x10000).store (codeBase g) code).setMx g mx1
  (w1.updCore g fun c => { c with susp := img.susp.foldl (fun a e => Tbl.put a e.1 e.2) [] }).updGrove g fun k =>
    { k with handles := t.handles img g, glades := t.glades img g }

/-- The streams, openers, invocations and freeze images of what a region held before are no longer its own. -/
def Work.forget (w : Work) (r : Nat) (gs : List Nat) : Work :=
  let mine : Bool → Nat → Bool := fun isCell a => gs.contains (if isCell then a / 16 else a)
  let w1 := w.updMod fun m =>
    { m with
      streams := m.streams.filter fun s => !mine s.isCell s.agent
      openers := m.openers.filter fun s => !mine s.isCell s.agent
      invocations := m.invocations.filter fun v => v.region != r }
  { w1 with images := w1.images.map fun i => if i.src = r then { i with src := noRegion } else i }

/-- Every unit's copy of the bound frontier slots shows the root's frontier (R273, R277). -/
def Work.seedCopies (w : Work) (r : Nat) : Work :=
  let x := w.region r
  let cs : Tbl FCopy := x.fbind.map fun e => (e.1, ⟨Tbl.getD x.rootF e.2 [], 0⟩)
  let w1 := (w.grovesOf r).foldl (fun v g => v.updCore g fun c => { c with fcopies := cs }) w
  (w.cellsOf r).foldl (fun v mc => v.updCell mc fun c => { c with fcopies := cs }) w1

/-- What a region held before is gone, and its groves are those of a new cell table (R18). -/
def Work.takeGroves (w : Work) (r : Nat) (t : CellTable) : Work :=
  let old := w.grovesOf r
  let new := (Tbl.vals t.groves).map fun e => e.1
  let w1 := (old.filter fun g => !new.contains g).foldl (fun v g => v.emptyGrove g none 0 0) (w.forget r old)
  t.groves.foldl (fun v e => v.emptyGrove e.2.1 (some r) e.1 (w.region r).rasid) w1

/-- A graph load rejected: the host, which asked for it, is told Config Reject, and nothing else changes (R20, R380; log
entry 85). -/
def Work.rejectLoad (w : Work) (r : Nat) : Work := w.sendOut (.loadReport r 0x05)

/-- GRAPH_LOAD: an image checked whole, then loaded; a rejected image leaves the region unchanged and is reported (R19, R20,
R380). -/
def execGraphLoad (region : Nat) (img : Image) (s : State) : Out :=
  run s fun w =>
    match w.readTable region with
    | none => w.rejectLoad region
    | some t =>
      let x := w.imageRegion region img t
      if 320 ≤ region ∨ w.mod.bootErr = true ∨ Image.plainOk img t = false ∨ Image.timesOk img = false ∨ Image.historiesOk img = false ∨
          w.planOk region img = false ∨ t.gladesOk img = false ∨ w.tilesOk region img = false then w.rejectLoad region
      else
        match w.imageCells x img t.cells with
        | none => w.rejectLoad region
        | some cs =>
          let gs := (Tbl.vals t.groves).map fun e => e.1
          let w1 := gs.foldl (fun v g => v.fillGrove t img g) (w.takeGroves region t)
          let w2 := (cs.foldl (fun v e => v.setCell e.1 e.2) w1).setRegion region x
          let w3 := img.tiles.foldl (fun v e => v.setTile (.after 0) e.id (v.tileEntry region e)) w2
          let w4 := (Tbl.keys cs).foldl (fun v mc => v.syncCell mc) w3
          let w5 := (Tbl.keys x.shapes).foldl (fun v k => v.recompute region k) w4
          ((w5.seedCopies region).sendBinds x.plans).bindPlans

end Sys2Proof.Machine
end

