-- ==== Sys2Proof/Machine/Maps.lean ====
section
/-! DEFINITION. Mapping a range of module memory into a cell's bank and unmapping it (spec 07 R177 to R179). -/

namespace Sys2Proof.Machine

/-- A cell's mapping entry set. -/
def Work.setMap (w : Work) (mc k : Nat) (m : MapEntry) : Work := w.updCell mc fun c => { c with maps := Tbl.put c.maps k m }

/-- An entry that a write of V = 1 begins to register: VA, W, and the fields of word +8 latched (R177). -/
def MapEntry.latch (m : MapEntry) (value : Word) : MapEntry :=
  { m with
    v := true
    w := value.getLsbD 62
    st := 1
    va := fld value 56 12
    asid := fld m.nextWord 21 16
    boff := fld m.nextWord 15 12
    size := fld m.nextWord 2 0 }

/-- MAP_REGISTER: a write of V = 1 to an entry that is unmapped; any other state ignores it (R177). -/
def execMapRegister (cell k : Nat) (value : Word) (s : State) : Out :=
  run s fun w =>
    let m := (w.cell cell).map k
    if m.st = 0 then w.setMap cell k (m.latch value) else w

/-- MAP_UNMAP: a write of V = 0 to a mapped entry; any other state ignores it (R177, R179). -/
def execMapUnmap (cell k : Nat) (value : Word) (s : State) : Out :=
  run s fun w =>
    let m := (w.cell cell).map k
    if m.st = 2 ∧ value.getLsbD 63 = false then w.setMap cell k { m with v := false, st := 3 } else w

/-- The pages of an entry's range. -/
def MapEntry.pages (m : MapEntry) : Nat := 2 ^ m.size

/-- Whether an entry's size is defined and its range aligned (R178 step 1). -/
def MapEntry.sound (m : MapEntry) : Bool :=
  decide (m.size ≤ 4) && m.va % m.pages == 0 && m.boff % m.pages == 0

/-- The pages of a range translated in order: each page's physical address and attributes (R178 step 2). -/
def mapXlate (asid : Nat) : List Nat → Work → Option (List (Nat × Word) × Work)
  | [], w => some ([], w)
  | va :: t, w =>
    match w.walk asid va with
    | none => none
    | some (x, w1) => (mapXlate asid t w1).map fun p => ((x.pa + (va - x.base), x.attr) :: p.1, p.2)

/-- The local address of a page that grants what a range needs and lies in this module's memory (R178 step 3). -/
def Work.mapPage (w : Work) (needWrite : Bool) (p : Nat × Word) : Option Nat :=
  if p.2.getLsbD 1 ∧ (needWrite = false ∨ p.2.getLsbD 2 = true) then w.localMem p.1 4096 else none

/-- The pages of a range translated, then checked: local page addresses, or the error number (R178 steps 2 and 3). -/
def mapPages (asid : Nat) (needWrite : Bool) (vas : List Nat) (w : Work) : Except Nat (List Nat × Work) :=
  match mapXlate asid vas w with
  | none => .error 1
  | some (ps, w1) =>
    match ps.mapM (w1.mapPage needWrite) with
    | none => .error 2
    | some as => .ok (as, w1)

/-- The pages that mappings of the module hold. -/
def Work.mappedPages (w : Work) : List Nat :=
  ((Tbl.vals w.cells).map fun c => ((Tbl.vals c.maps).map fun m => if 2 ≤ m.st then m.lines else []).flatten).flatten

/-- The 192-byte lines of a list of pages. -/
def pageLines (ps : List Nat) : List Nat :=
  ((ps.map fun a => (List.range ((a + 4095) / 192 + 1 - a / 192)).map fun i => a / 192 + i).flatten).eraseDups

/-- The registrations of a slice among lines. -/
def sliceLoad (lines : List Nat) (sl : Nat) : Nat := (lines.filter fun l => Config.homeSlice l % 320 == sl).length

/-- Whether every slice's directory holds the lines it must, 2,048 each (R178 step 4). -/
def directoryFits (lines : List Nat) : Bool := (List.range 320).all fun sl => decide (sliceLoad lines sl ≤ 2048)

/-- A range registered: its bank's bytes stand in place of every line, as one store, and count in the grove's residency table
(R178 steps 5 and 6, R334). -/
def Work.registered (w : Work) (cell k : Nat) (m : MapEntry) (ps : List Nat) : Work :=
  let p := (pageLines ps).foldl (fun p l => max p ((Tbl.getD w.mod.lineTimes l (0, 0)).2 + 1)) (w.ptime (.cell cell))
  let h := bankBase cell / 65536
  (((w.setMap cell k { m with st := 2, err := 0, lines := ps }).setPtime (.cell cell) p).updMod fun x =>
    { x with homeTimes := Tbl.put x.homeTimes h (max p (Tbl.getD x.homeTimes h 0)) }).residBank
      (cell / 16) m.asid (4096 * m.va) (4096 * m.pages) true

/-- A registration failed, leaving nothing behind (R178). -/
def Work.mapFail (w : Work) (cell k : Nat) (m : MapEntry) (err : Nat) : Work :=
  w.setMap cell k { m with v := false, st := 0, err := err, lines := [] }

/-- A registering range checked in order, then registered; any other state stays (R178). -/
def Work.registerMap (w : Work) (cell k : Nat) : Work :=
  let m := (w.cell cell).map k
  if m.st ≠ 1 then w
  else if m.sound = false then w.mapFail cell k m 5
  else
    match mapPages m.asid m.w ((List.range m.pages).map fun i => 4096 * (m.va + i)) w with
    | .error e => w.mapFail cell k m e
    | .ok (ps, w1) =>
      if ps.any fun a => w1.mappedPages.contains a || decide (1 < ps.count a) then w1.mapFail cell k m 4
      else if directoryFits (pageLines (w1.mappedPages ++ ps)) then w1.registered cell k m ps
      else w1.mapFail cell k m 3

/-- MAP_REGISTRATION_COMPLETE (R178). -/
def execMapRegistrationComplete (cell k : Nat) (s : State) : Out := run s fun w => w.registerMap cell k

/-- The bytes of a range written back to its pages in memory, one page after another. -/
def writeBack (bank : Nat) : List Nat → Nat → Work → Work
  | [], _, w => w
  | a :: t, off, w => writeBack bank t (off + 4096) (w.store a (w.bytes (bank + off) 4096))

/-- A mapped range dropped: its final bytes are stored to memory, and leave the grove's residency table (R179, R334). -/
def Work.unmapped (w : Work) (cell k : Nat) (m : MapEntry) : Work :=
  let p := (pageLines m.lines).foldl (fun p l => max p ((Tbl.getD w.mod.lineTimes l (0, 0)).2 + 1))
    (max (w.ptime (.cell cell)) (Tbl.getD w.mod.homeTimes (bankBase cell / 65536) 0))
  let w1 := (writeBack (bankBase cell) m.lines (m.boff * 4096) w).setMap cell k { m with st := 0, lines := [] }
  ((w1.setPtime (.cell cell) p).updMod fun x =>
    { x with lineTimes := (pageLines m.lines).foldl (fun t l => Tbl.put t l (p, p)) x.lineTimes }).residBank
      (cell / 16) m.asid (4096 * m.va) (4096 * m.pages) false

/-- MAP_UNMAP_COMPLETE: an unmapping range is written back and its registrations dropped (R179). -/
def execMapUnmapComplete (cell k : Nat) (s : State) : Out :=
  run s fun w =>
    let m := (w.cell cell).map k
    if m.st = 3 then w.unmapped cell k m else w

end Sys2Proof.Machine
end

