-- ==== Sys2Proof/Machine/Stamps.lean ====
section
/-! DEFINITION. Cycle stamps of a region's units moved together: time that a region is frozen or stopped counts towards no limit
(spec 01 R33 to R36; 06 R166; 20 R381; 22 R410; log entry 28). -/

namespace Sys2Proof.Machine

/-- A twig's stamps moved. -/
def Twig.timed (f : Nat → Nat) (t : Twig) : Twig :=
  { t with stall := t.stall.map f, busy := t.busy.map fun e => (e.1, f e.2) }

/-- A cell's stamps moved. -/
def Cell.timed (f : Nat → Nat) (c : Cell) : Cell :=
  { c with
    ready := c.ready.map fun e => (e.1, f e.2)
    joins := c.joins.map fun e => (e.1, { e.2 with stuck := e.2.stuck.map f })
    twigs := c.twigs.map fun e => (e.1, e.2.timed f)
    debug := (c.debug).map (Twig.timed f)
    douts := c.douts.map fun e => (e.1, { e.2 with last := f e.2.last }) }

/-- A record's stamps moved. -/
def Record.timed (f : Nat → Nat) (r : Record) : Record := { r with since := r.since.map f }

/-- A task core's stamps moved. -/
def Core.timed (f : Nat → Nat) (c : Core) : Core :=
  { c with
    task := c.task.map fun t => { t with started := f t.started }
    slots := c.slots.map (Record.timed f)
    stall := c.stall.map f
    mailHeld := c.mailHeld.map fun h => { h with since := f h.since } }

/-- A matrix element's stamps moved. -/
def Mx.timed (f : Nat → Nat) (m : Mx) : Mx := { m with twigs := m.twigs.map fun e => (e.1, e.2.timed f) }

/-- An arrangement's stamps moved. -/
def Arr.timed (f : Nat → Nat) (a : Arr) : Arr :=
  { a with
    asks := a.asks.map fun q => (q.1, f q.2.1, q.2.2)
    last := f a.last
    run := a.run.map fun p => { p with stall := p.stall.map f } }

/-- A region's own stamps moved. -/
def Region.timed (f : Nat → Nat) (x : Region) : Region :=
  { x with
    spill := x.spill.map fun e => (e.1, e.2.timed f)
    waitC := x.waitC.map fun e => (e.1, f e.2)
    cpoolSince := x.cpoolSince.map f
    arrs := x.arrs.map fun e => (e.1, e.2.timed f)
    trace := x.trace.map fun t => (t.1, t.2.1, f t.2.2) }

/-- The region of what a watchdog times. -/
def Work.stalledRegion (w : Work) : Stalled → Nat
  | .core g | .mcast g _ | .tag g _ | .store g | .feed g _ | .channel g .. | .mxTwig g _ | .spawn g _ => w.rno g
  | .twig c _ | .chain c .. | .join c _ | .node c .. => w.rno (c / 16)
  | .pass r _ | .group r _ | .stage r _ => r
  | .stream isCell agent _ => w.rno (if isCell then agent / 16 else agent)

/-- The stamps of a region and of its units moved. -/
def Work.timedUnits (w : Work) (r : Nat) (f : Nat → Nat) : Work :=
  let w1 := (w.cellsOf r).foldl (fun v c => v.updCell c (Cell.timed f)) w
  let w2 := (w.grovesOf r).foldl (fun v g => (v.updCore g (Core.timed f)).updMx g (Mx.timed f)) w1
  w2.updRegion r (Region.timed f)

/-- The stamps of a region, of its units and of the watchdogs that time them moved. -/
def Work.timed (w : Work) (r : Nat) (f : Nat → Nat) : Work :=
  (w.timedUnits r f).updMod fun m =>
    { m with
      dogs := m.dogs.map fun d => if w.stalledRegion d.1 = r then (d.1, f d.2.1, d.2.2) else d
      openers := m.openers.map fun o =>
        if w.rno (if o.isCell then o.agent / 16 else o.agent) = r then { o with since := f o.since } else o }

end Sys2Proof.Machine
end

