-- ==== Sys2Proof/Machine/Waves.lean ====
section
/-! DEFINITION. Freeze waves, FREEZE, images, and THAW (spec 20 R396 to R399; 10 R233; 11 R249, R267; 13 R304; 16 R350; 18
R374; 22 R415). -/

namespace Sys2Proof.Machine

/-! ## When a wave has passed (R396, R410) -/

/-- Whether a cell has nothing under way that a wave waits for: no twig that goes on, no output, no token that can enter, no
load that can take effect (R108, R396). -/
def Work.cellStill (w : Work) (mc : Nat) : Bool :=
  let c := w.cell mc
  (c.twigs.all fun t => t.2.stall.isSome) && c.pend.isEmpty && c.outq.isEmpty &&
    (c.pendTwig.all fun b => twigsOverlap c.twigs twigAddr b.1 b.2.length) && c.duePatch.isNone &&
    (match c.nextCtx with
      | some k => decide (k < 4) || c.anyUse
      | none => true) &&
    !w.heldGoes mc &&
    match c.inq with
    | [] => true
    | _ :: _ => !w.canTake mc || w.inputHeld mc

/-- The grove of a stream's agent (R347). -/
def Stream.grove (s : Stream) : Nat := if s.isCell then s.agent / 16 else s.agent

/-- Whether a stream of a region has no request open, or a target fault froze it (R350). -/
def Work.streamStill (w : Work) (r : Nat) (s : Stream) : Bool :=
  s.out.isEmpty || (w.region r).frozen.any fun o =>
    o.okind == 5 && o.cell == s.agent && o.node == (if s.isCell then 1 else 0) && o.what == s.target

/-- Whether an input brings words of a receive entry's group (R358). -/
def carriesWords (e : LinkEntry) : Instr → Bool
  | .messageForward _ _ (.words port group _) => port == e.port && group == e.group
  | _ => false

/-- Whether an input is a packet for a slot of a region (R371). -/
def Work.carriesPacket (w : Work) (r : Nat) : Instr → Bool
  | .gladePacketArrival p => w.rno p.grove == r
  | .messageForward m _ (.packet p) => m == w.mod.modNo && w.rno p.grove == r
  | _ => false

/-- Whether nothing of a region is under way any more: of its receivers, no word that was sent is still to come, and no packet
(R350, R359, R374, R396). -/
def Work.waveDone (w : Work) (r : Nat) : Bool :=
  (w.region r).purge.isEmpty && ((w.cellsOf r).all w.cellStill) &&
    ((w.grovesOf r).all fun g =>
      ((w.mx g).twigs.all fun t => t.2.stall.isSome) &&
        (w.grove g).engines.all fun e => e.2.queue.all fun o => o.wait.isNone && o.acks.isEmpty) &&
    (w.mod.streams.all fun s => w.rno s.grove != r || w.streamStill r s) &&
    (!(w.region r).plans.any fun p => p.bound && p.entry.role == 1 && w.inputs.any (carriesWords p.entry)) &&
    !w.inputs.any (w.carriesPacket r)

/-- A cell's held twigs abandoned: their tokens go back to the store, to fire again (R121, R396). -/
def Work.abandonTwigs (w : Work) (mc : Nat) : Work :=
  (w.cell mc).twigs.foldl (fun v e =>
    let t := e.2
    (v.dropTwig (.twig mc e.1)).restoreFiring
      { fseq := 0, okind := 2, code := 0, stuck := false, grove := mc / 16, cell := mc, node := t.node, colour := t.colour,
        iter := t.iter, toks := List.zip (nPorts t.record) t.ins, task := none, what := 4, aux := 0 }) w

/-- The running task of a core saved as a full record, runnable again at once; the core keeps its number, so that a thaw finds the
task that ran (R149, R396, R400, R415). -/
def Work.saveTask (w : Work) (g : Nat) : Work :=
  let c := (w.core g).landAll
  if c.task.isNone then w
  else
    let x := { c.full g c.suspOrder c.pc with since := some w.mod.cycle, halted := c.halted || c.halting }
    fitSlots 34 g (w.updCore g fun k =>
      { k.landAll.idle with
        halted := false
        halting := false
        kept := some k.suspOrder
        suspOrder := k.suspOrder + 1
        slots := k.slots ++ [x] })

/-- A region halted: tasks saved, passes back at their first bucket, lane groups released (R304, R359, R396). -/
def Work.haltRegion (w : Work) (r : Nat) : Work :=
  let w1 := (w.cellsOf r).foldl Work.abandonTwigs w
  let w2 := (w1.grovesOf r).foldl Work.saveTask w1
  w2.updRegion r fun x =>
    { x with
      halted := true
      stopped := x.stopped || x.stopping.isSome
      stopping := none
      arrs := x.arrs.map fun a => (a.1, { a.2 with run := a.2.run.map fun p => { p with c := a.2.cf, bucket := 0, stall := none } })
      plans := x.plans.map fun p => { p with bound := false, credit := 0 } }

/-! ## Images (R398) -/

/-- An operation as an image holds it: one of R228 that runs stands at the start of its run with the L of that start, a GSEND or
a read-out where it stopped (R233, R374). Pieces of a feed that have been accepted are not sent twice (log entry 45). -/
def EngOp.imaged (o : EngOp) : EngOp :=
  if o.firing ∧ 1 ≤ o.op ∧ o.op ≤ 8 then
    let start := o.runStart
    let gone := (o.sent - start.runSent) * o.piece
    { o with
      moved := o.moved / deRun o.desc * deRun o.desc
      convL := start.runL
      got := []
      payload := if o.op = 2 then start.runPay.drop gone else o.payload
      skip := if o.op = 2 then gone - start.runPay.length else 0
      took := [] }
  else { o with got := [] }

/-- A context as an image holds it: the bytes that its running drain took in its run are back at its port (R230, R233). -/
def Engine.imaged (e : Engine) : Engine :=
  { e with
    drain := ((e.queue.head?.filter fun o => o.firing).map fun o => o.runStart.took).getD [] ++ e.drain
    queue := e.queue.map EngOp.imaged }

/-- A grove's units as an image holds them. -/
def Grove.imaged (k : Grove) : Grove := { k with engines := k.engines.map fun e => (e.1, e.2.imaged) }

/-- The listed bytes of a range of a grove's window, by region grove index and window offset. -/
def Work.windowBytes (w : Work) (i g off n : Nat) : List (Nat × Nat × Byte) :=
  let hit := ((w.base ++ w.log).map Prod.fst).filter fun a =>
    decide (groveBase g + off ≤ a) && decide (a < groveBase g + off + n)
  hit.map fun a => (i, a - groveBase g, w.byte a)

/-- The tokens of a cell's overflow queue, oldest first. -/
def Work.ovTokens (w : Work) (mc : Nat) : List Token :=
  (w.cell mc).ovf.map fun o => tokOfBytes (w.pbytes (w.ovAddr mc o.slot) 64) o.item o.req

/-- A whole number of 64-byte units that holds `n` bytes. -/
def up64 (n : Nat) : Nat := (n + 63) / 64 * 64

/-- What a section is made of in order: items whose layout the spec gives, and opaque items between them (R398). -/
abbrev Parts := List (Option (List Byte))

/-- A section's bytes: an opaque item is free bytes, as many as it may be (R398; log entry 20). -/
def partBytes : Parts → Work → List Byte × Work
  | [], w => ([], w)
  | some bs :: t, w =>
    let q := partBytes t w
    (bs ++ q.1, q.2)
  | none :: t, w =>
    let p := w.fresh
    let x := freshBytes (p.1.toNat % 2 ^ 20) p.2
    let q := partBytes t x.2
    (x.1 ++ q.1, q.2)

/-- The sections of an image in order: type, index, bytes. -/
def sections : List (Nat × Nat × Parts) → Work → List (Nat × Nat × List Byte) × Work
  | [], w => ([], w)
  | (t, i, ps) :: rest, w =>
    let p := partBytes ps w
    let q := sections rest p.2
    ((t, i, p.1) :: q.1, q.2)

/-- The directory of sections from an offset on (R398). -/
def directory : Nat → List (Nat × Nat × List Byte) → List Byte
  | _, [] => []
  | off, (t, i, bs) :: rest =>
    leBytes 8 (t + i * 2 ^ 16 + bs.length * 2 ^ 32) ++ leBytes 8 off ++ directory (up64 (off + bs.length)) rest

/-- Sections laid one after another, each at a 64-byte-aligned offset. -/
def sectionBytes : List (Nat × Nat × List Byte) → List Byte
  | [] => []
  | (_, _, bs) :: rest => bs ++ List.replicate (up64 bs.length - bs.length) 0 ++ sectionBytes rest

/-- The records that a cell holds per context, laid out as NSUSE (R171, R398). -/
def Cell.nrec (c : Cell) : Nat :=
  ((List.range 4).map fun k => (c.nodes.filter fun e => e.1 / 1024 == k).length * 2 ^ (11 * k)).sum

/-- `n` bytes of a window's words, from an offset on. -/
def Work.windowItem (w : Work) (p : Nat → Place) (lo n : Nat) : List Byte :=
  (List.range (n / 8)).flatMap fun i => leBytes 8 ((w.placeWord (p (lo + 8 * i))).getD 0).toNat

/-- The region's section: reader handles (R298), descriptors (R291), waiting fault records (R382) and SUPBASE (R390) in their
layouts. -/
def Work.regionParts (w : Work) (r : Nat) : Parts :=
  [none, some (w.windowItem (.region r) 0x2000 0x1000), some (w.windowItem (.region r) 0x4000 0x4000), none,
    some ((w.region r).faults.flatMap FaultRec.image), none, some (w.windowItem (.region r) 0x810 8)]

/-- A cell's section: NREC, node records by context and node (R62), tokens of the matching store (R75), shape records (R184) and the
mapping table (R177) in their layouts. -/
def Work.cellParts (w : Work) (mc : Nat) : Parts :=
  let c := w.cell mc
  let recs := ((List.range 4096).filterMap (Tbl.find c.nodes)).flatMap fun x => leBytes 12 x.toNat
  [some (leBytes 8 c.nrec ++ recs), none, some (c.entries.flatMap fun e => tokBytes e.tok), none,
    some ((List.range 32).flatMap fun k => leBytes 64 (Tbl.getD c.shapes k 0).toNat),
    some (w.windowItem (.cell mc) 0x100 0x100)]

/-- A grove's section: continuation records and the running task's full record (R148, R149), timelines, ISSUED and ECSTAT (R223,
R224), handles (R236), residency (R333), the glade table (R366), a whole canopy (R249), accumulators and progress counters (R276) in
their layouts. -/
def Work.groveParts (w : Work) (g : Nat) (accs : Bool) : Parts :=
  let k := w.grove g
  [some ((w.core g).slots.flatMap Record.image), none, some (w.windowItem (.tl g) 0 0x40 ++ w.windowItem (.tl g) 0x80 0x80), none,
    some (w.windowItem (.handle g) 0 0x2000 ++ w.windowItem (.resid g) 0 0x1000 ++ w.windowItem (.glade g) 0 0xC00), none] ++
    (if (w.mx g).overflow then [some (w.bytes (groveBase g + 0x2000000) 0x1000000)] else [none]) ++
    [some ((if accs then w.bytes (accBase g 0) 0x40000 else []) ++
      (List.range 1024).flatMap fun i => leBytes 4 (Tbl.getD k.prog i 0))]

/-- The bytes of an image (R398). -/
def Work.imageBytes (w : Work) (r : Nat) (accs : Bool) : List Byte × Work :=
  let x := w.region r
  let secs : List (Nat × Nat × Parts) :=
    [(1, 0, w.regionParts r)] ++ (x.table.cells.map fun e => (2, e.1, w.cellParts e.2.1)) ++
      x.table.groves.map fun e => (3, e.1, w.groveParts e.2.1 accs)
  let whole := (w.grovesOf r).any fun g => (w.mx g).overflow
  let p := sections secs w
  let start := up64 (256 + 16 * secs.length)
  let body := sectionBytes p.1
  let header :=
    leBytes 4 0x5A464948 ++ leBytes 2 1 ++ leBytes 2 ((if accs then 1 else 0) + (if whole then 2 else 0)) ++
      leBytes 8 (start + body.length) ++ leBytes 4 x.gid.toNat ++ leBytes 1 x.rasid ++ leBytes 1 0 ++
      leBytes 2 x.table.ngrove ++ leBytes 2 x.table.cells.length ++ leBytes 2 secs.length ++ leBytes 4 0 ++
      leBytes 4 x.nextFseq ++ leBytes 4 0 ++ leBytes 8 w.mod.cycle ++ List.replicate 208 0
  let dir := directory start p.1
  (header ++ dir ++ List.replicate (start - 256 - dir.length) 0 ++ body, p.2)

/-- Every mapped range of a region unmapped as its image is read out (R179, R397). -/
def Work.unmapRegion (w : Work) (r : Nat) : Work :=
  (w.cellsOf r).foldl (fun v mc => (v.cell mc).maps.foldl (fun u e =>
    if e.2.st = 2 ∨ e.2.st = 3 then u.unmapped mc e.1 e.2
    else if e.2.st = 1 then u.setMap mc e.1 { e.2 with st := 0 }
    else u) v) w

/-- Ranges that a readout unmapped read as not mapped from then on (R177, R397). -/
def Work.clearMaps (w : Work) (r : Nat) : Work :=
  (w.cellsOf r).foldl (fun v mc => v.updCell mc fun c =>
    { c with maps := c.maps.map fun e => (e.1, { e.2 with v := e.2.v && e.2.st != 0 }) }) w

/-- What an image of a halted region holds (R398). -/
def Work.snapshot (w : Work) (r : Nat) (accs : Bool) (raw : List Byte) : FreezeImg :=
  let x := w.region r
  let gs := x.table.groves.map fun e => (e.1, e.2.1)
  let cs := x.table.cells.map fun e => (e.1, e.2.1)
  { src := r
    accs := accs
    raw := raw
    region := x
    cells := cs.map fun e => (e.1, w.cell e.2)
    groves := gs.map fun e => (e.1, (w.grove e.2).imaged)
    cores := gs.map fun e => (e.1, w.core e.2)
    mxs := gs.map fun e => (e.1, w.mx e.2)
    ovf := cs.map fun e => (e.1, w.ovTokens e.2)
    bytes := (gs.map fun e =>
      w.windowBytes e.1 e.2 0x1210000 0x10000 ++
        (if accs then w.windowBytes e.1 e.2 0x1100000 0x40000 else []) ++
        (if (w.mx e.2).overflow then w.windowBytes e.1 e.2 0x2000000 0x1000000 else [])).flatten
    streams := w.mod.streams.filter fun s => w.rno s.grove == r && !s.out.isEmpty
    cycle := w.mod.cycle
    invs := w.mod.invocations.filter fun v => v.region == r }

/-! ## FREEZE (R396, R397) -/

/-- A FREEZE or THAW as its queue entry keeps it: region, address, address space and capacity. -/
def waveDesc (region va asid cap : Nat) : BitVec 512 :=
  bv 512 (region + va * 2 ^ 64 + asid * 2 ^ 128 + cap * 2 ^ 192)

/-- An operation that is no ENG word's marked as done, or ended with an error; an image of its halted region too (R397). -/
def Work.endWave (w : Work) (g k n : Nat) (err : Option Nat) : Work :=
  let f : EngOp → EngOp := fun o => if o.num = n then { o with running := true, firing := false, fires := 1, err := err } else o
  let fe : Engine → Engine := fun e => { e with queue := e.queue.map f }
  let i := (w.grove g).gidx
  let w1 := w.updEngine g k fe
  { w1 with images := w1.images.map fun m =>
      if m.src = w.rno g then
        { m with groves := m.groves.map fun e =>
            if e.1 = i then (e.1, { e.2 with engines := Tbl.put e.2.engines k (fe (e.2.engine k)) }) else e }
      else m }

/-- The queue entry of an operation. -/
def Work.waveOp (w : Work) (g k n : Nat) : BitVec 512 :=
  match ((w.grove g).engine k).queue.find? fun o => o.num == n with
  | some o => o.desc
  | none => 0

/-- The address, capacity and access of a wave's operation. -/
def waveVa (d : BitVec 512) : Nat := bits d.toNat 127 64
def waveCap (d : BitVec 512) : Nat := bits d.toNat 255 192
def waveAcc (g : Nat) (region : Nat) (d : BitVec 512) : Acc := ⟨g, .after 0, bits d.toNat 191 128, false, some region, false, .other⟩

/-- A FREEZE's or THAW's operation is under way from its issue: no SCANC cancels it (R232, R397). -/
def Work.waveBegins (w : Work) (g k n : Nat) : Work :=
  w.updEngine g k fun e => { e with queue := e.queue.map fun o => if o.num = n then { o with running := true } else o }

/-- FREEZE (R397): the wave begins, under the next number of a context, and the peers of glades and groups are told (R374, R396; log
entries 45 and 98); it is held while another wave passes the region. -/
def execFreeze (d a b : BitVec 5) (c : BitVec 3) (s : State) : Out :=
  run s (coreInstr (.freeze d a b c) fun g w => do
    w.needSuper g
    let x := w.g g a
    let r := fld x 8 0
    let va := (w.g g b).toNat
    need (fld x 31 9 == 0 && r != w.rno g && decide (r < 320) && (w.region r).loaded && va % 4096 == 0) 0x09
    let e := (w.grove g).engine c.toNat
    need (!e.holdsSignal) 0x09
    if 16 ≤ e.queue.length ∨ (w.region r).freezing.isSome = true ∨ (w.region r).thawing.isSome = true then .error .stall
    else
      let p := w.enqueueOp g c.toNat 0xFB (waveDesc r va (w.core g).asid (fld x 63 32)) 0 true
      ((((p.2.waveBegins g c.toNat p.1).updRegion r fun y => { y with freezing := some (g, c.toNat, p.1) }).holdPeers r).tellGroups
        r true).give g d (bv 64 p.1))

/-- A new image of a halted region written, if the capacity holds it; it replaces an older one of the region. -/
def Work.writeImage (w : Work) (r g : Nat) (d : BitVec 512) : Option Nat × Work :=
  let p := w.fresh
  let accs := p.1.getLsbD 0
  let img := p.2.imageBytes r accs
  if waveCap d * 65536 < img.1.length then (some 0x09, img.2)
  else
    match (img.2.unmapRegion r).vwrite (waveAcc g (w.rno g) d) (waveVa d) img.1 with
    | .error (c, _) => (some c, img.2)
    | .ok w1 =>
      let m := w1.snapshot r accs img.1
      let w2 := { w1.clearMaps r with images := (w1.images.map fun (i : FreezeImg) => if i.src = r then { i with src := noRegion } else i) ++ [m] }
      (none, w2.updMod fun x =>
        { x with
          streams := x.streams.filter fun s => !m.streams.contains s
          invocations := x.invocations.map fun (v : Invocation) => if v.region = r then { v with region := noRegion } else v })

/-- FREEZE_WAVE: once the wave has passed, the region is halted and its image written; an image that was written of a region
that stays halted is written again as it was (R396, R397). -/
def execFreezeWave (region : Nat) (s : State) : Out :=
  run s fun w =>
    match (w.region region).freezing with
    | none => w
    | some (g, k, n) =>
      if !(w.region region).halted && !w.waveDone region then w
      else
        let w1 := if (w.region region).halted then w else w.haltRegion region
        let w2 := w1.updRegion region fun x => { x with freezing := none }
        let d := w2.waveOp g k n
        match w2.images.find? fun i => i.src == region with
        | some i =>
          if waveCap d * 65536 < i.raw.length then w2.endWave g k n (some 0x09)
          else
            match w2.vwrite (waveAcc g (w2.rno g) d) (waveVa d) i.raw with
            | .error (c, _) => w2.endWave g k n (some c)
            | .ok w3 => w3.endWave g k n none
        | none =>
          let p := w2.writeImage region g d
          p.2.endWave g k n p.1

/-! ## THAW: where things go (R399) -/

/-- The module grove of a new cell table that stands for one of an old (R399). -/
def regrove (old new : CellTable) (g : Nat) : Nat :=
  match old.groves.find? fun e => e.2.1 == g with
  | some e => ((Tbl.find new.groves e.1).map fun x => x.1).getD g
  | none => g

/-- The module cell of a new cell table that stands for one of an old (R399). -/
def recell (old new : CellTable) (mc : Nat) : Nat :=
  match old.cells.find? fun e => e.2.1 == mc with
  | some e => ((Tbl.find new.cells e.1).map fun x => x.1).getD mc
  | none => mc

/-- A launch whose signal stands in a grove that moved. -/
def Launch.moved (mg : Nat → Nat) (l : Launch) : Launch := { l with signal := l.signal.map fun s => (mg s.1, s.2.1, s.2.2) }

/-- A running launch on the groves where its region is now. -/
def Running.moved (mg : Nat → Nat) (u : Running) : Running :=
  { u with
    launch := u.launch.moved mg
    queues := u.queues.map fun q => { q with affinity := q.affinity.map fun a => (a.1, mg a.2) }
    stageOf := u.stageOf.foldl (fun t e => Tbl.put t (mg e.1) e.2) []
    changing := u.changing.map mg
    moving := u.moving.map mg }

/-- A record whose home moved. -/
def Record.moved (mg : Nat → Nat) (x : Record) : Record := { x with home := mg x.home }

/-- A firing whose cell moved; `mc` gives where each cell is. -/
def firedAt (mc : Nat → Nat) (f : Fire) : Fire := { f with cell := mc f.cell }

/-- A frozen object where its unit is now; a frozen task is in its core's slots again (R381). -/
def Frozen.moved (mg mc : Nat → Nat) (o : Frozen) : Frozen :=
  { o with
    grove := mg o.grove
    cell := mc o.cell
    task := o.task.map (Record.moved mg)
    what := if o.okind = 1 then 0 else o.what }

/-- A writer held at a drain port, on the grove where it is now. -/
def Writer.moved (mg : Nat → Nat) : Writer → Writer
  | .core g => .core (mg g)
  | .engine g k => .engine (mg g) k
  | x => x

/-- A grove's units on the grove that takes them; buffers, wear and counters stay that grove's own. -/
def Grove.thawed (mg : Nat → Nat) (r i : Nat) (own k : Grove) : Grove :=
  let op : EngOp → EngOp := fun o => { o with notes := o.notes.map fun n => (mg n.1, n.2), canopy := o.canopy.map mg }
  { k with
    region := some r
    gidx := i
    gq := k.gq.map fun q => { q with grove := mg q.grove }
    engines := k.engines.map fun e =>
      (e.1, { e.2 with queue := e.2.queue.map op, drainHeld := e.2.drainHeld.map fun h => (h.1.moved mg, h.2) })
    tlb := own.tlb
    ownOsc := own.ownOsc
    ownPct := own.ownPct
    counters := own.counters
    snap := own.snap }

/-- A task core's state on the core that takes it; times, L1 and buffer stay that core's own. -/
def Core.thawed (mg : Nat → Nat) (asid : Nat) (own c : Core) : Core :=
  { c with
    slots := c.slots.map (Record.moved mg)
    portWait := c.portWait.map fun p => (p.1, mg p.2.1, p.2.2)
    mailHeld := c.mailHeld.map fun h => { h with src := mg h.src }
    asid := asid
    stall := none
    ptime := own.ptime
    l1 := own.l1
    tlb := own.tlb }

/-- A cell's state on the cell that takes it: repair and counts stay that cell's own; its ranges are to be registered (R178,
R399). -/
def Cell.thawed (mc : Nat) (own c : Cell) : Cell :=
  ({ c with
    usable := own.usable
    nsuse := own.nsuse
    inq := c.inq.map fun e => (0, e.2)
    ovf := []
    ready := c.ready.map fun e => ({ e.1 with cell := mc }, e.2)
    maps := c.maps.map fun e => (e.1, { e.2 with st := if e.2.v then 1 else 0, lines := [] })
    mssel := own.mssel
    classNow := own.classNow
    classPrev := own.classPrev
    intv := own.intv } : Cell).newInterval

/-- The region of an image as the target region takes it: control words that no image holds stay the target's (R175, R399; log
entry 47). -/
def Region.thawed (mg mc : Nat → Nat) (own x : Region) (t : CellTable) (now : Nat) : Region :=
  { x with
    table := t
    cwdog := own.cwdog
    rctBase := own.rctBase
    faultq := own.faultq
    tvec := own.tvec
    thr := own.thr
    bint := own.bint
    lastBalance := now
    balNext := own.balNext
    waitC := x.waitC.map fun e => (firedAt mc e.1, e.2)
    arrs := x.arrs.map fun a =>
      (a.1, { a.2 with cell := mc a.2.cell, asks := a.2.asks.map fun q => (mg q.1, q.2) })
    launchQ := x.launchQ.map (Launch.moved mg)
    running := x.running.map (Running.moved mg)
    resView := []
    frozen := (x.frozen.filter fun o => o.okind != 5).map (Frozen.moved mg mc)
    spill := []
    halted := false
    freezing := none
    thawing := none
    stopHeld := x.stopHeld.map fun h => (mc h.1, h.2)
    stopFire := x.stopFire.map (firedAt mc)
    stopCore := x.stopCore.map mg
    listVa := own.listVa
    listAsid := own.listAsid
    listN := own.listN
    trctl := own.trctl
    trdrop := own.trdrop
    trace := none }

/-- Whether a region whose cell table is as given can take an image (R176, R399). -/
def Work.roomFor (w : Work) (m : FreezeImg) (t : CellTable) : Bool :=
  decide (m.region.table.ngrove ≤ t.ngrove) && decide (m.cells.length ≤ t.cells.length) &&
    (m.cells.all fun e =>
      match Tbl.find t.cells e.1 with
      | none => false
      | some (mc, _, lg) =>
        let own := w.cell mc
        ((List.range 4).all fun k =>
          decide ((e.2.nodes.filter fun n => n.1 / 1024 == k).length ≤ own.nsuse.getD k 0)) &&
          decide ((Tbl.getD m.ovf e.1 []).length + (e.2.entries.length - own.usable) ≤ 2 ^ lg)) &&
    decide (m.region.spill.length ≤ t.spn) &&
    m.mxs.all fun e => decide (e.2.used ≤ packetStore) &&
      decide (e.2.spillUsed ≤ 0x100000 * ((Tbl.find t.groves e.1).map fun x => x.2.2).getD 0)

/-! ## THAW: writing the state (R399) -/

/-- The entries past a repaired cell's usable count, and the image's overflow tokens, put to the new overflow queue (R88,
R399). -/
def Work.reoverflow (w : Work) (mc : Nat) (marks : List OvRec) (toks : List Token) : Work :=
  let c := w.cell mc
  let extra := (c.entries.drop c.usable).map Entry.tok
  let w1 := w.updCell mc fun x => { x with entries := x.entries.take x.usable }
  let w2 := extra.foldl (fun v t => (v.ovPut mc false t).1) w1
  (List.zip marks toks).foldl (fun v e => (v.ovPutAt mc (v.cell mc).ovf.length e.1.collided e.1.exempt e.2).1) w2

/-- Records put back into the spill area (R151, R399). -/
def Work.respill (w : Work) (r : Nat) (xs : List Record) : Work :=
  xs.foldl (fun v x => (v.spillPut r x).getD v) w

/-- A latch filled again from the canopy as it stands; one that was loading is full (R250, R267). -/
def Latch.reload (l : Latch) (g : Nat) (w : Work) : Latch × Work :=
  if l.loaded then
    let cols := allBanks g l.off l.kb (List.range 32) w
    let scs := if l.skind = 0 then ([], cols.2)
      else allBanks g l.sboff (colScales l.kb l.fmt * kindBytes l.skind) (List.range 32) cols.2
    ({ l with st := if l.st = 1 then 2 else l.st, cols := cols.1, scales := scs.1 }, scs.2)
  else (l, w)

/-- The beats of a replayed copy, on a context that no program names. -/
def replayBeats (g : Nat) : Nat → Work → Work
  | 0, w => w
  | n + 1, w =>
    match ((w.grove g).engine 8).queue with
    | o :: _ =>
      if o.err.isSome ∨ o.wait.isSome then w
      else if o.moved < deTotal o.desc then replayBeats g n (engBeat g 8 o w)
      else engEnd g 8 o w
    | [] => w

/-- A grove's canopy source list replayed in order from memory as it stands; a canopy that an image holds whole is not
replayed (R249, R399). -/
def Work.replayCanopy (w : Work) (g : Nat) : Work :=
  if (w.mx g).overflow then w else
  let r := w.rno g
  let asid := (w.region r).rasid
  let w1 := (w.mx g).srcList.foldl (fun v e =>
    let o := { EngOp.new 0 1 e.1 0 true v.mod.maxTime with running := true, firing := true }
    let v1 := (v.updRegion r fun x => { x with rasid := e.2 }).updEngine g 8 fun k => { k with queue := [o] }
    replayBeats g (deTotal e.1 + 1) v1) w
  (w1.updRegion r fun x => { x with rasid := asid }).updGrove g fun k => { k with engines := Tbl.del k.engines 8 }

/-- A grove's canopy replayed, then its latches filled again (R249, R267, R399). -/
def Work.rewarm (w : Work) (g : Nat) : Work :=
  let w1 := w.replayCanopy g
  let a := (w1.mx g).active.reload g w1
  let b := (a.2.mx g).shadow.reload g a.2
  b.2.updMx g fun m => { m with active := a.1, shadow := b.1 }

/-- The state of an image written over a region whose groves are empty (R399 step 1). -/
def Work.restore (w : Work) (r : Nat) (m : FreezeImg) (t : CellTable) : Work :=
  let old := m.region.table
  let mg := regrove old t
  let mc := recell old t
  let own := w.region r
  let groves := t.groves.map fun e => (e.1, e.2.1)
  let w1 := groves.foldl (fun v e =>
    let g := e.2
    let k := v.grove g
    let v1 := v.setGrove g ((Tbl.getD m.groves e.1 (k.blank none 0)).thawed mg r e.1 k)
    let v2 := v1.setCore g ((Tbl.getD m.cores e.1 Core.reset).thawed mg m.region.rasid (v.core g))
    let x := Tbl.getD m.mxs e.1 Mx.reset
    let v3 := (v2.setMx g x).zeroRange (codeBase g) 0x10000
    if x.overflow then v3.zeroRange (groveBase g + 0x2000000) 0x1000000 else v3) w
  let w2 := m.bytes.foldl (fun v e =>
    match Tbl.find t.groves e.1 with
    | some x => v.store (groveBase x.1 + e.2.1) [e.2.2]
    | none => v) w1
  let w3 := w2.setRegion r (Region.thawed mg mc own m.region t w.mod.cycle)
  let w4 := m.cells.foldl (fun v e =>
    match Tbl.find t.cells e.1 with
    | some x => (v.setCell x.1 (e.2.thawed x.1 (v.cell x.1))).reoverflow x.1 e.2.ovf (Tbl.getD m.ovf e.1 [])
    | none => v) w3
  let w5 := w4.respill r ((Tbl.vals m.region.spill).map (Record.moved mg))
  (Tbl.vals (w5.region r).arrs).foldl (fun v a => v.sapStore a 0) w5

/-- The ranges of an image's cells registered again; whether one failed (R178, R399 step 3). -/
def Work.remap (w : Work) (r : Nat) : Bool × Work :=
  (w.cellsOf r).foldl (fun p mc => ((p.2.cell mc).maps.map Prod.fst).foldl (fun q k =>
    if ((q.2.cell mc).map k).st = 1 then
      let v := q.2.registerMap mc k
      (q.1 || ((v.cell mc).map k).st == 0, v)
    else q) p) (false, w)

/-- Glade peers told where the groves of a thawed region are now (R374, R399 step 4). -/
def Work.rejoinPeers (w : Work) (r : Nat) (old : CellTable) : Work :=
  (w.region r).table.groves.foldl (fun v e =>
    let was := ((Tbl.find old.groves e.1).map fun x => x.1).getD e.2.1
    v.tellPeers e.2.1 fun sending m y z k =>
      .gladeResume m w.mod.modNo sending (if sending then was else y) z k w.mod.modNo e.2.1) (w.markHeld r false)

/-- The streams of an image, their requests retried in order over the routes that lead there now and the queued ones sent behind them,
or lost with none; the invocations it had accepted (R350, R355). -/
def Work.restream (w : Work) (r : Nat) (m : FreezeImg) : Work :=
  let old := m.region.table
  let t := (w.region r).table
  let agent : Stream → Nat := fun s => if s.isCell then recell old t s.agent else regrove old t s.agent
  let w1 := w.updMod fun x =>
    { x with
      streams := x.streams ++ m.streams.map fun s => { s with agent := agent s, port := (w.route s.target).getD s.port }
      invocations := x.invocations.map fun v =>
        if v.region = noRegion ∧ (m.invs.any fun u => u.entry == v.entry && u.n == v.n && u.ident == v.ident) = true then
          { v with region := r } else v }
  m.streams.foldl (fun v s =>
    match v.route s.target, v.mod.stream s.isCell (agent s) s.target with
    | some _, some t => v.resumeStream t s.agent false
    | none, some t => v.breakStream t
    | _, none => v) w1

/-- What the agents of a thawed region access from then on follows every access performed before (R192, R211). -/
def Work.thawTimes (w : Work) (r : Nat) : Work :=
  let w1 := (w.grovesOf r).foldl (fun v g => v.follow (.mx g) w.mod.maxTime) w
  (w.cellsOf r).foldl (fun v mc => v.acquireCell mc) w1

/-- A core's task that ran when the wave saved it: where HALT had stopped it, or its region stands stopped, it is its core's task
again (R400, R415). -/
def Work.thawTask (w : Work) (r g : Nat) : Work :=
  let c := w.core g
  match c.slots.find? fun x => some x.order == c.kept && x.trap.isSome && (x.halted || (w.region r).stopped) with
  | some x => (w.updCore g fun k => { k with slots := k.slots.erase x }).resumeOn g x
  | none => w

/-- Packets that wait for a thaw go to the groves where their slots are now (R374; log entry 98). -/
def Work.redirectPackets (w : Work) (r : Nat) (m : FreezeImg) : Work :=
  let mg := regrove m.region.table (w.region r).table
  let mine : Nat → Bool := fun g => m.region.table.groves.any fun e => e.2.1 == g
  { w with inputs := w.inputs.map fun i => match i with
      | .gladePacketArrival p => if mine p.grove then .gladePacketArrival { p with grove := mg p.grove } else i
      | _ => i }

/-- A region takes an image, and runs or stands stopped as it did; the time that it stood counts for nothing (R36, R399). The mark says
whether every range was registered. -/
def Work.thaw (w : Work) (r : Nat) (m : FreezeImg) (t : CellTable) : Bool × Work :=
  let away := w.mod.cycle - m.cycle
  let w0 := (((w.takeGroves r t).restore r m t).timedUnits r fun c => c + away).thawTimes r
  let w1 := (w0.grovesOf r).foldl (fun v g => v.thawTask r g) w0
  let w2 := (w1.grovesOf r).foldl Work.rewarm w1
  let p := w2.remap r
  let w3 := (((p.2.rejoinPeers r m.region.table).redirectPackets r m).restream r m)
  let w4 := (w3.sendBinds (w3.region r).plans).bindPlans
  (!p.1, (Tbl.keys (w4.region r).shapes).foldl (fun v k => v.recompute r k) w4)

/-- THAW (R399): under the next number of a context; it is held while another wave meets the region. -/
def execThaw (d a b : BitVec 5) (c : BitVec 3) (s : State) : Out :=
  run s (coreInstr (.thaw d a b c) fun g w => do
    w.needSuper g
    let x := w.g g a
    let r := fld x 8 0
    let va := (w.g g b).toNat
    let y := w.region r
    need (fld x 63 9 == 0 && r != w.rno g && decide (r < 320) && (!y.loaded || y.halted) && va % 4096 == 0) 0x09
    let e := (w.grove g).engine c.toNat
    need (!e.holdsSignal) 0x09
    if 16 ≤ e.queue.length ∨ y.freezing.isSome = true ∨ y.thawing.isSome = true then .error .stall
    else
      let p := w.enqueueOp g c.toNat 0xFA (waveDesc r va (w.core g).asid 0) 0 true
      ((p.2.waveBegins g c.toNat p.1).updRegion r fun z => { z with thawing := some (g, c.toNat, p.1) }).give g d (bv 64 p.1))

/-- What the opaque items of an image hold that another module wrote: the spec gives them no layout, and software only copies them
(R398; log entry 20). -/
opaque imageOf : List Byte → Option FreezeImg

/-- The image whose header stands at an address, of this module or copied from another: a copy's state is what its bytes stand for,
with what the header names as the header has it (R398, R399). -/
def Work.imageAt (w : Work) (g : Nat) (d : BitVec 512) (hd : List Byte) : Option FreezeImg :=
  let f : Nat → Nat → Nat := fun off n => leNat ((hd.drop off).take n)
  match w.images.find? fun i => i.raw.take 256 == hd with
  | some m => some m
  | none =>
    if f 0 4 ≠ 0x5A464948 ∨ f 4 2 ≠ 1 then none
    else
      match w.vread (waveAcc g (w.rno g) d) (waveVa d) (f 8 8) with
      | .error _ => none
      | .ok (bs, _) =>
        (imageOf bs).map fun m =>
          { m with
            src := noRegion
            raw := bs
            region := { m.region with
              gid := bv 32 (f 16 4), rasid := f 20 1 % 64, nextFseq := f 32 4, table := { m.region.table with ngrove := f 22 2 } } }

/-- THAW_COMPLETE: the image found by its header, and restored; error 0x20 where the region cannot hold it, 0x09 where a
range is not registered or no image stands at the address (R399; log entry 20). -/
def execThawComplete (region : Nat) (s : State) : Out :=
  run s fun w0 =>
    match (w0.region region).thawing with
    | none => w0
    | some (g, k, n) =>
      let w := w0.updRegion region fun x => { x with thawing := none }
      let d := w.waveOp g k n
      match w.vread (waveAcc g (w.rno g) d) (waveVa d) 256 with
      | .error (c, _) => w.endWave g k n (some c)
      | .ok (hd, w1) =>
        match w1.imageAt g d hd with
        | none => w1.endWave g k n (some 0x09)
        | some m =>
          match w1.readTable region with
          | none => w1.endWave g k n (some 0x20)
          | some t =>
            if w1.roomFor m t then
              let p := w1.thaw region m t
              p.2.endWave g k n (if p.1 then none else some 0x09)
            else w1.endWave g k n (some 0x20)

end Sys2Proof.Machine
end

