-- ==== Sys2Proof/Machine/Stops.lean ====
section
/-! DEFINITION. Stops at a breakpoint or command, steps and listing at a stop, and snapshots (spec 22 R410 to R413, R421). -/

namespace Sys2Proof.Machine

/-! ## Stops (R410, R411) -/

/-- STOP_COMPLETE: once the stop's wave has passed, the region is stopped; glade and group peers hold (R359, R374, R410). -/
def execStopComplete (region : Nat) (s : State) : Out :=
  run s fun w =>
    let x := w.region region
    if x.stopping.isNone || x.halted || !w.waveDone region then w
    else
      let w1 := (w.cellsOf region).foldl Work.abandonTwigs w
      ((w1.holdPeers region).tellGroups region true).updRegion region fun y => { y with stopped := true, stopping := none }

/-- FCMD_STOP: a region that runs stops by command: AUX marks it MANUAL (R410, R411). -/
def execFcmdStop (region : Nat) (s : State) : Out :=
  run s fun w =>
    let x := w.region region
    if x.loaded && x.runs then
      w.beginStop region { w.blank 0 0x31 with grove := 0, aux := 0x200 } id
    else w

/-- Whether a command names the stop of a region that is stopped (R411). -/
def Region.stopIs (x : Region) (fseq : BitVec 32) : Bool :=
  x.stopped && !x.halted && x.freezing.isNone && x.stop.any fun f => f.fseq == fseq.toNat

/-- FCMD_RESUME_RETRY (R411). -/
def execFcmdResumeRetry (region : Nat) (fseq : BitVec 32) (s : State) : Out :=
  run s fun w => if (w.region region).stopIs fseq then w.resume region false else w

/-- FCMD_RESUME_DISCARD (R411). -/
def execFcmdResumeDiscard (region : Nat) (fseq : BitVec 32) (s : State) : Out :=
  run s fun w => if (w.region region).stopIs fseq then w.resume region true else w

/-! ## Steps (R412) -/

/-- A stopped instance launched into its cell's debug slot (R412). -/
def Work.launchDebug (w : Work) (f : Fire) (x : Inst) : Work :=
  let p := freshTemps w
  let w1 := p.2.updCell f.cell fun c =>
    { c.freeEntries x.ids with debug := some (twigOf f x c.code p.1 c.twigOrder), twigOrder := c.twigOrder + 1 }
  w1.traced f.cell true (fireToken f x (w.logical f.cell))

/-- The next instruction of an agent performed before anything else (R412; log entry 19). -/
def Work.runNext (w : Work) (a : Agent) : Work := { w with moves := .run a :: w.moves }

/-- The next instruction of a cell's debug slot, and its commit with the last (R412). -/
def Work.stepDebug (w : Work) (mc : Nat) : Work :=
  { w with moves := .run (.debug mc) :: .event (.twigCommit (.debug mc)) :: w.moves }

/-- A step of a stopped twig instance: the first launches it, and each issues an instruction (R412). -/
def Work.stepFire (w : Work) (f : Fire) : Work :=
  match (w.cell f.cell).debug with
  | some t => if t.isDone then w else w.stepDebug f.cell
  | none =>
    match (w.cell f.cell).inst f with
    | some x => if x.ids.contains f.entry then (w.launchDebug f x).stepDebug f.cell else w
    | none => w

/-- FCMD_STEP (R412). -/
def execFcmdStep (region : Nat) (fseq : BitVec 32) (s : State) : Out :=
  run s fun w =>
    let x := w.region region
    if !x.stopIs fseq then w
    else
      match x.stopFire, x.stopCore with
      | some f, _ => w.stepFire f
      | none, some g => if (w.core g).task.isSome then w.runNext (.core g) else w
      | none, none => w

/-! ## Listing (R413) -/

/-- An entry's place in a list: logical cell, node, port, colour, iteration (R413). -/
def listKey (lc : Nat) (e : Entry) : Nat :=
  (((lc * 1024 + e.node) * 8 + e.port) * 4096 + e.tok.colour.toNat) * 65536 + e.tok.iter.toNat

/-- A token put into a list by rising key, after those of the same key. -/
def listPut (x : Nat × Token) : List (Nat × Token) → List (Nat × Token)
  | [] => [x]
  | y :: t => if x.1 < y.1 then x :: y :: t else y :: listPut x t

/-- The tokens of a region's matching stores in the order of the list (R413). -/
def Work.listed (w : Work) (r : Nat) : List Token :=
  let all := ((w.region r).table.cells.map fun e => (w.cell e.2.1).entries.map fun n => (listKey e.1 n, n.tok)).flatten
  (all.foldl (fun l x => listPut x l) []).map Prod.snd

/-- A write of a region's control window that follows every time given so far (R192, R413). -/
def Work.windowFollows (w : Work) (r : Nat) : Work := w.homeAccess (.after w.mod.maxTime) (0x100800000000 + r * 0x10000)

/-- FCMD_LIST: a record for every token, from LISTVA on, then LISTN, whose readers follow the records' writes; where a record
cannot be written LISTN stays (R413). -/
def execFcmdList (region : Nat) (s : State) : Out :=
  run s fun w =>
    let x := w.region region
    if x.stopped = false ∨ x.halted = true then w
    else
      let ts := w.listed region
      let a : Acc := ⟨(w.mgrove region 0).getD 0, .after 0, x.listAsid, false, some region, false, .other⟩
      match w.vwrite a x.listVa (ts.map tokBytes).flatten with
      | .ok w1 => (w1.updRegion region fun y => { y with listN := ts.length }).windowFollows region
      | .error _ => w

/-! ## Snapshots (R421) -/

/-- A grove's snapshot block, word by word (R421). -/
def Work.snapBlock (w : Work) (n g : Nat) : List Word :=
  let k := w.grove g
  let cells := (List.range 16).map fun i => w.cell (16 * g + i)
  [bv 64 n, bv 64 w.mod.cycle] ++ ((List.range 16).map fun i => w.ctstat (16 * g + i)) ++ [w.tcstat g] ++
    ((List.range 8).map fun i => bv 64 (k.engine i).tl) ++ [bv 64 (w.mx g).tlm, 0, 0, 0, 0] ++
    (cells.map fun c => (List.range 9).map fun i => bv 64 (c.classNow.getD i 0)).flatten

/-- SNAPTRIG: every grove's block latched, in one step (R421). -/
def execSnaptrig (s : State) : Out :=
  run s fun w =>
    let n := w.mod.snapN + 1
    let blocks := (List.range 320).map fun g => (g, w.snapBlock n g)
    blocks.foldl (fun v e => v.updGrove e.1 fun k => { k with snap := e.2 }) (w.updMod fun m => { m with snapN := n })

end Sys2Proof.Machine
end

