-- ==== Sys2Proof/Machine/Clock.lean ====
section
/-! DEFINITION. What time brings: walks of the translation service, program times and their rebase, stall watchdogs,
throttling and the wear forecast (spec 01 R16, R35; 07 R183; 08 R194, R195; 23 R428, R429). -/

namespace Sys2Proof.Machine

/-! ## The translation service (R183) -/

/-- The walk of a key under way at the first die whose service makes one (R183). -/
def Mod.walkOf (m : Mod) (asid vpn : Nat) : Option Miss :=
  ((List.range 4).map m.walking).flatten.find? fun q => q.asid == asid && q.vpn == vpn

/-- TRANSLATION_WALK: a walk completes; each grove that waits takes the translation, or each waiter a fault of its own
(R183). -/
def execTranslationWalk (asid vpn : Nat) (s : State) : Out :=
  run s fun w =>
    match w.mod.walkOf asid vpn with
    | none => w
    | some q => (w.updMod fun m => m.countWalk q.die (q.waits.length - 1)).finishWalk q

/-! ## Program times (R192 to R195) -/

/-- PROGRAM_TIME_ADVANCE: a core that runs a task raises its program time by 1 (R194). -/
def execProgramTimeAdvance (grove : Nat) (s : State) : Out :=
  run s fun w =>
    if (w.core grove).task.isSome then w.setPtime (.core grove) ((w.core grove).ptime + 1) else w

/-- What a rebase takes from every time: one common amount (R195; log entry 27). -/
def rebaseBy : Nat := 2 ^ 47

/-- Whether a rebase is due: a time comes near 2^48 − 2^32 (R195). -/
def Mod.rebaseDue (m : Mod) : Bool := decide (2 ^ 48 - 2 ^ 33 ≤ m.maxTime)

/-- A core's times after a rebase: its program time is first raised to the amount, as any core may raise it (R194), so that no
time that still counts is cut short; a copy expired by then leaves (R195; log entry 27). -/
def Core.rebase (c : Core) : Core :=
  let p := max c.ptime rebaseBy
  { c with
    ptime := p - rebaseBy
    l1 := (c.l1.filter fun l => decide (p ≤ l.e)).map fun l => { l with w := l.w - rebaseBy, e := l.e - rebaseBy } }

/-- TIME_REBASE: every program time, write time, lease end and home time lowered by one amount; a home's time below it, which
every program time then passes, becomes 0 (R195). -/
def execTimeRebase (s : State) : Out :=
  run s fun w =>
    if w.mod.rebaseDue then
      { w with
        cores := w.cores.map fun e => (e.1, e.2.rebase)
        groves := w.groves.map fun e =>
          (e.1, { e.2 with engines := e.2.engines.map fun k =>
            (k.1, { k.2 with queue := k.2.queue.map fun o => { o with itime := o.itime - rebaseBy } }) })
        mod := { w.mod with
          lineTimes := w.mod.lineTimes.map fun e => (e.1, (e.2.1 - rebaseBy, e.2.2 - rebaseBy))
          homeTimes := w.mod.homeTimes.map fun e => (e.1, e.2 - rebaseBy)
          ptimes := w.mod.ptimes.map fun e => (e.1, e.2 - rebaseBy)
          maxTime := w.mod.maxTime - rebaseBy } }
    else w

/-! ## Stall watchdogs (R35) -/

/-- The watchdogs' period (R35). -/
def dogPeriod : Nat := 2 ^ 20

/-- An NPJOIN's lowest branch that keeps it from a permit while another branch has a token (R247). -/
def Join.stuckAt (j : Join) : Option Nat :=
  if j.live.any fun b => decide (1 ≤ j.counts.getD b 0) then j.live.find? fun b => j.counts.getD b 0 == 0 else none

/-- A multicast's lowest branch with no free slot while its input is ready (R247). -/
def Work.castStuck (w : Work) (g k : Nat) : Option Nat :=
  match ((w.grove g).engine k).queue with
  | o :: _ =>
    if o.op = 4 ∧ o.mayFire = true ∧ w.inputReady g o.bind = true then
      (List.range (deBranches o.desc)).find? fun j =>
        !o.detached.contains j && ((w.grove g).handle (deBranch o.desc j)).free == 0
    else none
  | [] => none

/-- A chain's request that names no predecessor where the chain names no successor (R188). -/
def Cell.chainStuck (c : Cell) (k i : Nat) : Option MemReq :=
  match c.chain (bv 12 k) (bv 16 i) with
  | some x =>
    if x.lastsucc = 0xFFF then
      c.reqs.find? fun q => !q.unord && q.colour.toNat == k && q.iter.toNat == i && q.opred == 0xFFF && !x.admits q
    else none
  | none => none

/-- Whether a tag holds k-steps and has none queued (R258). -/
def Tag.stuck (t : Tag) : Bool := t.frozen.isNone && !t.held.isEmpty && t.queue.all fun i => i.kind != 0

/-- A feed's head that has a piece to send (R229). -/
def Work.feedAt (w : Work) (g k : Nat) (form : Nat) : Bool :=
  match ((w.grove g).engine k).queue with
  | o :: _ => o.running && o.pieceDue && bits (deDst o.desc) 63 62 == form && !o.cancelled && o.err.isNone
  | [] => false

/-- Whether a packet of a feed finds the packet store and its spill area full (R256). -/
def Work.storeStuck (w : Work) (g : Nat) : Bool :=
  (List.range 8).any fun k =>
    w.feedAt g k 1 &&
      match ((w.grove g).engine k).queue with
      | o :: _ => ((w.mx g).packetPlace (w.packetSpill g) (32 * deOut o.desc (deRun o.desc))).isNone
      | [] => false

/-- Whether a feed's word finds its mail channel full (R155, R229). -/
def Work.feedStuck (w : Work) (g k : Nat) : Bool :=
  w.feedAt g k 2 &&
    match ((w.grove g).engine k).queue with
    | o :: _ =>
      (match w.mgrove (w.rno g) (bits (deDst o.desc) 31 24) with
        | some h => decide (8 ≤ ((w.core h).chan (bits (deDst o.desc) 5 0)).length)
        | none => false)
    | [] => false

/-- The head record of a stage's queue that waits for a group's slot (R326). -/
def Running.stuckHead (u : Running) (s : Nat) : Option TRec := (u.queue s).recs.head?.filter u.groupWaits

/-- The tags of the NTASK instances of a cell that have their tokens and find their stage's queue full (R35, R321). -/
def Work.ntasksHeld (w : Work) (mc : Nat) : List Fire :=
  ((w.cell mc).fires mc).filter fun f =>
    match (w.cell mc).inst f with
    | some x => nOpc x.r == 0x1C && w.mayFire f && !w.opReady f x
    | none => false

/-- The record of a task that SPAWN has suspended, while its stage's queue is full (R35, R158). -/
def Work.spawnHeld (w : Work) (g order : Nat) : Option Record :=
  (w.waiting (w.rno g)).find? fun x =>
    x.home == g && x.order == order && x.wait == 3 && !((w.regOf g).running.any fun u => u.room x.wobj)

/-- Whether the sender of a word held for a channel is a task core, which is stalled itself (R155, R172). -/
def Work.coreHolds (w : Work) (g : Nat) (h : HeldWord) : Bool :=
  h.desig == 0 && (w.core h.src).portWait == some (1, g, h.chan)

/-- The cycle since which something is stalled, where it is: as its unit has noted it, or the present cycle. -/
def Work.stalledSince (w : Work) (d : Stalled) : Option Nat :=
  let now := w.mod.cycle
  let at_ : Bool → Option Nat := fun b => if b then some now else none
  match d with
  | .core g =>
    if (w.core g).task.isNone then none
    else if (w.core g).portWait.isSome then some ((w.core g).stall.getD now) else (w.core g).stall
  | .twig c k => (w.twigAt (.twig c k)).bind fun t => t.stall
  | .mxTwig g k => (w.twigAt (.mx g k)).bind fun t => t.stall
  | .chain c k i => at_ ((w.cell c).chainStuck k i).isSome
  | .join c n => if ((w.cell c).join n).stuckAt.isSome then some (((w.cell c).join n).stuck.getD now) else none
  | .mcast g k => at_ (w.castStuck g k).isSome
  | .tag g n => at_ ((w.mx g).tag n).stuck
  | .store g => at_ (w.storeStuck g)
  | .pass r a => ((w.region r).arr a).bind fun x => x.run.bind fun p => p.stall
  | .group r g => at_ ((w.region r).running.any fun u => u.changing.contains g)
  | .stage r s => at_ ((w.region r).running.any fun u => (u.stuckHead s).isSome)
  | .stream isCell agent target =>
    (w.mod.openers.find? fun o => o.isCell == isCell && o.agent == agent && o.target == target).map fun o => o.since
  | .feed g k => at_ (w.feedStuck g k)
  | .node c n k i => at_ ((w.ntasksHeld c).any fun f => f.node == n && f.colour.toNat == k && f.iter.toNat == i)
  | .spawn g k => at_ (w.spawnHeld g k).isSome
  | .channel g ch src d t =>
    ((w.core g).mailHeld.find? fun h => h.chan == ch && h.src == src && h.desig == d && h.since == t && !w.coreHolds g h).map
      fun h => h.since

/-- A record that names an object of a cell. -/
def FaultRec.ofCell (w : Work) (mc node : Nat) (c : BitVec 12) (i : BitVec 16) (f : FaultRec) : FaultRec :=
  { f with cell := some (mc % 16), node := w.nodeField mc node 0, tag := tagField c i }

/-- A task core's designator among those of its region (R209, R392). -/
def Work.coreField (w : Work) (g : Nat) : Nat := 16 + (w.grove g).gidx * 256

/-- The fault a stall watchdog raises, with what names the blocked object (R35, R247, R258, R303, R323, R326, R349, R382;
log entry 28). -/
def Work.bark (w : Work) (d : Stalled) : Work :=
  let dog := w.watchdog
  match d with
  | .core g =>
    let t := (w.core g).cur
    dog g fun f =>
      { f with tag := tagField t.colour t.iter, pc := (w.core g).pc.toNat, wid := t.wid, aux2 := bv 64 (w.coreField g) }
  | .twig c k =>
    match w.twigAt (.twig c k) with
    | some t =>
      dog (c / 16) fun f => { f.ofCell w c t.node t.colour t.iter with aux2 := bv 64 (w.nodeField c t.node 0) }
    | none => w
  | .mxTwig g k =>
    match w.twigAt (.mx g k) with
    | some t => dog g fun f => { f with tag := tagField t.colour 0, aux := tokW (t.ins.getD 0 (mkNull 0 0 0 0 0)) 0, aux2 := bv 64 (w.grove g).gidx }
    | none => w
  | .node c n k i => dog (c / 16) fun f => { f.ofCell w c n (bv 12 k) (bv 16 i) with aux2 := bv 64 (w.nodeField c n 0) }
  | .spawn g k =>
    match w.spawnHeld g k with
    | some x =>
      dog g fun f =>
        { f with tag := tagField x.task.colour x.task.iter, pc := x.pc.toNat, wid := x.task.wid, aux2 := bv 64 x.wobj }
    | none => w
  | .chain c k i =>
    match (w.cell c).chainStuck k i with
    | some q => dog (c / 16) fun f =>
        { f.ofCell w c q.node q.colour q.iter with addr := q.addr, aux := bv 64 q.oseq, aux2 := bv 64 (w.nodeField c q.node 0) }
    | none => w
  | .join c n =>
    dog (c / 16) fun f =>
      { f.ofCell w c n 0 0 with aux := bv 64 (((w.cell c).join n).stuckAt.getD 0), aux2 := bv 64 (w.nodeField c n 0) }
  | .mcast g k => dog g fun f => { f with aux := bv 64 ((w.castStuck g k).getD 0), aux2 := bv 64 k }
  | .tag g n =>
    dog g fun f => { f with tag := n + ((w.mx g).tag n).next * 2 ^ 16, aux2 := bv 64 (n + ((w.mx g).tag n).next * 2 ^ 16) }
  | .store g => dog g fun f => { f with aux2 := bv 64 (w.grove g).gidx }
  | .pass r a =>
    match (w.region r).arr a with
    | some x =>
      w.post r { (w.blank (x.cell / 16) 0x21).ofCell w x.cell (x.node % 1024) 0 0 with aux := bv 64 a, aux2 := bv 64 a }
    | none => w
  | .group _ g => dog g fun f => { f with aux2 := bv 64 (w.grove g).gidx }
  | .stage r s =>
    match (w.region r).running.bind fun u => u.stuckHead s with
    | some x => w.post r { w.blank ((w.mgrove r 0).getD 0) 0x21 with wid := trWid x, aux2 := bv 64 s }
    | none => w
  | .stream isCell agent target =>
    let g := if isCell then agent / 16 else agent
    let t := (w.core g).cur
    dog g fun f =>
      let x := if isCell then { f with cell := some (agent % 16) } else
        { f with tag := tagField t.colour t.iter, pc := (w.core g).pc.toNat, wid := t.wid }
      { x with aux2 := bv 64 (target + (w.regOf g).rasid * 2 ^ 16) }
  | .feed g k => dog g fun f => { f with aux2 := bv 64 k }
  | .channel _ ch src d _ =>
    dog src fun f => { f with aux := bv 64 ch, aux2 := bv 64 (d % 2 ^ 32) }

/-- STALL_WATCHDOG: what has been stalled for the period is named by a fault, once for each stall, and keeps waiting
(R35). -/
def execStallWatchdog (what : Stalled) (s : State) : Out :=
  run s fun w =>
    match w.mod.dogs.find? fun d => d.1 == what with
    | some (_, since, false) =>
      if since + dogPeriod ≤ w.mod.cycle ∧ (w.stalledSince what).isSome = true then
        (w.bark what).updMod fun m =>
          { m with dogs := m.dogs.map fun d => if d.1 = what then (what, since, true) else d }
      else w
    | _ => w

/-! ## The clock and wear (R428, R429) -/

/-- THROTTLE_CHANGE: the present clock and what throttles it; RATIO stays from 0x2000 to 0x8000 (R428). -/
def execThrottleChange (supply power therm : Bool) (ratio : BitVec 16) (s : State) : Out :=
  run s fun w =>
    let r := max 0x2000 (min 0x8000 ratio.toNat)
    w.updMod fun m => { m with clk := bv 64 (r + bit therm 16 + bit power 17 + bit supply 18) }

/-- The periods of 2^32 cycles that have passed since reset (R429). -/
def Mod.wearPeriod (m : Mod) : Nat := m.cycle / 2 ^ 32

/-- The slowing and the wear of a grove's own oscillator as an update gives them (R429; log entry 12). -/
def Work.ownWear (n g : Nat) (w : Work) : Work :=
  w.updGrove g fun k => { k with ownOsc := (Config.wearOwn n g false).toNat, ownPct := (Config.wearOwn n g true).toNat }

/-- WEAR_UPDATE: a new forecast whole, once per 2^32 cycles; fewer than 30 days left set HERR bit 1 (R429). -/
def execWearUpdate (eolDays : BitVec 16) (wgrove : BitVec 9) (wpct : BitVec 8) (s : State) : Out :=
  run s fun w =>
    let n := w.mod.wearPeriod
    if n ≤ w.mod.wearAt then w
    else
      ((List.range 320).foldl (fun v g => v.ownWear n g) w).updMod fun m =>
        { m with
          eolDays := eolDays.toNat
          wgrove := wgrove.toNat
          wpct := wpct.toNat
          wearAt := n
          herr := if eolDays.toNat < 30 then m.herr ||| 2 else m.herr }

end Sys2Proof.Machine
end

