-- ==== Sys2Proof/Machine/Control.lean ====
section
/-! DEFINITION. Control transfers, hardware loops, the end of a twig block or task, and the traps a program takes and
returns from (spec 05 R137 to R140; 20 R389). -/

namespace Sys2Proof.Machine

/-- A displacement in words from the instruction's own address (R66, R137). -/
def Core.target (c : Core) (i : BitVec 18) : BitVec 16 := c.pc + (i.signExtend 64 * 4).setWidth 16

/-- BR: to the target if the condition holds of register c, otherwise on (R137). -/
def execBr (c : BitVec 5) (k : BitVec 3) (i : BitVec 18) (s : State) : Out :=
  run s (coreInstr (.br c k i) fun g w =>
    if condBr k.toNat (w.g g c) then w.jump g ((w.core g).target i) else w.next g)

/-- JAL: link, then jump (R138). -/
def execJal (c : BitVec 5) (i : BitVec 18) (s : State) : Out :=
  run s (coreInstr (.jal c i) fun g w =>
    let k := w.core g
    (w.jump g (k.target i)).map fun w1 => w1.updCore g fun x => x.setReg c (k.pc4.setWidth 64))

/-- JR: the target is read before the link is written; it must be a whole word's address (R138). -/
def execJr (d a : BitVec 5) (i : BitVec 16) (s : State) : Out :=
  run s (coreInstr (.jr d a i) fun g w => do
    let k := w.core g
    let t := w.g g a + i.signExtend 64
    needAt (t.extractLsb' 0 2 = 0) 0x03 t.toNat
    let w1 ← w.jump g (t.setWidth 16)
    return w1.updCore g fun x => x.setReg d (k.pc4.setWidth 64))

/-- LOOP: skip the body on a count of 0, otherwise start the one hardware loop (R139); the skip is a jump, which leaves an outer
loop as it stands (log entry 92). -/
def execLoop (c : BitVec 5) (i : BitVec 18) (s : State) : Out :=
  run s (coreInstr (.loop c i) fun g w => do
    let k := w.core g
    let count := w.g g c
    let last := k.pc + (i * 4).setWidth 16
    if count = 0 then
      w.enter g (last + 4)
      return w.setCore g { k with pc := last + 4 }
    else
      need (!k.loopActive) 0x01
      w.enter g k.pc4
      return w.setCore g
        { k with loopActive := true, bodyStart := k.pc4, bodyEnd := last, loopcnt := count, pc := k.pc4 })

/-- EXIT: in a twig the block's last word; in a task core the end of the running task (R140, R323). -/
def execExit (s : State) : Out :=
  run s fun w =>
    match w.turn with
    | .core _ => coreInstr .exit (fun g x =>
        .ok ((x.endTask (x.rno g) (x.core g).cur.wid).updCore g fun c => c.idle)) w
    | a =>
      match w.twigAt a with
      | some t => w.setTwig a t.adv
      | none => w

/-- TRAP: a trap with code 0x30 and the number (R387, R389); as a body's last word it saves the address past the body with the
loop active (log entry 92). -/
def execTrap (n : BitVec 5) (s : State) : Out :=
  run s fun w =>
    match w.turn with
    | .core g =>
      if (w.core g).task = none ∨ (w.core g).halted = true then w
      else w.raise g 0x30 0 (n.setWidth 64) (some n.toNat)
    | _ => w

/-- ERET: return from the trap handler, in supervisor mode and inside a trap only (R388, R389). -/
def execEret (s : State) : Out :=
  run s (coreInstr .eret fun g w => do
    w.needSuper g
    need (w.core g).trap.intrap 0x01
    return w.updCore g fun c => c.return)

/-- NOP: the PC alone changes (R389). -/
def execNop (s : State) : Out := run s (coreInstr .nop fun g w => w.next g)

/-- A word that is no defined instruction: Illegal Instruction, precise, on a task core (R80). -/
def execIllegalInstruction (s : State) : Out := run s (coreRun fun _ _ => .error (flt 0x01))

end Sys2Proof.Machine
end

