-- ==== Sys2Proof/Machine/Sign.lean ====
section
/-! DEFINITION. Ed25519 keys, signatures and their check, which boot and attestation use (spec 23 R426, R427; log entry 12: the
scheme is the one its name means, RFC 8032). -/

namespace Sys2Proof.Machine

/-- The field's prime. -/
def edP : Nat := 2 ^ 255 - 19

/-- The order of the base point. -/
def edL : Nat := 2 ^ 252 + 27742317777372353535851937790883648493

/-- A power modulo a number, its exponent read from `n` bits. -/
def powMod (m : Nat) : Nat → Nat → Nat → Nat
  | 0, _, _ => 1
  | n + 1, b, e => (if e % 2 = 1 then b else 1) * powMod m n (b * b % m) (e / 2) % m

/-- The inverse of a field element. -/
def edInv (x : Nat) : Nat := powMod edP 255 x (edP - 2)

/-- The curve's constant. -/
def edD : Nat := (edP - 121665) * edInv 121666 % edP

/-- A point of the curve with `x = X / Z`, `y = Y / Z`, and `T = X Y / Z`. -/
structure EdPoint where
  x : Nat
  y : Nat
  z : Nat
  t : Nat
deriving DecidableEq, Repr

/-- The neutral point. -/
def EdPoint.zero : EdPoint := ⟨0, 1, 1, 0⟩

/-- The sum of two points. -/
def EdPoint.add (a b : EdPoint) : EdPoint :=
  let p := (a.y + edP - a.x) * (b.y + edP - b.x) % edP
  let q := (a.y + a.x) * (b.y + b.x) % edP
  let c := 2 * a.t * b.t * edD % edP
  let d := 2 * a.z * b.z % edP
  let e := q + edP - p
  let f := d + edP - c
  let g := d + c
  let h := q + p
  ⟨e * f % edP, g * h % edP, f * g % edP, e * h % edP⟩

/-- A multiple of a point, its factor read from `n` bits. -/
def EdPoint.mul : Nat → Nat → EdPoint → EdPoint
  | 0, _, _ => EdPoint.zero
  | n + 1, k, a =>
    let r := EdPoint.mul n (k / 2) (a.add a)
    if k % 2 = 1 then r.add a else r

/-- A point as 32 bytes: `y`, and the lowest bit of `x` at the top. -/
def EdPoint.bytes (a : EdPoint) : List Byte :=
  let i := edInv a.z
  leBytes 32 (a.y * i % edP + a.x * i % edP % 2 * 2 ^ 255)

/-- The point that 32 bytes name, if they name one. -/
def edPoint (bs : List Byte) : Option EdPoint :=
  let n := leNat bs
  let y := n % 2 ^ 255
  let u := (y * y + edP - 1) % edP
  let v := (edD * (y * y % edP) + 1) % edP
  let w := u * edInv v % edP
  let r := powMod edP 255 w ((edP + 3) / 8)
  let x := if r * r % edP = w then r else r * powMod edP 255 2 ((edP - 1) / 4) % edP
  if bs.length ≠ 32 ∨ edP ≤ y ∨ x * x % edP ≠ w ∨ (x = 0 ∧ 2 ^ 255 ≤ n) then none
  else
    let s := if x % 2 = n / 2 ^ 255 then x else edP - x
    some ⟨s, y, 1, s * y % edP⟩

/-- The base point. -/
def edBase : EdPoint := (edPoint (leBytes 32 (4 * edInv 5 % edP))).getD EdPoint.zero

/-- The secret factor that 32 secret bytes give. -/
def edFactor (secret : List Byte) : Nat := leNat ((sha512 secret).take 32) % 2 ^ 254 / 8 * 8 + 2 ^ 254

/-- The public key of 32 secret bytes. -/
def edPublic (secret : List Byte) : List Byte := (edBase.mul 256 (edFactor secret)).bytes

/-- The number that binds a signature's first half, a key and a message. -/
def edBind (r key msg : List Byte) : Nat := leNat (sha512 (r ++ key ++ msg)) % edL

/-- The signature of a message under 32 secret bytes, 64 bytes. -/
def edSign (secret msg : List Byte) : List Byte :=
  let n := leNat (sha512 ((sha512 secret).drop 32 ++ msg)) % edL
  let r := (edBase.mul 256 n).bytes
  r ++ leBytes 32 ((n + edBind r (edPublic secret) msg * edFactor secret) % edL)

/-- Whether a signature of a message holds under a public key. -/
def edVerify (key msg sig : List Byte) : Bool :=
  let s := leNat (sig.drop 32)
  match edPoint key, edPoint (sig.take 32) with
  | some a, some r =>
    sig.length == 64 && decide (s < edL) &&
      (edBase.mul 256 s).bytes == (r.add (a.mul 256 (edBind (sig.take 32) key msg))).bytes
  | _, _ => false

end Sys2Proof.Machine
end

