-- ==== Sys2Proof/Machine/Hosts.lean ====
section
/-! DEFINITION. The host port, the host queue, module reset with its signed boot, and attestation (spec 00 R7; 23 R422 to
R427). -/

namespace Sys2Proof.Machine

/-! ## Host windows (R422 to R424) -/

/-- The local address of the module control window (R168). -/
def controlBase : Nat := 0x100C00000000

/-- The local address that an offset of a host window maps, or none past the window's end (R422, R423). -/
def Mod.windowAt (m : Mod) (window off : Nat) : Option Nat :=
  if window = 0 then (if off < 0x10000 then some (controlBase + off) else none)
  else if window ≤ 3 ∧ off < 2 ^ 36 then some (Tbl.getD m.hwBase window 0 * 2 ^ 36 + off)
  else none

/-- Which host window an access that reaches BAR 2-3 is one of: offsets of window 1 from 64 GiB on belong to window 2, which
follows it in that BAR (R422). -/
def hostBar (window off : Nat) : Nat × Nat := if window = 1 ∧ 2 ^ 36 ≤ off then (2, off - 2 ^ 36) else (window, off)

/-- HERR bits set. -/
def Work.setHerr (w : Work) (b : Nat) : Work := w.updMod fun m => { m with herr := m.herr ||| b }

/-- What a host read is answered with. -/
def Work.answerHost (w : Work) (window : Nat) (v : Word) : Work := w.sendOut (.hostData window v)

/-- HOST_WINDOW_ACCESS: one read or write of the host, of 1 to 8 bytes, through a window; a refused one reads all ones or
is discarded, and sets HERR bit 0 (R170, R423). After a failed boot window 0 alone answers (R426). Each window is an agent
(R424), and window 1's BAR runs on into window 2 (R422). -/
def execHostWindowAccess (window : Nat) (write : Bool) (offset size : Nat) (value : Word) (s : State) : Out :=
  run s fun w =>
    let bar := hostBar window offset
    if size = 0 ∨ 8 < size ∨ (w.mod.bootErr = true ∧ bar.1 ≠ 0) then w
    else
      match w.mod.windowAt bar.1 bar.2 with
      | none => w
      | some la =>
        let pa := w.mod.modNo * 2 ^ 45 + la
        if write then
          match w.pwrite (accHost bar.1) pa (leBytes size value.toNat) with
          | .ok w1 => w1
          | .error _ => w.setHerr 1
        else
          match w.pread (accHost bar.1) pa size with
          | .ok (bs, w1) => w1.answerHost bar.1 (bv 64 (leNat bs))
          | .error _ => (w.setHerr 1).answerHost bar.1 (bv 64 (2 ^ (8 * size) - 1))

/-- REGISTER_WRITE: an aligned 8-byte write of a register's word at a local address, field by field as its access codes
say (R7, R170), made as window 0's (log entry 13); an address with no such word keeps everything as it is. -/
def execRegisterWrite (addr : Nat) (value : Word) (s : State) : Out :=
  run s fun w =>
    match w.pwrite (accHost 0) (w.mod.modNo * 2 ^ 45 + addr) (leBytes 8 value.toNat) with
    | .ok w1 => w1
    | .error _ => w

/-! ## The host queue (R425) -/

/-- HQBASE_WRITE: the ring set; a stopped queue restarts at HQHEAD (R425). -/
def execHqbaseWrite (value : Word) (s : State) : Out :=
  run s fun w => w.updMod fun m => { m with hqBase := value &&& 0x1FFFFFFFF00F, hqStopped := false }

/-- HQTAIL_WRITE: the entries up to the new tail pending; a stopped queue restarts at HQHEAD (R425). -/
def execHqtailWrite (value : BitVec 32) (s : State) : Out :=
  run s fun w => w.updMod fun m => { m with hqTail := value, hqStopped := false }

/-- Whether the host queue takes entries: some are pending and it has not stopped (R425, R426). -/
def Mod.queueTakes (m : Mod) : Bool := !m.hqStopped && m.hqHead != m.hqTail && !m.bootErr

/-- The local address of the entry at HQHEAD (R425). -/
def Mod.entryAt (m : Mod) : Nat := fld m.hqBase 44 12 * 4096 + 64 * (m.hqHead.toNat % 2 ^ fld m.hqBase 3 0)

/-- The queue stopped at its entry, which cannot be read or answered (R425). -/
def Work.stopQueue (w : Work) : Work := (w.updMod fun m => { m with hqStopped := true }).setHerr 4

/-- The queue's own accesses: each follows every access performed before (R425; log entry 13). -/
def Work.accQueue (w : Work) (g asid : Nat) (region : Option Nat) : Acc :=
  ⟨g, .after w.mod.maxTime, asid, false, region, false, .other⟩

/-- RESULT written and HQHEAD advanced, in that order (R425). -/
def Work.answerEntry (w : Work) (code : Nat) (signal : Word) : Work :=
  let a := w.mod.entryAt + 16
  match w.pwrite (w.accQueue 0 0 none) (w.mod.modNo * 2 ^ 45 + a) (leBytes 8 (2 ^ 63 + fld signal 31 0 * 2 ^ 16 + code)) with
  | .ok w1 =>
    (w1.updMod fun m => { m with hqHead := m.hqHead + 1 }).homeAccess (.after w1.mod.maxTime) (w1.loc (controlBase + 0xD030))
  | .error _ => w.stopQueue

/-- The entry at HQHEAD taken by its device: `eff` gives its effect from ASID, REGION and ARG, or holds the queue. An OP
other than 1 and 2 is refused with Illegal, a REGION out of range with Permission (R425). -/
def Work.takeEntry (w : Work) (mine : Nat → Bool) (eff : Nat → Nat → Word → Work → Option (Nat × Word × Work)) : Work :=
  if w.mod.queueTakes then
    let a := w.mod.entryAt
    if a + 64 ≤ memTop ∧ w.pspoilt a 64 = false then
      let op := w.pload a 1
      let region := w.pload (a + 2) 2
      if mine op then
        let w1 := w.readTime (.after w.mod.maxTime) (w.loc a)
        if op ≠ 1 ∧ op ≠ 2 then w1.answerEntry 0x01 0
        else if 320 ≤ region then w1.answerEntry 0x09 0
        else
          match eff (w.pload (a + 1) 1) region (bv 64 (w.pload (a + 8) 8)) w1 with
          | none => w
          | some (code, signal, w2) => w2.answerEntry code signal
      else w
    else w.stopQueue
  else w

/-- A launch entry's effect: checked and queued as LAUNCH is, or held while its queue or context has no room (R327, R425). -/
def Work.hostLaunch (asid region : Nat) (arg : Word) (w : Work) : Option (Nat × Word × Work) :=
  match w.readLaunch (w.accQueue ((w.mgrove region 0).getD 0) asid (some region)) region arg.toNat with
  | .error (.fault code _ _) => some (code, 0, w)
  | .error _ => none
  | .ok (r, l, w1) => (w1.acceptLaunch r l).map fun p => (0, p.1, p.2)

/-- HOST_QUEUE_LAUNCH: a launch entry taken, and any entry whose OP the queue refuses (R425). -/
def execHostQueueLaunch (s : State) : Out := run s fun w => w.takeEntry (fun op => op != 2) Work.hostLaunch

/-- A release entry's effect (R384, R425). -/
def Work.hostRelease (_asid region : Nat) (arg : Word) (w : Work) : Option (Nat × Word × Work) :=
  if fld arg 61 32 ≠ 0 ∨ 2 ≤ fld arg 63 62 ∨ (w.region region).loaded = false then some (0, 0, w)
  else some (0, 0, w.askedRelease region (fld arg 63 62 == 1) (arg.setWidth 32))

/-- HOST_QUEUE_RELEASE: a release entry taken (R425). -/
def execHostQueueRelease (s : State) : Out := run s fun w => w.takeEntry (fun op => op == 2) Work.hostRelease

/-! ## Reset and signed boot (R426) -/

/-- Whether a boot stage passes: the key's digest is the fused one, and the image's digest is signed with that key (R426). -/
def stagePasses (n : Nat) : Bool :=
  sha512 Config.bootKey == Config.fusedDigest && edVerify Config.bootKey (sha512 (Config.bootImage n)) (Config.bootSignature n)

/-- How many boot stages pass, in order, before the first that fails (R426; log entry 12). -/
def bootPasses : Nat → Nat → Nat
  | 0, n => n
  | fuel + 1, n => if stagePasses n then bootPasses fuel (n + 1) else n

/-- The entry that a passed stage appends to the measured-boot log (R426). -/
def bootEntry (n : Nat) : List Byte := leBytes 8 n ++ sha512 (Config.bootImage n)

/-- The measured-boot log after `n` stages. -/
def bootLogOf (n : Nat) : List Byte := ((List.range n).map bootEntry).flatten

/-- The module's registers at reset, with what the device is made of kept: its number and its wear (log entry 12). -/
def Mod.afterReset (m : Mod) : Mod :=
  let n := bootPasses Config.bootStages 0
  { Mod.reset with
    modNo := m.modNo
    eolDays := m.eolDays
    wgrove := m.wgrove
    wpct := m.wpct
    ringFrom := m.ringTick
    ringTick := m.ringTick
    bootStage := n
    bootErr := decide (n < Config.bootStages)
    bootLog := bv 64 (m.modNo * 2 ^ 45 + Config.bootLogAt) }

/-- Whether a listed byte lies outside every canopy window (R169, R248). -/
def kept (e : Host.Cell) : Bool :=
  match placeOf e.1 with
  | .canopy _ => false
  | _ => true

/-- MODULE_RESET: every unit at its reset value, then signed boot, whose passed stages are measured into the log; a failed
check stops the boot (R426). Memory keeps its bytes but for the canopies, whose contents are lost (R248), and the counts of free values go on (log entry
12). -/
def execModuleReset (s : State) : Out :=
  let d : Dev :=
    { Dev.reset with
      mod := s.mod.afterReset, outbox := s.outbox, ways := s.ways, tick := s.tick, freeCtr := s.freeCtr, images := s.images
      groves := s.groves.map fun e => (e.1, { Grove.reset with ownOsc := e.2.ownOsc, ownPct := e.2.ownPct }) }
  let w := ({ d with base := s.mem.filter kept, log := [] } : Work).store Config.bootLogAt (bootLogOf d.mod.bootStage)
  .next { w.toDev with mem := Memory.write w.base w.log }

/-! ## Attestation (R427) -/

/-- The bytes of a report before its signature (R427): nonce, digest of the log, identity key, S.WEAR, whose own-grove
fields no rule gives here, so they are free (log entry 12). -/
def Work.attested (w : Work) : List Byte × Work :=
  let log := w.pbytes (w.mod.bootLog.toNat % 2 ^ 45) (72 * w.mod.bootStage)
  let own := freshBytes 2 w
  let wear := leBytes 8 (w.mod.eolDays * 2 ^ 48 + w.mod.wgrove * 2 ^ 32 + w.mod.wpct * 2 ^ 24)
  (w.mod.nonce ++ sha512 log ++ edPublic Config.idSecret ++ own.1 ++ wear.drop 2, own.2)

/-- ATTREQ: the signed report written at BOOTLOG + 64 KiB, and ATTREQ reads 0 (R427). -/
def execAttreq (s : State) : Out :=
  run s fun w =>
    if w.mod.attreq then
      let r := w.attested
      let sig := edSign Config.idSecret (sha512 r.1)
      let a := r.2.mod.bootLog.toNat % 2 ^ 45 + 0x10000
      let w1 := r.2.updMod fun m => { m with attreq := false }
      if a + 200 ≤ memTop then (pstore a (r.1 ++ sig) w1).writeTime (.after w1.mod.maxTime) (w1.loc a) else w1
    else w

end Sys2Proof.Machine
end

