-- ==== Sys2Proof/Machine/Dispatch.lean ====
section
/-! DEFINITION. The dispatcher: one arm for each constructor of Instr, each a direct call of its meaning. -/

namespace Sys2Proof.Machine

def exec (i : Instr) (s : State) : Host.Outcome State Fault Refusal :=
  match i with
  | .add d a b t g => Sys2Proof.Machine.execAdd d a b t g s
  | .sub d a b t g => Sys2Proof.Machine.execSub d a b t g s
  | .mul d a b t g => Sys2Proof.Machine.execMul d a b t g s
  | .mulh d a b t g => Sys2Proof.Machine.execMulh d a b t g s
  | .mulhu d a b t g => Sys2Proof.Machine.execMulhu d a b t g s
  | .and d a b t g => Sys2Proof.Machine.execAnd d a b t g s
  | .or d a b t g => Sys2Proof.Machine.execOr d a b t g s
  | .xor d a b t g => Sys2Proof.Machine.execXor d a b t g s
  | .shl d a b t g => Sys2Proof.Machine.execShl d a b t g s
  | .shr d a b t g => Sys2Proof.Machine.execShr d a b t g s
  | .sra d a b t g => Sys2Proof.Machine.execSra d a b t g s
  | .min d a b t g => Sys2Proof.Machine.execMin d a b t g s
  | .max d a b t g => Sys2Proof.Machine.execMax d a b t g s
  | .minu d a b t g => Sys2Proof.Machine.execMinu d a b t g s
  | .maxu d a b t g => Sys2Proof.Machine.execMaxu d a b t g s
  | .cmp d a b t c => Sys2Proof.Machine.execCmp d a b t c s
  | .sel d a b t g => Sys2Proof.Machine.execSel d a b t g s
  | .clz d a t g => Sys2Proof.Machine.execClz d a t g s
  | .popc d a t g => Sys2Proof.Machine.execPopc d a t g s
  | .sext d a b g => Sys2Proof.Machine.execSext d a b g s
  | .div d a b t => Sys2Proof.Machine.execDiv d a b t s
  | .divu d a b t => Sys2Proof.Machine.execDivu d a b t s
  | .rem d a b t => Sys2Proof.Machine.execRem d a b t s
  | .remu d a b t => Sys2Proof.Machine.execRemu d a b t s
  | .fadd d a b t g => Sys2Proof.Machine.execFadd d a b t g s
  | .fsub d a b t g => Sys2Proof.Machine.execFsub d a b t g s
  | .fmul d a b t g => Sys2Proof.Machine.execFmul d a b t g s
  | .ffma d a b t g => Sys2Proof.Machine.execFfma d a b t g s
  | .fmin d a b t g => Sys2Proof.Machine.execFmin d a b t g s
  | .fmax d a b t g => Sys2Proof.Machine.execFmax d a b t g s
  | .fcmp d a b t c => Sys2Proof.Machine.execFcmp d a b t c s
  | .fcvt d a dst src => Sys2Proof.Machine.execFcvt d a dst src s
  | .frcp d a t g => Sys2Proof.Machine.execFrcp d a t g s
  | .fsqrt d a t g => Sys2Proof.Machine.execFsqrt d a t g s
  | .fexp2 d a t g => Sys2Proof.Machine.execFexp2 d a t g s
  | .vadd d a b t g => Sys2Proof.Machine.execVadd d a b t g s
  | .vsub d a b t g => Sys2Proof.Machine.execVsub d a b t g s
  | .vmul d a b t g => Sys2Proof.Machine.execVmul d a b t g s
  | .vfma d a b t g => Sys2Proof.Machine.execVfma d a b t g s
  | .vmin d a b t g => Sys2Proof.Machine.execVmin d a b t g s
  | .vmax d a b t g => Sys2Proof.Machine.execVmax d a b t g s
  | .vcmp d a b t c => Sys2Proof.Machine.execVcmp d a b t c s
  | .vsel d a b t g => Sys2Proof.Machine.execVsel d a b t g s
  | .vcvt d a dst src => Sys2Proof.Machine.execVcvt d a dst src s
  | .vred d a t r => Sys2Proof.Machine.execVred d a t r s
  | .vshuf d a b t g => Sys2Proof.Machine.execVshuf d a b t g s
  | .vbcast d a t g => Sys2Proof.Machine.execVbcast d a t g s
  | .vpack d a b t g => Sys2Proof.Machine.execVpack d a b t g s
  | .vunpk d a t g => Sys2Proof.Machine.execVunpk d a t g s
  | .vexp2 d a t g => Sys2Proof.Machine.execVexp2 d a t g s
  | .vrcp d a t g => Sys2Proof.Machine.execVrcp d a t g s
  | .addi d a im => Sys2Proof.Machine.execAddi d a im s
  | .andi d a im => Sys2Proof.Machine.execAndi d a im s
  | .ori d a im => Sys2Proof.Machine.execOri d a im s
  | .xori d a im => Sys2Proof.Machine.execXori d a im s
  | .shli d a n => Sys2Proof.Machine.execShli d a n s
  | .shri d a n => Sys2Proof.Machine.execShri d a n s
  | .srai d a n => Sys2Proof.Machine.execSrai d a n s
  | .cmpi d a c im => Sys2Proof.Machine.execCmpi d a c im s
  | .lih d a im => Sys2Proof.Machine.execLih d a im s
  | .br c k im => Sys2Proof.Machine.execBr c k im s
  | .jal c im => Sys2Proof.Machine.execJal c im s
  | .jr d a im => Sys2Proof.Machine.execJr d a im s
  | .loop c im => Sys2Proof.Machine.execLoop c im s
  | .ld d b l sz o => Sys2Proof.Machine.execLd d b l sz o s
  | .st d b l sz o => Sys2Proof.Machine.execSt d b l sz o s
  | .ldv d b l o => Sys2Proof.Machine.execLdv d b l o s
  | .stv d b l o => Sys2Proof.Machine.execStv d b l o s
  | .twigCommit who => Sys2Proof.Machine.execTwigCommit who s
  | .amo d a b o t => Sys2Proof.Machine.execAmo d a b o t s
  | .cas d a b t => Sys2Proof.Machine.execCas d a b t s
  | .fence d => Sys2Proof.Machine.execFence d s
  | .waittl d a b => Sys2Proof.Machine.execWaittl d a b s
  | .tlrd d b => Sys2Proof.Machine.execTlrd d b s
  | .send d a c => Sys2Proof.Machine.execSend d a c s
  | .recv d c => Sys2Proof.Machine.execRecv d c s
  | .spawn d a b => Sys2Proof.Machine.execSpawn d a b s
  | .yieldUntil a => Sys2Proof.Machine.execYieldUntil a s
  | .widf d n => Sys2Proof.Machine.execWidf d n s
  | .colr d => Sys2Proof.Machine.execColr d s
  | .launch d a => Sys2Proof.Machine.execLaunch d a s
  | .hfill d a => Sys2Proof.Machine.execHfill d a s
  | .hfillTry d a => Sys2Proof.Machine.execHfillTry d a s
  | .hpost a b => Sys2Proof.Machine.execHpost a b s
  | .htake d a => Sys2Proof.Machine.execHtake d a s
  | .htakeTry d a => Sys2Proof.Machine.execHtakeTry d a s
  | .hfree a b => Sys2Proof.Machine.execHfree a b s
  | .hwait d a b => Sys2Proof.Machine.execHwait d a b s
  | .hstat d a w => Sys2Proof.Machine.execHstat d a w s
  | .scopy d e h c => Sys2Proof.Machine.execScopy d e h c s
  | .sfeed d e h c => Sys2Proof.Machine.execSfeed d e h c s
  | .sdrain d e h c => Sys2Proof.Machine.execSdrain d e h c s
  | .smcast d e h c => Sys2Proof.Machine.execSmcast d e h c s
  | .sgath d e h c => Sys2Proof.Machine.execSgath d e h c s
  | .sscat d e h c => Sys2Proof.Machine.execSscat d e h c s
  | .srowc d e h c => Sys2Proof.Machine.execSrowc d e h c s
  | .srowz d e h c => Sys2Proof.Machine.execSrowz d e h c s
  | .scanc d h c => Sys2Proof.Machine.execScanc d h c s
  | .gsend d e h c => Sys2Proof.Machine.execGsend d e h c s
  | .frd d k n => Sys2Proof.Machine.execFrd d k n s
  | .frdStat d k => Sys2Proof.Machine.execFrdStat d k s
  | .frdTime d => Sys2Proof.Machine.execFrdTime d s
  | .fwait d k b => Sys2Proof.Machine.execFwait d k b s
  | .fadv d a b => Sys2Proof.Machine.execFadv d a b s
  | .ahold d a b => Sys2Proof.Machine.execAhold d a b s
  | .arel d a => Sys2Proof.Machine.execArel d a s
  | .acmp d a => Sys2Proof.Machine.execAcmp d a s
  | .resd d a b => Sys2Proof.Machine.execResd d a b s
  | .resdE0 d a b => Sys2Proof.Machine.execResdE0 d a b s
  | .resdE1 d a b => Sys2Proof.Machine.execResdE1 d a b s
  | .resw a b => Sys2Proof.Machine.execResw a b s
  | .tilereg d a b => Sys2Proof.Machine.execTilereg d a b s
  | .rld d a b => Sys2Proof.Machine.execRld d a b s
  | .rldB32 d a b => Sys2Proof.Machine.execRldB32 d a b s
  | .rldB64 d a b => Sys2Proof.Machine.execRldB64 d a b s
  | .rldB128 d a b => Sys2Proof.Machine.execRldB128 d a b s
  | .rldDone d => Sys2Proof.Machine.execRldDone d s
  | .rst d a b => Sys2Proof.Machine.execRst d a b s
  | .rstB32 d a b => Sys2Proof.Machine.execRstB32 d a b s
  | .rstB64 d a b => Sys2Proof.Machine.execRstB64 d a b s
  | .rstB128 d a b => Sys2Proof.Machine.execRstB128 d a b s
  | .ramo d a b t o => Sys2Proof.Machine.execRamo d a b t o s
  | .grsv d a b => Sys2Proof.Machine.execGrsv d a b s
  | .abpost d a b => Sys2Proof.Machine.execAbpost d a b s
  | .abwait d a => Sys2Proof.Machine.execAbwait d a s
  | .gclr d a => Sys2Proof.Machine.execGclr d a s
  | .gclrDone d a => Sys2Proof.Machine.execGclrDone d a s
  | .mma t sz k f m => Sys2Proof.Machine.execMma t sz k f m s
  | .mldb a b f => Sys2Proof.Machine.execMldb a b f s
  | .mrd d a b f => Sys2Proof.Machine.execMrd d a b f s
  | .mzero a => Sys2Proof.Machine.execMzero a s
  | .mscl a b => Sys2Proof.Machine.execMscl a b s
  | .mstat d a => Sys2Proof.Machine.execMstat d a s
  | .cfgwNode a b => Sys2Proof.Machine.execCfgwNode a b s
  | .cfgwTwig a b => Sys2Proof.Machine.execCfgwTwig a b s
  | .cfgwTwigMx a b => Sys2Proof.Machine.execCfgwTwigMx a b s
  | .cfgwShape a b => Sys2Proof.Machine.execCfgwShape a b s
  | .cfgwCtx a b => Sys2Proof.Machine.execCfgwCtx a b s
  | .nodeReconfigure cell => Sys2Proof.Machine.execNodeReconfigure cell s
  | .twigStoreWrite mx unit => Sys2Proof.Machine.execTwigStoreWrite mx unit s
  | .trap n => Sys2Proof.Machine.execTrap n s
  | .srd d n => Sys2Proof.Machine.execSrd d n s
  | .swr a n => Sys2Proof.Machine.execSwr a n s
  | .tlbinv a b => Sys2Proof.Machine.execTlbinv a b s
  | .tlbinvAsid a => Sys2Proof.Machine.execTlbinvAsid a s
  | .halt a => Sys2Proof.Machine.execHalt a s
  | .haltRun a => Sys2Proof.Machine.execHaltRun a s
  | .freeze d a b c => Sys2Proof.Machine.execFreeze d a b c s
  | .thaw d a b c => Sys2Proof.Machine.execThaw d a b c s
  | .cfgflip a b => Sys2Proof.Machine.execCfgflip a b s
  | .ckill a => Sys2Proof.Machine.execCkill a s
  | .purgeWaveComplete region => Sys2Proof.Machine.execPurgeWaveComplete region s
  | .dcapd d a b => Sys2Proof.Machine.execDcapd d a b s
  | .dcapr d a => Sys2Proof.Machine.execDcapr d a s
  | .graphLoad region img => Sys2Proof.Machine.execGraphLoad region img s
  | .linkPlanBind port group role peer ptag => Sys2Proof.Machine.execLinkPlanBind port group role peer ptag s
  | .tokenArrival cell => Sys2Proof.Machine.execTokenArrival cell s
  | .overflowRefill cell => Sys2Proof.Machine.execOverflowRefill cell s
  | .colourGrant region => Sys2Proof.Machine.execColourGrant region s
  | .nagElement cell gen => Sys2Proof.Machine.execNagElement cell gen s
  | .orderedRequestPerform cell req => Sys2Proof.Machine.execOrderedRequestPerform cell req s
  | .invokeAccept r => Sys2Proof.Machine.execInvokeAccept r s
  | .nlrx cell node => Sys2Proof.Machine.execNlrx cell node s
  | .dsrc cell node => Sys2Proof.Machine.execDsrc cell node s
  | .doutIdlePost cell node => Sys2Proof.Machine.execDoutIdlePost cell node s
  | .dconFlush cell node => Sys2Proof.Machine.execDconFlush cell node s
  | .dprobeWatch cell node => Sys2Proof.Machine.execDprobeWatch cell node s
  | .frontierRecompute region scope => Sys2Proof.Machine.execFrontierRecompute region scope s
  | .frontierDelivery region slot isCell unit => Sys2Proof.Machine.execFrontierDelivery region slot isCell unit s
  | .compactionFrontierRecompute region arr => Sys2Proof.Machine.execCompactionFrontierRecompute region arr s
  | .pass region arr => Sys2Proof.Machine.execPass region arr s
  | .taskSchedule grove => Sys2Proof.Machine.execTaskSchedule grove s
  | .forcedSwitch grove => Sys2Proof.Machine.execForcedSwitch grove s
  | .cycleWaitExpiry grove slot => Sys2Proof.Machine.execCycleWaitExpiry grove slot s
  | .spillReadback region grove => Sys2Proof.Machine.execSpillReadback region grove s
  | .mailDelivery grove chan value => Sys2Proof.Machine.execMailDelivery grove chan value s
  | .inboundRegisterWrite grove => Sys2Proof.Machine.execInboundRegisterWrite grove s
  | .stallWatchdog what => Sys2Proof.Machine.execStallWatchdog what s
  | .colourWatchdog region => Sys2Proof.Machine.execColourWatchdog region s
  | .balanceInterval region => Sys2Proof.Machine.execBalanceInterval region s
  | .contextChangeComplete cell => Sys2Proof.Machine.execContextChangeComplete cell s
  | .launchStart region => Sys2Proof.Machine.execLaunchStart region s
  | .initialPush region => Sys2Proof.Machine.execInitialPush region s
  | .dispatch region die => Sys2Proof.Machine.execDispatch region die s
  | .levelTick region => Sys2Proof.Machine.execLevelTick region s
  | .launchEnd region => Sys2Proof.Machine.execLaunchEnd region s
  | .residencyNotify region grove => Sys2Proof.Machine.execResidencyNotify region grove s
  | .translationWalk asid vpn => Sys2Proof.Machine.execTranslationWalk asid vpn s
  | .mapRegister cell k value => Sys2Proof.Machine.execMapRegister cell k value s
  | .mapUnmap cell k value => Sys2Proof.Machine.execMapUnmap cell k value s
  | .engineOpStart grove ctx => Sys2Proof.Machine.execEngineOpStart grove ctx s
  | .boundFiring grove ctx => Sys2Proof.Machine.execBoundFiring grove ctx s
  | .smcastFiring grove ctx => Sys2Proof.Machine.execSmcastFiring grove ctx s
  | .engineOpComplete grove ctx => Sys2Proof.Machine.execEngineOpComplete grove ctx s
  | .drainPortWrite grove ctx value => Sys2Proof.Machine.execDrainPortWrite grove ctx value s
  | .handleReinit grove handle second value => Sys2Proof.Machine.execHandleReinit grove handle second value s
  | .packetArrival grove => Sys2Proof.Machine.execPacketArrival grove s
  | .kstep grove => Sys2Proof.Machine.execKstep grove s
  | .mrdServe grove tag => Sys2Proof.Machine.execMrdServe grove tag s
  | .mzeroServe grove tag => Sys2Proof.Machine.execMzeroServe grove tag s
  | .linkUp port peer pool => Sys2Proof.Machine.execLinkUp port peer pool s
  | .linkLost port => Sys2Proof.Machine.execLinkLost port s
  | .remoteRequestArrival r => Sys2Proof.Machine.execRemoteRequestArrival r s
  | .remoteResponse r => Sys2Proof.Machine.execRemoteResponse r s
  | .streamClose isCell agent target => Sys2Proof.Machine.execStreamClose isCell agent target s
  | .reservationArrival r => Sys2Proof.Machine.execReservationArrival r s
  | .reservationGrant grove glade => Sys2Proof.Machine.execReservationGrant grove glade s
  | .gladePacketArrival p => Sys2Proof.Machine.execGladePacketArrival p s
  | .gladeKeepalive grove glade slot => Sys2Proof.Machine.execGladeKeepalive grove glade slot s
  | .gladeRevocation grove glade slot => Sys2Proof.Machine.execGladeRevocation grove glade slot s
  | .gladeHold sending module grove glade slot => Sys2Proof.Machine.execGladeHold sending module grove glade slot s
  | .gladeResume sending module grove glade slot newModule newGrove => Sys2Proof.Machine.execGladeResume sending module grove glade slot newModule newGrove s
  | .faultRecordPost region => Sys2Proof.Machine.execFaultRecordPost region s
  | .faultqWrite region value => Sys2Proof.Machine.execFaultqWrite region value s
  | .freleaseRetry region fseq => Sys2Proof.Machine.execFreleaseRetry region fseq s
  | .freleaseDiscard region fseq => Sys2Proof.Machine.execFreleaseDiscard region fseq s
  | .rsresumeRetry isCell agent target => Sys2Proof.Machine.execRsresumeRetry isCell agent target s
  | .rsresumeDiscard isCell agent target => Sys2Proof.Machine.execRsresumeDiscard isCell agent target s
  | .pjdet region value => Sys2Proof.Machine.execPjdet region value s
  | .freezeWave region => Sys2Proof.Machine.execFreezeWave region s
  | .thawComplete region => Sys2Proof.Machine.execThawComplete region s
  | .fcmdResumeRetry region fseq => Sys2Proof.Machine.execFcmdResumeRetry region fseq s
  | .fcmdResumeDiscard region fseq => Sys2Proof.Machine.execFcmdResumeDiscard region fseq s
  | .fcmdStep region fseq => Sys2Proof.Machine.execFcmdStep region fseq s
  | .fcmdStop region => Sys2Proof.Machine.execFcmdStop region s
  | .fcmdList region => Sys2Proof.Machine.execFcmdList region s
  | .stopComplete region => Sys2Proof.Machine.execStopComplete region s
  | .hqtailWrite value => Sys2Proof.Machine.execHqtailWrite value s
  | .hqbaseWrite value => Sys2Proof.Machine.execHqbaseWrite value s
  | .throttleChange supply power therm ratio => Sys2Proof.Machine.execThrottleChange supply power therm ratio s
  | .wearUpdate eolDays wgrove wpct => Sys2Proof.Machine.execWearUpdate eolDays wgrove wpct s
  | .registerWrite addr value => Sys2Proof.Machine.execRegisterWrite addr value s
  | .programTimeAdvance grove => Sys2Proof.Machine.execProgramTimeAdvance grove s
  | .shadowLatchFull grove => Sys2Proof.Machine.execShadowLatchFull grove s
  | .mapRegistrationComplete cell k => Sys2Proof.Machine.execMapRegistrationComplete cell k s
  | .mapUnmapComplete cell k => Sys2Proof.Machine.execMapUnmapComplete cell k s
  | .hostWindowAccess window write offset size value => Sys2Proof.Machine.execHostWindowAccess window write offset size value s
  | .linkFlitRetry port => Sys2Proof.Machine.execLinkFlitRetry port s
  | .messageForward target hops msg => Sys2Proof.Machine.execMessageForward target hops msg s
  | .peerLostDeclared target => Sys2Proof.Machine.execPeerLostDeclared target s
  | .nadd => Sys2Proof.Machine.execNadd s
  | .nsub => Sys2Proof.Machine.execNsub s
  | .nmul => Sys2Proof.Machine.execNmul s
  | .nmin => Sys2Proof.Machine.execNmin s
  | .nmax => Sys2Proof.Machine.execNmax s
  | .nband => Sys2Proof.Machine.execNband s
  | .nbor => Sys2Proof.Machine.execNbor s
  | .nbxor => Sys2Proof.Machine.execNbxor s
  | .nshl => Sys2Proof.Machine.execNshl s
  | .nshr => Sys2Proof.Machine.execNshr s
  | .ncmp => Sys2Proof.Machine.execNcmp s
  | .nsel => Sys2Proof.Machine.execNsel s
  | .nfma => Sys2Proof.Machine.execNfma s
  | .ncvt => Sys2Proof.Machine.execNcvt s
  | .nsteer => Sys2Proof.Machine.execNsteer s
  | .nmerge => Sys2Proof.Machine.execNmerge s
  | .ncopy => Sys2Proof.Machine.execNcopy s
  | .nconst => Sys2Proof.Machine.execNconst s
  | .ngate => Sys2Proof.Machine.execNgate s
  | .nsink => Sys2Proof.Machine.execNsink s
  | .niter => Sys2Proof.Machine.execNiter s
  | .ntagset => Sys2Proof.Machine.execNtagset s
  | .ncolour => Sys2Proof.Machine.execNcolour s
  | .nreturn => Sys2Proof.Machine.execNreturn s
  | .ntask => Sys2Proof.Machine.execNtask s
  | .ntwig => Sys2Proof.Machine.execNtwig s
  | .nag => Sys2Proof.Machine.execNag s
  | .nld => Sys2Proof.Machine.execNld s
  | .nst => Sys2Proof.Machine.execNst s
  | .nown => Sys2Proof.Machine.execNown s
  | .nred => Sys2Proof.Machine.execNred s
  | .natom => Sys2Proof.Machine.execNatom s
  | .ninvokeCall => Sys2Proof.Machine.execNinvokeCall s
  | .ninvokeReturn => Sys2Proof.Machine.execNinvokeReturn s
  | .nfork => Sys2Proof.Machine.execNfork s
  | .npjoin => Sys2Proof.Machine.execNpjoin s
  | .nltx => Sys2Proof.Machine.execNltx s
  | .dout => Sys2Proof.Machine.execDout s
  | .darr => Sys2Proof.Machine.execDarr s
  | .djoin => Sys2Proof.Machine.execDjoin s
  | .dred => Sys2Proof.Machine.execDred s
  | .dcon => Sys2Proof.Machine.execDcon s
  | .dneg => Sys2Proof.Machine.execDneg s
  | .denter => Sys2Proof.Machine.execDenter s
  | .dfeed => Sys2Proof.Machine.execDfeed s
  | .dleave => Sys2Proof.Machine.execDleave s
  | .dprobe => Sys2Proof.Machine.execDprobe s
  | .exit => Sys2Proof.Machine.execExit s
  | .yield => Sys2Proof.Machine.execYield s
  | .eret => Sys2Proof.Machine.execEret s
  | .tlbinvAll => Sys2Proof.Machine.execTlbinvAll s
  | .nop => Sys2Proof.Machine.execNop s
  | .moduleReset => Sys2Proof.Machine.execModuleReset s
  | .timeRebase => Sys2Proof.Machine.execTimeRebase s
  | .snaptrig => Sys2Proof.Machine.execSnaptrig s
  | .hostQueueLaunch => Sys2Proof.Machine.execHostQueueLaunch s
  | .hostQueueRelease => Sys2Proof.Machine.execHostQueueRelease s
  | .attreq => Sys2Proof.Machine.execAttreq s
  | .illegalInstruction => Sys2Proof.Machine.execIllegalInstruction s

end Sys2Proof.Machine
end

