-- ==== Sys2Proof/Machine/Schedule.lean ====
section
/-! DEFINITION. What happens between two steps: cycles pass, output queues drain, and one of the moves that could come next
is chosen; and fetching an agent's next instruction (spec 00 R5; 01 R33, R36; 04 R94; 08 R191, R194; 22 R409, R412, R419,
R420; log entry 2). -/

namespace Sys2Proof.Machine

/-! ## Fetch (R80, R112, R124, R412) -/

/-- The word an agent fetches next. -/
def Work.fetchWord (w : Work) (a : Agent) : Code :=
  match a with
  | .core g => bv 32 (w.load (codeBase g + (w.core g).pc.toNat) 4)
  | a =>
    match w.twigAt a with
    | some t => t.code.getD t.next 0
    | none => 0

/-- The instruction an agent runs next; a reserved word is an illegal instruction (R80). -/
def fetch (s : State) (a : Agent) : Instr :=
  match decode ((Work.of s).fetchWord a) with
  | .ok i => i
  | .error _ => .illegalInstruction

/-- The step of the node that a firing names, by the operation of its record (R79); a record with no operation has none,
and NSINK's step does nothing for it. -/
def Work.nodeStep (w : Work) (f : Fire) : Instr :=
  let r := (w.cell f.cell).node f.node
  match nOpc r with
  | 0x01 => .nadd
  | 0x02 => .nsub
  | 0x03 => .nmul
  | 0x04 => .nmin
  | 0x05 => .nmax
  | 0x06 => .nband
  | 0x07 => .nbor
  | 0x08 => .nbxor
  | 0x09 => .nshl
  | 0x0A => .nshr
  | 0x0B => .ncmp
  | 0x0C => .nsel
  | 0x0D => .nfma
  | 0x0E => .ncvt
  | 0x10 => .nsteer
  | 0x11 => .nmerge
  | 0x12 => .ncopy
  | 0x13 => .nconst
  | 0x14 => .ngate
  | 0x15 => .nsink
  | 0x18 => .niter
  | 0x19 => .ntagset
  | 0x1A => .ncolour
  | 0x1B => .nreturn
  | 0x1C => .ntask
  | 0x1D => .ntwig
  | 0x20 => .nag
  | 0x21 => .nld
  | 0x22 => .nst
  | 0x23 => .nown
  | 0x24 => .nred
  | 0x25 => .natom
  | 0x26 => if osb0 r then .ninvokeReturn else .ninvokeCall
  | 0x27 => .nfork
  | 0x28 => .npjoin
  | 0x29 => .nltx
  | 0x31 => .dout
  | 0x32 => .darr
  | 0x33 => .djoin
  | 0x34 => .dred
  | 0x35 => .dcon
  | 0x36 => .dneg
  | 0x37 => .denter
  | 0x38 => .dfeed
  | 0x39 => .dleave
  | 0x3A => .dprobe
  | _ => .nsink

/-- The step that a chosen firing runs. -/
def fireStep (s : State) (f : Fire) : Instr := (Work.of s).nodeStep f

/-! ## Cycle classes (R419) -/

/-- The lowest port that the oldest incomplete instance lacks. -/
def Cell.missingPort (c : Cell) : List Entry → Option Nat
  | [] => none
  | e :: t =>
    let r := c.node e.node
    if e.port = 4 ∨ nSingle r = true then c.missingPort t
    else
      match (nPorts r).find? fun p => (c.entryAt e.node p e.tok.colour e.tok.iter).isNone with
      | some p => some p
      | none => c.missingPort t

/-- The class of an instance that meets R22, its demand apart, and lacks output room: 5 for destination A, 6 for B alone
(R94, R419). -/
def Cell.blockedClass (c : Cell) (mc : Nat) : Option Nat :=
  let held := reserved (Tbl.vals c.twigs)
  ((c.named mc).filterMap fun f =>
    match c.held22 f with
    | some x => if c.room (held + nSend c x) then none else if c.room (held + (sendsOf c x).a) then some 6 else some 5
    | none => none).head?

/-- The class that a cycle counts in, a firing apart. -/
def Cell.cycleClass (c : Cell) (mc : Nat) : Nat :=
  if c.nextCtx.isSome ∨ ¬ c.reconf.isEmpty ∨ ¬ c.pendTwig.isEmpty then 7
  else
    match c.blockedClass mc with
    | some k => k
    | none =>
      match c.missingPort c.entries with
      | some p => p + 1
      | none => 8

/-- `n` cycles counted by a cell; the first in class 0 where it fired a node. -/
def Cell.countCycles (c : Cell) (mc n : Nat) : Cell :=
  if n = 0 then c
  else
    let first := if c.fired then 1 else 0
    let k := c.cycleClass mc
    let one := setAt c.classNow 0 (c.classNow.getD 0 0 + first)
    { c with fired := false, classNow := setAt one k (one.getD k 0 + (n - first)) }

/-! ## What passing time does -/

/-- The loaded regions. -/
def Work.loadedRegions (w : Work) : List Nat := (w.regions.filter fun e => e.2.loaded).map fun e => e.1

/-- The cells of the loaded regions. -/
def Work.loadedCells (w : Work) : List Nat := (w.loadedRegions.map w.cellsOf).flatten

/-- The groves of the loaded regions. -/
def Work.loadedGroves (w : Work) : List Nat := (w.loadedRegions.map w.grovesOf).flatten

/-- The stamps of regions that do not run go along with the cycles that pass: that time counts towards no limit (R36, R410). -/
def Work.holdTimes (w : Work) (n : Nat) : Work :=
  (w.loadedRegions.filter fun r => !(w.region r).runs).foldl (fun v r => v.timed r fun t => t + n) w

/-- Cycles pass: cells of regions that run count them (R36, R419), and every port unit and core may issue again (R17, R112,
R124). -/
def Work.passCycles (w : Work) (n : Nat) : Work :=
  let w1 := (w.holdTimes n).updMod fun m => { m with cycle := m.cycle + n }
  if n = 0 then w1
  else
    let w2 := w1.loadedCells.foldl (fun v mc =>
      v.updCell mc fun c =>
        { c.countCycles mc (if (v.regOf (mc / 16)).runs then n else if c.fired then 1 else 0) with
          fired := false, issued := false }) w1
    w2.loadedGroves.foldl (fun v g =>
      (v.updMx g fun m => { m with issued := false }).updCore g fun c => { c with issued := false }) w2

/-- Outputs of long firings go to a cell's output queue while it has room (R308). -/
def Cell.settle (c : Cell) : Cell :=
  let n := 8 - (c.outq.length + reserved (Tbl.vals c.twigs))
  { c with
    outq := c.outq ++ (c.pend.take n).map Prod.snd
    outNo := c.outNo ++ (c.pend.take n).map fun e => e.1 / 1024
    pend := c.pend.drop n }

/-- A cell's tokens sent in the order of a list, each as one of its firing's (R343). -/
def sendAll (mc : Nat) : List Token → List Nat → Work → Work
  | [], _, w => w
  | t :: ts, ns, w =>
    sendAll mc ts ns.tail
      (w.sendTok (w.rno (mc / 16)) (mc / 16) (cellStream mc (ns.headD 0)) (w.ptime (.cell mc)) t)

/-- Invocations whose result their node has sent on: their response slots are free (R348). -/
def Work.freeInvokes (w : Work) (mc : Nat) : Work :=
  let sent : OutReq → Bool := fun q => q.done && !(w.cell mc).busyNode q.node
  (w.mod.streams.filter fun s => s.isCell && s.agent == mc && s.out.any sent).foldl (fun v s =>
    (s.out.filter sent).foldl (fun u q =>
      match u.mod.stream true mc s.target with
      | some x => (u.updMod fun m => m.dropReq x q.ident).reqEnded x
      | none => u) v) w

/-- A cell's output queue drains to the ring in order, how far is not promised (R94; log entries 2 and 3). -/
def Work.drainCell (w : Work) (mc : Nat) : Work :=
  let w0 := (w.updCell mc Cell.settle).freeInvokes mc
  let q := (w0.cell mc).outq
  if q.isEmpty ∨ (w0.regOf (mc / 16)).halted = true ∨ (w0.regOf (mc / 16)).stopped = true then w0
  else
    let p := w0.fresh
    let n := p.1.toNat % (q.length + 1)
    sendAll mc (q.take n) (w0.cell mc).outNo (p.2.updCell mc fun c => { c with outq := q.drop n, outNo := c.outNo.drop n })

/-- Since when the instances of a cell have been ready, and its joins stuck (R33, R36, R247). An instance that does not meet the
conditions now counts anew when it next does; the cycles of a stop or a freeze wave do not count (log entry 28). -/
def Work.stampCell (w : Work) (mc : Nat) : Work :=
  let now := w.mod.cycle
  let ready := (((w.cell mc).fires mc).filter w.meets).map fun f => (f, readySince now f (w.cell mc).ready)
  w.updCell mc fun c =>
    { c with
      ready := ready
      joins := c.joins.map fun e =>
        (e.1, { e.2 with stuck := if e.2.stuckAt.isSome then some (e.2.stuck.getD now) else none }) }

/-- A core's store that a port held is in: the core goes on (R172, R230). -/
def Work.freePort (w : Work) (g : Nat) : Work :=
  match (w.core g).portWait with
  | some (0, h, k) =>
    if !((w.grove h).engine k).drainHeld.any fun x => x.1 == .core g then w.updCore g fun c => { c with portWait := none } else w
  | some (_, h, ch) =>
    if (w.core h).mailHeld.any fun x => x.chan == ch && x.src == g && x.desig == 0 then w else w.updCore g fun c => { c with portWait := none }
  | none => w

/-- A trace slot is posted 64 cycles after its last record (R283, R417). -/
def Work.idleTrace (w : Work) (r : Nat) : Work :=
  match (w.region r).trace with
  | some (_, _, t) => if t + 64 ≤ w.mod.cycle then w.tracePost r else w
  | none => w

/-- What L2 slices and memory interfaces have counted for a grove (R420; log entry 22). -/
def Work.traffic (w : Work) (g : Nat) : Work :=
  [2, 3, 4, 5].foldl (fun v k => v.tally g k (Config.traffic v.tick g k)) w

/-- Everything that may be stalled. -/
def Work.stallList (w : Work) : List Stalled :=
  (w.cores.map fun e =>
    .core e.1 :: (e.2.mailHeld.map fun h => .channel e.1 h.chan h.src h.desig h.since)).flatten ++
  (w.cells.map fun e =>
    (e.2.twigs.map fun t => .twig e.1 t.1) ++
      ((w.ntasksHeld e.1).map fun f => .node e.1 f.node f.colour.toNat f.iter.toNat) ++ (e.2.chains.map fun x => .chain e.1 x.colour.toNat x.iter.toNat) ++
      ((e.2.joins.filter fun j => j.1 / 1024 == e.2.active).map fun j => .join e.1 (j.1 % 1024))).flatten ++
  (w.groves.map fun e =>
    .store e.1 :: (e.2.engines.map fun k => [.mcast e.1 k.1, .feed e.1 k.1]).flatten).flatten ++
  (w.mxs.map fun e => (e.2.tags.map fun t => .tag e.1 t.1) ++ e.2.twigs.map fun t => .mxTwig e.1 t.1).flatten ++
  (w.regions.map fun e =>
    (((w.waiting e.1).filter fun x => x.wait == 3).map fun x => .spawn x.home x.order) ++ (e.2.arrs.map fun a => .pass e.1 a.1) ++
      match e.2.running with
      | some u => (u.changing.map fun g => .group e.1 g) ++ (List.range u.queues.length).map fun s => .stage e.1 s
      | none => []).flatten ++
  w.mod.openers.map fun o => .stream o.isCell o.agent o.target

/-- The stall watchdogs' counts: what is stalled since when, anew where the stall is a new one (R35). -/
def Work.watch (w : Work) : Work :=
  let next := w.stallList.eraseDups.filterMap fun d =>
    match w.stalledSince d with
    | none => none
    | some t =>
      match w.mod.dogs.find? fun e => e.1 == d with
      | some (_, since, raised) => if t < w.mod.cycle ∧ since < t then some (d, t, false) else some (d, since, raised)
      | none => some (d, t, false)
  w.updMod fun m => { m with dogs := next }

/-- Whether a step comes from outside the machine's own scheduling: the host, links, power, and messages that stay in the
module. -/
def isOutside : Instr → Bool
  | .graphLoad .. | .linkPlanBind .. | .linkUp .. | .linkLost .. | .remoteRequestArrival .. | .remoteResponse ..
  | .reservationArrival .. | .gladePacketArrival .. | .gladeHold .. | .gladeResume .. | .throttleChange ..
  | .wearUpdate .. | .registerWrite .. | .hostWindowAccess .. | .linkFlitRetry .. | .messageForward ..
  | .peerLostDeclared .. | .moduleReset => true
  | _ => false

/-- The firings that have been ready for half their limit, which their cells choose and have not yet fired in this cycle
(R33). -/
def Work.lateFires (w : Work) : List Fire :=
  (w.loadedCells.map fun mc =>
    if (w.cell mc).fired then []
    else
      ((w.cell mc).fires mc).filter fun f =>
        w.chosen f && (w.cell mc).ready.any fun e => w.ready e.1 && decide (e.2 + 4096 ≤ w.mod.cycle)).flatten

/-- Whether a record has been runnable for a quarter of its limit (R34). -/
def Record.late (r : Record) (now : Nat) : Bool := r.since.any fun t => decide (t + 16384 ≤ now)

/-- What must come before any other move and before more time passes: inbound register writes at a boundary, an FWAIT complete in
the spill area, and what holds up a record that has been runnable for long, on its core or, for a core with nothing of its own,
on another (R34, R123, R144, R151). -/
def Work.lateCore (w : Work) (g : Nat) : List Instr :=
  let c := w.core g
  let r := w.regOf g
  let now := w.mod.cycle
  if c.atBoundary && !c.inbound.isEmpty then (if r.halted && r.loaded then [] else [.inboundRegisterWrite g])
  else if !r.loaded || !r.runs then []
  else if w.reads (w.rno g) g && (w.readable (w.rno g) g).any fun e => e.2.late now || (e.2.wait == 6 && e.2.since == some now) then
    [.spillReadback (w.rno g) g]
  else if c.runnable.any fun x => x.late now then
    if (w.switched g).isSome then [.forcedSwitch g]
    else if c.task.isNone && !c.halted then [.taskSchedule g] else []
  else if c.task.isNone && !c.halted && c.runnable.isEmpty && c.runQ.isEmpty && (w.elsewhere g).any fun e => e.2.late now then
    [.taskSchedule g]
  else []

/-- What a grove's units owe by now: a residency change that the dispatchers must hear of (R334), and keep-alives, each within
a quarter of the detection bound of the one before (R373). -/
def Work.lateGrove (w : Work) (g : Nat) : List Instr :=
  (if w.residDue g then [.residencyNotify (w.rno g) g] else []) ++
  ((w.grove g).sent.filter fun x => !x.isHeld && decide (x.last + w.mod.ldet / 4 ≤ w.mod.cycle + 8)).map fun x =>
    .gladeKeepalive g x.glade x.slot

/-- The modules that count as lost by now: a task core's remote load, store or atomic on them is past its bound, on a stream that
no fault holds (R208, R347, R350; log entry 100). -/
def Work.lostTargets (w : Work) : List Nat :=
  (w.mod.streams.filter fun s =>
    !s.isCell && !s.frozen && s.out.any fun q => decide (q.op ≤ 2) && decide (q.due ≤ w.mod.cycle + 8)).map fun s => s.target

/-- The moves that come first (R33, R34, R123, R208, R334, R373). -/
def Work.lateMoves (w : Work) : List Move :=
  ((w.cores.map fun e => w.lateCore e.1).flatten ++ (w.loadedGroves.map w.lateGrove).flatten ++
    w.lostTargets.map Instr.peerLostDeclared).map Move.event ++ w.lateFires.map Move.fire

/-- How many cycles pass before the next move: none while a move must come first, at most one while a cell works off late
firings, one a cycle (R17, R33, R34; log entry 9). -/
def Work.cyclesNow (w : Work) (n : Nat) : Nat :=
  if !w.lateMoves.isEmpty then 0
  else if w.loadedCells.any fun mc =>
      (w.cell mc).fired && (w.cell mc).ready.any fun e => w.ready e.1 && decide (e.2 + 4096 ≤ w.mod.cycle) then min n 1
  else n

/-- A core that a HALT waits for stops at its boundary (R392). -/
def Work.haltDue (w : Work) (g : Nat) : Work :=
  let c := w.core g
  if c.halting && c.atBoundary then w.setCore g { c with halted := true, halting := false } else w

/-- What happens on its own between two moves (log entries 2, 9, 22 and 79). -/
def Work.settle (w0 : Work) : Work :=
  let wi : Work := { w0 with toDev.inputs := w0.inputs.dropWhile fun i => !isOutside i }
  let w1 := wi.passCycles (wi.cyclesNow (Config.freeCycles wi.tick % 9))
  let cells := w1.loadedCells
  let groves := w1.loadedGroves
  let w2 := cells.foldl Work.syncCell w1
  let w3 := cells.foldl Work.drainCell (cells.foldl Work.stampCell w2)
  let w4 := groves.foldl (fun v g => fitSlots 34 g (((v.freePort g).haltDue g).traffic g)) w3
  let w5 := w4.loadedRegions.foldl (fun v r => (v.idleTrace r).dropAsks r) w4
  (cells.foldl Work.stampCell w5).openers.watch.updMod fun m =>
    { m with
      spoilt := Config.spoilt w0.tick
      ringTick := w0.tick + 1 }

/-! ## The moves that could come next (R191; log entry 2) -/

/-- A move offered where a condition holds. -/
def mayDo (b : Bool) (i : Instr) : List Move := if b then [.event i] else []

/-- Whether a twig may issue its next instruction: it has one, which is not held, and waits for no earlier result (R112). -/
def Twig.mayIssue (t : Twig) (now : Nat) : Bool := !t.isDone && t.stall.isNone && !t.awaits now

/-- The context launched earliest among those whose next instruction has its operands ready: a context whose instruction is
held has issued it already (R112). -/
def earliestTwig (now : Nat) : List (Agent × Twig) → Option (Agent × Twig)
  | [] => none
  | e :: t =>
    match earliestTwig now t with
    | none => if e.2.mayIssue now then some e else none
    | some x => if e.2.mayIssue now && decide (e.2.order ≤ x.2.order) then some e else some x

/-- The moves of a port unit's twig contexts: commits, held instructions that try again, and at most one instruction issued
in a cycle, of the context launched earliest (R17, R112). -/
def twigMoves (now : Nat) (issued : Bool) (ts : List (Agent × Twig)) : List Move :=
  (ts.filterMap fun e =>
    if e.2.isDone then some (.event (.twigCommit e.1)) else if e.2.stall.isSome then some (.run e.1) else none) ++
  if issued then [] else ((earliestTwig now ts).map fun e => Move.run e.1).toList

/-- The moves of a cell's nodes that fire on no token. -/
def Work.nodeMoves (w : Work) (mc : Nat) : List Move :=
  let c := w.cell mc
  ((c.nodes.filter fun e => e.1 / 1024 == c.active).map fun e =>
    let n := e.1 % 1024
    mayDo (nOpc e.2 == 0x2A) (.nlrx mc n) ++ mayDo (nOpc e.2 == 0x30) (.dsrc mc n) ++
      mayDo (nOpc e.2 == 0x35) (.dconFlush mc n) ++ mayDo (w.probeDue mc n) (.dprobeWatch mc n)).flatten ++
  ((c.douts.filter fun e => decide (1 ≤ e.2.n) && decide (64 ≤ w.mod.cycle - e.2.last)).map fun e =>
    .event (.doutIdlePost mc e.1))

/-- Whether an instance may take its step now: the cell has not fired in this cycle, and it chooses the instance, or the
instance asks the colour pool or for a stream (R17, R33, R164, R349). -/
def Work.fires (w : Work) (f : Fire) : Bool :=
  let o := nOpc ((w.cell f.cell).node f.node)
  if (w.cell f.cell).fired then false
  else if o = 0x1A then
    ((w.cell f.cell).inst f).isSome && w.mayFire f && !((w.regOf (f.cell / 16)).waitC.any fun e => e.1 == f)
  else if o = 0x26 then ((w.cell f.cell).inst f).isSome && w.mayFire f
  else w.chosen f

/-- The moves of a cell. -/
def Work.cellMoves (w : Work) (mc : Nat) : List Move :=
  let c := w.cell mc
  let r := w.regOf (mc / 16)
  let live := !r.halted && !r.stopped
  twigMoves w.mod.cycle c.issued
    ((if live then c.twigs.map fun e => (.twig mc e.1, e.2) else []) ++
      (Option.filter (fun t => t.isDone || r.runs) c.debug).toList.map fun t => (.debug mc, t)) ++
  (((c.fires mc).filter w.fires).map Move.fire) ++
  mayDo ((!c.inq.isEmpty || !c.held.isEmpty) && !r.halted) (.tokenArrival mc) ++ mayDo (w.refillDue mc && !r.halted) (.overflowRefill mc) ++
  ((c.gens.filter fun e => e.2.busy).map fun e => .event (.nagElement mc e.1)) ++
  ((c.reqs.filter fun q => !w.reqHeld mc q).map fun q => .event (.orderedRequestPerform mc q.id)) ++
  w.nodeMoves mc ++
  (match c.nextCtx with
    | some k => [.event (if k < 4 then .contextChangeComplete mc else .nodeReconfigure mc)]
    | none => mayDo (!c.reconf.isEmpty) (.nodeReconfigure mc)) ++
  mayDo (!c.pendTwig.isEmpty) (.twigStoreWrite false mc)

/-- Whether a core may issue its next instruction, one a cycle, or try its held one again: at a boundary a write that waits lands
first, a HALT stops it, and a switch that is due comes first (R123, R124, R145, R392, R395). -/
def Work.coreGoes (w : Work) (g : Nat) : Bool :=
  let c := w.core g
  c.task.isSome && !c.halted && c.portWait.isNone && (w.regOf g).runs && !w.purging g &&
    (c.stall.isSome || (!c.issued && !c.halting && c.inbound.isEmpty && (w.switched g).isNone))

/-- The moves of a task core. -/
def Work.coreMoves (w : Work) (g : Nat) : List Move :=
  let c := w.core g
  let r := w.regOf g
  let due : Record → Bool := fun x => x.since.isNone && x.wait == 2 && decide (x.value.toNat ≤ w.mod.cycle)
  (if w.coreGoes g then [.run (.core g)] else []) ++
  mayDo (c.atBoundary && !c.inbound.isEmpty && !r.halted) (.inboundRegisterWrite g) ++
  mayDo (c.inbound.isEmpty && c.task.isNone && !c.halted && r.runs) (.taskSchedule g) ++
  mayDo (c.inbound.isEmpty && r.runs && (w.switched g).isSome) (.forcedSwitch g) ++
  (((List.range c.slots.length).filter fun i => (c.slots[i]?).any due).map fun i => .event (.cycleWaitExpiry g i)) ++
  ((c.mailHeld.map fun h => h.chan).eraseDups.filterMap fun ch =>
    (c.mailHeld.find? fun h => h.chan == ch).map fun h => .event (.mailDelivery g ch h.word)) ++
  mayDo (c.task.isSome && r.runs) (.programTimeAdvance g)

/-- The moves of a grove's engines and glades. -/
def Work.groveMoves (w : Work) (g : Nat) : List Move :=
  let k := w.grove g
  (k.engines.map fun e =>
    if e.2.queue.isEmpty then []
    else ([.engineOpStart g e.1, .boundFiring g e.1, .smcastFiring g e.1, .engineOpComplete g e.1] : List Instr).map
      Move.event).flatten ++
  ((k.gq.map fun r => r.glade).eraseDups.map fun z => .event (.reservationGrant g z)) ++
  ((k.sent.filter fun x => !x.isHeld).map fun x => .event (.gladeKeepalive g x.glade x.slot)) ++
  (k.glades.map fun z =>
    ((List.range z.2.slots.length).filter fun i =>
      (z.2.slots[i]?).any fun s => (s.st == 1 || s.st == 2) && !s.isHeld && decide (s.seen + s.bound ≤ w.mod.cycle)).map
        fun i => .event (.gladeRevocation g z.1 i)).flatten

/-- The moves of a matrix array and its element. -/
def Work.mxMoves (w : Work) (g : Nat) : List Move :=
  let m := w.mx g
  let r := w.regOf g
  if r.halted || r.stopped then []
  else
    twigMoves w.mod.cycle m.issued (m.twigs.map fun e => (.mx g e.1, e.2)) ++ mayDo (!m.arrivals.isEmpty && r.runs) (.packetArrival g) ++
    mayDo (!m.pendingTwig.isEmpty) (.twigStoreWrite true g) ++ mayDo (m.shadow.st == 1) (.shadowLatchFull g) ++
    mayDo (m.tags.any fun t => !t.2.queue.isEmpty) (.kstep g) ++
    (m.tags.map fun t =>
      mayDo (t.2.queue.any fun i => i.kind == 1) (.mrdServe g t.1) ++
        mayDo (t.2.queue.any fun i => i.kind == 2) (.mzeroServe g t.1)).flatten

/-- The deliveries of a region's frontiers that are due (R278). -/
def Work.deliveries (w : Work) (r : Nat) : List Move :=
  (w.region r).fbind.map (fun b =>
    let f := Tbl.getD (w.region r).rootF b.2 []
    ((w.grovesOf r).filter fun g => (copyAt (w.core g).fcopies b.1).elems != f).map (fun g =>
      Move.event (.frontierDelivery r b.1 false g)) ++
    ((w.cellsOf r).filter fun c => (copyAt (w.cell c).fcopies b.1).elems != f).map fun c =>
      Move.event (.frontierDelivery r b.1 true c)) |>.flatten

/-- The moves of a loaded region's launches. -/
def Work.launchMoves (w : Work) (r : Nat) : List Move :=
  let x := w.region r
  mayDo (!x.launchQ.isEmpty && x.running.isNone) (.launchStart r) ++
  match x.running with
  | none => []
  | some u =>
    mayDo (decide (u.pushed < u.launch.items)) (.initialPush r) ++
    (if u.queues.any fun q => !q.recs.isEmpty then
      ((w.grovesOf r).map dieOf).eraseDups.map fun d => .event (.dispatch r d) else []) ++
    mayDo (decide (0 < u.tickDue)) (.levelTick r) ++
    mayDo (u.live == 0 && decide (u.launch.items ≤ u.pushed) && w.frontiersStill r) (.launchEnd r)

/-- The moves of a region. -/
def Work.regionMoves (w : Work) (r : Nat) : List Move :=
  let x := w.region r
  mayDo (!x.freeColours.isEmpty && (w.grantee r).any fun f => !(w.cell f.cell).fired) (.colourGrant r) ++
  mayDo (x.cpoolSince.any fun t => decide (2 ^ x.cwdog ≤ w.mod.cycle - t)) (.colourWatchdog r) ++
  ((x.shapes.filter fun e =>
    w.recomputeDue r e.1 && !w.scopeBehind r e.1).map fun e =>
      .event (.frontierRecompute r e.1)) ++
  w.deliveries r ++
  (x.arrs.map fun a =>
    mayDo (x.compFrontier a.2 != a.2.c) (.compactionFrontierRecompute r a.1) ++
      mayDo (w.passRuns r a.1 a.2 && (a.2.run.isSome || a.2.passDue)) (.pass r a.1)).flatten ++
  mayDo (!x.faults.isEmpty) (.faultRecordPost r) ++
  mayDo (x.balanceDue w.mod.cycle) (.balanceInterval r) ++
  w.launchMoves r ++
  ((w.grovesOf r).map fun g => .event (.residencyNotify r g)) ++
  (((w.grovesOf r).filter (w.reads r)).map fun g => .event (.spillReadback r g)) ++
  ((x.spill.filter fun e => e.2.since.isNone && e.2.wait == 2 && decide (e.2.value.toNat ≤ w.mod.cycle)).map fun e =>
    .event (.cycleWaitExpiry ((w.mgrove r 0).getD 0) (32 + e.1))) ++
  mayDo (!x.purge.isEmpty) (.purgeWaveComplete r) ++
  mayDo x.freezing.isSome (.freezeWave r) ++ mayDo x.thawing.isSome (.thawComplete r) ++
  mayDo x.stopping.isSome (.stopComplete r)

/-- The moves of a cell's mapping table, whether or not a region holds the cell (R178, R179). -/
def Cell.mapMoves (c : Cell) (mc : Nat) : List Move :=
  (c.maps.map fun e =>
    mayDo (e.2.st == 1) (.mapRegistrationComplete mc e.1) ++ mayDo (e.2.st == 3) (.mapUnmapComplete mc e.1)).flatten

/-- The moves of the module's own units. -/
def Work.moduleMoves (w : Work) : List Move :=
  let m := w.mod
  (w.cells.map fun e => e.2.mapMoves e.1).flatten ++
  (((List.range 4).map m.walking).flatten.map fun q => .event (.translationWalk q.asid q.vpn)) ++
  ((m.streams.filter fun x => x.idle.isSome).map fun x => .event (.streamClose x.isCell x.agent x.target)) ++
  (m.heldStreams.filterMap fun h =>
    if h.code = 0 then h.reqs.head?.map fun q => Move.event (.invokeAccept q) else none) ++
  ((m.dogs.filter fun d => !d.2.2 && decide (d.2.1 + dogPeriod ≤ m.cycle)).map fun d => .event (.stallWatchdog d.1)) ++
  mayDo m.attreq .attreq ++ mayDo m.queueTakes .hostQueueLaunch ++ mayDo m.queueTakes .hostQueueRelease

/-- Every move of the machine itself. -/
def Work.couldDo (w : Work) : List Move :=
  (w.loadedCells.map w.cellMoves).flatten ++ (w.loadedGroves.map w.coreMoves).flatten ++
  (w.loadedGroves.map w.groveMoves).flatten ++ (w.loadedGroves.map w.mxMoves).flatten ++
  (w.loadedRegions.map w.regionMoves).flatten ++ w.moduleMoves

/-- A core that would issue its next instruction: it stops before one that a breakpoint names, unless that instruction was
the stop's own or has been issued already (R409, R410). -/
def Work.issue (w : Work) (g : Nat) : Work :=
  let r := w.rno g
  let x := w.region r
  let go : Work := { w with moves := [.run (.core g)] }
  let new := go.updCore g fun c => { c with issued := true, task := c.task.map fun t => { t with noHit := false } }
  if (w.core g).stall.isSome then go
  else if (w.core g).cur.noHit then new
  else
    match x.ibpHit 1 (w.grove g).gidx fun p => p == (w.core g).pc.toNat with
    | some i => w.stopBefore g i
    | none => new

/-- The cores' program times that must be raised as cycles pass from `c` on (R194). -/
def Work.timeMoves (w : Work) (c : Nat) : List Move :=
  if c / 8 = w.mod.cycle / 8 then []
  else (w.cores.filter fun e => e.2.task.isSome).map fun e => .event (.programTimeAdvance e.1)

/-- A move put before the machine: a cell that fires, or a port unit that issues, has done so for this cycle (R17). -/
def Work.putMove (w : Work) (m : Move) : Work :=
  let w1 : Work := { w with toDev.moves := [m] }
  match m with
  | .run (.core g) => w.issue g
  | .run a =>
    match w.twigAt a with
    | none => w1
    | some t =>
      let w2 := w1.setTwig a (t.issues w.mod.cycle)
      if t.stall.isSome then w2
      else if agentIsMx a then w2.updMx (agentGrove a) fun x => { x with issued := true }
      else w2.updCell (agentCell a) fun c => { c with issued := true }
  | .fire f => if w.chosen f then w1.updCell f.cell fun c => { c with fired := true } else w1
  | .event _ => w1

/-- The chosen move put before the machine: of what must come first, one; else of what is offered from outside and what the
machine could do, one or none. -/
def Work.chooseMove (w : Work) : Work :=
  let pick := Config.choose w.tick
  match w.lateMoves with
  | m :: ms => w.putMove ((m :: ms).getD (pick % (ms.length + 1)) m)
  | [] =>
    let outside := (w.inputs.take 1).filter isOutside
    let os := (outside.map Move.event) ++ w.couldDo
    match os[pick % (os.length + 1)]? with
    | none => w
    | some m =>
      let w1 := w.putMove m
      if pick % (os.length + 1) < outside.length then { w1 with toDev.inputs := w.inputs.drop 1 } else w1

/-- A step with no move chosen: time passes, and the next moves are chosen; a rebase that is due comes first (R5, R191,
R195). -/
def schedule (s : State) : State :=
  s.via fun w =>
    let w1 := w.settle
    let w2 := if w1.mod.rebaseDue then { w1 with toDev.moves := [Move.event .timeRebase] } else w1.chooseMove
    { w2 with toDev.moves := w1.timeMoves w.mod.cycle ++ w2.toDev.moves, tick := w2.tick + 1 }

/-! ## Taking a move -/

/-- The state with its next moves and the agent whose instruction runs. -/
def State.take (s : State) (ms : List Move) (a : Agent) : State := { s with moves := ms, turn := a }

/-- The state with its next moves and the firing whose node's step runs. -/
def State.takeFire (s : State) (ms : List Move) (f : Fire) : State := { s with moves := ms, fire := f }

/-! ## An instruction placed as the next one to run (log entry 8) -/

/-- The twig context that holds one word, nothing else. -/
def oneWordTwig (x : Code) : Twig where
  node := 0
  record := 0
  colour := 0
  iter := 0
  seq := 0
  ins := []
  entry := 0
  header := 0
  code := [x]
  next := 0
  temps := List.replicate 8 ⟨0, false⟩
  outA := none
  outB := none
  order := 0
  stall := none
  lsid := 0
  packet := 0
  busy := []

/-- The agent that runs an instruction word: a matrix handler for MMA, a cell's twig for vector words, else a task core. -/
def agentFor : Instr → Agent
  | .mma .. => .mx 0 0
  | i => if i.twigOnly then .twig 0 0 else .core 0

/-- Region 0 with grove 0 as its only grove and cell 0 as its only cell. -/
def oneGrove (w : Work) : Work :=
  (w.updRegion 0 fun r => { r with loaded := true, table := ⟨1, 0, 0, [(0, 0, 0, 0)], [(0, 0, 0, 0)]⟩ }).updGrove 0
    fun g => { g with region := some 0, gidx := 0 }

/-- A word placed where its agent fetches next, the agent's run chosen as the next move. -/
def placeWord (x : Code) (w : Work) : Work :=
  let a := match decode x with
    | .ok i => agentFor i
    | .error _ => .core 0
  let w1 := match a with
    | .core g =>
      ((oneGrove w).store (codeBase g + (w.core g).pc.toNat) (leBytes 4 x.toNat)).updCore g fun c =>
        { c with task := some (c.task.getD ⟨0, 0, 0, 0, 0, 0, 0, false⟩), halted := false }
    | .twig c k => (oneGrove w).updCell c fun y => { y with twigs := Tbl.put y.twigs k (oneWordTwig x) }
    | .mx g k => (oneGrove w).updMx g fun y => { y with twigs := Tbl.put y.twigs k (oneWordTwig x) }
    | .debug _ => w
  { w1 with moves := [.run a] }

end Sys2Proof.Machine
end

