-- ==== Sys2Proof/Machine/Step.lean ====
section
/-! DEFINITION. One step of the module: the chosen move performed, or the next moves chosen (log entry 2). -/

namespace Sys2Proof.Machine

/-- One step. -/
def step (s : State) : Host.Outcome State Fault Refusal :=
  match s.moves with
  | [] => .next (schedule s)
  | .event i :: ms => exec i (s.take ms s.turn)
  | .run a :: ms => exec (fetch s a) (s.take ms a)
  | .fire f :: ms => exec (fireStep s f) (s.takeFire ms f)

/-- The state with an instruction word placed where `step` fetches its next instruction. -/
def State.withFetchWord (s : State) (_nbits w : Nat) : State := s.via (placeWord (BitVec.ofNat 32 w))

end Sys2Proof.Machine
end

