-- ==== Sys2Proof/Safety.lean ====
section
/-! DEFINITION. What a safe run is, and the words in which the claims speak of a state and of what an instruction leaves:
the agent that runs, a unit replaced, a register written and the core gone on, a trap taken. -/

namespace Sys2Proof.Safety

open Sys2Proof.Machine

/-! ## Runs -/

/-- A step answers a next state. -/
def Goes (s : State) : Prop := ∃ t, step s = .next t

/-- A property that every step keeps. -/
def Kept (P : State → Prop) : Prop := ∀ s t, P s → step s = .next t → P t

/-- A run of `n` steps never stops. -/
def Runs : Nat → State → Prop
  | 0, _ => True
  | n + 1, s => ∃ t, step s = .next t ∧ Runs n t

/-- Memory is in its canonical form. -/
def MemOk (s : State) : Prop := Memory.wf s.mem

/-! ## Units of a state -/

/-- The task core of a module grove. -/
def coreOf (s : State) (g : Nat) : Core := (Work.of s).core g

/-- A cell, numbered 16 × module grove + cell. -/
def cellOf (s : State) (c : Nat) : Cell := (Work.of s).cell c

/-- The other units of a module grove. -/
def groveOf (s : State) (g : Nat) : Grove := (Work.of s).grove g

/-- A region. -/
def regionOf (s : State) (r : Nat) : Region := (Work.of s).region r

/-- The region that holds a module grove. -/
def regionAt (s : State) (g : Nat) : Region := (Work.of s).regOf g

/-- A register of a task core as an instruction reads it. -/
def reg (s : State) (g : Nat) (r : BitVec 5) : Word := (coreOf s g).reg r

/-- The byte at a local physical address. -/
def byteAt (s : State) (a : Nat) : Byte := s.mem.get a

/-- The state with a task core replaced, and nothing else changed. -/
def withCore (s : State) (g : Nat) (c : Core) : State := { s with cores := Tbl.put s.cores g c }

/-! ## Task cores -/

/-- The next instruction is that of the task core of grove `g`, which runs a task and is not halted by a debugger. -/
abbrev OnCore (s : State) (g : Nat) : Prop :=
  s.turn = .core g ∧ (coreOf s g).task ≠ none ∧ (coreOf s g).halted = false

/-- The core may go on at `pc`: it is in the supervisor area already, or `pc` lies below it (R386). -/
abbrev MayGo (s : State) (g : Nat) (pc : BitVec 16) : Prop :=
  (regionAt s g).supBase ≤ (coreOf s g).pc.toNat ∨ pc.toNat < (regionAt s g).supBase

/-- The core runs an instruction that goes on at the next word, or at the first of a loop that goes round. -/
abbrev Ready (s : State) (g : Nat) : Prop := OnCore s g ∧ MayGo s g (coreOf s g).step.pc

/-- The core's mode is supervisor mode: its PC is at or above SUPBASE (R386). -/
abbrev Super (s : State) (g : Nat) : Prop := (regionAt s g).supBase ≤ (coreOf s g).pc.toNat

/-- A core that goes on after an instruction it no longer holds. -/
def goneOn (c : Core) : Core := { c.step with stall := none }

/-- The state with register `d` of a core written and the core gone on. -/
def gave (s : State) (g : Nat) (d : BitVec 5) (v : Word) : State := withCore s g (goneOn ((coreOf s g).setReg d v))

/-- An instruction whose whole effect is to write register `d` and go on. -/
def Gives (s : State) (g : Nat) (i : Instr) (d : BitVec 5) (v : Word) : Prop := exec i s = .next (gave s g d v)

/-- The state in which a core has seen what its failed walks ended in (R183; log entry 86). -/
def walksSeen (s : State) (g : Nat) : State := s.via fun w => w.endWalks (coreWaiter g)

/-- The state in which a core has taken a precise fault: in its handler, or with its task frozen (R387), its failed walks seen. -/
def raised (s : State) (g code : Nat) (addr aux : Word) : State :=
  s.via fun w => (w.endWalks (coreWaiter g)).raise g code addr aux none

/-- An instruction that raises a precise fault and does nothing else. -/
def Raises (s : State) (g : Nat) (i : Instr) (code : Nat) (addr : Nat) : Prop :=
  exec i s = .next (raised s g code (BitVec.ofNat 64 addr) 0)

/-! ## Integer operands and results (R125) -/

/-- An operand read as two's complement on the width of a type: 64 bits for types 0 and 1, 32 for 2 and 3. -/
def asInt (t : BitVec 3) (x : Word) : Int := if t.toNat < 2 then x.toInt else (x.setWidth 32).toInt

/-- An operand read as unsigned. -/
def asNat (t : BitVec 3) (x : Word) : Int := if t.toNat < 2 then x.toNat else (x.setWidth 32).toNat

/-- An operand read as the type says: types 0 and 2 are signed. -/
def asTyped (t : BitVec 3) (x : Word) : Int := if t.toNat % 2 = 0 then asInt t x else asNat t x

/-- A result: wrapped to the width, a 32-bit one extended by sign for s32 and by zeros for w32. -/
def result (t : BitVec 3) (n : Int) : Word :=
  if t.toNat < 2 then BitVec.ofInt 64 n
  else if t.toNat = 2 then (BitVec.ofInt 32 n).signExtend 64
  else (BitVec.ofInt 32 n).setWidth 64

/-- A truth value as a compare writes it (R68). -/
def truth (p : Bool) : Word := if p then 1 else 0

/-- A compare's condition, codes 0 EQ, 1 NE, 2 LT, 3 GE, 4 LE, 5 GT (R68). -/
def cond (c : BitVec 3) (x y : Int) : Bool :=
  match c.toNat with
  | 0 => x = y
  | 1 => x ≠ y
  | 2 => x < y
  | 3 => x ≥ y
  | 4 => x ≤ y
  | _ => x > y

/-- The bits of a type's width. -/
def width (t : BitVec 3) : Nat := if t.toNat < 2 then 64 else 32

/-- The leading zero bits of an operand on the width of a type. -/
def leading (t : BitVec 3) (x : Word) : Nat :=
  ((List.range (width t)).takeWhile fun i => !x.getLsbD (width t - 1 - i)).length

/-- The one bits of an operand on the width of a type. -/
def oneBits (t : BitVec 3) (x : Word) : Nat := ((List.range (width t)).filter fun i => x.getLsbD i).length

/-- The quotient and remainder of R128. -/
def quotRem (signed : Bool) (t : BitVec 3) (x y : Word) : Int × Int :=
  let n := if signed then asInt t x else asNat t x
  let m := if signed then asInt t y else asNat t y
  if m = 0 then (-1, n)
  else if signed = true ∧ n = -(2 ^ (width t - 1)) ∧ m = -1 then (n, 0)
  else (n.tdiv m, n - n.tdiv m * m)

/-! ## Register instructions: their destination, their sources in order, and the value of the sources' values -/

/-- A scalar register instruction's fields and value. -/
structure ScalarOp where
  d : BitVec 5
  srcs : List (BitVec 5)
  f : List Word → Word

/-- A value of one source. -/
def of1 (f : Word → Word) : List Word → Word
  | [x] => f x
  | _ => 0

/-- A value of two sources. -/
def of2 (f : Word → Word → Word) : List Word → Word
  | [x, y] => f x y
  | _ => 0

/-- A value of three sources. -/
def of3 (f : Word → Word → Word → Word) : List Word → Word
  | [x, y, z] => f x y z
  | _ => 0

/-- The integer, division and immediate instructions (R125 to R128). -/
def intOp : Instr → Option ScalarOp
  | .add d a b t _ => some ⟨d, [a, b], of2 fun x y => result t (asInt t x + asInt t y)⟩
  | .sub d a b t _ => some ⟨d, [a, b], of2 fun x y => result t (asInt t x - asInt t y)⟩
  | .mul d a b t _ => some ⟨d, [a, b], of2 fun x y => result t (asInt t x * asInt t y)⟩
  | .mulh d a b t _ => some ⟨d, [a, b], of2 fun x y => result t (asTyped t x * asTyped t y / 2 ^ width t)⟩
  | .mulhu d a b t _ => some ⟨d, [a, b], of2 fun x y => result t (asTyped t x * asNat t y / 2 ^ width t)⟩
  | .and d a b t _ => some ⟨d, [a, b], of2 fun x y => result t (x &&& y).toInt⟩
  | .or d a b t _ => some ⟨d, [a, b], of2 fun x y => result t (x ||| y).toInt⟩
  | .xor d a b t _ => some ⟨d, [a, b], of2 fun x y => result t (x ^^^ y).toInt⟩
  | .shl d a b t _ => some ⟨d, [a, b], of2 fun x y => result t (asInt t x * 2 ^ (y.toNat % width t))⟩
  | .shr d a b t _ => some ⟨d, [a, b], of2 fun x y => result t (asNat t x / 2 ^ (y.toNat % width t))⟩
  | .sra d a b t _ => some ⟨d, [a, b], of2 fun x y => result t (asInt t x / 2 ^ (y.toNat % width t))⟩
  | .min d a b t _ => some ⟨d, [a, b], of2 fun x y => result t (min (asInt t x) (asInt t y))⟩
  | .max d a b t _ => some ⟨d, [a, b], of2 fun x y => result t (max (asInt t x) (asInt t y))⟩
  | .minu d a b t _ => some ⟨d, [a, b], of2 fun x y => result t (min (asNat t x) (asNat t y))⟩
  | .maxu d a b t _ => some ⟨d, [a, b], of2 fun x y => result t (max (asNat t x) (asNat t y))⟩
  | .cmp d a b t c => some ⟨d, [a, b], of2 fun x y => truth (cond c (asTyped t x) (asTyped t y))⟩
  | .sel d a b t _ => some ⟨d, [a, b, d], of3 fun x y z => result t (if z.getLsbD 0 then asInt t x else asInt t y)⟩
  | .clz d a t _ => some ⟨d, [a], of1 fun x => BitVec.ofNat 64 (leading t x)⟩
  | .popc d a t _ => some ⟨d, [a], of1 fun x => BitVec.ofNat 64 (oneBits t x)⟩
  | .sext d a b _ => some ⟨d, [a], of1 fun x => (x.setWidth (8 * 2 ^ b.toNat)).signExtend 64⟩
  | .div d a b t => some ⟨d, [a, b], of2 fun x y => result t (quotRem (t.toNat % 2 = 0) t x y).1⟩
  | .divu d a b t => some ⟨d, [a, b], of2 fun x y => result t (quotRem false t x y).1⟩
  | .rem d a b t => some ⟨d, [a, b], of2 fun x y => result t (quotRem (t.toNat % 2 = 0) t x y).2⟩
  | .remu d a b t => some ⟨d, [a, b], of2 fun x y => result t (quotRem false t x y).2⟩
  | .addi d a i => some ⟨d, [a], of1 fun x => x + i.signExtend 64⟩
  | .andi d a i => some ⟨d, [a], of1 fun x => x &&& i.signExtend 64⟩
  | .ori d a i => some ⟨d, [a], of1 fun x => x ||| i.setWidth 64⟩
  | .xori d a i => some ⟨d, [a], of1 fun x => x ^^^ i.setWidth 64⟩
  | .lih d a i => some ⟨d, [a], of1 fun x => (x <<< 16) ||| i.setWidth 64⟩
  | .shli d a n => some ⟨d, [a], of1 fun x => x <<< n.toNat⟩
  | .shri d a n => some ⟨d, [a], of1 fun x => x >>> n.toNat⟩
  | .srai d a n => some ⟨d, [a], of1 fun x => x.sshiftRight n.toNat⟩
  | .cmpi d a c i => some ⟨d, [a], of1 fun x => truth (cond c x.toInt i.toInt)⟩
  | _ => none

/-- The scalar floating-point instructions, over the exact numbers that the encodings stand for (R129 to R131). -/
def fpOp : Instr → Option ScalarOp
  | .fadd d a b t _ => some ⟨d, [a, b], of2 fun x y => fpOut t ((fpVal t x).add (fpVal t y))⟩
  | .fsub d a b t _ => some ⟨d, [a, b], of2 fun x y => fpOut t ((fpVal t x).add (fpVal t y).neg)⟩
  | .fmul d a b t _ => some ⟨d, [a, b], of2 fun x y => fpOut t ((fpVal t x).mul (fpVal t y))⟩
  | .ffma d a b t _ =>
    some ⟨d, [a, b, d], of3 fun x y z => fpOut t (((fpVal t x).mul (fpVal t y)).add (fpVal t z))⟩
  | .fmin d a b t _ => some ⟨d, [a, b], of2 fun x y => fpOut t (Num.pick false (fpVal t x) (fpVal t y))⟩
  | .fmax d a b t _ => some ⟨d, [a, b], of2 fun x y => fpOut t (Num.pick true (fpVal t x) (fpVal t y))⟩
  | .fcmp d a b t c => some ⟨d, [a, b], of2 fun x y => truth (Num.cond c.toNat (fpVal t x) (fpVal t y))⟩
  | .fcvt d a e c =>
    some ⟨d, [a], of1 fun x => BitVec.ofNat 64 (convertElem c.toNat e.toNat (x.toNat % 2 ^ codeWidth c.toNat))⟩
  | .frcp d a t _ => some ⟨d, [a], of1 fun x => BitVec.ofNat 64 ((fpFmt t).recip (fpVal t x))⟩
  | .fsqrt d a t _ => some ⟨d, [a], of1 fun x => BitVec.ofNat 64 ((fpFmt t).sqrt (fpVal t x))⟩
  | .fexp2 d a t _ => some ⟨d, [a], of1 fun x => BitVec.ofNat 64 ((fpFmt t).exp2 (fpVal t x))⟩
  | _ => none

/-- A vector instruction's fields and value, the sources and the value as 256-bit numbers. -/
structure VectorOp where
  d : BitVec 5
  srcs : List (BitVec 5)
  f : List Nat → Nat

/-- A value of the lanes of two sources. -/
def lane2 (t : BitVec 3) (f : Nat → Nat → Nat) : List Nat → Nat
  | [x, y] => laneMap2 t f x y
  | _ => 0

/-- A value of the lanes of three sources. -/
def lane3 (t : BitVec 3) (f : Nat → Nat → Nat → Nat) : List Nat → Nat
  | [x, y, z] => laneMap3 t f x y z
  | _ => 0

/-- A value of the whole of one source. -/
def whole1 (f : Nat → Nat) : List Nat → Nat
  | [x] => f x
  | _ => 0

/-- A value of the whole of two sources. -/
def whole2 (f : Nat → Nat → Nat) : List Nat → Nat
  | [x, y] => f x y
  | _ => 0

/-- The vector instructions (R132 to R136). -/
def vecOp : Instr → Option VectorOp
  | .vadd d a b t _ => some ⟨d, [a, b], lane2 t (laneAdd t)⟩
  | .vsub d a b t _ => some ⟨d, [a, b], lane2 t (laneSub t)⟩
  | .vmul d a b t _ => some ⟨d, [a, b], lane2 t (laneMul t)⟩
  | .vfma d a b t _ => some ⟨d, [a, b, d], lane3 t (laneFma t)⟩
  | .vmin d a b t _ => some ⟨d, [a, b], lane2 t (laneMinMax false t)⟩
  | .vmax d a b t _ => some ⟨d, [a, b], lane2 t (laneMinMax true t)⟩
  | .vcmp d a b t c => some ⟨d, [a, b], lane2 t (laneCmp t c.toNat)⟩
  | .vsel d a b t _ => some ⟨d, [a, b, d], lane3 t fun x y z => if z % 2 = 1 then x else y⟩
  | .vcvt d a e c => some ⟨d, [a], whole1 (vcvt c.toNat e.toNat)⟩
  | .vred d a t r => some ⟨d, [a], whole1 (reduce t r)⟩
  | .vshuf d a b t _ => some ⟨d, [a, b], whole2 (shuffle t)⟩
  | .vbcast d a t _ =>
    some ⟨d, [a], whole1 fun x => unlanes t (List.replicate (laneN t) (x % 2 ^ laneW t))⟩
  | .vpack d a b t _ => some ⟨d, [a, b], whole2 (vpackVal t)⟩
  | .vunpk d a t _ => some ⟨d, [a], whole1 (vunpkVal t)⟩
  | .vexp2 d a t _ => some ⟨d, [a], whole1 fun x => unlanes t ((lanes t x).map (laneExp2 t))⟩
  | .vrcp d a t _ => some ⟨d, [a], whole1 fun x => unlanes t ((lanes t x).map (laneRcp t))⟩
  | _ => none

/-! ## Twig contexts -/

/-- The next instruction is that of a twig context, in a cell, in a matrix element, or in a debug slot. -/
def OnTwig (s : State) (a : Agent) (t : Twig) : Prop := s.turn = a ∧ (Work.of s).twigAt a = some t

/-- The state with a twig context replaced. -/
def withTwig (s : State) (a : Agent) (t : Twig) : State := s.via fun w => w.setTwig a t

/-- What a twig's instruction writes: null where its guard turns it off or a source is null, else its value (R115). -/
def twigValue (t : Twig) (guard : BitVec 3) (srcs : List (BitVec 5)) (v : BitVec 256) : TVal :=
  if t.on guard = true ∧ ∀ r ∈ srcs, (t.src r).null = false then ⟨v, false⟩ else ⟨0, true⟩

/-! ## Control transfers and traps (R137 to R140, R386 to R390) -/

/-- A branch's test, conditions AL, Z, NZ, LTZ, GEZ, GTZ, LEZ (R68). -/
def branchTest (k : BitVec 3) (x : Word) : Prop :=
  match k.toNat with
  | 0 => True
  | 1 => x = 0
  | 2 => x ≠ 0
  | 3 => x.toInt < 0
  | 4 => 0 ≤ x.toInt
  | 5 => 0 < x.toInt
  | _ => x.toInt ≤ 0

/-- A displacement of `n` words from the running instruction, modulo 2^16 (R137). -/
def wordsOn (s : State) (g : Nat) (n : Int) : BitVec 16 := (coreOf s g).pc + BitVec.ofInt 16 (n * 4)

/-- A core that has transferred control: a transfer out of its loop's body ends the loop, unless trap entry has suspended
its tracking (R139). -/
def jumped (c : Core) (pc : BitVec 16) : Core :=
  if c.loopActive && !c.trap.loopHeld && (decide (pc.toNat < c.bodyStart.toNat) || decide (c.bodyEnd.toNat < pc.toNat)) then
    { c with pc := pc, loopActive := false, loopcnt := 0, stall := none }
  else { c with pc := pc, stall := none }

/-- The address of the word after the running instruction, zero-extended: what a link register receives (R138). -/
def linkOf (s : State) (g : Nat) : Word := ((coreOf s g).pc + 4).setWidth 64

/-- S.STATUS: INTRAP in bit 1, MODE in bit 0 (R390). -/
def statusOf (s : State) (g : Nat) : Word :=
  BitVec.ofNat 64 ((if (coreOf s g).trap.intrap then 2 else 0) +
    (if (regionAt s g).supBase ≤ (coreOf s g).pc.toNat then 1 else 0))

/-- A handler takes the next trap: S.TVEC.V is 1 and no trap is open (R387). -/
abbrev Handles (s : State) (g : Nat) : Prop :=
  (regionAt s g).tvec.getLsbD 63 = true ∧ (coreOf s g).trap.intrap = false

/-- The core inside its handler, with the four registers that the entry writes; a loop that it found active is not tracked
(R139, R387). -/
def inHandler (s : State) (g : Nat) (cause epc addr : Word) : Core :=
  { coreOf s g with
    trap := ⟨true, cause, epc, statusOf s g, addr, (coreOf s g).loopActive⟩
    pc := BitVec.ofNat 16 ((regionAt s g).tvec.toNat / 4 % 2 ^ 14 * 4)
    stall := none }

/-- The supervisor-only instructions (R388, R389, R391, R392, R394, R395, R397, R398, R340). -/
def supervisorOnly : Instr → Bool
  | .eret | .tlbinv .. | .tlbinvAsid .. | .tlbinvAll | .halt .. | .haltRun .. | .freeze .. | .thaw .. | .cfgflip ..
  | .ckill .. | .resw .. => true
  | _ => false

/-- The system registers by number (R390); a write-only one reads zero. -/
def sysValue (s : State) (g : Nat) : Nat → Word
  | 0 => statusOf s g
  | 1 => (coreOf s g).trap.cause
  | 2 => (coreOf s g).trap.epc
  | 3 => (coreOf s g).trap.estatus
  | 4 => (coreOf s g).trap.faddr
  | 5 => (regionAt s g).tvec
  | 6 => (coreOf s g).scratch
  | 7 => BitVec.ofNat 64 (coreOf s g).asid
  | 8 => (Tbl.getD s.mod.asTable (coreOf s g).asid (0, 64)).1
  | 9 => BitVec.ofNat 64 s.mod.cycle
  | 10 => (coreOf s g).loopcnt
  | 11 => BitVec.ofNat 64 (s.mod.modNo * 2 ^ 32 + (groveOf s g).region.getD 320 * 2 ^ 20 + (groveOf s g).gidx * 2 ^ 12 + g)
  | 12 => (regionAt s g).faultq
  | 13 => BitVec.ofNat 64 (s.mod.eolDays * 2 ^ 48 + s.mod.wgrove * 2 ^ 32 + s.mod.wpct * 2 ^ 24 +
      (groveOf s g).ownOsc * 2 ^ 8 + (groveOf s g).ownPct)
  | 14 => s.mod.clk
  | _ => 0

/-- The system registers that user mode may name: S.STATUS, S.ASID, S.CYCLE, S.LOOPCNT, S.GROVE, S.FAULTQ, S.WEAR and
S.CLKRATIO (R390). -/
def userNamed : List Nat := [0, 7, 9, 10, 11, 12, 13, 14]

/-- A core with one of its own system registers written, each kept to the bits it has (R390). -/
def sysPut (c : Core) (v : Word) : Nat → Core
  | 1 => { c with trap := { c.trap with cause := v &&& 0x1FFF } }
  | 2 => { c with trap := { c.trap with epc := v &&& 0xFFFC } }
  | 3 => { c with trap := { c.trap with estatus := v &&& 3 } }
  | 4 => { c with trap := { c.trap with faddr := v } }
  | 6 => { c with scratch := v }
  | 7 => { c with asid := v.toNat % 64 }
  | 10 => { c with loopcnt := v }
  | _ => c

/-! ## Task-core instructions that do more than write a register -/

/-- An instruction of a core that completes in the state `t`: `d` holds `v`, the core goes on, and its other registers, its
trap registers, its loop and its task are as the step leaves them. -/
structure Did (s : State) (g : Nat) (i : Instr) (d : BitVec 5) (v : Word) (t : State) : Prop where
  runs : exec i s = .next t
  regs : (coreOf t g).regs = ((coreOf s g).setReg d v).regs
  pc : (coreOf t g).pc = (coreOf s g).step.pc
  loopActive : (coreOf t g).loopActive = (coreOf s g).step.loopActive
  loopcnt : (coreOf t g).loopcnt = (coreOf s g).step.loopcnt
  trap : (coreOf t g).trap = (coreOf s g).trap
  task : (coreOf t g).task = (coreOf s g).task

/-- An instruction whose task a core may suspend: no loop active, no trap open, an entry of the suspension table for it, and
room for the record (R146 to R148). -/
abbrev MaySuspend (s : State) (g : Nat) (live : BitVec 32) (pc : BitVec 16) : Prop :=
  (coreOf s g).loopActive = false ∧ (coreOf s g).trap.intrap = false ∧
    Tbl.find (coreOf s g).susp (coreOf s g).pc.toNat = some live ∧ (Work.of s).slotsHeld g + 1 ≤ 32 ∧ MayGo s g pc

/-- An instruction that suspends its task: the core runs no task, and keeps a record that resumes at `pc` and waits in a kind
on an object, with the live registers saved, DREG's as zero unless the condition compares it, and the requests it waits for
(R147, R148, R150, R152, R208). -/
def Suspends (s : State) (g : Nat) (i : Instr) (kind obj : Nat) (val : Option (BitVec 5)) (dreg : BitVec 5) (pc : BitVec 16)
    (live : BitVec 32) (runnable : Bool) : Prop :=
  ∃ t x, exec i s = .next t ∧ (coreOf t g).task = none ∧ (coreOf t g).slots = (coreOf s g).slots ++ [x] ∧ x.pc = pc ∧
    x.wait = kind ∧ x.wobj = obj ∧ x.dreg = dreg ∧ x.live = live ∧ x.regs = (coreOf s g).saved live val dreg ∧
    x.pend = (Work.of s).covers g kind obj ∧ x.full = false ∧ some x.task = (coreOf s g).task ∧ x.since = (if runnable then some s.mod.cycle else none) ∧
    t.mem = s.mem

/-- An instruction that is held: the core keeps it, and the state is otherwise as it was (R155, R158). -/
def Holds (s : State) (g : Nat) (i : Instr) : Prop :=
  exec i s = .next (withCore s g { coreOf s g with stall := some ((coreOf s g).stall.getD s.mod.cycle) })

/-- The address of a load or store of `n` bytes: base plus the offset in units of the size (R118, R142). -/
def addrOf (base : Word) (o : BitVec 9) (n : Nat) : Nat := (base + BitVec.ofInt 64 (o.toInt * n)).toNat

/-- The translation that a core's buffers hold for a virtual address. -/
def bufferedAt (s : State) (g va : Nat) : Option Xlat := (Work.of s).buffered g true (coreOf s g).asid va

/-- A buffered translation lets a core's access of a kind reach `la`, `n` bytes of this module's memory that no mapped range
holds (R168, R179, R182). -/
def Reaches (s : State) (g : Nat) (nd : Need) (va la n : Nat) : Prop :=
  va < 2 ^ 57 ∧
    (∃ x, bufferedAt s g va = some x ∧ x.refuses nd (!(Work.of s).super g) = false ∧
      (nd.w = true → x.attr.getLsbD 8 = true) ∧ (x.pa + (va - x.base)) / 2 ^ 45 = s.mod.modNo ∧
      (x.pa + (va - x.base)) % 2 ^ 45 = la) ∧
    la + n ≤ memTop ∧ ∀ i < n, (Work.of s).loc (la + i) = la + i ∧ (Work.of s).readOnly (la + i) = false

/-- No byte of a range of local addresses meets an uncorrectable error when read (R118, R143, R189; log entry 79). -/
def Sound (s : State) (a n : Nat) : Prop := ∀ b ∈ s.mod.spoilt, b < a ∨ a + n ≤ b

/-- A core's L1 line holds an address under its lease (R193). -/
def Cached (s : State) (g la : Nat) : Prop :=
  ((Work.of s).l1Copy g (la / 192)).isSome

/-- The number that `n` bytes of memory hold, little-endian (R3). -/
def numAt (s : State) (a n : Nat) : Nat := leNat ((List.range n).map fun i => byteAt s (a + i))

/-- The bytes that a core's load sees: those of its L1 line while the line's lease holds, else memory's (R193). -/
def seen (s : State) (g la n : Nat) : List Byte :=
  match (Work.of s).l1Copy g (la / 192) with
  | some l => (l.bytes.drop (la - la / 192 * 192)).take n
  | none => (List.range n).map fun i => byteAt s (la + i)

/-- Bytes stored: those from `a` on hold the number, little-endian, and every other byte is as it was. -/
def Stored (s t : State) (a n v : Nat) : Prop :=
  (∀ i < n, byteAt t (a + i) = BitVec.ofNat 8 (v / 256 ^ i)) ∧ ∀ b, b < a ∨ a + n ≤ b → byteAt t b = byteAt s b

/-- The words of a mail channel of a core (R153). -/
def mailOf (s : State) (g n : Nat) : List Word := (coreOf s g).chan n

/-- The launch that a region runs. -/
def runningOf (s : State) (r : Nat) : Option Running := (regionOf s r).running

/-- A buffer handle of a grove. -/
def handleOf (s : State) (g h : Nat) : Handle := (groveOf s g).handle h

/-- The region number of a grove. -/
def regionNo (s : State) (g : Nat) : Nat := (groveOf s g).region.getD 320

/-- The bytes that an instruction of a core reads at a virtual address, and the work after it. -/
def Reads (s : State) (g va n : Nat) (bs : List Byte) (w : Work) : Prop :=
  (Work.of s).vread ((Work.of s).accCore g) va n = .ok (bs, w)

/-- The commands of ENG: number, destination, descriptor, binding and context (R225). -/
def engCode : Instr → Option (Nat × BitVec 5 × BitVec 5 × BitVec 5 × BitVec 3)
  | .scopy d e h c => some (1, d, e, h, c)
  | .sfeed d e h c => some (2, d, e, h, c)
  | .sdrain d e h c => some (3, d, e, h, c)
  | .smcast d e h c => some (4, d, e, h, c)
  | .sgath d e h c => some (5, d, e, h, c)
  | .sscat d e h c => some (6, d, e, h, c)
  | .srowc d e h c => some (7, d, e, h, c)
  | .srowz d e h c => some (8, d, e, h, c)
  | .gsend d e h c => some (10, d, e, h, c)
  | _ => none

/-- An engine context of a grove. -/
def engineOf (s : State) (g k : Nat) : Engine := (groveOf s g).engine k

/-! ## Nodes -/

/-- The node of a firing runs: its instance holds its tokens, its record has the operation, and its cell chooses it (R94,
R95). -/
structure Fires (s : State) (f : Fire) (x : Inst) (opc : Nat) : Prop where
  fire : s.fire = f
  inst : (cellOf s f.cell).inst f = some x
  opc : nOpc x.r = opc
  chosen : (Work.of s).chosen f = true

/-- Nothing outside a cell changes but groves' counts, where its region keeps no trace (R416 to R418). -/
def CellOnly (s t : State) (c : Nat) : Prop :=
  (regionAt s (c / 16)).trctl.getLsbD 63 = false →
    t.mem = s.mem ∧ t.cores = s.cores ∧ t.regions = s.regions ∧ t.mxs = s.mxs ∧ ∀ k, k ≠ c → cellOf t k = cellOf s k

/-- What a firing leaves in its cell: its outputs that name a destination join the output queue in order, and its tokens
leave the matching store (R91, R92). -/
structure Sent (s t : State) (f : Fire) (x : Inst) (outs : List Token) : Prop where
  outq : (cellOf t f.cell).outq = (cellOf s f.cell).outq ++ outs.filter fun k => k.dest != noDst
  entries : (cellOf t f.cell).entries = (cellOf s f.cell).entries.filter fun e => !x.ids.contains e.id

/-- A firing that completes and does nothing but send. -/
def Sends (s : State) (i : Instr) (f : Fire) (x : Inst) (outs : List Token) : Prop :=
  ∃ t, exec i s = .next t ∧ Sent s t f x outs ∧ CellOnly s t f.cell

/-- A firing that completes, and what holds of the state it leaves besides what it sends. -/
def SendsAnd (s : State) (i : Instr) (f : Fire) (x : Inst) (outs : List Token) (also : State → Prop) : Prop :=
  ∃ t, exec i s = .next t ∧ Sent s t f x outs ∧ also t

/-- A firing whose colour freezes at its node: a record of its code is queued, its tokens stay where they are, and nothing is
sent (R121, R381). -/
def Freezes (s : State) (i : Instr) (f : Fire) (x : Inst) (code : Nat) : Prop :=
  ∃ t o r, exec i s = .next t ∧ (regionAt t (f.cell / 16)).frozen = (regionAt s (f.cell / 16)).frozen ++ [o] ∧
    (regionAt t (f.cell / 16)).faults = (regionAt s (f.cell / 16)).faults ++ [r] ∧ o.okind = 2 ∧ o.code = code ∧
    o.cell = f.cell ∧ o.node = f.node ∧ o.colour = f.colour ∧ o.toks = x.toks ∧ r.code = code ∧ r.fseq = o.fseq ∧
    t.cells = s.cells ∧ t.cores = s.cores ∧ t.mem = s.mem

/-- A firing's one-word value to both destinations, in its tag, with its first token's SEQ and the record's priority (R92). -/
def valueTo (f : Fire) (x : Inst) (v : Word) : List Token :=
  [mkTok (nDstA x.r) f.colour f.iter (x.tok 0).seq (nPrio x.r) [v], mkTok (nDstB x.r) f.colour f.iter (x.tok 0).seq (nPrio x.r) [v]]

/-- Null tokens to both destinations (R97). -/
def nullTo (f : Fire) (x : Inst) : List Token :=
  [mkNull (nDstA x.r) f.colour f.iter (x.tok 0).seq (nPrio x.r), mkNull (nDstB x.r) f.colour f.iter (x.tok 0).seq (nPrio x.r)]

/-- A token passed on whole to a destination, with the record's priority and no ordered triple (R92). -/
def passTo (x : Inst) (t : Token) (d : BitVec 24) : Token :=
  { t with dest := d, prio := nPrio x.r, unord := false, oseq := 0, opred := 0, osucc := 0 }

/-- The null form of a token passed on. -/
def nullPass (x : Inst) (t : Token) (d : BitVec 24) : Token := { passTo x t d with null := true, item := none }

/-- The two-operand nodes: opcode, and the value of operands of a type; integers by the type's width and signedness, f32 and
bf16x4 by exact numbers rounded once (R98, R99). -/
def nodeValue : Instr → Option (Nat × (BitVec 3 → Word → Word → Word))
  | .nadd => some (0x01, fun t a b =>
      if t.toNat < 4 then result t (asTyped t a + asTyped t b) else nodeFp t (fun x y _ => x.add y) a b 0)
  | .nsub => some (0x02, fun t a b =>
      if t.toNat < 4 then result t (asTyped t a - asTyped t b) else nodeFp t (fun x y _ => x.add y.neg) a b 0)
  | .nmul => some (0x03, fun t a b =>
      if t.toNat < 4 then result t (asTyped t a * asTyped t b) else nodeFp t (fun x y _ => x.mul y) a b 0)
  | .nmin => some (0x04, fun t a b =>
      if t.toNat < 4 then result t (min (asTyped t a) (asTyped t b)) else nodeFp t (fun x y _ => Num.pick false x y) a b 0)
  | .nmax => some (0x05, fun t a b =>
      if t.toNat < 4 then result t (max (asTyped t a) (asTyped t b)) else nodeFp t (fun x y _ => Num.pick true x y) a b 0)
  | .nband => some (0x06, fun t a b => result t (a &&& b).toNat)
  | .nbor => some (0x07, fun t a b => result t (a ||| b).toNat)
  | .nbxor => some (0x08, fun t a b => result t (a ^^^ b).toNat)
  | .nshl => some (0x09, fun t a b => result t (asTyped t a * 2 ^ (b.toNat % width t)))
  | .nshr => some (0x0A, fun t a b => result t (asTyped t a / 2 ^ (b.toNat % width t)))
  | _ => none

/-- The operands of a two-operand node in the order its record asks for: port 0, then port 1 or the literal (R98). -/
def operands (x : Inst) (lit : Word) : Word × Word :=
  let a := tokW (x.tok 0) 0
  let b := if osb0 x.r then lit else tokW (x.tok 1) 0
  if osb1 x.r then (b, a) else (a, b)

/-- A node's literal as an operand of its type: sign-extended for s64 and s32, in each lane for bf16x4, else zero-extended
(R98). -/
def literal (x : Inst) : Word :=
  match (nType x.r).toNat with
  | 0 => (nLit x.r).signExtend 64
  | 2 => (nLit x.r).signExtend 64
  | 5 => let h : BitVec 16 := (nLit x.r).setWidth 16; h ++ h ++ h ++ h
  | _ => (nLit x.r).setWidth 64

/-- NCMP's value: 0 or 1, or a bit a lane of bf16x4 (R100). -/
def compared (c t : BitVec 3) (a b : Word) : Word :=
  if t.toNat < 4 then truth (cond c (asTyped t a) (asTyped t b))
  else if t.toNat = 4 then
    truth (Num.cond c.toNat (fmtF32.decode (a.toNat % 2 ^ 32)) (fmtF32.decode (b.toNat % 2 ^ 32)))
  else
    BitVec.ofNat 64 (((List.range 4).map fun k =>
      if Num.cond c.toNat (fmtBf16.decode (a.toNat / 2 ^ (16 * k) % 2 ^ 16)) (fmtBf16.decode (b.toNat / 2 ^ (16 * k) % 2 ^ 16))
      then 2 ^ k else 0).sum)

/-- A firing's words to both destinations, in its tag (R92). -/
def wordsTo (f : Fire) (x : Inst) (ws : List Word) : List Token :=
  [mkTok (nDstA x.r) f.colour f.iter (x.tok 0).seq (nPrio x.r) ws, mkTok (nDstB x.r) f.colour f.iter (x.tok 0).seq (nPrio x.r) ws]

/-- Both destinations of a node. -/
def bothTo (x : Inst) (k : BitVec 24 → Token) : List Token := [k (nDstA x.r), k (nDstB x.r)]

/-- A token of a kind without words: NCONST's demands, with port 0's SEQ (R92), and NPJOIN's permits. -/
def bare (f : Fire) (x : Inst) (kind : Nat) (seq : BitVec 8) (d : BitVec 24) : Token :=
  { mkTok d f.colour f.iter seq (nPrio x.r) [] with kind := kind }

/-- A token that a cell keeps in an entry when it comes: no breakpoint holds it, its node takes its kind at its port, no
other token of its tag holds the port, and it is no parameter of a generator and starts no task (R76, R93, R186, R408). -/
def Keeps (s : State) (c : Nat) (t : Token) : Prop :=
  (regionAt s (c / 16)).dbpHit t = none ∧ badTok ((cellOf s c).node (dNode t.dest)) t = false ∧
    (cellOf s c).collides t = false ∧ ¬ (nOpc ((cellOf s c).node (dNode t.dest)) = 0x20 ∧ dPort t.dest = 3) ∧
    ∀ k, t.item ≠ some (15, k)

/-- A token in an entry of its own, after all others (R84). -/
def Entered (s u : State) (c : Nat) (t : Token) : Prop :=
  (cellOf u c).entries = (cellOf s c).entries ++ [⟨(cellOf s c).entrySeq, dNode t.dest, if t.kind = 2 then 4 else dPort t.dest, t⟩] ∧
    (cellOf u c).entrySeq = (cellOf s c).entrySeq + 1

/-! ## Changes, frontiers and histories -/

/-- A node's own steps may go on: its region runs, its record stands and has the operation, and colour 0 is not frozen at it. -/
def NodeGoes (s : State) (c n opc : Nat) : Prop := (Work.of s).nodeRuns c n opc = true

/-- The work as a node of a cell, an agent of its own, begins an access (R191, R192; log entry 13). -/
def nodeBegins (s : State) (c node : Nat) : Work := (Work.of s).startAgent ((Work.of s).accNode c node).who

/-- The bytes that a node of a cell reads at a virtual address, and the work after it. -/
def NodeReads (s : State) (c node va n : Nat) (bs : List Byte) (w : Work) : Prop :=
  (nodeBegins s c node).vread ((Work.of s).accNode c node) va n = .ok (bs, w)

/-- A change's payload: four words of record, its time, its diff in the low half of word 5 and the hash above it (R77). -/
def changeWords (ws : List Word) (t : Word) (diff : Int) (hash : BitVec 32) : List Word :=
  (List.range 4).map (fun i => ws.getD i 0) ++ [t, hash ++ BitVec.ofInt 32 diff]

/-- A change's payload with its diff and hash replaced. -/
def withDiff (ws : List Word) (diff : Int) (hash : BitVec 32) : List Word := changeWords ws (ws.getD 4 0) diff hash

/-- A change's payload with its time replaced. -/
def withTime (ws : List Word) (t : Word) : List Word := setAt ws 4 t

/-- A frozen source: colour 0 at its node, with a code and the index of the change it froze at (R282). -/
def SourceFreezes (s : State) (c n code : Nat) (aux : Word) : Prop :=
  ∃ t o r, exec (.dsrc c n) s = .next t ∧ (regionAt t (c / 16)).frozen = (regionAt s (c / 16)).frozen ++ [o] ∧
    (regionAt t (c / 16)).faults = (regionAt s (c / 16)).faults ++ [r] ∧ o.okind = 2 ∧ o.code = code ∧ o.cell = c ∧
    o.node = n ∧ o.colour = 0 ∧ r.code = code ∧ r.aux = aux ∧ (cellOf t c).outq = (cellOf s c).outq

/-- A source of a cell's active context. -/
def sourceOf (s : State) (c n : Nat) : Dsrc := (Work.of s).source c n

/-- A sink of a cell's active context. -/
def sinkOf (s : State) (c n : Nat) : Dout := (Work.of s).sink c n

/-- A time operator's outputs: the token with new words to both destinations, counted at the time `u` of the scope, or at its
cause's slot, where the token is an item (R274, R275, R284). -/
def Moves (s : State) (i : Instr) (f : Fire) (x : Inst) (scope : Nat) (u : Word) (ws : List Word) : Prop :=
  ∃ k, SendsAnd s i f x (bothTo x fun a => { passTo x (x.tok 0) a with payload := ws, item := k }) fun t =>
    ((x.tok 0).item = none → k = none) ∧
      ∀ j, (x.tok 0).item = some j → dests [nDstA x.r, nDstB x.r] ≠ 0 →
        k = some j ∨ ∃ n < 64, k = some (scope, n) ∧ (64 * scope + n, u) ∈ (regionAt t (f.cell / 16)).timeSlots

/-- The copy that a probe of a cell observes (R285). -/
def probedBy (s : State) (c : Nat) (r : NRec) : FCopy := copyAt (cellOf s c).fcopies ((nLit r).toNat % 32)

/-- The six words of a probe's report of a copy (R285). -/
def reportOf (s : State) (c : Nat) (r : NRec) (y : FCopy) : List Word :=
  let k := (nLit r).toNat % 32
  let sc := ((regionAt s (c / 16)).bound k).getD 0
  BitVec.ofNat 64 (y.elems.length + sc * 16 + y.count % 2 ^ 32 * 2 ^ 32) ::
    ((List.range 4).map (fun i => y.elems.getD i (BitVec.allOnes 64)) ++
      [BitVec.ofNat 64 (((List.range 64).map fun j => Tbl.getD (groveOf s (c / 16)).prog (64 * sc + j) 0).sum)])

/-- A core's copy of a frontier slot. -/
def copyOf (s : State) (g k : Nat) : FCopy := copyAt (coreOf s g).fcopies k

/-- A time shape whose fields lie within a word (R269). -/
def ShapeFits (x : Word) : Prop := shOff x (shDepth x + 1) ≤ 64

/-- Every entry that an arrangement's sapwood holds, oldest first. -/
def sapOf (a : Arr) : List AEntry := a.sealed.flatten ++ a.openB

/-- An entry joins an arrangement: after all its sapwood where no batches merge, and its heartwood and frontier stand. -/
def Inserted (a b : Arr) (e : AEntry) : Prop :=
  b.hw = a.hw ∧ b.cf = a.cf ∧ b.passn = a.passn ∧ (a.sealed.length < 3 → sapOf b = sapOf a ++ [e]) ∧
    (a.openB.length + 1 < a.sealN → b.openB = a.openB ++ [e] ∧ b.sealed = a.sealed)

/-- An operator's outputs, kept until the output queue has room: each to both destinations, with its index as SEQ (R308),
under `n`, the node and above it the number of the firing. -/
def outputs (r : NRec) (n : Nat) (ws : List (List Word)) : List (Nat × BitVec 24 × List Word × BitVec 8) :=
  ((List.zip (List.range ws.length) ws).map fun e =>
    (([nDstA r, nDstB r]).filter fun d => d != noDst).map fun d => (n, d, e.2, BitVec.ofNat 8 e.1)).flatten

/-- A firing of an operator that completes with outputs kept for its cell's queue, and what else holds. -/
def Operates (s : State) (i : Instr) (f : Fire) (x : Inst) (ws : List (List Word)) (also : State → Prop) : Prop :=
  ∃ t new, exec i s = .next t ∧ (cellOf t f.cell).pend = (cellOf s f.cell).pend ++ new ∧
    new.map (fun e => (e.1, e.2.dest, e.2.payload, e.2.seq)) = outputs x.r (f.node + 1024 * (cellOf s f.cell).firing) ws ∧
    (cellOf t f.cell).entries = (cellOf s f.cell).entries.filter (fun e => !x.ids.contains e.id) ∧ also t

/-! ## Memory nodes and mappings -/

/-- A translation that a grove holds lets a memory node's access of a kind reach `la`, `n` bytes of this module's memory that
no mapped range holds (R168, R179, R182, R183). -/
def NodeReaches (s : State) (g : Nat) (nd : Need) (va la n : Nat) : Prop :=
  va + n ≤ 2 ^ 57 ∧
    (∃ x, (Work.of s).buffered g false (regionAt s g).rasid va = some x ∧ va + n ≤ x.base + x.size ∧
      x.refuses nd true = false ∧ (nd.w = true → x.attr.getLsbD 8 = true) ∧
      (x.pa + (va - x.base)) / 2 ^ 45 = s.mod.modNo ∧ (x.pa + (va - x.base)) % 2 ^ 45 = la) ∧
    la + n ≤ memTop ∧ ∀ i < n, (Work.of s).loc (la + i) = la + i ∧ (Work.of s).readOnly (la + i) = false

/-- The request of a memory node's firing, with the triple of its literal (R187). -/
def requestOf (s : State) (f : Fire) (x : Inst) (store : Bool) (data : List Word) : MemReq where
  id := (cellOf s f.cell).reqSeq
  node := f.node
  record := x.r
  colour := f.colour
  iter := f.iter
  seq := (x.tok 0).seq
  store := store
  addr := tokW (x.tok 0) 0
  data := data
  null := x.anyNull
  unord := osb0 x.r
  oseq := if osb0 x.r then 0 else (nLit x.r).toNat % 2 ^ 12
  opred := if osb0 x.r then 0 else (nLit x.r).toNat / 2 ^ 12 % 2 ^ 12
  osucc := if osb0 x.r then 0
    else
      let d := (nLit x.r).toNat / 2 ^ 24
      if d = 0 then 0 else if d = 255 then 0xFFF else (nLit x.r).toNat % 2 ^ 12 + d
  ins := x.toks.map Prod.snd
  waiting := false

/-- A firing that issues a request: its entries are free, its tokens go with the request, and it sends nothing yet. -/
def Issues (s : State) (i : Instr) (f : Fire) (x : Inst) (q : MemReq) : Prop :=
  ∃ t, exec i s = .next t ∧ (cellOf t f.cell).reqs = (cellOf s f.cell).reqs ++ [q] ∧
    (cellOf t f.cell).outq = (cellOf s f.cell).outq ∧
    (cellOf t f.cell).entries = (cellOf s f.cell).entries.filter (fun e => !x.ids.contains e.id) ∧ CellOnly s t f.cell

/-- The words of a load's bytes by type: six of a change, four of raw, else one, extended as the type says (R187). -/
def loadWords (t : BitVec 3) (v : Nat) : List Word :=
  let word : Nat → Word := fun i => BitVec.ofNat 64 (v / 2 ^ (64 * i))
  match t.toNat with
  | 7 => (List.range 4).map word
  | 6 => (List.range 6).map word
  | 2 => [(BitVec.ofNat 32 v).signExtend 64]
  | _ => [BitVec.ofNat 64 v]

/-- A request's tokens to both destinations. -/
def fromReq (q : MemReq) (kind : Nat) (ws : List Word) : List Token :=
  ([nDstA q.record, nDstB q.record].filter fun d => d != noDst).map fun d =>
    { mkTok d q.colour q.iter q.seq (nPrio q.record) ws with kind := kind }

/-- A request performed: it leaves the interface, its chain advances where it has one, and its tokens join the queue. -/
def Performed (s t : State) (c : Nat) (q : MemReq) (outs : List Token) : Prop :=
  (cellOf t c).reqs = (cellOf s c).reqs.filter (fun p => p.id != q.id) ∧
    (cellOf t c).outq = (cellOf s c).outq ++ outs ∧
    ∀ z, q.unord = false → (cellOf s c).chain q.colour q.iter = some z →
      (cellOf t c).chain q.colour q.iter =
        if q.osucc = 0 then none else some { z with last := q.oseq, lastsucc := q.osucc }

/-- A request may be performed now: nothing holds it, its place in its chain has come, and its outputs have room. -/
def Due (s : State) (c : Nat) (q : MemReq) : Prop :=
  (cellOf s c).reqs.find? (fun p => p.id == q.id) = some q ∧ (Work.of s).reqHeld c q = false ∧
    (q.unord = true ∨ ∃ z, (cellOf s c).chain q.colour q.iter = some z ∧
      (q.opred = z.last ∨ (q.opred = 0xFFF ∧ z.lastsucc = q.oseq))) ∧
    (cellOf s c).room (reserved (Tbl.vals (cellOf s c).twigs) + q.sends) = true

/-- A generator of a cell. -/
def genOf (s : State) (c u : Nat) : Gen := (cellOf s c).gen u

/-- The address of a generator's element: CUR and its index along each stride, modulo 2^64 (R185). -/
def elementAt (k : Gen) : Nat :=
  (((k.cur.toNat : Int) + ((List.range k.index.length).map fun d =>
    (k.index.getD d 0 : Int) * shStride k.shape d).sum) % 2 ^ 64).toNat

/-- A mapping entry of a cell. -/
def mapOf (s : State) (c k : Nat) : MapEntry := (cellOf s c).map k

/-! ## Remote accesses, links and glades -/

/-- A remote instruction's designator and address are sound: another module, an address of the space, aligned (R353). -/
def RemoteOk (s : State) (g : Nat) (a b : BitVec 5) (n : Nat) : Prop :=
  (reg s g b).toNat < 2 ^ 11 ∧ (reg s g b).toNat ≠ s.mod.modNo ∧ (reg s g a).toNat < 2 ^ 57 ∧ (reg s g a).toNat % n = 0

/-- A core's request as it travels, under the module's next number (R347, R353). -/
def requestOn (s : State) (g : Nat) (a b : BitVec 5) (op n : Nat) (data : List Byte) : RemoteReq where
  target := (reg s g b).toNat
  source := s.mod.modNo
  srcCell := false
  srcAgent := g
  ident := s.mod.nextIdent
  op := op
  amo := 0
  type := 0
  asid := (coreOf s g).asid
  super := (Work.of s).super g
  addr := (reg s g a).toNat
  size := n
  data := data
  entry := 0
  seq := 0

/-- The modules marked with one more, once. -/
def marked (m : Nat) (l : List Nat) : List Nat := if m ∈ l then l else l ++ [m]

/-- A message of a request put on a stream: it leaves, or waits here for the resume of a stream that a fault froze (R350). -/
def PutOn (s t : State) (st : Stream) (m : Msg) : Prop :=
  if st.frozen = true then t.outbox = s.outbox ∧ ∃ x, t.mod.stream st.isCell st.agent st.target = some x ∧
    x.queued.map reqMsg = st.queued.map reqMsg ++ [m]
  else t.outbox = s.outbox ++ [m]

/-- A core's remote instruction whose answer resumes its task: its request is put on its stream and its task waits for the request's answer; it waits at its own
address for a pair of its stream; and a target that no route reaches is marked and raises Peer Lost (R348, R349, R351, R353). -/
def SendsAndWaits (s : State) (g : Nat) (i : Instr) (d b : BitVec 5) (q : RemoteReq) : Prop :=
  let m := (reg s g b).toNat
  (∀ st live, (Work.of s).pair false g m = .free st → MaySuspend s g live ((coreOf s g).pc + 4) →
    Suspends s g i 7 (m + 65536 * (s.mod.nextIdent + 1)) none d ((coreOf s g).pc + 4) live false ∧
      ∃ t, exec i s = .next t ∧ PutOn s t st (.request q) ∧ t.mod.nextIdent = s.mod.nextIdent + 1) ∧
    (∀ live, (Work.of s).pair false g m = .wait → MaySuspend s g live (coreOf s g).pc →
      Suspends s g i 7 m none 0 (coreOf s g).pc live false) ∧
    ((Work.of s).pair false g m = .lost → Handles s g → exec i s = .next (withCore s g
      { inHandler s g 0x1A ((coreOf s g).pc.setWidth 64) 0 with lost := marked m (coreOf s g).lost }))

/-- The plan entry of a region. -/
def planOf (s : State) (r i : Nat) : Option Plan := (regionOf s r).plans[i]?

/-- A port of the module. -/
def portOf (s : State) (p : Nat) : Port := (Work.of s).port p

/-- A barrier of a grove. -/
def barrierOf (s : State) (g n : Nat) : Barrier := (groveOf s g).barrier n

/-- A slot of a glade of a grove. -/
def slotOf (s : State) (g z k : Nat) : GSlot := (Work.of s).gslot g z k

/-- A glade of a grove. -/
def gladeOf (s : State) (g z : Nat) : Option Glade := Tbl.find (groveOf s g).glades z

/-! ## The matrix array -/

/-- A grove's matrix array. -/
def mxOf (s : State) (g : Nat) : Mx := (Work.of s).mx g

/-- What a matrix instruction comes to: Permission, waiting, or done with a word for its destination and what holds then. -/
inductive MxSays where
  | fails
  | waits
  | does (v : Word) (post : State → Prop)

/-- A matrix instruction on a task core and in a twig alike: of the grove, the mode and its sources' words, what it comes
to; in a twig a null source makes it only write null and go on, and a failed check abandons the twig (R115, R251). -/
def MxRuns (s : State) (i : Instr) (d : Option (BitVec 5)) (srcs : List (BitVec 5))
    (how : Nat → Bool → List Word → MxSays) : Prop :=
  (∀ g, OnCore s g → i.coreOk = true → MayGo s g (coreOf s g).step.pc →
    match how g ((Work.of s).super g) (srcs.map (reg s g)) with
    | .fails => Raises s g i 0x09 0
    | .waits => Holds s g i
    | .does v post => ∃ t, Did s g i (d.getD 0) v t ∧ post t) ∧
  ∀ a t, OnTwig s a t →
    let put := fun (v : TVal) => match d with
      | some r => (t.put r v false).adv
      | none => t.adv
    ((∃ r ∈ srcs, (t.src r).null = true) → exec i s = .next (withTwig s a (put ⟨0, true⟩))) ∧
    ((∀ r ∈ srcs, (t.src r).null = false) →
      match how (agentGrove a) false (srcs.map fun r => (t.src r).bits.setWidth 64) with
      | .fails => ∃ u f, exec i s = .next u ∧ (Work.of u).twigAt a = none ∧
          (regionAt u (agentGrove a)).faults = (regionAt s (agentGrove a)).faults ++ [f] ∧ f.code = 0x09 ∧ u.mem = s.mem
      | .waits => exec i s = .next (withTwig s a { t with stall := some (t.stall.getD s.mod.cycle) })
      | .does v post => ∃ u, exec i s = .next u ∧ (Work.of u).twigAt a = some (put ⟨v.setWidth 256, false⟩) ∧ post u)

/-! ## Faults, stops and freezes -/

/-- A translation that a grove holds lets a supervisor's access write `n` bytes from `va` on to `la`, this module's memory that no
mapped range holds (R168, R179, R182, R442). -/
def SuperReaches (s : State) (g asid va la n : Nat) : Prop :=
  va + n ≤ 2 ^ 57 ∧
    (∃ x, (∀ i < n, (Work.of s).buffered g false asid (va + i) = some x) ∧ x.refuses needW false = false ∧
      x.attr.getLsbD 8 = true ∧ (x.pa + (va - x.base)) / 2 ^ 45 = s.mod.modNo ∧ (x.pa + (va - x.base)) % 2 ^ 45 = la) ∧
    la + n ≤ memTop ∧ ∀ i < n, (Work.of s).loc (la + i) = la + i ∧ (Work.of s).readOnly (la + i) = false

/-- Bytes written: those from `a` on are the list's, and every other byte is as it was. -/
def Written (s t : State) (a : Nat) (bs : List Byte) : Prop :=
  (∀ i < bs.length, byteAt t (a + i) = bs.getD i 0) ∧ ∀ b, b < a ∨ a + bs.length ≤ b → byteAt t b = byteAt s b

/-- A release takes effect at once: the region runs, and no stop of it has the number (R384, R400, R411). -/
abbrev ReleasesNow (s : State) (r : Nat) : Prop :=
  (regionOf s r).halted = false ∧ (regionOf s r).freezing = none ∧ (regionOf s r).stopped = false ∧ (regionOf s r).stopping = none

/-- The frozen object of a region under a release number. -/
def frozenOf (s : State) (r q : Nat) : Option Frozen := (regionOf s r).frozen.find? fun o => o.fseq == q && !o.stuck

/-- A release that completes: the object is frozen no more, memory stands, and what else holds. -/
def LetsGo (s : State) (i : Instr) (r : Nat) (o : Frozen) (also : State → Prop) : Prop :=
  ∃ t, exec i s = .next t ∧ (regionOf t r).frozen = (regionOf s r).frozen.filter (fun p => p.fseq != o.fseq) ∧ t.mem = s.mem ∧ also t

/-- An event that changes nothing. -/
def Idle (s : State) (i : Instr) : Prop :=
  ∃ t, exec i s = .next t ∧ t.mem = s.mem ∧ t.cores = s.cores ∧ t.cells = s.cells ∧ t.groves = s.groves ∧ t.regions = s.regions ∧
    t.mxs = s.mxs ∧ t.mod = s.mod

/-- An event that changes one region alone. -/
def RegionOnly (s : State) (i : Instr) (r : Nat) (x : Region) : Prop :=
  ∃ t, exec i s = .next t ∧ regionOf t r = x ∧ t.mem = s.mem ∧ t.cores = s.cores ∧ t.cells = s.cells ∧ t.groves = s.groves ∧
    t.mxs = s.mxs ∧ t.mod = s.mod

/-- An event that changes the module's own registers alone. -/
def ModuleOnly (s : State) (i : Instr) (m : Mod) : Prop :=
  ∃ t, exec i s = .next t ∧ t.mod = m ∧ t.mem = s.mem ∧ t.cores = s.cores ∧ t.cells = s.cells ∧ t.groves = s.groves ∧
    t.regions = s.regions ∧ t.mxs = s.mxs

end Sys2Proof.Safety
end

