-- ==== Sys2Proof/Certificates/Slice0/Obligations.lean ====
section
/-! DEFINITION. The statements about this model, for the provers: each formalises or follows from rules of the spec. -/

section

open Sys2Proof Sys2Proof.Machine Sys2Proof.Safety

/-! ## Register instructions -/

/-- R125 to R131: on a task core, an integer, division, immediate or scalar floating-point instruction that the core accepts
writes its value to its destination, goes on, and changes nothing else. -/
def Obligations.RegisterOnCore : Prop :=
  (∀ (s : State) (g : Nat) (i : Instr) (o : ScalarOp), intOp i = some o → Ready s g → i.coreOk = true →
     Gives s g i o.d (o.f (o.srcs.map (reg s g)))) ∧
  ∀ (s : State) (g : Nat) (i : Instr) (o : ScalarOp), fpOp i = some o → Ready s g → i.coreOk = true →
    Gives s g i o.d (o.f (o.srcs.map (reg s g)))

/-- R115, R132 to R136: in a twig, an integer, immediate, floating-point or vector instruction writes its value, a vector one all
256 bits, or null where its guard turns it off or a source is null, and the twig goes on. -/
def Obligations.RegisterInTwig : Prop :=
  (∀ (s : State) (a : Agent) (t : Twig) (i : Instr) (o : ScalarOp), intOp i = some o ∨ fpOp i = some o → OnTwig s a t →
     i.twigOk (agentIsMx a) = true →
     exec i s = .next (withTwig s a
       (t.put o.d (twigValue t i.guard o.srcs ((o.f (o.srcs.map fun r => (t.src r).bits.setWidth 64)).setWidth 256)) false).adv)) ∧
  ∀ (s : State) (a : Agent) (t : Twig) (i : Instr) (o : VectorOp), vecOp i = some o → OnTwig s a t →
    i.twigOk (agentIsMx a) = true →
    exec i s = .next (withTwig s a
      (t.put o.d (twigValue t i.guard o.srcs (BitVec.ofNat 256 (o.f (o.srcs.map fun r => (t.src r).bits.toNat)))) true).adv)

/-- R132, R133: on the integer lane types s32, w32 and int8, lane k of VADD, VSUB and VMUL is the sum, difference and
product of lanes k, on the lane's width. -/
def Obligations.IntegerLanes : Prop :=
  ∀ (t : BitVec 3) (x y k : Nat), t.toNat = 2 ∨ t.toNat = 3 ∨ t.toNat = 7 → k < 256 / laneW t →
    let l : Nat → Nat := fun v => v / 2 ^ (laneW t * k) % 2 ^ laneW t
    l (laneMap2 t (laneAdd t) x y) = (l x + l y) % 2 ^ laneW t ∧
    l (laneMap2 t (laneMul t) x y) = l x * l y % 2 ^ laneW t ∧
    (l (laneMap2 t (laneSub t) x y) + l y) % 2 ^ laneW t = l x

/-! ## Control transfers, loops and traps -/

/-- R137, R138: BR goes to its target if its condition holds of register c and to the next word (or the first of a loop that
goes round) if not; JAL and JR jump and link, JR reading its base before its link register is written and raising Misaligned
where the target is no word's address; a transfer from below SUPBASE into the supervisor area raises Privilege (R386). -/
def Obligations.Transfers : Prop :=
  (∀ (s : State) (g : Nat) (c : BitVec 5) (k : BitVec 3) (i : BitVec 18), OnCore s g → (Instr.br c k i).coreOk = true →
     let t := wordsOn s g i.toInt
     (branchTest k (reg s g c) → MayGo s g t → exec (.br c k i) s = .next (withCore s g (jumped (coreOf s g) t))) ∧
     (branchTest k (reg s g c) → ¬ MayGo s g t → Raises s g (.br c k i) 0x02 0) ∧
     (¬ branchTest k (reg s g c) → MayGo s g (coreOf s g).step.pc →
       exec (.br c k i) s = .next (withCore s g (goneOn (coreOf s g))))) ∧
  ∀ (s : State) (g : Nat), OnCore s g →
    (∀ (c : BitVec 5) (i : BitVec 18), (Instr.jal c i).coreOk = true →
      (MayGo s g (wordsOn s g i.toInt) →
        exec (.jal c i) s = .next (withCore s g ((jumped (coreOf s g) (wordsOn s g i.toInt)).setReg c (linkOf s g)))) ∧
      (¬ MayGo s g (wordsOn s g i.toInt) → Raises s g (.jal c i) 0x02 0)) ∧
    ∀ (d a : BitVec 5) (i : BitVec 16), (Instr.jr d a i).coreOk = true →
      let t := reg s g a + BitVec.ofInt 64 i.toInt
      (t.toNat % 4 = 0 → MayGo s g (t.setWidth 16) →
        exec (.jr d a i) s = .next (withCore s g ((jumped (coreOf s g) (t.setWidth 16)).setReg d (linkOf s g)))) ∧
      (t.toNat % 4 = 0 → ¬ MayGo s g (t.setWidth 16) → Raises s g (.jr d a i) 0x02 0) ∧
      (t.toNat % 4 ≠ 0 → Raises s g (.jr d a i) 0x03 t.toNat)

/-- R139: LOOP skips its body on a count of 0; otherwise it starts the core's one loop, and raises Illegal Instruction where
one is active. The instruction at the loop's last word, here a NOP, goes round while the count is above 1, and leaves the
loop with S.LOOPCNT 0 otherwise; a loop that trap entry found active is not tracked.
R389, R140: NOP changes the PC alone; EXIT ends a core's running task, its loop with it, and in a twig only goes on.
That a skipped body leaves an outer loop as it stands is the model's choice (log entry 92). -/
def Obligations.LoopsAndExit : Prop :=
  (∀ (s : State) (g : Nat) (c : BitVec 5) (n : BitVec 18), OnCore s g → (Instr.loop c n).coreOk = true →
     let k := coreOf s g
     (reg s g c = 0 → MayGo s g (wordsOn s g (n.toNat + 1)) →
       exec (.loop c n) s = .next (withCore s g { k with pc := wordsOn s g (n.toNat + 1), stall := none })) ∧
     (reg s g c ≠ 0 → k.loopActive = true → Raises s g (.loop c n) 0x01 0) ∧
     (reg s g c ≠ 0 → k.loopActive = false → MayGo s g (k.pc + 4) →
       exec (.loop c n) s = .next (withCore s g
         { k with
           loopActive := true, bodyStart := k.pc + 4, bodyEnd := wordsOn s g n.toNat, loopcnt := reg s g c
           pc := k.pc + 4, stall := none })) ∧
     (k.loopActive = true → k.trap.loopHeld = false → k.pc = k.bodyEnd → 1 < k.loopcnt.toNat → MayGo s g k.bodyStart →
       exec .nop s = .next (withCore s g { k with loopcnt := k.loopcnt - 1, pc := k.bodyStart, stall := none })) ∧
     (k.loopActive = true → k.trap.loopHeld = false → k.pc = k.bodyEnd → k.loopcnt.toNat ≤ 1 → MayGo s g (k.pc + 4) →
       exec .nop s = .next (withCore s g
         { k with loopcnt := 0, loopActive := false, pc := k.pc + 4, stall := none })) ∧
     (k.trap.loopHeld = true → MayGo s g (k.pc + 4) →
       exec .nop s = .next (withCore s g { k with pc := k.pc + 4, stall := none }))) ∧
  ∀ (s : State),
    (∀ g, Ready s g → exec .nop s = .next (withCore s g (goneOn (coreOf s g)))) ∧
    (∀ g, OnCore s g → ∃ t, exec .exit s = .next t ∧ (coreOf t g).task = none ∧ (coreOf t g).loopActive = false ∧
      (coreOf t g).loopcnt = 0 ∧ t.cells = s.cells ∧ t.groves = s.groves ∧ t.mem = s.mem ∧ t.mod = s.mod) ∧
    ∀ a t, OnTwig s a t → exec .exit s = .next (withTwig s a t.adv)

/-- R387, R389: where a handler takes it, TRAP n saves the address after it, S.STATUS and the cause, and goes to the
handler; otherwise the task freezes (OKIND 1) and its record is queued, nested if a trap was open.
R387: a precise fault enters the handler in the same way with its own address and the faulting address, and what its core's failed
walks ended in counts as seen (the model's own bookkeeping, log entry 86); otherwise the task freezes with its record, and a nested fault leaves S.EPC, S.ESTATUS, S.CAUSE and S.FADDR as they were.
What a TRAP at a body's last word counts is the model's choice (log entry 92). -/
def Obligations.TrapsAndFaults : Prop :=
  (∀ (s : State) (g : Nat) (n : BitVec 5), OnCore s g →
     (Handles s g → exec (.trap n) s =
       .next (withCore s g (inHandler s g (BitVec.ofNat 64 (0x30 + n.toNat * 256)) (linkOf s g) 0))) ∧
     (¬ Handles s g → ∃ t o f, exec (.trap n) s = .next t ∧ (coreOf t g).task = none ∧
       (regionAt t g).frozen = (regionAt s g).frozen ++ [o] ∧ (regionAt t g).faults = (regionAt s g).faults ++ [f] ∧
       o.okind = 1 ∧ o.code = 0x30 ∧ f.okind = 1 ∧ f.code = 0x30 ∧ f.aux = n.setWidth 64 ∧ f.fseq = o.fseq ∧
       f.nested = (coreOf s g).trap.intrap ∧ f.pc = (coreOf s g).pc.toNat)) ∧
  ∀ (s : State) (g code : Nat) (addr aux : Word),
    (Handles s g → raised s g code addr aux =
      withCore (walksSeen s g) g (inHandler s g (BitVec.ofNat 64 code) ((coreOf s g).pc.setWidth 64) addr)) ∧
    (¬ Handles s g → ∃ o f, (regionAt (raised s g code addr aux) g).frozen = (regionAt s g).frozen ++ [o] ∧
      (regionAt (raised s g code addr aux) g).faults = (regionAt s g).faults ++ [f] ∧
      o.okind = 1 ∧ o.code = code ∧ f.okind = 1 ∧ f.code = code ∧ f.addr = addr ∧ f.aux = aux ∧ f.fseq = o.fseq ∧
      f.nested = (coreOf s g).trap.intrap ∧ f.pc = (coreOf s g).pc.toNat ∧
      let k := (coreOf (raised s g code addr aux) g).trap
      k.estatus = (coreOf s g).trap.estatus ∧
      if (coreOf s g).trap.intrap then
        k.cause = (coreOf s g).trap.cause ∧ k.epc = (coreOf s g).trap.epc ∧ k.faddr = (coreOf s g).trap.faddr
      else k.cause = BitVec.ofNat 64 code ∧ k.epc = (coreOf s g).pc.setWidth 64 ∧ k.faddr = addr)

/-- R389: in supervisor mode and inside a trap, ERET restores S.STATUS and the PC from S.ESTATUS and S.EPC, and a loop is
tracked again (R139); with no trap
open it raises Illegal Instruction. A handler that is only an ERET returns to the word after the TRAP, with the registers and the
loop as they were, and with the mode as it was where that word lies on the TRAP's side of SUPBASE (R386). -/
def Obligations.TrapReturn : Prop :=
  ∀ (s : State) (g : Nat), OnCore s g →
    (Super s g → (coreOf s g).trap.intrap = true → exec .eret s = .next (withCore s g
      { coreOf s g with
        trap := { (coreOf s g).trap with intrap := (coreOf s g).trap.estatus.getLsbD 1, loopHeld := false }
        pc := (coreOf s g).trap.epc.setWidth 16, stall := none })) ∧
    (Super s g → (coreOf s g).trap.intrap = false → Raises s g .eret 0x01 0) ∧
    ∀ n t, exec (.trap n) s = .next t → Handles s g → Super t g →
      ∃ u, exec .eret t = .next u ∧ (coreOf u g).pc = (coreOf s g).pc + 4 ∧ (coreOf u g).regs = (coreOf s g).regs ∧
        (coreOf u g).trap.intrap = false ∧ (coreOf u g).loopActive = (coreOf s g).loopActive ∧
        (coreOf u g).loopcnt = (coreOf s g).loopcnt ∧ u.mem = s.mem ∧
        ((Super s g ↔ (regionAt s g).supBase ≤ ((coreOf s g).pc + 4).toNat) → (Super u g ↔ Super s g))

/-- R80, R388: on a task core an instruction that task cores do not accept as it is encoded, and a word that is no defined
instruction, raise Illegal Instruction and do nothing else; a supervisor-only instruction in user mode raises Privilege and does
nothing else. -/
def Obligations.IllegalAndPrivilege : Prop :=
  (∀ (s : State) (g : Nat), OnCore s g → Raises s g .illegalInstruction 0x01 0 ∧
     ∀ i, (encode i).isSome = true → i.coreOk = false → Raises s g i 0x01 0) ∧
  ∀ (s : State) (g : Nat) (i : Instr), OnCore s g → ¬ Super s g → supervisorOnly i = true → i.coreOk = true →
    Raises s g i 0x02 0

/-- R390: SRD reads the system register where the mode may name it, and raises Privilege where it may not.
R390, R384, R247, R350: SWR writes the core's own register, and S.TVEC for its region with V 0 where the handler lies below
SUPBASE; a register that is read-only in the mode ignores the write, and one that the mode may not name raises Privilege; a
supervisor's write of S.FAULTQ, S.FRELEASE, S.PJDET or S.RSRESUME starts the event it stands for as the very next step.
That the event is the very next step is the model's choice (log entry 19). -/
def Obligations.SystemRegisters : Prop :=
  (∀ (s : State) (g : Nat) (d n : BitVec 5), Ready s g → (Instr.srd d n).coreOk = true →
     (Super s g ∨ n.toNat ∈ userNamed → Gives s g (.srd d n) d (sysValue s g n.toNat)) ∧
     (¬ Super s g → n.toNat ∉ userNamed → Raises s g (.srd d n) 0x02 0)) ∧
  (∀ (s : State) (g : Nat) (a n : BitVec 5), Ready s g → (Instr.swr a n).coreOk = true →
     (¬ Super s g → n.toNat ∉ userNamed → Raises s g (.swr a n) 0x02 0) ∧
     (¬ Super s g → n.toNat ∈ userNamed → exec (.swr a n) s = .next (withCore s g (goneOn (coreOf s g)))) ∧
     (Super s g → n.toNat ∈ [0, 8, 9, 11, 13, 14] → exec (.swr a n) s = .next (withCore s g (goneOn (coreOf s g)))) ∧
     (Super s g → n.toNat ∈ [1, 2, 3, 4, 6, 7, 10] →
       exec (.swr a n) s = .next (withCore s g (goneOn (sysPut (coreOf s g) (reg s g a) n.toNat)))) ∧
     (Super s g → n = 5 → (regionAt s g).loaded = true → ∃ t, exec (.swr a n) s = .next t ∧
       ((regionAt t g).tvec.getLsbD 63 =
         ((reg s g a).getLsbD 63 && decide ((regionAt s g).supBase ≤ (reg s g a).toNat % 2 ^ 16 / 4 * 4))) ∧
       (regionAt t g).tvec.toNat % 2 ^ 63 = (reg s g a).toNat % 2 ^ 16 / 4 * 4 ∧
       (coreOf t g).regs = (coreOf s g).regs ∧ t.mem = s.mem)) ∧
  ∀ (s : State) (g : Nat) (a n : BitVec 5), OnCore s g → Super s g → (Instr.swr a n).coreOk = true →
    let v := reg s g a
    let r := (groveOf s g).region.getD 320
    let starts := fun (i : Instr) => ∃ t, exec (.swr a n) s = .next t ∧ t.moves = .event i :: s.moves ∧
      coreOf t g = goneOn (coreOf s g) ∧ t.mem = s.mem
    (n = 12 → v.toNat / 2 ^ 17 = 0 → v.getLsbD 16 = true → v.toNat / 2 ^ 8 % 2 ^ 8 < (regionAt s g).table.ngrove →
      starts (.faultqWrite r v)) ∧
    (n = 15 → v.toNat / 2 ^ 32 = 0 → starts (.freleaseRetry r (v.setWidth 32))) ∧
    (n = 15 → v.toNat / 2 ^ 32 = 2 ^ 30 → starts (.freleaseDiscard r (v.setWidth 32))) ∧
    (n = 16 → starts (.pjdet r v)) ∧
    (n = 17 → v.getLsbD 63 = false →
      starts (.rsresumeRetry (v.getLsbD 13) (v.toNat % 2 ^ 13) (v.toNat / 2 ^ 29 % 2 ^ 11))) ∧
    (n = 17 → v.getLsbD 63 = true →
      starts (.rsresumeDiscard (v.getLsbD 13) (v.toNat % 2 ^ 13) (v.toNat / 2 ^ 29 % 2 ^ 11)))
/-! ## Loads, stores and atomics -/

/-- R141, R142, R193: a core's LD of an aligned address that its buffers translate reads its bytes, zero-extended, from the
L1 line whose lease holds or from memory, and no byte of memory changes, and raises Uncorrectable Memory Error where memory
cannot give them; its ST writes the low bytes of its register at the
address, and no other byte.
R142, R182, R207: an access at an address that is not aligned raises Misaligned, one past the 57-bit space
Translation, and one that its buffered page refuses Permission, each with the address.
Which bytes cannot be corrected is the model's choice (log entry 79). -/
def Obligations.LoadsAndStores : Prop :=
  ((∀ (s : State) (g : Nat) (d b : BitVec 5) (sz : BitVec 2) (o : BitVec 9) (la : Nat), Ready s g →
      (Instr.ld d b 0 sz o).coreOk = true →
      let n := 2 ^ sz.toNat
      let va := addrOf (reg s g b) o n
      va % n = 0 → Reaches s g needR va la n →
        (Sound s la n ∨ Cached s g la →
          ∃ t, Did s g (.ld d b 0 sz o) d (BitVec.ofNat 64 (leNat (seen s g la n))) t ∧ ∀ a, byteAt t a = byteAt s a) ∧
        (¬ Sound s la n → ¬ Cached s g la → Raises s g (.ld d b 0 sz o) 0x0A va)) ∧
   ∀ (s : State) (g : Nat) (d b : BitVec 5) (sz : BitVec 2) (o : BitVec 9) (la : Nat), Ready s g → MemOk s →
     (Instr.st d b 0 sz o).coreOk = true →
     let n := 2 ^ sz.toNat
     let va := addrOf (reg s g b) o n
     va % n = 0 → Reaches s g needW va la n →
       ∃ t, Did s g (.st d b 0 sz o) 0 0 t ∧ Stored s t la n (reg s g d).toNat) ∧
  ∀ (s : State) (g : Nat) (d b : BitVec 5) (sz : BitVec 2) (o : BitVec 9), OnCore s g →
    let n := 2 ^ sz.toNat
    let va := addrOf (reg s g b) o n
    ∀ i, (i = .ld d b 0 sz o ∨ i = .st d b 0 sz o) → i.coreOk = true →
      (va % n ≠ 0 → Raises s g i 0x03 va) ∧
      (va % n = 0 → 2 ^ 57 ≤ va → Raises s g i 0x08 va) ∧
      (va % n = 0 → va < 2 ^ 57 → ∀ x, bufferedAt s g va = some x →
        x.refuses (if i = .ld d b 0 sz o then needR else needW) (!(Work.of s).super g) = true → Raises s g i 0x09 va)

/-- R207: where the old value can be read, AMO writes what its operation gives of the old value and the operand, indivisibly, and answers the old value;
CAS writes only where the old value equals its destination's.
Which bytes cannot be corrected is the model's choice (log entry 79). -/
def Obligations.Atomics : Prop :=
  ∀ (s : State) (g : Nat) (d a b : BitVec 5) (t : BitVec 3) (la : Nat), Ready s g → MemOk s →
    let n := opBytes t
    let va := (reg s g a).toNat
    let old := numAt s la n
    let x := (asNat t (reg s g b)).toNat
    va % n = 0 → Reaches s g needRW va la n → Sound s la n →
      (∀ o, (Instr.amo d a b o t).coreOk = true →
        ∃ u, Did s g (.amo d a b o t) d (oldWord t old) u ∧ Stored s u la n (updateOp o.toNat t old x)) ∧
      ((Instr.cas d a b t).coreOk = true →
        ∃ u, Did s g (.cas d a b t) d (oldWord t old) u ∧
          Stored s u la n (if old = (asNat t (reg s g d)).toNat then x else old))

/-- R118, R143: a twig's LD, ST, LDV and STV of an aligned address in its cell's bank, with no earlier twig of its colour,
read and write 2^size or 32 bytes of the bank and go on.
Which bytes cannot be corrected is the model's choice (log entry 79). -/
def Obligations.TwigMemory : Prop :=
  ∀ (s : State) (c k : Nat) (t : Twig), OnTwig s (.twig c k) t → MemOk s → (Work.of s).twigWaits (.twig c k) t = false →
    ∀ (d b l : BitVec 5) (o : BitVec 9), (t.src b).null = false →
    let at_ := fun n => addrOf ((t.src b).bits.setWidth 64) o n
    let fits := fun n => at_ n % n = 0 ∧ at_ n + n ≤ 0x10000
    let loads := fun (i : Instr) (n : Nat) (vec : Bool) => fits n → Sound s (bankBase c + at_ n) n → ∃ u, exec i s = .next u ∧
      (Work.of u).twigAt (.twig c k) =
        some (t.put d ⟨BitVec.ofNat 256 (numAt s (bankBase c + at_ n) n), false⟩ vec).adv ∧ ∀ a, byteAt u a = byteAt s a
    let stores := fun (i : Instr) (n : Nat) => (t.src d).null = false → fits n → ∃ u, exec i s = .next u ∧
      (Work.of u).twigAt (.twig c k) = some t.adv ∧ Stored s u (bankBase c + at_ n) n (t.src d).bits.toNat
    (∀ sz : BitVec 2, loads (.ld d b l sz o) (2 ^ sz.toNat) false ∧ stores (.st d b l sz o) (2 ^ sz.toNat)) ∧
    loads (.ldv d b l o) 32 true ∧ stores (.stv d b l o) 32

/-! ## Ordering -/

/-- R208 to R210: FENCE with no remote store or atomic outstanding reports the lost set, which PLMASK takes; it suspends
otherwise. WAITTL of a value reached, and TLRD, answer the counter; WAITTL of a value not reached suspends on it; a
designator that breaks the layout raises Permission.
That an instruction which need not suspend completes without an entry of the suspension table is the model's choice (log entry 80). -/
def Obligations.Ordering : Prop :=
  ∀ (s : State) (g : Nat), OnCore s g →
    (∀ d, (Instr.fence d).coreOk = true →
      let ms := (coreOf s g).lost
      ((Work.of s).fenceWaits g = false → MayGo s g (coreOf s g).step.pc →
        ∃ t, Did s g (.fence d) d (if ms = [] then 0 else lostStatus ms) t ∧ (coreOf t g).lost = [] ∧
          (coreOf t g).plmask = ms ∧ t.mem = s.mem) ∧
      ∀ live, (Work.of s).fenceWaits g = true → MaySuspend s g live ((coreOf s g).pc + 4) →
        Suspends s g (.fence d) 9 0 none d ((coreOf s g).pc + 4) live false) ∧
    ∀ (d a b : BitVec 5) (m k : Nat),
      ((Work.of s).designator g (reg s g b) = some (m, k) → k ≤ 8 →
        let v := (Work.of s).timeline m k
        ((Instr.waittl d a b).coreOk = true → (reg s g a).toNat ≤ v → MayGo s g (coreOf s g).step.pc →
          ∃ t, Did s g (.waittl d a b) d (BitVec.ofNat 64 v) t ∧ t.mem = s.mem) ∧
        (∀ live, (Instr.waittl d a b).coreOk = true → v < (reg s g a).toNat → MaySuspend s g live ((coreOf s g).pc + 4) →
          Suspends s g (.waittl d a b) 4 ((reg s g b).toNat % 65536) (some a) d ((coreOf s g).pc + 4) live false) ∧
        ((Instr.tlrd d b).coreOk = true → MayGo s g (coreOf s g).step.pc →
          ∃ t, Did s g (.tlrd d b) d (BitVec.ofNat 64 v) t ∧ t.mem = s.mem)) ∧
      ((Work.of s).designator g (reg s g b) = none → (Instr.tlrd d b).coreOk = true → Raises s g (.tlrd d b) 0x09 0)

/-! ## Mail and tasks -/

/-- R153 to R157: SEND of a word to a core of the region puts it at the tail of the channel where none waits for it and
there is room, and is held while there is none; RECV takes the oldest word, and suspends on an empty channel.
R123, R155: a word held for a channel is delivered once the channel has room, and a register write that waits lands
between two instructions of the core; each is a step of its own.
That these are steps of their own is the model's choice (log entry 2), and so is that a RECV which need not suspend completes without an
entry of the suspension table (log entry 80). -/
def Obligations.Mail : Prop :=
  (∀ (s : State) (g : Nat), OnCore s g →
     (∀ (d a : BitVec 5) (c : BitVec 6) (m : Nat), (Instr.send d a c).coreOk = true →
       (reg s g a).toNat / 2 ^ 32 = 0 → (reg s g a).toNat % 2 ^ 24 = 0 →
       (reg s g a).toNat / 2 ^ 24 < (regionAt s g).table.ngrove →
       (Work.of s).mgrove (regionNo s g) ((reg s g a).toNat / 2 ^ 24) = some m →
       (((Work.of s).waiting (regionNo s m)).all fun x => !(x.wait == 1 && x.wobj == c.toNat && x.home == m)) = true →
       ((mailOf s m c.toNat).length < 8 → MayGo s g (coreOf s g).step.pc →
         ∃ t, Did s g (.send d a c) 0 0 t ∧ mailOf t m c.toNat = mailOf s m c.toNat ++ [reg s g d] ∧ t.mem = s.mem) ∧
       (8 ≤ (mailOf s m c.toNat).length → Holds s g (.send d a c))) ∧
     ∀ (d : BitVec 5) (c : BitVec 6), (Instr.recv d c).coreOk = true →
       (∀ v q, mailOf s g c.toNat = v :: q → MayGo s g (coreOf s g).step.pc →
         ∃ t, Did s g (.recv d c) d v t ∧ mailOf t g c.toNat = q ∧ t.mem = s.mem) ∧
       ∀ live, mailOf s g c.toNat = [] → MaySuspend s g live ((coreOf s g).pc + 4) →
         Suspends s g (.recv d c) 1 c.toNat none d ((coreOf s g).pc + 4) live false) ∧
  ∀ (s : State) (g : Nat),
    (∀ h q, (coreOf s g).mailHeld = h :: q →
      let n := h.chan
      let v := h.word
      (((Work.of s).waiting (regionNo s g)).all fun x => !(x.wait == 1 && x.wobj == n && x.home == g)) = true →
      (mailOf s g n).length < 8 →
      ∃ t, exec (.mailDelivery g n v) s = .next t ∧ mailOf t g n = mailOf s g n ++ [v] ∧ (coreOf t g).mailHeld = q ∧
        (coreOf t g).regs = (coreOf s g).regs ∧ t.mem = s.mem) ∧
    ∀ n v q, (coreOf s g).stall = none → (coreOf s g).portWait = none → (coreOf s g).inbound = (n, v) :: q →
      exec (.inboundRegisterWrite g) s =
        .next (withCore s g { (coreOf s g).setReg (BitVec.ofNat 5 n) v with inbound := q })

/-- R159 to R161: YIELD suspends its task as runnable; YIELD.UNTIL goes on once S.CYCLE has reached its register and
suspends until then; WIDF answers a field of the task's work identifier, or all of it; COLR its colour and iteration.
That a YIELD.UNTIL which need not suspend completes without an entry of the suspension table is the model's choice (log entry 80). -/
def Obligations.TaskInstructions : Prop :=
  ∀ (s : State) (g : Nat), OnCore s g →
    (∀ live, MaySuspend s g live ((coreOf s g).pc + 4) →
      Suspends s g .yield 0 0 none 0 ((coreOf s g).pc + 4) live true) ∧
    (∀ a, (Instr.yieldUntil a).coreOk = true →
      ((reg s g a).toNat ≤ s.mod.cycle → MayGo s g (coreOf s g).step.pc →
        exec (.yieldUntil a) s = .next (withCore s g (goneOn (coreOf s g)))) ∧
      ∀ live, s.mod.cycle < (reg s g a).toNat → MaySuspend s g live ((coreOf s g).pc + 4) →
        Suspends s g (.yieldUntil a) 2 0 (some a) 0 ((coreOf s g).pc + 4) live false) ∧
    ∀ (k : Task), (coreOf s g).task = some k → MayGo s g (coreOf s g).step.pc →
      (∀ d, (Instr.colr d).coreOk = true → Gives s g (.colr d) d (BitVec.ofNat 64 (k.colour.toNat + k.iter.toNat * 2 ^ 12))) ∧
      ∀ (d n : BitVec 5) (u : Running), (Instr.widf d n).coreOk = true → (regionAt s g).running = some u →
        let widw := u.launch.hdr.toNat / 2 ^ 64 % 2 ^ 64
        let width := fun i => widw / 2 ^ (6 * i) % 64
        let below := ((List.range 6).filter fun i => n.toNat < i).map width
        Gives s g (.widf d n) d
          (if n.toNat = 6 then k.wid else BitVec.ofNat 64 (k.wid.toNat / 2 ^ below.sum % 2 ^ width n.toNat))

/-- R158, R320, R321, R328: SPAWN of a sound record into a stage with room puts the record, its stage set, at the tail of
the stage's queue and the launch counts one more task; where the stage is full the task suspends at SPAWN itself.
That an instruction which need not suspend completes without an entry of the suspension table is the model's choice (log entry 80). -/
def Obligations.Spawning : Prop :=
  ∀ (s : State) (g : Nat) (d a b : BitVec 5) (u : Running) (w : Work), OnCore s g → (Instr.spawn d a b).coreOk = true →
    let r := regionNo s g
    let va := (reg s g a).toNat
    let st := (reg s g b).toNat
    runningOf s r = some u → st < u.launch.stages.length → st < 8 → st < u.queues.length →
    (va % 64 ≠ 0 → Raises s g (.spawn d a b) 0x03 va) ∧
    ∀ bs w1, va % 64 = 0 → (Work.of s).vcheck ((Work.of s).accCore g) needR va 64 = .ok w →
      w.vread (w.accCore g) va 64 = .ok (bs, w1) → u.launch.recOk (BitVec.ofNat 512 (leNat bs)) = true → u.room st = true →
      MayGo s g (coreOf s g).step.pc →
      ∃ t v, Did s g (.spawn d a b) d 0 t ∧ runningOf t r = some v ∧ v.live = u.live + 1 ∧ v.launch = u.launch ∧
        (v.queue st).recs = (u.queue st).recs ++ [BitVec.ofNat 512 (leNat bs / 8 * 8 + st)]

/-! ## Launches and scheduling -/

/-- R324, R327: LAUNCH of a header that its checks accept queues the launch and answers the last signal number it takes, or
0 for a launch without a signal; with eight launches queued it is held.
R323, R321, R324: a queued launch starts in a region that runs none and can change its contexts; its initial records
enter their stages' queues one by one, one that breaks the layout being skipped with a Permission record; a due level tick
is taken; and the launch ends once every record is pushed and every task has ended.
That it also waits for the frontiers to reach their copies is the model's choice (log entry 90).
What a launch queue of eight counts is the model's choice (log entry 66). -/
def Obligations.Launches : Prop :=
  (∀ (s : State) (g : Nat) (d a : BitVec 5) (r : Nat) (l : Launch) (w : Work), OnCore s g → (Instr.launch d a).coreOk = true →
     (Work.of s).readLaunch ((Work.of s).accCore g) (regionNo s g) (reg s g a).toNat = .ok (r, l, w) →
     MayGo s g (coreOf s g).step.pc →
     (8 ≤ (regionOf s r).launchQ.length → Holds s g (.launch d a)) ∧
     ((regionOf s r).launchQ.length < 8 → l.hdr.getLsbD 400 = false →
       ∃ t, Did s g (.launch d a) d 0 t ∧ (regionOf t r).launchQ = (regionOf s r).launchQ ++ [l]) ∧
     ∀ m, (regionOf s r).launchQ.length < 8 → l.hdr.getLsbD 400 = true →
       (Work.of s).mgrove r (l.hdr.toNat / 2 ^ 392 % 256) = some m →
       let k := l.hdr.toNat / 2 ^ 384 % 8
       let e := (groveOf s m).engine k
       let n := e.issued + l.hdr.toNat / 2 ^ 416 % 2 ^ 32 + 1
       e.queue.length < 16 → ∃ t, Did s g (.launch d a) d (BitVec.ofNat 64 n) t ∧
         (regionOf t r).launchQ = (regionOf s r).launchQ ++ [{ l with signal := some (m, k, n) }] ∧
         ((groveOf t m).engine k).issued = n) ∧
  ∀ (s : State) (r : Nat), (regionOf s r).runs = true →
    (∀ l q, (regionOf s r).launchQ = l :: q → runningOf s r = none →
      (Work.of s).canTurn r ((Work.of s).grovesOf r) = true →
      ∃ t u, exec (.launchStart r) s = .next t ∧ runningOf t r = some u ∧ (regionOf t r).launchQ = q ∧
        u.launch = l ∧ u.pushed = 0 ∧ u.live = 0 ∧ u.ended = 0) ∧
    ∀ u, runningOf s r = some u →
      (∀ x w, u.pushed < u.launch.items → (Work.of s).initialRec r u.launch u.pushed = .ok (x, w) →
        (u.launch.recOk x = true → u.room (trStage x) = true → trStage x < u.queues.length → ∃ t v, exec (.initialPush r) s = .next t ∧
          runningOf t r = some v ∧ v.pushed = u.pushed + 1 ∧ v.live = u.live + 1 ∧ v.ended = u.ended ∧
          (v.queue (trStage x)).recs = (u.queue (trStage x)).recs ++ [x]) ∧
        (u.launch.recOk x = false → ∃ t v f, exec (.initialPush r) s = .next t ∧
          runningOf t r = some v ∧ v.pushed = u.pushed + 1 ∧ v.live = u.live ∧ v.ended = u.ended + 1 ∧
          (regionOf t r).faults = (regionOf s r).faults ++ [f] ∧ f.code = 0x09)) ∧
      (0 < u.tickDue → ∃ t v, exec (.levelTick r) s = .next t ∧ runningOf t r = some v ∧ v.tickDue = u.tickDue - 1 ∧
        v.ticks = u.ticks + 1 ∧ t.mem = s.mem) ∧
      (u.launch.items ≤ u.pushed → u.live = 0 → u.tickDue = 0 → (Work.of s).frontiersStill r = true →
        ∃ t, exec (.launchEnd r) s = .next t ∧ runningOf t r = none)

/-- R322, R329, R335: the dispatcher gives the head record of the stage it has come to, to the grove chosen, whose run queue
takes it at its tail; and the grove chosen is one of the stage's with room, the best score for the record's tiles, and
among those the fewest records queued.
R330, R331: at the end of an interval the written threshold and interval come to hold; the move that the rule names
takes its grove to the fuller stage, its queued records going back to the front of their stage's queue.
The interval that a write ends is read as in log entry 39. -/
def Obligations.DispatchAndBalance : Prop :=
  ((∀ (s : State) (r die st g : Nat) (u : Running) (x : TRec), (regionOf s r).runs = true → runningOf s r = some u →
     (Work.of s).nextPlace r die u = some (st, x, g) → trKind x ≠ 1 → st < u.queues.length →
     ∃ t v, exec (.dispatch r die) s = .next t ∧ runningOf t r = some v ∧ (coreOf t g).runQ = (coreOf s g).runQ ++ [x] ∧
       (v.queue st).recs = (u.queue st).recs.tail ∧ t.mem = s.mem) ∧
   ∀ (w : Work) (r st g : Nat) (u : Running) (x : TRec), w.choosePlace r u st x = some g →
     g ∈ w.candidates r u st ∧ ∀ h ∈ w.candidates r u st,
       placeScore (w.region r).resView x h ≤ placeScore (w.region r).resView x g ∧
       (placeScore (w.region r).resView x h = placeScore (w.region r).resView x g →
         (w.core g).runQ.length ≤ (w.core h).runQ.length)) ∧
  ∀ (s : State) (r : Nat), (regionOf s r).runs = true → (regionOf s r).bint ≠ 0 →
    (regionOf s r).lastBalance + (regionOf s r).bint ≤ s.mod.cycle →
    (runningOf s r = none → ∃ t, exec (.balanceInterval r) s = .next t ∧ (regionOf t r).lastBalance = s.mod.cycle ∧
      ((regionOf t r).thr, (regionOf t r).bint) = (regionOf s r).balNext.getD ((regionOf s r).thr, (regionOf s r).bint) ∧
      t.cores = s.cores ∧ t.cells = s.cells ∧ t.mem = s.mem) ∧
    ∀ u g lo hi, runningOf s r = some u → u.moving = none → (Work.of s).balanceMove r u = some (g, lo, hi) →
      (Work.of s).canTurn r [g] = true → lo < u.queues.length → ∃ t v, exec (.balanceInterval r) s = .next t ∧
        runningOf t r = some v ∧ Tbl.find v.stageOf g = some hi ∧ (coreOf t g).runQ = [] ∧
        (v.queue lo).recs = (coreOf s g).runQ ++ (u.queue lo).recs ∧ (regionOf t r).lastBalance = s.mod.cycle

/-- R144, R148, R152, R322: a core that runs no task starts the next new task with the launch's address and the record's
arguments in G1 to G3 and its entry point as PC, or resumes the best of its runnable records with the registers it saved
and the value that came for DREG.
R145, R150, R151, R159, R395: a task that has run 16,384 cycles, holds no instruction and waits for no purge wave gives way, saved whole and runnable, to a
record of its effective priority or higher; a record that waits on S.CYCLE becomes runnable once it is reached; and a spilled runnable record comes
back to a core with room.
Which spilled record comes back first is the model's choice (log entry 65), and so are where a value for a register outside
LIVE waits (log entry 83) and when registers still stand (log entry 33). -/
def Obligations.TasksResume : Prop :=
  (∀ (s : State) (g : Nat), (coreOf s g).task = none → (coreOf s g).halted = false → (regionAt s g).runs = true →
     (∀ u x q, (regionAt s g).running = some u → (coreOf s g).runQ = x :: q → trKind x ≠ 2 → (coreOf s g).runnable = [] →
       ∃ t k, exec (.taskSchedule g) s = .next t ∧ (coreOf t g).task = some k ∧ k.wid = trWid x ∧ k.colour = trColour x ∧
         k.iter = trIter x ∧ k.started = s.mod.cycle ∧ (coreOf t g).pc = BitVec.ofNat 16 (trEpt x) ∧
         reg t g 1 = BitVec.ofNat 64 u.launch.addr ∧ reg t g 2 = BitVec.ofNat 64 (trArg0 x) ∧
         reg t g 3 = BitVec.ofNat 64 (trArg1 x) ∧ (coreOf t g).runQ = q ∧ (coreOf t g).loopActive = false ∧ t.mem = s.mem) ∧
     ∀ x, (coreOf s g).runQ = [] → bestRec s.mod.cycle (coreOf s g).runnable = some x → x.full = false → x.wait ≠ 9 →
       x.bad = none → x.home = g → ∃ t, exec (.taskSchedule g) s = .next t ∧
         (coreOf t g).task = some { x.task with started := s.mod.cycle, eff := x.eff s.mod.cycle } ∧ (coreOf t g).pc = x.pc ∧
         (coreOf t g).slots = (coreOf s g).slots.erase x ∧ t.mem = s.mem ∧
         (∀ i : BitVec 5, i ≠ 0 → x.live.getLsbD i.toNat = true → x.dval = none ∨ i ≠ x.dreg →
           reg t g i = x.regs.getD (liveRank x.live i.toNat) 0) ∧
         ∀ v, x.dval = some v → x.dreg ≠ 0 → reg t g x.dreg = v) ∧
  ∀ (s : State) (g : Nat),
    (∀ k x, (coreOf s g).task = some k → s.mod.cycle ≥ k.started + 16384 → (coreOf s g).trap.intrap = false →
      (coreOf s g).halted = false → (coreOf s g).halting = false → (coreOf s g).stall = none → (coreOf s g).portWait = none →
      (Work.of s).purging g = false → x ∈ (coreOf s g).runnable →
      k.eff ≤ x.eff s.mod.cycle →
      (Work.of s).slotsHeld g + 2 ≤ 32 → ∃ t y, exec (.forcedSwitch g) s = .next t ∧ (coreOf t g).task = none ∧
        (coreOf t g).slots = (coreOf s g).slots ++ [y] ∧ y.full = true ∧ y.regs = (coreOf s g).regs ∧
        y.pc = (coreOf s g).pc ∧ y.task = k ∧ y.since = some s.mod.cycle ∧ y.loopActive = (coreOf s g).loopActive ∧
        y.loopcnt = (coreOf s g).loopcnt ∧ t.mem = s.mem) ∧
    (∀ n x, n < 32 → (coreOf s g).slots[n]? = some x → x.since = none → x.wait = 2 → x.value.toNat ≤ s.mod.cycle →
      exec (.cycleWaitExpiry g n) s =
        .next (withCore s g { coreOf s g with slots := setAt (coreOf s g).slots n { x with since := some s.mod.cycle } })) ∧
    ∀ k x, longestSpilled s.mod.cycle (regionAt s g).spill = some (k, x) → (Work.of s).slotsHeld g + x.size ≤ 32 →
      ∃ t, exec (.spillReadback (regionNo s g) g) s = .next t ∧ (coreOf t g).slots = (coreOf s g).slots ++ [x] ∧
        (regionAt t g).spill = Tbl.del (regionAt s g).spill k ∧ t.mem = s.mem
/-! ## Engines -/

/-- R222, R225, R232: an ENG command whose descriptor its checks accept joins its context's queue under the next number, which it
answers. An address that is not 64-byte aligned raises Misaligned, a descriptor that breaks the rules Invalid Descriptor, a
context that holds a launch's signal Permission; a context with 16 operations holds the instruction. SCANC cancels the queued
operations numbered at or above its point that have not started or are bound, and takes a number of its own. -/
def Obligations.EngineIssue : Prop :=
  (∀ (s : State) (g n : Nat) (i : Instr) (d e h : BitVec 5) (c : BitVec 3), engCode i = some (n, d, e, h, c) → OnCore s g →
     i.coreOk = true →
     let va := (reg s g e).toNat
     let x := engineOf s g c.toNat
     (va % 64 ≠ 0 → Raises s g i 0x03 va) ∧
     ∀ bs w, va % 64 = 0 → Reads s g va 64 bs w →
       let ok := w.descOk g n (BitVec.ofNat 512 (leNat bs)) (reg s g h)
       (ok = false → Raises s g i 0x05 0) ∧
       (ok = true → x.holdsSignal = true → Raises s g i 0x09 0) ∧
       (ok = true → x.holdsSignal = false → 16 ≤ x.queue.length → Holds s g i) ∧
       (ok = true → x.holdsSignal = false → x.queue.length < 16 → MayGo s g (coreOf s g).step.pc →
         ∃ t, Did s g i d (BitVec.ofNat 64 (x.issued + 1)) t ∧ (engineOf t g c.toNat).issued = x.issued + 1 ∧
           (engineOf t g c.toNat).queue =
             x.queue ++ [EngOp.new (x.issued + 1) n (BitVec.ofNat 512 (leNat bs)) (reg s g h) ((Work.of s).super g)
               (w.ptime (.core g))])) ∧
  ∀ (s : State) (g : Nat) (d h : BitVec 5) (c : BitVec 3), OnCore s g → (Instr.scanc d h c).coreOk = true →
    let x := engineOf s g c.toNat
    x.holdsSignal = false → x.queue.length < 16 → MayGo s g (coreOf s g).step.pc →
    ∃ t q, Did s g (.scanc d h c) d (BitVec.ofNat 64 (x.issued + 1)) t ∧ t.mem = s.mem ∧
      (engineOf t g c.toNat).queue = (x.queue.map fun o =>
        if (reg s g h).toNat ≤ o.num ∧ (o.running = false ∨ o.bound = true) then { o with cancelled := true } else o) ++ [q] ∧
      q.op = 9 ∧ q.num = x.issued + 1

/-- R222, R230, R242, R244: the head operation of a context starts once none before it is left, taking its slots first where
it is bound or a multicast; an operation that has done all it does completes, and its context's timeline takes its number;
eight bytes written to a drain port with room join it.
The steps that an operation takes are the model's (log entries 31 and 74). -/
def Obligations.EngineLife : Prop :=
  ∀ (s : State) (g k : Nat),
    (∀ o q, (engineOf s g k).queue = o :: q → (regionAt s g).runs = true →
      (o.moves = true → o.running = false → o.firing = false → o.cancelled = false →
        ∃ t, exec (.engineOpStart g k) s = .next t ∧ t.mem = s.mem ∧
          (engineOf t g k).queue = { o with running := true, firing := !o.bound && o.op != 4 } :: q) ∧
      (o.bound = true → o.op ≠ 4 → o.mayFire = true → (Work.of s).inputReady g o.bind = true →
        let iv := bnIv o.bind
        let ov := bnOv o.bind
        let ins := takeSlots false (bnIcnt o.bind) (handleOf s g (bnIn o.bind))
        let outs := takeSlots true (bnOcnt o.bind) (handleOf s g (bnOut o.bind))
        (ov = true → bnOcnt o.bind ≤ (handleOf s g (bnOut o.bind)).free) →
        (iv = true → ov = true → bnIn o.bind ≠ bnOut o.bind) →
        ∃ t p, exec (.boundFiring g k) s = .next t ∧ (engineOf t g k).queue = p :: q ∧ p.firing = true ∧ p.moved = 0 ∧
          p.inSlots = (if iv then ins.2 else []) ∧ p.outSlots = (if ov then outs.2 else []) ∧
          (iv = true → handleOf t g (bnIn o.bind) = ins.1) ∧ (ov = true → handleOf t g (bnOut o.bind) = outs.1) ∧
          t.mem = s.mem) ∧
      (o.op = 4 → o.mayFire = true → (Work.of s).inputReady g o.bind = true →
        (∀ j < deBranches o.desc, 1 ≤ (handleOf s g (deBranch o.desc j)).free) →
        ∃ t p, exec (.smcastFiring g k) s = .next t ∧ (engineOf t g k).queue = p :: q ∧ p.firing = true ∧ p.moved = 0 ∧
          p.outSlots.length = deBranches o.desc ∧ t.mem = s.mem)) ∧
    (∀ o q, (engineOf s g k).queue = o :: q → o.op ≠ 0xFD → (q.all fun p => p.op != 0xFD) = true →
      (Work.of s).opDone g k o = true → ∃ t, exec (.engineOpComplete g k) s = .next t ∧ (engineOf t g k).queue = q ∧
        (engineOf t g k).tl = o.num) ∧
    ∀ v : Word, (engineOf s g k).drainHeld = [] → (engineOf s g k).drain.length + 8 ≤ 4096 →
      ∃ t, exec (.drainPortWrite g k v) s = .next t ∧
        (engineOf t g k).drain = (engineOf s g k).drain ++ leBytes 8 v.toNat ∧ t.mem = s.mem ∧ t.cores = s.cores

/-! ## Buffer handles -/

/-- R236, R238, R239: HFILL and HTAKE, in either form, take the slot at their head where it is free, or full, and answer its
address; the .TRY forms answer all ones where it is not, and the others suspend on the handle at their own address. HPOST makes
the filling slot it names full and HFREE the draining slot free, each raising Permission on a slot in another state; HWAIT of a
count reached and HSTAT answer words of the entry; and a write of word +0 or +8 of an entry makes its ring anew.
That an instruction which need not suspend completes without an entry of the suspension table is the model's choice (log entry 80). -/
def Obligations.Handles : Prop :=
  (∀ (s : State) (g : Nat) (d a : BitVec 5) (m h : Nat), OnCore s g →
     (Work.of s).handleAt g (reg s g a) false = .ok (m, h) →
     let x := handleOf s m h
     ∀ (i : Instr) (fill try_ : Bool), (i, fill, try_) ∈ ([(.hfill d a, true, false), (.hfillTry d a, true, true),
         (.htake d a, false, false), (.htakeTry d a, false, true)] : List (Instr × Bool × Bool)) → i.coreOk = true →
       let at_ := if fill then x.fh else x.dh
       (x.slots.getD at_ 9 = (if fill then 0 else 2) → MayGo s g (coreOf s g).step.pc →
         ∃ t, Did s g i d (BitVec.ofNat 64 (x.base + at_ * x.slotsz)) t ∧ t.mem = s.mem ∧
           handleOf t m h = (if fill then { x with slots := setAt x.slots x.fh 1, fh := (x.fh + 1) % x.nslot }
             else { x with slots := setAt x.slots x.dh 3, dh := (x.dh + 1) % x.nslot })) ∧
       (x.slots.getD at_ 9 ≠ (if fill then 0 else 2) → try_ = true → Ready s g → Gives s g i d (BitVec.allOnes 64)) ∧
       ∀ live, x.slots.getD at_ 9 ≠ (if fill then 0 else 2) → try_ = false → MaySuspend s g live (coreOf s g).pc →
         Suspends s g i 5 ((reg s g a).toNat % 65536) none 0 (coreOf s g).pc live false) ∧
  ∀ (s : State) (g : Nat) (a b d : BitVec 5) (m h : Nat), OnCore s g →
    (Work.of s).handleAt g (reg s g a) false = .ok (m, h) →
    let x := handleOf s m h
    (∀ (i : Instr) (old new : Nat), (i, old, new) ∈ ([(.hpost a b, 1, 2), (.hfree a b, 3, 0)] : List (Instr × Nat × Nat)) →
      i.coreOk = true → ∀ k, x.slotOf (reg s g b) = some k →
      (x.slots.getD k 9 = old → MayGo s g (coreOf s g).step.pc →
        ∃ t, Did s g i 0 0 t ∧ handleOf t m h = { x with slots := setAt x.slots k new } ∧ t.mem = s.mem) ∧
      (x.slots.getD k 9 ≠ old → Raises s g i 0x09 0)) ∧
    ((Instr.hwait d a b).coreOk = true → (reg s g b).toNat / 2 ^ 9 % 2 ^ 53 = 0 → (reg s g b).toNat / 2 ^ 62 ≤ 1 →
      (reg s g b).toNat % 2 ^ 9 ≤ x.nslot →
      (reg s g b).toNat % 2 ^ 9 ≤ (if (reg s g b).toNat / 2 ^ 62 = 0 then x.free else x.filled) →
      MayGo s g (coreOf s g).step.pc → ∃ t, Did s g (.hwait d a b) d (x.word 2) t ∧ t.mem = s.mem) ∧
    (∀ (n : BitVec 2) (m' h' : Nat), (Instr.hstat d a n).coreOk = true →
      (Work.of s).handleAt g (reg s g a) true = .ok (m', h') → MayGo s g (coreOf s g).step.pc →
      ∃ t, Did s g (.hstat d a n) d ((handleOf s m' h').word n.toNat) t ∧ t.mem = s.mem) ∧
    ∀ (second : Bool) (v : Word), ∃ t, exec (.handleReinit m h second v) s = .next t ∧ (handleOf t m h).fh = 0 ∧
      (handleOf t m h).dh = 0 ∧ (∀ z ∈ (handleOf t m h).slots, z = 0) ∧ t.mem = s.mem ∧
      if second then (handleOf t m h).nslot = v.toNat % 2 ^ 9 ∧ (handleOf t m h).slotsz = v.toNat / 2 ^ 32
      else (handleOf t m h).base = v.toNat % 2 ^ 57

/-! ## Residency and the tile registry -/

/-- R333, R334, R337, R338: RESD answers word +8 of a tile's entry or 0, its .E0 and .E1 forms the words of an entry by index,
RESW in supervisor mode writes a hint or, with 0, frees the entry, and a notice brings the grove's table to the dispatchers. That
RESW of 0 for a tile without an entry frees the entry that it would replace is the model's choice (log entry 66).
TILEREG that registers answers 1 where the tile is registered, and otherwise 0 with the 16 bytes in its entry and V set; TILEREG
that removes clears V, and answers 1 where no tile is there. -/
def Obligations.ResidencyAndTiles : Prop :=
  (∀ (s : State) (g : Nat) (d a b : BitVec 5), Ready s g →
     (∀ m, (Work.of s).residAt g (reg s g a) false = .ok m →
       let t := (groveOf s m).resid
       let reads := fun (i : Instr) (v : Word) => ∃ u, Did s g i d v u ∧ u.mem = s.mem ∧ u.groves = s.groves
       ((Instr.resd d a b).coreOk = true → (reg s g b).toNat < 2 ^ 16 → reads (.resd d a b)
         (match residOf t (reg s g b).toNat with
           | some (k, _) => (Work.of s).residWord m k true
           | none => 0)) ∧
       ((reg s g b).toNat < 256 →
         ((Instr.resdE0 d a b).coreOk = true → reads (.resdE0 d a b)
           (match Tbl.find t (reg s g b).toNat with
             | some e => BitVec.ofNat 64 (e.st * 2 ^ 62 + e.tile)
             | none => 0)) ∧
         ((Instr.resdE1 d a b).coreOk = true → reads (.resdE1 d a b)
           (match Tbl.find t (reg s g b).toNat with
             | some e => BitVec.ofNat 64 (e.bankb * 2 ^ 32 + e.l2b)
             | none => 0))) ∧
       (256 ≤ (reg s g b).toNat → (Instr.resdE0 d a b).coreOk = true → Raises s g (.resdE0 d a b) 0x09 0)) ∧
     (∀ m, Super s g → (Instr.resw a b).coreOk = true → (Work.of s).residAt g (reg s g a) true = .ok m →
       let id := (reg s g a).toNat / 2 ^ 32 % 2 ^ 16
       let v := reg s g b
       let k := match residOf (groveOf s m).resid id with
         | some (k, _) => k
         | none => residSlot (groveOf s m).resid
       ∃ t, Did s g (.resw a b) 0 0 t ∧ t.mem = s.mem ∧
         (groveOf t m).resid = if v = 0 then Tbl.del (groveOf s m).resid k
           else Tbl.put (groveOf s m).resid k ⟨2, id, v.toNat / 2 ^ 32, v.toNat % 2 ^ 32⟩) ∧
     ∃ t, exec (.residencyNotify (regionNo s g) g) s = .next t ∧ t.mem = s.mem ∧
       Tbl.find (regionAt t g).resView g = some (groveOf t g).resid) ∧
  ∀ (s : State) (g : Nat) (d a b : BitVec 5), OnCore s g → Super s g → MemOk s → (Instr.tilereg d a b).coreOk = true →
    let id := (reg s g a).toNat % 2 ^ 16
    let old := (Work.of s).tile id
    let va := (reg s g b).toNat
    let plain := ∀ k < 16, (Work.of s).loc ((Work.of s).tileAt id + k) = (Work.of s).tileAt id + k
    ((reg s g a).toNat / 2 ^ 16 = 1 → old.1.getLsbD 63 = false → Gives s g (.tilereg d a b) d 1) ∧
    ((reg s g a).toNat / 2 ^ 16 = 1 → old.1.getLsbD 63 = true → ∃ t, Did s g (.tilereg d a b) d 0 t ∧
      (plain → (Work.of t).tile id = (old.1 &&& 0x7FFFFFFFFFFFFFFF, old.2))) ∧
    ((reg s g a).toNat / 2 ^ 16 = 0 → va % 16 ≠ 0 → Raises s g (.tilereg d a b) 0x03 va) ∧
    ∀ bs w, (reg s g a).toNat / 2 ^ 16 = 0 → va % 16 = 0 → Reads s g va 16 bs w →
      let e : Word × Word := (BitVec.ofNat 64 (leNat (bs.take 8)) ||| 0x8000000000000000, BitVec.ofNat 64 (leNat (bs.drop 8)))
      (tileOk e = false → Raises s g (.tilereg d a b) 0x09 0) ∧
      (tileOk e = true → ∃ t, Did s g (.tilereg d a b) d (if old.1.getLsbD 63 then 1 else 0) t ∧
        (plain → old.1.getLsbD 63 = false → (Work.of t).tile id = e))

/-! ## Configuration -/

/-- R108, R109, R254, R393: CFGW.NODE of a record that the cell accepts puts it in its place at once where the node is empty or
its context inactive, and leaves it pending where it is live, and raises Invalid Descriptor on a record that breaks its rules;
CFGW.TWIG and CFGW.TWIG.MX write a sound block into the cell's twig store, or the matrix element's, at once where no running
twig's block overlaps it; CFGW.SHAPE puts a sound record at its index; CFGW.CTX fills a context that is not active with the
records and no others, which CFGFLIP no longer takes for a graph load's (R394).
R90, R108 to R110, R254: a pending record takes the node once its uses have ended, a pending twig block its words once no
running twig overlaps them, and a pending context the cell once nothing of the old one is left.
That a pending change takes its place in a step of its own is the model's choice (log entry 69). -/
def Obligations.Configuration : Prop :=
  ((∀ (s : State) (g : Nat) (a b : BitVec 5) (w : Work) (bs : List Byte) (mc : Nat), OnCore s g → MayGo s g (coreOf s g).step.pc →
      let va := (reg s g a).toNat
      let x := (reg s g b).toNat
      let ctx := x / 2 ^ 22 % 4
      let n := x / 2 ^ 12 % 2 ^ 10
      let r : NRec := BitVec.ofNat 96 (leNat bs)
      let c := cellOf s mc
      va % 8 = 0 → x / 2 ^ 24 = 0 → (Work.of s).lcell (regionNo s g) (x % 2 ^ 12) = some mc → Reads s g va 12 bs w →
      (Instr.cfgwNode a b).coreOk = true →
      let ok := w.recordFits mc c.patchAll ctx n r
      (ok = false → Raises s g (.cfgwNode a b) 0x05 0) ∧
      (ok = true → nOpc r ≠ 0 → c.nextCtx = none → Tbl.find c.reconf (1024 * ctx + n) = none →
        (ctx ≠ c.active ∨ nOpc (c.node n) = 0 →
          ∃ t, Did s g (.cfgwNode a b) 0 0 t ∧ Tbl.find (cellOf t mc).nodes (1024 * ctx + n) = some r) ∧
        (ctx = c.active → nOpc (c.node n) ≠ 0 →
          ∃ t, Did s g (.cfgwNode a b) 0 0 t ∧ Tbl.find (cellOf t mc).reconf (1024 * ctx + n) = some r ∧
            (cellOf t mc).node n = c.node n))) ∧
   ∀ (s : State) (g : Nat) (a b : BitVec 5) (w : Work) (mc : Nat), OnCore s g → MayGo s g (coreOf s g).step.pc →
     let va := (reg s g a).toNat
     let x := (reg s g b).toNat
     let at_ := x / 2 ^ 16 % 2 ^ 11
     va % 8 = 0 → (Work.of s).lcell (regionNo s g) (x % 2 ^ 12) = some mc →
     (∀ h code, cfgTwig g va (Work.of s) = .ok (h, code, w) → x / 2 ^ 12 % 16 = 0 → x / 2 ^ 27 = 0 → at_ % 2 = 0 →
       ((Instr.cfgwTwig a b).coreOk = true → at_ + code.length + 2 ≤ 2048 → blockOk false h code = true →
         pendOverlap (cellOf s mc).pendTwig at_ (code.length + 2) = false →
         twigsOverlap (cellOf s mc).twigs twigAddr at_ (code.length + 2) = false →
         ∃ t, Did s g (.cfgwTwig a b) 0 0 t ∧ cellOf t mc = ((cellOf s mc).loadBlock at_ (blockWords h code)).newInterval) ∧
       ((Instr.cfgwTwigMx a b).coreOk = true → at_ + code.length + 2 ≤ 512 → blockOk true h code = true →
         pendOverlap ((Work.of s).mx (mc / 16)).pendingTwig at_ (code.length + 2) = false →
         twigsOverlap ((Work.of s).mx (mc / 16)).twigs Twig.entry at_ (code.length + 2) = false →
         ∃ t, Did s g (.cfgwTwigMx a b) 0 0 t ∧
           (Work.of t).mx (mc / 16) = ((Work.of s).mx (mc / 16)).loadBlock at_ (blockWords h code))) ∧
     (∀ bs, Reads s g va 64 bs w → x / 2 ^ 12 % 16 = 0 → x / 2 ^ 21 = 0 → (Instr.cfgwShape a b).coreOk = true →
       shapeOk (BitVec.ofNat 512 (leNat bs)) = true →
       ∃ t, Did s g (.cfgwShape a b) 0 0 t ∧
         Tbl.find (cellOf t mc).shapes (x / 2 ^ 16 % 32) = some (BitVec.ofNat 512 (leNat bs))) ∧
     ∀ hd bs w1 filled, Reads s g va 8 hd w → 1 ≤ leNat hd → leNat hd ≤ 1024 →
       w.vread (w.accCore g) (va + 8) (12 * leNat hd) = .ok (bs, w1) → x / 2 ^ 12 % 2 ^ 10 = 0 → x / 2 ^ 24 = 0 →
       let ctx := x / 2 ^ 22 % 4
       (Instr.cfgwCtx a b).coreOk = true → ctx ≠ (cellOf s mc).active → (cellOf s mc).nextCtx = none →
       ((cellOf s mc).reconf.all fun e => e.1 / 1024 != ctx) = true →
       w1.fillCtx mc ctx 0 (ctxRecords (leNat hd) bs) ((cellOf s mc).emptyCtx ctx) = some filled →
       ∃ t, Did s g (.cfgwCtx a b) 0 0 t ∧
         cellOf t mc = { filled.newInterval with graphCtx := (cellOf s mc).graphCtx.filter fun k => k != ctx }) ∧
  ∀ (s : State) (mc : Nat),
    let c := cellOf s mc
    (∀ k r, c.nextCtx = none → c.duePatch = some (k, r) → k / 1024 = c.active → nOpc r ≠ 0 →
      ∃ t, exec (.nodeReconfigure mc) s = .next t ∧ Tbl.find (cellOf t mc).nodes k = some r ∧
        (cellOf t mc).reconf = Tbl.del c.reconf k) ∧
    (∀ b q, c.pendTwig = b :: q → twigsOverlap c.twigs twigAddr b.1 b.2.length = false →
      ∃ t, exec (.twigStoreWrite false mc) s = .next t ∧ (cellOf t mc).code = codePut b.1 b.2 c.code ∧
        (cellOf t mc).pendTwig = q ∧ t.mem = s.mem) ∧
    (∀ b q, ((Work.of s).mx mc).pendingTwig = b :: q → twigsOverlap ((Work.of s).mx mc).twigs Twig.entry b.1 b.2.length = false →
      ∃ t, exec (.twigStoreWrite true mc) s = .next t ∧ ((Work.of t).mx mc).code = codePut b.1 b.2 ((Work.of s).mx mc).code ∧
        ((Work.of t).mx mc).pendingTwig = q ∧ t.mem = s.mem) ∧
    ∀ k, c.nextCtx = some k → k < 4 → c.quiet = true →
      ∃ t, exec (.contextChangeComplete mc) s = .next t ∧ (cellOf t mc).active = k ∧ (cellOf t mc).nextCtx = none ∧
        t.mem = s.mem
/-! ## Privileged work -/

/-- R391, R392: in supervisor mode TLBINV removes from every core's and grove's buffer the translations it names and no
others; HALT stops the core it names, at once at an instruction boundary and otherwise once the instruction that it has issued
completes, and HALT.RUN lets it go on; a field of TLBINV, HALT or HALT.RUN that must be zero, and a designator that breaks the
layout, raise Permission. -/
def Obligations.TranslationRemoval : Prop :=
  ∀ (s : State) (g : Nat) (a b : BitVec 5), OnCore s g → Super s g →
    (∀ (i : Instr) (p : Xlat → Bool), (i, p) ∈ ([
        (.tlbinv a b, fun x => x.serves ((reg s g a).toNat % 64) (reg s g b).toNat),
        (.tlbinvAsid a, fun x => x.asid == (reg s g a).toNat % 64), (.tlbinvAll, fun _ => true)] : List (Instr × (Xlat → Bool))) →
      i.coreOk = true → (i ≠ .tlbinvAll → (reg s g a).toNat < 64) →
      ∃ t, Did s g i 0 0 t ∧ t.mem = s.mem ∧ ∀ h,
        (coreOf t h).tlb = (coreOf s h).tlb.filter (fun x => !p x) ∧
        (groveOf t h).tlb = (groveOf s h).tlb.filter fun x => !p x) ∧
    (64 ≤ (reg s g a).toNat →
      ((Instr.tlbinvAsid a).coreOk = true → Raises s g (.tlbinvAsid a) 0x09 0) ∧
      ((Instr.tlbinv a b).coreOk = true → Raises s g (.tlbinv a b) 0x09 0)) ∧
    ((∀ m, (Work.of s).designator g (reg s g a) ≠ some (m, 0)) →
      ((Instr.halt a).coreOk = true → Raises s g (.halt a) 0x09 0) ∧
      ((Instr.haltRun a).coreOk = true → Raises s g (.haltRun a) 0x09 0)) ∧
    ∀ m, (Work.of s).designator g (reg s g a) = some (m, 0) →
      let stays := fun c => if m = g then goneOn c else c
      ((Instr.halt a).coreOk = true →
        ∃ t, Did s g (.halt a) 0 0 t ∧ coreOf t m =
          if (coreOf s m).halted = true ∨ (coreOf s m).atBoundary = true ∨ m = g then { stays (coreOf s m) with halted := true }
          else { coreOf s m with halting := true }) ∧
      ((Instr.haltRun a).coreOk = true →
        ∃ t, Did s g (.haltRun a) 0 0 t ∧ coreOf t m = { stays (coreOf s m) with halted := false, halting := false })

/-- R110, R394, R395: CFGFLIP asks every cell it names that has another context active to change; CKILL begins a purge wave of
its colour and raises Permission for the running task's own; once no twig of the colour runs, the wave discards the colour's
tokens, matching-store entries and chains from every cell of the region, and its issuer goes on; a space token that a slot freed
by the wave sends (R237) is none of them.
That CFGFLIP of every cell passes over those without the context where some cell holds it is the model's choice (log entry 69).
What the wave stops beside the tokens is the model's choice (log entry 70). -/
def Obligations.FlipAndKill : Prop :=
  (∀ (s : State) (g : Nat) (a b : BitVec 5), OnCore s g → Super s g →
     (∀ mc, (Instr.cfgflip a b).coreOk = true → (reg s g b).toNat ≤ 3 → (reg s g a).toNat < 2 ^ 12 →
       (Work.of s).lcell (regionNo s g) (reg s g a).toNat = some mc → (cellOf s mc).hasCtx (reg s g b).toNat = true →
       (cellOf s mc).nextCtx = none →
       ∃ t, Did s g (.cfgflip a b) 0 0 t ∧ t.mem = s.mem ∧ (cellOf t mc).nextCtx =
         if (cellOf s mc).active = (reg s g b).toNat then none else some (4 + (reg s g b).toNat)) ∧
     ((Instr.cfgflip a b).coreOk = true → (reg s g b).toNat ≤ 3 → reg s g a = BitVec.allOnes 64 →
       (∃ mc ∈ (Work.of s).cellsOf (regionNo s g), (cellOf s mc).hasCtx (reg s g b).toNat = true) →
       (∀ mc ∈ (Work.of s).cellsOf (regionNo s g), (cellOf s mc).nextCtx = none) →
       ∃ t, Did s g (.cfgflip a b) 0 0 t ∧ t.mem = s.mem ∧ ∀ mc ∈ (Work.of s).cellsOf (regionNo s g), (cellOf t mc).nextCtx =
         if (cellOf s mc).active = (reg s g b).toNat then none else some (4 + (reg s g b).toNat)) ∧
     ((Instr.cfgflip a b).coreOk = true → 3 < (reg s g b).toNat → Raises s g (.cfgflip a b) 0x09 0) ∧
     ∀ k, (coreOf s g).task = some k → (Instr.ckill a).coreOk = true →
       (2 ^ 12 ≤ (reg s g a).toNat ∨ (reg s g a).toNat = k.colour.toNat → Raises s g (.ckill a) 0x09 0) ∧
       ((reg s g a).toNat < 2 ^ 12 → (reg s g a).toNat ≠ k.colour.toNat →
         ((regionAt s g).purge.any fun p => p.2 == some g) = false →
         ∃ t, exec (.ckill a) s = .next t ∧ (regionAt t g).purge = (regionAt s g).purge ++ [((reg s g a).toNat, some g)] ∧
           coreOf t g = { coreOf s g with stall := none } ∧ t.mem = s.mem)) ∧
  ∀ (s : State) (r k g : Nat) (q : List (Nat × Option Nat)), (regionOf s r).purge = (k, some g) :: q → k < 2 ^ 12 →
    (∀ mc ∈ (Work.of s).cellsOf r, ((cellOf s mc).twigs.any fun e => e.2.colour == BitVec.ofNat 12 k) = false) →
    (coreOf s g).task ≠ none → (coreOf s g).cur.colour ≠ BitVec.ofNat 12 k →
    (regionAt s g).supBase ≤ (coreOf s g).pc.toNat →
    ∃ t, exec (.purgeWaveComplete r) s = .next t ∧ (regionOf t r).purge.map Prod.fst = q.map Prod.fst ∧ (coreOf t g).pc = (coreOf s g).step.pc ∧
      ∀ mc ∈ (Work.of s).cellsOf r,
        (∀ e ∈ (cellOf t mc).inq, e.2.colour ≠ BitVec.ofNat 12 k ∨ e.2.kind = 8) ∧
        (∀ e ∈ (cellOf t mc).entries, e.tok.colour ≠ BitVec.ofNat 12 k) ∧
        (∀ e ∈ (cellOf t mc).outq, e.colour ≠ BitVec.ofNat 12 k) ∧
        ∀ e ∈ (cellOf t mc).chains, e.colour ≠ BitVec.ofNat 12 k

/-- R405, R406: DCAPR of a live capability that the task holds ends it and every one delegated from it, directly or through
others, and answers how many; DCAPD answers 1 where no entry is free, and else 0 with the lowest free entry live, narrowed to
the rights asked for, held by the address space named, and its parent recorded.
The parent chain as it stands in the table is the model's reading (log entry 52). -/
def Obligations.Capabilities : Prop :=
  ∀ (s : State) (g : Nat) (d a b : BitVec 5) (i : Nat) (c : Cap) (w : Work), OnCore s g → MayGo s g (coreOf s g).step.pc →
    (Work.of s).heldCap g (reg s g a).toNat = .ok (i, c, w) →
    ((Instr.dcapr d a).coreOk = true →
      let gone := (List.range 256).filter fun k => s.mod.derives i 256 k
      ∃ t, Did s g (.dcapr d a) d (BitVec.ofNat 64 gone.length) t ∧
        ∀ k < 256, (t.mod.cap k).v = ((s.mod.cap k).v && !s.mod.derives i 256 k)) ∧
    ∀ w2, (Instr.dcapd d a b).coreOk = true →
      let x := (reg s g b).toNat
      x / 2 ^ 14 = 0 → x / 2 ^ 6 % 4 = 0 → (Tbl.getD s.mod.asTable (x % 64) (0, 64)).1.getLsbD 63 = true →
      w.vcheck (w.accCore g) needW ((reg s g a).toNat + 16) 16 = .ok w2 →
      (((List.range 256).all fun k => (s.mod.cap k).v) = true → ∃ t, Did s g (.dcapd d a b) d 1 t) ∧
      ∀ n w4, (List.range 256).find? (fun k => !(s.mod.cap k).v) = some n →
        let e : Cap :=
          { s.mod.cap n with
            v := true, holder := x % 64, region := c.region
            rights := (BitVec.ofNat 64 c.rights &&& BitVec.ofNat 64 (x / 2 ^ 8 % 64)).toNat
            pv := true, parent := i, check := w2.fresh.1 }
        let w3 := w2.fresh.2.updMod fun m => { m with caps := Tbl.put m.caps n e }
        w3.vwrite (w3.accCore g) ((reg s g a).toNat + 16) (leBytes 16 (handleBits n e)) = .ok w4 →
        w4.mod.caps = w3.mod.caps → ∃ t, Did s g (.dcapd d a b) d 0 t ∧ t.mod.cap n = e

/-! ## Nodes -/

/-- R91, R92, R97 to R101: a chosen instance of an arithmetic, compare or multiply-add node sends its operation's value of its
operands to its destinations, or null tokens where a token of it is null; its tokens leave the matching store and nothing else
changes. -/
def Obligations.NodeArithmetic : Prop :=
  ∀ (s : State) (f : Fire) (x : Inst),
    (∀ (i : Instr) (opc : Nat) (value : BitVec 3 → Word → Word → Word), nodeValue i = some (opc, value) → Fires s f x opc →
      let p := operands x (literal x)
      Sends s i f x (if x.anyNull then nullTo f x else valueTo f x (value (nType x.r) p.1 p.2))) ∧
    (Fires s f x 0x0B →
      let l := (nLit x.r).extractLsb' 3 29
      let p := operands x (if (nType x.r).toNat % 2 = 0 then l.signExtend 64 else l.setWidth 64)
      Sends s .ncmp f x (if x.anyNull then nullTo f x
        else valueTo f x (compared ((nLit x.r).setWidth 3) (nType x.r) p.1 p.2))) ∧
    (Fires s f x 0x0D →
      let c := if osb0 x.r then literal x else tokW (x.tok 2) 0
      Sends s .nfma f x (if x.anyNull then nullTo f x
        else valueTo f x (nodeFp (nType x.r) (fun a b z => (a.mul b).add z) (tokW (x.tok 0) 0) (tokW (x.tok 1) 0) c)))

/-- R97, R101 to R106: the select, conversion, flow and tag nodes: which token each passes on whole, to which destination and in
which tag, what a null token does at each port, and NITER's overflow, which freezes its colour.
What the null tokens of NSTEER and NGATE keep of the tokens they stand for is the model's reading (log entry 36).
The tag that NTAGSET sends where both ports are null is the model's choice (log entry 82). -/
def Obligations.NodeFlow : Prop :=
  ∀ (s : State) (f : Fire) (x : Inst),
    let d := x.tok 0
    let c := x.tok 1
    let v := tokW c 0
    (Fires s f x 0x0C → Sends s .nsel f x
      (if x.anyNull then nullTo f x
      else if (tokW d 0).getLsbD 0 then
        if osb0 x.r then valueTo f x (literal x) else bothTo x fun a => { passTo x (x.tok 1) a with seq := d.seq }
      else bothTo x fun a => { passTo x (x.tok 2) a with seq := d.seq })) ∧
    (Fires s f x 0x0E → x.anyNull = true → Sends s .ncvt f x (nullTo f x)) ∧
    (Fires s f x 0x0E → x.anyNull = false →
      let k := Conv.ofWord (nLit x.r).toNat
      let p := k.payload (Tbl.getD (cellOf s f.cell).convL ((cellOf s f.cell).key f.node) k.seedL) ((List.range 6).map (tokW d))
      SendsAnd s .ncvt f x (wordsTo f x p.1) fun t => CellOnly s t f.cell ∧
        Tbl.find (cellOf t f.cell).convL ((cellOf s f.cell).key f.node) = some p.2) ∧
    (Fires s f x 0x10 → Sends s .nsteer f x
      (if c.null then bothTo x (nullPass x d) else [passTo x d (if v.getLsbD 0 then nDstA x.r else nDstB x.r)])) ∧
    (∀ p e, Fires s f x 0x11 → x.toks = [(p, e)] → Sends s .nmerge f x (bothTo x (passTo x e))) ∧
    (Fires s f x 0x12 → Sends s .ncopy f x (bothTo x (passTo x d))) ∧
    (Fires s f x 0x13 → Sends s .nconst f x
      (if osb0 x.r then (if d.null then [] else bothTo x (bare f x 2 d.seq))
      else if d.null then nullTo f x else valueTo f x (literal x))) ∧
    (Fires s f x 0x14 →
      let g : Token := { c with seq := d.seq }
      Sends s .ngate f x (if x.anyNull then [nullPass x d (nDstA x.r), nullPass x g (nDstB x.r)]
        else [passTo x d (nDstA x.r), passTo x g (nDstB x.r)])) ∧
    (Fires s f x 0x15 → Sends s .nsink f x []) ∧
    (Fires s f x 0x18 → nOsb x.r = 0 → f.iter = 0xFFFF → Freezes s .niter f x 0x11) ∧
    (Fires s f x 0x18 → ¬ (nOsb x.r = 0 ∧ f.iter = 0xFFFF) → Sends s .niter f x
      (bothTo x fun a => { passTo x d a with iter := if nOsb x.r = 0 then f.iter + 1 else (nLit x.r).setWidth 16 })) ∧
    (Fires s f x 0x19 → Sends s .ntagset f x
      (if c.null then bothTo x (nullPass x d)
      else bothTo x fun a => { passTo x d a with
        iter := if osb0 x.r then v.setWidth 16 else f.iter
        seq := if osb1 x.r then v.extractLsb' 16 8 else d.seq }))

/-- R162 to R166: NCOLOUR asks the pool and waits with its tokens; the pool gives its first free colour to the first request,
whose node sends port 0 to A and port 1, or port 0, to B in that colour and iteration 0; NRETURN sends its token to the
recorded destination in the caller's tag and the colour goes to the tail of the free list; after its period the watchdog
freezes every waiting caller's colour at its node.
That an instance of a node with DEM = 1 asks once its demand is pending is the model's reading (log entry 95). -/
def Obligations.Colours : Prop :=
  (∀ (s : State) (f : Fire) (x : Inst), s.fire = f → (cellOf s f.cell).inst f = some x → nOpc ((cellOf s f.cell).node f.node) = 0x1A →
     (Work.of s).mayFire f = true → (∀ e ∈ (regionAt s (f.cell / 16)).waitC, e.1 ≠ f) →
     ∃ t, exec .ncolour s = .next t ∧ t.cells = s.cells ∧ t.mem = s.mem ∧
       (regionAt t (f.cell / 16)).waitC = (regionAt s (f.cell / 16)).waitC ++ [(f, s.mod.cycle)]) ∧
  (∀ (s : State) (r c n : Nat) (f : Fire) (x : Inst) (q : List (Fire × Nat)) (rest : List Nat),
     (regionOf s r).waitC = (f, n) :: q → (∀ e ∈ q, e.1 ≠ f) → (cellOf s f.cell).inst f = some x →
     (regionOf s r).freeColours = c :: rest → nOpc ((cellOf s f.cell).node f.node) = 0x1A → (Work.of s).mayFire f = true →
     (cellOf s f.cell).room (reserved (Tbl.vals (cellOf s f.cell).twigs) + dests [nDstA x.r, nDstB x.r]) = true →
     let u := if osb0 x.r then x.tok 1 else x.tok 0
     SendsAnd s (.colourGrant r) f x
       [{ passTo x (x.tok 0) (nDstA x.r) with colour := BitVec.ofNat 12 c, iter := 0 },
         { passTo x u (nDstB x.r) with colour := BitVec.ofNat 12 c, iter := 0 }] fun t =>
       (regionOf t r).freeColours = rest ∧ (regionOf t r).waitC = q ∧
         Tbl.find (regionOf t r).colours c =
           some ⟨(regionOf s r).stampNext, some (f.colour, f.iter, (nLit x.r).setWidth 24)⟩) ∧
  (∀ (s : State) (f : Fire) (x : Inst), Fires s f x 0x1B →
     let r := regionAt s (f.cell / 16)
     (∀ z c i d, Tbl.find r.colours f.colour.toNat = some ⟨z, some (c, i, d)⟩ →
       SendsAnd s .nreturn f x [{ passTo x (x.tok 0) d with colour := c, iter := i }] fun t =>
         (regionAt t (f.cell / 16)).freeColours = r.freeColours ++ [f.colour.toNat] ∧
           Tbl.find (regionAt t (f.cell / 16)).colours f.colour.toNat = none) ∧
     ((∀ z c i d, Tbl.find r.colours f.colour.toNat ≠ some ⟨z, some (c, i, d)⟩) → Freezes s .nreturn f x 0x11)) ∧
  ∀ (s : State) (r n : Nat), (regionOf s r).waitC ≠ [] → (regionOf s r).cpoolSince = some n →
    2 ^ (regionOf s r).cwdog ≤ s.mod.cycle - n → (∀ e ∈ (regionOf s r).waitC, regionNo s (e.1.cell / 16) = r) →
    ∃ t os, exec (.colourWatchdog r) s = .next t ∧ (regionOf t r).waitC = [] ∧ t.cells = s.cells ∧ t.mem = s.mem ∧
      (regionOf t r).frozen = (regionOf s r).frozen ++ os ∧
      os.map (fun o => (o.okind, o.code, o.cell, o.node, o.colour)) =
        (regionOf s r).waitC.map fun e => (2, 0x22, e.1.cell, e.1.node, e.1.colour)

/-- R245, R246, R336, R357, R358: NFORK counts a credit of port 1, whose overflow freezes its colour, and passes a port 0 token
on for one; NPJOIN counts a token of a branch and sends a permit once every live branch has one; NTASK pushes the record that
its token, its literal and its tag make into the running launch and sends the WID on, and freezes its colour where no launch
runs or the record breaks the layout; NLTX sends its words on its bound group for as many credits; NLRX makes a token of the
next words received and returns the credit. -/
def Obligations.BranchesAndLinks : Prop :=
  (∀ (s : State) (f : Fire) (x : Inst) (p : Nat) (e : Token), x.toks = [(p, e)] →
     let c := (cellOf s f.cell).credits f.node
     (Fires s f x 0x27 →
       (p = 1 → 65535 ≤ c → Freezes s .nfork f x 0x11) ∧
       (p = 1 → c < 65535 → SendsAnd s .nfork f x [] fun t => CellOnly s t f.cell ∧ (cellOf t f.cell).credits f.node = c + 1) ∧
       (p = 0 → SendsAnd s .nfork f x (bothTo x (passTo x e)) fun t =>
         CellOnly s t f.cell ∧ (cellOf t f.cell).credits f.node = c - 1)) ∧
     (Fires s f x 0x28 →
       let j := (cellOf s f.cell).join f.node
       let n := fun k => j.counts.getD k 0 + if k = p ∧ p ∉ j.detached then 1 else 0
       let all := (j.live ≠ [] ∧ ∀ k ∈ j.live, 1 ≤ n k)
       (p ∉ j.detached → 65535 ≤ j.counts.getD p 0 → Freezes s .npjoin f x 0x11) ∧
       (¬ (p ∉ j.detached ∧ 65535 ≤ j.counts.getD p 0) → p < j.counts.length →
         (all → SendsAnd s .npjoin f x (bothTo x (bare f x 9 0)) fun t => CellOnly s t f.cell ∧
           ∀ k ∈ j.live, ((cellOf t f.cell).join f.node).counts.getD k 0 = n k - 1) ∧
         (¬ all → SendsAnd s .npjoin f x [] fun t => CellOnly s t f.cell ∧
           ∀ k, ((cellOf t f.cell).join f.node).counts.getD k 0 = n k)))) ∧
  (∀ (s : State) (f : Fire) (x : Inst), Fires s f x 0x1C →
     let g := f.cell / 16
     let k := taskRec f x
     (x.anyNull = true → Sends s .ntask f x (nullTo f x)) ∧
     (x.anyNull = false → (regionAt s g).running = none → Freezes s .ntask f x 0x11) ∧
     ∀ u, x.anyNull = false → (regionAt s g).running = some u →
       (u.launch.recOk k = false → Freezes s .ntask f x 0x11) ∧
       (u.launch.recOk k = true → trStage k < u.queues.length →
         trStage k = (nLit x.r).toNat % 8 ∧ trWid k = (if osb0 x.r then tokW (x.tok 1) 0 else 0) ∧
         trColour k = f.colour ∧ trIter k = f.iter ∧
         SendsAnd s .ntask f x (valueTo f x (trWid k)) fun t => ∃ v, (regionAt t g).running = some v ∧
           (v.queue (trStage k)).recs = (u.queue (trStage k)).recs ++ [k] ∧ v.live = u.live + 1)) ∧
  (∀ (s : State) (f : Fire) (x : Inst), Fires s f x 0x29 →
     let i := (nLit x.r).toNat % 2 ^ 7
     ((x.tok 0).null = true → Sends s .nltx f x []) ∧
     ∀ p, (x.tok 0).null = false → (regionAt s (f.cell / 16)).plans[i]? = some p →
       SendsAnd s .nltx f x [] fun t =>
         (regionAt t (f.cell / 16)).plans[i]? = some { p with credit := p.credit - (x.tok 0).words } ∧
         t.outbox = s.outbox ++ [.words p.entry.port p.entry.group ((List.range (x.tok 0).words).map (tokW (x.tok 0)))]) ∧
  ∀ (s : State) (c n : Nat) (p : Plan),
    let r := (cellOf s c).node n
    let i := (nLit r).toNat % 2 ^ 7
    let k := (nLit r).toNat / 2 ^ 20 % 8
    let colour := (nLit r).extractLsb' 8 12
    nOpc r = 0x2A → (Work.of s).mayFire ⟨c, n, colour, 0, 0⟩ = true → (Work.of s).mayFire ⟨c, n, 0, 0, 0⟩ = true → (regionAt s (c / 16)).plans[i]? = some p →
    0 < k → k ≤ p.rxWords.length →
    (cellOf s c).room (reserved (Tbl.vals (cellOf s c).twigs) + dests [nDstA r, nDstB r]) = true →
    let tok := fun d => { mkTok d colour (BitVec.ofNat 16 p.k) 0 (nPrio r) (p.rxWords.take k) with kind := if k = 6 then 1 else 0 }
    ∃ t, exec (.nlrx c n) s = .next t ∧ t.mem = s.mem ∧ t.cores = s.cores ∧
      (cellOf t c).outq = (cellOf s c).outq ++ [tok (nDstA r), tok (nDstB r)].filter (fun x => x.dest != noDst) ∧
      (cellOf t c).entries = (cellOf s c).entries ∧
      (regionAt t (c / 16)).plans[i]? = some { p with rxWords := p.rxWords.drop k, k := p.k + 1 } ∧
      t.outbox = s.outbox ++ [.credit p.entry.port p.entry.group k]

/-- R84 to R88, R93, R107, R120, R408: NTWIG launches its block in a free context with its tokens by port, freezes its colour
where no block stands there, and stops the region at a breakpoint of the block; a twig all of whose instructions have been
issued commits, O0 to A and then O1 to B. The first token under way to a cell enters its store, spills behind those
that wait, or freezes its colour at the node where the node does not take it or, for good, where it collides; and the oldest
record of the overflow queue comes back before it.
Where a frozen token is kept is the model's choice (log entry 49). -/
def Obligations.TwigsAndArrivals : Prop :=
  (∀ (s : State) (f : Fire) (x : Inst), Fires s f x 0x1D →
     let a := (nLit x.r).toNat % 2 ^ 11
     let c := cellOf s f.cell
     (a ∉ c.blocks → Freezes s .ntwig f x 0x11) ∧
     (∀ n, a ∈ c.blocks → (Work.of s).twigBreak f x = some n → ∃ t, exec .ntwig s = .next t ∧ t.cells = s.cells ∧
       (regionAt t (f.cell / 16)).stopping = some (regionAt s (f.cell / 16)).nextFseq ∧ t.mem = s.mem) ∧
     (a ∈ c.blocks → (Work.of s).twigBreak f x = none →
       SendsAnd s .ntwig f x [] fun t => ∃ k w, Tbl.find c.twigs k = none ∧ Tbl.find (cellOf t f.cell).twigs k = some w ∧
         (∀ j, j ≠ k → Tbl.find (cellOf t f.cell).twigs j = Tbl.find c.twigs j) ∧ w.node = f.node ∧ w.colour = f.colour ∧
         w.iter = f.iter ∧ w.seq = (x.tok 0).seq ∧ w.ins = (nPorts x.r).map x.tok ∧ w.header = blockHeader c.code a ∧
         w.code = blockCode c.code a ∧ w.next = 0 ∧ w.outA = none ∧ w.outB = none)) ∧
  (∀ (s : State) (c k : Nat) (w : Twig), (Work.of s).twigAt (.twig c k) = some w → w.code.length ≤ w.next →
     let out : BitVec 24 → Option TOut → Token := fun d o =>
       match o with
       | some ⟨false, ws⟩ => mkTok d w.colour w.iter w.seq (nPrio w.record) ws
       | _ => mkNull d w.colour w.iter w.seq (nPrio w.record)
     let outs := (if w.header.getLsbD 25 then [out (nDstA w.record) w.outA] else []) ++
       (if w.header.getLsbD 26 then [out (nDstB w.record) w.outB] else [])
     ∃ t, exec (.twigCommit (.twig c k)) s = .next t ∧ (Work.of t).twigAt (.twig c k) = none ∧ t.mem = s.mem ∧
       t.cores = s.cores ∧ (cellOf t c).outq = (cellOf s c).outq ++ outs.filter (fun x => x.dest != noDst) ∧
       (cellOf t c).entries = (cellOf s c).entries) ∧
  (∀ (s : State) (c src : Nat) (k : Token) (q : List (Nat × Token)), (cellOf s c).inq = (src, k) :: q →
     (∀ p ∈ (regionAt s (c / 16)).purge, p.1 ≠ k.colour.toNat) → (Work.of s).canTake c = true →
     (Work.of s).inputHeld c = false →
     ((Work.of s).spills c k = true → ∃ t o, exec (.tokenArrival c) s = .next t ∧ (cellOf t c).inq = q ∧
       (cellOf t c).entries = (cellOf s c).entries ∧ (cellOf t c).ovf = (cellOf s c).ovf ++ [o] ∧ o.collided = false ∧
       o.item = k.item ∧ t.cores = s.cores) ∧
     ((Work.of s).spills c k = false → Keeps s c k → ∃ t, exec (.tokenArrival c) s = .next t ∧ (cellOf t c).inq = q ∧
       Entered s t c k) ∧
     ((Work.of s).spills c k = false → (regionAt s (c / 16)).dbpHit k = none → (∀ j, k.item ≠ some (15, j)) →
       (badTok ((cellOf s c).node (dNode k.dest)) k = true → ∃ t o, exec (.tokenArrival c) s = .next t ∧
         (cellOf t c).entries = (cellOf s c).entries ∧ (regionAt t (c / 16)).frozen = (regionAt s (c / 16)).frozen ++ [o] ∧
         o.okind = 2 ∧ o.code = 0x11 ∧ o.node = dNode k.dest ∧ o.colour = k.colour ∧ o.toks = [(dPort k.dest, k)]) ∧
       (badTok ((cellOf s c).node (dNode k.dest)) k = false → (cellOf s c).collides k = true →
         ∃ t o z, exec (.tokenArrival c) s = .next t ∧ (cellOf t c).entries = (cellOf s c).entries ∧
           (cellOf t c).ovf = (cellOf s c).ovf ++ [z] ∧ z.collided = true ∧
           (regionAt t (c / 16)).frozen = (regionAt s (c / 16)).frozen ++ [o] ∧
           o.okind = 2 ∧ o.code = 0x10 ∧ o.stuck = true ∧ o.node = dNode k.dest ∧ o.colour = k.colour))) ∧
  ∀ (s : State) (c : Nat) (o : OvRec), (Work.of s).refillDue c = true → (Work.of s).inputHeld c = false →
    ((cellOf s c).ovf.find? fun z => !z.collided) = some o →
    let k := tokOfBytes ((Work.of s).pbytes ((Work.of s).ovAddr c o.slot) 64) o.item o.req
    Keeps s c k → ∃ t, exec (.overflowRefill c) s = .next t ∧ (cellOf t c).ovf = (cellOf s c).ovf.erase o ∧
      Entered s t c k

/-! ## Changes and frontiers -/

/-- R282: a source takes the slot at its ring's drain head; a count out of its bounds freezes it, and a sound one is kept;
each change whose time is a time of the scope and not below the source's element leaves with the CRC-32C of its key as
hash, in colour 0 and iteration 0, unless its diff is 0, and another time freezes it; and after the last the slot is free. -/
def Obligations.Sources : Prop :=
  ∀ (s : State) (c n : Nat), NodeGoes s c n 0x30 →
    let g := c / 16
    let r := (cellOf s c).node n
    let hn := (nLit r).toNat % 2 ^ 8
    let h := handleOf s g hn
    let d := sourceOf s c n
    let sc := (nLit r).toNat / 2 ^ 8 % 16
    let sh := (regionAt s g).shape sc
    (d.cur = none → 1 ≤ h.filled → ∃ t, exec (.dsrc c n) s = .next t ∧
      handleOf t g hn = { h with slots := setAt h.slots h.dh 3, dh := (h.dh + 1) % h.nslot } ∧
      (sourceOf t c n).cur = some (h.dh, none, 0) ∧ (cellOf t c).outq = (cellOf s c).outq ∧ t.mem = s.mem) ∧
    (∀ k z bs w, d.cur = some (k, none, z) → NodeReads s c n (h.base + k * h.slotsz) 8 bs w →
      let m := leNat bs
      (m = 0 ∨ h.slotsz / 48 - 1 < m → SourceFreezes s c n 0x11 (BitVec.allOnes 64)) ∧
      (1 ≤ m → m ≤ h.slotsz / 48 - 1 → ∃ t, exec (.dsrc c n) s = .next t ∧
        (sourceOf t c n).cur = some (k, some m, 0) ∧ (cellOf t c).outq = (cellOf s c).outq)) ∧
    (∀ k m i, d.cur = some (k, some m, i) → m ≤ i → ∃ t, exec (.dsrc c n) s = .next t ∧
      (sourceOf t c n).cur = none ∧ (handleOf t g hn).slots = setAt h.slots k 0 ∧ t.mem = s.mem) ∧
    ∀ k m i bs w, d.cur = some (k, some m, i) → i < m →
      (cellOf s c).room (reserved (Tbl.vals (cellOf s c).twigs) + dests [nDstA r, nDstB r]) = true →
      NodeReads s c n (h.base + k * h.slotsz + 48 * (i + 1)) 48 bs w →
      let ws := wordsOf 6 bs
      let fits := d.isOpen = true ∧ isTime sh (ws.getD 4 0) = true ∧ timeLe sh d.element (ws.getD 4 0) = true
      (¬ fits → SourceFreezes s c n 0x11 (BitVec.ofNat 64 i)) ∧
      (fits → ∃ t new, exec (.dsrc c n) s = .next t ∧ (sourceOf t c n).cur = some (k, some m, i + 1) ∧
        (cellOf t c).outq = (cellOf s c).outq ++ new ∧
        (chDiff ws = 0 → new = []) ∧
        (chDiff ws ≠ 0 → ∃ j, new = ([nDstA r, nDstB r].filter fun a => a != noDst).map fun a =>
          { mkTok a 0 0 (BitVec.ofNat 8 i) (nPrio r)
              (withDiff ws (chDiff ws) (crc32c (bs.take (4 * 2 ^ ((nLit r).toNat / 2 ^ 12 % 4))))) with kind := 1, item := some j }))

/-- R283: DOUT writes its token's six words as the next change of the slot it fills and then the count, taking the slot at
the ring's fill head where it fills none; a full slot is posted, and one with no further write for 64 cycles, whichever context
the sink's record is in; a null token writes nothing.
That bytes 8 to 47 of a slot are written as zeros with the count is the model's choice (log entry 29). -/
def Obligations.Sinks : Prop :=
  (∀ (s : State) (f : Fire) (x : Inst), Fires s f x 0x31 →
     let g := f.cell / 16
     let hn := (nLit x.r).toNat % 2 ^ 8
     let h := handleOf s g hn
     let d := sinkOf s f.cell f.node
     let room := h.slotsz / 48 - 1
     ((x.tok 0).null = true → Sends s .dout f x []) ∧
     ((x.tok 0).null = false → ∀ k w1 w2, d.slot = some k →
       (nodeBegins s f.cell f.node).vwrite ((Work.of s).accNode f.cell f.node) (h.base + k * h.slotsz + 48 * (d.n + 1))
         (bytesOf ((List.range 6).map (tokW (x.tok 0)))) = .ok w1 →
       w1.vwrite ((Work.of s).accNode f.cell f.node) (h.base + k * h.slotsz) (leBytes 48 (d.n + 1)) = .ok w2 →
       SendsAnd s .dout f x [] fun t =>
         ((regionAt s g).trctl.getLsbD 63 = false → t.mem = s.mem.write w2.log) ∧
         (d.n + 1 < room → (sinkOf t f.cell f.node).slot = some k ∧ (sinkOf t f.cell f.node).n = d.n + 1 ∧
           (sinkOf t f.cell f.node).last = s.mod.cycle ∧ (sinkOf t f.cell f.node).items = d.items ++ (x.tok 0).item.toList) ∧
         (room ≤ d.n + 1 → (sinkOf t f.cell f.node).slot = none ∧
           ((regionAt s g).trctl.getLsbD 63 = false → (handleOf t g hn).slots = setAt h.slots k 2))) ∧
     ((x.tok 0).null = false → d.slot = none → (∃ t, exec .dout s = .next t ∧ (regionAt t g).frozen = (regionAt s g).frozen) →
       2 ≤ room → SendsAnd s .dout f x [] fun t => (sinkOf t f.cell f.node).slot = some h.fh ∧ (sinkOf t f.cell f.node).n = 1 ∧
         ((regionAt s g).trctl.getLsbD 63 = false → (handleOf t g hn).slots = setAt h.slots h.fh 1))) ∧
  ∀ (s : State) (c key k : Nat) (d : Dout), Tbl.find (cellOf s c).douts key = some d → (regionAt s (c / 16)).runs = true →
    d.slot = some k → 1 ≤ d.n → 64 ≤ s.mod.cycle - d.last →
    ∃ t, exec (.doutIdlePost c key) s = .next t ∧ Tbl.find (cellOf t c).douts key = some ⟨none, 0, 0, [], 0, false⟩ ∧
      (handleOf t (c / 16) d.ring).slots = setAt (handleOf s (c / 16) d.ring).slots k 2 ∧ t.mem = s.mem

/-- R284: DNEG negates the diff and freezes its colour with Diff Overflow at −2^31; DENTER leaves the time and moves the count
into the loop; DFEED raises the innermost field by one and freezes with Token Fault where it is full; DLEAVE sets it to 0
and moves the count out; each passes a null token as null. -/
def Obligations.TimeOperators : Prop :=
  ∀ (s : State) (f : Fire) (x : Inst),
    let k := x.tok 0
    let ws := (List.range 6).map (tokW k)
    let t := ws.getD 4 0
    let reg := regionAt s (f.cell / 16)
    let a := (nLit x.r).toNat % 16
    let b := (nLit x.r).toNat / 16 % 16
    let sh := reg.shape a
    let off := shOff sh (shDepth sh)
    let full := t.toNat / 2 ^ off % 2 ^ shWidth sh (shDepth sh) + 1 = 2 ^ shWidth sh (shDepth sh)
    (∀ i opc, (i, opc) ∈ ([(.dneg, 0x36), (.denter, 0x37), (.dfeed, 0x38), (.dleave, 0x39)] : List (Instr × Nat)) →
      Fires s f x opc → x.anyNull = true → Sends s i f x (bothTo x (nullPass x k))) ∧
    (x.anyNull = false →
      (Fires s f x 0x36 → chDiff ws = -2147483648 → Freezes s .dneg f x 0x12) ∧
      (Fires s f x 0x36 → chDiff ws ≠ -2147483648 → Sends s .dneg f x
        (bothTo x fun d => { passTo x k d with payload := withDiff ws (-chDiff ws) ((ws.getD 5 0).extractLsb' 32 32) })) ∧
      (Fires s f x 0x37 → isTime sh t = false → Freezes s .denter f x 0x11) ∧
      (Fires s f x 0x37 → isTime sh t = true → Moves s .denter f x b t ws) ∧
      (Fires s f x 0x38 → isTime sh t = false ∨ full → Freezes s .dfeed f x 0x11) ∧
      (Fires s f x 0x38 → isTime sh t = true → ¬ full →
        let u := t + BitVec.ofNat 64 (2 ^ off)
        Moves s .dfeed f x a u (withTime ws u)) ∧
      (Fires s f x 0x39 → isTime sh t = false → Freezes s .dleave f x 0x11) ∧
      (Fires s f x 0x39 → isTime sh t = true →
        let u := BitVec.ofNat 64 (t.toNat % 2 ^ off)
        Moves s .dleave f x b u (withTime ws u)))

/-- R285, R277, R278: DPROBE answers a trigger with its report, and a watching one each change of its cell's copy in turn, in colour 0
with the update count as SEQ; the root's frontier of a scope is made anew from its time slots, those that no grove counts being
free, once the one before has reached every copy (the model's choice, log entry 90); and a unit's copy takes it in one step, its update count rising by one where it changes, and a watching probe of the cell has that
change to report.
R271, R272, R277, R300: on a shape within a word, join and meet are the least upper and greatest lower bound of times; a
narrowed frontier has at most four elements, none at or below another, and an element at or below each of its times, so that
it completes no time that they do not; and advancing a time by a frontier changes its order to no time at or after some
element of it. -/
def Obligations.ProbesAndTimes : Prop :=
  ((∀ (s : State) (f : Fire) (x : Inst), Fires s f x 0x3A →
      Sends s .dprobe f x (if x.anyNull then nullTo f x else wordsTo f x (reportOf s f.cell x.r (probedBy s f.cell x.r)))) ∧
   (∀ (s : State) (c n : Nat) (y : FCopy) (q : List FCopy), NodeGoes s c n 0x3A → (cellOf s c).unreported n = y :: q →
      let r := (cellOf s c).node n
      (cellOf s c).room (reserved (Tbl.vals (cellOf s c).twigs) + dests [nDstA r, nDstB r]) = true →
      ∃ t, exec (.dprobeWatch c n) s = .next t ∧ t.mem = s.mem ∧ t.cores = s.cores ∧ (cellOf t c).unreported n = q ∧
        (cellOf t c).outq = (cellOf s c).outq ++ ([nDstA r, nDstB r].filter fun d => d != noDst).map
          fun d => mkTok d 0 0 (BitVec.ofNat 8 y.count) (nPrio r) (reportOf s c r y)) ∧
   (∀ (s : State) (r sc : Nat), (Work.of s).scopeBehind r sc = false → ∃ t, exec (.frontierRecompute r sc) s = .next t ∧ t.mem = s.mem ∧ t.cells = s.cells ∧
      t.cores = s.cores ∧ Tbl.find (regionOf t r).rootF sc = some ((Work.of s).frontierOf r sc) ∧
      ∀ e, e ∈ (regionOf t r).timeSlots ↔ e ∈ (regionOf s r).timeSlots ∧
        ∃ g ∈ (Work.of s).grovesOf r, Tbl.getD (groveOf s g).prog e.1 0 ≠ 0) ∧
   ∀ (s : State) (r k sc u : Nat), (regionOf s r).bound k = some sc → (regionOf s r).freezing = none →
     let fr := Tbl.getD (regionOf s r).rootF sc []
     let up := fun (old new : FCopy) => new.elems = fr ∧ new.count = if old.elems = fr then old.count else old.count + 1
     (∃ t, exec (.frontierDelivery r k true u) s = .next t ∧
       up (copyAt (cellOf s u).fcopies k) (copyAt (cellOf t u).fcopies k) ∧ t.mem = s.mem ∧ t.cores = s.cores ∧
       ∀ n < 1024, (copyAt (cellOf s u).fcopies k).elems ≠ fr → nOpc ((cellOf s u).node n) = 0x3A →
         osb0 ((cellOf s u).node n) = true → (nLit ((cellOf s u).node n)).toNat % 32 = k →
         copyAt (cellOf t u).fcopies k ∈ (cellOf t u).unreported n) ∧
     ∃ t, exec (.frontierDelivery r k false u) s = .next t ∧ up (copyOf s u k) (copyOf t u k) ∧ t.mem = s.mem ∧
       t.cells = s.cells ∧ (coreOf t u).regs = (coreOf s u).regs) ∧
  (∀ (x t u v : Word), ShapeFits x → isTime x t = true → isTime x u = true →
     timeLe x t (timeJoin x t u) = true ∧ timeLe x u (timeJoin x t u) = true ∧
     timeLe x (timeMeet x t u) t = true ∧ timeLe x (timeMeet x t u) u = true ∧
     (timeLe x t v = true → timeLe x u v = true → timeLe x (timeJoin x t u) v = true) ∧
     (timeLe x v t = true → timeLe x v u = true → timeLe x v (timeMeet x t u) = true)) ∧
  (∀ (x : Word) (ts : List Word), ShapeFits x → (∀ t ∈ ts, isTime x t = true) →
     (narrow x ts).length ≤ 4 ∧ (∀ t ∈ ts, ∃ f ∈ narrow x ts, timeLe x f t = true) ∧
     (∀ f ∈ narrow x ts, ∀ e ∈ narrow x ts, timeLe x f e = true → f = e) ∧
     ∀ t, complete x (narrow x ts) t = true → complete x ts t = true) ∧
  ∀ (x t u c : Word) (fr : List Word), ShapeFits x → isTime x t = true → (∀ f ∈ fr, isTime x f = true) → c ∈ fr →
    timeLe x c u = true → timeLe x (advance x t fr) u = timeLe x t u

/-- R286 to R289: FRD answers an element of the core's copy, its status, or the task's time; FWAIT goes on at once where its
time is complete, and suspends with it where not; FADV moves a drained open source's element up, or closes it, and answers the
element before; an unbound slot, a value that is no time and a step back raise Permission, and a source not drained holds it.
When a source is drained (log entry 71), and that a FWAIT at a complete time needs no entry of the suspension table (log entry 80), are
the model's choice. -/
def Obligations.FrontierInstructions : Prop :=
  ∀ (s : State) (g : Nat), OnCore s g →
    (∀ d, (Instr.frdTime d).coreOk = true → MayGo s g (coreOf s g).step.pc →
      Gives s g (.frdTime d) d (coreOf s g).cur.time) ∧
    (∀ (d k n b : BitVec 5),
      ((regionAt s g).bound k.toNat = none →
        ((Instr.frd d k n).coreOk = true → Raises s g (.frd d k n) 0x09 0) ∧
        ((Instr.frdStat d k).coreOk = true → Raises s g (.frdStat d k) 0x09 0) ∧
        ((Instr.fwait d k b).coreOk = true → Raises s g (.fwait d k b) 0x09 0)) ∧
      ∀ sc, (regionAt s g).bound k.toNat = some sc →
        let y := copyOf s g k.toNat
        let sh := (regionAt s g).shape sc
        let t := reg s g b
        (MayGo s g (coreOf s g).step.pc →
          ((Instr.frd d k n).coreOk = true →
            ∃ u, Did s g (.frd d k n) d (y.elems.getD n.toNat (BitVec.allOnes 64)) u ∧ u.mem = s.mem ∧ u.cells = s.cells) ∧
          ((Instr.frdStat d k).coreOk = true → ∃ u, Did s g (.frdStat d k) d
            (BitVec.ofNat 64 (y.count * 2 ^ 32 + 256 + sc * 16 + y.elems.length)) u ∧ u.mem = s.mem ∧ u.cells = s.cells) ∧
          ((Instr.fwait d k b).coreOk = true → isTime sh t = true → (∀ f ∈ y.elems, timeLe sh f t = false) →
            ∃ u, Did s g (.fwait d k b) d 0 u ∧ u.mem = s.mem)) ∧
        ((Instr.fwait d k b).coreOk = true → isTime sh t = false → Raises s g (.fwait d k b) 0x09 0) ∧
        ∀ live, (Instr.fwait d k b).coreOk = true → isTime sh t = true → (∃ f ∈ y.elems, timeLe sh f t = true) →
          MaySuspend s g live ((coreOf s g).pc + 4) →
          ∃ u x, exec (.fwait d k b) s = .next u ∧ (coreOf u g).task = none ∧ (coreOf u g).slots = (coreOf s g).slots ++ [x] ∧
            x.pc = (coreOf s g).pc + 4 ∧ x.wait = 6 ∧ x.wobj = k.toNat ∧ x.dreg = d ∧ x.since = none ∧ x.task.time = t ∧
            x.regs = (coreOf s g).saved live (some b) d ∧ u.mem = s.mem) ∧
    ∀ (d a b : BitVec 5) (c n : Nat), (Instr.fadv d a b).coreOk = true →
      ((Work.of s).lcell (regionNo s g) ((reg s g a).toNat % 2 ^ 12) = some c → (reg s g a).toNat / 2 ^ 12 = n → n < 2 ^ 10 →
        nOpc ((cellOf s c).node n) = 0x30 →
        let r := (cellOf s c).node n
        let q := sourceOf s c n
        let h := handleOf s (c / 16) ((nLit r).toNat % 2 ^ 8)
        let sh := (regionAt s g).shape ((nLit r).toNat / 2 ^ 8 % 16)
        let v := reg s g b
        let drained := q.cur = none ∧ 2 ∉ h.slots
        let good := q.isOpen = true ∧ (v = BitVec.allOnes 64 ∨ (isTime sh v = true ∧ timeLe sh q.element v = true))
        (¬ drained → Holds s g (.fadv d a b)) ∧
        (drained → ¬ good → Raises s g (.fadv d a b) 0x09 0) ∧
        (drained → good → MayGo s g (coreOf s g).step.pc → ∃ t, Did s g (.fadv d a b) d q.element t ∧ t.mem = s.mem ∧
          (sourceOf t c n).element = v ∧ (sourceOf t c n).isOpen = decide (v ≠ BitVec.allOnes 64))) ∧
      ((reg s g a).toNat / 2 ^ 22 ≠ 0 → Raises s g (.fadv d a b) 0x09 0)

/-! ## Histories -/

/-- R293, R294, R308 to R313: DARR inserts the change's entry and sends it whole, with SEQ 0; DJOIN makes an output of each entry of the
other arrangement's key, at the join of the times with the product of the diffs, and inserts its own; DRED inserts the change,
then makes and inserts the corrections; DCON keeps the change and its time; a time that is none of the scope freezes the
colour, a null or a zero diff makes nothing.
The order of a key's entries is the model's (log entry 61). -/
def Obligations.Histories : Prop :=
  ∀ (s : State) (f : Fire) (x : Inst),
    let g := f.cell / 16
    let reg := regionAt s g
    let ws := (List.range 6).map (tokW (x.tok 0))
    let n := (nLit x.r).toNat % 2 ^ 8
    let m := (nLit x.r).toNat / 2 ^ 8 % 2 ^ 8
    let e := entryOf ws
    (∀ a, Fires s f x 0x32 → reg.arr n = some a →
      (x.anyNull = true → Sends s .darr f x (bothTo x (nullPass x (x.tok 0)))) ∧
      (x.anyNull = false → isTime (reg.shape a.scope) (chTime ws) = false → Freezes s .darr f x 0x11) ∧
      (x.anyNull = false → isTime (reg.shape a.scope) (chTime ws) = true →
        SendsAnd s .darr f x (bothTo x fun d =>
            if chDiff ws = 0 then passTo x (x.tok 0) d else { passTo x (x.tok 0) d with seq := 0 }) fun t => ∃ b, (regionAt t g).arr n = some b ∧
          (chDiff ws = 0 → b = a) ∧ (chDiff ws ≠ 0 → Inserted a b e))) ∧
    (∀ p k a0 a1, Fires s f x 0x33 → x.toks = [(p, k)] → reg.arr n = some a0 → reg.arr m = some a1 →
      let vs := (List.range 6).map (tokW k)
      let mine := if p = 0 then n else m
      let other := if p = 0 then a1 else a0
      let sh := reg.shape a0.scope
      let found := other.lookup vs
      (k.null = true ∨ (isTime sh (chTime vs) = true ∧ chDiff vs = 0) → Operates s .djoin f x [] fun _ => True) ∧
      (k.null = false → isTime sh (chTime vs) = false → Freezes s .djoin f x 0x11) ∧
      (k.null = false → isTime sh (chTime vs) = true → chDiff vs ≠ 0 →
        (∀ y ∈ found, -2147483648 ≤ chDiff vs * y.diff ∧ chDiff vs * y.diff ≤ 2147483647) →
        Operates s .djoin f x (found.map fun y =>
            let z := if p = 0 then joinRecord a0.kw a0.vw a1.vw vs y.words else joinRecord a0.kw a0.vw a1.vw y.words vs
            changeWords z (timeJoin sh (chTime vs) y.time) (chDiff vs * y.diff) (crc32c (keyOf a0.kw vs)))
          fun t => ∃ a b, reg.arr mine = some a ∧ (regionAt t g).arr mine = some b ∧ Inserted a b (entryOf vs))) ∧
    (∀ a, Fires s f x 0x34 → reg.arr n = some a →
      let sh := reg.shape a.scope
      ((x.tok 0).null = true ∨ (isTime sh (chTime ws) = true ∧ chDiff ws = 0) → Operates s .dred f x [] fun _ => True) ∧
      ((x.tok 0).null = false → isTime sh (chTime ws) = false → Freezes s .dred f x 0x11) ∧
      (∀ b, (x.tok 0).null = false → isTime sh (chTime ws) = true → chDiff ws ≠ 0 → n ≠ m → reg.arr m = some b →
        ∃ a', Inserted a a' e ∧
          let ins := a'.lookup ws
          let olds := b.lookup ws
          let cs := corrections ((nLit x.r).toNat / 2 ^ 16 % 8) a sh ws (crc32c (keyOf a.kw ws)) ins
            (closeTimes sh (chTime ws) ((ins ++ olds).map fun y => y.time)) olds
          Operates s .dred f x (cs.map fun y => changeWords y.words y.time y.diff y.hash) fun t =>
            (regionAt t g).arr n = some a' ∧ ∃ b', (regionAt t g).arr m = some b' ∧ b'.hw = b.hw)) ∧
    ∀ a, Fires s f x 0x35 → reg.arr n = some a →
      let sh := reg.shape a.scope
      ((x.tok 0).null = true ∨ (isTime sh (chTime ws) = true ∧ chDiff ws = 0) → Operates s .dcon f x [] fun t =>
        (regionAt t g).arr n = some { a with last := s.mod.cycle }) ∧
      ((x.tok 0).null = false → isTime sh (chTime ws) = false → Freezes s .dcon f x 0x11) ∧
      ((x.tok 0).null = false → isTime sh (chTime ws) = true → chDiff ws ≠ 0 → a.openB.length + 1 < a.sealN →
        Operates s .dcon f x [] fun t => ∃ b, (regionAt t g).arr n = some b ∧ b.sealed = a.sealed ∧
          b.openB = a.openB ++ [{ e with colour := f.colour, iter := f.iter }] ∧ b.last = s.mod.cycle ∧
          ∃ j, (chTime ws, j) ∈ b.held)

/-- R298 to R300, R303, R305, R313: a buffer idle for 64 cycles is flushed; an arrangement's compaction frontier is the narrowed
union of its readers'; a due pass begins by sealing the open batch, takes its lowest bucket with entries into heartwood, and
ends with its frontier as CF and PASSN one higher. AHOLD holds a time at or after its reader's frontier and answers 1 for
another; AREL gives the hold up and answers it; ACMP answers CF where no pass has work, and asks for one where it has.
The frontier without readers is read as in log entry 62, and that ACMP of a buffer that a DCON keeps asks for no pass is log entry 61's
reading. -/
def Obligations.PassesAndReaders : Prop :=
  (∀ (s : State) (c n : Nat) (a : Arr), (Work.of s).nodeStands c n 0x35 = true →
     let k := (nLit ((cellOf s c).node n)).toNat % 2 ^ 8
     (regionAt s (c / 16)).arr k = some a → (cellOf s c).busyNode n = false → 0 < (sapOf a).length → 64 ≤ s.mod.cycle - a.last →
     ∃ t, exec (.dconFlush c n) s = .next t ∧ (cellOf t c).entries = (cellOf s c).entries ∧ t.mem = s.mem ∧
       (regionAt t (c / 16)).arr k = some { a with openB := [], sealed := [], held := [] }) ∧
  (∀ (s : State) (r k : Nat) (a : Arr), (regionOf s r).arr k = some a →
     let x := regionOf s r
     (∃ t, exec (.compactionFrontierRecompute r k) s = .next t ∧ t.mem = s.mem ∧ t.cells = s.cells ∧
       (regionOf t r).arr k = some { a with c := narrow (x.shape a.scope) ((a.readerList.map x.retain).flatten) }) ∧
     ((Work.of s).passRuns r k a = true → a.run = none → a.passDue = true → ∃ t b, exec (.pass r k) s = .next t ∧
       (regionOf t r).arr k = some b ∧ b.openB = [] ∧ b.hw = a.hw ∧ b.cf = a.cf ∧
       (∃ p, b.run = some p ∧ p.bucket = 0 ∧ p.c = narrow (x.shape a.scope) ((a.readerList.map x.retain).flatten)) ∧
       (a.sealed.length < 3 → sapOf b = sapOf a)) ∧
     ∀ p, (Work.of s).passRuns r k a = true → a.run = some p →
       ((∀ e ∈ a.hw, e.hash.toNat % a.buckets < p.bucket) → a.sealed.flatten = [] → ∃ t b, exec (.pass r k) s = .next t ∧
         (regionOf t r).arr k = some b ∧ b.cf = p.c ∧ b.passn = (a.passn + 1) % 2 ^ 32 ∧ b.run = none ∧ b.hw = a.hw) ∧
       ∀ i, a.nextBucket p = some i →
         let inB : AEntry → Bool := fun e => e.hash.toNat % a.buckets == i
         let made := (a.consolidate (advanceAll (x.shape a.scope) p.c (a.hw.filter inB ++ a.sealed.flatten.filter inB))).1
         let hw := (a.hw.filter fun e => decide (e.hash.toNat % a.buckets < i)) ++ made ++
           a.hw.filter fun e => decide (i < e.hash.toNat % a.buckets)
         (a.hwcap < hw.length → ∃ t b q, exec (.pass r k) s = .next t ∧ (regionOf t r).arr k = some b ∧ b.hw = a.hw ∧
           b.sealed = a.sealed ∧ b.run = some q ∧ q.bucket = i ∧ q.stall ≠ none) ∧
         (hw.length ≤ a.hwcap → (∃ t, exec (.pass r k) s = .next t ∧ (regionOf t r).frozen = (regionOf s r).frozen) →
           ∃ t b q, exec (.pass r k) s = .next t ∧ (regionOf t r).arr k = some b ∧ b.hw = hw ∧
             b.sealed = (a.sealed.map fun l => l.filter fun e => !inB e) ∧ b.run = some q ∧ q.bucket = i + 1)) ∧
  ∀ (s : State) (g : Nat) (d a b : BitVec 5), OnCore s g → MayGo s g (coreOf s g).step.pc →
    let h := (reg s g a).toNat
    let x := regionAt s g
    let k := Tbl.getD x.readers h Reader.reset
    let sh := x.shape ((x.bound k.slot).getD 0)
    let t := reg s g b
    (h < 2 ^ 8 → k.v = true →
      ((Instr.ahold d a b).coreOk = true → isTime sh t = true → (∃ f ∈ x.retain h, timeLe sh f t = true) →
        ∃ u, Did s g (.ahold d a b) d 0 u ∧ Tbl.find (regionAt u g).readers h = some { k with mode := true, held := t } ∧
          u.mem = s.mem) ∧
      ((Instr.ahold d a b).coreOk = true → isTime sh t = true → (∀ f ∈ x.retain h, timeLe sh f t = false) →
        Gives s g (.ahold d a b) d 1) ∧
      ((Instr.ahold d a b).coreOk = true → isTime sh t = false → Raises s g (.ahold d a b) 0x09 0) ∧
      ((Instr.arel d a).coreOk = true → ∃ u, Did s g (.arel d a) d k.held u ∧ u.mem = s.mem ∧
        Tbl.find (regionAt u g).readers h = some { k with mode := false, held := BitVec.allOnes 64 })) ∧
    (2 ^ 8 ≤ h ∨ k.v = false → (Instr.arel d a).coreOk = true → Raises s g (.arel d a) 0x09 0) ∧
    ∀ y, h < 2 ^ 8 → x.arr h = some y → (Instr.acmp d a).coreOk = true → y.run = none → (∀ q ∈ y.asks, q.1 ≠ g) →
      let c := narrow (x.shape y.scope) ((y.readerList.map x.retain).flatten)
      let work := (Work.of s).keeper y ≠ 0x35 ∧ (c ≠ y.cf ∨ y.sealed ≠ [] ∨ y.openB ≠ [])
      (¬ work → ∃ u, Did s g (.acmp d a) d (y.cf.getD 0 (BitVec.allOnes 64)) u ∧ u.mem = s.mem) ∧
      (work → ∃ u z, exec (.acmp d a) s = .next u ∧ (coreOf u g).stall ≠ none ∧ (coreOf u g).pc = (coreOf s g).pc ∧
        (regionAt u g).arr h = some z ∧ (∃ q ∈ z.asks, q.1 = g) ∧ z.hw = y.hw ∧ z.sealed = y.sealed ∧ u.mem = s.mem)

/-! ## Memory nodes -/

/-- R187, R188, R201 to R205: NLD and NST issue a request with the triple of their record, NATOM its update or an ordered request,
and NRED its update, nulls sending nulls; NOWN applies a sound update within its range to its bank as one read and write and
replies as it asks, on either route, and freezes the requester's colour on another; and each integer update operation gives what it
says.
That a null update is no sound one, and that an element which runs past its range's end lies outside it (log entry 101), are the model's
choice. -/
def Obligations.MemoryNodes : Prop :=
  (∀ (s : State) (f : Fire) (x : Inst),
     let d := x.tok 0
     let back := nDstB x.r
     let nullB := [mkNull back f.colour f.iter d.seq (nPrio x.r)]
     let update := fun (reply : Nat) (to_ : BitVec 24) =>
       { mkTok (nDstA x.r) f.colour f.iter d.seq (nPrio x.r) [tokW d 0, tokW (x.tok 1) 0,
           BitVec.ofNat 64 ((nType x.r).toNat + reply * 8 + to_.toNat * 256)] with kind := 5 }
     (Fires s f x 0x21 → Issues s .nld f x (requestOf s f x false [])) ∧
     (Fires s f x 0x22 → Issues s .nst f x (requestOf s f x true ((List.range 6).map (tokW (x.tok 1))))) ∧
     (Fires s f x 0x24 → Sends s .nred f x
       (if x.anyNull then nullB else if back = noDst then [update 0 0] else [update 2 back])) ∧
     (Fires s f x 0x25 → osb0 x.r = true →
       Sends s .natom f x (if x.anyNull then nullB else [update 1 back])) ∧
     (Fires s f x 0x25 → osb0 x.r = false → Issues s .natom f x (requestOf s f x true [tokW (x.tok 1) 0]))) ∧
  (∀ (s : State) (f : Fire) (x : Inst), Fires s f x 0x23 →
     let k := x.tok 0
     let u := (tokW k 2).toNat
     let t := nType x.r
     let n := opBytes t
     let a := (tokW k 0).toNat
     let range := Tbl.getD (cellOf s f.cell).owners ((cellOf s f.cell).key f.node) (0, 0)
     let sound := k.null = false ∧ u / 2 ^ 5 % 8 = 0 ∧ u / 2 ^ 32 = 0 ∧ u / 8 % 4 ≠ 3 ∧
       (if t.toNat = 4 then u % 8 ∉ [0, 3, 4, 5] else u % 8 ≠ 7)
     (¬ sound → Freezes s .nown f x 0x11) ∧
     (sound → a % n ≠ 0 → Freezes s .nown f x 0x03) ∧
     (sound → a % n = 0 → a < range.1 ∨ range.2 < a + n → Freezes s .nown f x 0x09) ∧
     (∀ p, MemOk s → sound → a % n = 0 → range.1 ≤ a → a + n ≤ range.2 → t.toNat ≤ 4 →
       (if osb0 x.r then NodeReaches s (f.cell / 16) needW a p n ∧ Sound s p n else p = bankBase f.cell + a) →
       let old := numAt s p n
       let answer := fun v => [mkTok (BitVec.ofNat 24 (u / 2 ^ 8)) k.colour k.iter k.seq (nPrio x.r) [v]]
       SendsAnd s .nown f x (match u / 8 % 4 with
           | 1 => answer (oldWord t old)
           | 2 => answer (tokW k 0)
           | _ => []) fun t' =>
         ((regionAt s (f.cell / 16)).trctl.getLsbD 63 = false →
           Stored s t' p n (updateOp (u % 8) t old (asNat t (tokW k 1)).toNat)))) ∧
  ∀ (op : Nat) (t : BitVec 3) (old v : Nat), t.toNat < 4 → op < 7 → old < 2 ^ width t → v < 2 ^ width t →
    let less := asTyped t (BitVec.ofNat 64 old) ≤ asTyped t (BitVec.ofNat 64 v)
    updateOp op t old v = match op with
      | 0 => (old + v) % 2 ^ width t
      | 1 => if less then old else v
      | 2 => if less then v else old
      | 3 => old &&& v
      | 4 => old ||| v
      | 5 => old ^^^ v
      | _ => v

/-- R187 to R189: a request that is due is performed: a null one sends nulls; a load in reach, in the cell's bank or in memory that
its grove translates, sends its bytes by type; a store writes them and sends its address; each leaves and advances its
chain. One whose place in its chain has not come stays; a misaligned one, one past the bank, or a load of bytes that cannot be corrected, freezes its chain, or its colour
at the node where it is unordered.
Which bytes cannot be corrected (log entry 79) is the model's choice. -/
def Obligations.MemoryRequests : Prop :=
  ∀ (s : State) (c : Nat) (q : MemReq),
    let i := Instr.orderedRequestPerform c q.id
    let t := nType q.record
    let n := memSize t
    let a := q.addr.toNat
    let aligned := a % (if n = 48 then 16 else n) = 0
    let reach := fun (nd : Need) (p : Nat) =>
      if osb1 q.record then NodeReaches s (c / 16) nd a p n else a + n ≤ 0x10000 ∧ p = bankBase c + a
    let stops := fun (code : Nat) => ∃ u o, exec i s = .next u ∧ (cellOf u c).reqs = (cellOf s c).reqs ∧
      (cellOf u c).outq = (cellOf s c).outq ∧ u.mem = s.mem ∧
      (regionAt u (c / 16)).frozen = (regionAt s (c / 16)).frozen ++ [o] ∧ o.code = code ∧ o.aux = q.id ∧ o.cell = c ∧
      o.okind = (if q.unord then 2 else 3)
    (Due s c q → q.null = true →
      let nullTok := fun d => mkNull d q.colour q.iter q.seq (nPrio q.record)
      let outs := if nOpc q.record = 0x25 then [nullTok (nDstB q.record)] else [nullTok (nDstA q.record), nullTok (nDstB q.record)]
      ∃ u, exec i s = .next u ∧ Performed s u c q (outs.filter fun z => z.dest != noDst) ∧ u.mem = s.mem) ∧
    (Due s c q → q.null = false → nOpc q.record ≠ 0x25 →
      (¬ aligned → stops 0x03) ∧
      (aligned → osb1 q.record = false → 0x10000 < a + n → stops 0x09) ∧
      (aligned → q.store = false → osb1 q.record = false → a + n ≤ 0x10000 → ¬ Sound s (bankBase c + a) n → stops 0x0A) ∧
      (∀ p, aligned → q.store = false → reach needR p → Sound s p n → ∃ u, exec i s = .next u ∧
        Performed s u c q (fromReq q (if t.toNat = 6 then 1 else 0) (loadWords t (numAt s p n))) ∧ ∀ b, byteAt u b = byteAt s b) ∧
      (∀ p, MemOk s → aligned → q.store = true → q.data.length = 6 → reach needW p → ∃ u, exec i s = .next u ∧
        Performed s u c q (fromReq q 0 [q.addr]) ∧ Stored s u p n (leNat (bytesOf q.data)))) ∧
    (Due s c q → q.null = false → nOpc q.record = 0x25 → nDstA q.record ≠ noDst →
      let update := { mkTok (nDstA q.record) q.colour q.iter q.seq (nPrio q.record)
        [q.addr, q.data.getD 0 0, BitVec.ofNat 64 (t.toNat + 8 + (nDstB q.record).toNat * 256)] with
          kind := 5, req := some ((Work.of s).logical c, q.id) }
      ∃ u, exec i s = .next u ∧ (cellOf u c).outq = (cellOf s c).outq ++ [update] ∧ (cellOf u c).reqs = ((cellOf s c).reqs.map fun p => if p.id = q.id then { p with waiting := true } else p) ∧
        u.mem = s.mem) ∧
    ∀ z, (cellOf s c).reqs.find? (fun p => p.id == q.id) = some q → q.unord = false →
      (cellOf s c).chain q.colour q.iter = some z → q.opred ≠ z.last → ¬ (q.opred = 0xFFF ∧ z.lastsucc = q.oseq) →
      ∃ u, exec i s = .next u ∧ (∀ k, cellOf u k = cellOf s k) ∧ u.mem = s.mem

/-- R185, R186: a trigger starts its cell's generator on the shape that stands, a null one only sends a null to B; a round begins
with its held parameters applied in order and its first index; an element of a load route in the bank is sent to A, one of a store route
writes the next data token there, each going on to the next index; a round's end sends its count to B and moves CUR by
RSTRIDE; after the last the generator is free.
Which bytes cannot be corrected (log entry 79), the SEQ of the token at a round's end and how long parameters are held (log entry 59) are the model's choice. -/
def Obligations.Generators : Prop :=
  (∀ (s : State) (f : Fire) (x : Inst), Fires s f x 0x20 →
     let u := (nLit x.r).toNat / 2 ^ 5 % 4
     let k := genOf s f.cell u
     let shape := (cellOf s f.cell).shape ((nLit x.r).toNat % 32)
     (x.anyNull = true → Sends s .nag f x [mkNull (nDstB x.r) f.colour f.iter (x.tok 0).seq (nPrio x.r)]) ∧
     (x.anyNull = false → SendsAnd s .nag f x [] fun t => CellOnly s t f.cell ∧
       let z := genOf t f.cell u
       z.busy = true ∧ z.node = f.node ∧ z.colour = f.colour ∧ z.iter = f.iter ∧ z.record = x.r ∧ z.shape = shape ∧ z.round = 0 ∧
         z.inRound = false ∧ z.params = k.params ∧ z.ins = x.toks.map Prod.snd ∧
         z.cur = (if k.fresh then BitVec.ofNat 64 (shBase shape) else k.cur) ∧
         z.extents = (if k.fresh then (List.range 4).map (shExtent shape) else k.extents))) ∧
  ∀ (s : State) (c u : Nat),
    let k := genOf s c u
    let i := Instr.nagElement c u
    let n := shSize k.shape
    let a := elementAt k
    let p := bankBase c + a
    let space := fun d => (cellOf s c).room (reserved (Tbl.vals (cellOf s c).twigs) + dests [d]) = true
    k.busy = true → (regionAt s (c / 16)).runs = true → (Work.of s).isFrozenAt c k.node k.colour = false →
    (k.inRound = false → k.round < shRounds k.shape → ∃ t, exec i s = .next t ∧ t.mem = s.mem ∧
      (genOf t c u).inRound = true ∧ (genOf t c u).count = 0 ∧ (genOf t c u).params = [] ∧
      (genOf t c u).cur = ((k.params.filter fun e => e.1 == 0).getLast?.map fun e => e.2).getD k.cur ∧
      (k.params = [] → (genOf t c u).index =
        if 0 ∈ k.extents.take (shNdim k.shape) then [] else (k.extents.take (shNdim k.shape)).map fun _ => 0)) ∧
    (k.inRound = false → shRounds k.shape ≤ k.round → ∃ t, exec i s = .next t ∧ t.mem = s.mem ∧
      (genOf t c u).busy = false ∧ (cellOf t c).outq = (cellOf s c).outq) ∧
    (k.inRound = true → k.index = [] → space (nDstB k.record) → ∃ t, exec i s = .next t ∧ t.mem = s.mem ∧
      (genOf t c u).round = k.round + 1 ∧ (genOf t c u).inRound = false ∧
      (genOf t c u).cur = k.cur + BitVec.ofInt 64 (shRstride k.shape) ∧
      (cellOf t c).outq = (cellOf s c).outq ++ [mkTok (nDstB k.record) k.colour k.iter (k.ins.head?.map Token.seq |>.getD 0)
        (nPrio k.record) [BitVec.ofNat 64 k.count]].filter fun z => z.dest != noDst) ∧
    (k.inRound = true → k.index ≠ [] → (nLit k.record).toNat / 2 ^ 8 % 4 = 0 → k.wait = none → k.got = none →
      a % (if n = 48 then 16 else n) = 0 → a + n ≤ 0x10000 →
      (osb0 k.record = false → Sound s p n → space (nDstA k.record) → ∃ t, exec i s = .next t ∧ t.mem = s.mem ∧
        (genOf t c u).index = nextIndex k.index k.extents ∧ (genOf t c u).count = k.count + 1 ∧
        (cellOf t c).outq = (cellOf s c).outq ++ ([nDstA k.record].filter fun d => d != noDst).map fun d =>
          { mkTok d k.colour k.iter (BitVec.ofNat 8 k.count) (nPrio k.record)
              (wordsOf ((n + 7) / 8) ((List.range n).map fun j => byteAt s (p + j))) with kind := if n = 48 then 1 else 0 }) ∧
      ∀ e, MemOk s → osb0 k.record = true → n ≤ 48 → e.tok.null = false →
        ((cellOf s c).entries.find? fun y => y.node == k.node && y.port == 1 && y.tok.colour == k.colour) = some e →
        ∃ t, exec i s = .next t ∧ Stored s t p n (leNat (bytesOf ((List.range 6).map (tokW e.tok)))) ∧
          (genOf t c u).index = nextIndex k.index k.extents ∧ (genOf t c u).count = k.count + 1 ∧
          (cellOf t c).entries = (cellOf s c).entries.filter fun y => y.id != e.id)

/-- R177 to R179, R183: a walk that completes is counted at its die and gives each grove that waits its translation, or each waiter a
fault of its own where the walk finds none; a write of V = 1 to an unmapped entry latches its range and of V = 0 to a mapped one ends it, and any other is
ignored; a registration whose size or alignment is unsound fails with ERR 5, one without translation or permission with 1 or 2,
one that overlaps with 4, and else it holds its pages; and unmapping writes the bank's bytes back to them.
The order of waiting walks (log entry 41) and a range that overlaps itself (log entry 67) are the model's choice; what unmapping writes is
said of pages that lie apart, as registration finds them. -/
def Obligations.Mappings : Prop :=
  (∀ (s : State) (asid vpn : Nat) (q : Miss), s.mod.walkOf asid vpn = some q →
     ∃ t, exec (.translationWalk asid vpn) s = .next t ∧ t.mod.walkQ = s.mod.walkQ.erase q ∧ t.cells = s.cells ∧
       Tbl.getD t.mod.walks q.die 0 = Tbl.getD s.mod.walks q.die 0 + 1 ∧
       Tbl.getD t.mod.merged q.die 0 = Tbl.getD s.mod.merged q.die 0 + (q.waits.length - 1) ∧
       let w := (Work.of s).updMod fun m => { m.countWalk q.die (q.waits.length - 1) with walkQ := m.walkQ.erase q }
       (∀ x w2, w.walk asid (vpn * 4096) = some (x, w2) → t.mem = s.mem.write w2.log ∧ t.mod.walkFaults = s.mod.walkFaults ∧
         ∀ a ∈ q.waits, x ∈ (groveOf t (a.cell / 16)).tlb) ∧
       (w.walk asid (vpn * 4096) = none → t.mem = s.mem ∧ t.groves = s.groves ∧
         t.mod.walkFaults = s.mod.walkFaults ++ q.waits.map fun a => (a, asid, vpn, w.walkCode asid (vpn * 4096)))) ∧
  ∀ (s : State) (c k : Nat) (v : Word),
    let m := mapOf s c k
    (∃ t, exec (.mapRegister c k v) s = .next t ∧ t.mem = s.mem ∧ mapOf t c k =
      if m.st = 0 then
        { m with v := true, w := v.getLsbD 62, st := 1, va := v.toNat / 2 ^ 12 % 2 ^ 45, asid := m.nextWord.toNat / 2 ^ 16 % 64,
                 boff := m.nextWord.toNat / 2 ^ 12 % 16, size := m.nextWord.toNat % 8 }
      else m) ∧
    (∃ t, exec (.mapUnmap c k v) s = .next t ∧ t.mem = s.mem ∧
      mapOf t c k = if m.st = 2 ∧ v.getLsbD 63 = false then { m with v := false, st := 3 } else m) ∧
    (m.st = 1 →
      let ends := fun (z : MapEntry) => ∃ t, exec (.mapRegistrationComplete c k) s = .next t ∧ mapOf t c k = z
      let pages := mapPages m.asid m.w ((List.range (2 ^ m.size)).map fun i => 4096 * (m.va + i)) (Work.of s)
      (¬ (m.size ≤ 4 ∧ m.va % 2 ^ m.size = 0 ∧ m.boff % 2 ^ m.size = 0) → ends { m with v := false, st := 0, err := 5, lines := [] }) ∧
      (m.size ≤ 4 → m.va % 2 ^ m.size = 0 → m.boff % 2 ^ m.size = 0 →
        (∀ e, pages = .error e → (e = 1 ∨ e = 2) ∧ ends { m with v := false, st := 0, err := e, lines := [] }) ∧
        ∀ ps w, pages = .ok (ps, w) → (∀ a ∈ ps, a + 4096 ≤ memTop) ∧
          ((∃ a ∈ ps, a ∈ w.mappedPages ∨ 1 < ps.count a) → ends { m with v := false, st := 0, err := 4, lines := [] }) ∧
          ((∀ a ∈ ps, a ∉ w.mappedPages ∧ ps.count a ≤ 1) →
            (directoryFits (pageLines (w.mappedPages ++ ps)) = true → ends { m with st := 2, err := 0, lines := ps }) ∧
            (directoryFits (pageLines (w.mappedPages ++ ps)) = false →
              ends { m with v := false, st := 0, err := 3, lines := [] })))) ∧
    (m.st = 3 → MemOk s → ∃ t, exec (.mapUnmapComplete c k) s = .next t ∧ mapOf t c k = { m with st := 0, lines := [] } ∧
      (∀ b, (∀ a ∈ m.lines, b < a ∨ a + 4096 ≤ b) → byteAt t b = byteAt s b) ∧
      ((m.lines.Pairwise fun a e => a + 4096 ≤ e ∨ e + 4096 ≤ a) → (∀ a ∈ m.lines, a + 4096 ≤ memTop) →
        ∀ i a, m.lines[i]? = some a → ∀ j < 4096, byteAt t (a + j) = byteAt s (bankBase c + (m.boff + i) * 4096 + j)))

/-! ## Remote accesses and links -/

/-- R170, R346 to R354: a remote load, store or atomic raises Permission for its own module or a designator with other bits,
Translation past the address space and Misaligned off its size. RLD and RAMO leave as a request and wait for the answer; RST sends its
register and goes on; the block forms check their own memory first, RLD noting its request as outstanding and RST sending the bytes
as they stand, and a range that lies in a window raises Permission; a request of a stream that a fault froze waits here; RLD.DONE reports
the lost modules and ERR once none is outstanding, and suspends until then.
What RLD.DONE waits on is written so in WOBJ (log entry 33), and that an instruction which need not suspend completes without an entry of
the suspension table (log entry 80), are the model's choice. -/
def Obligations.RemoteInstructions : Prop :=
  ∀ (s : State) (g : Nat) (d a b : BitVec 5) (ty o : BitVec 3), OnCore s g →
    let m := (reg s g b).toNat
    let va := (reg s g a).toNat
    let inWindow := fun (nd : Need) (n : Nat) => (reg s g d).toNat < 2 ^ 57 ∧ ∃ x, bufferedAt s g (reg s g d).toNat = some x ∧
      x.refuses nd (!(Work.of s).super g) = false ∧ memTop < (x.pa + ((reg s g d).toNat - x.base)) % 2 ^ 45 + n
    (∀ (i : Instr) (n : Nat), (i, n) ∈ ([(.rld d a b, 8), (.rldB32 d a b, 32), (.rldB64 d a b, 64), (.rldB128 d a b, 128),
        (.rst d a b, 8), (.rstB32 d a b, 32), (.rstB64 d a b, 64), (.rstB128 d a b, 128), (.ramo d a b ty o, opBytes ty)] :
        List (Instr × Nat)) → i.coreOk = true →
      (2 ^ 11 ≤ m ∨ m = s.mod.modNo → Raises s g i 0x09 0) ∧
      (m < 2 ^ 11 → m ≠ s.mod.modNo → 2 ^ 57 ≤ va → Raises s g i 0x08 va) ∧
      (m < 2 ^ 11 → m ≠ s.mod.modNo → va < 2 ^ 57 → va % n ≠ 0 → Raises s g i 0x03 va)) ∧
    ((Instr.rld d a b).coreOk = true → RemoteOk s g a b 8 →
      SendsAndWaits s g (.rld d a b) d b (requestOn s g a b 0 8 [])) ∧
    ((Instr.ramo d a b ty o).coreOk = true → RemoteOk s g a b (opBytes ty) →
      SendsAndWaits s g (.ramo d a b ty o) d b
        { requestOn s g a b 2 (opBytes ty) (leBytes (opBytes ty) (reg s g d).toNat) with amo := o.toNat, type := ty.toNat }) ∧
    (MayGo s g (coreOf s g).step.pc → (Instr.rst d a b).coreOk = true → RemoteOk s g a b 8 →
      (∀ st, (Work.of s).pair false g m = .free st → ∃ t, Did s g (.rst d a b) 0 0 t ∧ t.mem = s.mem ∧
        PutOn s t st (.request (requestOn s g a b 1 8 (leBytes 8 (reg s g d).toNat)))) ∧
      ((Work.of s).pair false g m = .lost → ∃ t, Did s g (.rst d a b) 0 0 t ∧ t.outbox = s.outbox ∧
        (coreOf t g).lost = marked m (coreOf s g).lost)) ∧
    (∀ (i : Instr) (n : Nat), (i, n) ∈ ([(.rldB32 d a b, 32), (.rldB64 d a b, 64), (.rldB128 d a b, 128)] : List (Instr × Nat)) →
      i.coreOk = true → RemoteOk s g a b n →
      ((reg s g d).toNat % n ≠ 0 → Raises s g i 0x03 (reg s g d).toNat) ∧
      ((reg s g d).toNat % n = 0 → inWindow needW n → Raises s g i 0x09 (reg s g d).toNat) ∧
      ∀ la, (reg s g d).toNat % n = 0 → Reaches s g needW (reg s g d).toNat la n → MayGo s g (coreOf s g).step.pc →
        (∀ st, (Work.of s).pair false g m = .free st → ∃ t, Did s g i 0 0 t ∧
          (coreOf t g).rldOut = (coreOf s g).rldOut ++ [s.mod.nextIdent] ∧ PutOn s t st (.request (requestOn s g a b 0 n []))) ∧
        ((Work.of s).pair false g m = .lost → ∃ t, Did s g i 0 0 t ∧ t.outbox = s.outbox ∧
          (coreOf t g).rldLost = marked m (coreOf s g).rldLost)) ∧
    (∀ (i : Instr) (n : Nat), (i, n) ∈ ([(.rstB32 d a b, 32), (.rstB64 d a b, 64), (.rstB128 d a b, 128)] : List (Instr × Nat)) →
      i.coreOk = true → RemoteOk s g a b n →
      ((reg s g d).toNat % n ≠ 0 → Raises s g i 0x03 (reg s g d).toNat) ∧
      ((reg s g d).toNat % n = 0 → inWindow needR n → Raises s g i 0x09 (reg s g d).toNat) ∧
      ∀ w bs w2, (reg s g d).toNat % n = 0 → (Work.of s).blockCheck g (reg s g d).toNat n false = .ok w →
        w.vread (w.accCore g) (reg s g d).toNat n = .ok (bs, w2) → MayGo s g (coreOf s g).step.pc →
        (∀ st, w.pair false g m = .free st → w2.pair false g m = .free st → ∃ t, Did s g i 0 0 t ∧
          PutOn s t st (.request (requestOn s g a b 1 n bs))) ∧
        (w.pair false g m = .lost → w2.pair false g m = .lost → ∃ t, Did s g i 0 0 t ∧ t.outbox = s.outbox ∧
          (coreOf t g).lost = marked m (coreOf s g).lost)) ∧
    ((Instr.rldDone d).coreOk = true →
      let c := coreOf s g
      (c.rldOut = [] → MayGo s g c.step.pc → ∃ t, Did s g (.rldDone d) d
        (lostStatus c.rldLost ||| (if c.rldErr then 0x4000000000000000 else 0)) t ∧ (coreOf t g).rldLost = [] ∧
        (coreOf t g).rldErr = false ∧ t.mem = s.mem) ∧
      ∀ live, c.rldOut ≠ [] → MaySuspend s g live (c.pc + 4) → Suspends s g (.rldDone d) 7 0x8000 none d (c.pc + 4) live false)

/-- R347 to R350, R353, R355, R356: a request that reaches this module is performed and answered, or held with its fault, or
behind what its stream holds, and a response that no route leads on is lost; an invoke takes the lowest free number and its token goes to
the entry's node. A credit frees its request slot, and an answer ends its request and resumes its task with the value. A resume of a frozen stream leaves by its port, the requests that waited for it behind it, and its
fault names nothing any more; at the target the faulting request is performed again, or dropped and answered as discarded. A stream idle long enough closes. NINVOKE sends its words
as an invoke, passes nulls on, and freezes its colour with Peer Lost where no route leads; a return answers its invocation.
Where a held invocation waits is the model's choice (log entry 53). -/
def Obligations.RemoteLife : Prop :=
  (∀ (s : State) (r : RemoteReq),
     let mine := fun (h : HeldStream) => h.isOf r.source r.srcCell r.srcAgent
     let held := s.mod.heldStreams.any mine
     let resp := fun (k : RespKind) => Msg.response r.source ⟨s.mod.modNo, r.ident, k⟩
     let routed := fun (v : Work) (ms : List Msg) => if v.route r.source = none then [] else ms
     (r.op < 4 → held = true → ∃ t, exec (.remoteRequestArrival r) s = .next t ∧ t.mem = s.mem ∧ t.outbox = s.outbox ∧
       t.mod.heldStreams = s.mod.heldStreams.map fun h => if mine h then { h with reqs := h.reqs ++ [r] } else h) ∧
     (∀ bs w, r.op < 3 → held = false → (Work.of s).performRemote r = .ok (bs, w) →
       ∃ t, exec (.remoteRequestArrival r) s = .next t ∧ t.outbox = w.outbox ++ routed w [resp .credit, resp (.answer bs)] ∧
         t.mem = s.mem.write w.log) ∧
     (∀ c, r.op < 3 → held = false → (Work.of s).performRemote r = .error c →
       ∃ t, exec (.remoteRequestArrival r) s = .next t ∧ t.outbox = s.outbox ++ routed (Work.of s) [resp (.faulted c)] ∧
         t.mem = s.mem ∧ t.mod.heldStreams = s.mod.heldStreams ++ [⟨r.source, r.srcCell, r.srcAgent, [r], c⟩]) ∧
     let e := (Tbl.getD s.mod.invokeTable r.entry 0).toNat
     let reg := regionOf s (e / 2 ^ 44 % 2 ^ 9)
     let accepted := fun (t : State) => ∃ v, v.entry = r.entry ∧ t.mod.invocations = s.mod.invocations ++ [v] ∧
       v.ident = r.ident ∧ v.source = r.source ∧ (∀ z ∈ s.mod.invocations, z.entry = r.entry → z.n ≠ v.n) ∧
       t.outbox = s.outbox ++ routed (Work.of s) [resp .credit] ∧ t.mem = s.mem
     let may := r.op = 3 ∧ 2 ^ 63 ≤ e ∧ reg.loaded = true ∧ reg.halted = false ∧ reg.freezing = none ∧
       (s.mod.invocations.filter fun z => z.entry == r.entry).length < 65536
     (may → held = false → ∃ t, exec (.remoteRequestArrival r) s = .next t ∧ accepted t) ∧
     ∀ h, may → (s.mod.heldStreams.find? fun h => mine h && (h.code == 0 && h.reqs.head? == some r)) = some h → h.reqs = [r] →
       ∃ t, exec (.invokeAccept r) s = .next t ∧ accepted t ∧ t.mod.heldStreams.any mine = false) ∧
  (∀ (s : State) (r : RemoteResp) (st : Stream) (q : OutReq), s.mod.request r.target r.ident = some (st, q) →
     (r.kind = .credit → ∃ t st2, exec (.remoteResponse r) s = .next t ∧ t.mem = s.mem ∧ st2 ∈ t.mod.streams ∧
       st2.out = st.out.map fun p => if p.ident = q.ident then { p with reqHeld := false } else p) ∧
     ∀ (bs : List Byte) (n : Nat) (x : Record), r.kind = .answer bs → q.op = 0 → st.isCell = false → q.dest = none →
       st.agent ∈ (Work.of s).grovesOf (regionNo s st.agent) → (coreOf s st.agent).slots[n]? = some x → x.since = none →
       x.wait = 7 → x.wobj = st.target + 65536 * (q.ident + 1) →
       ∃ (t : State) (y : Record), exec (.remoteResponse r) s = .next t ∧
         ((regionAt s st.agent).spill = [] → t.mem = s.mem) ∧ (coreOf t st.agent).slots[n]? = some y ∧
         y.since = some s.mod.cycle ∧ y.regs = (x.setReg x.dreg (BitVec.ofNat 64 (leNat bs))).regs ∧ y.pc = x.pc) ∧
  (∀ (s : State) (isCell : Bool) (agent target : Nat) (st : Stream), s.mod.stream isCell agent target = some st →
     let r := regionNo s (if isCell then agent / 16 else agent)
     let mine := fun (o : Frozen) =>
       o.okind == 5 && o.cell == agent && o.node == (if isCell then 1 else 0) && o.what == target
     ((regionOf s r).frozen.any mine = true → ∀ i discard, (i, discard) ∈ ([(.rsresumeRetry isCell agent target, false),
         (.rsresumeDiscard isCell agent target, true)] : List (Instr × Bool)) → ∃ t, exec i s = .next t ∧
       t.outbox = s.outbox ++ .resume target s.mod.modNo isCell agent discard :: st.queued.map reqMsg ∧
       t.ways = s.ways ++ (st.port, 0) :: st.queued.map (fun _ => (st.port, 0)) ∧
       (regionOf t r).frozen = (regionOf s r).frozen.filter (fun o => !mine o) ∧ t.mem = s.mem ∧
       t.mod = s.mod.setStream { st with
         frozen := false, queued := [], out := st.out.map fun q => { q with due := s.mod.cycle + 2 ^ s.mod.remcfg.1 } } ∧
       t.cores = s.cores ∧ t.cells = s.cells) ∧
     ((regionOf s r).frozen.any mine = false →
       Idle s (.rsresumeRetry isCell agent target) ∧ Idle s (.rsresumeDiscard isCell agent target))) ∧
  (∀ (s : State) (h : HeldStream) (r : RemoteReq) (hops : Nat), r.op < 3 → h.code ≠ 0 → h.reqs = [r] →
     s.mod.heldStreams.find? (fun y => y.isOf r.source r.srcCell r.srcAgent && y.code != 0) = some h →
     let i := fun discard => Instr.messageForward s.mod.modNo hops (.resume s.mod.modNo r.source r.srcCell r.srcAgent discard)
     let ended := fun (t : State) => t.mod.heldStreams = s.mod.heldStreams.filter fun y => !y.isOf r.source r.srcCell r.srcAgent
     let resp := fun (v : Work) (ks : List RespKind) =>
       if v.route r.source = none then [] else ks.map fun k => Msg.response r.source ⟨s.mod.modNo, r.ident, k⟩
     (∃ t, exec (i true) s = .next t ∧ t.mem = s.mem ∧ ended t ∧
       t.outbox = s.outbox ++ resp (Work.of s) [.credit, .discarded h.code]) ∧
     ∀ bs w, ((Work.of s).unhold r.source r.srcCell r.srcAgent).performRemote r = .ok (bs, w) →
       ∃ t, exec (i false) s = .next t ∧ t.mem = s.mem.write w.log ∧ t.outbox = w.outbox ++ resp w [.credit, .answer bs]) ∧
  (∀ (s : State) (isCell : Bool) (agent target c : Nat) (st : Stream), s.mod.stream isCell agent target = some st →
     st.idle = some c → st.out = [] → c + 4096 ≤ s.mod.cycle → ∃ t, exec (.streamClose isCell agent target) s = .next t ∧
       t.mod.stream isCell agent target = none ∧ t.mem = s.mem) ∧
  ∀ (s : State) (f : Fire) (x : Inst),
    let target := (nLit x.r).toNat % 2 ^ 11
    let p := (Work.of s).pair true f.cell target
    (Fires s f x 0x26 → osb0 x.r = false →
      (x.anyNull = true → Sends s .ninvokeCall f x (nullTo f x)) ∧
      (∀ st, x.anyNull = false → p = .free st → SendsAnd s .ninvokeCall f x [] fun t => ∃ q, PutOn s t st (.request q) ∧
        q.op = 3 ∧ q.target = st.target ∧ q.srcCell = true ∧ q.srcAgent = f.cell ∧ q.entry = (nLit x.r).toNat / 2 ^ 11 % 2 ^ 8 ∧
        q.data = bytesOf ((List.range (x.tok 0).words).map (tokW (x.tok 0)))) ∧
      (x.anyNull = false → p = .lost → Freezes s .ninvokeCall f x 0x1A)) ∧
    (Fires s f x 0x26 → osb0 x.r = true →
      let mine := fun (v : Invocation) => v.region == regionNo s (f.cell / 16) && v.colour == f.colour && v.n == f.iter.toNat
      (s.mod.invocations.find? mine = none → Freezes s .ninvokeReturn f x 0x11) ∧
      ∀ v, s.mod.invocations.find? mine = some v → SendsAnd s .ninvokeReturn f x [] fun t =>
        t.mod.invocations = s.mod.invocations.erase v ∧ t.outbox = s.outbox ++
          if (Work.of s).route v.source = none then []
          else [.response v.source
            ⟨s.mod.modNo, v.ident, .answer (bytesOf ((List.range (x.tok 0).words).map (tokW (x.tok 0))))⟩])

/-- R340 to R342, R346, R347, R351, R357 to R359: a port comes up with its peer and the pool it grants, and sends the peer this module's
own; a peer's bind message binds the plan entry of the opposite role with its PTAG, its sender with 512 words; a flit's retry counts; a lost link
takes its port down, breaks the streams and unbinds the groups on it; a module declared lost breaks the streams to it. A message for another
module goes on along a route within eight hops; words and credits for this one reach their group.
The 512 words at binding are the model's choice (log entry 54). -/
def Obligations.Links : Prop :=
  (∀ (s : State) (port : Nat),
     (∀ peer pool, port < 24 → (portOf s port).up = false → s.mod.bootErr = false →
       ∃ t, exec (.linkUp port peer pool) s = .next t ∧ t.mem = s.mem ∧ t.cores = s.cores ∧ t.cells = s.cells ∧
         portOf t port = { portOf s port with up := true, peer := peer, grant := pool, given := s.mod.remcfg.2.1 } ∧
         t.outbox = s.outbox ++ [.grant port s.mod.remcfg.2.1]) ∧
     (∃ t, exec (.linkFlitRetry port) s = .next t ∧ t.mem = s.mem ∧ t.cores = s.cores ∧
       portOf t port = { portOf s port with retries := ((portOf s port).retries + 1) % 2 ^ 32 }) ∧
     (∀ group role peer ptag r i p, (portOf s port).up = true → (portOf s port).peer = peer → planOf s r i = some p → (regionOf s r).halted = false →
       p.bound = false → p.entry.port = port → p.entry.group = group → p.entry.peer = peer → p.entry.ptag = ptag → role = 1 - p.entry.role →
       ∃ t, exec (.linkPlanBind port group role peer ptag) s = .next t ∧ t.mem = s.mem ∧
         planOf t r i = some { p with bound := true, lost := false, held := false, credit := 512 }) ∧
     ((portOf s port).up = true → ∃ t, exec (.linkLost port) s = .next t ∧ (portOf t port).up = false ∧
       (∀ st ∈ t.mod.streams, st.port ≠ port) ∧
       ∀ r i p, planOf s r i = some p → p.bound = true → p.entry.port = port →
         planOf t r i = some { p with bound := false, lost := true })) ∧
  (∀ (s : State) (m : Nat), ∃ t, exec (.peerLostDeclared m) s = .next t ∧ ∀ st ∈ t.mod.streams, st.target ≠ m) ∧
  ∀ (s : State) (target hops : Nat) (msg : Msg),
    (target ≠ s.mod.modNo → 7 ≤ hops ∨ (Work.of s).route target = none → exec (.messageForward target hops msg) s = .next s) ∧
    (∀ way, target ≠ s.mod.modNo → hops < 7 → (Work.of s).route target = some way →
      exec (.messageForward target hops msg) s = .next { s with outbox := s.outbox ++ [msg], ways := s.ways ++ [(way, hops + 1)] }) ∧
    ∀ port group r i p, target = s.mod.modNo → planOf s r i = some p → p.bound = true → p.entry.port = port → p.entry.group = group →
      (∀ ws, msg = .words port group ws → p.entry.role = 1 → ∃ t, exec (.messageForward target hops msg) s = .next t ∧
        t.mem = s.mem ∧ planOf t r i = some { p with rxWords := p.rxWords ++ ws }) ∧
      ∀ n, msg = .credit port group n → p.entry.role = 0 → ∃ t, exec (.messageForward target hops msg) s = .next t ∧
        t.mem = s.mem ∧ planOf t r i = some { p with credit := min 512 (p.credit + n) }

/-! ## Glades and barriers -/

/-- R368 to R374, R377: GRSV sends its reservation, by the rings or as a message, and takes the grant word from its channel or waits on
it; ABPOST adds to a phase and posts it, raising Counter Overflow past 2^47 − 1; ABWAIT goes on once the phase is complete or lost, its full slots
draining, and waits otherwise; GCLR clears a phase after a loss and GCLR.DONE retires the base phase, each answering 1 where it may
not. A reservation is refused with 0, or joins its grove's queue; a granted one takes the lowest free slots; a packet that reaches the
glade is written, counted and acknowledged where its slot takes it and else refused; an answer that no route leads on is lost; a keep-alive shows a sender alive, silence revokes its slot and sets LOST, and
holds and resumes mark both sides.
That a packet of an unbound group is dropped (log entry 91), that one for a halted grove waits for the thaw (log entry 98), what a later
packet of a GSEND comes to at a slot that was reserved anew (log entry 102), and that an instruction which need not suspend completes
without an entry of the suspension table (log entry 80), are the model's choice. -/
def Obligations.Glades : Prop :=
  (∀ (s : State) (g : Nat) (d a b : BitVec 5), OnCore s g →
     let x := (reg s g a).toNat
     let y := (reg s g b).toNat
     let ch := y / 2 ^ 24 % 64
     let n := y / 2 ^ 16 % 128
     let good := x / 2 ^ 23 = 0 ∧ x / 2 ^ 11 % 2 ^ 9 ≤ 319 ∧ y / 2 ^ 30 = 0 ∧ y / 2 ^ 23 % 2 = 0 ∧ 1 ≤ n ∧ n ≤ 64
     let r : Reservation :=
       { target := x % 2 ^ 11, source := s.mod.modNo, srcGrove := g, chan := ch, grove := x / 2 ^ 11 % 2 ^ 9,
         glade := x / 2 ^ 20 % 8, phase := y % 2 ^ 16, count := n, ident := s.mod.nextIdent }
     (Instr.grsv d a b).coreOk = true →
       (¬ good → Raises s g (.grsv d a b) 0x09 0) ∧
       (good → x % 2 ^ 11 = s.mod.modNo →
         (∀ v q, mailOf s g ch = v :: q → MayGo s g (coreOf s g).step.pc → ∃ t, Did s g (.grsv d a b) d v t ∧ mailOf t g ch = q ∧
           t.inputs = s.inputs ++ [.reservationArrival r] ∧ t.mem = s.mem) ∧
         ∀ live, mailOf s g ch = [] → MaySuspend s g live ((coreOf s g).pc + 4) →
           Suspends s g (.grsv d a b) 1 ch none d ((coreOf s g).pc + 4) live false ∧
             ∃ t, exec (.grsv d a b) s = .next t ∧ t.inputs = s.inputs ++ [.reservationArrival r]) ∧
       ∀ st live, good → x % 2 ^ 11 ≠ s.mod.modNo → (Work.of s).pair false g (x % 2 ^ 11) = .free st → mailOf s g ch = [] →
         MaySuspend s g live ((coreOf s g).pc + 4) → Suspends s g (.grsv d a b) 1 ch none d ((coreOf s g).pc + 4) live false ∧
           ∃ t, exec (.grsv d a b) s = .next t ∧ PutOn s t st (.reserve r)) ∧
  (∀ (s : State) (g : Nat) (d a b : BitVec 5), OnCore s g →
     ((∀ r, (Work.of s).barrierAt g (reg s g a) ≠ .ok r) → ∀ i, i ∈ [Instr.abpost d a b, .abwait d a, .gclr d a, .gclrDone d a] →
       i.coreOk = true → Raises s g i 0x09 0) ∧
     ∀ m n q, (Work.of s).barrierAt g (reg s g a) = .ok (m, n, q) → MayGo s g (coreOf s g).step.pc →
       let k := barrierOf s m n
       let w := k.word q
       let v := (reg s g b).toNat
       let done := w.posted = true ∧ w.pend = 0
       ((Instr.abpost d a b).coreOk = true →
         (2 ^ 47 ≤ v → Raises s g (.abpost d a b) 0x09 0) ∧
         (v < 2 ^ 47 → 2 ^ 47 ≤ w.pend + v → Raises s g (.abpost d a b) 0x18 0) ∧
         (v < 2 ^ 47 → w.pend + v < 2 ^ 47 → ∃ t, Did s g (.abpost d a b) d (BitVec.ofInt 64 (w.pend + v)) t ∧ t.mem = s.mem ∧
           barrierOf t m n = k.setWord q { w with pend := w.pend + v, posted := true })) ∧
       ((Instr.abwait d a).coreOk = true →
         (w.lost = true ∨ w.ovf = true ∨ done → ∃ t, Did s g (.abwait d a) d
           (BitVec.ofNat 64 ((if w.lost then 2 ^ 63 else 0) + (if w.ovf then 2 ^ 62 else 0) + q)) t ∧ t.mem = s.mem ∧
           barrierOf t m n = k ∧ (groveOf t m).anySlot n q [3] = false) ∧
         ∀ live, w.lost = false → w.ovf = false → ¬ done → MaySuspend s g live (coreOf s g).pc →
           Suspends s g (.abwait d a) 8 ((reg s g a).toNat % 2 ^ 16) none 0 (coreOf s g).pc live false) ∧
       ((Instr.gclr d a).coreOk = true →
         let may := (w.lost = true ∨ w.ovf = true) ∧ (groveOf s m).anySlot n q [1, 2] = false
         (may → ∃ t, Did s g (.gclr d a) d 0 t ∧ t.mem = s.mem ∧ barrierOf t m n = k.setWord q ⟨false, false, false, 0⟩ ∧
           (groveOf t m).anySlot n q [5] = false) ∧
         (¬ may → Gives s g (.gclr d a) d 1)) ∧
       ((Instr.gclrDone d a).coreOk = true →
         let may := q = k.ph ∧ done ∧ w.lost = false ∧ w.ovf = false ∧ (groveOf s m).anySlot n q [1, 2, 5] = false
         (may → ∃ t, Did s g (.gclrDone d a) d 0 t ∧ t.mem = s.mem ∧ (groveOf t m).anySlot n q [3, 4] = false ∧
           barrierOf t m n = { k.setWord q ⟨false, false, false, 0⟩ with ph := (k.ph + 1) % 2 ^ 16 }) ∧
         (¬ may → Gives s g (.gclrDone d a) d 1))) ∧
  (∀ (s : State) (r : Reservation), r.source ≠ s.mod.modNo →
     let answer := fun (m : Nat) => Msg.response r.source ⟨s.mod.modNo, r.ident, .answer (leBytes 8 m)⟩
     let credit := Msg.response r.source ⟨s.mod.modNo, r.ident, .credit⟩
     let routed := fun (ms : List Msg) => if (Work.of s).route r.source = none then [] else ms
     let reg := regionAt s r.grove
     ((Work.of s).refuses r = true → reg.halted = false → reg.freezing = none → ∃ t, exec (.reservationArrival r) s = .next t ∧
       t.outbox = s.outbox ++ routed [credit, answer 0] ∧ t.mem = s.mem ∧ t.groves = s.groves) ∧
     ((Work.of s).refuses r = false → reg.halted = false → reg.freezing = none → (groveOf s r.grove).gq.length < 256 →
       ∃ t, exec (.reservationArrival r) s = .next t ∧ t.outbox = s.outbox ++ routed [credit] ∧ t.mem = s.mem ∧
         (groveOf t r.grove).gq = (groveOf s r.grove).gq ++ [r]) ∧
     ∀ z ks, (groveOf s r.grove).gq.find? (fun y => y.glade == r.glade) = some r → gladeOf s r.grove r.glade = some z →
       reg.halted = false → reg.freezing = none → (barrierOf s r.grove z.ab).dist r.phase ≤ 1 → z.freeSlots r.count = some ks →
       ∃ t, exec (.reservationGrant r.grove r.glade) s = .next t ∧ t.mem = s.mem ∧
         t.outbox = s.outbox ++ routed [answer (ks.map fun i => 2 ^ i).sum] ∧ (groveOf t r.grove).gq = (groveOf s r.grove).gq.erase r ∧
         ∀ i ∈ ks, (slotOf s r.grove r.glade i).st = 0 ∧ (slotOf t r.grove r.glade i).st = 1 ∧
           (slotOf t r.grove r.glade i).sender = r.source ∧ (slotOf t r.grove r.glade i).phase = r.phase ∧
           (slotOf t r.grove r.glade i).port = (Work.of s).route r.source) ∧
  (∀ (s : State) (p : GladePacket) (z : Glade) (sl : GSlot), MemOk s → p.source ≠ s.mod.modNo → (Work.of s).packetIn p = true → gladeOf s p.grove p.glade = some z →
     z.slots[p.slot]? = some sl →
     let h := handleOf s p.grove z.handle
     let b := barrierOf s p.grove z.ab
     let n := p.bytes.length
     let back := fun (k : RespKind) =>
       if (Work.of s).route p.source = none then [] else [Msg.response p.source ⟨s.mod.modNo, p.ident, k⟩]
     let me := (p.source, p.feed)
     let suits := sl.sender = p.source ∧ sl.phase = p.phase ∧ p.offset + p.total ≤ h.slotsz
     let torn := (sl.st = 5 ∧ sl.sender = p.source ∧ sl.phase = p.phase) ∨ (suits ∧ sl.st = 1 ∧ p.position ≠ 0)
     let good := me ∉ z.refused ∧ ¬ torn ∧ suits ∧ (sl.st = 1 ∨ (sl.st = 2 ∧ (sl.feed = 0 ∨ sl.feed = p.feed)))
     ((regionAt s p.grove).halted = true → ∃ t, exec (.gladePacketArrival p) s = .next t ∧ t.mem = s.mem ∧ t.groves = s.groves ∧
       t.outbox = s.outbox ∧ t.inputs = s.inputs ++ [.gladePacketArrival p]) ∧
     ((regionAt s p.grove).halted = false → ¬ good → ∃ t, exec (.gladePacketArrival p) s = .next t ∧ t.mem = s.mem ∧
       (∀ g, (groveOf t g).barriers = (groveOf s g).barriers ∧ ∀ y k, slotOf t g y k = slotOf s g y k) ∧
       gladeOf t p.grove p.glade =
         some { z with refused := (z.refused.filter fun x => x != me) ++ if p.position + n < p.total then [me] else [] } ∧
       (me ∉ z.refused → torn → t.outbox = s.outbox ++ back (.faulted 0x19)) ∧
       (me ∈ z.refused ∨ ¬ torn → t.outbox = s.outbox ++ back (.faulted 0x09))) ∧
     ((regionAt s p.grove).halted = false → good → ∃ t, exec (.gladePacketArrival p) s = .next t ∧ t.outbox = s.outbox ++ back (.answer []) ∧
       Stored s t (groveBase p.grove + h.base + p.slot * h.slotsz + p.offset + p.position) n (leNat p.bytes) ∧
       (slotOf t p.grove p.glade p.slot).got = sl.got + n ∧
       (slotOf t p.grove p.glade p.slot).st = (if p.total ≤ sl.got + n then 3 else 2) ∧
       (-(2 ^ 47) < (b.word p.phase).pend - n → barrierOf t p.grove z.ab =
         b.setWord p.phase { b.word p.phase with pend := (b.word p.phase).pend - n }) ∧
       ((b.word p.phase).pend - n ≤ -(2 ^ 47) → ((barrierOf t p.grove z.ab).word p.phase).ovf = true ∧
         ((barrierOf t p.grove z.ab).word p.phase).pend = (b.word p.phase).pend))) ∧
  ∀ (s : State) (g z k m : Nat),
    let sl := slotOf s g z k
    let mine := fun (x : Sys2Proof.Machine.Sent) => x.glade == z && x.slot == k && !(x.held || x.away)
    let goes := fun (x : Sys2Proof.Machine.Sent) => match x.port with
      | none => x.module != s.mod.modNo && ((Work.of s).route x.module).isSome
      | some p => (portOf s p).up
    (∃ t, exec (.gladeKeepalive g z k) s = .next t ∧ t.mem = s.mem ∧
      (groveOf t g).sent = ((groveOf s g).sent.map fun x => if mine x then { x with last := s.mod.cycle } else x) ∧
      t.outbox = s.outbox ++ ((groveOf s g).sent.filter fun x => mine x && goes x).map
        fun x => .keepAlive x.module s.mod.modNo x.grove z k) ∧
    (sl.st = 1 ∨ sl.st = 2 →
      (∀ y, sl.held = false → sl.away = false → sl.seen + sl.bound ≤ s.mod.cycle → gladeOf s g z = some y →
        ∃ t, exec (.gladeRevocation g z k) s = .next t ∧ slotOf t g z k = { sl with st := 5 } ∧
          ((barrierOf t g y.ab).word sl.phase).lost = true ∧ t.mem = s.mem) ∧
      (sl.sender = m → ∃ t, exec (.gladeHold false m g z k) s = .next t ∧ slotOf t g z k = { sl with away := true } ∧ t.mem = s.mem) ∧
      ∀ nm ng, sl.sender = m → ∃ t, exec (.gladeResume false m g z k nm ng) s = .next t ∧ t.mem = s.mem ∧
        slotOf t g z k = { sl with
          sender := nm
          away := false
          port := if nm = s.mod.modNo then none else (Work.of s).route nm
          seen := s.mod.cycle
          bound := 2 ^ s.mod.remcfg.1
          feed := 0 }) ∧
    let ours := fun (x : Sys2Proof.Machine.Sent) => x.module == m && x.grove == g && x.glade == z && x.slot == k
    (∃ t, exec (.gladeHold true m g z k) s = .next t ∧ t.mem = s.mem ∧ ∀ n, (groveOf t n).sent =
      (groveOf s n).sent.map fun x => if ours x then { x with held := true } else x) ∧
    ∀ nm ng, nm ≠ m → ∃ t, exec (.gladeResume true m g z k nm ng) s = .next t ∧ t.mem = s.mem ∧ ∀ n, (groveOf t n).sent =
      (groveOf s n).sent.map fun x => if ours x then
          { x with module := nm, grove := ng, held := false, port := if nm = s.mod.modNo then none else (Work.of s).route nm }
        else x

/-! ## The matrix array -/

/-- R250 to R252, R255, R258, R261, R263, R264: MMA hands its k-step to the tag that its packet displaces, at the tag's end in its turn, aside
before it, and freezes the tag with Sequence Collision behind it; MLDB loads its range of every column bank into an empty shadow latch;
MSCL sets both bindings; MRD queues a read token and takes its context's next number; MZERO queues a zero token; MSTAT answers the tag's
word; each on a core and in a twig alike. -/
def Obligations.MatrixInstructions : Prop :=
  (∀ (s : State) (g k : Nat) (x : Twig) (p : Packet) (t : BitVec 6) (sq : BitVec 8) (kd : BitVec 4) (f : BitVec 3) (m : BitVec 5),
     OnTwig s (.mx g k) x → (mxOf s g).handled.find? (fun p => p.order == x.packet) = some p →
     let n := (t.toNat + p.hdr.toNat / 2 ^ 10 % 64 + p.index) % 64
     let seq := (sq.toNat + p.hdr.toNat / 2 ^ 16 % 256) % 256
     let tag := (mxOf s g).tag n
     let ahead := (seq + 256 - tag.next) % 256
     let item := fun (y : TagItem) => y.kind = 0 ∧ y.seq = seq ∧ y.packet = p ∧ y.kdep = kd.toNat ∧ y.afmt = f.toNat ∧
       y.mrows = m.toNat ∧ y.num = none
     let twice := ((tag.queue ++ tag.held).any fun y => y.kind == 0 && y.seq == seq) = true
     ∃ u, exec (.mma t sq kd f m) s = .next u ∧ (Work.of u).twigAt (.mx g k) = some x.adv ∧ u.mem = s.mem ∧
       (tag.frozen = none → ¬ twice → ahead = 0 → ∃ y, item y ∧ (mxOf u g).tag n = { tag with queue := tag.queue ++ [y] }) ∧
       (tag.frozen = none → ¬ twice → 0 < ahead → ahead < 128 →
         ∃ y, item y ∧ (mxOf u g).tag n = { tag with held := tag.held ++ [y] }) ∧
       (tag.frozen = none → twice ∨ 128 ≤ ahead → ∃ o, ((mxOf u g).tag n).frozen = some o.fseq ∧ ((mxOf u g).tag n).queue = tag.queue ∧
         (regionAt u g).frozen = (regionAt s g).frozen ++ [o] ∧ o.okind = 6 ∧ o.code = 0x10 ∧ o.what = n) ∧
       (tag.frozen ≠ none → ∃ y, item y ∧ (mxOf u g).tag n = { tag with kept := tag.kept ++ [y] })) ∧
  (∀ (s : State) (a b d : BitVec 5) (f : BitVec 3) (h : BitVec 4),
     MxRuns s (.mldb a b f) none [a, b] (fun g _ ws =>
       let off := (ws.getD 0 0).toNat
       let kb := (ws.getD 1 0).toNat
       if off % 32 ≠ 0 ∨ kb % 32 ≠ 0 ∨ kb < 32 ∨ 512 < kb ∨ 0x80000 < off + kb then .fails
       else if (mxOf s g).shadow.st ≠ 0 then .waits
       else .does 0 fun t => t.mem = s.mem ∧ (mxOf t g).active = (mxOf s g).active ∧
         let l := (mxOf t g).shadow
         l.st = 1 ∧ l.off = off ∧ l.kb = kb ∧ l.fmt = f.toNat ∧ l.skind = (mxOf s g).bBind.toNat / 2 ^ 19 % 4 ∧
           ∀ j < 32, l.cols.getD j [] = (List.range kb).map fun i => byteAt s (canopyBase g j + off + i)) ∧
     MxRuns s (.mscl a b) none [a, b] (fun g _ ws =>
       let x := (ws.getD 0 0).toNat
       let y := (ws.getD 1 0).toNat
       let ak := x / 2 ^ 8 % 4
       let bk := y / 2 ^ 19 % 4
       if x / 2 ^ 10 ≠ 0 ∨ y / 2 ^ 21 ≠ 0 ∨ ak = 3 ∨ bk = 3 ∨ (ak = 0 ∧ x % 2 ^ 8 ≠ 0) ∨
         (ak ≠ 0 ∧ (Work.of s).isRing g (x % 2 ^ 8) = false) ∨ (bk = 2 ∧ y % 2 ^ 19 % 2 ≠ 0) then .fails
       else .does 0 fun t => t.mem = s.mem ∧ (mxOf t g).aBind = ws.getD 0 0 ∧ (mxOf t g).bBind = ws.getD 1 0 ∧
         (mxOf t g).tags = (mxOf s g).tags) ∧
     MxRuns s (.mstat d a) (some d) [a] (fun g _ ws =>
       let n := (ws.getD 0 0).toNat
       let x := mxOf s g
       let t := x.tag n
       if n < 64 then .does (BitVec.ofNat 64 (x.begun % 2 ^ 32 * 2 ^ 32 + x.shadow.st * 2 ^ 25 +
           (if t.frozen.isSome then 2 ^ 24 else 0) + t.held.length * 2 ^ 16 + min 255 t.queue.length * 2 ^ 8 + t.next))
         fun u => u.mem = s.mem ∧ (mxOf u g).tags = x.tags
       else .fails) ∧
     MxRuns s (.mzero a) none [a] (fun g _ ws =>
       let n := (ws.getD 0 0).toNat
       let t := (mxOf s g).tag n
       if n < 64 then .does 0 fun u => u.mem = s.mem ∧ ∃ y, y.kind = 2 ∧ (mxOf u g).tag n = { t with queue := t.queue ++ [y] }
       else .fails) ∧
     MxRuns s (.mrd d a b h) (some d) [a, b] (fun g _ ws =>
       let x := (ws.getD 0 0).toNat
       let y := (ws.getD 1 0).toNat
       let k := y / 2 ^ 59 % 8
       let e := engineOf s g k
       let t := (mxOf s g).tag (x % 64)
       let good := h.toNat ≤ 4 ∧ x / 2 ^ 9 = 0 ∧ x / 2 ^ 6 % 4 = 0 ∧ y / 2 ^ 62 ≤ 1 ∧ y / 2 ^ 57 % 4 = 0 ∧
         (y / 2 ^ 62 = 0 → y % 2 ^ 57 % 64 = 0) ∧ (y / 2 ^ 62 = 1 → y % 2 ^ 57 = 0) ∧ e.holdsSignal = false
       if ¬ good then .fails
       else if 16 ≤ e.queue.length then .waits
       else .does (BitVec.ofNat 64 (e.issued + 1)) fun u => u.mem = s.mem ∧ (engineOf u g k).issued = e.issued + 1 ∧
         (∃ o, (engineOf u g k).queue = e.queue ++ [o] ∧ o.op = 0xFE ∧ o.num = e.issued + 1 ∧ o.bind = ws.getD 1 0) ∧
         ∃ z, z.kind = 1 ∧ z.fmt = h.toNat ∧ z.ctx = k ∧ z.opNum = e.issued + 1 ∧ z.zafter = (ws.getD 0 0).getLsbD 8 ∧
           (mxOf u g).tag (x % 64) = { t with queue := t.queue ++ [z] }))

/-- R250, R253 to R255, R259 to R264: a loading shadow latch fills; a packet whose handler stands launches it with its header, index, rows
and row bytes, and one that has none counts as accepted with a Token Fault record; the earliest k-step adds its exact sums to its rows, each rounded
once, and moves its tag's NEXT; one whose formats break its bindings freezes its tag; a read token gives its tile to its read-out and
with ZAFTER clears it; a zero token clears the accumulator, NEXT and held k-steps and a freeze.
What a record of a failed step holds follows log entry 58. -/
def Obligations.MatrixEvents : Prop :=
  ∀ (s : State) (g : Nat),
    let m := mxOf s g
    (∃ t, exec (.shadowLatchFull g) s = .next t ∧ t.mem = s.mem ∧
      (mxOf t g).shadow = if m.shadow.st = 1 then { m.shadow with st := 2 } else m.shadow) ∧
    (∀ p, m.arrivals.find? (fun p => !m.frozenEntries.contains (p.hdr.toNat % 2 ^ 8) && !m.spilled.contains p.order) = some p →
      let bad := p.hdr.toNat / 2 ^ 29 % 4 ≠ 0 ∨ p.hdr.toNat / 2 ^ 8 % 4 ≠ 0
      (bad ∨ m.handlerOf p = none → ∃ t f, exec (.packetArrival g) s = .next t ∧ t.mem = s.mem ∧
        (mxOf t g).arrivals = m.arrivals.erase p ∧ (mxOf t g).twigs = m.twigs ∧
        (regionAt t g).faults = (regionAt s g).faults ++ [f] ∧ f.code = 0x11 ∧ f.aux = p.hdr.setWidth 64) ∧
      ∀ e, ¬ bad → m.handlerOf p = some e → m.twigs.length < 4 → m.pendingTwig = [] →
        ∃ t k w z, exec (.packetArrival g) s = .next t ∧ t.mem = s.mem ∧ (mxOf t g).arrivals = m.arrivals.erase p ∧
          (mxOf t g).handled = m.handled ++ [p] ∧ Tbl.find m.twigs k = none ∧ Tbl.find (mxOf t g).twigs k = some w ∧
          w.entry = e.toNat % 2 ^ 9 ∧ w.colour = BitVec.ofNat 12 (e.toNat / 2 ^ 48) ∧ w.iter = 0 ∧ w.next = 0 ∧ w.packet = p.order ∧
          w.ins = [z] ∧ z.payload = [p.hdr.setWidth 64, BitVec.ofNat 64 p.index, BitVec.ofNat 64 p.rows.length,
            BitVec.ofNat 64 p.rowLen]) ∧
    (∀ n i, earliest m.tags = some (n, i) → (m.tag n).queue.head? = some i → (regionAt s g).runs = true → (i.packet.hdr.getLsbD 31 = true → m.shadow.st = 2) →
      let latch := if i.packet.hdr.getLsbD 31 then m.shadow else m.active
      let ak := m.aBind.toNat / 2 ^ 8 % 4
      let sound := kindOk i.afmt ak = true ∧ kindOk latch.fmt latch.skind = true ∧
        (latch.skind = 0 ∨ colScales latch.kb latch.fmt = i.depth / 32)
      (ak = 0 → ¬ sound → ∃ t o, exec (.kstep g) s = .next t ∧ t.mem = s.mem ∧ ((mxOf t g).tag n).frozen = some o.fseq ∧
        (regionAt t g).frozen = (regionAt s g).frozen ++ [o] ∧ o.okind = 6 ∧ o.code = 0x14 ∧ o.what = n) ∧
      (MemOk s → ak = 0 → sound → ∃ t, exec (.kstep g) s = .next t ∧
        (∀ r < i.rows, ∀ j < 32, numAt t (accBase g n + 4 * (32 * r + j)) 4 = fmtF32.round
          ((fmtF32.decode (numAt s (accBase g n + 4 * (32 * r + j)) 4)).add (i.dot 0 ⟨[], latch⟩ r j))) ∧
        (∀ a, a < accBase g n ∨ accBase g n + 128 * i.rows ≤ a → byteAt t a = byteAt s a) ∧
        ((mxOf t g).tag n).held.length + ((mxOf t g).tag n).queue.length + 1 = (m.tag n).held.length + (m.tag n).queue.length ∧
        ((mxOf t g).tag n).next = ((m.tag n).next + 1) % 256 ∧
        (i.packet.hdr.getLsbD 31 = true → (mxOf t g).active = { latch with st := 0 } ∧ (mxOf t g).shadow.st = 0) ∧
        (i.packet.hdr.getLsbD 31 = false → (mxOf t g).active = m.active ∧ (mxOf t g).shadow = m.shadow))) ∧
    ∀ n i, MemOk s → (m.tag n).token = some i →
      let a := accBase g n
      let cleared := fun (t : State) => (∀ b, byteAt t b = if a ≤ b ∧ b < a + 4096 then 0 else byteAt s b) ∧
        ((mxOf t g).tag n).next = 0
      (i.kind = 1 → ∃ t, exec (.mrdServe g n) s = .next t ∧
        (∀ o ∈ (engineOf s g i.ctx).queue, o.num = i.opNum → o.op = 0xFE → o.cancelled = false →
          ∃ q ∈ (engineOf t g i.ctx).queue, q.num = o.num ∧ q.running = true ∧
            q.payload = tileBytes i.fmt ((List.range 4096).map fun b => byteAt s (a + b))) ∧
        (i.zafter = true → cleared t) ∧
        (i.zafter = false → (∀ b, byteAt t b = byteAt s b) ∧ (mxOf t g).tag n = { m.tag n with queue := (m.tag n).queue.erase i })) ∧
      (i.kind = 2 → ∃ t, exec (.mzeroServe g n) s = .next t ∧ cleared t ∧ ((mxOf t g).tag n).held = [] ∧
        ((mxOf t g).tag n).frozen = none)

/-! ## Faults, releases, stops and freezes -/

/-- R383, R35, R421: the oldest record of a region that waits on no failed check is written whole into the free slot at its ring's
fill head, which becomes full; where its page cannot be written it waits; setting the designator lets it be tried again; a watchdog whose period
is over raises one record of code 0x21 and keeps waiting.
That posting is a step of its own (log entry 50) and what a watchdog's record names (log entry 28) are the model's choice. -/
def Obligations.FaultQueues : Prop :=
  (∀ (s : State) (r : Nat),
    let x := regionOf s r
    (∀ v, RegionOnly s (.faultqWrite r v) r
      { x with faultq := v, faults := x.faults.map fun f => { f with checkFailed := false } }) ∧
    ∀ f rest g h, x.faults = f :: rest → f.checkFailed = false → x.runs = true → (Work.of s).faultRing r = some (g, h) →
      let e := handleOf s g h
      e.slots.getD e.fh 9 = 0 →
      (∀ la, MemOk s → SuperReaches s g x.rasid (e.addr e.fh) la 64 → ∃ t, exec (.faultRecordPost r) s = .next t ∧
        Written s t la f.image ∧ (handleOf t g h).slots = setAt (setAt e.slots e.fh 1) e.fh 2 ∧
        (handleOf t g h).fh = (e.fh + 1) % e.nslot ∧ (handleOf t g h).dh = e.dh ∧ (regionOf t r).faults = rest) ∧
      ∀ y, e.addr e.fh < 2 ^ 57 → (Work.of s).buffered g false x.rasid (e.addr e.fh) = some y → y.refuses needW false = true →
        ∃ t z, exec (.faultRecordPost r) s = .next t ∧ t.mem = s.mem ∧ t.groves = s.groves ∧ (regionOf t r).faults.head? = some z ∧
          z.checkFailed = true ∧ z.image = f.image ∧ (regionOf t r).faults.length = x.faults.length) ∧
  ∀ (s : State) (g since : Nat), s.mod.dogs.find? (fun d => d.1 == Stalled.core g) = some (.core g, since, false) →
    since + 2 ^ 20 ≤ s.mod.cycle → (coreOf s g).task ≠ none → (coreOf s g).stall ≠ none →
    ∃ t f, exec (.stallWatchdog (.core g)) s = .next t ∧ (regionAt t g).faults = (regionAt s g).faults ++ [f] ∧ f.code = 0x21 ∧
      f.pc = (coreOf s g).pc.toNat ∧ some f.wid = (coreOf s g).task.map Task.wid ∧ coreOf t g = coreOf s g ∧ t.mem = s.mem ∧
      t.mod.dogs.find? (fun d => d.1 == Stalled.core g) = some (.core g, since, true)

/-- R384, R400, R246, R247: a release whose number names no frozen object changes nothing; a retried node, request, owner or tag goes on where it
stands; a discarded request answers null, a discarded owner's node goes on, a discarded task ends; while the region is
stopped a release waits. Detaching a branch takes it out of its join and gives the permits then due.
The corners of frozen objects follow log entry 48, and a permit's tag is free (log entry 26). -/
def Obligations.Releases : Prop :=
  (∀ (s : State) (r : Nat) (q : BitVec 32), ReleasesNow s r →
    (frozenOf s r q.toNat = none → Idle s (.freleaseRetry r q) ∧ Idle s (.freleaseDiscard r q)) ∧
    ∀ o, frozenOf s r q.toNat = some o →
      (o.okind = 2 → o.what ∈ [1, 2, 3] → LetsGo s (.freleaseRetry r q) r o fun t => t.cells = s.cells ∧ t.cores = s.cores) ∧
      (o.okind = 3 → LetsGo s (.freleaseRetry r q) r o fun t => t.cells = s.cells ∧ t.cores = s.cores) ∧
      (o.okind = 4 → LetsGo s (.freleaseRetry r q) r o fun t =>
        cellOf t o.cell = { cellOf s o.cell with ownerFrozen := (cellOf s o.cell).ownerFrozen.erase o.node }) ∧
      (o.okind = 6 → ((mxOf s o.grove).tag o.what).kept = [] → LetsGo s (.freleaseRetry r q) r o fun t =>
        ((mxOf t o.grove).tag o.what).frozen = none ∧ ((mxOf t o.grove).tag o.what).kept = []) ∧
      (o.okind = 3 → LetsGo s (.freleaseDiscard r q) r o fun t => (cellOf t o.cell).reqs =
        (cellOf s o.cell).reqs.map (fun (p : MemReq) => if p.id = o.aux then { p with null := true } else p) ∧ t.cores = s.cores) ∧
      (o.okind = 2 → o.what = 0 → (∀ p ∈ o.toks, p.2.item = none) → LetsGo s (.freleaseDiscard r q) r o fun t =>
        t.cells = s.cells ∧ t.cores = s.cores) ∧
      (∀ u x, o.okind = 1 → o.task = some x → runningOf s r = some u → LetsGo s (.freleaseDiscard r q) r o fun t =>
        runningOf t r = some (u.endTask (u.slotOf x.task.wid)) ∧ t.cores = s.cores ∧ t.cells = s.cells)) ∧
  (∀ (s : State) (r : Nat) (q : BitVec 32) (o : Frozen), (regionOf s r).halted = false → (regionOf s r).freezing = none →
    (regionOf s r).stopped = true → (∀ f, (regionOf s r).stop = some f → f.fseq ≠ q.toNat) → frozenOf s r q.toNat = some o →
    let x := regionOf s r
    RegionOnly s (.freleaseRetry r q) r { x with pendRelease := x.pendRelease ++ [(0, q)] } ∧
    RegionOnly s (.freleaseDiscard r q) r { x with pendRelease := x.pendRelease ++ [(1, q)] }) ∧
  ∀ (s : State) (r c : Nat) (v : Word), v.toNat / 2 ^ 32 = 0 → v.toNat / 2 ^ 27 % 16 = 0 → v.getLsbD 31 = false →
    v.toNat / 2 ^ 22 % 4 = 0 → (Work.of s).lcell r (v.toNat % 2 ^ 12) = some c →
    let n := v.toNat / 2 ^ 12 % 2 ^ 10
    let b := v.toNat / 2 ^ 24 % 8
    let y := (cellOf s c).node n
    let j := (cellOf s c).join n
    (nOpc y ≠ 0x28 ∨ nOsb y < b → Idle s (.pjdet r v)) ∧
    (nOpc y = 0x28 → b ≤ nOsb y →
      let live := (List.range j.counts.length).filter fun k => k ≠ b ∧ k ∉ j.detached
      ∃ t, exec (.pjdet r v) s = .next t ∧ t.mem = s.mem ∧ t.cores = s.cores ∧ b ∈ ((cellOf t c).join n).detached ∧
        (∀ k ∈ live, ∀ m, (∀ i ∈ live, m ≤ j.counts.getD i 0) → (∃ i ∈ live, m = j.counts.getD i 0) →
          ((cellOf t c).join n).counts.getD k 0 + m = j.counts.getD k 0 ∧
          (cellOf t c).pend.length = (cellOf s c).pend.length + m * ([nDstA y, nDstB y].filter fun d => d != noDst).length))

/-- R410 to R414, R421: a stop by command raises a record of code 0x31 marked MANUAL; once its wave has passed the region is
stopped; a resume that names the stop lets it run again; a step at a core performs its one instruction next, and a step at a twig's
instance launches it and performs its next instruction, and its commit with the last; a list writes
every stored token and LISTN; a snapshot numbers itself in every grove.
That the step is the very next move (log entry 19), the stop record's fields and what a failed list leaves (log entry 51), and that a
snapshot latches every grove's block in one step (log entry 71), are the model's choice. -/
def Obligations.Stops : Prop :=
  (∀ (s : State) (r : Nat),
    let x := regionOf s r
    (x.loaded = true → x.runs = true → ∃ t f, exec (.fcmdStop r) s = .next t ∧ (regionOf t r).stopping = some x.nextFseq ∧
      (regionOf t r).stop = some f ∧ f.fseq = x.nextFseq ∧ f.code = 0x31 ∧ f.okind = 8 ∧ f.aux = 0x200 ∧ f.grove = 0 ∧
      t.mem = s.mem ∧ t.cores = s.cores ∧ t.cells = s.cells) ∧
    (x.loaded = false ∨ x.runs = false → Idle s (.fcmdStop r)) ∧
    (x.stopping ≠ none → x.halted = false → (Work.of s).waveDone r = true → ∃ t, exec (.stopComplete r) s = .next t ∧
      (regionOf t r).stopped = true ∧ (regionOf t r).stopping = none ∧ (∀ g, (coreOf t g).regs = (coreOf s g).regs) ∧
      ((∀ c ∈ (Work.of s).cellsOf r, (cellOf s c).twigs = []) → t.mem = s.mem)) ∧
    ∀ q : BitVec 32,
      (x.stopped = false ∨ (∀ f, x.stop = some f → f.fseq ≠ q.toNat) →
        Idle s (.fcmdResumeRetry r q) ∧ Idle s (.fcmdResumeDiscard r q) ∧ Idle s (.fcmdStep r q)) ∧
      ∀ f, x.stopped = true → x.halted = false → x.freezing = none → x.stop = some f → f.fseq = q.toNat →
        (∀ i ∈ [Instr.fcmdResumeRetry r q, .fcmdResumeDiscard r q], ∃ t, exec i s = .next t ∧ (regionOf t r).stopped = false ∧
          (regionOf t r).pendRelease = [] ∧
          ((∀ k, x.dbpHit k = none) → (regionOf t r).stop = none ∧ (regionOf t r).stopHeld = none)) ∧
        (∀ f y, x.stopFire = some f → (cellOf s f.cell).debug = none → (cellOf s f.cell).inst f = some y → f.entry ∈ y.ids →
          ∃ t z, exec (.fcmdStep r q) s = .next t ∧
            t.moves = .run (.debug f.cell) :: .event (.twigCommit (.debug f.cell)) :: s.moves ∧
            (cellOf t f.cell).debug = some z ∧ z.node = f.node ∧ z.colour = f.colour ∧ z.iter = f.iter ∧ z.next = 0 ∧
            z.ins = y.toks.map Prod.snd) ∧
        (∀ f z, x.stopFire = some f → (cellOf s f.cell).debug = some z → z.isDone = false → ∃ t, exec (.fcmdStep r q) s = .next t ∧
          t.moves = .run (.debug f.cell) :: .event (.twigCommit (.debug f.cell)) :: s.moves ∧ t.mem = s.mem ∧ t.cells = s.cells) ∧
        (∀ g, x.stopFire = none → x.stopCore = some g → (coreOf s g).task ≠ none → ∃ t, exec (.fcmdStep r q) s = .next t ∧
          t.moves = .run (.core g) :: s.moves ∧ t.mem = s.mem ∧ t.cores = s.cores ∧ t.regions = s.regions)) ∧
  (∀ (s : State) (r : Nat), (regionOf s r).stopped = true → (regionOf s r).halted = false →
    let x := regionOf s r
    let g := ((Work.of s).mgrove r 0).getD 0
    let bs := (((Work.of s).listed r).map tokBytes).flatten
    ∀ la, MemOk s → SuperReaches s g x.listAsid x.listVa la bs.length → 0 < bs.length →
      ∃ t, exec (.fcmdList r) s = .next t ∧ Written s t la bs ∧ (regionOf t r).listN = ((Work.of s).listed r).length ∧
        t.cells = s.cells ∧ t.cores = s.cores) ∧
  ∀ (s : State), ∃ t, exec .snaptrig s = .next t ∧ t.mod = { s.mod with snapN := s.mod.snapN + 1 } ∧ t.mem = s.mem ∧
    t.cores = s.cores ∧ t.cells = s.cells ∧ t.regions = s.regions ∧ ∀ g < 320,
      (groveOf t g).snap.getD 0 0 = BitVec.ofNat 64 (s.mod.snapN + 1) ∧ (groveOf t g).snap.getD 1 0 = BitVec.ofNat 64 s.mod.cycle

/-- R396 to R399: FREEZE and THAW, in supervisor mode and of another region, take the next number of a context and begin; a wave
that has passed halts its region and ends its operation, with its image in memory or an error; a region that thaws runs on, or the operation ends
with an error; where no image's header stands at the address it ends with Permission.
How an image is held (log entries 20 and 46), that the wave begins when FREEZE issues (log entry 45), and that the RASID is the image's
(log entry 47), are the model's choice. -/
def Obligations.Freezing : Prop :=
  (∀ (s : State) (g : Nat) (d a b : BitVec 5) (c : BitVec 3), OnCore s g → Super s g →
    let r := (reg s g a).toNat % 2 ^ 9
    let x := regionOf s r
    let e := engineOf s g c.toNat
    let sound := r ≠ regionNo s g ∧ r < 320 ∧ (reg s g b).toNat % 4096 = 0 ∧ e.holdsSignal = false
    let takes := fun (i : Instr) (op : Nat) (also : State → Prop) =>
      (e.queue.length < 16 → x.freezing = none → x.thawing = none → MayGo s g (coreOf s g).step.pc →
        ∃ t, Did s g i d (BitVec.ofNat 64 (e.issued + 1)) t ∧ t.mem = s.mem ∧ (engineOf t g c.toNat).issued = e.issued + 1 ∧
          (∃ o, (engineOf t g c.toNat).queue = e.queue ++ [o] ∧ o.op = op ∧ o.num = e.issued + 1) ∧ also t) ∧
      (16 ≤ e.queue.length ∨ x.freezing ≠ none ∨ x.thawing ≠ none → Holds s g i)
    ((Instr.freeze d a b c).coreOk = true →
      (¬ (sound ∧ x.loaded = true ∧ (reg s g a).toNat / 2 ^ 9 % 2 ^ 23 = 0) → Raises s g (.freeze d a b c) 0x09 0) ∧
      (sound → x.loaded = true → (reg s g a).toNat / 2 ^ 9 % 2 ^ 23 = 0 → takes (.freeze d a b c) 0xFB fun t =>
        (regionOf t r).freezing = some (g, c.toNat, e.issued + 1))) ∧
    ((Instr.thaw d a b c).coreOk = true →
      (¬ (sound ∧ (x.loaded = false ∨ x.halted = true) ∧ (reg s g a).toNat / 2 ^ 9 = 0) → Raises s g (.thaw d a b c) 0x09 0) ∧
      (sound → x.loaded = false ∨ x.halted = true → (reg s g a).toNat / 2 ^ 9 = 0 → takes (.thaw d a b c) 0xFA fun t =>
        (regionOf t r).thawing = some (g, c.toNat, e.issued + 1)))) ∧
  ∀ (s : State) (r g k n : Nat),
    let ends := fun (t : State) (good : Nat → Prop) => ∀ o ∈ (engineOf s g k).queue, o.num = n →
      ∃ p ∈ (engineOf t g k).queue, p.num = n ∧ p.fires = 1 ∧ p.firing = false ∧ ∀ c, p.err = some c → good c
    ((regionOf s r).freezing = none → Idle s (.freezeWave r)) ∧ ((regionOf s r).thawing = none → Idle s (.thawComplete r)) ∧
    ((regionOf s r).freezing = some (g, k, n) → (regionOf s r).halted = true ∨ (Work.of s).waveDone r = true → regionNo s g ≠ r →
      ∃ t, exec (.freezeWave r) s = .next t ∧ (regionOf t r).halted = true ∧ (regionOf t r).freezing = none ∧
        ends t (fun c => c ∈ [0x08, 0x09, 0x0A])) ∧
    ((regionOf s r).thawing = some (g, k, n) →
      let w := (Work.of s).updRegion r fun x => { x with thawing := none }
      let d := w.waveOp g k n
      let fails := fun (code : Nat) => ∃ t, exec (.thawComplete r) s = .next t ∧ (regionOf t r).thawing = none ∧
        ends t (fun c => c = code) ∧ (regionOf t r).loaded = (regionOf s r).loaded
      (∀ c a, w.vread (waveAcc g (w.rno g) d) (waveVa d) 256 = .error (c, a) → fails c) ∧
      (∀ hd w1, w.vread (waveAcc g (w.rno g) d) (waveVa d) 256 = .ok (hd, w1) → (∀ m ∈ s.images, m.raw.take 256 ≠ hd) →
        leNat (hd.take 4) ≠ 0x5A464948 ∨ leNat ((hd.drop 4).take 2) ≠ 1 → fails 0x09) ∧
      ∀ hd w1 m b, w.vread (waveAcc g (w.rno g) d) (waveVa d) 256 = .ok (hd, w1) →
        w1.images.find? (fun i => i.raw.take 256 == hd) = some m → w1.readTable r = some b → w1.roomFor m b = true →
        ∃ t, exec (.thawComplete r) s = .next t ∧ (regionOf t r).thawing = none ∧ (regionOf t r).halted = false ∧
          (regionOf t r).freezing = none ∧ (regionOf t r).table = b ∧ (regionOf t r).loaded = m.region.loaded ∧
          (regionOf t r).gid = m.region.gid ∧ (regionOf t r).stopped = m.region.stopped ∧
          (regionOf t r).rasid = m.region.rasid ∧ (regionOf t r).colours = m.region.colours)

/-! ## The host port and the module -/

/-- R7, R422 to R427: a host access through a window reads or writes the local address it maps, and a refused read answers all
ones and sets HERR bit 0; a register written at its address takes what its access code lets it; the queue's registers; an entry
taken is answered and HQHEAD moves on, a refused OP with Illegal; a release entry releases; module reset leaves every unit at its reset value; an attestation
writes its report and signs it; offsets of BAR 2-3 from 64 GiB on are window 2's.
What a refused read answers (log entry 40), the order of a queue entry's checks (log entry 43), and that module reset keeps the bytes of memory but the canopies' (log entry 12) are the model's choice. -/
def Obligations.HostPort : Prop :=
  (∀ (s : State) (v : Word) (q : BitVec 32),
    ModuleOnly s (.hqbaseWrite v) { s.mod with hqBase := v &&& 0x1FFFFFFFF00F, hqStopped := false } ∧
    ModuleOnly s (.hqtailWrite q) { s.mod with hqTail := q, hqStopped := false }) ∧
  (∀ (s : State) (k off n : Nat) (v : Word), 1 ≤ n → n ≤ 8 → s.mod.bootErr = false →
    let read := fun (t : State) (x : Word) => exec (.hostWindowAccess k false off n v) s = .next t ∧
      t.outbox = s.outbox ++ [.hostData k x] ∧ t.cores = s.cores ∧ t.cells = s.cells ∧ t.regions = s.regions ∧ t.mem = s.mem
    (∀ la, 1 ≤ k → k ≤ 3 → off < 2 ^ 36 → la = Tbl.getD s.mod.hwBase k 0 * 2 ^ 36 + off → la + n ≤ memTop →
      (∀ i < n, (Work.of s).loc (la + i) = la + i ∧ (Work.of s).readOnly (la + i) = false) →
      (Sound s la n → ∃ t, read t (BitVec.ofNat 64 (numAt s la n))) ∧
      (MemOk s → ∃ t, exec (.hostWindowAccess k true off n v) s = .next t ∧ Stored s t la n v.toNat ∧ t.cores = s.cores ∧
        t.cells = s.cells ∧ t.regions = s.regions ∧ t.outbox = s.outbox)) ∧
    (k = 0 → off < 0x10000 → n ≠ 8 → ∃ t, read t (BitVec.ofNat 64 (2 ^ (8 * n) - 1)) ∧
      t.mod = { s.mod with herr := s.mod.herr ||| 1 }) ∧
    (k = 0 → 0x10000 ≤ off → Idle s (.hostWindowAccess k false off n v) ∧ Idle s (.hostWindowAccess k true off n v)) ∧
    (k = 1 → 2 ^ 36 ≤ off → ∀ wr, exec (.hostWindowAccess 1 wr off n v) s = exec (.hostWindowAccess 2 wr (off - 2 ^ 36) n v) s)) ∧
  (∀ (s : State) (v : Word), s.mod.modNo < 2 ^ 11 →
    let at_ := 0x100C00000000
    let writes := fun (off : Nat) (m : Mod) => ∃ t, exec (.registerWrite (at_ + off) v) s = .next t ∧ t.mem = s.mem ∧
      t.cores = s.cores ∧ t.regions = s.regions ∧
      { t.mod with homeTimes := s.mod.homeTimes, maxTime := s.mod.maxTime, ptimes := s.mod.ptimes } = m
    writes 0x800 { s.mod with trBase := v.toNat / 2 ^ 20 % 2 ^ 36 * 2 ^ 20 } ∧
    writes 0xD000 { s.mod with herr := s.mod.herr - (s.mod.herr &&& v.toNat % 8) } ∧
    writes 0xC08 { s.mod with remBase := v.toNat / 2 ^ 12 % 2 ^ 44 * 4096 }) ∧
  (∀ (s : State), s.mod.hqStopped = false → s.mod.hqHead ≠ s.mod.hqTail → s.mod.bootErr = false → MemOk s →
    let a := s.mod.hqBase.toNat / 2 ^ 12 % 2 ^ 33 * 4096 + 64 * (s.mod.hqHead.toNat % 2 ^ (s.mod.hqBase.toNat % 16))
    a + 64 ≤ memTop → Sound s a 64 → (∀ i < 64, (Work.of s).loc (a + i) = a + i ∧ (Work.of s).readOnly (a + i) = false) →
    let op := numAt s a 1
    let region := numAt s (a + 2) 2
    let arg := numAt s (a + 8) 8
    let answers := fun (t : State) (code : Nat) => Stored s t (a + 16) 8 (2 ^ 63 + code) ∧ t.mod.hqHead = s.mod.hqHead + 1 ∧
      t.mod.hqTail = s.mod.hqTail ∧ t.mod.hqStopped = false
    (op ≠ 1 → op ≠ 2 → ∃ t, exec .hostQueueLaunch s = .next t ∧ answers t 0x01) ∧
    (op = 1 → 320 ≤ region → ∃ t, exec .hostQueueLaunch s = .next t ∧ answers t 0x09) ∧
    (∀ r l w1, op = 1 → region < 320 → (regionOf s region).launchQ.length < 8 → l.hdr.getLsbD 400 = false → r = region →
      let v := (Work.of s).readTime (.after s.mod.maxTime) ((Work.of s).loc a)
      v.readLaunch (v.accQueue (((Work.of s).mgrove region 0).getD 0) (numAt s (a + 1) 1) (some region)) region arg =
        .ok (r, l, w1) →
      w1.regions = s.regions → w1.cells = s.cells → w1.base = s.mem → w1.log = [] →
      { w1.mod with lineTimes := s.mod.lineTimes, homeTimes := s.mod.homeTimes, maxTime := s.mod.maxTime, ptimes := s.mod.ptimes } =
        s.mod →
      ∃ t, exec .hostQueueLaunch s = .next t ∧ answers t 0 ∧ (regionOf t r).launchQ = (regionOf s r).launchQ ++ [l]) ∧
    (op = 2 → 320 ≤ region → ∃ t, exec .hostQueueRelease s = .next t ∧ answers t 0x09) ∧
    (∀ o, op = 2 → region < 320 → (regionOf s region).loaded = true → arg / 2 ^ 32 = 2 ^ 30 → ReleasesNow s region →
      frozenOf s region (arg % 2 ^ 32) = some o → o.okind = 3 → ∃ t, exec .hostQueueRelease s = .next t ∧ answers t 0 ∧
        (regionOf t region).frozen = (regionOf s region).frozen.filter (fun p => p.fseq != o.fseq))) ∧
  (∀ (s : State), MemOk s → ∃ t, exec .moduleReset s = .next t ∧ t.cores = [] ∧ t.cells = [] ∧ t.mxs = [] ∧ t.regions = [] ∧
    t.moves = State.reset.moves ∧ t.inputs = [] ∧ t.mod.modNo = s.mod.modNo ∧ t.mod.eolDays = s.mod.eolDays ∧ t.mod.cycle = State.reset.mod.cycle ∧
    t.mod.herr = State.reset.mod.herr ∧ t.mod.hqHead = State.reset.mod.hqHead ∧ t.mod.hqTail = State.reset.mod.hqTail ∧
    ∀ a, a < Config.bootLogAt ∨ Config.bootLogAt + 72 * t.mod.bootStage ≤ a →
      ((∀ g < 320, a < canopyBase g 0 ∨ canopyBase g 0 + 0x1000000 ≤ a) → byteAt t a = byteAt s a) ∧
      ∀ g < 320, canopyBase g 0 ≤ a → a < canopyBase g 0 + 0x1000000 → byteAt t a = 0) ∧
  ∀ (s : State), s.mod.attreq = true → MemOk s →
    let a := s.mod.bootLog.toNat % 2 ^ 45 + 0x10000
    a + 200 ≤ memTop → (∀ i < 200, (Work.of s).loc (a + i) = a + i) → s.mod.nonce.length = 32 →
    ∃ t, exec .attreq s = .next t ∧ t.mod.attreq = false ∧ t.cores = s.cores ∧ t.regions = s.regions ∧
      (∀ i < 32, byteAt t (a + i) = s.mod.nonce.getD i 0) ∧
      (∀ i < 64, byteAt t (a + 32 + i) =
        (sha512 ((Work.of s).pbytes (s.mod.bootLog.toNat % 2 ^ 45) (72 * s.mod.bootStage))).getD i 0) ∧
      (∀ i < 32, byteAt t (a + 96 + i) = (edPublic Config.idSecret).getD i 0) ∧
      (∀ i < 64, byteAt t (a + 136 + i) =
        (edSign Config.idSecret (sha512 ((List.range 136).map fun j => byteAt t (a + j)))).getD i 0) ∧
      ∀ b, b < a ∨ a + 200 ≤ b → byteAt t b = byteAt s b

/-- R16, R19, R20, R194, R195, R428, R429: a graph load that is rejected changes nothing and is reported to the host, and one that is accepted leaves the region
loaded with its graph; the throttle registers show what comes, and once in a period of 2^32 cycles so do those of wear; a core that
runs a task raises its program time by 1; a rebase lowers every time by one amount, and is idle while no time is near its end.
That a load is one step (log entry 10) and keeps the next release number (log entry 35), how a rejected one is reported (log entry 85), where
a grove's own wear comes from (log entry 12) and the amount of a rebase (log entry 27) are the model's choice. -/
def Obligations.ModuleEvents : Prop :=
  (∀ (s : State) (r : Nat) (img : Image),
    let rejected := Idle s (.graphLoad r img) ∧
      ∃ t, exec (.graphLoad r img) s = .next t ∧ t.outbox = s.outbox ++ [.loadReport r 0x05]
    ((Work.of s).readTable r = none ∨ 320 ≤ r ∨ s.mod.bootErr = true → rejected) ∧
    (∀ b, (Work.of s).readTable r = some b →
      Image.plainOk img b = false ∨ Image.timesOk img = false ∨ Image.historiesOk img = false ∨ (Work.of s).planOk r img = false ∨
        b.gladesOk img = false ∨ (Work.of s).tilesOk r img = false ∨
        (Work.of s).imageCells ((Work.of s).imageRegion r img b) img b.cells = none → rejected) ∧
    ∀ b cs, (Work.of s).readTable r = some b → r < 320 → s.mod.bootErr = false → Image.plainOk img b = true →
      Image.timesOk img = true → Image.historiesOk img = true → (Work.of s).planOk r img = true → b.gladesOk img = true →
      (Work.of s).tilesOk r img = true → (Work.of s).imageCells ((Work.of s).imageRegion r img b) img b.cells = some cs →
      ∃ t, exec (.graphLoad r img) s = .next t ∧ (regionOf t r).loaded = true ∧ (regionOf t r).gid = img.graphId ∧
        (regionOf t r).table = b ∧ (regionOf t r).frozen = [] ∧ (regionOf t r).running = none ∧ (regionOf t r).launchQ = [] ∧
        (regionOf t r).heldN = img.held ∧ (regionOf t r).nextFseq = (regionOf s r).nextFseq ∧
        (regionOf t r).rasid = (regionOf s r).rasid ∧ ∀ g ∈ (Tbl.vals b.groves).map (fun e => e.1), (coreOf t g).task = none) ∧
  (∀ (s : State) (a b c : Bool) (x d : BitVec 16) (g : BitVec 9) (p : BitVec 8),
    ModuleOnly s (.throttleChange a b c x)
      { s.mod with clk := BitVec.ofNat 64 (max 0x2000 (min 0x8000 x.toNat) + (if c then 2 ^ 16 else 0) +
          (if b then 2 ^ 17 else 0) + if a then 2 ^ 18 else 0) } ∧
    let n := s.mod.cycle / 2 ^ 32
    (n ≤ s.mod.wearAt → Idle s (.wearUpdate d g p)) ∧
    (s.mod.wearAt < n → ∃ t, exec (.wearUpdate d g p) s = .next t ∧ t.mem = s.mem ∧ t.cores = s.cores ∧ t.cells = s.cells ∧
      t.regions = s.regions ∧ t.mxs = s.mxs ∧
      (∀ k < 320, groveOf t k = { groveOf s k with
        ownOsc := (Config.wearOwn n k false).toNat, ownPct := (Config.wearOwn n k true).toNat }) ∧
      t.mod = { s.mod with
        eolDays := d.toNat, wgrove := g.toNat, wpct := p.toNat, wearAt := n
        herr := if d.toNat < 30 then s.mod.herr ||| 2 else s.mod.herr })) ∧
  (∀ (s : State) (g : Nat), (coreOf s g).task ≠ none → ∃ t, exec (.programTimeAdvance g) s = .next t ∧
    coreOf t g = { coreOf s g with ptime := (coreOf s g).ptime + 1 } ∧ t.mem = s.mem ∧ t.cells = s.cells ∧
    t.regions = s.regions ∧ (∀ k, k ≠ g → coreOf t k = coreOf s k) ∧
    t.mod = { s.mod with maxTime := max s.mod.maxTime ((coreOf s g).ptime + 1) }) ∧
  ∀ (s : State), (s.mod.maxTime < 2 ^ 48 - 2 ^ 33 → Idle s .timeRebase) ∧
    (2 ^ 48 - 2 ^ 33 ≤ s.mod.maxTime → ∃ t, exec .timeRebase s = .next t ∧ t.mem = s.mem ∧ t.mod.maxTime = s.mod.maxTime - 2 ^ 47 ∧
      (∀ g, (coreOf t g).ptime = (coreOf s g).ptime - 2 ^ 47 ∧ (coreOf t g).regs = (coreOf s g).regs) ∧
      ∀ l, Tbl.getD t.mod.homeTimes l 0 = Tbl.getD s.mod.homeTimes l 0 - 2 ^ 47)

/-! ## Encodings, steps and the whole machine -/

/-- R65, R78: words of the spec's own examples, one or more of each family, decode to their instructions, and four reserved encodings
are refused by the reason (R80). -/
def Obligations.DecodedWords : Prop :=
  decode 0x40A00010 = .ok (.addi 5 0 16) ∧ decode 0x80C50602 = .ok (.ld 6 5 0 3 2) ∧
  decode 0x04E62BC2 = .ok (.cmp 7 6 5 0 2) ∧ decode 0x60E80001 = .ok (.br 7 2 1) ∧ decode 0x70000000 = .ok .exit ∧
  decode 0x6C400002 = .ok (.loop 2 2) ∧ decode 0xA0E80004 = .ok (.send 7 8 4) ∧ decode 0xA8050048 = .ok (.yieldUntil 5) ∧
  decode 0x90A63800 = .ok (.amo 5 6 7 0 0) ∧ decode 0x98A00000 = .ok (.fence 5) ∧ decode 0xACA60008 = .ok (.hfillTry 5 6) ∧
  decode 0xB0AA0202 = .ok (.sfeed 5 10 0 2) ∧ decode 0xB5A00000 = .ok (.frd 13 0 0) ∧ decode 0xB8A63810 = .ok (.resdE1 5 6 7) ∧
  decode 0xBCA63880 = .ok (.ramo 5 6 7 0 0) ∧ decode 0xC0503FFF = .ok (.mma 5 3 15 7 31) ∧ decode 0xC8063800 = .ok (.cfgwNode 6 7) ∧
  decode 0x00002800 = .ok (.trap 5) ∧ decode 0x00A00880 = .ok (.srd 5 1) ∧ decode 0x0C620260 = .ok (.fsqrt 3 2 4 0) ∧
  decode 0x100840A0 = .ok (.vmul 0 8 8 4 0) ∧
  decode 0x70000001 = .error .field ∧ decode 0xFC000000 = .error .major ∧ decode 0x00000780 = .error .subop ∧
  decode 0x64040000 = .error .field

/-- R65, R78, R80: every instruction that has a word is the one that its word decodes to, with every operand at every value; and a word
that decodes is the word of its instruction, so no two words stand for one instruction. -/
def Obligations.RoundTrip : Prop :=
  (∀ i w, encode i = some w → decode w = .ok i) ∧ ∀ w i, decode w = .ok i → encode i = some w

/-- R65, R80, R79, R113: the step of a core runs the instruction that the word at its PC decodes to, and an illegal instruction where it
decodes to none; the step of a twig runs the word it has reached; an event and a firing's node run as themselves; with nothing
chosen a step chooses.
What a step does with nothing chosen is the model's choice (log entry 2). -/
def Obligations.StepRunsDecoded : Prop :=
  ∀ (s : State) (ms : List Move),
    (∀ g, s.moves = .run (.core g) :: ms →
      let w := BitVec.ofNat 32 (numAt s (codeBase g + (coreOf s g).pc.toNat) 4)
      (∀ i, decode w = .ok i → step s = exec i { s with moves := ms, turn := .core g }) ∧
      ∀ e, decode w = .error e → step s = exec .illegalInstruction { s with moves := ms, turn := .core g }) ∧
    (∀ c k t i, s.moves = .run (.twig c k) :: ms → (Work.of s).twigAt (.twig c k) = some t →
      decode (t.code.getD t.next 0) = .ok i → step s = exec i { s with moves := ms, turn := .twig c k }) ∧
    (∀ g k t i, s.moves = .run (.mx g k) :: ms → (Work.of s).twigAt (.mx g k) = some t →
      decode (t.code.getD t.next 0) = .ok i → step s = exec i { s with moves := ms, turn := .mx g k }) ∧
    (∀ i, s.moves = .event i :: ms → step s = exec i { s with moves := ms }) ∧
    (∀ f i n, s.moves = .fire f :: ms → (i, n) ∈ ([(.nadd, 0x01), (.ncmp, 0x0B), (.nsteer, 0x10), (.ncopy, 0x12), (.ntwig, 0x1D),
        (.nld, 0x21), (.nst, 0x22), (.djoin, 0x33)] : List (Instr × Nat)) →
      nOpc ((cellOf s f.cell).node f.node) = n → step s = exec i { s with moves := ms, fire := f }) ∧
    (s.moves = [] → step s = .next (schedule s))

/-- Every step goes on, whatever the state, and keeps memory in its canonical form.
The form of memory is the model's own (log entry 4). -/
def Obligations.StepKeepsMemory : Prop := (∀ s, Goes s) ∧ Kept MemOk

/-- R347, R163, R166, R175, R330, R340, R383, R390, R426 to R428: what the register tables give at reset: no graph, no task, empty
queues, S.CYCLE 0, REMCFG 20, 256 and 8, PCAP 3,200, S.CLKRATIO 0x8000, the colour watchdog 24, the balancer 64 and 8,192, no fault
and the next release number 1; memory lists nothing and is in its canonical form.
That memory lists nothing (log entry 4), the first release number (log entry 5) and the model's own fields (log entry 76) are the model's choice. -/
def Obligations.ResetState : Prop :=
  let s := State.reset
  MemOk s ∧ s.mem = [] ∧ s.moves = [] ∧ s.mod.cycle = 0 ∧ s.mod.remcfg = (20, 256, 8) ∧ s.mod.pcap = 3200 ∧ s.mod.clk = 0x8000 ∧
    s.mod.herr = 0 ∧ s.mod.hqHead = s.mod.hqTail ∧ s.mod.attreq = false ∧
    (∀ r, (regionOf s r).loaded = false ∧ (regionOf s r).cwdog = 24 ∧ (regionOf s r).thr = 64 ∧ (regionOf s r).bint = 8192 ∧
      (regionOf s r).faults = [] ∧ (regionOf s r).frozen = [] ∧ (regionOf s r).nextFseq = 1 ∧ (regionOf s r).tvec = 0) ∧
    (∀ g, (coreOf s g).task = none ∧ (coreOf s g).trap.intrap = false ∧ (coreOf s g).slots = []) ∧
    ∀ c, (cellOf s c).entries = [] ∧ (cellOf s c).nodes = [] ∧ (cellOf s c).twigs = [] ∧ (cellOf s c).outq = []

end
end

