-- ==== Sys2Proof/Laws/Tables.lean ====
section
/-! SUPPORT. Tables and lists: what is read after something was put, removed or set. -/

namespace Sys2Proof.Laws

variable {α : Type}

@[simp] theorem find_put_same (t : Tbl α) (k : Nat) (v : α) : Tbl.find (Tbl.put t k v) k = some v := by
  induction t with
  | nil => simp [Tbl.put, Tbl.find]
  | cons e t ih =>
    obtain ⟨j, w⟩ := e
    by_cases h : k < j
    · simp [Tbl.put, Tbl.find, h]
    · by_cases e : j = k
      · simp [Tbl.put, Tbl.find, e]
      · simp [Tbl.put, Tbl.find, h, e, ih]

theorem find_put_other (t : Tbl α) {k m : Nat} (v : α) (h : k ≠ m) : Tbl.find (Tbl.put t k v) m = Tbl.find t m := by
  induction t with
  | nil => simp [Tbl.put, Tbl.find, h]
  | cons e t ih =>
    obtain ⟨j, w⟩ := e
    by_cases l : k < j
    · simp [Tbl.put, Tbl.find, l, h]
    · by_cases e : j = k
      · subst e
        simp [Tbl.put, Tbl.find, h]
      · simp [Tbl.put, Tbl.find, l, e, ih]

@[simp] theorem put_put (t : Tbl α) (k : Nat) (a b : α) : Tbl.put (Tbl.put t k a) k b = Tbl.put t k b := by
  induction t with
  | nil => simp [Tbl.put]
  | cons e t ih =>
    obtain ⟨j, w⟩ := e
    by_cases l : k < j
    · simp [Tbl.put, l]
    · by_cases e : j = k
      · subst e
        simp [Tbl.put]
      · simp [Tbl.put, l, e, ih]

@[simp] theorem getD_put_same (t : Tbl α) (k : Nat) (v d : α) : Tbl.getD (Tbl.put t k v) k d = v := by
  simp [Tbl.getD]

theorem getD_put_other (t : Tbl α) {k m : Nat} (v d : α) (h : k ≠ m) : Tbl.getD (Tbl.put t k v) m d = Tbl.getD t m d := by
  simp [Tbl.getD, find_put_other t v h]

theorem getD_put (t : Tbl α) (k m : Nat) (v d : α) :
    Tbl.getD (Tbl.put t k v) m d = if k = m then v else Tbl.getD t m d := by
  by_cases h : k = m
  · subst h; simp
  · simp [h, getD_put_other t v d h]

theorem find_del_other (t : Tbl α) {k m : Nat} (h : k ≠ m) : Tbl.find (Tbl.del t k) m = Tbl.find t m := by
  induction t with
  | nil => rfl
  | cons e t ih =>
    obtain ⟨j, w⟩ := e
    by_cases e : j = k
    · subst e
      simp [Tbl.del, Tbl.find, h, ih]
    · simp [Tbl.del, Tbl.find, e, ih]

@[simp] theorem find_del_same (t : Tbl α) (k : Nat) : Tbl.find (Tbl.del t k) k = none := by
  induction t with
  | nil => rfl
  | cons e t ih =>
    obtain ⟨j, w⟩ := e
    by_cases e : j = k <;> simp [Tbl.del, Tbl.find, e, ih]

@[simp] theorem setAt_length (l : List α) (i : Nat) (v : α) : (setAt l i v).length = l.length := by
  induction l generalizing i with
  | nil => rfl
  | cons a t ih => cases i <;> simp [setAt, ih]

theorem setAt_getD_same (l : List α) (i : Nat) (v d : α) (h : i < l.length) : (setAt l i v).getD i d = v := by
  induction l generalizing i with
  | nil => simp at h
  | cons a t ih =>
    cases i with
    | zero => rfl
    | succ i => simpa [setAt] using ih i (by simpa using h)

theorem setAt_getD_other (l : List α) {i j : Nat} (v d : α) (h : i ≠ j) : (setAt l i v).getD j d = l.getD j d := by
  induction l generalizing i j with
  | nil => rfl
  | cons a t ih =>
    cases i with
    | zero =>
      cases j with
      | zero => exact absurd rfl h
      | succ j => rfl
    | succ i =>
      cases j with
      | zero => rfl
      | succ j => simpa [setAt] using ih (by omega : i ≠ j)

end Sys2Proof.Laws
end

