-- ==== Sys2Proof/Laws/State.lean ====
section
/-! SUPPORT. Updates of the work of a step: what each leaves of every field, and of every unit. -/

namespace Sys2Proof.Laws

open Sys2Proof.Machine

/-! ## setCore -/

@[simp] theorem setCore_cells (w : Work) (g : Nat) (c : Core) : (w.setCore g c).cells = w.cells := rfl
@[simp] theorem setCore_groves (w : Work) (g : Nat) (c : Core) : (w.setCore g c).groves = w.groves := rfl
@[simp] theorem setCore_mxs (w : Work) (g : Nat) (c : Core) : (w.setCore g c).mxs = w.mxs := rfl
@[simp] theorem setCore_regions (w : Work) (g : Nat) (c : Core) : (w.setCore g c).regions = w.regions := rfl
@[simp] theorem setCore_mod (w : Work) (g : Nat) (c : Core) : (w.setCore g c).mod = w.mod := rfl
@[simp] theorem setCore_moves (w : Work) (g : Nat) (c : Core) : (w.setCore g c).moves = w.moves := rfl
@[simp] theorem setCore_inputs (w : Work) (g : Nat) (c : Core) : (w.setCore g c).inputs = w.inputs := rfl
@[simp] theorem setCore_outbox (w : Work) (g : Nat) (c : Core) : (w.setCore g c).outbox = w.outbox := rfl
@[simp] theorem setCore_ways (w : Work) (g : Nat) (c : Core) : (w.setCore g c).ways = w.ways := rfl
@[simp] theorem setCore_tick (w : Work) (g : Nat) (c : Core) : (w.setCore g c).tick = w.tick := rfl
@[simp] theorem setCore_freeCtr (w : Work) (g : Nat) (c : Core) : (w.setCore g c).freeCtr = w.freeCtr := rfl
@[simp] theorem setCore_turn (w : Work) (g : Nat) (c : Core) : (w.setCore g c).turn = w.turn := rfl
@[simp] theorem setCore_fire (w : Work) (g : Nat) (c : Core) : (w.setCore g c).fire = w.fire := rfl
@[simp] theorem setCore_images (w : Work) (g : Nat) (c : Core) : (w.setCore g c).images = w.images := rfl
@[simp] theorem setCore_base (w : Work) (g : Nat) (c : Core) : (w.setCore g c).base = w.base := rfl
@[simp] theorem setCore_log (w : Work) (g : Nat) (c : Core) : (w.setCore g c).log = w.log := rfl
@[simp] theorem setCore_cell (w : Work) (g : Nat) (c : Core) (n' : Nat) : (w.setCore g c).cell n' = w.cell n' := rfl
@[simp] theorem setCore_grove (w : Work) (g : Nat) (c : Core) (n' : Nat) : (w.setCore g c).grove n' = w.grove n' := rfl
@[simp] theorem setCore_mx (w : Work) (g : Nat) (c : Core) (n' : Nat) : (w.setCore g c).mx n' = w.mx n' := rfl
@[simp] theorem setCore_region (w : Work) (g : Nat) (c : Core) (n' : Nat) : (w.setCore g c).region n' = w.region n' := rfl

/-! ## setCell -/

@[simp] theorem setCell_cores (w : Work) (n : Nat) (c : Cell) : (w.setCell n c).cores = w.cores := rfl
@[simp] theorem setCell_groves (w : Work) (n : Nat) (c : Cell) : (w.setCell n c).groves = w.groves := rfl
@[simp] theorem setCell_mxs (w : Work) (n : Nat) (c : Cell) : (w.setCell n c).mxs = w.mxs := rfl
@[simp] theorem setCell_regions (w : Work) (n : Nat) (c : Cell) : (w.setCell n c).regions = w.regions := rfl
@[simp] theorem setCell_mod (w : Work) (n : Nat) (c : Cell) : (w.setCell n c).mod = w.mod := rfl
@[simp] theorem setCell_moves (w : Work) (n : Nat) (c : Cell) : (w.setCell n c).moves = w.moves := rfl
@[simp] theorem setCell_inputs (w : Work) (n : Nat) (c : Cell) : (w.setCell n c).inputs = w.inputs := rfl
@[simp] theorem setCell_outbox (w : Work) (n : Nat) (c : Cell) : (w.setCell n c).outbox = w.outbox := rfl
@[simp] theorem setCell_ways (w : Work) (n : Nat) (c : Cell) : (w.setCell n c).ways = w.ways := rfl
@[simp] theorem setCell_tick (w : Work) (n : Nat) (c : Cell) : (w.setCell n c).tick = w.tick := rfl
@[simp] theorem setCell_freeCtr (w : Work) (n : Nat) (c : Cell) : (w.setCell n c).freeCtr = w.freeCtr := rfl
@[simp] theorem setCell_turn (w : Work) (n : Nat) (c : Cell) : (w.setCell n c).turn = w.turn := rfl
@[simp] theorem setCell_fire (w : Work) (n : Nat) (c : Cell) : (w.setCell n c).fire = w.fire := rfl
@[simp] theorem setCell_images (w : Work) (n : Nat) (c : Cell) : (w.setCell n c).images = w.images := rfl
@[simp] theorem setCell_base (w : Work) (n : Nat) (c : Cell) : (w.setCell n c).base = w.base := rfl
@[simp] theorem setCell_log (w : Work) (n : Nat) (c : Cell) : (w.setCell n c).log = w.log := rfl
@[simp] theorem setCell_core (w : Work) (n : Nat) (c : Cell) (n' : Nat) : (w.setCell n c).core n' = w.core n' := rfl
@[simp] theorem setCell_grove (w : Work) (n : Nat) (c : Cell) (n' : Nat) : (w.setCell n c).grove n' = w.grove n' := rfl
@[simp] theorem setCell_mx (w : Work) (n : Nat) (c : Cell) (n' : Nat) : (w.setCell n c).mx n' = w.mx n' := rfl
@[simp] theorem setCell_region (w : Work) (n : Nat) (c : Cell) (n' : Nat) : (w.setCell n c).region n' = w.region n' := rfl

/-! ## setGrove -/

@[simp] theorem setGrove_cores (w : Work) (g : Nat) (x : Grove) : (w.setGrove g x).cores = w.cores := rfl
@[simp] theorem setGrove_cells (w : Work) (g : Nat) (x : Grove) : (w.setGrove g x).cells = w.cells := rfl
@[simp] theorem setGrove_mxs (w : Work) (g : Nat) (x : Grove) : (w.setGrove g x).mxs = w.mxs := rfl
@[simp] theorem setGrove_regions (w : Work) (g : Nat) (x : Grove) : (w.setGrove g x).regions = w.regions := rfl
@[simp] theorem setGrove_mod (w : Work) (g : Nat) (x : Grove) : (w.setGrove g x).mod = w.mod := rfl
@[simp] theorem setGrove_moves (w : Work) (g : Nat) (x : Grove) : (w.setGrove g x).moves = w.moves := rfl
@[simp] theorem setGrove_inputs (w : Work) (g : Nat) (x : Grove) : (w.setGrove g x).inputs = w.inputs := rfl
@[simp] theorem setGrove_outbox (w : Work) (g : Nat) (x : Grove) : (w.setGrove g x).outbox = w.outbox := rfl
@[simp] theorem setGrove_ways (w : Work) (g : Nat) (x : Grove) : (w.setGrove g x).ways = w.ways := rfl
@[simp] theorem setGrove_tick (w : Work) (g : Nat) (x : Grove) : (w.setGrove g x).tick = w.tick := rfl
@[simp] theorem setGrove_freeCtr (w : Work) (g : Nat) (x : Grove) : (w.setGrove g x).freeCtr = w.freeCtr := rfl
@[simp] theorem setGrove_turn (w : Work) (g : Nat) (x : Grove) : (w.setGrove g x).turn = w.turn := rfl
@[simp] theorem setGrove_fire (w : Work) (g : Nat) (x : Grove) : (w.setGrove g x).fire = w.fire := rfl
@[simp] theorem setGrove_images (w : Work) (g : Nat) (x : Grove) : (w.setGrove g x).images = w.images := rfl
@[simp] theorem setGrove_base (w : Work) (g : Nat) (x : Grove) : (w.setGrove g x).base = w.base := rfl
@[simp] theorem setGrove_log (w : Work) (g : Nat) (x : Grove) : (w.setGrove g x).log = w.log := rfl
@[simp] theorem setGrove_core (w : Work) (g : Nat) (x : Grove) (n' : Nat) : (w.setGrove g x).core n' = w.core n' := rfl
@[simp] theorem setGrove_cell (w : Work) (g : Nat) (x : Grove) (n' : Nat) : (w.setGrove g x).cell n' = w.cell n' := rfl
@[simp] theorem setGrove_mx (w : Work) (g : Nat) (x : Grove) (n' : Nat) : (w.setGrove g x).mx n' = w.mx n' := rfl
@[simp] theorem setGrove_region (w : Work) (g : Nat) (x : Grove) (n' : Nat) : (w.setGrove g x).region n' = w.region n' := rfl

/-! ## setMx -/

@[simp] theorem setMx_cores (w : Work) (g : Nat) (x : Mx) : (w.setMx g x).cores = w.cores := rfl
@[simp] theorem setMx_cells (w : Work) (g : Nat) (x : Mx) : (w.setMx g x).cells = w.cells := rfl
@[simp] theorem setMx_groves (w : Work) (g : Nat) (x : Mx) : (w.setMx g x).groves = w.groves := rfl
@[simp] theorem setMx_regions (w : Work) (g : Nat) (x : Mx) : (w.setMx g x).regions = w.regions := rfl
@[simp] theorem setMx_mod (w : Work) (g : Nat) (x : Mx) : (w.setMx g x).mod = w.mod := rfl
@[simp] theorem setMx_moves (w : Work) (g : Nat) (x : Mx) : (w.setMx g x).moves = w.moves := rfl
@[simp] theorem setMx_inputs (w : Work) (g : Nat) (x : Mx) : (w.setMx g x).inputs = w.inputs := rfl
@[simp] theorem setMx_outbox (w : Work) (g : Nat) (x : Mx) : (w.setMx g x).outbox = w.outbox := rfl
@[simp] theorem setMx_ways (w : Work) (g : Nat) (x : Mx) : (w.setMx g x).ways = w.ways := rfl
@[simp] theorem setMx_tick (w : Work) (g : Nat) (x : Mx) : (w.setMx g x).tick = w.tick := rfl
@[simp] theorem setMx_freeCtr (w : Work) (g : Nat) (x : Mx) : (w.setMx g x).freeCtr = w.freeCtr := rfl
@[simp] theorem setMx_turn (w : Work) (g : Nat) (x : Mx) : (w.setMx g x).turn = w.turn := rfl
@[simp] theorem setMx_fire (w : Work) (g : Nat) (x : Mx) : (w.setMx g x).fire = w.fire := rfl
@[simp] theorem setMx_images (w : Work) (g : Nat) (x : Mx) : (w.setMx g x).images = w.images := rfl
@[simp] theorem setMx_base (w : Work) (g : Nat) (x : Mx) : (w.setMx g x).base = w.base := rfl
@[simp] theorem setMx_log (w : Work) (g : Nat) (x : Mx) : (w.setMx g x).log = w.log := rfl
@[simp] theorem setMx_core (w : Work) (g : Nat) (x : Mx) (n' : Nat) : (w.setMx g x).core n' = w.core n' := rfl
@[simp] theorem setMx_cell (w : Work) (g : Nat) (x : Mx) (n' : Nat) : (w.setMx g x).cell n' = w.cell n' := rfl
@[simp] theorem setMx_grove (w : Work) (g : Nat) (x : Mx) (n' : Nat) : (w.setMx g x).grove n' = w.grove n' := rfl
@[simp] theorem setMx_region (w : Work) (g : Nat) (x : Mx) (n' : Nat) : (w.setMx g x).region n' = w.region n' := rfl

/-! ## setRegion -/

@[simp] theorem setRegion_cores (w : Work) (r : Nat) (x : Region) : (w.setRegion r x).cores = w.cores := rfl
@[simp] theorem setRegion_cells (w : Work) (r : Nat) (x : Region) : (w.setRegion r x).cells = w.cells := rfl
@[simp] theorem setRegion_groves (w : Work) (r : Nat) (x : Region) : (w.setRegion r x).groves = w.groves := rfl
@[simp] theorem setRegion_mxs (w : Work) (r : Nat) (x : Region) : (w.setRegion r x).mxs = w.mxs := rfl
@[simp] theorem setRegion_mod (w : Work) (r : Nat) (x : Region) : (w.setRegion r x).mod = w.mod := rfl
@[simp] theorem setRegion_moves (w : Work) (r : Nat) (x : Region) : (w.setRegion r x).moves = w.moves := rfl
@[simp] theorem setRegion_inputs (w : Work) (r : Nat) (x : Region) : (w.setRegion r x).inputs = w.inputs := rfl
@[simp] theorem setRegion_outbox (w : Work) (r : Nat) (x : Region) : (w.setRegion r x).outbox = w.outbox := rfl
@[simp] theorem setRegion_ways (w : Work) (r : Nat) (x : Region) : (w.setRegion r x).ways = w.ways := rfl
@[simp] theorem setRegion_tick (w : Work) (r : Nat) (x : Region) : (w.setRegion r x).tick = w.tick := rfl
@[simp] theorem setRegion_freeCtr (w : Work) (r : Nat) (x : Region) : (w.setRegion r x).freeCtr = w.freeCtr := rfl
@[simp] theorem setRegion_turn (w : Work) (r : Nat) (x : Region) : (w.setRegion r x).turn = w.turn := rfl
@[simp] theorem setRegion_fire (w : Work) (r : Nat) (x : Region) : (w.setRegion r x).fire = w.fire := rfl
@[simp] theorem setRegion_images (w : Work) (r : Nat) (x : Region) : (w.setRegion r x).images = w.images := rfl
@[simp] theorem setRegion_base (w : Work) (r : Nat) (x : Region) : (w.setRegion r x).base = w.base := rfl
@[simp] theorem setRegion_log (w : Work) (r : Nat) (x : Region) : (w.setRegion r x).log = w.log := rfl
@[simp] theorem setRegion_core (w : Work) (r : Nat) (x : Region) (n' : Nat) : (w.setRegion r x).core n' = w.core n' := rfl
@[simp] theorem setRegion_cell (w : Work) (r : Nat) (x : Region) (n' : Nat) : (w.setRegion r x).cell n' = w.cell n' := rfl
@[simp] theorem setRegion_grove (w : Work) (r : Nat) (x : Region) (n' : Nat) : (w.setRegion r x).grove n' = w.grove n' := rfl
@[simp] theorem setRegion_mx (w : Work) (r : Nat) (x : Region) (n' : Nat) : (w.setRegion r x).mx n' = w.mx n' := rfl

/-! ## updMod -/

@[simp] theorem updMod_cores (w : Work) (f : Mod → Mod) : (w.updMod f).cores = w.cores := rfl
@[simp] theorem updMod_cells (w : Work) (f : Mod → Mod) : (w.updMod f).cells = w.cells := rfl
@[simp] theorem updMod_groves (w : Work) (f : Mod → Mod) : (w.updMod f).groves = w.groves := rfl
@[simp] theorem updMod_mxs (w : Work) (f : Mod → Mod) : (w.updMod f).mxs = w.mxs := rfl
@[simp] theorem updMod_regions (w : Work) (f : Mod → Mod) : (w.updMod f).regions = w.regions := rfl
@[simp] theorem updMod_moves (w : Work) (f : Mod → Mod) : (w.updMod f).moves = w.moves := rfl
@[simp] theorem updMod_inputs (w : Work) (f : Mod → Mod) : (w.updMod f).inputs = w.inputs := rfl
@[simp] theorem updMod_outbox (w : Work) (f : Mod → Mod) : (w.updMod f).outbox = w.outbox := rfl
@[simp] theorem updMod_ways (w : Work) (f : Mod → Mod) : (w.updMod f).ways = w.ways := rfl
@[simp] theorem updMod_tick (w : Work) (f : Mod → Mod) : (w.updMod f).tick = w.tick := rfl
@[simp] theorem updMod_freeCtr (w : Work) (f : Mod → Mod) : (w.updMod f).freeCtr = w.freeCtr := rfl
@[simp] theorem updMod_turn (w : Work) (f : Mod → Mod) : (w.updMod f).turn = w.turn := rfl
@[simp] theorem updMod_fire (w : Work) (f : Mod → Mod) : (w.updMod f).fire = w.fire := rfl
@[simp] theorem updMod_images (w : Work) (f : Mod → Mod) : (w.updMod f).images = w.images := rfl
@[simp] theorem updMod_base (w : Work) (f : Mod → Mod) : (w.updMod f).base = w.base := rfl
@[simp] theorem updMod_log (w : Work) (f : Mod → Mod) : (w.updMod f).log = w.log := rfl
@[simp] theorem updMod_core (w : Work) (f : Mod → Mod) (n' : Nat) : (w.updMod f).core n' = w.core n' := rfl
@[simp] theorem updMod_cell (w : Work) (f : Mod → Mod) (n' : Nat) : (w.updMod f).cell n' = w.cell n' := rfl
@[simp] theorem updMod_grove (w : Work) (f : Mod → Mod) (n' : Nat) : (w.updMod f).grove n' = w.grove n' := rfl
@[simp] theorem updMod_mx (w : Work) (f : Mod → Mod) (n' : Nat) : (w.updMod f).mx n' = w.mx n' := rfl
@[simp] theorem updMod_region (w : Work) (f : Mod → Mod) (n' : Nat) : (w.updMod f).region n' = w.region n' := rfl

/-! ## store -/

@[simp] theorem store_cores (w : Work) (a : Nat) (bs : List Byte) : (w.store a bs).cores = w.cores := rfl
@[simp] theorem store_cells (w : Work) (a : Nat) (bs : List Byte) : (w.store a bs).cells = w.cells := rfl
@[simp] theorem store_groves (w : Work) (a : Nat) (bs : List Byte) : (w.store a bs).groves = w.groves := rfl
@[simp] theorem store_mxs (w : Work) (a : Nat) (bs : List Byte) : (w.store a bs).mxs = w.mxs := rfl
@[simp] theorem store_regions (w : Work) (a : Nat) (bs : List Byte) : (w.store a bs).regions = w.regions := rfl
@[simp] theorem store_mod (w : Work) (a : Nat) (bs : List Byte) : (w.store a bs).mod = w.mod := rfl
@[simp] theorem store_moves (w : Work) (a : Nat) (bs : List Byte) : (w.store a bs).moves = w.moves := rfl
@[simp] theorem store_inputs (w : Work) (a : Nat) (bs : List Byte) : (w.store a bs).inputs = w.inputs := rfl
@[simp] theorem store_outbox (w : Work) (a : Nat) (bs : List Byte) : (w.store a bs).outbox = w.outbox := rfl
@[simp] theorem store_ways (w : Work) (a : Nat) (bs : List Byte) : (w.store a bs).ways = w.ways := rfl
@[simp] theorem store_tick (w : Work) (a : Nat) (bs : List Byte) : (w.store a bs).tick = w.tick := rfl
@[simp] theorem store_freeCtr (w : Work) (a : Nat) (bs : List Byte) : (w.store a bs).freeCtr = w.freeCtr := rfl
@[simp] theorem store_turn (w : Work) (a : Nat) (bs : List Byte) : (w.store a bs).turn = w.turn := rfl
@[simp] theorem store_fire (w : Work) (a : Nat) (bs : List Byte) : (w.store a bs).fire = w.fire := rfl
@[simp] theorem store_images (w : Work) (a : Nat) (bs : List Byte) : (w.store a bs).images = w.images := rfl
@[simp] theorem store_base (w : Work) (a : Nat) (bs : List Byte) : (w.store a bs).base = w.base := rfl
@[simp] theorem store_core (w : Work) (a : Nat) (bs : List Byte) (n' : Nat) : (w.store a bs).core n' = w.core n' := rfl
@[simp] theorem store_cell (w : Work) (a : Nat) (bs : List Byte) (n' : Nat) : (w.store a bs).cell n' = w.cell n' := rfl
@[simp] theorem store_grove (w : Work) (a : Nat) (bs : List Byte) (n' : Nat) : (w.store a bs).grove n' = w.grove n' := rfl
@[simp] theorem store_mx (w : Work) (a : Nat) (bs : List Byte) (n' : Nat) : (w.store a bs).mx n' = w.mx n' := rfl
@[simp] theorem store_region (w : Work) (a : Nat) (bs : List Byte) (n' : Nat) : (w.store a bs).region n' = w.region n' := rfl

/-! ## The region of a grove -/

@[simp] theorem setCore_rno (w : Work) (g : Nat) (c : Core) (k : Nat) : (w.setCore g c).rno k = w.rno k := rfl
@[simp] theorem setCore_regOf (w : Work) (g : Nat) (c : Core) (k : Nat) : (w.setCore g c).regOf k = w.regOf k := rfl
@[simp] theorem setCell_rno (w : Work) (n : Nat) (c : Cell) (k : Nat) : (w.setCell n c).rno k = w.rno k := rfl
@[simp] theorem setCell_regOf (w : Work) (n : Nat) (c : Cell) (k : Nat) : (w.setCell n c).regOf k = w.regOf k := rfl
@[simp] theorem setMx_rno (w : Work) (g : Nat) (x : Mx) (k : Nat) : (w.setMx g x).rno k = w.rno k := rfl
@[simp] theorem setMx_regOf (w : Work) (g : Nat) (x : Mx) (k : Nat) : (w.setMx g x).regOf k = w.regOf k := rfl
@[simp] theorem updMod_rno (w : Work) (f : Mod → Mod) (k : Nat) : (w.updMod f).rno k = w.rno k := rfl
@[simp] theorem updMod_regOf (w : Work) (f : Mod → Mod) (k : Nat) : (w.updMod f).regOf k = w.regOf k := rfl
@[simp] theorem store_rno (w : Work) (a : Nat) (bs : List Byte) (k : Nat) : (w.store a bs).rno k = w.rno k := rfl
@[simp] theorem store_regOf (w : Work) (a : Nat) (bs : List Byte) (k : Nat) : (w.store a bs).regOf k = w.regOf k := rfl

/-! ## A unit read after it was replaced -/

@[simp] theorem setCore_same (w : Work) (k : Nat) (x : Core) : (w.setCore k x).core k = x := by
  simp [Work.setCore, Work.core]

theorem setCore_other (w : Work) {k m : Nat} (x : Core) (h : k ≠ m) : (w.setCore k x).core m = w.core m := by
  simp [Work.setCore, Work.core, getD_put_other _ _ _ h]

@[simp] theorem setCore_twice (w : Work) (k : Nat) (x y : Core) : (w.setCore k x).setCore k y = w.setCore k y := by
  simp [Work.setCore]

@[simp] theorem setCell_same (w : Work) (k : Nat) (x : Cell) : (w.setCell k x).cell k = x := by
  simp [Work.setCell, Work.cell]

theorem setCell_other (w : Work) {k m : Nat} (x : Cell) (h : k ≠ m) : (w.setCell k x).cell m = w.cell m := by
  simp [Work.setCell, Work.cell, getD_put_other _ _ _ h]

@[simp] theorem setCell_twice (w : Work) (k : Nat) (x y : Cell) : (w.setCell k x).setCell k y = w.setCell k y := by
  simp [Work.setCell]

@[simp] theorem setGrove_same (w : Work) (k : Nat) (x : Grove) : (w.setGrove k x).grove k = x := by
  simp [Work.setGrove, Work.grove]

theorem setGrove_other (w : Work) {k m : Nat} (x : Grove) (h : k ≠ m) : (w.setGrove k x).grove m = w.grove m := by
  simp [Work.setGrove, Work.grove, getD_put_other _ _ _ h]

@[simp] theorem setGrove_twice (w : Work) (k : Nat) (x y : Grove) : (w.setGrove k x).setGrove k y = w.setGrove k y := by
  simp [Work.setGrove]

@[simp] theorem setMx_same (w : Work) (k : Nat) (x : Mx) : (w.setMx k x).mx k = x := by
  simp [Work.setMx, Work.mx]

theorem setMx_other (w : Work) {k m : Nat} (x : Mx) (h : k ≠ m) : (w.setMx k x).mx m = w.mx m := by
  simp [Work.setMx, Work.mx, getD_put_other _ _ _ h]

@[simp] theorem setMx_twice (w : Work) (k : Nat) (x y : Mx) : (w.setMx k x).setMx k y = w.setMx k y := by
  simp [Work.setMx]

@[simp] theorem setRegion_same (w : Work) (k : Nat) (x : Region) : (w.setRegion k x).region k = x := by
  simp [Work.setRegion, Work.region]

theorem setRegion_other (w : Work) {k m : Nat} (x : Region) (h : k ≠ m) : (w.setRegion k x).region m = w.region m := by
  simp [Work.setRegion, Work.region, getD_put_other _ _ _ h]

@[simp] theorem setRegion_twice (w : Work) (k : Nat) (x y : Region) : (w.setRegion k x).setRegion k y = w.setRegion k y := by
  simp [Work.setRegion]

@[simp] theorem updMod_mod (w : Work) (f : Mod → Mod) : (w.updMod f).mod = f w.mod := rfl

/-! ## Changes are replacements -/

@[simp] theorem updCore_eq (w : Work) (k : Nat) (f : Core → Core) : w.updCore k f = w.setCore k (f (w.core k)) := rfl
@[simp] theorem updCell_eq (w : Work) (k : Nat) (f : Cell → Cell) : w.updCell k f = w.setCell k (f (w.cell k)) := rfl
@[simp] theorem updGrove_eq (w : Work) (k : Nat) (f : Grove → Grove) : w.updGrove k f = w.setGrove k (f (w.grove k)) := rfl
@[simp] theorem updMx_eq (w : Work) (k : Nat) (f : Mx → Mx) : w.updMx k f = w.setMx k (f (w.mx k)) := rfl
@[simp] theorem updRegion_eq (w : Work) (k : Nat) (f : Region → Region) : w.updRegion k f = w.setRegion k (f (w.region k)) := rfl

/-! ## The work of a step and the state it leaves -/

@[simp] theorem of_cores (s : State) : (Work.of s).cores = s.cores := rfl
@[simp] theorem finish_cores (s : State) (w : Work) : (s.finish w).cores = w.cores := rfl
@[simp] theorem of_cells (s : State) : (Work.of s).cells = s.cells := rfl
@[simp] theorem finish_cells (s : State) (w : Work) : (s.finish w).cells = w.cells := rfl
@[simp] theorem of_groves (s : State) : (Work.of s).groves = s.groves := rfl
@[simp] theorem finish_groves (s : State) (w : Work) : (s.finish w).groves = w.groves := rfl
@[simp] theorem of_mxs (s : State) : (Work.of s).mxs = s.mxs := rfl
@[simp] theorem finish_mxs (s : State) (w : Work) : (s.finish w).mxs = w.mxs := rfl
@[simp] theorem of_regions (s : State) : (Work.of s).regions = s.regions := rfl
@[simp] theorem finish_regions (s : State) (w : Work) : (s.finish w).regions = w.regions := rfl
@[simp] theorem of_mod (s : State) : (Work.of s).mod = s.mod := rfl
@[simp] theorem finish_mod (s : State) (w : Work) : (s.finish w).mod = w.mod := rfl
@[simp] theorem of_moves (s : State) : (Work.of s).moves = s.moves := rfl
@[simp] theorem finish_moves (s : State) (w : Work) : (s.finish w).moves = w.moves := rfl
@[simp] theorem of_inputs (s : State) : (Work.of s).inputs = s.inputs := rfl
@[simp] theorem finish_inputs (s : State) (w : Work) : (s.finish w).inputs = w.inputs := rfl
@[simp] theorem of_outbox (s : State) : (Work.of s).outbox = s.outbox := rfl
@[simp] theorem of_ways (s : State) : (Work.of s).ways = s.ways := rfl
@[simp] theorem finish_outbox (s : State) (w : Work) : (s.finish w).outbox = w.outbox := rfl
@[simp] theorem finish_ways (s : State) (w : Work) : (s.finish w).ways = w.ways := rfl
@[simp] theorem of_tick (s : State) : (Work.of s).tick = s.tick := rfl
@[simp] theorem finish_tick (s : State) (w : Work) : (s.finish w).tick = w.tick := rfl
@[simp] theorem of_freeCtr (s : State) : (Work.of s).freeCtr = s.freeCtr := rfl
@[simp] theorem finish_freeCtr (s : State) (w : Work) : (s.finish w).freeCtr = w.freeCtr := rfl
@[simp] theorem of_turn (s : State) : (Work.of s).turn = s.turn := rfl
@[simp] theorem finish_turn (s : State) (w : Work) : (s.finish w).turn = w.turn := rfl
@[simp] theorem of_fire (s : State) : (Work.of s).fire = s.fire := rfl
@[simp] theorem finish_fire (s : State) (w : Work) : (s.finish w).fire = w.fire := rfl
@[simp] theorem of_images (s : State) : (Work.of s).images = s.images := rfl
@[simp] theorem finish_images (s : State) (w : Work) : (s.finish w).images = w.images := rfl
@[simp] theorem of_base (s : State) : (Work.of s).base = s.mem := rfl
@[simp] theorem of_log (s : State) : (Work.of s).log = [] := rfl
@[simp] theorem finish_mem (s : State) (w : Work) : (s.finish w).mem = s.mem.write w.log := rfl
@[simp] theorem finish_of (s : State) : s.finish (Work.of s) = s := rfl

/-! ## Messages that leave -/

@[simp] theorem sendOut_outbox (w : Work) (x : Msg) : (w.sendOut x).outbox = w.outbox ++ [x] := rfl
@[simp] theorem sendOut_ways (w : Work) (x : Msg) : (w.sendOut x).ways = w.ways := rfl
@[simp] theorem sendOut_log (w : Work) (x : Msg) : (w.sendOut x).log = w.log := rfl
@[simp] theorem sendOut_mod (w : Work) (x : Msg) : (w.sendOut x).mod = w.mod := rfl
@[simp] theorem sendBy_outbox (w : Work) (x : Msg) (p h : Nat) : (w.sendBy x p h).outbox = w.outbox ++ [x] := rfl
@[simp] theorem sendBy_ways (w : Work) (x : Msg) (p h : Nat) : (w.sendBy x p h).ways = w.ways ++ [(p, h)] := rfl
@[simp] theorem sendBy_log (w : Work) (x : Msg) (p h : Nat) : (w.sendBy x p h).log = w.log := rfl
@[simp] theorem sendBy_mod (w : Work) (x : Msg) (p h : Nat) : (w.sendBy x p h).mod = w.mod := rfl

/-! ## Registers of a task core -/

@[simp] theorem reg_zero (c : Core) : c.reg 0#5 = 0 := by simp [Core.reg]

@[simp] theorem setReg_zero (c : Core) (v : Word) : c.setReg 0#5 v = c := by simp [Core.setReg]

theorem setReg_same (c : Core) (d : BitVec 5) (v : Word) (h : d ≠ 0) (n : 32 ≤ c.regs.length) : (c.setReg d v).reg d = v := by
  simp only [Core.setReg, Core.reg, h, if_false]
  exact setAt_getD_same _ _ _ _ (by have := d.isLt; omega)

theorem setReg_other (c : Core) (d r : BitVec 5) (v : Word) (h : d ≠ r) : (c.setReg d v).reg r = c.reg r := by
  by_cases e : d = 0
  · simp [e]
  · by_cases z : r = 0
    · simp [z]
    · simp only [Core.setReg, Core.reg, e, z, if_false]
      exact setAt_getD_other _ _ _ fun k => h (BitVec.eq_of_toNat_eq k)

@[simp] theorem setReg_pc (c : Core) (d : BitVec 5) (v : Word) : (c.setReg d v).pc = c.pc := by
  unfold Core.setReg; split <;> rfl
@[simp] theorem setReg_loopActive (c : Core) (d : BitVec 5) (v : Word) : (c.setReg d v).loopActive = c.loopActive := by
  unfold Core.setReg; split <;> rfl
@[simp] theorem setReg_bodyStart (c : Core) (d : BitVec 5) (v : Word) : (c.setReg d v).bodyStart = c.bodyStart := by
  unfold Core.setReg; split <;> rfl
@[simp] theorem setReg_bodyEnd (c : Core) (d : BitVec 5) (v : Word) : (c.setReg d v).bodyEnd = c.bodyEnd := by
  unfold Core.setReg; split <;> rfl
@[simp] theorem setReg_loopcnt (c : Core) (d : BitVec 5) (v : Word) : (c.setReg d v).loopcnt = c.loopcnt := by
  unfold Core.setReg; split <;> rfl
@[simp] theorem setReg_trap (c : Core) (d : BitVec 5) (v : Word) : (c.setReg d v).trap = c.trap := by
  unfold Core.setReg; split <;> rfl
@[simp] theorem setReg_scratch (c : Core) (d : BitVec 5) (v : Word) : (c.setReg d v).scratch = c.scratch := by
  unfold Core.setReg; split <;> rfl
@[simp] theorem setReg_asid (c : Core) (d : BitVec 5) (v : Word) : (c.setReg d v).asid = c.asid := by
  unfold Core.setReg; split <;> rfl
@[simp] theorem setReg_task (c : Core) (d : BitVec 5) (v : Word) : (c.setReg d v).task = c.task := by
  unfold Core.setReg; split <;> rfl
@[simp] theorem setReg_halted (c : Core) (d : BitVec 5) (v : Word) : (c.setReg d v).halted = c.halted := by
  unfold Core.setReg; split <;> rfl
@[simp] theorem setReg_halting (c : Core) (d : BitVec 5) (v : Word) : (c.setReg d v).halting = c.halting := by
  unfold Core.setReg; split <;> rfl
@[simp] theorem setReg_issued (c : Core) (d : BitVec 5) (v : Word) : (c.setReg d v).issued = c.issued := by
  unfold Core.setReg; split <;> rfl
@[simp] theorem setReg_stall (c : Core) (d : BitVec 5) (v : Word) : (c.setReg d v).stall = c.stall := by
  unfold Core.setReg; split <;> rfl
@[simp] theorem setReg_slots (c : Core) (d : BitVec 5) (v : Word) : (c.setReg d v).slots = c.slots := by
  unfold Core.setReg; split <;> rfl
@[simp] theorem setReg_suspOrder (c : Core) (d : BitVec 5) (v : Word) : (c.setReg d v).suspOrder = c.suspOrder := by
  unfold Core.setReg; split <;> rfl
@[simp] theorem setReg_susp (c : Core) (d : BitVec 5) (v : Word) : (c.setReg d v).susp = c.susp := by
  unfold Core.setReg; split <;> rfl
@[simp] theorem setReg_mail (c : Core) (d : BitVec 5) (v : Word) : (c.setReg d v).mail = c.mail := by
  unfold Core.setReg; split <;> rfl
@[simp] theorem setReg_mailHeld (c : Core) (d : BitVec 5) (v : Word) : (c.setReg d v).mailHeld = c.mailHeld := by
  unfold Core.setReg; split <;> rfl
@[simp] theorem setReg_portWait (c : Core) (d : BitVec 5) (v : Word) : (c.setReg d v).portWait = c.portWait := by
  unfold Core.setReg; split <;> rfl
@[simp] theorem setReg_inbound (c : Core) (d : BitVec 5) (v : Word) : (c.setReg d v).inbound = c.inbound := by
  unfold Core.setReg; split <;> rfl
@[simp] theorem setReg_runQ (c : Core) (d : BitVec 5) (v : Word) : (c.setReg d v).runQ = c.runQ := by
  unfold Core.setReg; split <;> rfl
@[simp] theorem setReg_ptime (c : Core) (d : BitVec 5) (v : Word) : (c.setReg d v).ptime = c.ptime := by
  unfold Core.setReg; split <;> rfl
@[simp] theorem setReg_l1 (c : Core) (d : BitVec 5) (v : Word) : (c.setReg d v).l1 = c.l1 := by
  unfold Core.setReg; split <;> rfl
@[simp] theorem setReg_tlb (c : Core) (d : BitVec 5) (v : Word) : (c.setReg d v).tlb = c.tlb := by
  unfold Core.setReg; split <;> rfl
@[simp] theorem setReg_lost (c : Core) (d : BitVec 5) (v : Word) : (c.setReg d v).lost = c.lost := by
  unfold Core.setReg; split <;> rfl
@[simp] theorem setReg_plmask (c : Core) (d : BitVec 5) (v : Word) : (c.setReg d v).plmask = c.plmask := by
  unfold Core.setReg; split <;> rfl
@[simp] theorem setReg_rldOut (c : Core) (d : BitVec 5) (v : Word) : (c.setReg d v).rldOut = c.rldOut := by
  unfold Core.setReg; split <;> rfl
@[simp] theorem setReg_rldLost (c : Core) (d : BitVec 5) (v : Word) : (c.setReg d v).rldLost = c.rldLost := by
  unfold Core.setReg; split <;> rfl
@[simp] theorem setReg_rldErr (c : Core) (d : BitVec 5) (v : Word) : (c.setReg d v).rldErr = c.rldErr := by
  unfold Core.setReg; split <;> rfl
@[simp] theorem setReg_fcopies (c : Core) (d : BitVec 5) (v : Word) : (c.setReg d v).fcopies = c.fcopies := by
  unfold Core.setReg; split <;> rfl
@[simp] theorem setReg_kept (c : Core) (d : BitVec 5) (v : Word) : (c.setReg d v).kept = c.kept := by
  unfold Core.setReg; split <;> rfl
@[simp] theorem setReg_opens (c : Core) (d : BitVec 5) (v : Word) : (c.setReg d v).opens = c.opens := by
  unfold Core.setReg; split <;> rfl

end Sys2Proof.Laws
end

