-- ==== Sys2Proof/Laws/Access.lean ====
section
/-! SUPPORT. What an access by address can do: translations, the walk, logical times and the bytes it moves. An access
changes translation buffers, an L1, program times, the module's times, walks and counters, and logged bytes, and nothing else. -/

namespace Sys2Proof.Laws

open Sys2Proof.Machine

/-- What an access leaves as it is: cells, regions, matrix elements, moves, events, messages, images, counters of the model,
and every field of a task core but its buffer, its L1 and its program time. -/
structure Keeps (w v : Work) : Prop where
  cells : v.cells = w.cells
  regions : v.regions = w.regions
  mxs : v.mxs = w.mxs
  moves : v.moves = w.moves
  inputs : v.inputs = w.inputs
  outbox : v.outbox = w.outbox
  ways : v.ways = w.ways
  images : v.images = w.images
  tick : v.tick = w.tick
  freeCtr : v.freeCtr = w.freeCtr
  turn : v.turn = w.turn
  fire : v.fire = w.fire
  base : v.base = w.base
  cores : ∀ g, ∃ tlb l1 p, v.core g = { w.core g with tlb := tlb, l1 := l1, ptime := p }
  groves : ∀ g, ∃ tlb cs, v.grove g = { w.grove g with tlb := tlb, counters := cs }
  mods : ∃ lt ht mt pt wq wf wk mg, v.mod = { w.mod with
    lineTimes := lt
    homeTimes := ht
    maxTime := mt
    ptimes := pt
    walkQ := wq
    walkFaults := wf
    walks := wk
    merged := mg }

theorem Keeps.refl (w : Work) : Keeps w w :=
  ⟨rfl, rfl, rfl, rfl, rfl, rfl, rfl, rfl, rfl, rfl, rfl, rfl, rfl, fun _ => ⟨_, _, _, rfl⟩, fun _ => ⟨_, _, rfl⟩,
    ⟨_, _, _, _, _, _, _, _, rfl⟩⟩

theorem Keeps.trans {a b c : Work} (h : Keeps a b) (k : Keeps b c) : Keeps a c where
  cells := k.cells.trans h.cells
  regions := k.regions.trans h.regions
  mxs := k.mxs.trans h.mxs
  moves := k.moves.trans h.moves
  inputs := k.inputs.trans h.inputs
  outbox := k.outbox.trans h.outbox
  ways := k.ways.trans h.ways
  images := k.images.trans h.images
  tick := k.tick.trans h.tick
  freeCtr := k.freeCtr.trans h.freeCtr
  turn := k.turn.trans h.turn
  fire := k.fire.trans h.fire
  base := k.base.trans h.base
  cores g := by
    obtain ⟨t1, l1, p1, e1⟩ := h.cores g
    obtain ⟨t2, l2, p2, e2⟩ := k.cores g
    exact ⟨t2, l2, p2, by rw [e2, e1]⟩
  groves g := by
    obtain ⟨t1, c1, e1⟩ := h.groves g
    obtain ⟨t2, c2, e2⟩ := k.groves g
    exact ⟨t2, c2, by rw [e2, e1]⟩
  mods := by
    obtain ⟨_, _, _, _, _, _, _, _, e1⟩ := h.mods
    obtain ⟨_, _, _, _, _, _, _, _, e2⟩ := k.mods
    exact ⟨_, _, _, _, _, _, _, _, by rw [e2, e1]⟩

theorem core_setCore (w : Work) (g k : Nat) (c : Core) : (w.setCore g c).core k = if g = k then c else w.core k := by
  by_cases h : g = k
  · subst h; simp
  · simp [h, setCore_other w c h]

theorem grove_setGrove (w : Work) (g k : Nat) (x : Grove) : (w.setGrove g x).grove k = if g = k then x else w.grove k := by
  by_cases h : g = k
  · subst h; simp
  · simp [h, setGrove_other w x h]

/-- A core's buffer, L1 and program time may change. -/
theorem keeps_setCore (w : Work) (g : Nat) (t : List Xlat) (l : List L1Line) (p : Nat) :
    Keeps w (w.setCore g { w.core g with tlb := t, l1 := l, ptime := p }) where
  cells := rfl
  regions := rfl
  mxs := rfl
  moves := rfl
  inputs := rfl
  outbox := rfl
  ways := rfl
  images := rfl
  tick := rfl
  freeCtr := rfl
  turn := rfl
  fire := rfl
  base := rfl
  cores k := by
    rw [core_setCore]
    split
    · rename_i e; subst e; exact ⟨_, _, _, rfl⟩
    · exact ⟨_, _, _, rfl⟩
  groves _ := ⟨_, _, rfl⟩
  mods := ⟨_, _, _, _, _, _, _, _, rfl⟩

/-- A grove's buffer and counters may change. -/
theorem keeps_setGrove (w : Work) (g : Nat) (t : List Xlat) (c : List Nat) :
    Keeps w (w.setGrove g { w.grove g with tlb := t, counters := c }) where
  cells := rfl
  regions := rfl
  mxs := rfl
  moves := rfl
  inputs := rfl
  outbox := rfl
  ways := rfl
  images := rfl
  tick := rfl
  freeCtr := rfl
  turn := rfl
  fire := rfl
  base := rfl
  cores _ := ⟨_, _, _, rfl⟩
  groves k := by
    rw [grove_setGrove]
    split
    · rename_i e; subst e; exact ⟨_, _, rfl⟩
    · exact ⟨_, _, rfl⟩
  mods := ⟨_, _, _, _, _, _, _, _, rfl⟩

/-- The module's times and walks may change. -/
theorem keeps_updMod (w : Work) (f : Mod → Mod)
    (h : ∀ m, ∃ lt ht mt pt wq wf wk mg, f m = { m with
      lineTimes := lt
      homeTimes := ht
      maxTime := mt
      ptimes := pt
      walkQ := wq
      walkFaults := wf
      walks := wk
      merged := mg }) : Keeps w (w.updMod f) where
  cells := rfl
  regions := rfl
  mxs := rfl
  moves := rfl
  inputs := rfl
  outbox := rfl
  ways := rfl
  images := rfl
  tick := rfl
  freeCtr := rfl
  turn := rfl
  fire := rfl
  base := rfl
  cores _ := ⟨_, _, _, rfl⟩
  groves _ := ⟨_, _, rfl⟩
  mods := h _

/-- Bytes may be written. -/
theorem keeps_store (w : Work) (a : Nat) (bs : List Byte) : Keeps w (w.store a bs) :=
  ⟨rfl, rfl, rfl, rfl, rfl, rfl, rfl, rfl, rfl, rfl, rfl, rfl, rfl, fun _ => ⟨_, _, _, rfl⟩, fun _ => ⟨_, _, rfl⟩,
    ⟨_, _, _, _, _, _, _, _, rfl⟩⟩

theorem keeps_pstore : ∀ (bs : List Byte) (a : Nat) (w : Work), Keeps w (pstore a bs w)
  | [], _, w => Keeps.refl w
  | b :: t, a, w => (keeps_store w (w.loc a) [b]).trans (keeps_pstore t (a + 1) _)

theorem keeps_setPtime (w : Work) (who : Who) (p : Nat) : Keeps w (w.setPtime who p) := by
  have h : Keeps w (w.updMod fun m => { m with maxTime := max m.maxTime p }) := keeps_updMod w _ fun _ => ⟨_, _, _, _, _, _, _, _, rfl⟩
  cases who with
  | core g => exact h.trans (keeps_setCore _ g _ _ p)
  | after => exact h
  | _ => exact h.trans (keeps_updMod _ _ fun _ => ⟨_, _, _, _, _, _, _, _, rfl⟩)

theorem keeps_setLine (w : Work) (a : Nat) (t : Nat × Nat) : Keeps w (w.setLine a t) := keeps_updMod w _ fun _ => ⟨_, _, _, _, _, _, _, _, rfl⟩

theorem keeps_homeAccess (w : Work) (who : Who) (a : Nat) : Keeps w (w.homeAccess who a) :=
  (keeps_setPtime w who _).trans (keeps_updMod _ _ fun _ => ⟨_, _, _, _, _, _, _, _, rfl⟩)

theorem keeps_readTime (w : Work) (who : Who) (a : Nat) : Keeps w (w.readTime who a) := by
  unfold Work.readTime
  split
  · exact (keeps_setPtime w who _).trans (keeps_setLine _ _ _)
  · exact keeps_homeAccess w who a

theorem keeps_writeTime (w : Work) (who : Who) (a : Nat) : Keeps w (w.writeTime who a) := by
  unfold Work.writeTime
  split
  · exact (keeps_setPtime w who _).trans (keeps_setLine _ _ _)
  · exact keeps_homeAccess w who a

theorem keeps_markDirty (w : Work) (n : Need) (x : Xlat) : Keeps w (w.markDirty n x).2 := by
  unfold Work.markDirty
  split
  · exact (keeps_pstore _ _ _).trans (keeps_writeTime _ _ _)
  · exact Keeps.refl w

theorem keeps_fill (w : Work) (g : Nat) (own : Bool) (x : Xlat) : Keeps w (w.fill g own x) := by
  have h : Keeps w (w.updGrove g fun k => { k with tlb := bufPut 2048 x k.tlb }) := keeps_setGrove w g _ _
  unfold Work.fill
  split
  · exact h.trans (keeps_setCore _ g _ _ _)
  · exact h

theorem keeps_through {w v : Work} {g va pa : Nat} {own user : Bool} {n : Need} {x : Xlat}
    (h : w.through g own user n va x = .ok (pa, v)) : Keeps w v := by
  unfold Work.through at h
  split at h
  · cases h
  · simp only [Except.ok.injEq, Prod.mk.injEq] at h
    rw [← h.2]
    exact (keeps_markDirty w n x).trans (keeps_fill _ _ _ _)

theorem keeps_tally (w : Work) (g k n : Nat) : Keeps w (w.tally g k n) := keeps_setGrove w g _ _

theorem keeps_missed (w : Work) (g : Nat) (own : Bool) (asid va : Nat) : Keeps w (w.missed g own asid va) := by
  have h : Keeps w (if own then w.tally g 0 1 else w) := by
    split
    · exact keeps_tally w g 0 1
    · exact Keeps.refl w
  unfold Work.missed
  split
  · exact Keeps.refl w
  · dsimp only
    split
    · exact h
    · exact h.trans (keeps_tally _ _ _ _)

theorem keeps_walk {w v : Work} {asid va : Nat} {x : Xlat} (h : w.walk asid va = some (x, v)) : Keeps w v := by
  unfold Work.walk at h
  split at h
  · cases h
  · split at h
    · cases h
    · simp only [Option.some.injEq, Prod.mk.injEq] at h
      rw [← h.2]
      split
      · exact Keeps.refl w
      · exact (keeps_pstore _ _ _).trans (keeps_writeTime _ _ _)

theorem keeps_fills (x : Xlat) : ∀ (l : List Waiter) (w : Work),
    Keeps w (l.foldl (fun v a => v.fill (a.cell / 16) (a.kind == 4) x) w)
  | [], w => Keeps.refl w
  | a :: t, w => (keeps_fill w (a.cell / 16) (a.kind == 4) x).trans (keeps_fills x t _)

/-- A walk that ends changes the service's queue and the buffers of the groves that waited. -/
theorem keeps_finishWalk (w : Work) (q : Miss) : Keeps w (w.finishWalk q) := by
  have h : Keeps w (w.updMod fun m => { m with walkQ := m.walkQ.erase q }) := keeps_updMod w _ fun _ => ⟨_, _, _, _, _, _, _, _, rfl⟩
  unfold Work.finishWalk
  dsimp only
  split
  · rename_i e
    exact (h.trans (keeps_walk e)).trans (keeps_fills _ _ _)
  · exact h.trans (keeps_updMod _ _ fun _ => ⟨_, _, _, _, _, _, _, _, rfl⟩)

theorem keeps_joinWalk (w : Work) (g asid va : Nat) : Keeps w (w.joinWalk g asid va) := by
  unfold Work.joinWalk
  split
  · exact (keeps_updMod w _ fun _ => ⟨_, _, _, _, _, _, _, _, rfl⟩).trans (keeps_finishWalk _ _)
  · exact keeps_updMod w _ fun _ => ⟨_, _, _, _, _, _, _, _, rfl⟩

theorem keeps_translateNow {w v : Work} {g asid va pa : Nat} {counted user : Bool} {n : Need}
    (h : w.translateNow g counted asid user n va = .ok (pa, v)) : Keeps w v := by
  unfold Work.translateNow at h
  split at h
  · cases h
  · split at h
    · exact keeps_through h
    · split at h
      · cases h
      · rename_i e
        refine Keeps.trans (Keeps.trans ?_ (keeps_walk e)) (keeps_through h)
        split
        · exact (keeps_missed w g false asid va).trans (keeps_joinWalk _ g asid va)
        · exact Keeps.refl w

theorem keeps_endWalk (w : Work) (a : Waiter) (asid vpn : Nat) : Keeps w (w.endWalk a asid vpn) := by
  unfold Work.endWalk
  split
  · exact keeps_updMod w _ fun _ => ⟨_, _, _, _, _, _, _, _, rfl⟩
  · exact Keeps.refl w

/-- A translation changes nothing but what an access changes. -/
theorem keeps_translate {w v : Work} {g asid va pa : Nat} {wt : Option Waiter} {user : Bool} {n : Need}
    (h : w.translate g wt asid user n va = .ok (pa, v)) : Keeps w v := by
  unfold Work.translate at h
  split at h
  · exact keeps_translateNow h
  · dsimp only at h
    split at h
    · cases h
    · split at h
      · exact ((keeps_endWalk w _ asid _).trans (keeps_missed _ g _ asid va)).trans (keeps_through h)
      · cases h

theorem keeps_coreLoad (w : Work) (g a n : Nat) : Keeps w (w.coreLoad g a n).2 := by
  unfold Work.coreLoad
  dsimp only
  split
  · exact keeps_homeAccess w _ _
  · split
    · exact Keeps.refl w
    · exact ((keeps_setPtime w _ _).trans (keeps_setLine _ _ _)).trans (keeps_setCore _ g _ _ _)

theorem keeps_coreStore (w : Work) (g a : Nat) (bs : List Byte) : Keeps w (w.coreStore g a bs) := by
  have h : Keeps w ((pstore a bs w).writeTime (.core g) (w.loc a)) := (keeps_pstore bs a w).trans (keeps_writeTime _ _ _)
  unfold Work.coreStore
  dsimp only
  split
  · exact h
  · exact h.trans (keeps_setCore _ g _ _ _)

theorem keeps_pread {w v : Work} {a : Acc} {pa n : Nat} {bs : List Byte} (h : w.pread a pa n = .ok (bs, v)) : Keeps w v := by
  unfold Work.pread at h
  dsimp only at h
  split at h
  · cases h
  split at h
  · split at h
    · cases h
    split at h
    · simp only [Except.ok.injEq] at h
      have k := keeps_coreLoad w a.grove (pa % 2 ^ 45) n
      rw [h] at k
      exact k
    · simp only [Except.ok.injEq, Prod.mk.injEq] at h
      rw [← h.2]
      exact keeps_readTime w _ _
  split at h
  · cases h
  split at h
  · split at h
    · cases h
    · simp only [Except.ok.injEq, Prod.mk.injEq] at h
      rw [← h.2]
      exact keeps_homeAccess w _ _
  split at h
  · simp only [Except.ok.injEq, Prod.mk.injEq] at h
    rw [← h.2]
    exact keeps_homeAccess w _ _
  · cases h

theorem keeps_vread1 {w v : Work} {a : Acc} {va n : Nat} {bs : List Byte} (h : w.vread1 a va n = .ok (bs, v)) : Keeps w v := by
  unfold Work.vread1 at h
  rcases e : w.translate a.grove a.waiter a.asid a.user needR va with c | ⟨pa, w1⟩
  · simp [e, bind, Except.bind] at h
  · simp only [e, bind, Except.bind] at h
    exact (keeps_translate e).trans (keeps_pread h)

theorem keeps_vreadPieces {a : Acc} : ∀ {l : List (Nat × Nat)} {w v : Work} {bs : List Byte},
    vreadPieces a l w = .ok (bs, v) → Keeps w v
  | [], w, v, bs, h => by
    simp only [vreadPieces, Except.ok.injEq, Prod.mk.injEq] at h
    rw [← h.2]
    exact Keeps.refl w
  | (va, n) :: t, w, v, bs, h => by
    rcases e : w.vread1 a va n with c | ⟨b1, w1⟩
    · simp [vreadPieces, e, badAt, bind, Except.bind] at h
    · rcases f : vreadPieces a t w1 with c | ⟨b2, w2⟩
      · simp [vreadPieces, e, f, badAt, bind, Except.bind] at h
      · simp only [vreadPieces, e, f, badAt, bind, Except.bind, pure, Except.pure, Except.ok.injEq, Prod.mk.injEq] at h
        rw [← h.2]
        exact (keeps_vread1 e).trans (keeps_vreadPieces f)

/-- A range read changes nothing but what an access changes. -/
theorem keeps_vread {w v : Work} {a : Acc} {va n : Nat} {bs : List Byte} (h : w.vread a va n = .ok (bs, v)) : Keeps w v :=
  keeps_vreadPieces h

theorem keeps_vcheckPieces {a : Acc} {n : Need} : ∀ {l : List (Nat × Nat)} {w v : Work}, vcheckPieces a n l w = .ok v → Keeps w v
  | [], w, v, h => by
    simp only [vcheckPieces, Except.ok.injEq] at h
    rw [← h]
    exact Keeps.refl w
  | (va, k) :: t, w, v, h => by
    rcases e : w.translate a.grove a.waiter a.asid a.user n va with c | ⟨pa, w1⟩
    · simp [vcheckPieces, e, badAt, bind, Except.bind] at h
    · simp only [vcheckPieces, e, badAt, bind, Except.bind] at h
      exact (keeps_translate e).trans (keeps_vcheckPieces h)

/-- A range checked changes nothing but what an access changes. -/
theorem keeps_vcheck {w v : Work} {a : Acc} {n : Need} {va len : Nat} (h : w.vcheck a n va len = .ok v) : Keeps w v :=
  keeps_vcheckPieces h

/-- An atomic access changes nothing but what an access changes. -/
theorem keeps_atomicAt {w v : Work} {a : Acc} {pa n old : Nat} {f : Nat → Option Nat} (h : w.atomicAt a pa n f = .ok (old, v)) :
    Keeps w v := by
  unfold Work.atomicAt at h
  dsimp only at h
  split at h
  · cases h
  split at h
  · split at h
    · cases h
    split at h
    · cases h
    split at h
    · split at h
      · simp only [Except.ok.injEq, Prod.mk.injEq] at h
        rw [← h.2]
        exact keeps_coreStore w _ _ _
      · simp only [Except.ok.injEq, Prod.mk.injEq] at h
        rw [← h.2]
        exact (keeps_pstore _ _ w).trans (keeps_writeTime _ _ _)
    · simp only [Except.ok.injEq, Prod.mk.injEq] at h
      rw [← h.2]
      exact keeps_writeTime w _ _
  split at h
  · split at h
    · cases h
    split at h
    · cases h
    split at h
    · simp only [Except.ok.injEq, Prod.mk.injEq] at h
      rw [← h.2]
      exact (keeps_store w _ _).trans (keeps_homeAccess _ _ _)
    · simp only [Except.ok.injEq, Prod.mk.injEq] at h
      rw [← h.2]
      exact keeps_homeAccess w _ _
  · cases h

theorem keeps_atomic {w v : Work} {a : Acc} {va n old : Nat} {f : Nat → Option Nat} (h : w.atomic a va n f = .ok (old, v)) :
    Keeps w v := by
  unfold Work.atomic at h
  rcases e : w.translate a.grove a.waiter a.asid a.user needRW va with c | ⟨pa, w1⟩
  · simp [e, bind, Except.bind] at h
  · simp only [e, bind, Except.bind] at h
    exact (keeps_translate e).trans (keeps_atomicAt h)

/-! ## What an access does to bytes -/

theorem loc_of_cells {w v : Work} (h : v.cells = w.cells) (a : Nat) : v.loc a = w.loc a := by
  unfold Work.loc
  rw [h]

@[simp] theorem setPtime_log (w : Work) (who : Who) (p : Nat) : (w.setPtime who p).log = w.log := by
  cases who <;> rfl
@[simp] theorem setLine_log (w : Work) (a : Nat) (t : Nat × Nat) : (w.setLine a t).log = w.log := rfl
@[simp] theorem homeAccess_log (w : Work) (who : Who) (a : Nat) : (w.homeAccess who a).log = w.log := by
  simp [Work.homeAccess]
@[simp] theorem readTime_log (w : Work) (who : Who) (a : Nat) : (w.readTime who a).log = w.log := by
  unfold Work.readTime
  split <;> simp
@[simp] theorem writeTime_log (w : Work) (who : Who) (a : Nat) : (w.writeTime who a).log = w.log := by
  unfold Work.writeTime
  split <;> simp
@[simp] theorem fill_log (w : Work) (g : Nat) (own : Bool) (x : Xlat) : (w.fill g own x).log = w.log := by
  unfold Work.fill
  split <;> simp
@[simp] theorem coreLoad_log (w : Work) (g a n : Nat) : (w.coreLoad g a n).2.log = w.log := by
  unfold Work.coreLoad
  dsimp only
  split
  · simp
  · split <;> simp

/-- Bytes written where no mapped range lies are written in place. -/
theorem pstore_direct : ∀ (bs : List Byte) (a : Nat) (w : Work), (∀ i < bs.length, w.loc (a + i) = a + i) →
    pstore a bs w = w.store a bs
  | [], _, _, _ => rfl
  | b :: t, a, w, h => by
    have h0 : w.loc a = a := by simpa using h 0 (by simp)
    rw [pstore, h0, pstore_direct t (a + 1)]
    · rfl
    · intro i hi
      rw [loc_of_cells rfl]
      have := h (i + 1) (by simpa using hi)
      rwa [show a + 1 + i = a + (i + 1) by omega]

theorem pstore_log (bs : List Byte) (a : Nat) (w : Work) (h : ∀ i < bs.length, w.loc (a + i) = a + i) :
    (pstore a bs w).log = logBytes w.log a bs := by rw [pstore_direct bs a w h]; rfl

theorem coreStore_log (w : Work) (g a : Nat) (bs : List Byte) : (w.coreStore g a bs).log = (pstore a bs w).log := by
  unfold Work.coreStore
  dsimp only
  split <;> simp

/-- Bytes read where no mapped range lies. -/
theorem pbytes_direct (w : Work) (a n : Nat) (h : ∀ i < n, w.loc (a + i) = a + i) :
    w.pbytes a n = (List.range n).map fun i => w.byte (a + i) :=
  List.map_congr_left fun i hi => by rw [h i (by simpa using hi)]

/-- The bytes that an unlogged work reads are memory's. -/
theorem byte_of_log {w : Work} (h : w.log = []) (a : Nat) : w.byte a = w.base.get a := by rw [Work.byte, h]; rfl

/-- An access through a translation that allows it, with D set where it writes, only refreshes the buffers (R182). -/
theorem through_clean (w : Work) (g va : Nat) (own user : Bool) (n : Need) (x : Xlat) (r : x.refuses n user = false)
    (d : n.w = true → x.attr.getLsbD 8 = true) :
    w.through g own user n va x = .ok (x.pa + (va - x.base), w.fill g own x) := by
  have m : w.markDirty n x = (x, w) := by
    unfold Work.markDirty
    split
    · rename_i h; have := d h.1; simp_all
    · rfl
  simp [Work.through, r, m]

@[simp] theorem tally_core (w : Work) (g k n h : Nat) : (w.tally g k n).core h = w.core h := rfl
@[simp] theorem tally_log (w : Work) (g k n : Nat) : (w.tally g k n).log = w.log := rfl

/-- Counting a buffer's misses leaves every core. -/
@[simp] theorem missed_core (w : Work) (g : Nat) (own : Bool) (asid va h : Nat) :
    (w.missed g own asid va).core h = w.core h := by
  unfold Work.missed
  split
  · rfl
  · dsimp only
    split <;> split <;> rfl

@[simp] theorem missed_log (w : Work) (g : Nat) (own : Bool) (asid va : Nat) : (w.missed g own asid va).log = w.log := by
  unfold Work.missed
  split
  · rfl
  · dsimp only
    split <;> split <;> rfl

/-- A translation that the buffers hold is used as it stands, the misses of the buffers before it counted (R182, R420). -/
theorem translate_buffered (w : Work) (g asid va : Nat) (a : Waiter) (user : Bool) (n : Need) (x : Xlat) (l : va < 2 ^ 57)
    (b : w.buffered g (a.kind == 4) asid va = some x) (r : x.refuses n user = false) (d : n.w = true → x.attr.getLsbD 8 = true) :
    w.translate g (some a) asid user n va =
      .ok (x.pa + (va - x.base), ((w.endWalk a asid (va / 4096)).missed g (a.kind == 4) asid va).fill g (a.kind == 4) x) := by
  simp only [Work.translate, Nat.not_le.2 l, b, through_clean _ g va _ user n x r d, if_false]

theorem translate_past (w : Work) (g asid va : Nat) (a : Waiter) (user : Bool) (n : Need) (h : 2 ^ 57 ≤ va) :
    w.translate g (some a) asid user n va = .error 0x08 := by
  simp only [Work.translate, h, if_true]

theorem translate_refused (w : Work) (g asid va : Nat) (a : Waiter) (user : Bool) (n : Need) (x : Xlat) (l : va < 2 ^ 57)
    (b : w.buffered g (a.kind == 4) asid va = some x) (r : x.refuses n user = true) :
    w.translate g (some a) asid user n va = .error 0x09 := by
  simp only [Work.translate, Nat.not_le.2 l, b, Work.through, r, if_true, if_false]

/-- Where no buffer holds the page and no walk of it has failed, what waits for walks waits (R183). -/
theorem translate_waits (w : Work) (g asid va : Nat) (a : Waiter) (user : Bool) (n : Need) (l : va < 2 ^ 57)
    (b : w.buffered g (a.kind == 4) asid va = none) (f : w.walkFault a asid (va / 4096) = none) :
    w.translate g (some a) asid user n va = .error walkWait := by
  simp only [Work.translate, Nat.not_le.2 l, b, f, if_false, Option.map_none, Option.getD_none]

end Sys2Proof.Laws
end

