-- ==== Sys2Proof/Laws/Cores.lean ====
section
/-! SUPPORT. What the frame of a task core's instruction can do: the effect, a precise fault, or nothing yet. -/

namespace Sys2Proof.Laws

open Sys2Proof.Machine Sys2Proof.Safety

variable {s : State} {g : Nat}

theorem via_setCore (c : Core) : (s.via fun w => w.setCore g c) = withCore s g c := rfl

theorem finish_setCore (c : Core) : s.finish ((Work.of s).setCore g c) = withCore s g c := rfl

/-! A fault forgets the failed walks that waited for the instruction, and nothing else (R183). -/

@[simp] theorem endWalks_cores (w : Work) (a : Waiter) : (w.endWalks a).cores = w.cores := by
  unfold Work.endWalks; split <;> rfl
@[simp] theorem endWalks_cells (w : Work) (a : Waiter) : (w.endWalks a).cells = w.cells := by
  unfold Work.endWalks; split <;> rfl
@[simp] theorem endWalks_groves (w : Work) (a : Waiter) : (w.endWalks a).groves = w.groves := by
  unfold Work.endWalks; split <;> rfl
@[simp] theorem endWalks_mxs (w : Work) (a : Waiter) : (w.endWalks a).mxs = w.mxs := by
  unfold Work.endWalks; split <;> rfl
@[simp] theorem endWalks_regions (w : Work) (a : Waiter) : (w.endWalks a).regions = w.regions := by
  unfold Work.endWalks; split <;> rfl
@[simp] theorem endWalks_outbox (w : Work) (a : Waiter) : (w.endWalks a).outbox = w.outbox := by
  unfold Work.endWalks; split <;> rfl
@[simp] theorem endWalks_moves (w : Work) (a : Waiter) : (w.endWalks a).moves = w.moves := by
  unfold Work.endWalks; split <;> rfl

/-- A core's instruction that completes: its effect, and the core holds it no longer. -/
theorem coreInstr_ok {i : Instr} {f : Nat → Work → Except Stop Work} {w : Work} (h : OnCore s g) (c : i.coreOk = true)
    (e : f g (Work.of s) = .ok w) :
    run s (coreInstr i f) = .next (s.finish (w.updCore g fun c => { c with stall := none })) := by
  obtain ⟨t, k, l⟩ := h
  have a : ((Work.of s).core g).task ≠ none := k
  have b : ((Work.of s).core g).halted = false := l
  simp only [run, State.via, coreInstr, coreRun, of_turn, t, a, b, c, e, if_true, false_or, Bool.false_eq_true, if_false]

/-- A core's instruction that meets a precise fault. -/
theorem coreInstr_fault {i : Instr} {f : Nat → Work → Except Stop Work} {code : Nat} {addr aux : Word} (h : OnCore s g)
    (c : i.coreOk = true) (e : f g (Work.of s) = .error (.fault code addr aux)) :
    run s (coreInstr i f) = .next (raised s g code addr aux) := by
  obtain ⟨t, k, l⟩ := h
  have a : ((Work.of s).core g).task ≠ none := k
  have b : ((Work.of s).core g).halted = false := l
  simp only [run, State.via, raised, coreInstr, coreRun, of_turn, t, a, b, c, e, if_true, false_or, Bool.false_eq_true, if_false]

/-- An instruction that task cores do not accept as it is encoded raises Illegal Instruction (R80). -/
theorem coreInstr_illegal {i : Instr} {f : Nat → Work → Except Stop Work} (h : OnCore s g) (c : i.coreOk = false) :
    run s (coreInstr i f) = .next (raised s g 0x01 0 0) := by
  obtain ⟨t, k, l⟩ := h
  have a : ((Work.of s).core g).task ≠ none := k
  have b : ((Work.of s).core g).halted = false := l
  simp only [run, State.via, raised, coreInstr, coreRun, of_turn, t, a, b, c, flt, false_or, Bool.false_eq_true, if_false]

/-- A core's instruction that is held tries again. -/
theorem coreInstr_hold {i : Instr} {f : Nat → Work → Except Stop Work} (h : OnCore s g) (c : i.coreOk = true)
    (e : f g (Work.of s) = .error .stall) : run s (coreInstr i f) = .next (s.via fun w => w.hold g) := by
  obtain ⟨t, k, l⟩ := h
  have a : ((Work.of s).core g).task ≠ none := k
  have b : ((Work.of s).core g).halted = false := l
  simp only [run, State.via, coreInstr, coreRun, of_turn, t, a, b, c, e, if_true, false_or, Bool.false_eq_true, if_false]

@[simp] theorem step_setReg (c : Core) (d : BitVec 5) (v : Word) : (c.setReg d v).step = (c.step).setReg d v := by
  unfold Core.setReg
  split
  · rfl
  · unfold Core.step Core.pc4
    split
    · split <;> rfl
    · rfl

/-- Going on is allowed where `MayGo` says so (R386). -/
theorem enter_ok {w : Work} {pc : BitVec 16} (h : (w.regOf g).supBase ≤ (w.core g).pc.toNat ∨ pc.toNat < (w.regOf g).supBase) :
    w.enter g pc = .ok () := by
  unfold Work.enter need
  have : (!(decide ((w.core g).pc.toNat < (w.regOf g).supBase) && decide ((w.regOf g).supBase ≤ pc.toNat))) = true := by
    simp; omega
  simp [this]

theorem next_ok {w : Work} (h : (w.regOf g).supBase ≤ (w.core g).pc.toNat ∨ (w.core g).step.pc.toNat < (w.regOf g).supBase) :
    w.next g = .ok (w.setCore g (w.core g).step) := by
  simp [Work.next, enter_ok h, bind, Except.bind, pure, Except.pure]

theorem give_ok {w : Work} (d : BitVec 5) (v : Word)
    (h : (w.regOf g).supBase ≤ (w.core g).pc.toNat ∨ (w.core g).step.pc.toNat < (w.regOf g).supBase) :
    w.give g d v = .ok (w.setCore g ((w.core g).setReg d v).step) := by
  rw [Work.give, next_ok (by simpa using h)]
  simp

/-- A core's instruction whose effect is to write a register and go on. -/
theorem coreInstr_give {i : Instr} {f : Nat → Work → Except Stop Work} {d : BitVec 5} {v : Word} (h : Ready s g)
    (c : i.coreOk = true) (e : f g (Work.of s) = (Work.of s).give g d v) : run s (coreInstr i f) = .next (gave s g d v) := by
  rw [coreInstr_ok h.1 c (e.trans (give_ok d v h.2))]
  simp [gave, goneOn, ← finish_setCore, coreOf]

/-- A register instruction on a task core (R124, R126). -/
theorem alu_core {i : Instr} {d : BitVec 5} {srcs : List (BitVec 5)} {vec : Bool} {f : List (BitVec 256) → BitVec 256}
    (h : Ready s g) (c : i.coreOk = true) :
    run s (alu i d srcs vec f) = .next (gave s g d ((f (srcs.map fun r => (reg s g r).setWidth 256)).setWidth 64)) := by
  have e : run s (alu i d srcs vec f) =
      run s (coreInstr i fun g x => x.give g d ((f (srcs.map fun r => (x.g g r).setWidth 256)).setWidth 64)) := by
    simp only [run, State.via, alu, of_turn, h.1.1]
  rw [e, coreInstr_give h c rfl]
  rfl

/-- A register instruction that a task core does not accept (R80). -/
theorem alu_illegal {i : Instr} {d : BitVec 5} {srcs : List (BitVec 5)} {vec : Bool} {f : List (BitVec 256) → BitVec 256}
    (h : OnCore s g) (c : i.coreOk = false) : run s (alu i d srcs vec f) = .next (raised s g 0x01 0 0) := by
  have e : run s (alu i d srcs vec f) =
      run s (coreInstr i fun g x => x.give g d ((f (srcs.map fun r => (x.g g r).setWidth 256)).setWidth 64)) := by
    simp only [run, State.via, alu, of_turn, h.1]
  rw [e, coreInstr_illegal h c]

/-- What a twig's instruction writes, said as `twigValue` does (R115). -/
theorem result_eq (t : Twig) (guard : BitVec 3) (srcs : List (BitVec 5)) (f : List (BitVec 256) → BitVec 256) :
    t.result guard srcs f = twigValue t guard srcs (f (srcs.map fun r => (t.src r).bits)) := by
  simp only [Twig.result, twigValue, TVal.null0, List.map_map]
  refine if_congr ?_ ?_ rfl
  · simp
  · rfl

/-- A register instruction in a twig (R115). -/
theorem alu_twig {a : Agent} {t : Twig} {i : Instr} {d : BitVec 5} {srcs : List (BitVec 5)} {vec : Bool}
    {f : List (BitVec 256) → BitVec 256} (h : OnTwig s a t) (c : i.twigOk (agentIsMx a) = true) :
    run s (alu i d srcs vec f) =
      .next (withTwig s a (t.put d (twigValue t i.guard srcs (f (srcs.map fun r => (t.src r).bits))) vec).adv) := by
  obtain ⟨h, k⟩ := h
  cases a with
  | core g => simp [Work.twigAt] at k
  | _ => simp only [run, State.via, withTwig, alu, of_turn, h, c, if_true, twigOp, k, result_eq]

end Sys2Proof.Laws
end

