-- ==== Sys2Proof/Laws/Memory.lean ====
section
/-! SUPPORT. Memory: a write is read back and leaves every other byte, and every operation keeps the canonical form. -/

namespace Sys2Proof.Laws

open Sys2Proof.Machine

theorem wf_weaken {lo hi : Nat} (h : lo ≤ hi) : ∀ {m : Memory}, memWfFrom hi m = true → memWfFrom lo m = true
  | [], _ => rfl
  | (a, v) :: t, w => by
    simp only [memWfFrom, Bool.and_eq_true, decide_eq_true_eq] at w ⊢
    exact ⟨⟨by omega, w.1.2⟩, w.2⟩

/-- A byte written keeps the form from any bound at or below it. -/
theorem wf_set {lo a : Nat} (v : Byte) (h : lo ≤ a) : ∀ {m : Memory}, memWfFrom lo m = true → memWfFrom lo (Memory.set m a v) = true
  | [], _ => by
    by_cases z : v = 0#8
    · simp [Memory.set, z, memWfFrom]
    · simp [Memory.set, z, memWfFrom, h]
  | (b, u) :: t, w => by
    have w' := w
    simp only [memWfFrom, Bool.and_eq_true, decide_eq_true_eq] at w
    by_cases l : a < b
    · by_cases z : v = 0#8
      · simp only [Memory.set, BitVec.ofNat_eq_ofNat, l, z, if_true]
        exact w'
      · simp only [Memory.set, BitVec.ofNat_eq_ofNat, l, z, if_true, if_false, memWfFrom, Bool.and_eq_true, decide_eq_true_eq]
        exact ⟨⟨h, by simpa using z⟩, ⟨by omega, w.1.2⟩, w.2⟩
    · by_cases e : a = b
      · subst e
        by_cases z : v = 0#8
        · simp only [Memory.set, BitVec.ofNat_eq_ofNat, z, if_true, lt_irrefl, if_false]
          exact wf_weaken (by omega) w.2
        · simp only [Memory.set, BitVec.ofNat_eq_ofNat, z, if_true, lt_irrefl, if_false, memWfFrom, Bool.and_eq_true, decide_eq_true_eq]
          simpa [h, z] using w.2
      · simp only [Memory.set, BitVec.ofNat_eq_ofNat, l, e, if_false, memWfFrom, Bool.and_eq_true, decide_eq_true_eq]
        exact ⟨w.1, wf_set v (by omega) w.2⟩

theorem wf_write : ∀ (l : List Host.Cell) {m : Memory}, Memory.wf m → Memory.wf (m.write l)
  | [], _, w => w
  | (_, v) :: t, _, w => wf_set v (Nat.zero_le _) (wf_write t w)

/-- Below its first address a canonical memory reads zero. -/
theorem get_below {lo : Nat} : ∀ {m : Memory} {a : Nat}, memWfFrom lo m = true → a < lo → m.get a = 0
  | [], _, _, _ => rfl
  | (b, u) :: t, a, w, h => by
    simp only [memWfFrom, Bool.and_eq_true, decide_eq_true_eq] at w
    simp [Memory.get, show a < b by omega]

/-- Bytes dropped leave the form of the others. -/
theorem wf_filter (p : Host.Cell → Bool) : ∀ {lo : Nat} {m : Memory}, memWfFrom lo m = true → memWfFrom lo (m.filter p) = true
  | _, [], _ => rfl
  | lo, (a, v) :: t, w => by
    simp only [memWfFrom, Bool.and_eq_true, decide_eq_true_eq] at w
    have k := wf_filter p w.2
    rw [List.filter_cons]
    split
    · simp only [memWfFrom, Bool.and_eq_true, decide_eq_true_eq]
      exact ⟨w.1, k⟩
    · exact wf_weaken (by omega) k

/-- A canonical memory whose kept bytes are known reads zero where none is kept, and else as before. -/
theorem get_filter (p : Host.Cell → Bool) (a : Nat) (q : Bool) (h : ∀ v, p (a, v) = q) : ∀ {lo : Nat} {m : Memory},
    memWfFrom lo m = true → Memory.get (m.filter p) a = if q then m.get a else 0
  | _, [], _ => by cases q <;> rfl
  | lo, (b, v) :: t, w => by
    simp only [memWfFrom, Bool.and_eq_true, decide_eq_true_eq] at w
    have k := get_filter p a q h w.2
    rw [List.filter_cons]
    by_cases l : a < b
    · have z : Memory.get (t.filter p) a = 0 := get_below (wf_filter p w.2) (by omega)
      split <;> cases q <;> simp [Memory.get, l, z]
    · by_cases e : a = b
      · subst e
        rw [h v]
        cases q
        · simpa [Memory.get] using k
        · simp [Memory.get]
      · split <;> cases q <;> simp [Memory.get, l, e] <;> simpa using k

theorem wf_via {s : State} (f : Work → Work) (h : Memory.wf s.mem) : Memory.wf (s.via f).mem := wf_write _ h

theorem get_set_same {lo a : Nat} (v : Byte) : ∀ {m : Memory}, memWfFrom lo m = true → (Memory.set m a v).get a = v
  | [], _ => by
    by_cases z : v = 0#8 <;> simp [Memory.set, z, Memory.get]
  | (b, u) :: t, w => by
    simp only [memWfFrom, Bool.and_eq_true, decide_eq_true_eq] at w
    by_cases l : a < b
    · by_cases z : v = 0#8 <;> simp [Memory.set, l, z, Memory.get]
    · by_cases e : a = b
      · subst e
        by_cases z : v = 0#8
        · simp only [Memory.set, BitVec.ofNat_eq_ofNat, z, if_true, lt_irrefl, if_false]
          exact get_below w.2 (by omega)
        · simp [Memory.set, z, Memory.get]
      · simp only [Memory.set, BitVec.ofNat_eq_ofNat, l, e, if_false, Memory.get]
        exact get_set_same v w.2

theorem get_set_other {lo a c : Nat} (v : Byte) (n : a ≠ c) : ∀ {m : Memory}, memWfFrom lo m = true →
    (Memory.set m a v).get c = m.get c
  | [], _ => by
    by_cases z : v = 0#8
    · simp [Memory.set, z]
    · simp only [Memory.set, BitVec.ofNat_eq_ofNat, z, if_false, Memory.get]
      split
      · rfl
      · simp [Ne.symm n]
  | (b, u) :: t, w => by
    simp only [memWfFrom, Bool.and_eq_true, decide_eq_true_eq] at w
    by_cases l : a < b
    · by_cases z : v = 0#8
      · simp [Memory.set, l, z]
      · simp only [Memory.set, BitVec.ofNat_eq_ofNat, l, z, if_true, if_false, Memory.get]
        by_cases p : c < a
        · simp [p, show c < b by omega]
        · simp [p, Ne.symm n]
    · by_cases e : a = b
      · subst e
        by_cases z : v = 0#8
        · simp only [Memory.set, BitVec.ofNat_eq_ofNat, z, if_true, lt_irrefl, if_false, Memory.get]
          by_cases p : c < a
          · simpa [p] using get_below w.2 (by omega)
          · simp [p, Ne.symm n]
        · simp only [Memory.set, BitVec.ofNat_eq_ofNat, z, if_true, lt_irrefl, if_false, Memory.get]
          simp [Ne.symm n]
      · simp only [Memory.set, BitVec.ofNat_eq_ofNat, l, e, if_false, Memory.get]
        rw [get_set_other v n w.2]

theorem get_write {m : Memory} (w : Memory.wf m) (a : Nat) : ∀ l : List Host.Cell, (m.write l).get a = readLog m a l
  | [] => rfl
  | (b, v) :: t => by
    by_cases e : b = a
    · subst e
      simpa [Memory.write, readLog] using get_set_same v (wf_write t w)
    · rw [Memory.write, get_set_other v e (wf_write t w), get_write w a t]
      simp [readLog, e]

/-- A byte of the state a step leaves is the byte as the step's work leaves it. -/
theorem finish_byte {s : State} (w : Work) (h : Memory.wf s.mem) (b : w.base = s.mem) (a : Nat) :
    (s.finish w).mem.get a = w.byte a := by
  rw [finish_mem_get h, Work.byte, b]
where
  finish_mem_get {s : State} {w : Work} (h : Memory.wf s.mem) : (s.finish w).mem.get a = readLog s.mem a w.log :=
    get_write h a w.log

theorem readLog_other (m : Memory) (a b : Nat) (v : Byte) (l : List Host.Cell) (h : b ≠ a) :
    readLog m a ((b, v) :: l) = readLog m a l := by simp [readLog, h]

/-- Bytes written leave every byte outside them. -/
theorem logBytes_other (m : Memory) (a : Nat) : ∀ (bs : List Byte) (l : List Host.Cell) (b : Nat),
    a < b ∨ b + bs.length ≤ a → readLog m a (logBytes l b bs) = readLog m a l
  | [], _, _, _ => rfl
  | x :: t, l, b, h => by
    rw [logBytes, logBytes_other m a t _ (b + 1) (by simp at h; omega)]
    exact readLog_other m a b x l (by simp at h; omega)

theorem store_byte_other (w : Work) (a b : Nat) (bs : List Byte) (h : a < b ∨ b + bs.length ≤ a) :
    (w.store b bs).byte a = w.byte a := logBytes_other _ _ _ _ _ h

theorem store_byte_same (w : Work) (b : Nat) : ∀ (bs : List Byte) (i : Nat) (h : i < bs.length),
    (w.store b bs).byte (b + i) = bs[i] := by
  intro bs
  suffices H : ∀ (bs : List Byte) (l : List Host.Cell) (b i : Nat) (h : i < bs.length),
      readLog w.base (b + i) (logBytes l b bs) = bs[i] from H bs w.log b
  intro bs
  induction bs with
  | nil => intro _ _ i h; simp at h
  | cons x t ih =>
    intro l b i h
    cases i with
    | zero =>
      rw [logBytes, logBytes_other _ _ _ _ _ (by omega)]
      simp [readLog]
    | succ i =>
      have := ih ((b, x) :: l) (b + 1) i (by simpa using h)
      rw [logBytes, show b + (i + 1) = b + 1 + i by omega, this]
      rfl

end Sys2Proof.Laws
end

