-- ==== Sys2Proof/Laws/CoreAccess.lean ====
section
/-! SUPPORT. A task core's accesses and transfers: what one does beside its access, and the words of Safety in which the
claims say it. -/

namespace Sys2Proof.Laws

open Sys2Proof.Machine Sys2Proof.Safety

variable {s : State} {g : Nat}

/-- An access leaves the region of every grove as it is. -/
theorem keeps_regOf {w v : Work} (h : Keeps w v) (g : Nat) : v.regOf g = w.regOf g := by
  obtain ⟨_, _, e⟩ := h.groves g
  simp [Work.regOf, Work.rno, Work.region, h.regions, e]

/-- An access leaves where a core goes on. -/
theorem keeps_step_pc {w v : Work} (h : Keeps w v) (g : Nat) : (v.core g).step.pc = (w.core g).step.pc ∧ (v.core g).pc = (w.core g).pc := by
  obtain ⟨_, _, _, e⟩ := h.cores g
  rw [e]
  refine ⟨?_, rfl⟩
  unfold Core.step Core.pc4
  dsimp only
  split
  · split <;> rfl
  · rfl

/-- Going on does not look at the buffer, the L1 or the program time. -/
theorem step_upd (c : Core) (t : List Xlat) (l : List L1Line) (p : Nat) :
   ({c with tlb := t, l1 := l, ptime := p} : Core).step = {c.step with tlb := t, l1 := l, ptime := p} := by
  unfold Core.step Core.pc4
  dsimp only
  split
  · split <;> rfl
  · rfl

/-- Writing a register does not look at the buffer, the L1 or the program time. -/
theorem setReg_upd (c : Core) (d v) (t : List Xlat) (l : List L1Line) (p : Nat) :
   ({c with tlb := t, l1 := l, ptime := p} : Core).setReg d v = {c.setReg d v with tlb := t, l1 := l, ptime := p} := by
  unfold Core.setReg
  split <;> rfl

/-- Going on leaves the task. -/
theorem step_task (c : Core) : c.step.task = c.task := by
  unfold Core.step; split
  · split <;> rfl
  · rfl

/-- Going on leaves the trap registers. -/
theorem step_trap (c : Core) : c.step.trap = c.trap := by
  unfold Core.step; split
  · split <;> rfl
  · rfl

/-- Going on leaves the registers. -/
theorem step_regs (c : Core) : c.step.regs = c.regs := by
  unfold Core.step; split
  · split <;> rfl
  · rfl

/-- A core's instruction whose effect is an access, a register written, and the core gone on. -/
theorem did_access {i : Instr} {f : Nat → Work → Except Stop Work} {d : BitVec 5} {v : Word} {w : Work} (h : Ready s g)
    (c : i.coreOk = true) (x : exec i s = run s (coreInstr i f)) (k : Keeps (Work.of s) w)
    (e : f g (Work.of s) = w.give g d v) :
    ∃ t, Did s g i d v t ∧ t.mem = s.mem.write w.log ∧ t.cells = s.cells ∧ t.regions = s.regions ∧ t.mxs = s.mxs := by
  have m : (w.regOf g).supBase ≤ (w.core g).pc.toNat ∨ (w.core g).step.pc.toNat < (w.regOf g).supBase := by
    rw [keeps_regOf k, (keeps_step_pc k g).1, (keeps_step_pc k g).2]
    exact h.2
  have o := coreInstr_ok h.1 c (e.trans (give_ok d v m))
  obtain ⟨t, l, p, q⟩ := k.cores g
  have e2 : coreOf (s.finish ((w.setCore g ((w.core g).setReg d v).step).updCore g fun c => { c with stall := none })) g =
      { (((coreOf s g).setReg d v).step) with tlb := t, l1 := l, ptime := p, stall := none } := by
    refine Eq.trans (setCore_same _ _ _) ?_
    rw [setCore_same, q, setReg_upd, step_upd]
    rfl
  refine ⟨_, ⟨x.trans o, ?_, ?_, ?_, ?_, ?_, ?_⟩, rfl, k.cells, k.regions, k.mxs⟩
  all_goals rw [e2]
  · exact step_regs _
  all_goals simp [step_task, step_trap]

/-- The address that a load or store computes is the one that the claims speak of. -/
theorem effAddr_addrOf (b : Word) (o : BitVec 9) (k : Nat) : effAddr b o (2 ^ k) = addrOf b o (2 ^ k) := by
  unfold effAddr addrOf
  congr 2
  apply BitVec.eq_of_toInt_eq
  rw [BitVec.toInt_mul, BitVec.toInt_ofInt, BitVec.toInt_signExtend_of_le (by decide)]
  simp only [bv]
  rw [show (BitVec.ofNat 64 (2 ^ k)).toInt = Int.bmod (2 ^ k) (2 ^ 64) by rw [BitVec.toInt_eq_toNat_bmod, BitVec.toNat_ofNat]; push_cast; exact Int.emod_bmod ..]
  exact Int.mul_bmod_bmod ..

/-- A core reads module memory that can give its bytes, or its L1 line (R142, R193). -/
theorem pread_core {w : Work} {a : Acc} {pa la n} (h1 : pa / 2^45 = w.mod.modNo) (h2 : pa % 2^45 = la) (h : la + n ≤ memTop) (c : a.core = true) (b : w.l1Serves a.grove la = true ∨ w.pspoilt la n = false) :
   w.pread a pa n = .ok (w.coreLoad a.grove la n) := by
  unfold Work.pread
  simp only [h1, h2, h, c]
  rcases b with b | b <;> simp [b]

/-- Bytes that no mapped range holds cannot be read where one of them is spoilt. -/
theorem pspoilt_iff {w : Work} {la n} (l : ∀ i < n, w.loc (la + i) = la + i) : w.pspoilt la n = true ↔ ¬ (∀ b ∈ w.mod.spoilt, b < la ∨ la + n ≤ b) := by
  unfold Work.pspoilt
  simp only [Bool.and_eq_true, Bool.not_eq_true', List.isEmpty_eq_false_iff, ne_eq, List.any_eq_true, List.mem_range, List.contains_eq_mem, decide_eq_true_eq, not_forall, not_or, not_lt, not_le]
  constructor
  · rintro ⟨-, i, hi, m⟩
    rw [l i hi] at m
    exact ⟨la+i, m, by omega, by omega⟩
  · rintro ⟨b, m, h1, h2⟩
    refine ⟨by rintro e; simp [e] at m, b - la, by omega, ?_⟩
    rw [l _ (by omega), show la + (b - la) = b by omega]
    exact m

/-- The same in the words of the claims. -/
theorem pspoilt_sound {s : State} {la n : Nat} (l : ∀ i < n, (Work.of s).loc (la + i) = la + i) {w : Work} (c : w.cells = s.cells) (m : w.mod.spoilt = s.mod.spoilt):
   w.pspoilt la n = true ↔ ¬ Sound s la n := by
  rw [pspoilt_iff (fun i hi => (loc_of_cells (w := Work.of s) c _).trans (l i hi)), m]
  rfl

/-- The copy that serves a core does not look at its translation buffer. -/
theorem l1Copy_of {w : Work} (t : List Xlat) (hc : w.core g = { coreOf s g with tlb := t }) (hy : w.mod.cycle = s.mod.cycle)
    (ha : w.mod.asTable = s.mod.asTable) (line : Nat) : w.l1Copy g line = (Work.of s).l1Copy g line := by
  unfold Work.l1Copy Work.leaseOf Work.asEntry
  rw [hc, hy, ha]
  rfl

/-- A core's L1 serves an address where its line is held under its lease. -/
theorem l1Serves_cached {s : State} {la : Nat} {g} (l : (Work.of s).loc la = la) {w : Work} (c : w.cells = s.cells) (t : List Xlat)
    (hc : w.core g = { coreOf s g with tlb := t }) (hy : w.mod.cycle = s.mod.cycle) (ha : w.mod.asTable = s.mod.asTable) :
    w.l1Serves g la = true ↔ Cached s g la := by
  unfold Work.l1Serves Cached
  rw [loc_of_cells (w := Work.of s) c, l, l1Copy_of t hc hy ha]
  simp

/-- A translation comes into the core's buffer. -/
theorem fill_core (w : Work) (g) (x : Xlat) : (w.fill g true x).core g = {w.core g with tlb := bufPut 128 x (w.core g).tlb} := by
  simp [Work.fill]

/-- The bytes that a core's load answers. -/
theorem coreLoad_seen {w : Work} {la n : Nat} (t : List Xlat) (n0 : 0 < n) (ids : ∀ i < n, (Work.of s).loc (la + i) = la + i)
    (c : w.cells = s.cells) (hc : w.core g = { coreOf s g with tlb := t }) (hy : w.mod.cycle = s.mod.cycle)
    (ha : w.mod.asTable = s.mod.asTable) (hb : w.base = s.mem) (hl : w.log = []) :
    (w.coreLoad g la n).1 = seen s g la n := by
  have idw : ∀ i < n, w.loc (la + i) = la + i := fun i hi => (loc_of_cells (w := Work.of s) c _).trans (ids i hi)
  have id0 : w.loc la = la := by simpa using idw 0 n0
  unfold Work.coreLoad seen
  simp only [id0, ne_eq, not_true, if_false, l1Copy_of t hc hy ha]
  split
  · rename_i e; simp only [e]
  · rename_i e; simp only [e]
    rw [pbytes_direct w la n idw]
    apply List.map_congr_left
    intro i _
    rw [byte_of_log hl, hb]; rfl

/-- The branch conditions are the tests that the claims name (R68). -/
theorem condBr_test (k : BitVec 3) (x : Word) : condBr k.toNat x = true ↔ branchTest k x := by
  unfold condBr branchTest
  generalize k.toNat = n
  rcases n with _ | _ | _ | _ | _ | _ | n <;> simp

/-- Four times a word offset, modulo 2^16. -/
theorem words_mod (n : Int) (x : Word) (h : x.toInt = n) : (x * 4).setWidth 16 = BitVec.ofInt 16 (n * 4) := by
  apply BitVec.eq_of_toInt_eq
  rw [BitVec.toInt_setWidth, BitVec.toInt_ofInt, BitVec.toNat_mul, ← h, BitVec.toInt_eq_toNat_bmod, Int.bmod_def, Int.bmod_def, Int.bmod_def]
  have := x.isLt
  rw [show (4 : Word).toNat = 4 from rfl]
  norm_num
  norm_num at this
  omega

/-- A branch's target is its displacement from the instruction (R137). -/
theorem target_words (i : BitVec 18) : ((Work.of s).core g).target i = wordsOn s g i.toInt := by
  unfold Core.target wordsOn coreOf
  congr 1
  exact words_mod _ _ (BitVec.toInt_signExtend_of_le (by decide))

/-- A transfer that may go there goes (R139, R386). -/
theorem jump_ok {w : Work} (pc : BitVec 16) (h : (w.regOf g).supBase ≤ (w.core g).pc.toNat ∨ pc.toNat < (w.regOf g).supBase) :
   (w.jump g pc).map (fun x => x.updCore g fun c => { c with stall := none }) = .ok (w.setCore g (jumped (w.core g) pc)) := by
  unfold Work.jump
  rw [enter_ok h]
  simp only [bind, Except.bind, Except.map, pure, Except.pure, updCore_eq]
  congr 1
  simp only [jumped, setCore_twice, setCore_same]
  congr 1
  by_cases a : (w.core g).loopActive = true <;> by_cases b : (w.core g).trap.loopHeld = true <;>
    by_cases c : (w.core g).bodyStart.toNat ≤ pc.toNat <;> by_cases d : pc.toNat ≤ (w.core g).bodyEnd.toNat <;>
    simp_all

/-- A transfer from below SUPBASE into the supervisor area raises Privilege (R386). -/
theorem jump_no {w : Work} (pc : BitVec 16) (h : ¬ ((w.regOf g).supBase ≤ (w.core g).pc.toNat ∨ pc.toNat < (w.regOf g).supBase)) :
   (w.jump g pc) = .error (flt 0x02) := by
  unfold Work.jump Work.enter need
  simp only [not_or, not_le, not_lt] at h
  simp [h, bind, Except.bind]

end Sys2Proof.Laws
end

