-- ==== Sys2Proof/Laws/PerInstr.lean ====
section
/-! SUPPORT. Decoding gives back what encoding wrote: a lemma for each field of each format, and one for each instruction. -/

namespace Sys2Proof.Laws

@[simp] theorem fMajor_packA (major : BitVec 6) (d : BitVec 5) (a : BitVec 5) (b : BitVec 5) (sub : BitVec 5) (t : BitVec 3) (g : BitVec 3) : fMajor (packA major d a b sub t g) = major := by
  ext i h
  interval_cases i <;> simp [fMajor, packA]

@[simp] theorem fD_packA (major : BitVec 6) (d : BitVec 5) (a : BitVec 5) (b : BitVec 5) (sub : BitVec 5) (t : BitVec 3) (g : BitVec 3) : fD (packA major d a b sub t g) = d := by
  ext i h
  interval_cases i <;> simp [fD, packA]

@[simp] theorem fA_packA (major : BitVec 6) (d : BitVec 5) (a : BitVec 5) (b : BitVec 5) (sub : BitVec 5) (t : BitVec 3) (g : BitVec 3) : fA (packA major d a b sub t g) = a := by
  ext i h
  interval_cases i <;> simp [fA, packA]

@[simp] theorem fB_packA (major : BitVec 6) (d : BitVec 5) (a : BitVec 5) (b : BitVec 5) (sub : BitVec 5) (t : BitVec 3) (g : BitVec 3) : fB (packA major d a b sub t g) = b := by
  ext i h
  interval_cases i <;> simp [fB, packA]

@[simp] theorem fSub_packA (major : BitVec 6) (d : BitVec 5) (a : BitVec 5) (b : BitVec 5) (sub : BitVec 5) (t : BitVec 3) (g : BitVec 3) : fSub (packA major d a b sub t g) = sub := by
  ext i h
  interval_cases i <;> simp [fSub, packA]

@[simp] theorem fT_packA (major : BitVec 6) (d : BitVec 5) (a : BitVec 5) (b : BitVec 5) (sub : BitVec 5) (t : BitVec 3) (g : BitVec 3) : fT (packA major d a b sub t g) = t := by
  ext i h
  interval_cases i <;> simp [fT, packA]

@[simp] theorem fG_packA (major : BitVec 6) (d : BitVec 5) (a : BitVec 5) (b : BitVec 5) (sub : BitVec 5) (t : BitVec 3) (g : BitVec 3) : fG (packA major d a b sub t g) = g := by
  ext i h
  interval_cases i <;> simp [fG, packA]

@[simp] theorem fMajor_packF (major : BitVec 6) (d : BitVec 5) (a : BitVec 5) (b : BitVec 5) (sub : BitVec 5) (code : BitVec 4) (low : BitVec 2) : fMajor (packF major d a b sub code low) = major := by
  ext i h
  interval_cases i <;> simp [fMajor, packF]

@[simp] theorem fD_packF (major : BitVec 6) (d : BitVec 5) (a : BitVec 5) (b : BitVec 5) (sub : BitVec 5) (code : BitVec 4) (low : BitVec 2) : fD (packF major d a b sub code low) = d := by
  ext i h
  interval_cases i <;> simp [fD, packF]

@[simp] theorem fA_packF (major : BitVec 6) (d : BitVec 5) (a : BitVec 5) (b : BitVec 5) (sub : BitVec 5) (code : BitVec 4) (low : BitVec 2) : fA (packF major d a b sub code low) = a := by
  ext i h
  interval_cases i <;> simp [fA, packF]

@[simp] theorem fB_packF (major : BitVec 6) (d : BitVec 5) (a : BitVec 5) (b : BitVec 5) (sub : BitVec 5) (code : BitVec 4) (low : BitVec 2) : fB (packF major d a b sub code low) = b := by
  ext i h
  interval_cases i <;> simp [fB, packF]

@[simp] theorem fSub_packF (major : BitVec 6) (d : BitVec 5) (a : BitVec 5) (b : BitVec 5) (sub : BitVec 5) (code : BitVec 4) (low : BitVec 2) : fSub (packF major d a b sub code low) = sub := by
  ext i h
  interval_cases i <;> simp [fSub, packF]

@[simp] theorem fCode_packF (major : BitVec 6) (d : BitVec 5) (a : BitVec 5) (b : BitVec 5) (sub : BitVec 5) (code : BitVec 4) (low : BitVec 2) : fCode (packF major d a b sub code low) = code := by
  ext i h
  interval_cases i <;> simp [fCode, packF]

@[simp] theorem fLow_packF (major : BitVec 6) (d : BitVec 5) (a : BitVec 5) (b : BitVec 5) (sub : BitVec 5) (code : BitVec 4) (low : BitVec 2) : fLow (packF major d a b sub code low) = low := by
  ext i h
  interval_cases i <;> simp [fLow, packF]

@[simp] theorem fMajor_packI (major : BitVec 6) (d : BitVec 5) (a : BitVec 5) (imm : BitVec 16) : fMajor (packI major d a imm) = major := by
  ext i h
  interval_cases i <;> simp [fMajor, packI]

@[simp] theorem fD_packI (major : BitVec 6) (d : BitVec 5) (a : BitVec 5) (imm : BitVec 16) : fD (packI major d a imm) = d := by
  ext i h
  interval_cases i <;> simp [fD, packI]

@[simp] theorem fA_packI (major : BitVec 6) (d : BitVec 5) (a : BitVec 5) (imm : BitVec 16) : fA (packI major d a imm) = a := by
  ext i h
  interval_cases i <;> simp [fA, packI]

@[simp] theorem fImm_packI (major : BitVec 6) (d : BitVec 5) (a : BitVec 5) (imm : BitVec 16) : fImm (packI major d a imm) = imm := by
  ext i h
  interval_cases i <;> simp [fImm, packI]

@[simp] theorem fMajor_packB (major : BitVec 6) (d : BitVec 5) (cond : BitVec 3) (disp : BitVec 18) : fMajor (packB major d cond disp) = major := by
  ext i h
  interval_cases i <;> simp [fMajor, packB]

@[simp] theorem fD_packB (major : BitVec 6) (d : BitVec 5) (cond : BitVec 3) (disp : BitVec 18) : fD (packB major d cond disp) = d := by
  ext i h
  interval_cases i <;> simp [fD, packB]

@[simp] theorem fCond_packB (major : BitVec 6) (d : BitVec 5) (cond : BitVec 3) (disp : BitVec 18) : fCond (packB major d cond disp) = cond := by
  ext i h
  interval_cases i <;> simp [fCond, packB]

@[simp] theorem fDisp_packB (major : BitVec 6) (d : BitVec 5) (cond : BitVec 3) (disp : BitVec 18) : fDisp (packB major d cond disp) = disp := by
  ext i h
  interval_cases i <;> simp [fDisp, packB]

@[simp] theorem fMajor_packM (major : BitVec 6) (d : BitVec 5) (a : BitVec 5) (b : BitVec 5) (size : BitVec 2) (off : BitVec 9) : fMajor (packM major d a b size off) = major := by
  ext i h
  interval_cases i <;> simp [fMajor, packM]

@[simp] theorem fD_packM (major : BitVec 6) (d : BitVec 5) (a : BitVec 5) (b : BitVec 5) (size : BitVec 2) (off : BitVec 9) : fD (packM major d a b size off) = d := by
  ext i h
  interval_cases i <;> simp [fD, packM]

@[simp] theorem fA_packM (major : BitVec 6) (d : BitVec 5) (a : BitVec 5) (b : BitVec 5) (size : BitVec 2) (off : BitVec 9) : fA (packM major d a b size off) = a := by
  ext i h
  interval_cases i <;> simp [fA, packM]

@[simp] theorem fB_packM (major : BitVec 6) (d : BitVec 5) (a : BitVec 5) (b : BitVec 5) (size : BitVec 2) (off : BitVec 9) : fB (packM major d a b size off) = b := by
  ext i h
  interval_cases i <;> simp [fB, packM]

@[simp] theorem fSize_packM (major : BitVec 6) (d : BitVec 5) (a : BitVec 5) (b : BitVec 5) (size : BitVec 2) (off : BitVec 9) : fSize (packM major d a b size off) = size := by
  ext i h
  interval_cases i <;> simp [fSize, packM]

@[simp] theorem fOff_packM (major : BitVec 6) (d : BitVec 5) (a : BitVec 5) (b : BitVec 5) (size : BitVec 2) (off : BitVec 9) : fOff (packM major d a b size off) = off := by
  ext i h
  interval_cases i <;> simp [fOff, packM]

@[simp] theorem fMajor_packE (major : BitVec 6) (d : BitVec 5) (a : BitVec 5) (b : BitVec 5) (ctx : BitVec 3) (op : BitVec 8) : fMajor (packE major d a b ctx op) = major := by
  ext i h
  interval_cases i <;> simp [fMajor, packE]

@[simp] theorem fD_packE (major : BitVec 6) (d : BitVec 5) (a : BitVec 5) (b : BitVec 5) (ctx : BitVec 3) (op : BitVec 8) : fD (packE major d a b ctx op) = d := by
  ext i h
  interval_cases i <;> simp [fD, packE]

@[simp] theorem fA_packE (major : BitVec 6) (d : BitVec 5) (a : BitVec 5) (b : BitVec 5) (ctx : BitVec 3) (op : BitVec 8) : fA (packE major d a b ctx op) = a := by
  ext i h
  interval_cases i <;> simp [fA, packE]

@[simp] theorem fB_packE (major : BitVec 6) (d : BitVec 5) (a : BitVec 5) (b : BitVec 5) (ctx : BitVec 3) (op : BitVec 8) : fB (packE major d a b ctx op) = b := by
  ext i h
  interval_cases i <;> simp [fB, packE]

@[simp] theorem fCtx_packE (major : BitVec 6) (d : BitVec 5) (a : BitVec 5) (b : BitVec 5) (ctx : BitVec 3) (op : BitVec 8) : fCtx (packE major d a b ctx op) = ctx := by
  ext i h
  interval_cases i <;> simp [fCtx, packE]

@[simp] theorem fOp_packE (major : BitVec 6) (d : BitVec 5) (a : BitVec 5) (b : BitVec 5) (ctx : BitVec 3) (op : BitVec 8) : fOp (packE major d a b ctx op) = op := by
  ext i h
  interval_cases i <;> simp [fOp, packE]

@[simp] theorem fMajor_packX (major : BitVec 6) (tag : BitVec 6) (seq : BitVec 8) (kdep : BitVec 4) (afmt : BitVec 3) (rows : BitVec 5) : fMajor (packX major tag seq kdep afmt rows) = major := by
  ext i h
  interval_cases i <;> simp [fMajor, packX]

@[simp] theorem fTag_packX (major : BitVec 6) (tag : BitVec 6) (seq : BitVec 8) (kdep : BitVec 4) (afmt : BitVec 3) (rows : BitVec 5) : fTag (packX major tag seq kdep afmt rows) = tag := by
  ext i h
  interval_cases i <;> simp [fTag, packX]

@[simp] theorem fSeq_packX (major : BitVec 6) (tag : BitVec 6) (seq : BitVec 8) (kdep : BitVec 4) (afmt : BitVec 3) (rows : BitVec 5) : fSeq (packX major tag seq kdep afmt rows) = seq := by
  ext i h
  interval_cases i <;> simp [fSeq, packX]

@[simp] theorem fKdep_packX (major : BitVec 6) (tag : BitVec 6) (seq : BitVec 8) (kdep : BitVec 4) (afmt : BitVec 3) (rows : BitVec 5) : fKdep (packX major tag seq kdep afmt rows) = kdep := by
  ext i h
  interval_cases i <;> simp [fKdep, packX]

@[simp] theorem fAfmt_packX (major : BitVec 6) (tag : BitVec 6) (seq : BitVec 8) (kdep : BitVec 4) (afmt : BitVec 3) (rows : BitVec 5) : fAfmt (packX major tag seq kdep afmt rows) = afmt := by
  ext i h
  interval_cases i <;> simp [fAfmt, packX]

@[simp] theorem fRows_packX (major : BitVec 6) (tag : BitVec 6) (seq : BitVec 8) (kdep : BitVec 4) (afmt : BitVec 3) (rows : BitVec 5) : fRows (packX major tag seq kdep afmt rows) = rows := by
  ext i h
  interval_cases i <;> simp [fRows, packX]

/-- The high part of two parts put together. -/
theorem high_part {n m : Nat} (a : BitVec n) (b : BitVec m) : (a ++ b).extractLsb' m n = a := by
  ext i h
  simp [BitVec.getLsbD_append, h]

/-- The low part of two parts put together. -/
theorem low_part {n m : Nat} (a : BitVec n) (b : BitVec m) : (a ++ b).extractLsb' 0 m = b := by
  ext i h
  simp [BitVec.getLsbD_append, h]

@[simp] theorem high_1_4 (a : BitVec 1) (b : BitVec 4) : BitVec.extractLsb' (n := 5) 4 1 (a ++ b) = a := high_part a b

@[simp] theorem low_1_4 (a : BitVec 1) (b : BitVec 4) : BitVec.extractLsb' (n := 5) 0 4 (a ++ b) = b := low_part a b

@[simp] theorem high_10_6 (a : BitVec 10) (b : BitVec 6) : BitVec.extractLsb' (n := 16) 6 10 (a ++ b) = a := high_part a b

@[simp] theorem low_10_6 (a : BitVec 10) (b : BitVec 6) : BitVec.extractLsb' (n := 16) 0 6 (a ++ b) = b := low_part a b

@[simp] theorem high_3_13 (a : BitVec 3) (b : BitVec 13) : BitVec.extractLsb' (n := 16) 13 3 (a ++ b) = a := high_part a b

@[simp] theorem low_3_13 (a : BitVec 3) (b : BitVec 13) : BitVec.extractLsb' (n := 16) 0 13 (a ++ b) = b := low_part a b

@[simp] theorem high_1_2 (a : BitVec 1) (b : BitVec 2) : BitVec.extractLsb' (n := 3) 2 1 (a ++ b) = a := high_part a b

@[simp] theorem low_1_2 (a : BitVec 1) (b : BitVec 2) : BitVec.extractLsb' (n := 3) 0 2 (a ++ b) = b := low_part a b

/-- What the round trip says of one instruction: its word, if it has one, decodes to it. -/
def RoundTrip.Statement (i : Instr) : Prop := ∀ w, encode i = some w → decode w = .ok i

theorem RoundTrip.add (d a b : BitVec 5) (t g : BitVec 3) : RoundTrip.Statement (.add d a b t g) := by
  intro w h
  cases h
  simp [decode, decodeInt]

theorem RoundTrip.sub (d a b : BitVec 5) (t g : BitVec 3) : RoundTrip.Statement (.sub d a b t g) := by
  intro w h
  cases h
  simp [decode, decodeInt]

theorem RoundTrip.mul (d a b : BitVec 5) (t g : BitVec 3) : RoundTrip.Statement (.mul d a b t g) := by
  intro w h
  cases h
  simp [decode, decodeInt]

theorem RoundTrip.mulh (d a b : BitVec 5) (t g : BitVec 3) : RoundTrip.Statement (.mulh d a b t g) := by
  intro w h
  cases h
  simp [decode, decodeInt]

theorem RoundTrip.mulhu (d a b : BitVec 5) (t g : BitVec 3) : RoundTrip.Statement (.mulhu d a b t g) := by
  intro w h
  cases h
  simp [decode, decodeInt]

theorem RoundTrip.and (d a b : BitVec 5) (t g : BitVec 3) : RoundTrip.Statement (.and d a b t g) := by
  intro w h
  cases h
  simp [decode, decodeInt]

theorem RoundTrip.or (d a b : BitVec 5) (t g : BitVec 3) : RoundTrip.Statement (.or d a b t g) := by
  intro w h
  cases h
  simp [decode, decodeInt]

theorem RoundTrip.xor (d a b : BitVec 5) (t g : BitVec 3) : RoundTrip.Statement (.xor d a b t g) := by
  intro w h
  cases h
  simp [decode, decodeInt]

theorem RoundTrip.shl (d a b : BitVec 5) (t g : BitVec 3) : RoundTrip.Statement (.shl d a b t g) := by
  intro w h
  cases h
  simp [decode, decodeInt]

theorem RoundTrip.shr (d a b : BitVec 5) (t g : BitVec 3) : RoundTrip.Statement (.shr d a b t g) := by
  intro w h
  cases h
  simp [decode, decodeInt]

theorem RoundTrip.sra (d a b : BitVec 5) (t g : BitVec 3) : RoundTrip.Statement (.sra d a b t g) := by
  intro w h
  cases h
  simp [decode, decodeInt]

theorem RoundTrip.min (d a b : BitVec 5) (t g : BitVec 3) : RoundTrip.Statement (.min d a b t g) := by
  intro w h
  cases h
  simp [decode, decodeInt]

theorem RoundTrip.max (d a b : BitVec 5) (t g : BitVec 3) : RoundTrip.Statement (.max d a b t g) := by
  intro w h
  cases h
  simp [decode, decodeInt]

theorem RoundTrip.minu (d a b : BitVec 5) (t g : BitVec 3) : RoundTrip.Statement (.minu d a b t g) := by
  intro w h
  cases h
  simp [decode, decodeInt]

theorem RoundTrip.maxu (d a b : BitVec 5) (t g : BitVec 3) : RoundTrip.Statement (.maxu d a b t g) := by
  intro w h
  cases h
  simp [decode, decodeInt]

theorem RoundTrip.cmp (d a b : BitVec 5) (t c : BitVec 3) : RoundTrip.Statement (.cmp d a b t c) := by
  intro w h
  cases h
  simp [decode, decodeInt]

theorem RoundTrip.sel (d a b : BitVec 5) (t g : BitVec 3) : RoundTrip.Statement (.sel d a b t g) := by
  intro w h
  cases h
  simp [decode, decodeInt]

theorem RoundTrip.clz (d a : BitVec 5) (t g : BitVec 3) : RoundTrip.Statement (.clz d a t g) := by
  intro w h
  cases h
  simp [decode, decodeInt]

theorem RoundTrip.popc (d a : BitVec 5) (t g : BitVec 3) : RoundTrip.Statement (.popc d a t g) := by
  intro w h
  cases h
  simp [decode, decodeInt]

theorem RoundTrip.sext (d a b : BitVec 5) (g : BitVec 3) : RoundTrip.Statement (.sext d a b g) := by
  intro w h
  cases h
  simp [decode, decodeInt]

theorem RoundTrip.div (d a b : BitVec 5) (t : BitVec 3) : RoundTrip.Statement (.div d a b t) := by
  intro w h
  cases h
  simp [decode, decodeDiv]

theorem RoundTrip.divu (d a b : BitVec 5) (t : BitVec 3) : RoundTrip.Statement (.divu d a b t) := by
  intro w h
  cases h
  simp [decode, decodeDiv]

theorem RoundTrip.rem (d a b : BitVec 5) (t : BitVec 3) : RoundTrip.Statement (.rem d a b t) := by
  intro w h
  cases h
  simp [decode, decodeDiv]

theorem RoundTrip.remu (d a b : BitVec 5) (t : BitVec 3) : RoundTrip.Statement (.remu d a b t) := by
  intro w h
  cases h
  simp [decode, decodeDiv]

theorem RoundTrip.fadd (d a b : BitVec 5) (t g : BitVec 3) : RoundTrip.Statement (.fadd d a b t g) := by
  intro w h
  cases h
  simp [decode, decodeFp]

theorem RoundTrip.fsub (d a b : BitVec 5) (t g : BitVec 3) : RoundTrip.Statement (.fsub d a b t g) := by
  intro w h
  cases h
  simp [decode, decodeFp]

theorem RoundTrip.fmul (d a b : BitVec 5) (t g : BitVec 3) : RoundTrip.Statement (.fmul d a b t g) := by
  intro w h
  cases h
  simp [decode, decodeFp]

theorem RoundTrip.ffma (d a b : BitVec 5) (t g : BitVec 3) : RoundTrip.Statement (.ffma d a b t g) := by
  intro w h
  cases h
  simp [decode, decodeFp]

theorem RoundTrip.fmin (d a b : BitVec 5) (t g : BitVec 3) : RoundTrip.Statement (.fmin d a b t g) := by
  intro w h
  cases h
  simp [decode, decodeFp]

theorem RoundTrip.fmax (d a b : BitVec 5) (t g : BitVec 3) : RoundTrip.Statement (.fmax d a b t g) := by
  intro w h
  cases h
  simp [decode, decodeFp]

theorem RoundTrip.fcmp (d a b : BitVec 5) (t c : BitVec 3) : RoundTrip.Statement (.fcmp d a b t c) := by
  intro w h
  cases h
  simp [decode, decodeFp]

theorem RoundTrip.fcvt (d a : BitVec 5) (dst src : BitVec 4) : RoundTrip.Statement (.fcvt d a dst src) := by
  intro w h
  cases h
  simp [decode, decodeFp]

theorem RoundTrip.frcp (d a : BitVec 5) (t g : BitVec 3) : RoundTrip.Statement (.frcp d a t g) := by
  intro w h
  cases h
  simp [decode, decodeFp]

theorem RoundTrip.fsqrt (d a : BitVec 5) (t g : BitVec 3) : RoundTrip.Statement (.fsqrt d a t g) := by
  intro w h
  cases h
  simp [decode, decodeFp]

theorem RoundTrip.fexp2 (d a : BitVec 5) (t g : BitVec 3) : RoundTrip.Statement (.fexp2 d a t g) := by
  intro w h
  cases h
  simp [decode, decodeFp]

theorem RoundTrip.vadd (d a b : BitVec 5) (t g : BitVec 3) : RoundTrip.Statement (.vadd d a b t g) := by
  intro w h
  cases h
  simp [decode, decodeVec]

theorem RoundTrip.vsub (d a b : BitVec 5) (t g : BitVec 3) : RoundTrip.Statement (.vsub d a b t g) := by
  intro w h
  cases h
  simp [decode, decodeVec]

theorem RoundTrip.vmul (d a b : BitVec 5) (t g : BitVec 3) : RoundTrip.Statement (.vmul d a b t g) := by
  intro w h
  cases h
  simp [decode, decodeVec]

theorem RoundTrip.vfma (d a b : BitVec 5) (t g : BitVec 3) : RoundTrip.Statement (.vfma d a b t g) := by
  intro w h
  cases h
  simp [decode, decodeVec]

theorem RoundTrip.vmin (d a b : BitVec 5) (t g : BitVec 3) : RoundTrip.Statement (.vmin d a b t g) := by
  intro w h
  cases h
  simp [decode, decodeVec]

theorem RoundTrip.vmax (d a b : BitVec 5) (t g : BitVec 3) : RoundTrip.Statement (.vmax d a b t g) := by
  intro w h
  cases h
  simp [decode, decodeVec]

theorem RoundTrip.vcmp (d a b : BitVec 5) (t c : BitVec 3) : RoundTrip.Statement (.vcmp d a b t c) := by
  intro w h
  cases h
  simp [decode, decodeVec]

theorem RoundTrip.vsel (d a b : BitVec 5) (t g : BitVec 3) : RoundTrip.Statement (.vsel d a b t g) := by
  intro w h
  cases h
  simp [decode, decodeVec]

theorem RoundTrip.vcvt (d a : BitVec 5) (dst src : BitVec 4) : RoundTrip.Statement (.vcvt d a dst src) := by
  intro w h
  cases h
  simp [decode, decodeVec]

theorem RoundTrip.vred (d a : BitVec 5) (t r : BitVec 3) : RoundTrip.Statement (.vred d a t r) := by
  intro w h
  cases h
  simp [decode, decodeVec]

theorem RoundTrip.vshuf (d a b : BitVec 5) (t g : BitVec 3) : RoundTrip.Statement (.vshuf d a b t g) := by
  intro w h
  cases h
  simp [decode, decodeVec]

theorem RoundTrip.vbcast (d a : BitVec 5) (t g : BitVec 3) : RoundTrip.Statement (.vbcast d a t g) := by
  intro w h
  cases h
  simp [decode, decodeVec]

theorem RoundTrip.vpack (d a b : BitVec 5) (t g : BitVec 3) : RoundTrip.Statement (.vpack d a b t g) := by
  intro w h
  cases h
  simp [decode, decodeVec]

theorem RoundTrip.vunpk (d a : BitVec 5) (t g : BitVec 3) : RoundTrip.Statement (.vunpk d a t g) := by
  intro w h
  cases h
  simp [decode, decodeVec]

theorem RoundTrip.vexp2 (d a : BitVec 5) (t g : BitVec 3) : RoundTrip.Statement (.vexp2 d a t g) := by
  intro w h
  cases h
  simp [decode, decodeVec]

theorem RoundTrip.vrcp (d a : BitVec 5) (t g : BitVec 3) : RoundTrip.Statement (.vrcp d a t g) := by
  intro w h
  cases h
  simp [decode, decodeVec]

theorem RoundTrip.addi (d a : BitVec 5) (i : BitVec 16) : RoundTrip.Statement (.addi d a i) := by
  intro w h
  cases h
  simp [decode]

theorem RoundTrip.andi (d a : BitVec 5) (i : BitVec 16) : RoundTrip.Statement (.andi d a i) := by
  intro w h
  cases h
  simp [decode]

theorem RoundTrip.ori (d a : BitVec 5) (i : BitVec 16) : RoundTrip.Statement (.ori d a i) := by
  intro w h
  cases h
  simp [decode]

theorem RoundTrip.xori (d a : BitVec 5) (i : BitVec 16) : RoundTrip.Statement (.xori d a i) := by
  intro w h
  cases h
  simp [decode]

theorem RoundTrip.shli (d a : BitVec 5) (n : BitVec 6) : RoundTrip.Statement (.shli d a n) := by
  intro w h
  cases h
  simp [decode, decodeShift]

theorem RoundTrip.shri (d a : BitVec 5) (n : BitVec 6) : RoundTrip.Statement (.shri d a n) := by
  intro w h
  cases h
  simp [decode, decodeShift]

theorem RoundTrip.srai (d a : BitVec 5) (n : BitVec 6) : RoundTrip.Statement (.srai d a n) := by
  intro w h
  cases h
  simp [decode, decodeShift]

theorem RoundTrip.cmpi (d a : BitVec 5) (c : BitVec 3) (i : BitVec 13) : RoundTrip.Statement (.cmpi d a c i) := by
  intro w h
  cases h
  simp [decode]

theorem RoundTrip.lih (d a : BitVec 5) (i : BitVec 16) : RoundTrip.Statement (.lih d a i) := by
  intro w h
  cases h
  simp [decode]

theorem RoundTrip.br (c : BitVec 5) (k : BitVec 3) (i : BitVec 18) : RoundTrip.Statement (.br c k i) := by
  intro w h
  cases h
  simp [decode]

theorem RoundTrip.jal (c : BitVec 5) (i : BitVec 18) : RoundTrip.Statement (.jal c i) := by
  intro w h
  cases h
  simp [decode]

theorem RoundTrip.jr (d a : BitVec 5) (i : BitVec 16) : RoundTrip.Statement (.jr d a i) := by
  intro w h
  cases h
  simp [decode]

theorem RoundTrip.loop (c : BitVec 5) (i : BitVec 18) : RoundTrip.Statement (.loop c i) := by
  intro w h
  cases h
  simp [decode]

theorem RoundTrip.ld (d b l : BitVec 5) (s : BitVec 2) (o : BitVec 9) : RoundTrip.Statement (.ld d b l s o) := by
  intro w h
  cases h
  simp [decode]

theorem RoundTrip.st (d b l : BitVec 5) (s : BitVec 2) (o : BitVec 9) : RoundTrip.Statement (.st d b l s o) := by
  intro w h
  cases h
  simp [decode]

theorem RoundTrip.ldv (d b l : BitVec 5) (o : BitVec 9) : RoundTrip.Statement (.ldv d b l o) := by
  intro w h
  cases h
  simp [decode]

theorem RoundTrip.stv (d b l : BitVec 5) (o : BitVec 9) : RoundTrip.Statement (.stv d b l o) := by
  intro w h
  cases h
  simp [decode]

theorem RoundTrip.twigCommit (who : Agent) : RoundTrip.Statement (.twigCommit who) := by
  intro w h; cases h

theorem RoundTrip.amo (d a b o : BitVec 5) (t : BitVec 3) : RoundTrip.Statement (.amo d a b o t) := by
  intro w h
  cases h
  simp [decode, decodeAmo]

theorem RoundTrip.cas (d a b : BitVec 5) (t : BitVec 3) : RoundTrip.Statement (.cas d a b t) := by
  intro w h
  cases h
  simp [decode, decodeCas]

theorem RoundTrip.fence (d : BitVec 5) : RoundTrip.Statement (.fence d) := by
  intro w h
  cases h
  simp [decode, decodeOrd]

theorem RoundTrip.waittl (d a b : BitVec 5) : RoundTrip.Statement (.waittl d a b) := by
  intro w h
  cases h
  simp [decode, decodeOrd]

theorem RoundTrip.tlrd (d b : BitVec 5) : RoundTrip.Statement (.tlrd d b) := by
  intro w h
  cases h
  simp [decode, decodeOrd]

theorem RoundTrip.send (d a : BitVec 5) (c : BitVec 6) : RoundTrip.Statement (.send d a c) := by
  intro w h
  cases h
  simp [decode]

theorem RoundTrip.recv (d : BitVec 5) (c : BitVec 6) : RoundTrip.Statement (.recv d c) := by
  intro w h
  cases h
  simp [decode]

theorem RoundTrip.spawn (d a b : BitVec 5) : RoundTrip.Statement (.spawn d a b) := by
  intro w h
  cases h
  simp [decode, decodeTask]

theorem RoundTrip.yieldUntil (a : BitVec 5) : RoundTrip.Statement (.yieldUntil a) := by
  intro w h
  cases h
  simp [decode, decodeTask]

theorem RoundTrip.widf (d n : BitVec 5) : RoundTrip.Statement (.widf d n) := by
  intro w h
  cases h
  simp [decode, decodeTask]

theorem RoundTrip.colr (d : BitVec 5) : RoundTrip.Statement (.colr d) := by
  intro w h
  cases h
  simp [decode, decodeTask]

theorem RoundTrip.launch (d a : BitVec 5) : RoundTrip.Statement (.launch d a) := by
  intro w h
  cases h
  simp [decode, decodeTask]

theorem RoundTrip.hfill (d a : BitVec 5) : RoundTrip.Statement (.hfill d a) := by
  intro w h
  cases h
  simp [decode, decodeHbuf]

theorem RoundTrip.hfillTry (d a : BitVec 5) : RoundTrip.Statement (.hfillTry d a) := by
  intro w h
  cases h
  simp [decode, decodeHbuf]

theorem RoundTrip.hpost (a b : BitVec 5) : RoundTrip.Statement (.hpost a b) := by
  intro w h
  cases h
  simp [decode, decodeHbuf]

theorem RoundTrip.htake (d a : BitVec 5) : RoundTrip.Statement (.htake d a) := by
  intro w h
  cases h
  simp [decode, decodeHbuf]

theorem RoundTrip.htakeTry (d a : BitVec 5) : RoundTrip.Statement (.htakeTry d a) := by
  intro w h
  cases h
  simp [decode, decodeHbuf]

theorem RoundTrip.hfree (a b : BitVec 5) : RoundTrip.Statement (.hfree a b) := by
  intro w h
  cases h
  simp [decode, decodeHbuf]

theorem RoundTrip.hwait (d a b : BitVec 5) : RoundTrip.Statement (.hwait d a b) := by
  intro w h
  cases h
  simp [decode, decodeHbuf]

theorem RoundTrip.hstat (d a : BitVec 5) (w : BitVec 2) : RoundTrip.Statement (.hstat d a w) := by
  intro w h
  cases h
  simp [decode, decodeHbuf]

theorem RoundTrip.scopy (d e h : BitVec 5) (c : BitVec 3) : RoundTrip.Statement (.scopy d e h c) := by
  intro w h
  cases h
  simp [decode, decodeEng]

theorem RoundTrip.sfeed (d e h : BitVec 5) (c : BitVec 3) : RoundTrip.Statement (.sfeed d e h c) := by
  intro w h
  cases h
  simp [decode, decodeEng]

theorem RoundTrip.sdrain (d e h : BitVec 5) (c : BitVec 3) : RoundTrip.Statement (.sdrain d e h c) := by
  intro w h
  cases h
  simp [decode, decodeEng]

theorem RoundTrip.smcast (d e h : BitVec 5) (c : BitVec 3) : RoundTrip.Statement (.smcast d e h c) := by
  intro w h
  cases h
  simp [decode, decodeEng]

theorem RoundTrip.sgath (d e h : BitVec 5) (c : BitVec 3) : RoundTrip.Statement (.sgath d e h c) := by
  intro w h
  cases h
  simp [decode, decodeEng]

theorem RoundTrip.sscat (d e h : BitVec 5) (c : BitVec 3) : RoundTrip.Statement (.sscat d e h c) := by
  intro w h
  cases h
  simp [decode, decodeEng]

theorem RoundTrip.srowc (d e h : BitVec 5) (c : BitVec 3) : RoundTrip.Statement (.srowc d e h c) := by
  intro w h
  cases h
  simp [decode, decodeEng]

theorem RoundTrip.srowz (d e h : BitVec 5) (c : BitVec 3) : RoundTrip.Statement (.srowz d e h c) := by
  intro w h
  cases h
  simp [decode, decodeEng]

theorem RoundTrip.scanc (d h : BitVec 5) (c : BitVec 3) : RoundTrip.Statement (.scanc d h c) := by
  intro w h
  cases h
  simp [decode, decodeEng]

theorem RoundTrip.gsend (d e h : BitVec 5) (c : BitVec 3) : RoundTrip.Statement (.gsend d e h c) := by
  intro w h
  cases h
  simp [decode, decodeEng]

theorem RoundTrip.frd (d k n : BitVec 5) : RoundTrip.Statement (.frd d k n) := by
  intro w h
  cases h
  simp [decode, decodeFront]

theorem RoundTrip.frdStat (d k : BitVec 5) : RoundTrip.Statement (.frdStat d k) := by
  intro w h
  cases h
  simp [decode, decodeFront]

theorem RoundTrip.frdTime (d : BitVec 5) : RoundTrip.Statement (.frdTime d) := by
  intro w h
  cases h
  simp [decode, decodeFront]

theorem RoundTrip.fwait (d k b : BitVec 5) : RoundTrip.Statement (.fwait d k b) := by
  intro w h
  cases h
  simp [decode, decodeFront]

theorem RoundTrip.fadv (d a b : BitVec 5) : RoundTrip.Statement (.fadv d a b) := by
  intro w h
  cases h
  simp [decode, decodeFront]

theorem RoundTrip.ahold (d a b : BitVec 5) : RoundTrip.Statement (.ahold d a b) := by
  intro w h
  cases h
  simp [decode, decodeFront]

theorem RoundTrip.arel (d a : BitVec 5) : RoundTrip.Statement (.arel d a) := by
  intro w h
  cases h
  simp [decode, decodeFront]

theorem RoundTrip.acmp (d a : BitVec 5) : RoundTrip.Statement (.acmp d a) := by
  intro w h
  cases h
  simp [decode, decodeFront]

theorem RoundTrip.resd (d a b : BitVec 5) : RoundTrip.Statement (.resd d a b) := by
  intro w h
  cases h
  simp [decode, decodeRes]

theorem RoundTrip.resdE0 (d a b : BitVec 5) : RoundTrip.Statement (.resdE0 d a b) := by
  intro w h
  cases h
  simp [decode, decodeRes]

theorem RoundTrip.resdE1 (d a b : BitVec 5) : RoundTrip.Statement (.resdE1 d a b) := by
  intro w h
  cases h
  simp [decode, decodeRes]

theorem RoundTrip.resw (a b : BitVec 5) : RoundTrip.Statement (.resw a b) := by
  intro w h
  cases h
  simp [decode, decodeRes]

theorem RoundTrip.tilereg (d a b : BitVec 5) : RoundTrip.Statement (.tilereg d a b) := by
  intro w h
  cases h
  simp [decode, decodeRes]

theorem RoundTrip.rld (d a b : BitVec 5) : RoundTrip.Statement (.rld d a b) := by
  intro w h
  cases h
  simp [decode, decodeRem]

theorem RoundTrip.rldB32 (d a b : BitVec 5) : RoundTrip.Statement (.rldB32 d a b) := by
  intro w h
  cases h
  simp [decode, decodeRem]

theorem RoundTrip.rldB64 (d a b : BitVec 5) : RoundTrip.Statement (.rldB64 d a b) := by
  intro w h
  cases h
  simp [decode, decodeRem]

theorem RoundTrip.rldB128 (d a b : BitVec 5) : RoundTrip.Statement (.rldB128 d a b) := by
  intro w h
  cases h
  simp [decode, decodeRem]

theorem RoundTrip.rldDone (d : BitVec 5) : RoundTrip.Statement (.rldDone d) := by
  intro w h
  cases h
  simp [decode, decodeRem]

theorem RoundTrip.rst (d a b : BitVec 5) : RoundTrip.Statement (.rst d a b) := by
  intro w h
  cases h
  simp [decode, decodeRem]

theorem RoundTrip.rstB32 (d a b : BitVec 5) : RoundTrip.Statement (.rstB32 d a b) := by
  intro w h
  cases h
  simp [decode, decodeRem]

theorem RoundTrip.rstB64 (d a b : BitVec 5) : RoundTrip.Statement (.rstB64 d a b) := by
  intro w h
  cases h
  simp [decode, decodeRem]

theorem RoundTrip.rstB128 (d a b : BitVec 5) : RoundTrip.Statement (.rstB128 d a b) := by
  intro w h
  cases h
  simp [decode, decodeRem]

theorem RoundTrip.ramo (d a b : BitVec 5) (t o : BitVec 3) : RoundTrip.Statement (.ramo d a b t o) := by
  intro w h
  cases h
  simp [decode, decodeRem]

theorem RoundTrip.grsv (d a b : BitVec 5) : RoundTrip.Statement (.grsv d a b) := by
  intro w h
  cases h
  simp [decode, decodeRem]

theorem RoundTrip.abpost (d a b : BitVec 5) : RoundTrip.Statement (.abpost d a b) := by
  intro w h
  cases h
  simp [decode, decodeRem]

theorem RoundTrip.abwait (d a : BitVec 5) : RoundTrip.Statement (.abwait d a) := by
  intro w h
  cases h
  simp [decode, decodeRem]

theorem RoundTrip.gclr (d a : BitVec 5) : RoundTrip.Statement (.gclr d a) := by
  intro w h
  cases h
  simp [decode, decodeRem]

theorem RoundTrip.gclrDone (d a : BitVec 5) : RoundTrip.Statement (.gclrDone d a) := by
  intro w h
  cases h
  simp [decode, decodeRem]

theorem RoundTrip.mma (t : BitVec 6) (s : BitVec 8) (k : BitVec 4) (f : BitVec 3) (m : BitVec 5) : RoundTrip.Statement (.mma t s k f m) := by
  intro w h
  cases h
  simp [decode]

theorem RoundTrip.mldb (a b : BitVec 5) (f : BitVec 3) : RoundTrip.Statement (.mldb a b f) := by
  intro w h
  cases h
  simp [decode, decodeMx]

theorem RoundTrip.mrd (d a b : BitVec 5) (f : BitVec 4) : RoundTrip.Statement (.mrd d a b f) := by
  intro w h
  cases h
  simp [decode, decodeMx]

theorem RoundTrip.mzero (a : BitVec 5) : RoundTrip.Statement (.mzero a) := by
  intro w h
  cases h
  simp [decode, decodeMx]

theorem RoundTrip.mscl (a b : BitVec 5) : RoundTrip.Statement (.mscl a b) := by
  intro w h
  cases h
  simp [decode, decodeMx]

theorem RoundTrip.mstat (d a : BitVec 5) : RoundTrip.Statement (.mstat d a) := by
  intro w h
  cases h
  simp [decode, decodeMx]

theorem RoundTrip.cfgwNode (a b : BitVec 5) : RoundTrip.Statement (.cfgwNode a b) := by
  intro w h
  cases h
  simp [decode, decodeCfgw]

theorem RoundTrip.cfgwTwig (a b : BitVec 5) : RoundTrip.Statement (.cfgwTwig a b) := by
  intro w h
  cases h
  simp [decode, decodeCfgw]

theorem RoundTrip.cfgwTwigMx (a b : BitVec 5) : RoundTrip.Statement (.cfgwTwigMx a b) := by
  intro w h
  cases h
  simp [decode, decodeCfgw]

theorem RoundTrip.cfgwShape (a b : BitVec 5) : RoundTrip.Statement (.cfgwShape a b) := by
  intro w h
  cases h
  simp [decode, decodeCfgw]

theorem RoundTrip.cfgwCtx (a b : BitVec 5) : RoundTrip.Statement (.cfgwCtx a b) := by
  intro w h
  cases h
  simp [decode, decodeCfgw]

theorem RoundTrip.nodeReconfigure (cell : Nat) : RoundTrip.Statement (.nodeReconfigure cell) := by
  intro w h; cases h

theorem RoundTrip.twigStoreWrite (mx : Bool) (unit : Nat) : RoundTrip.Statement (.twigStoreWrite mx unit) := by
  intro w h; cases h

theorem RoundTrip.trap (n : BitVec 5) : RoundTrip.Statement (.trap n) := by
  intro w h
  cases h
  simp [decode, decodeSys]

theorem RoundTrip.srd (d n : BitVec 5) : RoundTrip.Statement (.srd d n) := by
  intro w h
  cases h
  simp [decode, decodeSys]

theorem RoundTrip.swr (a n : BitVec 5) : RoundTrip.Statement (.swr a n) := by
  intro w h
  cases h
  simp [decode, decodeSys]

theorem RoundTrip.tlbinv (a b : BitVec 5) : RoundTrip.Statement (.tlbinv a b) := by
  intro w h
  cases h
  simp [decode, decodeSys]

theorem RoundTrip.tlbinvAsid (a : BitVec 5) : RoundTrip.Statement (.tlbinvAsid a) := by
  intro w h
  cases h
  simp [decode, decodeSys]

theorem RoundTrip.halt (a : BitVec 5) : RoundTrip.Statement (.halt a) := by
  intro w h
  cases h
  simp [decode, decodeSys]

theorem RoundTrip.haltRun (a : BitVec 5) : RoundTrip.Statement (.haltRun a) := by
  intro w h
  cases h
  simp [decode, decodeSys]

theorem RoundTrip.freeze (d a b : BitVec 5) (c : BitVec 3) : RoundTrip.Statement (.freeze d a b c) := by
  intro w h
  cases h
  simp [decode, decodeSys]

theorem RoundTrip.thaw (d a b : BitVec 5) (c : BitVec 3) : RoundTrip.Statement (.thaw d a b c) := by
  intro w h
  cases h
  simp [decode, decodeSys]

theorem RoundTrip.cfgflip (a b : BitVec 5) : RoundTrip.Statement (.cfgflip a b) := by
  intro w h
  cases h
  simp [decode, decodeSys]

theorem RoundTrip.ckill (a : BitVec 5) : RoundTrip.Statement (.ckill a) := by
  intro w h
  cases h
  simp [decode, decodeSys]

theorem RoundTrip.purgeWaveComplete (region : Nat) : RoundTrip.Statement (.purgeWaveComplete region) := by
  intro w h; cases h

theorem RoundTrip.dcapd (d a b : BitVec 5) : RoundTrip.Statement (.dcapd d a b) := by
  intro w h
  cases h
  simp [decode, decodeSys]

theorem RoundTrip.dcapr (d a : BitVec 5) : RoundTrip.Statement (.dcapr d a) := by
  intro w h
  cases h
  simp [decode, decodeSys]

theorem RoundTrip.graphLoad (region : Nat) (img : Image) : RoundTrip.Statement (.graphLoad region img) := by
  intro w h; cases h

theorem RoundTrip.linkPlanBind (port group role peer : Nat) (ptag : BitVec 32) : RoundTrip.Statement (.linkPlanBind port group role peer ptag) := by
  intro w h; cases h

theorem RoundTrip.tokenArrival (cell : Nat) : RoundTrip.Statement (.tokenArrival cell) := by
  intro w h; cases h

theorem RoundTrip.overflowRefill (cell : Nat) : RoundTrip.Statement (.overflowRefill cell) := by
  intro w h; cases h

theorem RoundTrip.colourGrant (region : Nat) : RoundTrip.Statement (.colourGrant region) := by
  intro w h; cases h

theorem RoundTrip.nagElement (cell gen : Nat) : RoundTrip.Statement (.nagElement cell gen) := by
  intro w h; cases h

theorem RoundTrip.orderedRequestPerform (cell req : Nat) : RoundTrip.Statement (.orderedRequestPerform cell req) := by
  intro w h; cases h

theorem RoundTrip.invokeAccept (r : RemoteReq) : RoundTrip.Statement (.invokeAccept r) := by
  intro w h; cases h

theorem RoundTrip.nlrx (cell node : Nat) : RoundTrip.Statement (.nlrx cell node) := by
  intro w h; cases h

theorem RoundTrip.dsrc (cell node : Nat) : RoundTrip.Statement (.dsrc cell node) := by
  intro w h; cases h

theorem RoundTrip.doutIdlePost (cell node : Nat) : RoundTrip.Statement (.doutIdlePost cell node) := by
  intro w h; cases h

theorem RoundTrip.dconFlush (cell node : Nat) : RoundTrip.Statement (.dconFlush cell node) := by
  intro w h; cases h

theorem RoundTrip.dprobeWatch (cell node : Nat) : RoundTrip.Statement (.dprobeWatch cell node) := by
  intro w h; cases h

theorem RoundTrip.frontierRecompute (region scope : Nat) : RoundTrip.Statement (.frontierRecompute region scope) := by
  intro w h; cases h

theorem RoundTrip.frontierDelivery (region slot : Nat) (isCell : Bool) (unit : Nat) : RoundTrip.Statement (.frontierDelivery region slot isCell unit) := by
  intro w h; cases h

theorem RoundTrip.compactionFrontierRecompute (region arr : Nat) : RoundTrip.Statement (.compactionFrontierRecompute region arr) := by
  intro w h; cases h

theorem RoundTrip.pass (region arr : Nat) : RoundTrip.Statement (.pass region arr) := by
  intro w h; cases h

theorem RoundTrip.taskSchedule (grove : Nat) : RoundTrip.Statement (.taskSchedule grove) := by
  intro w h; cases h

theorem RoundTrip.forcedSwitch (grove : Nat) : RoundTrip.Statement (.forcedSwitch grove) := by
  intro w h; cases h

theorem RoundTrip.cycleWaitExpiry (grove slot : Nat) : RoundTrip.Statement (.cycleWaitExpiry grove slot) := by
  intro w h; cases h

theorem RoundTrip.spillReadback (region grove : Nat) : RoundTrip.Statement (.spillReadback region grove) := by
  intro w h; cases h

theorem RoundTrip.mailDelivery (grove chan : Nat) (value : Word) : RoundTrip.Statement (.mailDelivery grove chan value) := by
  intro w h; cases h

theorem RoundTrip.inboundRegisterWrite (grove : Nat) : RoundTrip.Statement (.inboundRegisterWrite grove) := by
  intro w h; cases h

theorem RoundTrip.stallWatchdog (what : Stalled) : RoundTrip.Statement (.stallWatchdog what) := by
  intro w h; cases h

theorem RoundTrip.colourWatchdog (region : Nat) : RoundTrip.Statement (.colourWatchdog region) := by
  intro w h; cases h

theorem RoundTrip.balanceInterval (region : Nat) : RoundTrip.Statement (.balanceInterval region) := by
  intro w h; cases h

theorem RoundTrip.contextChangeComplete (cell : Nat) : RoundTrip.Statement (.contextChangeComplete cell) := by
  intro w h; cases h

theorem RoundTrip.launchStart (region : Nat) : RoundTrip.Statement (.launchStart region) := by
  intro w h; cases h

theorem RoundTrip.initialPush (region : Nat) : RoundTrip.Statement (.initialPush region) := by
  intro w h; cases h

theorem RoundTrip.dispatch (region die : Nat) : RoundTrip.Statement (.dispatch region die) := by
  intro w h; cases h

theorem RoundTrip.levelTick (region : Nat) : RoundTrip.Statement (.levelTick region) := by
  intro w h; cases h

theorem RoundTrip.launchEnd (region : Nat) : RoundTrip.Statement (.launchEnd region) := by
  intro w h; cases h

theorem RoundTrip.residencyNotify (region grove : Nat) : RoundTrip.Statement (.residencyNotify region grove) := by
  intro w h; cases h

theorem RoundTrip.translationWalk (asid vpn : Nat) : RoundTrip.Statement (.translationWalk asid vpn) := by
  intro w h; cases h

theorem RoundTrip.mapRegister (cell k : Nat) (value : Word) : RoundTrip.Statement (.mapRegister cell k value) := by
  intro w h; cases h

theorem RoundTrip.mapUnmap (cell k : Nat) (value : Word) : RoundTrip.Statement (.mapUnmap cell k value) := by
  intro w h; cases h

theorem RoundTrip.engineOpStart (grove ctx : Nat) : RoundTrip.Statement (.engineOpStart grove ctx) := by
  intro w h; cases h

theorem RoundTrip.boundFiring (grove ctx : Nat) : RoundTrip.Statement (.boundFiring grove ctx) := by
  intro w h; cases h

theorem RoundTrip.smcastFiring (grove ctx : Nat) : RoundTrip.Statement (.smcastFiring grove ctx) := by
  intro w h; cases h

theorem RoundTrip.engineOpComplete (grove ctx : Nat) : RoundTrip.Statement (.engineOpComplete grove ctx) := by
  intro w h; cases h

theorem RoundTrip.drainPortWrite (grove ctx : Nat) (value : Word) : RoundTrip.Statement (.drainPortWrite grove ctx value) := by
  intro w h; cases h

theorem RoundTrip.handleReinit (grove handle : Nat) (second : Bool) (value : Word) : RoundTrip.Statement (.handleReinit grove handle second value) := by
  intro w h; cases h

theorem RoundTrip.packetArrival (grove : Nat) : RoundTrip.Statement (.packetArrival grove) := by
  intro w h; cases h

theorem RoundTrip.kstep (grove : Nat) : RoundTrip.Statement (.kstep grove) := by
  intro w h; cases h

theorem RoundTrip.mrdServe (grove tag : Nat) : RoundTrip.Statement (.mrdServe grove tag) := by
  intro w h; cases h

theorem RoundTrip.mzeroServe (grove tag : Nat) : RoundTrip.Statement (.mzeroServe grove tag) := by
  intro w h; cases h

theorem RoundTrip.linkUp (port peer pool : Nat) : RoundTrip.Statement (.linkUp port peer pool) := by
  intro w h; cases h

theorem RoundTrip.linkLost (port : Nat) : RoundTrip.Statement (.linkLost port) := by
  intro w h; cases h

theorem RoundTrip.remoteRequestArrival (r : RemoteReq) : RoundTrip.Statement (.remoteRequestArrival r) := by
  intro w h; cases h

theorem RoundTrip.remoteResponse (r : RemoteResp) : RoundTrip.Statement (.remoteResponse r) := by
  intro w h; cases h

theorem RoundTrip.streamClose (isCell : Bool) (agent target : Nat) : RoundTrip.Statement (.streamClose isCell agent target) := by
  intro w h; cases h

theorem RoundTrip.reservationArrival (r : Reservation) : RoundTrip.Statement (.reservationArrival r) := by
  intro w h; cases h

theorem RoundTrip.reservationGrant (grove glade : Nat) : RoundTrip.Statement (.reservationGrant grove glade) := by
  intro w h; cases h

theorem RoundTrip.gladePacketArrival (p : GladePacket) : RoundTrip.Statement (.gladePacketArrival p) := by
  intro w h; cases h

theorem RoundTrip.gladeKeepalive (grove glade slot : Nat) : RoundTrip.Statement (.gladeKeepalive grove glade slot) := by
  intro w h; cases h

theorem RoundTrip.gladeRevocation (grove glade slot : Nat) : RoundTrip.Statement (.gladeRevocation grove glade slot) := by
  intro w h; cases h

theorem RoundTrip.gladeHold (sending : Bool) (module grove glade slot : Nat) : RoundTrip.Statement (.gladeHold sending module grove glade slot) := by
  intro w h; cases h

theorem RoundTrip.gladeResume (sending : Bool) (module grove glade slot newModule newGrove : Nat) : RoundTrip.Statement (.gladeResume sending module grove glade slot newModule newGrove) := by
  intro w h; cases h

theorem RoundTrip.faultRecordPost (region : Nat) : RoundTrip.Statement (.faultRecordPost region) := by
  intro w h; cases h

theorem RoundTrip.faultqWrite (region : Nat) (value : Word) : RoundTrip.Statement (.faultqWrite region value) := by
  intro w h; cases h

theorem RoundTrip.freleaseRetry (region : Nat) (fseq : BitVec 32) : RoundTrip.Statement (.freleaseRetry region fseq) := by
  intro w h; cases h

theorem RoundTrip.freleaseDiscard (region : Nat) (fseq : BitVec 32) : RoundTrip.Statement (.freleaseDiscard region fseq) := by
  intro w h; cases h

theorem RoundTrip.rsresumeRetry (isCell : Bool) (agent target : Nat) : RoundTrip.Statement (.rsresumeRetry isCell agent target) := by
  intro w h; cases h

theorem RoundTrip.rsresumeDiscard (isCell : Bool) (agent target : Nat) : RoundTrip.Statement (.rsresumeDiscard isCell agent target) := by
  intro w h; cases h

theorem RoundTrip.pjdet (region : Nat) (value : Word) : RoundTrip.Statement (.pjdet region value) := by
  intro w h; cases h

theorem RoundTrip.freezeWave (region : Nat) : RoundTrip.Statement (.freezeWave region) := by
  intro w h; cases h

theorem RoundTrip.thawComplete (region : Nat) : RoundTrip.Statement (.thawComplete region) := by
  intro w h; cases h

theorem RoundTrip.fcmdResumeRetry (region : Nat) (fseq : BitVec 32) : RoundTrip.Statement (.fcmdResumeRetry region fseq) := by
  intro w h; cases h

theorem RoundTrip.fcmdResumeDiscard (region : Nat) (fseq : BitVec 32) : RoundTrip.Statement (.fcmdResumeDiscard region fseq) := by
  intro w h; cases h

theorem RoundTrip.fcmdStep (region : Nat) (fseq : BitVec 32) : RoundTrip.Statement (.fcmdStep region fseq) := by
  intro w h; cases h

theorem RoundTrip.fcmdStop (region : Nat) : RoundTrip.Statement (.fcmdStop region) := by
  intro w h; cases h

theorem RoundTrip.fcmdList (region : Nat) : RoundTrip.Statement (.fcmdList region) := by
  intro w h; cases h

theorem RoundTrip.stopComplete (region : Nat) : RoundTrip.Statement (.stopComplete region) := by
  intro w h; cases h

theorem RoundTrip.hqtailWrite (value : BitVec 32) : RoundTrip.Statement (.hqtailWrite value) := by
  intro w h; cases h

theorem RoundTrip.hqbaseWrite (value : Word) : RoundTrip.Statement (.hqbaseWrite value) := by
  intro w h; cases h

theorem RoundTrip.throttleChange (supply power therm : Bool) (ratio : BitVec 16) : RoundTrip.Statement (.throttleChange supply power therm ratio) := by
  intro w h; cases h

theorem RoundTrip.wearUpdate (eolDays : BitVec 16) (wgrove : BitVec 9) (wpct : BitVec 8) : RoundTrip.Statement (.wearUpdate eolDays wgrove wpct) := by
  intro w h; cases h

theorem RoundTrip.registerWrite (addr : Nat) (value : Word) : RoundTrip.Statement (.registerWrite addr value) := by
  intro w h; cases h

theorem RoundTrip.programTimeAdvance (grove : Nat) : RoundTrip.Statement (.programTimeAdvance grove) := by
  intro w h; cases h

theorem RoundTrip.shadowLatchFull (grove : Nat) : RoundTrip.Statement (.shadowLatchFull grove) := by
  intro w h; cases h

theorem RoundTrip.mapRegistrationComplete (cell k : Nat) : RoundTrip.Statement (.mapRegistrationComplete cell k) := by
  intro w h; cases h

theorem RoundTrip.mapUnmapComplete (cell k : Nat) : RoundTrip.Statement (.mapUnmapComplete cell k) := by
  intro w h; cases h

theorem RoundTrip.hostWindowAccess (window : Nat) (write : Bool) (offset size : Nat) (value : Word) : RoundTrip.Statement (.hostWindowAccess window write offset size value) := by
  intro w h; cases h

theorem RoundTrip.linkFlitRetry (port : Nat) : RoundTrip.Statement (.linkFlitRetry port) := by
  intro w h; cases h

theorem RoundTrip.messageForward (target hops : Nat) (msg : Msg) : RoundTrip.Statement (.messageForward target hops msg) := by
  intro w h; cases h

theorem RoundTrip.peerLostDeclared (target : Nat) : RoundTrip.Statement (.peerLostDeclared target) := by
  intro w h; cases h

theorem RoundTrip.nadd : RoundTrip.Statement (.nadd) := by
  intro w h; cases h

theorem RoundTrip.nsub : RoundTrip.Statement (.nsub) := by
  intro w h; cases h

theorem RoundTrip.nmul : RoundTrip.Statement (.nmul) := by
  intro w h; cases h

theorem RoundTrip.nmin : RoundTrip.Statement (.nmin) := by
  intro w h; cases h

theorem RoundTrip.nmax : RoundTrip.Statement (.nmax) := by
  intro w h; cases h

theorem RoundTrip.nband : RoundTrip.Statement (.nband) := by
  intro w h; cases h

theorem RoundTrip.nbor : RoundTrip.Statement (.nbor) := by
  intro w h; cases h

theorem RoundTrip.nbxor : RoundTrip.Statement (.nbxor) := by
  intro w h; cases h

theorem RoundTrip.nshl : RoundTrip.Statement (.nshl) := by
  intro w h; cases h

theorem RoundTrip.nshr : RoundTrip.Statement (.nshr) := by
  intro w h; cases h

theorem RoundTrip.ncmp : RoundTrip.Statement (.ncmp) := by
  intro w h; cases h

theorem RoundTrip.nsel : RoundTrip.Statement (.nsel) := by
  intro w h; cases h

theorem RoundTrip.nfma : RoundTrip.Statement (.nfma) := by
  intro w h; cases h

theorem RoundTrip.ncvt : RoundTrip.Statement (.ncvt) := by
  intro w h; cases h

theorem RoundTrip.nsteer : RoundTrip.Statement (.nsteer) := by
  intro w h; cases h

theorem RoundTrip.nmerge : RoundTrip.Statement (.nmerge) := by
  intro w h; cases h

theorem RoundTrip.ncopy : RoundTrip.Statement (.ncopy) := by
  intro w h; cases h

theorem RoundTrip.nconst : RoundTrip.Statement (.nconst) := by
  intro w h; cases h

theorem RoundTrip.ngate : RoundTrip.Statement (.ngate) := by
  intro w h; cases h

theorem RoundTrip.nsink : RoundTrip.Statement (.nsink) := by
  intro w h; cases h

theorem RoundTrip.niter : RoundTrip.Statement (.niter) := by
  intro w h; cases h

theorem RoundTrip.ntagset : RoundTrip.Statement (.ntagset) := by
  intro w h; cases h

theorem RoundTrip.ncolour : RoundTrip.Statement (.ncolour) := by
  intro w h; cases h

theorem RoundTrip.nreturn : RoundTrip.Statement (.nreturn) := by
  intro w h; cases h

theorem RoundTrip.ntask : RoundTrip.Statement (.ntask) := by
  intro w h; cases h

theorem RoundTrip.ntwig : RoundTrip.Statement (.ntwig) := by
  intro w h; cases h

theorem RoundTrip.nag : RoundTrip.Statement (.nag) := by
  intro w h; cases h

theorem RoundTrip.nld : RoundTrip.Statement (.nld) := by
  intro w h; cases h

theorem RoundTrip.nst : RoundTrip.Statement (.nst) := by
  intro w h; cases h

theorem RoundTrip.nown : RoundTrip.Statement (.nown) := by
  intro w h; cases h

theorem RoundTrip.nred : RoundTrip.Statement (.nred) := by
  intro w h; cases h

theorem RoundTrip.natom : RoundTrip.Statement (.natom) := by
  intro w h; cases h

theorem RoundTrip.ninvokeCall : RoundTrip.Statement (.ninvokeCall) := by
  intro w h; cases h

theorem RoundTrip.ninvokeReturn : RoundTrip.Statement (.ninvokeReturn) := by
  intro w h; cases h

theorem RoundTrip.nfork : RoundTrip.Statement (.nfork) := by
  intro w h; cases h

theorem RoundTrip.npjoin : RoundTrip.Statement (.npjoin) := by
  intro w h; cases h

theorem RoundTrip.nltx : RoundTrip.Statement (.nltx) := by
  intro w h; cases h

theorem RoundTrip.dout : RoundTrip.Statement (.dout) := by
  intro w h; cases h

theorem RoundTrip.darr : RoundTrip.Statement (.darr) := by
  intro w h; cases h

theorem RoundTrip.djoin : RoundTrip.Statement (.djoin) := by
  intro w h; cases h

theorem RoundTrip.dred : RoundTrip.Statement (.dred) := by
  intro w h; cases h

theorem RoundTrip.dcon : RoundTrip.Statement (.dcon) := by
  intro w h; cases h

theorem RoundTrip.dneg : RoundTrip.Statement (.dneg) := by
  intro w h; cases h

theorem RoundTrip.denter : RoundTrip.Statement (.denter) := by
  intro w h; cases h

theorem RoundTrip.dfeed : RoundTrip.Statement (.dfeed) := by
  intro w h; cases h

theorem RoundTrip.dleave : RoundTrip.Statement (.dleave) := by
  intro w h; cases h

theorem RoundTrip.dprobe : RoundTrip.Statement (.dprobe) := by
  intro w h; cases h

theorem RoundTrip.exit : RoundTrip.Statement (.exit) := by
  intro w h
  cases h
  rfl

theorem RoundTrip.yield : RoundTrip.Statement (.yield) := by
  intro w h
  cases h
  simp [decode, decodeTask]

theorem RoundTrip.eret : RoundTrip.Statement (.eret) := by
  intro w h
  cases h
  simp [decode, decodeSys]

theorem RoundTrip.tlbinvAll : RoundTrip.Statement (.tlbinvAll) := by
  intro w h
  cases h
  simp [decode, decodeSys]

theorem RoundTrip.nop : RoundTrip.Statement (.nop) := by
  intro w h
  cases h
  simp [decode, decodeSys]

theorem RoundTrip.moduleReset : RoundTrip.Statement (.moduleReset) := by
  intro w h; cases h

theorem RoundTrip.timeRebase : RoundTrip.Statement (.timeRebase) := by
  intro w h; cases h

theorem RoundTrip.snaptrig : RoundTrip.Statement (.snaptrig) := by
  intro w h; cases h

theorem RoundTrip.hostQueueLaunch : RoundTrip.Statement (.hostQueueLaunch) := by
  intro w h; cases h

theorem RoundTrip.hostQueueRelease : RoundTrip.Statement (.hostQueueRelease) := by
  intro w h; cases h

theorem RoundTrip.attreq : RoundTrip.Statement (.attreq) := by
  intro w h; cases h

theorem RoundTrip.illegalInstruction : RoundTrip.Statement (.illegalInstruction) := by
  intro w h; cases h

end Sys2Proof.Laws
end

