-- ==== Sys2Proof/WellFormed.lean ====
section
/-! DEFINITION. Which instruction words are well formed: a word's instruction whose fields hold defined values, for a
task core, for a cell's twig, or for a matrix handler's twig (spec 03 R67, R68, R70 to R72, R80; 11 R254). -/

namespace Sys2Proof

/-- Whether an instruction has a word and its fields hold defined values (R80). -/
def Instr.wellFormed (i : Instr) : Bool := (encode i).isSome && i.fieldsOk

/-- Whether a task core accepts an instruction as it is encoded (R71, R72, R80). -/
def Instr.wellFormedCore (i : Instr) : Bool := (encode i).isSome && i.coreOk

/-- Whether a cell's twig block may hold an instruction (R70, R78, R80). -/
def Instr.wellFormedTwig (i : Instr) : Bool := (encode i).isSome && i.twigOk false

/-- Whether a matrix element's twig block may hold an instruction (R254). -/
def Instr.wellFormedMx (i : Instr) : Bool := (encode i).isSome && i.twigOk true

end Sys2Proof
end

