-- ==== Sys2Proof/Tests/Slice0.lean ====
section
/-! SUPPORT. Tests: words of the spec decoded, refusals of ill-formed words, single steps on small states, and for each
statement with hypotheses a state and operands that meet them. -/

set_option maxRecDepth 100000
set_option Elab.async false

namespace Sys2Proof.Tests

open Sys2Proof.Machine Sys2Proof.Safety

/-! ## Small states -/

/-- Region 0 with groves 0 and 1 and their cells 0 and 16. -/
def base : State :=
  { State.reset with
    regions := [(0, { Region.reset with
      loaded := true, table := ⟨2, 0, 0, [(0, 0, 0, 0), (1, 1, 0, 0)], [(0, 0, 0, 0), (1, 16, 0, 0)]⟩ })]
    groves := [(0, { Grove.reset with region := some 0, gidx := 0 }), (1, { Grove.reset with region := some 0, gidx := 1 })] }

/-- Registers with some of them set. -/
def setRegs : List (Nat × Nat) → List Word → List Word
  | [], l => l
  | (k, v) :: t, l => setRegs t (setAt l k (BitVec.ofNat 64 v))

/-- Core 0 at 0x100 in a task, with some registers set. -/
def cs (regs : List (Nat × Nat)) : State :=
  { base with
    cores := [(0, { Core.reset with task := some ⟨3, 4, 1, 7, 0x0C05, 0, 1, false⟩, pc := 0x100, regs := setRegs regs Core.reset.regs })] }

/-- A state with core 0 changed. -/
def core (s : State) (f : Core → Core) : State := withCore s 0 (f (coreOf s 0))

/-- A state with region 0 changed. -/
def reg0 (s : State) (f : Region → Region) : State := s.via fun w => w.updRegion 0 f

/-- A state with grove 0 changed. -/
def gr (s : State) (f : Grove → Grove) : State := s.via fun w => w.updGrove 0 f

/-- A state with the module's registers changed. -/
def md (s : State) (f : Mod → Mod) : State := { s with mod := f s.mod }

/-- All of grove 0's code in the supervisor area. -/
def sup (s : State) : State := reg0 s fun x => { x with supBase := 0 }

/-- A buffered page of two: 0x10000 on, at local address 0x20000, all rights, written before. -/
def page : Xlat := ⟨0, 0x10000, 0x2000, 0x20000, 0x10E, 0⟩

/-- Grove 0 with the page in its buffer. -/
def mapped (s : State) : State := gr s fun k => { k with tlb := [page] }

/-- The suspension table has an entry for the running instruction, live registers G5 and G6. -/
def maySuspend (s : State) : State := core s fun c => { c with susp := [(0x100, 0x60)] }

/-- What an instruction leaves, if it goes on, has a property. -/
def out (i : Instr) (s : State) (p : State → Bool) : Bool :=
  match exec i s with
  | .next t => p t
  | _ => false

/-- An instruction only writes a register and goes on. -/
def gives (s : State) (i : Instr) (d : BitVec 5) (v : Word) : Bool := out i s fun t => t == gave s 0 d v

/-- An instruction raises a fault and does nothing else. -/
def raises (s : State) (i : Instr) (code addr : Nat) : Bool := out i s fun t => t == raised s 0 code (BitVec.ofNat 64 addr) 0

/-- An instruction is held. -/
def held (s : State) (i : Instr) : Bool :=
  out i s fun t => t == withCore s 0 { coreOf s 0 with stall := some ((coreOf s 0).stall.getD s.mod.cycle) }

/-- An instruction writes a register, goes on, and something else holds. -/
def did (s : State) (i : Instr) (d : BitVec 5) (v : Word) (p : State → Bool) : Bool :=
  out i s fun t =>
    (coreOf t 0).regs == ((coreOf s 0).setReg d v).regs && (coreOf t 0).pc == (coreOf s 0).step.pc &&
      (coreOf t 0).loopActive == (coreOf s 0).step.loopActive && (coreOf t 0).loopcnt == (coreOf s 0).step.loopcnt &&
      (coreOf t 0).trap == (coreOf s 0).trap && (coreOf t 0).task == (coreOf s 0).task && p t

/-- The register that an instruction's wait compares. -/
def compared : Instr → Option (BitVec 5)
  | .yieldUntil a => some a
  | .waittl _ a _ => some a
  | _ => none

/-- An instruction suspends its task, with the registers that its table entry names saved. -/
def suspends (s : State) (i : Instr) (kind obj : Nat) (dreg : BitVec 5) (pc : BitVec 16) (runnable : Bool) : Bool :=
  out i s fun t => (coreOf t 0).task == none && t.mem == s.mem &&
    match (coreOf t 0).slots with
    | [x] => x.pc == pc && x.wait == kind && x.wobj == obj && x.dreg == dreg && x.live == 0x60 &&
        x.regs == (coreOf s 0).saved 0x60 (compared i) dreg && x.pend == (Work.of s).covers 0 kind obj && !x.full && some x.task == (coreOf s 0).task &&
        x.since == if runnable then some s.mod.cycle else none
    | _ => false

/-! ## Decoding: words of the spec's examples and encoding tables -/

theorem test_decode_sys : decode 0x00002800 = .ok (.trap 5) ∧ decode 0x40 = .ok .eret ∧ decode 0x00A00880 = .ok (.srd 5 1) ∧
    decode 0x000A78C0 = .ok (.swr 10 15) ∧ decode 0x180 = .ok .nop ∧ decode 0x00063900 = .ok (.tlbinv 6 7) ∧
    decode 0x00060108 = .ok (.tlbinvAsid 6) ∧ decode 0x00060140 = .ok (.halt 6) ∧ decode 0x00A639D0 = .ok (.freeze 5 6 7 2) ∧
    decode 0x00A63A10 = .ok (.thaw 5 6 7 2) ∧ decode 0x00063A40 = .ok (.cfgflip 6 7) ∧ decode 0x00060280 = .ok (.ckill 6) ∧
    decode 0x00A63AC0 = .ok (.dcapd 5 6 7) ∧ decode 0x00A60300 = .ok (.dcapr 5 6) := by decide +kernel

theorem test_decode_register : decode 0x40A00010 = .ok (.addi 5 0 16) ∧ decode 0x04E62BC2 = .ok (.cmp 7 6 5 0 2) ∧
    decode 0x0C620260 = .ok (.fsqrt 3 2 4 0) ∧ decode 0x0D830220 = .ok (.frcp 12 3 4 0) ∧
    decode 0x100840A0 = .ok (.vmul 0 8 8 4 0) := by decide +kernel

theorem test_decode_control : decode 0x60E80001 = .ok (.br 7 2 1) ∧ decode 0x70000000 = .ok .exit ∧
    decode 0x6C400002 = .ok (.loop 2 2) := by decide +kernel

theorem test_decode_memory : decode 0x80C50602 = .ok (.ld 6 5 0 3 2) ∧ decode 0x8127040E = .ok (.ld 9 7 0 2 14) ∧
    decode 0x90A63800 = .ok (.amo 5 6 7 0 0) ∧ decode 0x90A639E0 = .ok (.amo 5 6 7 7 4) ∧ decode 0x94A63800 = .ok (.cas 5 6 7 0) ∧
    decode 0x98A00000 = .ok (.fence 5) ∧ decode 0x98A63840 = .ok (.waittl 5 6 7) ∧ decode 0x98A03880 = .ok (.tlrd 5 7) := by
  decide +kernel

theorem test_decode_tasks : decode 0xA0E80004 = .ok (.send 7 8 4) ∧ decode 0xA5200004 = .ok (.recv 9 4) ∧
    decode 0xA86A5800 = .ok (.spawn 3 10 11) ∧ decode 0xA8000040 = .ok .yield ∧ decode 0xA8050048 = .ok (.yieldUntil 5) ∧
    decode 0xA8800880 = .ok (.widf 4 1) ∧ decode 0xA8C000C0 = .ok (.colr 6) ∧ decode 0xA8A60100 = .ok (.launch 5 6) := by
  decide +kernel

theorem test_decode_handles : decode 0xACA60000 = .ok (.hfill 5 6) ∧ decode 0xACA60008 = .ok (.hfillTry 5 6) ∧
    decode 0xAC062840 = .ok (.hpost 6 5) ∧ decode 0xACE60080 = .ok (.htake 7 6) ∧ decode 0xAC0638C0 = .ok (.hfree 6 7) ∧
    decode 0xAD064900 = .ok (.hwait 8 6 9) ∧ decode 0xAD060150 = .ok (.hstat 8 6 2) := by decide +kernel

theorem test_decode_engines : decode 0xB0AA0202 = .ok (.sfeed 5 10 0 2) ∧ decode 0xB0A03209 = .ok (.scanc 5 6 2) := by decide +kernel

theorem test_decode_frontiers : decode 0xB5A00000 = .ok (.frd 13 0 0) ∧ decode 0xB4A00008 = .ok (.frdStat 5 0) ∧
    decode 0xB4A00010 = .ok (.frdTime 5) ∧ decode 0xB5805840 = .ok (.fwait 12 0 11) ∧ decode 0xB5484880 = .ok (.fadv 10 8 9) ∧
    decode 0xB4A638C0 = .ok (.ahold 5 6 7) ∧ decode 0xB4A60100 = .ok (.arel 5 6) ∧ decode 0xB4A60140 = .ok (.acmp 5 6) := by
  decide +kernel

theorem test_decode_residency : decode 0xB8A63800 = .ok (.resd 5 6 7) ∧ decode 0xB8A63810 = .ok (.resdE1 5 6 7) ∧
    decode 0xB8063840 = .ok (.resw 6 7) ∧ decode 0xB8A63880 = .ok (.tilereg 5 6 7) := by decide +kernel

theorem test_decode_remote : decode 0xBCA63800 = .ok (.rld 5 6 7) ∧ decode 0xBCA63818 = .ok (.rldB128 5 6 7) ∧
    decode 0xBCA00020 = .ok (.rldDone 5) ∧ decode 0xBCA63840 = .ok (.rst 5 6 7) ∧ decode 0xBCA63880 = .ok (.ramo 5 6 7 0 0) ∧
    decode 0xBD0638C0 = .ok (.grsv 8 6 7) ∧ decode 0xBCA63900 = .ok (.abpost 5 6 7) ∧ decode 0xBD060140 = .ok (.abwait 8 6) ∧
    decode 0xBD260180 = .ok (.gclr 9 6) ∧ decode 0xBD260188 = .ok (.gclrDone 9 6) := by decide +kernel

theorem test_decode_matrix : decode 0xC0000040 = .ok (.mma 0 0 0 2 0) ∧ decode 0xC0503FFF = .ok (.mma 5 3 15 7 31) ∧
    decode 0xC4084810 = .ok (.mldb 8 9 2) ∧ decode 0xC4000080 = .ok (.mzero 0) ∧ decode 0xC40848C0 = .ok (.mscl 8 9) ∧
    decode 0xC4A60100 = .ok (.mstat 5 6) := by decide +kernel

theorem test_decode_configure : decode 0xC8063800 = .ok (.cfgwNode 6 7) ∧ decode 0xC8063840 = .ok (.cfgwTwig 6 7) ∧
    decode 0xC8063848 = .ok (.cfgwTwigMx 6 7) ∧ decode 0xC8063880 = .ok (.cfgwShape 6 7) ∧ decode 0xC80638C0 = .ok (.cfgwCtx 6 7) := by
  decide +kernel

theorem test_decode_reserved : decode 0x70000001 = .error .field ∧ decode 0xFC000000 = .error .major ∧
    decode 0x00000780 = .error .subop ∧ decode 0x64040000 = .error .field := by decide +kernel

/-! ## Ill-formed instructions, each refused by its check -/

theorem test_ill_formed_event : Instr.wellFormed .nadd = false := by decide +kernel
theorem test_ill_formed_type : Instr.wellFormed (.add 1 2 3 5 0) = false ∧ Instr.wellFormed (.add 1 2 3 3 0) = true := by decide +kernel
theorem test_ill_formed_condition : Instr.wellFormed (.cmp 1 2 3 0 6) = false ∧ Instr.wellFormed (.cmp 1 2 3 0 5) = true := by
  decide +kernel
theorem test_ill_formed_core_guard : Instr.wellFormedCore (.add 1 2 3 0 4) = false ∧ Instr.wellFormedCore (.add 1 2 3 0 0) = true := by
  decide +kernel
theorem test_ill_formed_core_vector : Instr.wellFormedCore (.vadd 1 2 3 4 0) = false := by decide +kernel
theorem test_ill_formed_twig_source : Instr.wellFormedTwig (.add 1 12 3 0 0) = false ∧ Instr.wellFormedTwig (.add 1 11 3 0 0) = true := by
  decide +kernel
theorem test_ill_formed_twig_destination : Instr.wellFormedTwig (.add 8 1 3 0 0) = false ∧
    Instr.wellFormedTwig (.add 12 1 3 0 0) = true := by decide +kernel
theorem test_ill_formed_twig_system : Instr.wellFormedTwig (.trap 1) = false := by decide +kernel
theorem test_ill_formed_mx : Instr.wellFormedTwig (.mma 0 0 0 2 0) = false ∧ Instr.wellFormedMx (.mma 0 0 0 2 0) = true := by
  decide +kernel

/-! ## A placed word is the next instruction to run -/

theorem test_placed_word_runs :
    (match step (State.reset.withFetchWord 32 0x40A00010) with
      | .next t => reg t 0 5 == 16
      | _ => false) = true := by decide +kernel

/-! ## Register instructions, branches, loops and traps -/

theorem test_add_wraps : gives (cs [(6, 2 ^ 64 - 1), (7, 2)]) (.add 5 6 7 0 0) 5 1 = true := by decide +kernel
theorem test_add_s32 : gives (cs [(6, 0x7FFFFFFF), (7, 1)]) (.add 5 6 7 2 0) 5 0xFFFFFFFF80000000 = true := by decide +kernel
theorem test_sub_w32 : gives (cs [(6, 0), (7, 1)]) (.sub 5 6 7 3 0) 5 0xFFFFFFFF = true := by decide +kernel
theorem test_mulh : gives (cs [(6, 2 ^ 64 - 3), (7, 2)]) (.mulh 5 6 7 0 0) 5 0xFFFFFFFFFFFFFFFF = true ∧
    gives (cs [(6, 2 ^ 64 - 3), (7, 2)]) (.mulh 5 6 7 1 0) 5 1 = true := by decide +kernel
theorem test_div_rem : gives (cs [(6, 2 ^ 64 - 7), (7, 2)]) (.div 5 6 7 0) 5 0xFFFFFFFFFFFFFFFD = true ∧
    gives (cs [(6, 2 ^ 64 - 7), (7, 2)]) (.rem 5 6 7 0) 5 0xFFFFFFFFFFFFFFFF = true := by decide +kernel
theorem test_divu : gives (cs [(6, 2 ^ 64 - 7), (7, 2)]) (.divu 5 6 7 0) 5 0x7FFFFFFFFFFFFFFC = true := by decide +kernel
theorem test_div_by_zero : gives (cs [(6, 9)]) (.div 5 6 7 0) 5 0xFFFFFFFFFFFFFFFF = true ∧ gives (cs [(6, 9)]) (.rem 5 6 7 0) 5 9 = true := by
  decide +kernel
theorem test_shift_by_width : gives (cs [(6, 1), (7, 64)]) (.shl 5 6 7 0 0) 5 1 = true := by decide +kernel
theorem test_sra : gives (cs [(6, 2 ^ 63), (7, 63)]) (.sra 5 6 7 0 0) 5 0xFFFFFFFFFFFFFFFF = true := by decide +kernel
theorem test_cmp_unsigned : gives (cs [(6, 2 ^ 64 - 1), (7, 1)]) (.cmp 5 6 7 0 2) 5 1 = true ∧
    gives (cs [(6, 2 ^ 64 - 1), (7, 1)]) (.cmp 5 6 7 1 2) 5 0 = true := by decide +kernel
theorem test_sel_reads_destination : gives (cs [(5, 1), (6, 10), (7, 20)]) (.sel 5 6 7 0 0) 5 10 = true := by decide +kernel
theorem test_write_to_zero : gives (cs [(6, 2)]) (.addi 0 6 1) 0 3 = true ∧
    out (.addi 0 6 1) (cs [(6, 2)]) (fun t => reg t 0 0 == 0) = true := by decide +kernel
theorem test_fadd_f32 : gives (cs [(6, 0x3F800000), (7, 0x40000000)]) (.fadd 5 6 7 4 0) 5 0x40400000 = true := by decide +kernel

theorem witness_RegisterOnCore : Ready (cs []) 0 ∧ (intOp (.add 1 2 3 3 0)).isSome = true ∧ (Instr.add 1 2 3 3 0).coreOk = true ∧
    (fpOp (.fexp2 1 2 5 0)).isSome = true ∧ (Instr.fexp2 1 2 4 0).coreOk = true := by decide +kernel

theorem test_br_taken : out (.br 6 2 (-1)) (cs [(6, 1)]) (fun t => coreOf t 0 == jumped (coreOf (cs [(6, 1)]) 0) 0xFC) = true := by
  decide +kernel
theorem test_br_not_taken : out (.br 6 1 5) (cs [(6, 1)]) (fun t => (coreOf t 0).pc == 0x104) = true := by decide +kernel
theorem test_jal : out (.jal 9 2) (cs []) (fun t => (coreOf t 0).pc == 0x108 && reg t 0 9 == 0x104) = true := by decide +kernel
theorem test_jr_base_before_link : out (.jr 6 6 4) (cs [(6, 0x200)]) (fun t => (coreOf t 0).pc == 0x204 && reg t 0 6 == 0x104) = true := by
  decide +kernel
theorem test_jr_misaligned : raises (cs [(6, 0x202)]) (.jr 5 6 0) 0x03 0x202 = true := by decide +kernel

/-- A loop in its last word, with a count. -/
def looping (n : Nat) : State :=
  core (cs []) fun c => { c with loopActive := true, bodyStart := 0xF0, bodyEnd := 0x100, loopcnt := BitVec.ofNat 64 n }

theorem witness_Transfers : branchTest 2 (reg (cs [(6, 1)]) 0 6) ∧ ¬ branchTest 1 (reg (cs [(6, 1)]) 0 6) ∧ OnCore (cs [(6, 1)]) 0 ∧
    (Instr.br 6 2 0).coreOk = true ∧ MayGo (cs []) 0 (wordsOn (cs []) 0 (-131072)) ∧
    ¬ MayGo (reg0 (cs []) fun x => { x with supBase := 0x104 }) 0 (wordsOn (cs []) 0 1) ∧
    (Instr.jr 5 6 0xFFFF).coreOk = true :=
  ⟨(by decide +kernel : _ ≠ (0 : Word)), (by decide +kernel : ¬ _ = (0 : Word)), by decide +kernel⟩

theorem test_loop_starts : out (.loop 6 2) (cs [(6, 3)]) (fun t => (coreOf t 0).loopActive && (coreOf t 0).loopcnt == 3 &&
    (coreOf t 0).bodyEnd == 0x108 && (coreOf t 0).pc == 0x104) = true := by decide +kernel
theorem test_loop_zero_skips : out (.loop 6 2) (cs []) (fun t => (coreOf t 0).pc == 0x10C && !(coreOf t 0).loopActive) = true := by
  decide +kernel
theorem test_loop_goes_round : out .nop (looping 2) (fun t => (coreOf t 0).pc == 0xF0 && (coreOf t 0).loopcnt == 1) = true ∧
    out .nop (looping 1) (fun t => (coreOf t 0).pc == 0x104 && (coreOf t 0).loopcnt == 0 && !(coreOf t 0).loopActive) = true := by
  decide +kernel
theorem test_exit : out .exit (cs []) (fun t => (coreOf t 0).task == none && (coreOf t 0).loopcnt == 0) = true := by decide +kernel

theorem witness_LoopsAndExit : OnCore (cs [(6, 1)]) 0 ∧ (Instr.loop 6 4096).coreOk = true ∧ reg (cs []) 0 6 = 0 ∧ reg (cs [(6, 1)]) 0 6 ≠ 0 ∧
    (coreOf (looping 1) 0).loopActive = true ∧ (coreOf (looping 1) 0).trap.intrap = false ∧
    (coreOf (looping 1) 0).pc = (coreOf (looping 1) 0).bodyEnd ∧ MayGo (looping 2) 0 0xF0 ∧ Ready (cs []) 0 := by decide +kernel

/-- A handler at 0x40, whose area is the supervisor's. -/
def handler (s : State) : State := reg0 s fun x => { x with tvec := 0x8000000000000040, supBase := 0x40 }

/-- Core 0 inside its handler. -/
def inTrap (s : State) : State := core s fun c => { c with trap := ⟨true, 0x30, 0x104, 0, 0, false⟩ }

theorem test_trap_enters : out (.trap 5) (handler (cs [])) (fun t => (coreOf t 0).pc == 0x40 && (coreOf t 0).trap ==
    ⟨true, 0x530, 0x104, 1, 0, false⟩) = true := by decide +kernel
theorem test_trap_freezes : out (.trap 5) (cs []) (fun t => (coreOf t 0).task == none &&
    (regionAt t 0).frozen.map (fun o => (o.okind, o.code, o.fseq)) == [(1, 0x30, 1)] &&
    (regionAt t 0).faults.map (fun f => (f.code, f.aux, f.pc)) == [(0x30, 5, 0x100)]) = true := by decide +kernel
theorem test_eret : out .eret (inTrap (handler (cs []))) (fun t => (coreOf t 0).pc == 0x104 && !(coreOf t 0).trap.intrap) = true := by
  decide +kernel

theorem witness_TrapsAndFaults : OnCore (handler (cs [])) 0 ∧ Handles (handler (cs [])) 0 ∧ ¬ Handles (cs []) 0 ∧
    ¬ Handles (inTrap (handler (cs []))) 0 := by decide +kernel
theorem witness_TrapReturn : OnCore (inTrap (handler (cs []))) 0 ∧ Super (inTrap (handler (cs []))) 0 ∧
    (coreOf (handler (cs [])) 0).trap.intrap = false ∧ out (.trap 5) (handler (cs [])) (fun t => decide (Super t 0)) = true := by
  decide +kernel

theorem test_illegal : raises (cs []) .illegalInstruction 0x01 0 = true ∧ raises (cs []) (.add 1 2 3 0 4) 0x01 0 = true := by
  decide +kernel
theorem test_privilege : raises (cs [(6, 0)]) (.ckill 6) 0x02 0 = true ∧ raises (cs [(6, 0), (7, 0)]) (.resw 6 7) 0x02 0 = true := by
  decide +kernel
theorem witness_IllegalAndPrivilege : OnCore (cs []) 0 ∧ ¬ Super (cs []) 0 ∧ (encode (.add 1 2 3 0 4)).isSome = true ∧
    (Instr.add 1 2 3 0 4).coreOk = false ∧ supervisorOnly (.halt 6) = true ∧ (Instr.halt 6).coreOk = true := by decide +kernel

theorem test_srd : gives (inTrap (sup (cs []))) (.srd 5 1) 5 0x30 = true ∧ gives (cs []) (.srd 5 11) 5 0 = true ∧
    raises (cs []) (.srd 5 5) 0x02 0 = true := by decide +kernel
theorem test_swr : out (.swr 6 2) (sup (cs [(6, 0x1FFFF)])) (fun t => (coreOf t 0).trap.epc == 0xFFFC) = true ∧
    out (.swr 6 10) (cs [(6, 9)]) (fun t => (coreOf t 0).loopcnt == 0) = true := by decide +kernel
theorem test_swr_release : out (.swr 6 15) (sup (cs [(6, 2 ^ 62 + 7)])) (fun t => t.moves == [.event (.freleaseDiscard 0 7)]) = true := by
  decide +kernel
theorem test_swr_faultq : out (.swr 6 12) (sup (cs [(6, 0x10105)])) (fun t => t.moves == [.event (.faultqWrite 0 0x10105)]) = true := by
  decide +kernel
theorem witness_SystemRegisters : Ready (cs []) 0 ∧ (Instr.srd 5 5).coreOk = true ∧ ¬ Super (cs []) 0 ∧ Ready (sup (cs [])) 0 ∧
    Super (sup (cs [])) 0 ∧ (Instr.swr 6 17).coreOk = true ∧ (regionAt (cs []) 0).loaded = true ∧
    (0x10105 : Word).toNat / 2 ^ 8 % 2 ^ 8 < (regionAt (cs []) 0).table.ngrove := by decide +kernel

/-! ## Loads, stores, atomics, ordering -/

/-- Memory with a word at 0x20010. -/
def wordAt (s : State) (a v : Nat) : State := s.via fun w => w.store a (leBytes 8 v)

theorem test_ld : did (wordAt (mapped (cs [(6, 0x10000)])) 0x20010 0x1122334455667788) (.ld 5 6 0 2 4) 5 0x55667788 (fun _ => true) = true := by
  decide +kernel
theorem test_st : did (mapped (cs [(6, 0x10018), (5, 0xABCD)])) (.st 5 6 0 1 (-4)) 0 0 (fun t =>
    t.mem == [(0x20010, 0xCD), (0x20011, 0xAB)]) = true := by decide +kernel
theorem test_misaligned : raises (mapped (cs [(6, 0x10001)])) (.ld 5 6 0 3 0) 0x03 0x10001 = true := by decide +kernel
/-- A byte of memory that cannot be corrected. -/
def spoil (s : State) (a : Nat) : State := md s fun m => { m with spoilt := [a] }

theorem test_uncorrectable : raises (spoil (mapped (cs [(6, 0x10010)])) 0x20013) (.ld 5 6 0 2 0) 0x0A 0x10010 = true ∧
    raises (spoil (mapped (cs [(6, 0x10010)])) 0x20013) (.amo 5 6 7 6 3) 0x0A 0x10010 = true ∧
    did (spoil (mapped (cs [(6, 0x10010)])) 0x20014) (.ld 5 6 0 2 0) 5 0 (fun _ => true) = true := by decide +kernel
theorem witness_uncorrectable : ¬ Sound (spoil (mapped (cs [(6, 0x10010)])) 0x20013) 0x20010 4 ∧
    ¬ Cached (spoil (mapped (cs [(6, 0x10010)])) 0x20013) 0 0x20010 ∧ Sound (mapped (cs [(6, 0x10010)])) 0x20010 4 := by
  simp only [Sound, Cached]; decide +kernel
theorem test_past_space : raises (cs [(6, 2 ^ 57)]) (.st 5 6 0 3 0) 0x08 (2 ^ 57) = true := by decide +kernel
theorem test_refused : raises (gr (cs [(6, 0x10000)]) fun k => { k with tlb := [{ page with attr := 0x10A }] }) (.st 5 6 0 3 0) 0x09 0x10000 =
    true := by decide +kernel
theorem test_amo : did (wordAt (mapped (cs [(6, 0x10010), (7, 5)])) 0x20010 37) (.amo 5 6 7 0 0) 5 37 (fun t => numAt t 0x20010 8 == 42) =
    true := by decide +kernel
theorem test_cas : did (wordAt (mapped (cs [(5, 37), (6, 0x10010), (7, 5)])) 0x20010 37) (.cas 5 6 7 0) 5 37 (fun t =>
    numAt t 0x20010 8 == 5) = true ∧
    did (wordAt (mapped (cs [(5, 36), (6, 0x10010), (7, 5)])) 0x20010 37) (.cas 5 6 7 0) 5 37 (fun t => numAt t 0x20010 8 == 37) = true := by
  decide +kernel

theorem reaches_page : ∀ nd : Need, ∃ n, n = 8 ∧ Reaches (mapped (cs [(6, 0x10010)])) 0 nd 0x10010 0x20010 n := fun nd =>
  ⟨8, rfl, by decide +kernel, ⟨page, by decide +kernel, by rcases nd with ⟨_ | _, _ | _⟩ <;> decide +kernel, fun _ => by decide +kernel,
    by decide +kernel, by decide +kernel⟩, by decide +kernel, by decide +kernel⟩

theorem witness_LoadsAndStores : Ready (mapped (cs [(6, 0x10010)])) 0 ∧ MemOk (mapped (cs [(6, 0x10010)])) ∧
    (Instr.ld 5 6 0 3 0).coreOk = true ∧ (Instr.st 5 6 0 3 0xFF).coreOk = true ∧
    addrOf (reg (mapped (cs [(6, 0x10010)])) 0 6) 0 8 % 8 = 0 ∧ addrOf (reg (cs [(6, 0x10001)]) 0 6) 0xFF 8 % 8 ≠ 0 ∧
    2 ^ 57 ≤ addrOf (reg (cs [(6, 2 ^ 57)]) 0 6) 0 8 ∧ ({ page with attr := 0x10A } : Xlat).refuses needW true = true := by
  simp only [MemOk]; decide +kernel
theorem witness_Atomics : Ready (mapped (cs [(6, 0x10010)])) 0 ∧ (Instr.amo 5 6 7 6 3).coreOk = true ∧ (Instr.cas 5 6 7 3).coreOk = true ∧
    opBytes 3 = 4 := by decide +kernel

theorem test_fence : did (core (cs []) fun c => { c with lost := [5] }) (.fence 5) 5 (lostStatus [5]) (fun t =>
    (coreOf t 0).lost == [] && (coreOf t 0).plmask == [5]) = true := by decide +kernel
theorem test_tlrd : did (gr (cs [(7, 0)]) fun k => { k with engines := [(0, { Engine.reset with tl := 9 })] }) (.tlrd 5 7) 5 9 (fun _ => true) =
    true := by decide +kernel
theorem test_waittl : did (gr (cs [(7, 0), (6, 9)]) fun k => { k with engines := [(0, { Engine.reset with tl := 9 })] }) (.waittl 5 6 7) 5 9
    (fun _ => true) = true ∧ suspends (maySuspend (cs [(7, 0), (6, 9)])) (.waittl 5 6 7) 4 0 5 0x104 false = true := by decide +kernel

/-- A core's stream with a store under way. -/
def storing : State :=
  maySuspend (md (cs []) fun m => { m with streams := [⟨false, 0, 5, 0, 0, [], none, false, []⟩] })

theorem witness_Ordering : OnCore (cs []) 0 ∧ (Work.of (cs [])).fenceWaits 0 = false ∧ (Work.of (cs [])).designator 0 0 = some (0, 0) ∧
    (Work.of (cs [])).designator 0 (2 ^ 60) = none ∧ MaySuspend (maySuspend (cs [])) 0 0x60 0x104 ∧ MayGo (cs []) 0 0x104 := by
  decide +kernel

/-! ## Twigs' loads and stores -/

/-- A twig in context 0 of cell 0, its first input a word, reading another as its second. -/
def tw (s : State) (x y : Nat) (null : Bool) : State :=
  { s with
    turn := .twig 0 0
    cells := [(0, { Cell.reset with twigs := [(0, { oneWordTwig 0 with
      ins := [mkTok 0 0 0 0 0 [BitVec.ofNat 64 x], { mkTok 0 0 0 0 0 [BitVec.ofNat 64 y] with null := null }] })] })] }

/-- The twig of cell 0. -/
def twigOfCell (s : State) : Option Twig := (Work.of s).twigAt (.twig 0 0)

theorem test_twig_add : out (.add 0 8 9 0 0) (tw base 3 4 false) (fun t =>
    (twigOfCell t).map (fun x => (x.temps.getD 0 TVal.null0, x.next)) == some (⟨7, false⟩, 1)) = true := by decide +kernel
theorem test_twig_null : out (.add 0 8 9 0 0) (tw base 3 4 true) (fun t =>
    (twigOfCell t).map (fun x => (x.temps.getD 0 TVal.null0).null) == some true) = true := by decide +kernel
theorem test_twig_store : out (.st 9 8 0 0 1) (tw base 0x20 0x45 false) (fun t => t.mem == [(bankBase 0 + 0x21, 0x45)]) = true := by
  decide +kernel
theorem test_twig_exit : out .exit (tw base 3 4 false) (fun t => (twigOfCell t).map Twig.next == some 1) = true := by decide +kernel
theorem witness_RegisterInTwig : OnTwig (tw base 3 4 false) (.twig 0 0) ((twigOfCell (tw base 3 4 false)).getD (oneWordTwig 0)) ∧
    (Instr.add 0 8 9 3 6).twigOk false = true ∧ (vecOp (.vadd 0 8 9 7 0)).isSome = true ∧ (Instr.vadd 0 8 9 7 0).twigOk false = true := by
  simp only [OnTwig]; decide +kernel
theorem witness_IntegerLanes : (2 : BitVec 3).toNat = 2 ∧ 7 < 256 / laneW 2 ∧ 31 < 256 / laneW 7 := by decide +kernel
theorem witness_TwigMemory : OnTwig (tw base 0xFFF8 4 false) (.twig 0 0) ((twigOfCell (tw base 0xFFF8 4 false)).getD (oneWordTwig 0)) ∧
    MemOk (tw base 0xFFF8 4 false) ∧
    (Work.of (tw base 0xFFF8 4 false)).twigWaits (.twig 0 0) ((twigOfCell (tw base 0xFFF8 4 false)).getD (oneWordTwig 0)) = false ∧
    addrOf 0xFFF8 0 8 % 8 = 0 ∧ addrOf 0xFFF8 0 8 + 8 ≤ 0x10000 := by simp only [OnTwig, MemOk]; decide +kernel

/-! ## Mail, tasks, launches -/

/-- Core 0 with words in channel 4. -/
def mail (s : State) (ws : List Word) : State := core s fun c => c.setChan 4 ws

theorem test_send : did (cs [(7, 99), (8, 0)]) (.send 7 8 4) 0 0 (fun t => mailOf t 0 4 == [99]) = true ∧
    held (mail (cs [(7, 99), (8, 0)]) (List.replicate 8 1)) (.send 7 8 4) = true := by decide +kernel
theorem test_recv : did (mail (cs []) [7, 8]) (.recv 9 4) 9 7 (fun t => mailOf t 0 4 == [8]) = true ∧
    suspends (maySuspend (cs [])) (.recv 9 4) 1 4 9 0x104 false = true := by decide +kernel
theorem test_mail_delivery : out (.mailDelivery 0 4 7) (core (cs []) fun c => { c with mailHeld := [⟨4, 7, 0, 0, 0⟩] }) (fun t =>
    mailOf t 0 4 == [7] && (coreOf t 0).mailHeld == []) = true := by decide +kernel
theorem test_inbound : out (.inboundRegisterWrite 0) (core (cs []) fun c => { c with inbound := [(24, 7)] }) (fun t => reg t 0 24 == 7) =
    true := by decide +kernel
theorem witness_Mail : OnCore (cs [(8, 0x01000000)]) 0 ∧ (Instr.send 7 8 63).coreOk = true ∧
    (Work.of (cs [])).mgrove (regionNo (cs []) 0) 1 = some 1 ∧ (reg (cs [(8, 0x01000000)]) 0 8).toNat / 2 ^ 24 < (regionAt (cs []) 0).table.ngrove ∧
    ((Work.of (cs [])).waiting (regionNo (cs []) 1)).all (fun x => !(x.wait == 1 && x.wobj == 63 && x.home == 1)) = true ∧
    mailOf (mail (cs []) (List.replicate 8 1)) 0 4 = List.replicate 8 1 ∧ MaySuspend (maySuspend (cs [])) 0 0x60 0x104 := by decide +kernel

theorem test_yield : suspends (maySuspend (cs [])) .yield 0 0 0 0x104 true = true := by decide +kernel
theorem test_yield_until : suspends (maySuspend (cs [(5, 9)])) (.yieldUntil 5) 2 0 0 0x104 false = true ∧
    out (.yieldUntil 5) (md (cs [(5, 9)]) fun m => { m with cycle := 9 }) (fun t => (coreOf t 0).pc == 0x104) = true := by decide +kernel
theorem test_colr : gives (cs []) (.colr 6) 6 0x4003 = true := by decide +kernel

/-- A launch of one stage with WIDs of two 8-bit fields, none of whose records is pushed yet. -/
def launch0 : Launch where
  hdr := BitVec.ofNat 2048 (0x208 * 2 ^ 64 + 4 * 2 ^ 128 + 2 ^ 320)
  addr := 0x10000
  asid := 0
  sup := false
  stages := [⟨2, 0, 0, 2, 0, 0⟩]
  signal := none

/-- The running launch, with records in its stage. -/
def running0 (recs : List TRec) : Running where
  launch := launch0
  pushed := 0
  live := 0
  ended := 0
  groups := []
  ticks := 0
  tickDue := 0
  queues := [⟨recs, 0, []⟩]
  stageOf := [(0, 0), (1, 0)]
  changing := []
  moving := none
  lastStage := []
  initial := []

/-- A state whose region 0 runs the launch. -/
def launched (s : State) (u : Running) : State := reg0 s fun x => { x with running := some u }

theorem test_widf : gives (launched (cs []) (running0 [])) (.widf 4 1) 4 5 = true ∧
    gives (launched (cs []) (running0 [])) (.widf 4 0) 4 0x0C = true ∧ gives (launched (cs []) (running0 [])) (.widf 4 6) 4 0x0C05 = true := by
  decide +kernel
theorem witness_TaskInstructions : OnCore (cs [(5, 1)]) 0 ∧ (Instr.yieldUntil 5).coreOk = true ∧ (reg (cs []) 0 5).toNat ≤ (cs []).mod.cycle ∧
    (cs []).mod.cycle < (reg (cs [(5, 1)]) 0 5).toNat ∧ (coreOf (cs []) 0).task = some ⟨3, 4, 1, 7, 0x0C05, 0, 1, false⟩ ∧
    (regionAt (launched (cs []) (running0 [])) 0).running = some (running0 []) ∧ (Instr.widf 4 6).coreOk = true := by decide +kernel

/-- A task record with an entry point of 0x80 and arguments 11 and 12, in stage 0. -/
def rec0 : TRec := mkRec 0 0x1234 0x4003 ((2 ^ 256 - 1) + 0x80 * 2 ^ 256 + 11 * 2 ^ 320 + 12 * 2 ^ 352)

/-- A state with the record's bytes at 0x10040. -/
def recorded (s : State) : State := (mapped s).via fun w => w.store 0x20040 (leBytes 64 rec0.toNat)

theorem test_spawn : did (launched (recorded (cs [(10, 0x10040), (11, 0)])) (running0 [])) (.spawn 3 10 11) 3 0 (fun t =>
    (runningOf t 0).map (fun u => (u.live, (u.queue 0).recs)) == some (1, [rec0])) = true := by decide +kernel
theorem test_spawn_full : suspends (maySuspend (launched (recorded (cs [(10, 0x10040), (11, 0)])) (running0 [rec0, rec0]))) (.spawn 3 10 11)
    3 0 0 0x100 false = true := by decide +kernel
theorem witness_Spawning : OnCore (cs [(10, 0x10041)]) 0 ∧ (Instr.spawn 3 10 11).coreOk = true ∧
    runningOf (launched (cs []) (running0 [])) 0 = some (running0 []) ∧ 0 < (running0 []).launch.stages.length ∧ 0 < (running0 []).queues.length ∧
    (reg (cs [(10, 0x10041)]) 0 10).toNat % 64 ≠ 0 ∧ launch0.recOk rec0 = true ∧ (running0 []).room 0 = true ∧
    (running0 [rec0, rec0]).room 0 = false := by decide +kernel

theorem test_launch_start : out (.launchStart 0) (reg0 base fun x => { x with launchQ := [launch0] }) (fun t =>
    (runningOf t 0).map (fun u => (u.launch, u.pushed, u.live)) == some (launch0, 0, 0) && (regionOf t 0).launchQ == []) = true := by
  decide +kernel
theorem test_initial_push : out (.initialPush 0) (launched base (running0 [])) (fun t =>
    (runningOf t 0).map (fun u => (u.pushed, u.live, (u.queue 0).recs.map trWid)) == some (1, 1, [0])) = true := by decide +kernel
theorem test_level_tick : out (.levelTick 0) (launched base { running0 [] with tickDue := 2 }) (fun t =>
    (runningOf t 0).map (fun u => (u.tickDue, u.ticks)) == some (1, 1)) = true := by decide +kernel
theorem test_launch_end : out (.launchEnd 0) (launched base { running0 [] with pushed := 4 }) (fun t => runningOf t 0 == none) = true := by
  decide +kernel
theorem witness_Launches : (regionOf base 0).runs = true ∧
    (Work.of (reg0 base fun x => { x with launchQ := [launch0] })).canTurn 0 ((Work.of base).grovesOf 0) = true ∧
    (running0 []).pushed < (running0 []).launch.items ∧ launch0.hdr.getLsbD 400 = false ∧
    { running0 [] with pushed := 4 }.launch.items ≤ { running0 [] with pushed := 4 }.pushed ∧
    (running0 []).live = 0 ∧ (running0 []).tickDue = 0 ∧ (Work.of (launched base { running0 [] with pushed := 4 })).frontiersStill 0 = true := by decide +kernel

theorem test_dispatch : out (.dispatch 0 0) (launched base { running0 [rec0] with live := 1 }) (fun t =>
    (coreOf t 0).runQ ++ (coreOf t 1).runQ == [rec0] && (runningOf t 0).map (fun u => (u.queue 0).recs) == some []) = true := by
  decide +kernel
theorem test_balance_interval : out (.balanceInterval 0) (reg0 (md base fun m => { m with cycle := 8192 }) fun x =>
    { x with balNext := some (5, 9) }) (fun t => (regionOf t 0).thr == 5 && (regionOf t 0).bint == 9 && (regionOf t 0).lastBalance == 8192) =
    true := by decide +kernel
theorem witness_DispatchAndBalance : ((Work.of (launched base { running0 [rec0] with live := 1 })).nextPlace 0 0
      { running0 [rec0] with live := 1 }).isSome = true ∧ trKind rec0 ≠ 1 ∧
    (regionOf base 0).bint ≠ 0 ∧ (regionOf base 0).lastBalance + (regionOf base 0).bint ≤ 8192 := by decide +kernel

/-- Grove 0's core idle, with the record in its run queue. -/
def queued : State := launched { base with cores := [(0, { Core.reset with runQ := [rec0] })] } (running0 [])

/-- A suspended record that keeps G5 and G6. -/
def rec1 (since : Option Nat) : Record where
  full := false
  pc := 0x200
  live := 0x60
  regs := [15, 16]
  task := ⟨3, 4, 1, 7, 0x0C05, 0, 1, false⟩
  wait := 2
  vslot := 1
  wobj := 0
  dreg := 0
  body := (0, 0)
  loopActive := false
  loopcnt := 0
  since := since
  order := 0
  home := 0
  dval := none
  trap := none
  halted := false
  pend := []

/-- Grove 0's core idle, with a record in its slots. -/
def waiting (x : Record) : State := { base with cores := [(0, { Core.reset with slots := [x] })] }

theorem test_task_start : out (.taskSchedule 0) queued (fun t => (coreOf t 0).pc == 0x80 && reg t 0 1 == 0x10000 && reg t 0 2 == 11 &&
    reg t 0 3 == 12 && (coreOf t 0).task.map Task.wid == some 0x1234) = true := by decide +kernel
theorem test_task_resume : out (.taskSchedule 0) (waiting (rec1 (some 0))) (fun t => (coreOf t 0).pc == 0x200 && reg t 0 5 == 15 &&
    reg t 0 6 == 16 && (coreOf t 0).slots == []) = true := by decide +kernel
theorem test_cycle_wait : out (.cycleWaitExpiry 0 0) (md (waiting (rec1 none)) fun m => { m with cycle := 16 }) (fun t =>
    (coreOf t 0).slots == [rec1 (some 16)]) = true ∧ out (.cycleWaitExpiry 0 0) (md (waiting (rec1 none)) fun m => { m with cycle := 15 })
    (fun t => (coreOf t 0).slots == [rec1 none]) = true := by decide +kernel

/-- A task that has run for its time, and a record of its priority that can run. -/
def overrun : State := md (core (cs []) fun c => { c with slots := [rec1 (some 0)] }) fun m => { m with cycle := 16384 }

theorem test_forced_switch : out (.forcedSwitch 0) overrun (fun t => (coreOf t 0).task == none &&
    (coreOf t 0).slots.map (fun x => (x.full, x.pc, x.since)) == [(false, 0x200, some 0), (true, 0x100, some 16384)]) = true := by
  decide +kernel
theorem test_spill_readback : out (.spillReadback 0 0) (reg0 base fun x => { x with spill := [(3, rec1 (some 0))] }) (fun t =>
    (coreOf t 0).slots == [rec1 (some 0)] && (regionOf t 0).spill == []) = true := by decide +kernel
theorem witness_TasksResume : (coreOf queued 0).task = none ∧ (regionAt queued 0).runs = true ∧ (coreOf queued 0).runnable = [] ∧ trKind rec0 ≠ 2 ∧
    bestRec 0 (coreOf (waiting (rec1 (some 0))) 0).runnable = some (rec1 (some 0)) ∧ (rec1 (some 0)).bad = none ∧
    16384 ≤ overrun.mod.cycle ∧ rec1 (some 0) ∈ (coreOf overrun 0).runnable ∧ 1 ≤ (rec1 (some 0)).eff 16384 ∧
    (Work.of overrun).slotsHeld 0 + 2 ≤ 32 ∧ (rec1 none).value.toNat ≤ 16 ∧
    longestSpilled 0 [(3, rec1 (some 0))] = some (3, rec1 (some 0)) := by decide +kernel

/-! ## Handles, engines, residency, configuration -/

/-- Grove 0 with a ring of three slots of 64 bytes at 0x10000 as handle 5. -/
def ring (s : State) (slots : List Nat) (fh dh : Nat) : State :=
  gr s fun k => { k with handles := [(5, ⟨2, 0x10000, 64, 3, slots, fh, dh, 0⟩)] }

theorem test_hfill : did (ring (cs [(6, 5)]) [0, 2, 0] 2 1) (.hfill 5 6) 5 0x10080 (fun t =>
    handleOf t 0 5 == ⟨2, 0x10000, 64, 3, [0, 2, 1], 0, 1, 0⟩) = true := by decide +kernel
theorem test_hfill_none : gives (ring (cs [(6, 5)]) [2, 2, 2] 2 0) (.hfillTry 5 6) 5 0xFFFFFFFFFFFFFFFF = true ∧
    suspends (maySuspend (ring (cs [(6, 5)]) [2, 2, 2] 2 0)) (.hfill 5 6) 5 5 0 0x100 false = true := by decide +kernel
theorem test_htake : did (ring (cs [(6, 5)]) [0, 2, 0] 2 1) (.htake 7 6) 7 0x10040 (fun t =>
    handleOf t 0 5 == ⟨2, 0x10000, 64, 3, [0, 3, 0], 2, 2, 0⟩) = true := by decide +kernel
theorem test_htake_try : did (ring (cs [(6, 5)]) [0, 2, 0] 2 1) (.htakeTry 7 6) 7 0x10040 (fun _ => true) = true := by decide +kernel
theorem test_hpost : did (ring (cs [(6, 5), (7, 0x10080)]) [0, 2, 1] 0 1) (.hpost 6 7) 0 0 (fun t =>
    (handleOf t 0 5).slots == [0, 2, 2]) = true ∧ raises (ring (cs [(6, 5), (7, 0x10000)]) [0, 2, 1] 0 1) (.hpost 6 7) 0x09 0 = true := by
  decide +kernel
theorem test_hfree : did (ring (cs [(6, 5), (7, 0x10000)]) [3, 2, 0] 0 1) (.hfree 6 7) 0 0 (fun t =>
    (handleOf t 0 5).slots == [0, 2, 0]) = true := by decide +kernel
theorem test_hwait : did (ring (cs [(6, 5), (9, 2)]) [0, 2, 0] 2 1) (.hwait 8 6 9) 8 0x0201000100020000 (fun _ => true) = true := by
  decide +kernel
theorem test_hstat : did (ring (cs [(6, 5)]) [0, 2, 0] 2 1) (.hstat 8 6 1) 8 0x0000004000000003 (fun _ => true) = true := by decide +kernel
theorem test_handle_reinit : out (.handleReinit 0 5 true (0x80 * 2 ^ 32 + 2)) (ring base [0, 2, 0] 2 1) (fun t =>
    handleOf t 0 5 == ⟨2, 0x10000, 128, 2, [0, 0], 0, 0, 0⟩) = true := by decide +kernel
theorem witness_Handles : OnCore (ring (cs [(6, 5)]) [0, 2, 0] 2 1) 0 ∧ (Instr.hfill 5 6).coreOk = true ∧
    (Work.of (ring (cs [(6, 5)]) [0, 2, 0] 2 1)).handleAt 0 5 false = .ok (0, 5) ∧
    (Work.of (ring (cs [(6, 5)]) [0, 2, 0] 2 1)).handleAt 0 9 true = .ok (0, 9) ∧
    (handleOf (ring base [0, 2, 0] 2 1) 0 5).slotOf 0x10080 = some 2 ∧ (3 : Nat) ≤ (handleOf (ring base [0, 2, 0] 2 1) 0 5).nslot ∧
    MaySuspend (maySuspend (ring (cs [(6, 5)]) [2, 2, 2] 2 0)) 0 0x60 0x100 := by decide +kernel

/-- An engine context of grove 0. -/
def eng (s : State) (k : Nat) (e : Engine) : State := gr s fun x => { x with engines := [(k, e)] }

/-- A copy of one run of 64 bytes from 0x10000 to 0x10800, as SCOPY's descriptor. -/
def copy0 : Nat := 0x10000 + 0x10800 * 2 ^ 64 + 64 * 2 ^ 128 + 2 ^ 160

/-- A state with a descriptor's bytes at 0x10040. -/
def described (s : State) (d : Nat) : State := (mapped s).via fun w => w.store 0x20040 (leBytes 64 d)

theorem test_scopy_misaligned : raises (cs [(6, 0x10041)]) (.scopy 5 6 0 1) 0x03 0x10041 = true := by decide +kernel
theorem test_scanc : did (eng (cs [(6, 2)]) 1 { Engine.reset with issued := 2, queue := [EngOp.new 1 1 0 0 false 0, EngOp.new 2 1 0 0 false 0] })
    (.scanc 5 6 1) 5 3 (fun t => ((engineOf t 0 1).queue.map fun o => (o.num, o.op, o.cancelled)) == [(1, 1, false), (2, 1, true), (3, 9, false)]) =
    true := by decide +kernel
theorem test_drain_port : out (.drainPortWrite 0 1 7) (eng base 1 Engine.reset) (fun t => (engineOf t 0 1).drain == [7, 0, 0, 0, 0, 0, 0, 0]) =
    true := by decide +kernel
theorem test_engine_complete : out (.engineOpComplete 0 1) (eng base 1 { Engine.reset with issued := 3, queue := [
    { EngOp.new 3 9 0 0 false 0 with running := true, fires := 1 }] }) (fun t => (engineOf t 0 1).tl == 3 && (engineOf t 0 1).queue == []) =
    true := by decide +kernel
theorem witness_EngineIssue : OnCore (cs [(6, 0x10041)]) 0 ∧ (engCode (.scopy 5 6 0 1)).isSome = true ∧ (Instr.scopy 5 6 0 7).coreOk = true ∧
    (match (Work.of (described (cs [(6, 0x10040)]) copy0)).vread ((Work.of (described (cs [(6, 0x10040)]) copy0)).accCore 0) 0x10040 64 with
      | .ok (bs, _) => leNat bs == copy0
      | _ => false) = true ∧
    (engineOf (cs []) 0 1).holdsSignal = false ∧ (engineOf (cs []) 0 1).queue.length < 16 := by decide +kernel
theorem witness_EngineLife : (regionAt base 0).runs = true ∧ (engineOf base 0 1).drainHeld = [] ∧ (engineOf base 0 1).drain.length + 8 ≤ 4096 ∧
    (Work.of base).opDone 0 1 { EngOp.new 3 9 0 0 false 0 with running := true, fires := 1 } = true ∧
    (EngOp.new 3 1 0 0 false 0).moves = true ∧ (EngOp.new 3 1 0 0 false 0).running = false := by decide +kernel

/-- Grove 0 with tile 9 in entry 2 of its residency table. -/
def resident (s : State) : State := gr s fun k => { k with resid := [(2, ⟨1, 9, 100, 50⟩)] }

theorem test_resd : did (resident (cs [(7, 9)])) (.resd 5 6 7) 5 0x0000006400000032 (fun _ => true) = true ∧
    did (resident (cs [(7, 8)])) (.resd 5 6 7) 5 0 (fun _ => true) = true := by decide +kernel
theorem test_resd_words : did (resident (cs [(7, 2)])) (.resdE0 5 6 7) 5 0x4000000000000009 (fun _ => true) = true ∧
    did (resident (cs [(7, 2)])) (.resdE1 5 6 7) 5 0x0000006400000032 (fun _ => true) = true := by decide +kernel
theorem test_resw : did (sup (resident (cs [(6, 9 * 2 ^ 32), (7, 7)]))) (.resw 6 7) 0 0 (fun t => (groveOf t 0).resid == [(2, ⟨2, 9, 0, 7⟩)]) =
    true ∧ did (sup (resident (cs [(6, 9 * 2 ^ 32)]))) (.resw 6 7) 0 0 (fun t => (groveOf t 0).resid == []) = true := by decide +kernel
theorem test_residency_notify : out (.residencyNotify 0 0) (resident base) (fun t =>
    Tbl.find (regionOf t 0).resView 0 == some (groveOf t 0).resid) = true := by decide +kernel
theorem test_tilereg : did (sup (recorded (cs [(6, 9), (7, 0x10000)]))) (.tilereg 5 6 7) 5 0 (fun t =>
    (Work.of t).tile 9 == (0x8000000000000000, 0)) = false ∧
    did (sup (wordAt (wordAt (mapped (cs [(6, 9), (7, 0x10000)])) 0x20000 0x4000) 0x20008 (0x1000 * 2 ^ 32))) (.tilereg 5 6 7) 5 0 (fun t =>
      (Work.of t).tile 9 == (0x8000000000004000, 0x0000100000000000)) = true ∧
    gives (sup (cs [(6, 0x10009)])) (.tilereg 5 6 7) 5 1 = true := by decide +kernel
theorem witness_ResidencyAndTiles : Ready (resident (cs [])) 0 ∧ (Work.of (resident (cs []))).residAt 0 0 false = .ok 0 ∧
    (Work.of (resident (cs []))).residAt 0 (9 * 2 ^ 32) true = .ok 0 ∧ (Instr.resw 6 7).coreOk = true ∧ Super (sup (cs [])) 0 ∧
    MemOk (sup (cs [])) ∧ (Instr.tilereg 5 6 7).coreOk = true ∧ ((Work.of base).tile 9).1.getLsbD 63 = false ∧
    tileOk (0x8000000000004000, 0x0000100000000000) = true := by simp only [MemOk]; decide +kernel

/-- A state with NADD's record of the spec's example at 0x10040. -/
def nodeBytes (s : State) : State := (mapped s).via fun w => w.store 0x20040 (leBytes 12 (0x01409003FFF0000000000000))

theorem test_cfgw_node : did (nodeBytes (cs [(6, 0x10040), (7, 0x5000)])) (.cfgwNode 6 7) 0 0 (fun t =>
    Tbl.find (cellOf t 0).nodes 5 == some 0x01409003FFF0000000000000) = true := by decide +kernel
theorem test_twig_store_write : out (.twigStoreWrite false 0) { base with cells := [(0, { Cell.reset with pendTwig := [(2, [7, 8])] })] } (fun t =>
    (cellOf t 0).pendTwig == [] && (cellOf t 0).code == codePut 2 [7, 8] []) = true := by decide +kernel
theorem test_context_change : out (.contextChangeComplete 0) { base with cells := [(0, { Cell.reset with nextCtx := some 2 })] } (fun t =>
    (cellOf t 0).active == 2 && (cellOf t 0).nextCtx == none) = true := by decide +kernel
theorem test_node_reconfigure : out (.nodeReconfigure 0) { base with cells := [(0, { Cell.reset with
    nodes := [(5, 0x12FFF000FFF0000000000000)], reconf := [(5, 0x01409003FFF0000000000000)] })] } (fun t =>
    Tbl.find (cellOf t 0).nodes 5 == some 0x01409003FFF0000000000000 && (cellOf t 0).reconf == []) = true := by decide +kernel
theorem witness_Configuration : OnCore (nodeBytes (cs [(6, 0x10040), (7, 0x5000)])) 0 ∧
    (Work.of (cs [])).lcell (regionNo (cs []) 0) (0x5000 % 2 ^ 12) = some 0 ∧ (Instr.cfgwNode 6 7).coreOk = true ∧
    (Work.of (nodeBytes (cs []))).recordFits 0 (cellOf (cs []) 0).patchAll 0 5 0x01409003FFF0000000000000 = true ∧
    (Instr.cfgwTwig 6 7).coreOk = true ∧ (Instr.cfgwTwigMx 6 7).coreOk = true ∧ (Instr.cfgwShape 6 7).coreOk = true ∧
    (Instr.cfgwCtx 6 7).coreOk = true ∧ twigsOverlap (cellOf base 0).twigs twigAddr 2046 2 = false ∧
    { Cell.reset with nextCtx := some 2 }.quiet = true := by decide +kernel

theorem test_tlbinv : did (sup (mapped (cs [(6, 0), (7, 0x11FFF)]))) (.tlbinv 6 7) 0 0 (fun t => (groveOf t 0).tlb == []) = true ∧
    did (sup (mapped (cs [(6, 0), (7, 0x12000)]))) (.tlbinv 6 7) 0 0 (fun t => (groveOf t 0).tlb == [page]) = true := by decide +kernel
theorem test_tlbinv_asid : did (sup (mapped (cs [(6, 0)]))) (.tlbinvAsid 6) 0 0 (fun t => (groveOf t 0).tlb == []) = true ∧
    did (sup (mapped (cs []))) .tlbinvAll 0 0 (fun t => (groveOf t 0).tlb == []) = true := by decide +kernel
theorem test_halt : did (sup (cs [(6, 0x110)])) (.halt 6) 0 0 (fun t => (coreOf t 1).halted) = true ∧
    did (sup (cs [(6, 0x110)])) (.haltRun 6) 0 0 (fun t => !(coreOf t 1).halted) = true := by decide +kernel
theorem witness_TranslationRemoval : OnCore (sup (mapped (cs [(6, 63)]))) 0 ∧ Super (sup (cs [])) 0 ∧ (Instr.tlbinv 6 7).coreOk = true ∧
    64 ≤ (reg (cs [(6, 64)]) 0 6).toNat ∧ (Work.of (sup (cs []))).designator 0 0x110 = some (1, 0) := by decide +kernel

/-- Cell 0 with a record in context 2. -/
def ctx2 (s : State) : State := { s with cells := [(0, { Cell.reset with nodes := [(2048, 0x12FFF000FFF0000000000000)], graphCtx := [2] })] }

theorem test_cfgflip : did (ctx2 (sup (cs [(6, 0), (7, 2)]))) (.cfgflip 6 7) 0 0 (fun t => (cellOf t 0).nextCtx == some 6) = true ∧
    raises (sup (cs [(7, 4)])) (.cfgflip 6 7) 0x09 0 = true := by decide +kernel
theorem test_ckill : out (.ckill 6) (sup (cs [(6, 9)])) (fun t => (regionAt t 0).purge == [(9, some 0)]) = true ∧
    raises (sup (cs [(6, 3)])) (.ckill 6) 0x09 0 = true := by decide +kernel

/-- A purge of colour 9 under way, with a token of the colour in cell 0. -/
def purging : State :=
  reg0 { sup (cs []) with cells := [(0, { Cell.reset with outq := [mkTok 0x001000 9 0 0 0 [1], mkTok 0x001000 8 0 0 0 [2]] })] } fun x =>
    { x with purge := [(9, some 0)] }

theorem test_purge : out (.purgeWaveComplete 0) purging (fun t => (cellOf t 0).outq == [mkTok 0x001000 8 0 0 0 [2]] &&
    (regionOf t 0).purge == [] && (coreOf t 0).pc == 0x104) = true := by decide +kernel
theorem witness_FlipAndKill : OnCore (ctx2 (sup (cs [(6, 0), (7, 3)]))) 0 ∧ Super (sup (cs [])) 0 ∧ (Instr.cfgflip 6 7).coreOk = true ∧
    (cellOf (ctx2 base) 0).hasCtx 2 = true ∧ (cellOf (ctx2 base) 0).nextCtx = none ∧ (Instr.ckill 6).coreOk = true ∧
    (regionOf purging 0).purge = [(9, some 0)] ∧ (∀ mc ∈ (Work.of purging).cellsOf 0, ((cellOf purging mc).twigs.any fun e => e.2.colour == 9) = false) ∧
    (coreOf purging 0).cur.colour ≠ 9 ∧ (regionAt purging 0).supBase ≤ (coreOf purging 0).pc.toNat := by decide +kernel

/-- Capability 3 live, held by address space 0 with every right, and one delegated from it; its handle lies at 0x10000, and a
free place for another at 0x10010. -/
def capable (s : State) : State :=
  md (wordAt (wordAt (mapped s) 0x20000 (3 + 63 * 256)) 0x20008 77) fun m =>
    { m with
      asTable := [(0, 2 ^ 63, 64), (1, 2 ^ 63, 64)]
      caps := [(3, { Cap.reset with v := true, holder := 0, rights := 63, check := 77 }),
        (4, { Cap.reset with v := true, holder := 1, rights := 1, pv := true, parent := 3 })] }

/-- The capability whose handle a register points at. -/
def capAt (s : State) (a : Nat) : Option Nat :=
  match (Work.of s).heldCap 0 a with
  | .ok (i, _, _) => some i
  | _ => none

theorem test_dcapd : did (capable (cs [(6, 0x10000), (7, 1 + 5 * 256)])) (.dcapd 5 6 7) 5 0 (fun t =>
    (t.mod.cap 0).v && (t.mod.cap 0).holder == 1 && (t.mod.cap 0).rights == 5 && (t.mod.cap 0).parent == 3) = true := by decide +kernel
theorem test_dcapr : did (capable (cs [(6, 0x10000)])) (.dcapr 5 6) 5 2 (fun t => !(t.mod.cap 4).v && !(t.mod.cap 3).v) = true := by
  decide +kernel
theorem witness_Capabilities : OnCore (capable (cs [(6, 0x10000), (7, 1 + 5 * 256)])) 0 ∧ (Instr.dcapr 5 6).coreOk = true ∧
    capAt (capable (cs [(6, 0x10000), (7, 1)])) 0x10000 = some 3 ∧ (Instr.dcapd 5 6 7).coreOk = true ∧
    (Tbl.getD (capable base).mod.asTable (63 % 64) (0, 64)).1.getLsbD 63 = false ∧
    (Tbl.getD (capable base).mod.asTable 1 (0, 64)).1.getLsbD 63 = true ∧
    (List.range 256).find? (fun k => !((capable base).mod.cap k).v) = some 0 := by decide +kernel

/-! ## Nodes -/

/-- A record of an opcode with destinations at ports 0 of nodes 2 and 3 of cell 0. -/
def nrec (opc type osb lit : Nat) : NRec :=
  BitVec.ofNat 96 (opc * 2 ^ 88 + 0x002000 * 2 ^ 64 + 0x003000 * 2 ^ 40 + type * 2 ^ 37 + osb * 2 ^ 32 + lit)

/-- A token of colour 4 and SEQ 9 at a port of node 0. -/
def tk (p : Nat) (ws : List Word) : Token := mkTok (BitVec.ofNat 24 (p * 2 ^ 22)) 4 0 9 0 ws

/-- A null token at a port of node 0. -/
def tk0 (p : Nat) : Token := mkNull (BitVec.ofNat 24 (p * 2 ^ 22)) 4 0 9 0

/-- The tokens of a firing by the destination that they are sent to. -/
def o2 (ws : List Word) : Token := mkTok 0x002000 4 0 9 0 ws
def o3 (ws : List Word) : Token := mkTok 0x003000 4 0 9 0 ws

/-- Entries for tokens at their ports. -/
def entriesOf (n : Nat) : List Token → List Entry
  | [] => []
  | t :: r => ⟨n, dNode t.dest, dPort t.dest, t⟩ :: entriesOf (n + 1) r

/-- The firing of node 0 of cell 0 in colour 4. -/
def fire0 : Fire := ⟨0, 0, 4, 0, 0⟩

/-- Cell 0 with a record at node 0, tokens at its ports and the firing of it next. -/
def nodeIn (s : State) (r : NRec) (toks : List Token) : State :=
  { s with
    fire := fire0
    cells := Tbl.put s.cells 0 { Work.cell (Work.of s) 0 with nodes := [(0, r)], entries := entriesOf 0 toks, entrySeq := toks.length } }

/-- The same in a state of nothing else. -/
def node (r : NRec) (toks : List Token) : State := nodeIn base r toks

/-- The instance that fires. -/
def inst (s : State) : Inst := ((cellOf s 0).inst fire0).getD ⟨0, [], []⟩

/-- Whether the node fires. -/
def firesB (s : State) (opc : Nat) : Bool :=
  s.fire == fire0 && ((cellOf s 0).inst fire0).isSome && nOpc (inst s).r == opc && (Work.of s).chosen fire0

theorem fires {s : State} {opc : Nat} (h : firesB s opc = true) : Fires s fire0 (inst s) opc := by
  simp only [firesB, Bool.and_eq_true, beq_iff_eq] at h
  obtain ⟨⟨⟨h1, h2⟩, h3⟩, h4⟩ := h
  refine ⟨h1, ?_, h3, h4⟩
  obtain ⟨x, hx⟩ := Option.isSome_iff_exists.mp h2
  simp [inst, show fire0.cell = 0 from rfl, hx]

/-- A firing sends these tokens, and its own leave the store. -/
def sends (s : State) (i : Instr) (outs : List Token) : Bool :=
  out i s fun t => (cellOf t 0).outq == outs && (cellOf t 0).entries == []

/-- A firing freezes its colour with a code. -/
def freezes (s : State) (i : Instr) (code : Nat) : Bool :=
  out i s fun t => (regionOf t 0).frozen.map (fun o => (o.okind, o.code, o.cell, o.node, o.colour)) == [(2, code, 0, 0, 4)] &&
    (cellOf t 0).outq == [] && (cellOf t 0).entries == (cellOf s 0).entries

/-- A record as the spec's words give it: 0x0140_9003, 0xFFF0_0000, 0. -/
theorem test_nadd_example : (exec .nadd (node 0x01409003FFF0000000000000 [tk 0 [3], tk 1 [4]]) matches .next _) = true ∧
    sends (node 0x01409003FFF0000000000000 [tk 0 [3], tk 1 [4]]) .nadd [mkTok 0x409003 4 0 9 0 [7]] = true := by decide +kernel
theorem test_nadd_s32 : sends (node (nrec 0x01 2 1 0xFFFFFFFF) [tk 0 [0xFFFFFFFF80000000]]) .nadd [o2 [0x7FFFFFFF], o3 [0x7FFFFFFF]] = true :=
  by decide +kernel
theorem test_nsub_swapped : sends (node (nrec 0x02 0 2 0) [tk 0 [3], tk 1 [10]]) .nsub [o2 [7], o3 [7]] = true := by decide +kernel
theorem test_nmul_f32 : sends (node (nrec 0x03 4 0 0) [tk 0 [0x40000000], tk 1 [0x40400000]]) .nmul [o2 [0x40C00000], o3 [0x40C00000]] = true :=
  by decide +kernel
theorem test_nmin_null : sends (node (nrec 0x04 0 0 0) [tk 0 [3], tk0 1]) .nmin [mkNull 0x002000 4 0 9 0, mkNull 0x003000 4 0 9 0] = true := by
  decide +kernel
theorem test_nmax : sends (node (nrec 0x05 1 0 0) [tk 0 [2 ^ 63], tk 1 [1]]) .nmax [o2 [2 ^ 63], o3 [2 ^ 63]] = true := by decide +kernel
theorem test_nband : sends (node (nrec 0x06 1 0 0) [tk 0 [12], tk 1 [10]]) .nband [o2 [8], o3 [8]] = true := by decide +kernel
theorem test_nbor : sends (node (nrec 0x07 1 0 0) [tk 0 [12], tk 1 [10]]) .nbor [o2 [14], o3 [14]] = true := by decide +kernel
theorem test_nbxor : sends (node (nrec 0x08 1 0 0) [tk 0 [12], tk 1 [10]]) .nbxor [o2 [6], o3 [6]] = true := by decide +kernel
theorem test_nshl : sends (node (nrec 0x09 1 0 0) [tk 0 [1], tk 1 [67]]) .nshl [o2 [8], o3 [8]] = true := by decide +kernel
theorem test_nshr_arithmetic : sends (node (nrec 0x0A 0 0 0) [tk 0 [2 ^ 63], tk 1 [63]]) .nshr [o2 [2 ^ 64 - 1], o3 [2 ^ 64 - 1]] = true := by
  decide +kernel
theorem test_ncmp_literal : sends (node (nrec 0x0B 0 1 (8 * 5 + 2)) [tk 0 [4]]) .ncmp [o2 [1], o3 [1]] = true := by decide +kernel
theorem test_nfma : sends (node (nrec 0x0D 4 0 0) [tk 0 [0x40000000], tk 1 [0x40400000], tk 2 [0x3F800000]]) .nfma
    [o2 [0x40E00000], o3 [0x40E00000]] = true := by decide +kernel

theorem witness_NodeArithmetic :
    Fires (node (nrec 0x0A 0 0 0) [tk 0 [2 ^ 63], tk 1 [63]]) fire0 (inst (node (nrec 0x0A 0 0 0) [tk 0 [2 ^ 63], tk 1 [63]])) 0x0A ∧
    Fires (node (nrec 0x0B 0 1 42) [tk 0 [4]]) fire0 (inst (node (nrec 0x0B 0 1 42) [tk 0 [4]])) 0x0B ∧
    Fires (node (nrec 0x0D 4 1 0) [tk 0 [0], tk 1 [0]]) fire0 (inst (node (nrec 0x0D 4 1 0) [tk 0 [0], tk 1 [0]])) 0x0D ∧
    (nodeValue .nshr).isSome = true := ⟨fires (by decide +kernel), fires (by decide +kernel), fires (by decide +kernel), by decide +kernel⟩

theorem test_nsel : sends (node (nrec 0x0C 0 0 0) [tk 0 [1], tk 1 [10], tk 2 [20]]) .nsel [o2 [10], o3 [10]] = true ∧
    sends (node (nrec 0x0C 0 0 0) [tk 0 [0], tk 1 [10], tk 2 [20]]) .nsel [o2 [20], o3 [20]] = true := by decide +kernel
theorem test_nsteer : sends (node (nrec 0x10 0 0 0) [tk 0 [5], tk 1 [1]]) .nsteer [o2 [5]] = true ∧
    sends (node (nrec 0x10 0 0 0) [tk 0 [5], tk 1 [0]]) .nsteer [o3 [5]] = true := by decide +kernel
theorem test_nmerge : sends (node (nrec 0x11 0 0 0) [tk 1 [5]]) .nmerge [o2 [5], o3 [5]] = true := by decide +kernel
theorem test_ncopy : sends (node (nrec 0x12 0 0 0) [tk 0 [5]]) .ncopy [o2 [5], o3 [5]] = true := by decide +kernel
theorem test_nconst : sends (node (nrec 0x13 0 0 0xFFFFFFFF) [tk 0 [5]]) .nconst [o2 [2 ^ 64 - 1], o3 [2 ^ 64 - 1]] = true := by decide +kernel
theorem test_ngate : sends (node (nrec 0x14 0 0 0) [tk 0 [5], tk 1 [6]]) .ngate [o2 [5], o3 [6]] = true := by decide +kernel
theorem test_nsink : sends (node (nrec 0x15 0 0 0 ||| BitVec.ofNat 96 (0xFFF000 * 2 ^ 64 + 0xFFF000 * 2 ^ 40)) [tk 0 [5]]) .nsink [] = true := by
  decide +kernel
theorem test_niter : sends (node (nrec 0x18 0 0 0) [tk 0 [5]]) .niter [{ o2 [5] with iter := 1 }, { o3 [5] with iter := 1 }] = true := by
  decide +kernel
theorem test_ntagset : sends (node (nrec 0x19 0 1 0) [tk 0 [5], tk 1 [0x7000A]]) .ntagset [{ o2 [5] with iter := 10 }, { o3 [5] with iter := 10 }] =
    true := by decide +kernel
theorem test_ncvt : (out .ncvt (node (nrec 0x0E 0 0 0x45) [tk 0 [0x40A00000]]) fun t => (cellOf t 0).entries == []) = true := by decide +kernel

theorem witness_NodeFlow :
    Fires (node (nrec 0x0C 0 1 7) [tk 0 [1], tk 2 [20]]) fire0 (inst (node (nrec 0x0C 0 1 7) [tk 0 [1], tk 2 [20]])) 0x0C ∧
    Fires (node (nrec 0x0E 0 0 0x45) [tk0 0]) fire0 (inst (node (nrec 0x0E 0 0 0x45) [tk0 0])) 0x0E ∧
    Fires (node (nrec 0x10 0 0 0) [tk 0 [5], tk0 1]) fire0 (inst (node (nrec 0x10 0 0 0) [tk 0 [5], tk0 1])) 0x10 ∧
    Fires (node (nrec 0x11 0 0 0) [tk 1 [5]]) fire0 (inst (node (nrec 0x11 0 0 0) [tk 1 [5]])) 0x11 ∧
    Fires (node (nrec 0x12 0 0 0) [tk0 0]) fire0 (inst (node (nrec 0x12 0 0 0) [tk0 0])) 0x12 ∧
    Fires (node (nrec 0x13 0 1 0) [tk0 0]) fire0 (inst (node (nrec 0x13 0 1 0) [tk0 0])) 0x13 ∧
    Fires (node (nrec 0x14 0 0 0) [tk0 0, tk 1 [6]]) fire0 (inst (node (nrec 0x14 0 0 0) [tk0 0, tk 1 [6]])) 0x14 ∧
    Fires (node (nrec 0x15 0 0 0) [tk 0 [5]]) fire0 (inst (node (nrec 0x15 0 0 0) [tk 0 [5]])) 0x15 ∧
    Fires (node (nrec 0x18 0 1 0xFFFF) [tk 0 [5]]) fire0 (inst (node (nrec 0x18 0 1 0xFFFF) [tk 0 [5]])) 0x18 ∧
    Fires (node (nrec 0x19 0 3 0) [tk 0 [5], tk0 1]) fire0 (inst (node (nrec 0x19 0 3 0) [tk 0 [5], tk0 1])) 0x19 :=
  ⟨fires (by decide +kernel), fires (by decide +kernel), fires (by decide +kernel), fires (by decide +kernel), fires (by decide +kernel),
    fires (by decide +kernel), fires (by decide +kernel), fires (by decide +kernel), fires (by decide +kernel), fires (by decide +kernel)⟩

/-- A firing in the last iteration. -/
def lastIter : State :=
  let s := node (nrec 0x18 0 0 0) []
  { s with
    fire := { fire0 with iter := 0xFFFF }
    cells := Tbl.put s.cells 0 { cellOf s 0 with entries := [⟨0, 0, 0, { tk 0 [5] with iter := 0xFFFF }⟩] } }

theorem test_niter_overflow : (out .niter lastIter fun t => (regionOf t 0).frozen.map (fun o => (o.okind, o.code, o.iter)) ==
    [(2, 0x11, 0xFFFF)]) = true := by decide +kernel

/-! ## Colours, branches, links -/

/-- The pool of region 0 with two free colours, colour 4 taken from colour 9 with a return to node 3. -/
def pooled (s : State) : State :=
  reg0 s fun x => { x with freeColours := [6, 7], colours := [(4, ⟨0, some (9, 2, 0x003000)⟩)], stampNext := 1 }

/-- A caller that waits for a colour. -/
def caller : State := reg0 (pooled (node (nrec 0x1A 0 0 0x003000) [tk 0 [5]])) fun x => { x with waitC := [(fire0, 3)], cpoolSince := some 3 }

theorem test_ncolour : (out .ncolour (pooled (node (nrec 0x1A 0 0 0x003000) [tk 0 [5]])) fun t => (regionOf t 0).waitC == [(fire0, 0)] &&
    (cellOf t 0).entries != []) = true := by decide +kernel
theorem test_colour_grant : sends caller (.colourGrant 0) [{ o2 [5] with colour := 6 }, { o3 [5] with colour := 6 }] = true ∧
    (out (.colourGrant 0) caller fun t => (regionOf t 0).freeColours == [7] && (regionOf t 0).waitC == []) = true := by decide +kernel
theorem test_nreturn : sends (pooled (node (nrec 0x1B 0 0 0) [tk 0 [5]])) .nreturn [{ o3 [5] with colour := 9, iter := 2 }] = true ∧
    (out .nreturn (pooled (node (nrec 0x1B 0 0 0) [tk 0 [5]])) fun t => (regionOf t 0).freeColours == [6, 7, 4]) = true ∧
    freezes (node (nrec 0x1B 0 0 0) [tk 0 [5]]) .nreturn 0x11 = true := by decide +kernel
theorem test_colour_watchdog : (out (.colourWatchdog 0) (reg0 (md caller fun m => { m with cycle := 2 ^ 20 + 3 }) fun x => { x with cwdog := 20 })
    fun t => (regionOf t 0).frozen.map (fun o => (o.okind, o.code, o.node)) == [(2, 0x22, 0)] && (regionOf t 0).waitC == []) = true := by
  decide +kernel
theorem witness_Colours : caller.fire = fire0 ∧ (cellOf caller 0).inst fire0 = some (inst caller) ∧ nOpc ((cellOf caller 0).node 0) = 0x1A ∧
    (Work.of caller).mayFire fire0 = true ∧ (regionOf (pooled (node (nrec 0x1A 0 0 0) [tk 0 [5]])) 0).waitC = [] ∧
    (regionOf caller 0).waitC = [(fire0, 3)] ∧ (regionOf caller 0).freeColours = [6, 7] ∧
    (cellOf caller 0).room (reserved (Tbl.vals (cellOf caller 0).twigs) + 2) = true ∧
    firesB (pooled (node (nrec 0x1B 0 0 0) [tk 0 [5]])) 0x1B = true ∧
    Tbl.find (regionAt (pooled base) 0).colours 4 = some ⟨0, some (9, 2, 0x003000)⟩ ∧ (regionOf caller 0).cpoolSince = some 3 ∧
    2 ^ 20 ≤ 2 ^ 20 + 3 - 3 ∧ regionNo caller (fire0.cell / 16) = 0 := by decide +kernel

theorem test_nfork : (out .nfork (node (nrec 0x27 0 0 0) [tk 1 [5]]) fun t => (cellOf t 0).credits 0 == 1 && (cellOf t 0).outq == []) = true := by
  decide +kernel

/-- Cell 0 with credits at its node 0. -/
def credited (s : State) (n : Nat) : State := { s with cells := Tbl.put s.cells 0 { cellOf s 0 with forks := [(0, n)] } }

/-- Cell 0 with a join of two branches at its node 0. -/
def joined (s : State) (a b : Nat) : State := { s with cells := Tbl.put s.cells 0 { cellOf s 0 with joins := [(0, ⟨[a, b], [], none⟩)] } }

theorem test_nfork_passes : sends (credited (node (nrec 0x27 0 0 0) [tk 0 [5]]) 1) .nfork [o2 [5], o3 [5]] = true ∧
    freezes (credited (node (nrec 0x27 0 0 0) [tk 1 [5]]) 65535) .nfork 0x11 = true := by decide +kernel
theorem test_npjoin : sends (joined (node (nrec 0x28 0 0 2) [tk 1 [5]]) 1 0) .npjoin
    [bare fire0 ⟨0, [], []⟩ 9 0 0x002000, bare fire0 ⟨0, [], []⟩ 9 0 0x003000] = true ∧
    sends (joined (node (nrec 0x28 0 0 2) [tk 1 [5]]) 0 0) .npjoin [] = true := by decide +kernel

/-- A state whose region 0 runs a launch, and a node that pushes a task of stage 0. -/
def pusher : State := launched (node (nrec 0x1C 0 0 0) [tk 0 [0x80, 0, 0, 0, 0, 0]]) (running0 [])

theorem test_ntask : sends pusher .ntask [o2 [0], o3 [0]] = true ∧ (out .ntask pusher fun t =>
    (runningOf t 0).map (fun u => (u.live, (u.queue 0).recs.length)) == some (1, 1)) = true ∧
    freezes (node (nrec 0x1C 0 0 0) [tk 0 [0, 0, 0, 0, 0, 0]]) .ntask 0x11 = true := by decide +kernel

/-- Region 0 with a bound group on port 1. -/
def linked (s : State) (ws : List Word) (k : Nat) : State :=
  md (reg0 s fun x => { x with plans := [⟨⟨1, 1, 0, 9, 0⟩, true, false, ws, 4, k, none, false⟩] }) fun m => { m with ports := [(1, ⟨true, 9, 0, 0, 0⟩)] }

theorem test_nltx : (out .nltx (linked (node (nrec 0x29 0 0 0) [tk 0 [5]]) [] 0) fun t => (cellOf t 0).entries == [] &&
    (planOf t 0 0).map Plan.credit == some 3 && t.outbox.length == 1) = true := by decide +kernel
theorem test_nlrx : (out (.nlrx 0 0) (linked (node (nrec 0x2A 0 0 0x00100500) []) [7, 8] 3) fun t =>
    (cellOf t 0).outq == [mkTok 0x002000 5 3 0 0 [7], mkTok 0x003000 5 3 0 0 [7]] &&
    (planOf t 0 0).map (fun p => (p.rxWords, p.k)) == some ([8], 4)) = true := by decide +kernel
theorem witness_BranchesAndLinks : firesB (credited (node (nrec 0x27 0 0 0) [tk 0 [5]]) 1) 0x27 = true ∧
    (inst (node (nrec 0x27 0 0 0) [tk 1 [5]])).toks = [(1, tk 1 [5])] ∧ firesB (node (nrec 0x27 0 0 0) [tk 1 [5]]) 0x27 = true ∧
    firesB (joined (node (nrec 0x28 0 0 2) [tk 1 [5]]) 65535 65535) 0x28 = true ∧
    (1 : Nat) < ((cellOf (joined (node (nrec 0x28 0 0 2) [tk 1 [5]]) 1 0) 0).join 0).counts.length ∧ firesB pusher 0x1C = true ∧
    launch0.recOk (taskRec fire0 (inst pusher)) = true ∧ trStage (taskRec fire0 (inst pusher)) < (running0 []).queues.length ∧
    firesB (linked (node (nrec 0x29 0 0 0) [tk 0 [5]]) [] 0) 0x29 = true ∧ firesB (linked (node (nrec 0x29 0 0 0) [tk0 0]) [] 0) 0x29 = true ∧
    (planOf (linked base [7, 8] 3) 0 0).isSome = true ∧ (1 : Nat) ≤ [7, 8].length ∧
    (Work.of (linked (node (nrec 0x2A 0 0 0x00100500) []) [7, 8] 3)).mayFire ⟨0, 0, 5, 0, 0⟩ = true ∧
    (Work.of (linked (node (nrec 0x2A 0 0 0x00100500) []) [7, 8] 3)).mayFire ⟨0, 0, 0, 0, 0⟩ = true := by decide +kernel

/-! ## Twigs, arrivals -/

/-- A block at twig word 0: header as R74's example, and one instruction, EXIT. -/
def twigIn (s : State) : State :=
  { s with cells := Tbl.put s.cells 0 { cellOf s 0 with code := [(0, 0x03000000), (1, 0), (2, 0x70000000)], blocks := [0] } }

theorem test_ntwig : (out .ntwig (twigIn (node (nrec 0x1D 0 0 0) [tk 0 [5]])) fun t => (cellOf t 0).entries == [] &&
    ((cellOf t 0).twigs.map fun e => (e.1, e.2.code, e.2.ins.map (fun k => k.payload), e.2.next)) == [(0, [0x70000000], [[5]], 0)]) = true ∧
    freezes (node (nrec 0x1D 0 0 0) [tk 0 [5]]) .ntwig 0x11 = true := by decide +kernel

/-- A twig of cell 0 that has issued its one word, with its output A written. -/
def ended : State :=
  { base with
    cells := [(0, { Cell.reset with twigs := [(0, { oneWordTwig 0 with
      record := nrec 0x1D 0 0 0, colour := 4, seq := 9, header := 0x03000000, next := 1, outA := some ⟨false, [7]⟩ })] })] }

theorem test_twig_commit : (out (.twigCommit (.twig 0 0)) ended fun t => (cellOf t 0).outq == [mkTok 0x002000 4 0 9 0 [7]] &&
    (cellOf t 0).twigs == []) = true := by decide +kernel

/-- Tokens under way to cell 0, whose node 0 takes words at port 0. -/
def arriving (ts : List Token) (used : List Token) : State :=
  let s := node (nrec 0x12 0 0 0) used
  { s with cells := Tbl.put s.cells 0 { cellOf s 0 with inq := ts.map fun t => (1, t) } }

theorem test_arrival : (out (.tokenArrival 0) (arriving [tk 0 [5], tk 0 [6]] []) fun t => (cellOf t 0).inq == [(1, tk 0 [6])] &&
    (cellOf t 0).entries == [⟨0, 0, 0, tk 0 [5]⟩]) = true := by decide +kernel
theorem test_arrival_refused : (out (.tokenArrival 0) (arriving [tk 1 [5]] []) fun t => (cellOf t 0).entries == [] &&
    (regionOf t 0).frozen.map (fun o => (o.okind, o.code, o.toks)) == [(2, 0x11, [(1, tk 1 [5])])]) = true := by decide +kernel

/-- The overflow queue of cell 0 holds a token's record at its base, 0x40000; the cell has room again. -/
def refilling : State :=
  let s := reg0 (node (nrec 0x12 0 0 0) []) fun x => { x with table := { x.table with cells := [(0, (0, 0x40000, 4)), (1, (16, 0, 0))] } }
  let t := { s with cells := Tbl.put s.cells 0 { cellOf s 0 with ovf := [⟨0, false, none, none, false⟩] } }
  t.via fun w => w.store 0x40000 (tokBytes (tk 0 [5]))

theorem test_overflow_refill : (out (.overflowRefill 0) refilling fun t => (cellOf t 0).ovf == [] &&
    (cellOf t 0).entries.map (fun e => (e.node, e.port, e.tok.payload)) == [(0, 0, [5])]) = true := by decide +kernel
theorem witness_TwigsAndArrivals : firesB (twigIn (node (nrec 0x1D 0 0 0) [tk 0 [5]])) 0x1D = true ∧
    (Work.of (twigIn (node (nrec 0x1D 0 0 0) [tk 0 [5]]))).twigBreak fire0 (inst (node (nrec 0x1D 0 0 0) [tk 0 [5]])) = none ∧
    ((Work.of ended).twigAt (.twig 0 0)).map (fun w => decide (w.code.length ≤ w.next)) = some true ∧
    (Work.of (arriving [tk 0 [5]] [])).canTake 0 = true ∧ (Work.of (arriving [tk 0 [5]] [])).inputHeld 0 = false ∧
    (Work.of (arriving [tk 0 [5]] [])).spills 0 (tk 0 [5]) = false ∧ badTok ((cellOf (arriving [] []) 0).node 0) (tk 1 [5]) = true ∧
    badTok ((cellOf (arriving [] []) 0).node 0) (tk 0 [5]) = false ∧ (Work.of refilling).refillDue 0 = true ∧
    (Work.of refilling).inputHeld 0 = false ∧ ((cellOf refilling 0).ovf.find? fun z => !z.collided) = some ⟨0, false, none, none, false⟩ := by decide +kernel

/-! ## Changes, frontiers, histories -/

/-- Scope 0 with an epoch of 16 bits, scope 1 a loop of 8 bits in it, and slot 0 bound to scope 1. -/
def inScopes (s : State) : State :=
  reg0 s fun x => { x with shapes := [(0, 0x01000010), (1, 0x03000210)], fbind := [(0, 1)] }

/-- A change of record word 7 at a time, with a diff. -/
def chg (p : Nat) (t d : Nat) : Token := { tk p [7, 0, 0, 0, BitVec.ofNat 64 t, BitVec.ofNat 64 d] with kind := 1 }

/-- A change sent to node 2. -/
def ch2 (t d : Nat) : Token := { chg 0 t d with dest := 0x002000 }

/-- A change sent to node 3. -/
def ch3 (t d : Nat) : Token := { chg 0 t d with dest := 0x003000 }

/-- Grove 0 with a ring of two slots of 96 bytes at 0x10000 as handle 5. -/
def ring96 (s : State) (slots : List Nat) (fh dh : Nat) : State :=
  gr s fun k => { k with handles := [(5, ⟨2, 0x10000, 96, 2, slots, fh, dh, 0⟩)] }

/-- An open source at node 0 of cell 0, on the ring. -/
def source (slots : List Nat) (cur : Option (Nat × Option Nat × Nat)) : State :=
  let s := inScopes (mapped (ring96 (node (nrec 0x30 6 0 0x1005) []) slots 1 0))
  wordAt (wordAt (wordAt { s with cells := Tbl.put s.cells 0 { cellOf s 0 with dsrcs := [(0, ⟨true, 2, (0, 0), cur, false⟩)] } } 0x20000 1) 0x20050 3)
    0x20058 5

theorem test_dsrc_takes : (out (.dsrc 0 0) (source [2, 0] none) fun t => (sourceOf t 0 0).cur == some (0, none, 0) &&
    (handleOf t 0 5).slots == [3, 0] && (handleOf t 0 5).dh == 1) = true := by decide +kernel
theorem test_dsrc_sends : (out (.dsrc 0 0) (source [3, 0] (some (0, some 1, 0))) fun t => (sourceOf t 0 0).cur == some (0, some 1, 1) &&
    ((cellOf t 0).outq.map fun k => (k.dest, k.colour, k.kind, k.payload.take 5, k.payload.map (fun v => v.setWidth 32))) ==
      [(0x002000, 0, 1, [0, 0, 0, 0, 3], [0, 0, 0, 0, 3, (5 : BitVec 32)]), (0x003000, 0, 1, [0, 0, 0, 0, 3], [0, 0, 0, 0, 3, 5])]) = true := by
  decide +kernel
theorem test_dsrc_count : (out (.dsrc 0 0) (source [3, 0] (some (0, none, 0))) fun t => (sourceOf t 0 0).cur == some (0, some 1, 0)) = true ∧
    (out (.dsrc 0 0) (wordAt (source [3, 0] (some (0, none, 0))) 0x20000 2) fun t =>
      (regionOf t 0).frozen.map (fun o => (o.okind, o.code, o.node, o.colour)) == [(2, 0x11, 0, 0)]) = true := by decide +kernel
theorem test_dsrc_frees : (out (.dsrc 0 0) (source [3, 0] (some (0, some 1, 1))) fun t => (sourceOf t 0 0).cur == none &&
    (handleOf t 0 5).slots == [0, 0]) = true := by decide +kernel

/-- Whether a node reads memory. -/
def nodeReads (s : State) (a n : Nat) : Bool :=
  match (nodeBegins s 0 0).vread ((Work.of s).accNode 0 0) a n with
  | .ok _ => true
  | _ => false

theorem witness_Sources : NodeGoes (source [2, 0] none) 0 0 0x30 ∧ (sourceOf (source [2, 0] none) 0 0).cur = none ∧
    1 ≤ (handleOf (source [2, 0] none) 0 5).filled ∧ (sourceOf (source [3, 0] (some (0, none, 0))) 0 0).cur = some (0, none, 0) ∧
    nodeReads (source [3, 0] (some (0, none, 0))) 0x10000 8 = true ∧ nodeReads (source [3, 0] (some (0, some 1, 0))) 0x10030 48 = true ∧
    (cellOf (source [2, 0] none) 0).room (reserved (Tbl.vals (cellOf (source [2, 0] none) 0).twigs) + 2) = true ∧
    isTime 0x01000010 65535 = true ∧ isTime 0x01000010 65536 = false ∧ timeLe 0x01000010 2 3 = true ∧ timeLe 0x01000010 2 1 = false := by
  simp only [NodeGoes]; decide +kernel

/-- A sink at node 0 of cell 0, on the ring. -/
def sink (d : Dout) (slots : List Nat) (ts : List Token) : State :=
  let s := inScopes (mapped (ring96 (node (nrec 0x31 6 0 5 ||| BitVec.ofNat 96 (0xFFF000 * 2 ^ 64 + 0xFFF000 * 2 ^ 40)) ts) slots 0 0))
  { s with cells := Tbl.put s.cells 0 { cellOf s 0 with douts := [(0, d)] } }

theorem test_dout : (out .dout (sink ⟨none, 0, 0, [], 0, false⟩ [0, 0] [chg 0 3 5]) fun t => numAt t 0x20030 8 == 7 && numAt t 0x20050 8 == 3 &&
    numAt t 0x20058 8 == 5 && numAt t 0x20000 8 == 1 && (handleOf t 0 5).slots == [2, 0] && (cellOf t 0).entries == []) = true := by
  decide +kernel
theorem test_dout_null : (out .dout (sink ⟨none, 0, 0, [], 0, false⟩ [0, 0] [{ chg 0 3 5 with null := true }]) fun t => t.mem == [] &&
    (cellOf t 0).entries == []) = true := by decide +kernel
theorem test_dout_idle : (out (.doutIdlePost 0 0) (md (sink ⟨some 1, 1, 0, [], 5, false⟩ [0, 1] []) fun m => { m with cycle := 64 }) fun t =>
    (handleOf t 0 5).slots == [0, 2] && sinkOf t 0 0 == ⟨none, 0, 0, [], 0, false⟩) = true := by decide +kernel

/-- Whether a node writes memory. -/
def nodeWrites (s : State) (a n : Nat) : Bool :=
  match (nodeBegins s 0 0).vwrite ((Work.of s).accNode 0 0) a (leBytes n 1) with
  | .ok _ => true
  | _ => false

theorem witness_Sinks : firesB (sink ⟨some 1, 0, 0, [], 5, false⟩ [0, 1] [chg 0 3 5]) 0x31 = true ∧ (chg 0 3 5).null = false ∧
    (sinkOf (sink ⟨some 1, 0, 0, [], 5, false⟩ [0, 1] []) 0 0).slot = some 1 ∧ nodeWrites (sink ⟨some 1, 0, 0, [], 5, false⟩ [0, 1] []) 0x10090 48 = true ∧
    firesB (sink ⟨none, 0, 0, [], 0, false⟩ [0, 0] [chg 0 3 5]) 0x31 = true ∧ NodeGoes (sink ⟨some 1, 1, 0, [], 5, false⟩ [0, 1] []) 0 0 0x31 ∧
    64 ≤ (md base fun m => { m with cycle := 64 }).mod.cycle - 0 := by simp only [NodeGoes]; decide +kernel

theorem test_dneg : sends (inScopes (node (nrec 0x36 6 0 0) [chg 0 3 5])) .dneg [ch2 3 0xFFFFFFFB, ch3 3 0xFFFFFFFB] = true ∧
    freezes (inScopes (node (nrec 0x36 6 0 0) [chg 0 3 0x80000000])) .dneg 0x12 = true := by decide +kernel
theorem test_denter : sends (inScopes (node (nrec 0x37 6 0 0x10) [chg 0 3 5])) .denter [ch2 3 5, ch3 3 5] = true ∧
    freezes (inScopes (node (nrec 0x37 6 0 0x10) [chg 0 0x10000 5])) .denter 0x11 = true := by decide +kernel
theorem test_dfeed : sends (inScopes (node (nrec 0x38 6 0 1) [chg 0 0x10003 5])) .dfeed [ch2 0x20003 5, ch3 0x20003 5] = true ∧
    freezes (inScopes (node (nrec 0x38 6 0 1) [chg 0 0xFF0003 5])) .dfeed 0x11 = true := by decide +kernel
theorem test_dleave : sends (inScopes (node (nrec 0x39 6 0 0x01) [chg 0 0x10003 5])) .dleave [ch2 3 5, ch3 3 5] = true := by decide +kernel
theorem witness_TimeOperators : firesB (inScopes (node (nrec 0x36 6 0 0) [chg 0 3 0x80000000])) 0x36 = true ∧
    firesB (inScopes (node (nrec 0x37 6 0 0x10) [chg 0 65535 5])) 0x37 = true ∧
    firesB (inScopes (node (nrec 0x38 6 0 1) [chg 0 0xFE0003 5])) 0x38 = true ∧
    firesB (inScopes (node (nrec 0x39 6 0 1) [{ chg 0 0 0 with null := true }])) 0x39 = true := by decide +kernel

/-- Cell 0's and core 0's copies of slot 0, and the root's frontier of scope 1. -/
def copied (s : State) : State :=
  let t := core (reg0 (inScopes s) fun x => { x with rootF := [(1, [3])], timeSlots := [(64, 3), (65, 9)] }) fun c =>
    { c with fcopies := [(0, ⟨[2], 4⟩)] }
  gr { t with cells := Tbl.put t.cells 0 { cellOf t 0 with fcopies := [(0, ⟨[2], 4⟩)], probes := [(0, [])] } } fun k => { k with prog := [(64, 1)] }

theorem test_dprobe : sends (copied (node (nrec 0x3A 0 0 0) [tk 0 [1]])) .dprobe
    [o2 [0x400000011, 2, 2 ^ 64 - 1, 2 ^ 64 - 1, 2 ^ 64 - 1, 1], o3 [0x400000011, 2, 2 ^ 64 - 1, 2 ^ 64 - 1, 2 ^ 64 - 1, 1]] = true := by
  decide +kernel
/-- No copy of a frontier delivered, and none to deliver. -/
def level : State :=
  gr (reg0 (inScopes base) fun x => { x with timeSlots := [(64, 3), (65, 9)] }) fun k => { k with prog := [(64, 1)] }

theorem test_frontier_recompute : (out (.frontierRecompute 0 1) level fun t => Tbl.find (regionOf t 0).rootF 1 == some [3] &&
    (regionOf t 0).timeSlots == [(64, 3)]) = true ∧
    (out (.frontierRecompute 0 1) (copied base) fun t => (regionOf t 0).timeSlots == [(64, 3), (65, 9)]) = true := by decide +kernel
theorem test_frontier_delivery : (out (.frontierDelivery 0 0 true 0) (copied base) fun t =>
    copyAt (cellOf t 0).fcopies 0 == ⟨[3], 5⟩) = true ∧
    (out (.frontierDelivery 0 0 false 0) (copied (cs [])) fun t => copyOf t 0 0 == ⟨[3], 5⟩) = true := by decide +kernel

/-- A watching probe with a change to report. -/
def watching : State :=
  let s := copied (node (nrec 0x3A 0 1 0) [])
  { s with cells := Tbl.put s.cells 0 { cellOf s 0 with fcopies := [(0, ⟨[3], 5⟩)], probes := [(0, [⟨[3], 5⟩])] } }

theorem test_dprobe_watch : (out (.dprobeWatch 0 0) watching fun t => ((cellOf t 0).outq.map fun k => (k.dest, k.colour, k.seq, k.payload.take 2)) ==
    [(0x002000, 0, 5, [0x500000011, 3]), (0x003000, 0, 5, [0x500000011, 3])]) = true := by decide +kernel
theorem test_meet_and_join : timeJoin 0x03000210 0x10002 0x00003 = 0x10003 ∧ timeMeet 0x03000210 0x10002 0x00003 = 0x00002 := by decide +kernel
/-- The worked example of R302: C = (3,0), (2,5). -/
theorem test_advance : advance 0x03000210 0x70001 [0x00003, 0x50002] = 0x70002 ∧ advance 0x03000210 0x20002 [0x00003, 0x50002] = 0x20002 := by
  decide +kernel
theorem witness_ProbesAndTimes : firesB (copied (node (nrec 0x3A 0 0 0) [tk 0 [1]])) 0x3A = true ∧ NodeGoes watching 0 0 0x3A ∧
    (Work.of watching).probeDue 0 0 = true ∧ (regionOf (copied base) 0).bound 0 = some 1 ∧ (regionOf (copied base) 0).freezing = none ∧ (Work.of level).scopeBehind 0 1 = false ∧
    (cellOf watching 0).unreported 0 = [⟨[3], 5⟩] ∧ ShapeFits 0x03000210 ∧ isTime 0x03000210 0xFFFFFF = true ∧
    timeLe 0x03000210 0x00003 0x10003 = true := by simp only [NodeGoes, ShapeFits]; decide +kernel

theorem test_frd : did (copied (cs [])) (.frd 13 0 0) 13 2 (fun _ => true) = true ∧ did (copied (cs [])) (.frdStat 5 0) 5 0x400000111 (fun _ => true) = true ∧
    gives (cs []) (.frdTime 5) 5 7 = true ∧ raises (cs []) (.frd 13 0 0) 0x09 0 = true := by decide +kernel
theorem test_fwait : did (copied (cs [(11, 0x10001)])) (.fwait 12 0 11) 12 0 (fun _ => true) = true ∧
    raises (copied (cs [(11, 0x1000000)])) (.fwait 12 0 11) 0x09 0 = true := by decide +kernel

/-- A core beside a source that is drained. -/
def feeding (regs : List (Nat × Nat)) (slots : List Nat) : State := { source slots none with cores := (cs regs).cores, turn := .core 0 }

theorem test_fadv : did (feeding [(8, 0), (9, 6)] [0, 0]) (.fadv 10 8 9) 10 2 (fun t => (sourceOf t 0 0).element == 6) = true ∧
    raises (feeding [(8, 0), (9, 1)] [0, 0]) (.fadv 10 8 9) 0x09 0 = true ∧ held (feeding [(8, 0), (9, 6)] [2, 0]) (.fadv 10 8 9) = true := by
  decide +kernel
theorem witness_FrontierInstructions : OnCore (copied (cs [(11, 3)])) 0 ∧ (regionAt (copied (cs [])) 0).bound 0 = some 1 ∧
    (regionAt (copied (cs [])) 0).bound 31 = none ∧ (Instr.frd 13 0 3).coreOk = true ∧ isTime 0x03000210 3 = true ∧
    (copyOf (copied (cs [])) 0 0).elems.any (fun f => timeLe 0x03000210 f 3) = true ∧
    (copyOf (copied (cs [])) 0 0).elems.any (fun f => timeLe 0x03000210 f 1) = false ∧
    MaySuspend (maySuspend (copied (cs [(11, 3)]))) 0 0x60 0x104 ∧ (Instr.fadv 10 8 9).coreOk = true ∧
    (Work.of (feeding [] [0, 0])).lcell (regionNo (feeding [] [0, 0]) 0) 0 = some 0 ∧ nOpc ((cellOf (feeding [] [0, 0]) 0).node 0) = 0x30 ∧
    (reg (cs [(8, 2 ^ 22)]) 0 8).toNat / 2 ^ 22 ≠ 0 := by decide +kernel

/-- A descriptor: keys and values of 8 bytes, one bucket, batches of 4, sapwood of 16, heartwood of 64 at 0x10000, reader 0. -/
def desc0 : BitVec 256 := BitVec.ofNat 256 (1 + 2 * 2 ^ 24 + 8 * 2 ^ 32 + 2 ^ 48 + 16 * 2 ^ 80 + 64 * 2 ^ 96 + 0x10000 * 2 ^ 128)

/-- An arrangement with entries in its open batch and heartwood. -/
def arr0 (openB hw : List AEntry) : Arr := ⟨desc0, 0, 0, openB, [], hw, 0, [], [], [], none, 0, [], [], none⟩

/-- An entry of record word 7. -/
def en (t d : Nat) : AEntry := ⟨[7, 0, 0, 0], BitVec.ofNat 64 t, d, 0, 0, 0⟩

/-- Region 0 with arrangements, whose reader's slot 0 is bound to scope 0. -/
def arranged (s : State) (as : List (Nat × Arr)) : State :=
  reg0 (inScopes (mapped s)) fun x => { x with arrs := as, readers := [(0, ⟨true, false, 1, BitVec.allOnes 64⟩)], fbind := [(1, 0)], rootF := [(0, [4])] }

theorem test_darr : sends (arranged (node (nrec 0x32 6 0 0) [chg 0 3 5]) [(0, arr0 [] [])]) .darr [{ ch2 3 5 with seq := 0 }, { ch3 3 5 with seq := 0 }] = true ∧
    (out .darr (arranged (node (nrec 0x32 6 0 0) [chg 0 3 5]) [(0, arr0 [] [])]) fun t =>
      ((regionOf t 0).arr 0).map Arr.openB == some [en 3 5]) = true := by decide +kernel
theorem test_djoin : (out .djoin (arranged (node (nrec 0x33 6 0 0x100) [chg 0 3 5]) [(0, arr0 [] []), (1, arr0 [en 4 2] [])]) fun t =>
    ((cellOf t 0).pend.map fun e => (e.1, e.2.dest, e.2.payload.getD 4 0, chDiff e.2.payload)) ==
      [(0, 0x002000, 4, 10), (0, 0x003000, 4, 10)] && ((regionOf t 0).arr 0).map (fun a => a.openB.length) == some 1) = true := by decide +kernel
theorem test_dred_count : (out .dred (arranged (node (nrec 0x34 6 0 0x10100) [chg 0 3 1]) [(0, arr0 [] []), (1, arr0 [] [])]) fun t =>
    ((regionOf t 0).arr 0).map Arr.openB == some [en 3 1] && !(cellOf t 0).pend.isEmpty) = true := by decide +kernel
theorem test_dcon : (out .dcon (arranged (node (nrec 0x35 6 0 0) [chg 0 3 5]) [(0, arr0 [] [])]) fun t =>
    ((regionOf t 0).arr 0).map (fun a => a.openB.map fun e => (e.time, e.diff, e.colour)) == some [(3, 5, 4)]) = true := by decide +kernel
theorem witness_Histories : firesB (arranged (node (nrec 0x32 6 0 0) [chg 0 0xFFFF 5]) [(0, arr0 [] [])]) 0x32 = true ∧
    firesB (arranged (node (nrec 0x33 6 0 0x100) [chg 1 3 5]) [(0, arr0 [] []), (1, arr0 [en 4 2] [])]) 0x33 = true ∧
    (∀ y ∈ (arr0 [en 4 2] []).lookup [7, 0, 0, 0, 3, 5], -2147483648 ≤ (5 : Int) * y.diff ∧ 5 * y.diff ≤ 2147483647) ∧
    firesB (arranged (node (nrec 0x34 6 0 0x10100) [chg 0 3 1]) [(0, arr0 [] []), (1, arr0 [] [])]) 0x34 = true ∧
    firesB (arranged (node (nrec 0x35 6 0 0) [chg 0 3 5]) [(0, arr0 [] [])]) 0x35 = true ∧ ([] : List AEntry).length + 1 < (arr0 [] []).sealN := by
  decide +kernel

theorem test_dcon_flush : (out (.dconFlush 0 0) (md (arranged (node (nrec 0x35 6 0 0) []) [(0, arr0 [en 3 5] [])]) fun m => { m with cycle := 64 })
    fun t => ((regionOf t 0).arr 0).map (fun a => (a.openB, a.sealed)) == some ([], [])) = true := by decide +kernel

/-- An arrangement in cell 0, kept by DARR at node 0. -/
def kept (a : Arr) : State := arranged (node (nrec 0x32 6 0 0) []) [(0, a)]

theorem test_compaction_frontier : (out (.compactionFrontierRecompute 0 0) (kept (arr0 [] [])) fun t =>
    ((regionOf t 0).arr 0).map Arr.c == some [4]) = true := by decide +kernel
theorem test_pass_begins : (out (.pass 0 0) (kept { arr0 [en 3 5] [] with c := [4] }) fun t =>
    ((regionOf t 0).arr 0).map (fun a => (a.openB, a.sealed, a.run.isSome)) == some ([], [[en 3 5]], true)) = true := by decide +kernel
theorem test_pass_bucket : (out (.pass 0 0) (kept { arr0 [] [en 4 2] with sealed := [[en 3 5]], c := [4], run := some ⟨[4], 0, [], none, false⟩ }) fun t =>
    ((regionOf t 0).arr 0).map (fun a => (a.hw, a.sealed.flatten)) == some ([en 4 7], [])) = true := by decide +kernel
theorem test_pass_ends : (out (.pass 0 0) (kept { arr0 [] [en 4 7] with c := [4], run := some ⟨[4], 1, [], none, false⟩ }) fun t =>
    ((regionOf t 0).arr 0).map (fun a => (a.cf, a.passn, a.run)) == some ([4], 1, none)) = true := by decide +kernel
theorem test_ahold : did (arranged (cs [(6, 0), (7, 5)]) []) (.ahold 5 6 7) 5 0 (fun t => Tbl.find (regionOf t 0).readers 0 ==
    some ⟨true, true, 1, 5⟩) = true ∧ gives (arranged (cs [(6, 0), (7, 3)]) []) (.ahold 5 6 7) 5 1 = true := by decide +kernel
theorem test_arel : did (arranged (cs [(6, 0)]) []) (.arel 5 6) 5 (2 ^ 64 - 1) (fun _ => true) = true ∧
    raises (arranged (cs [(6, 1)]) []) (.arel 5 6) 0x09 0 = true := by decide +kernel
theorem test_acmp : did (arranged (cs [(6, 0)]) [(0, { arr0 [] [] with cf := [4], c := [4] })]) (.acmp 5 6) 5 4 (fun _ => true) = true := by decide +kernel
theorem witness_PassesAndReaders : NodeGoes (arranged (node (nrec 0x35 6 0 0) []) [(0, arr0 [en 3 5] [])]) 0 0 0x35 ∧
    (cellOf (kept (arr0 [] [])) 0).busyNode 0 = false ∧ 0 < (sapOf (arr0 [en 3 5] [])).length ∧
    (Work.of (kept { arr0 [] [] with c := [4] })).passRuns 0 0 { arr0 [] [] with c := [4] } = true ∧ { arr0 [] [] with c := [4] }.passDue = true ∧
    (∀ e ∈ [en 4 7], e.hash.toNat % (arr0 [] []).buckets < 1) ∧
    { arr0 [] [en 4 2] with sealed := [[en 3 5]] }.nextBucket ⟨[4], 0, [], none, false⟩ = some 0 ∧ ¬ (arr0 [] []).hwcap < 1 ∧
    OnCore (arranged (cs [(6, 0), (7, 5)]) []) 0 ∧ (Tbl.getD (regionAt (arranged base []) 0).readers 0 Reader.reset).v = true ∧
    ((regionAt (arranged base []) 0).retain 0).any (fun f => timeLe 0x01000010 f 4) = true ∧
    ((regionAt (arranged base []) 0).retain 0).any (fun f => timeLe 0x01000010 f 3) = false ∧ (Instr.acmp 5 6).coreOk = true := by
  simp only [NodeGoes]; decide +kernel

/-! ## Memory nodes, generators, mappings -/

/-- The record of the spec's chained load: literal 0x0100_0001, in the space of its bank. -/
def loadRec : NRec := nrec 0x21 1 0 0x01000001

theorem test_nld : (out .nld (node loadRec [tk 0 [0x40]]) fun t => (cellOf t 0).entries == [] && (cellOf t 0).outq == [] &&
    ((cellOf t 0).reqs.map fun q => (q.store, q.addr, q.oseq, q.opred, q.osucc)) == [(false, 0x40, 1, 0, 2)]) = true := by decide +kernel
theorem test_nst : (out .nst (node (nrec 0x22 1 0 0x1002) [tk 0 [0x40], tk 1 [7]]) fun t =>
    ((cellOf t 0).reqs.map fun q => (q.store, q.addr, q.data.head?, q.oseq, q.opred, q.osucc)) == [(true, 0x40, some 7, 2, 1, 0)]) = true := by
  decide +kernel
theorem test_nred : sends (node (nrec 0x24 1 0 0) [tk 0 [0x40], tk 1 [7]]) .nred
    [{ o2 [0x40, 7, 0x300011] with kind := 5 }] = true := by decide +kernel
theorem test_natom : sends (node (nrec 0x25 1 1 0) [tk 0 [0x40], tk 1 [7]]) .natom
    [{ o2 [0x40, 7, 0x300009] with kind := 5}] = true := by decide +kernel

/-- An owner at node 0 of bank bytes 0x100 to 0x17F. -/
def owner (ws : List Word) : State :=
  let s := node (nrec 0x23 1 0 0 ||| BitVec.ofNat 96 (0xFFF000 * 2 ^ 64 + 0xFFF000 * 2 ^ 40)) [{ tk 0 ws with kind := 5 }]
  { s with cells := Tbl.put s.cells 0 { cellOf s 0 with owners := [(0, (0x100, 0x180))] } }

theorem test_nown : (out .nown (wordAt (owner [0x108, 5, 0x200008]) (bankBase 0 + 0x108) 37) fun t => numAt t (bankBase 0 + 0x108) 8 == 42 &&
    (cellOf t 0).outq == [o2 [37]]) = true := by decide +kernel
theorem test_nown_range : freezes (owner [0x180, 5, 8]) .nown 0x09 = true ∧ freezes (owner [0x101, 5, 8]) .nown 0x03 = true ∧
    freezes (owner [0x100, 5, 0x18]) .nown 0x11 = true := by decide +kernel
theorem witness_MemoryNodes : firesB (node loadRec [tk 0 [0x40]]) 0x21 = true ∧ firesB (node (nrec 0x22 1 0 0x1002) [tk 0 [0x40], tk 1 [7]]) 0x22 = true ∧
    firesB (node (nrec 0x24 1 0 0) [tk 0 [0x40], tk0 1]) 0x24 = true ∧ firesB (node (nrec 0x25 1 1 0) [tk 0 [0x40], tk 1 [7]]) 0x25 = true ∧
    firesB (node (nrec 0x25 1 0 0x1002) [tk 0 [0x40], tk 1 [7]]) 0x25 = true ∧ firesB (owner [0x178, 5, 0x200008]) 0x23 = true ∧
    MemOk (owner [0x178, 5, 0x200008]) ∧ (0x178 : Nat) + opBytes 1 ≤ 0x180 ∧ updateOp 0 3 (2 ^ 32 - 1) 1 = 0 := by
  simp only [MemOk]; decide +kernel

/-- A request of a load's record that waits in cell 0, and its open chain. -/
def req0 (store : Bool) (r : NRec) (a v : Nat) : MemReq where
  id := 0
  node := 0
  record := r
  colour := 4
  iter := 0
  seq := 9
  store := store
  addr := BitVec.ofNat 64 a
  data := [BitVec.ofNat 64 v, 0, 0, 0, 0, 0]
  null := false
  unord := false
  oseq := 1
  opred := 0
  osucc := 2
  ins := []
  waiting := false

/-- Cell 0 with the request. -/
def asked (q : MemReq) : State :=
  let s := mapped (node q.record [])
  { s with cells := Tbl.put s.cells 0 { cellOf s 0 with reqs := [q], chains := [⟨4, 0, 0, 0⟩] } }

theorem test_request_load : (out (.orderedRequestPerform 0 0) (wordAt (asked (req0 false loadRec 0x40 0)) (bankBase 0 + 0x40) 99) fun t =>
    (cellOf t 0).outq == [o2 [99], o3 [99]] && (cellOf t 0).reqs == [] && (cellOf t 0).chains == [⟨4, 0, 1, 2⟩]) = true := by decide +kernel
theorem test_request_store : (out (.orderedRequestPerform 0 0) (asked (req0 true (nrec 0x22 2 2 0x01000001) 0x10004 0xAABBCCDD)) fun t =>
    numAt t 0x20004 4 == 0xAABBCCDD && (cellOf t 0).outq == [o2 [0x10004], o3 [0x10004]]) = true := by decide +kernel
theorem test_request_misaligned : (out (.orderedRequestPerform 0 0) (asked (req0 false loadRec 0x41 0)) fun t =>
    (regionOf t 0).frozen.map (fun o => (o.okind, o.code, o.aux)) == [(3, 0x03, 0)] && (cellOf t 0).reqs.length == 1) = true := by decide +kernel
theorem test_request_uncorrectable : (out (.orderedRequestPerform 0 0) (spoil (asked (req0 false loadRec 0x40 0)) (bankBase 0 + 0x47)) fun t =>
    (regionOf t 0).frozen.map (fun o => (o.okind, o.code, o.aux)) == [(3, 0x0A, 0)] && (cellOf t 0).outq == []) = true := by decide +kernel
theorem due_request : Due (asked (req0 false loadRec 0xFFF8 0)) 0 (req0 false loadRec 0xFFF8 0) :=
  ⟨by decide +kernel, by decide +kernel, .inr ⟨⟨4, 0, 0, 0⟩, by decide +kernel, .inl rfl⟩, by decide +kernel⟩
theorem witness_MemoryRequests : Due (asked (req0 false loadRec 0xFFF8 0)) 0 (req0 false loadRec 0xFFF8 0) ∧ MemOk (asked (req0 true loadRec 0 0)) ∧
    0xFFF8 + memSize (nType loadRec) ≤ 0x10000 ∧ (cellOf (asked { req0 false loadRec 0 0 with opred := 1 }) 0).chain 4 0 = some ⟨4, 0, 0, 0⟩ :=
  ⟨due_request, by simp only [MemOk]; decide +kernel, by decide +kernel, by decide +kernel⟩

/-- A shape of two elements of 8 bytes from 0x40 on, 16 apart, one round, moved on by 0x100. -/
def walk2 : BitVec 512 := BitVec.ofNat 512 (0x40 + 3 * 2 ^ 64 + 2 ^ 72 + 2 ^ 96 + 0x100 * 2 ^ 128 + 2 * 2 ^ 192 + 16 * 2 ^ (192 + 24))

/-- A generator of cell 0 that runs the shape. -/
def gen0 (osb : Nat) (inRound : Bool) (index : List Nat) (round : Nat) : Gen :=
  { Gen.reset with
    cur := 0x40, fresh := false, shape := walk2, extents := [2, 0, 0, 0], busy := true, node := 0, record := nrec 0x20 1 osb 0
    colour := 4, round := round, index := index, count := index.sum, inRound := inRound, ins := [tk 0 [1]] }

/-- Cell 0 with the generator. -/
def walking (k : Gen) (ts : List Token) : State :=
  let s := node k.record ts
  { s with cells := Tbl.put s.cells 0 { cellOf s 0 with gens := [(0, k)], shapes := [(0, walk2)] } }

theorem test_nag : (out .nag (let s := node (nrec 0x20 1 0 0) [tk 0 [1]]
    { s with cells := Tbl.put s.cells 0 { cellOf s 0 with shapes := [(0, walk2)] } }) fun t =>
    ((genOf t 0 0).busy && (genOf t 0 0).cur == 0x40 && (genOf t 0 0).extents == [2, 0, 0, 0])) = true := by decide +kernel
theorem test_nag_begins : (out (.nagElement 0 0) (walking (gen0 0 false [] 0) []) fun t => (genOf t 0 0).inRound && (genOf t 0 0).index == [0]) =
    true := by decide +kernel
theorem test_nag_element : (out (.nagElement 0 0) (wordAt (walking (gen0 0 true [1] 0) []) (bankBase 0 + 0x50) 7) fun t =>
    (cellOf t 0).outq == [{ o2 [7] with seq := 1 }] && (genOf t 0 0).index == [] && (genOf t 0 0).count == 2) = true := by decide +kernel
theorem test_nag_store : (out (.nagElement 0 0) (walking (gen0 1 true [1] 0) [tk 1 [8]]) fun t => numAt t (bankBase 0 + 0x50) 8 == 8 &&
    (cellOf t 0).entries == []) = true := by decide +kernel
theorem test_nag_round_ends : (out (.nagElement 0 0) (walking (gen0 0 true [] 0) []) fun t => (cellOf t 0).outq == [o3 [0]] &&
    (genOf t 0 0).cur == 0x140 && (genOf t 0 0).round == 1) = true ∧
    (out (.nagElement 0 0) (walking (gen0 0 false [] 1) []) fun t => !(genOf t 0 0).busy) = true := by decide +kernel
theorem witness_Generators : firesB (let s := node (nrec 0x20 1 0 0) [tk 0 [1]]
      { s with cells := Tbl.put s.cells 0 { cellOf s 0 with shapes := [(0, walk2)] } }) 0x20 = true ∧
    (regionAt (walking (gen0 0 true [1] 0) []) 0).runs = true ∧ (Work.of (walking (gen0 0 true [1] 0) [])).isFrozenAt 0 0 4 = false ∧
    (gen0 0 false [] 0).round < shRounds walk2 ∧ shRounds walk2 ≤ (gen0 0 false [] 1).round ∧
    elementAt (genOf (walking (gen0 0 true [1] 0) []) 0 0) = 0x50 ∧ MemOk (walking (gen0 1 true [1] 0) [tk 1 [8]]) ∧
    ((cellOf (walking (gen0 1 true [1] 0) [tk 1 [8]]) 0).entries.find? fun y => y.node == 0 && y.port == 1 && y.tok.colour == 4).isSome = true := by
  simp only [MemOk]; decide +kernel

/-- Cell 0 with mapping entry 2 in a state, the tile registry far from its page. -/
def mapAt (m : MapEntry) : State :=
  let s := md (core (mapped base) fun c => { c with tlb := [page] }) fun x => { x with trBase := 0x400000 }
  { s with cells := Tbl.put s.cells 0 { cellOf s 0 with maps := [(2, m)] } }

/-- An entry of page 0x10 at bank page 3. -/
def entry0 (st : Nat) (lines : List Nat) : MapEntry := ⟨st == 2, true, st, 0, 0x10, 0, 3, 0, 0, lines⟩

theorem test_map_register : (out (.mapRegister 0 2 0xC000000000010000) (mapAt { entry0 0 [] with nextWord := 0x3000 }) fun t =>
    (mapOf t 0 2).st == 1 && (mapOf t 0 2).va == 0x10 && (mapOf t 0 2).boff == 3) = true := by decide +kernel
theorem test_map_size : (out (.mapRegistrationComplete 0 2) (mapAt { entry0 1 [] with size := 5 }) fun t => (mapOf t 0 2).st == 0 &&
    (mapOf t 0 2).err == 5) = true := by decide +kernel
theorem test_map_unmap : (out (.mapUnmap 0 2 0) (mapAt (entry0 2 [0x20000])) fun t => (mapOf t 0 2).st == 3) = true ∧
    (out (.mapUnmapComplete 0 2) (wordAt (mapAt (entry0 3 [0x20000])) (bankBase 0 + 0x3008) 77) fun t => numAt t 0x20008 8 == 77 &&
      (mapOf t 0 2).st == 0) = true := by decide +kernel

/-- A walk of page 0x10 that grove 0 waits for, with no table. -/
def missing : State := md base fun m => { m with walkQ := [⟨0, 0, 0x10, [⟨0, 0, 0⟩]⟩] }

theorem test_walk_faults : (out (.translationWalk 0 0x10) missing fun t => t.mod.walkQ == [] && t.mod.walkFaults == [(⟨0, 0, 0⟩, 0, 0x10, 8)]) = true := by
  decide +kernel
theorem witness_Mappings : missing.mod.walkOf 0 0x10 = some ⟨0, 0, 0x10, [⟨0, 0, 0⟩]⟩ ∧
    (mapOf (mapAt (entry0 1 [])) 0 2).st = 1 ∧ (mapOf (mapAt (entry0 3 [0x20000])) 0 2).st = 3 ∧ MemOk (mapAt (entry0 3 [0x20000])) ∧
    (mapOf (mapAt (entry0 3 [0x20000])) 0 2).lines = [0x20000] := by simp only [MemOk]; decide +kernel

/-! ## Remote accesses, links, glades -/

/-- Module 9 behind port 1. -/
def remote (s : State) : State := md s fun m => { m with routes := [(9, 0x81)], ports := [(1, ⟨true, 9, 0, 256, 0⟩)] }

/-- The requests that a state has sent, in order: op, target, address, bytes. -/
def sentReqs (s : State) : List (Nat × Nat × Nat × List Byte) :=
  s.outbox.filterMap fun m =>
    match m with
    | .request r => some (r.op, r.target, r.addr, r.data)
    | _ => none

theorem test_rld : suspends (maySuspend (remote (cs [(6, 0x40), (7, 9)]))) (.rld 5 6 7) 7 (9 + 65536 * (State.reset.mod.nextIdent + 1)) 5 0x104 false =
    true ∧ (out (.rld 5 6 7) (maySuspend (remote (cs [(6, 0x40), (7, 9)]))) fun t => sentReqs t == [(0, 9, 0x40, [])]) = true := by decide +kernel
theorem test_rld_own_module : raises (remote (cs [(6, 0x40), (7, State.reset.mod.modNo)])) (.rld 5 6 7) 0x09 0 = true ∧
    raises (remote (cs [(6, 0x41), (7, 9)])) (.rld 5 6 7) 0x03 0x41 = true := by decide +kernel
theorem test_rld_block : did (mapped (remote (cs [(5, 0x10020), (6, 0x40), (7, 9)]))) (.rldB32 5 6 7) 0 0 (fun t =>
    (coreOf t 0).rldOut == [State.reset.mod.nextIdent] && sentReqs t == [(0, 9, 0x40, [])]) = true ∧
    raises (mapped (remote (cs [(5, 0x10020), (6, 0x40), (7, 9)]))) (.rldB64 5 6 7) 0x03 0x10020 = true := by decide +kernel
theorem test_rld_block128 : did (mapped (remote (cs [(5, 0x10080), (6, 0x80), (7, 9)]))) (.rldB128 5 6 7) 0 0 (fun t => sentReqs t == [(0, 9, 0x80, [])]) =
    true := by decide +kernel
theorem test_rst : did (remote (cs [(5, 0xAB), (6, 0x40), (7, 9)])) (.rst 5 6 7) 0 0 (fun t =>
    sentReqs t == [(1, 9, 0x40, [0xAB, 0, 0, 0, 0, 0, 0, 0])]) = true := by decide +kernel
theorem test_rst_block : did (wordAt (mapped (remote (cs [(5, 0x10000), (6, 0x40), (7, 9)]))) 0x20008 0xCD) (.rstB32 5 6 7) 0 0 (fun t =>
    (sentReqs t).map (fun r => (r.1, r.2.2.2.getD 8 0, r.2.2.2.length)) == [(1, 0xCD, 32)]) = true := by decide +kernel
theorem test_rst_blocks : did (mapped (remote (cs [(5, 0x10000), (6, 0x40), (7, 9)]))) (.rstB64 5 6 7) 0 0 (fun t => (sentReqs t).length == 1) = true ∧
    did (mapped (remote (cs [(5, 0x10000), (6, 0x80), (7, 9)]))) (.rstB128 5 6 7) 0 0 (fun t => (sentReqs t).length == 1) = true := by decide +kernel
theorem test_ramo : suspends (maySuspend (remote (cs [(5, 3), (6, 0x40), (7, 9)]))) (.ramo 5 6 7 0 0) 7 (9 + 65536 * (State.reset.mod.nextIdent + 1)) 5 0x104
    false = true := by decide +kernel
theorem test_rld_done : did (core (cs []) fun c => { c with rldLost := [9], rldErr := true }) (.rldDone 5) 5 (lostStatus [9] ||| 2 ^ 62) (fun t =>
    (coreOf t 0).rldLost == [] && !(coreOf t 0).rldErr) = true ∧
    suspends (maySuspend (core (cs []) fun c => { c with rldOut := [4] })) (.rldDone 5) 7 0x8000 5 0x104 false = true := by decide +kernel

/-- Whether a pair of a core's stream is free. -/
def pairFree (s : State) (isCell : Bool) (m : Nat) : Bool :=
  match (Work.of s).pair isCell 0 m with
  | .free _ => true
  | _ => false

theorem witness_RemoteInstructions : OnCore (remote (cs [(6, 0x40), (7, 9)])) 0 ∧ RemoteOk (remote (cs [(6, 0x40), (7, 2047)])) 0 6 7 8 ∧
    pairFree (remote (cs [])) false 9 = true ∧ (Work.of (cs [])).mod.routes = [] ∧ (Instr.rld 5 6 7).coreOk = true ∧
    (Instr.ramo 5 6 7 3 6).coreOk = true ∧ (Instr.rst 5 6 7).coreOk = true ∧ (Instr.rldB128 5 6 7).coreOk = true ∧ (Instr.rstB128 5 6 7).coreOk = true ∧
    (Instr.rldDone 5).coreOk = true ∧ 2 ^ 11 ≤ (reg (cs [(7, 2048)]) 0 7).toNat ∧ MaySuspend (maySuspend (remote (cs []))) 0 0x60 0x104 := by
  simp only [RemoteOk]; decide +kernel

/-- A request of core 3 of module 9. -/
def asks (op addr : Nat) (data : List Byte) : RemoteReq :=
  { target := 0, source := 9, srcCell := false, srcAgent := 3, ident := 21, op := op, amo := 0, type := 0, asid := 0, super := false
    addr := addr, size := 8, data := data, entry := 0, seq := 0 }

/-- Module 0's address space 0 maps its first GiB onto itself, by tables at 0x1000, 0x2000 and 0x3000. -/
def spaced (s : State) : State :=
  md (wordAt (wordAt (wordAt s 0x1000 0x2001) 0x2000 0x3001) 0x3000 0x1CF) fun m => { m with modNo := 0, asTable := [(0, 2 ^ 63 + 0x1000, 64)] }

theorem test_remote_load : (out (.remoteRequestArrival (asks 0 0x20010 [])) (wordAt (spaced (remote base)) 0x20010 99) fun t =>
    t.outbox == [.response 9 ⟨0, 21, .credit⟩, .response 9 ⟨0, 21, .answer (leBytes 8 99)⟩]) = true := by decide +kernel
theorem test_remote_store : (out (.remoteRequestArrival (asks 1 0x20010 (leBytes 8 77))) (spaced base) fun t => numAt t 0x20010 8 == 77) = true ∧
    (out (.remoteRequestArrival (asks 2 0x20010 (leBytes 8 5))) (wordAt (spaced (remote base)) 0x20010 37) fun t => numAt t 0x20010 8 == 42 &&
      t.outbox.getLast? == some (.response 9 ⟨0, 21, .answer (leBytes 8 37)⟩)) = true := by decide +kernel
theorem test_remote_held : (out (.remoteRequestArrival (asks 0 0x40 [])) (remote base) fun t => t.mod.heldStreams.map (fun h => (h.source, h.code, h.reqs.length)) ==
    [(9, 0x08, 1)] && t.outbox == [.response 9 ⟨State.reset.mod.modNo, 21, .faulted 0x08⟩]) = true := by decide +kernel

/-- Entry 0 of the invoke table sends to node 5 of region 0 in colour 6. -/
def invokable (s : State) : State := md s fun m => { m with invokeTable := [(0, BitVec.ofNat 64 (2 ^ 63 + 6 * 2 ^ 32 + 0x005000))] }

theorem test_invoke_arrives : (out (.remoteRequestArrival (asks 3 0 (leBytes 8 7))) (invokable (remote base)) fun t =>
    t.mod.invocations.map (fun v => (v.entry, v.n, v.source, v.ident)) == [(0, 0, 9, 21)] &&
      t.outbox == [.response 9 ⟨State.reset.mod.modNo, 21, .credit⟩]) = true := by decide +kernel

/-- The same invoke at the head of its stream, which its region let go. -/
def invokeHeld : State := md (invokable base) fun m => { m with heldStreams := [⟨9, false, 3, [asks 3 0 (leBytes 8 7)], 0⟩] }

theorem test_invoke_accept : (out (.invokeAccept (asks 3 0 (leBytes 8 7))) invokeHeld fun t => t.mod.invocations.length == 1 &&
    t.mod.heldStreams == []) = true := by decide +kernel

/-- A core's request 4 to module 9 that has not been answered, and its task. -/
def unanswered : State :=
  md { base with cores := [(0, { Core.reset with slots := [{ rec1 none with wait := 7, wobj := 9 + 65536 * 5, dreg := 5 }] })] } fun m =>
    { m with streams := [⟨false, 0, 9, 8, 1, [⟨4, 0, true, 8, 0x40, none, 0, false, 0, 0, 0, 0, 0, [], false, 0⟩], none, false, []⟩] }

theorem test_remote_credit : (out (.remoteResponse ⟨9, 4, .credit⟩) unanswered fun t =>
    (t.mod.streams.map fun st => st.out.map fun q => q.reqHeld) == [[false]]) = true := by decide +kernel
theorem test_remote_answer : (out (.remoteResponse ⟨9, 4, .answer (leBytes 8 77)⟩) unanswered fun t =>
    ((coreOf t 0).slots.map fun x => (x.since, x.regs)) == [(some 0, [77, 16])]) = true := by decide +kernel
theorem test_stream_close : (out (.streamClose false 0 9) (md base fun m => { m with cycle := 4096, streams := [⟨false, 0, 9, 8, 1, [], some 0, false, []⟩] }) fun t =>
    t.mod.streams == []) = true := by decide +kernel
theorem test_ninvoke_call : (out .ninvokeCall (remote (node (nrec 0x26 1 0 9) [tk 0 [5]])) fun t => sentReqs t == [(3, 9, 0, [5, 0, 0, 0, 0, 0, 0, 0])] &&
    (cellOf t 0).entries == []) = true ∧ freezes (node (nrec 0x26 1 0 9) [tk 0 [5]]) .ninvokeCall 0x1A = true := by decide +kernel

/-- A node that answers the one invocation. -/
def answering : State := md (node (nrec 0x26 1 1 0) [tk 0 [5]]) fun m => { m with invocations := [⟨0, 0, 0, 4, 9, 3, 21⟩] }

theorem test_ninvoke_return : (out .ninvokeReturn (remote answering) fun t => t.mod.invocations == [] &&
    t.outbox == [.response 9 ⟨State.reset.mod.modNo, 21, .answer [5, 0, 0, 0, 0, 0, 0, 0]⟩]) = true ∧
    freezes (node (nrec 0x26 1 1 0) [tk 0 [5]]) .ninvokeReturn 0x11 = true := by decide +kernel

/-- Whether a remote request is performed. -/
def performs (s : State) (r : RemoteReq) : Bool :=
  match (Work.of s).performRemote r with
  | .ok _ => true
  | _ => false

/-- The request's stream frozen, by a record under number 1. -/
def broken : State := reg0 unanswered fun x => { x with frozen := [⟨1, 5, 0x08, false, 0, 0, 0, 0, 0, [], none, 9, 0⟩] }

theorem test_rsresume : (out (.rsresumeRetry false 0 9) broken fun t => t.outbox == [.resume 9 broken.mod.modNo false 0 false] && t.ways == [(1, 0)] &&
    (regionOf t 0).frozen == []) = true ∧
    (out (.rsresumeDiscard false 0 9) broken fun t => t.outbox == [.resume 9 broken.mod.modNo false 0 true] && (regionOf t 0).frozen == []) = true ∧
    (out (.rsresumeRetry true 0 9) broken fun t => t == broken) = true := by decide +kernel

/-- A stream held here by a store that faulted. -/
def faulting : State := md (spaced (remote base)) fun m => { m with heldStreams := [⟨9, false, 3, [asks 1 0x20010 (leBytes 8 77)], 0x08⟩] }

theorem test_resumed_here : (out (.messageForward 0 0 (.resume 0 9 false 3 false)) faulting fun t => numAt t 0x20010 8 == 77 && t.mod.heldStreams == [] &&
    t.outbox == [.response 9 ⟨0, 21, .credit⟩, .response 9 ⟨0, 21, .answer []⟩]) = true ∧
    (out (.messageForward 0 0 (.resume 0 9 false 3 true)) faulting fun t => t.mem == faulting.mem &&
      t.outbox == [.response 9 ⟨0, 21, .credit⟩, .response 9 ⟨0, 21, .discarded 0x08⟩]) = true := by decide +kernel

theorem witness_RemoteLife : performs (spaced base) (asks 1 0x20010 (leBytes 8 77)) = true ∧ performs base (asks 0 0x40 []) = false ∧ base.mod.heldStreams.any (fun h => h.isOf 9 false 3) = false ∧
    invokeHeld.mod.heldStreams.any (fun h => h.isOf 9 false 3) = true ∧ 2 ^ 63 ≤ (Tbl.getD (invokable base).mod.invokeTable 0 0).toNat ∧
    (regionOf base 0).loaded = true ∧ (unanswered.mod.request 9 4).isSome = true ∧ 0 ∈ (Work.of unanswered).grovesOf (regionNo unanswered 0) ∧
    (coreOf unanswered 0).slots[0]? = some { rec1 none with wait := 7, wobj := 9 + 65536 * 5, dreg := 5 } ∧
    firesB (remote (node (nrec 0x26 1 0 9) [tk 0 [5]])) 0x26 = true ∧ pairFree (remote (node (nrec 0x26 1 0 9) [tk 0 [5]])) true 9 = true ∧
    firesB answering 0x26 = true ∧ (answering.mod.invocations.find? fun v => v.region == 0 && v.colour == 4 && v.n == 0) = some ⟨0, 0, 0, 4, 9, 3, 21⟩ ∧
    (broken.mod.stream false 0 9).isSome = true ∧ (regionOf broken (regionNo broken 0)).frozen.any (fun o => o.okind == 5 && o.cell == 0 && o.node == 0 && o.what == 9) = true ∧
    (regionOf unanswered (regionNo unanswered 0)).frozen = [] ∧
    (faulting.mod.heldStreams.find? fun y => y.isOf 9 false 3 && y.code != 0) = some ⟨9, false, 3, [asks 1 0x20010 (leBytes 8 77)], 0x08⟩ ∧
    performs ((Work.of faulting).unhold 9 false 3 |> faulting.finish) (asks 1 0x20010 (leBytes 8 77)) = true ∧
    (Work.of (remote base)).route 9 = some 1 ∧
    ((md base fun m => { m with streams := [⟨false, 0, 9, 8, 1, [], some 0, false, []⟩] }).mod.stream false 0 9) = some ⟨false, 0, 9, 8, 1, [], some 0, false, []⟩ := by
  decide +kernel

theorem test_link_up : (out (.linkUp 3 9 128) base fun t => portOf t 3 == { portOf base 3 with up := true, peer := 9, grant := 128, given := base.mod.remcfg.2.1 }) = true := by
  decide +kernel
theorem test_link_retry : (out (.linkFlitRetry 1) (remote base) fun t => (portOf t 1).retries == 1) = true := by decide +kernel
theorem test_link_lost : (out (.linkLost 1) (linked base [] 0) fun t => !(portOf t 1).up &&
    (planOf t 0 0).map (fun p => (p.bound, p.lost)) == some (false, true)) = true := by decide +kernel

/-- Region 0 with a plan entry that is not bound. -/
def planned (s : State) : State :=
  md (reg0 s fun x => { x with plans := [⟨⟨1, 1, 0, 9, 77⟩, false, false, [], 0, 0, none, false⟩] }) fun m => { m with ports := [(1, ⟨true, 9, 0, 0, 0⟩)] }

theorem test_link_bind : (out (.linkPlanBind 1 1 1 9 77) (planned base) fun t => (planOf t 0 0).map (fun p => (p.bound, p.credit)) == some (true, 512)) =
    true := by decide +kernel
/-- Region 0 with a bound group that receives. -/
def receiving (s : State) : State :=
  md (reg0 s fun x => { x with plans := [⟨⟨1, 1, 1, 9, 0⟩, true, false, [], 0, 0, none, false⟩] }) fun m => { m with ports := [(1, ⟨true, 9, 0, 0, 0⟩)] }

theorem test_words_and_credits : (out (.messageForward 0 0 (.words 1 1 [7])) (receiving base) fun t => (planOf t 0 0).map Plan.rxWords == some [7]) = true ∧
    (out (.messageForward 0 0 (.credit 1 1 3)) (linked base [] 0) fun t => (planOf t 0 0).map Plan.credit == some 7) = true := by decide +kernel
theorem test_peer_lost : (out (.peerLostDeclared 9) unanswered fun t => t.mod.streams == []) = true := by decide +kernel
theorem test_message_forward : (out (.messageForward 9 6 (.words 1 1 [])) (remote base) fun t => t == { remote base with outbox := [.words 1 1 []], ways := [(1, 7)] }) =
    true ∧ (out (.messageForward 9 7 (.words 1 1 [])) (remote base) fun t => t == remote base) = true := by decide +kernel
theorem witness_Links : (portOf base 23).up = false ∧ base.mod.bootErr = false ∧ (portOf (planned base) 1).up = true ∧ (portOf (planned base) 1).peer = 9 ∧
    (planOf (planned base) 0 0).map (fun p => p.bound) = some false ∧ (planOf (linked base [] 0) 0 0).map (fun p => p.bound) = some true ∧
    (9 : Nat) ≠ (remote base).mod.modNo ∧ (regionOf (planned base) 0).halted = false ∧
    (planOf (linked base [] 0) 0 0).map (fun p => (p.entry.role, p.entry.group)) = some (0, 1) ∧ (planOf (receiving base) 0 0).map (fun p => p.entry.role) = some 1 ∧ (Work.of (remote base)).route 9 = some 1 ∧ (Work.of base).route 9 = none := by decide +kernel

/-- Grove 0 with barrier 2 in phase 1, posted with 64 bytes to come, and glade 3 of two slots at handle 5 on it. -/
def gladed (s : State) (p : Phase) (slots : List GSlot) : State :=
  gr s fun k => { k with
    handles := [(5, ⟨2, 0x10000, 256, 2, [0, 0], 0, 0, 0⟩)]
    barriers := [(2, ⟨⟨false, false, false, 0⟩, p, 1⟩)]
    glades := [(3, ⟨2, 5, [(9, 9)], slots, []⟩)] }

/-- A slot of the glade. -/
def slot0 (st got : Nat) : GSlot := ⟨st, 9, false, 1, 0, 2 ^ 20, none, got, 0, false⟩

/-- Register 6 names barrier 2 in phase 1. -/
def onBarrier (p : Phase) (slots : List GSlot) (n : Nat) : State := gladed (cs [(6, 2 ^ 32 + 2), (7, n)]) p slots

theorem test_abpost : did (onBarrier ⟨false, false, false, -64⟩ [] 64) (.abpost 5 6 7) 5 0 (fun t => (barrierOf t 0 2).odd == ⟨true, false, false, 0⟩) = true ∧
    raises (onBarrier ⟨false, false, false, 1⟩ [] (2 ^ 47 - 1)) (.abpost 5 6 7) 0x18 0 = true := by decide +kernel
theorem test_abwait : did (onBarrier ⟨true, false, false, 0⟩ [slot0 3 64] 0) (.abwait 5 6) 5 1 (fun t => (slotOf t 0 3 0).st == 4) = true ∧
    suspends (maySuspend (onBarrier ⟨true, false, false, 64⟩ [] 0)) (.abwait 5 6) 8 2 0 0x100 false = true := by decide +kernel
theorem test_gclr : did (onBarrier ⟨true, true, false, 64⟩ [slot0 5 0] 0) (.gclr 5 6) 5 0 (fun t => (barrierOf t 0 2).odd == ⟨false, false, false, 0⟩ &&
    (slotOf t 0 3 0).st == 0) = true ∧ gives (onBarrier ⟨true, false, false, 64⟩ [] 0) (.gclr 5 6) 5 1 = true := by decide +kernel
theorem test_gclr_done : did (onBarrier ⟨true, false, false, 0⟩ [slot0 4 64] 0) (.gclrDone 5 6) 5 0 (fun t => (barrierOf t 0 2).ph == 2 &&
    (slotOf t 0 3 0).st == 0) = true ∧ gives (onBarrier ⟨true, false, false, 64⟩ [] 0) (.gclrDone 5 6) 5 1 = true := by decide +kernel

/-- A reservation of one slot of glade 3 from grove 2 of module 9. -/
def asksSlot : Reservation := ⟨0, 9, 2, 4, 0, 3, 1, 1, 21⟩

theorem test_grsv : suspends (maySuspend (remote (cs [(6, 9 + 3 * 2 ^ 20), (7, 1 + 2 ^ 16 + 4 * 2 ^ 24)]))) (.grsv 8 6 7) 1 4 8 0x104 false = true ∧
    raises (remote (cs [(6, 9), (7, 1 + 4 * 2 ^ 24)])) (.grsv 8 6 7) 0x09 0 = true := by decide +kernel
theorem test_reservation_arrival : (out (.reservationArrival asksSlot) (gladed base ⟨false, false, false, 0⟩ [slot0 0 0]) fun t =>
    (groveOf t 0).gq == [asksSlot]) = true ∧ (out (.reservationArrival { asksSlot with source := 8 }) (gladed (md base fun m => { m with routes := [(8, 0x81)], ports := [(1, ⟨true, 8, 0, 256, 0⟩)] }) ⟨false, false, false, 0⟩ [slot0 0 0])
      fun t => (groveOf t 0).gq == [] && t.outbox.length == 2) = true := by decide +kernel
theorem test_reservation_grant : (out (.reservationGrant 0 3) (gr (gladed (remote base) ⟨false, false, false, 0⟩ [slot0 3 0, slot0 0 0]) fun k =>
    { k with gq := [asksSlot] }) fun t => (slotOf t 0 3 1).st == 1 && (groveOf t 0).gq == [] &&
      t.outbox == [.response 9 ⟨State.reset.mod.modNo, 21, .answer [2, 0, 0, 0, 0, 0, 0, 0]⟩]) = true := by decide +kernel

/-- A packet of 8 bytes, all of its transfer, for slot 0 of glade 3. -/
def packet0 : GladePacket := ⟨0, 9, 21, 6, none, 0, 3, 0, 1, 0, 8, 0, leBytes 8 77⟩

theorem test_glade_packet : (out (.gladePacketArrival packet0) (gladed base ⟨true, false, false, 8⟩ [slot0 1 0]) fun t =>
    numAt t (groveBase 0 + 0x10000) 8 == 77 && (slotOf t 0 3 0).st == 3 && (barrierOf t 0 2).odd == ⟨true, false, false, 0⟩) = true := by decide +kernel
theorem test_glade_packet_refused : (out (.gladePacketArrival { packet0 with phase := 2 }) (gladed (remote base) ⟨true, false, false, 8⟩ [slot0 1 0]) fun t =>
    t.mem == [] && t.outbox == [.response 9 ⟨State.reset.mod.modNo, 21, .faulted 0x09⟩]) = true := by decide +kernel

/-- Grove 0 holds slot 1 of glade 3 of grove 2 of module 9 as a sender. -/
def sender (s : State) : State := gr (remote s) fun k => { k with sent := [⟨9, 2, 3, 1, 1, false, 0, some 1, false⟩] }

theorem test_glade_keepalive : (out (.gladeKeepalive 0 3 1) (md (sender base) fun m => { m with cycle := 50 }) fun t =>
    (groveOf t 0).sent.map Sys2Proof.Machine.Sent.last == [50] && t.outbox == [.keepAlive 9 State.reset.mod.modNo 2 3 1]) = true := by decide +kernel
theorem test_glade_revocation : (out (.gladeRevocation 0 3 0) (md (gladed base ⟨true, false, false, 8⟩ [slot0 1 0]) fun m =>
    { m with cycle := 2 ^ 20 }) fun t => (slotOf t 0 3 0).st == 5 && (barrierOf t 0 2).odd.lost) = true := by decide +kernel
theorem test_glade_hold : (out (.gladeHold false 9 0 3 0) (gladed base ⟨true, false, false, 8⟩ [slot0 1 0]) fun t => (slotOf t 0 3 0).away) = true ∧
    (out (.gladeHold true 9 2 3 1) (sender base) fun t => (groveOf t 0).sent.map Sys2Proof.Machine.Sent.held == [true]) = true := by decide +kernel
theorem test_glade_resume : (out (.gladeResume false 9 0 3 0 7 6) (gladed base ⟨true, false, false, 8⟩ [{ slot0 1 0 with away := true }]) fun t =>
    (slotOf t 0 3 0).sender == 7 && !(slotOf t 0 3 0).away) = true ∧
    (out (.gladeResume true 9 2 3 1 7 6) (sender base) fun t => (groveOf t 0).sent.map (fun x => (x.module, x.grove)) == [(7, 6)]) = true := by
  decide +kernel

/-- The barrier that a register names. -/
def barrierNamed (s : State) (x : Word) : Option (Nat × Nat × Nat) :=
  match (Work.of s).barrierAt 0 x with
  | .ok r => some r
  | _ => none

theorem witness_Glades : OnCore (onBarrier ⟨true, false, false, 0⟩ [slot0 3 64] 0) 0 ∧ (Instr.grsv 8 6 7).coreOk = true ∧
    barrierNamed (onBarrier ⟨true, false, false, 0⟩ [] 0) (2 ^ 32 + 2) = some (0, 2, 1) ∧
    barrierNamed (onBarrier ⟨true, false, false, 0⟩ [] 0) (2 ^ 32 * 3 + 2) = none ∧ (Instr.abpost 5 6 7).coreOk = true ∧ (Instr.abwait 5 6).coreOk = true ∧
    (Instr.gclr 5 6).coreOk = true ∧ (Instr.gclrDone 5 6).coreOk = true ∧ pairFree (remote (cs [])) false 9 = true ∧
    (Work.of (gladed base ⟨false, false, false, 0⟩ [slot0 0 0])).refuses asksSlot = false ∧
    (Work.of (gladed base ⟨false, false, false, 0⟩ [slot0 0 0])).refuses { asksSlot with source := 8 } = true ∧ asksSlot.source ≠ base.mod.modNo ∧ (Work.of base).packetIn packet0 = true ∧ (gladed base ⟨false, false, false, 0⟩ [slot0 0 0]).mod.modNo ≠ 9 ∧
    (barrierOf (gladed base ⟨false, false, false, 0⟩ [slot0 0 0]) 0 2).dist 1 ≤ 1 ∧
    ((gladeOf (gladed base ⟨false, false, false, 0⟩ [slot0 0 0]) 0 3).bind fun z => z.freeSlots 1) = some [0] ∧
    (gladeOf (gladed base ⟨true, false, false, 8⟩ [slot0 1 0]) 0 3).map (fun z => z.slots[0]?) = some (some (slot0 1 0)) ∧
    MemOk (gladed base ⟨true, false, false, 8⟩ [slot0 1 0]) ∧ (0 : Nat) + 2 ^ base.mod.remcfg.1 ≤ 2 ^ 20 := by simp only [MemOk]; decide +kernel

/-! ## The matrix array -/

/-- Grove 0's matrix array changed. -/
def mxs (s : State) (f : Mx → Mx) : State := s.via fun w => w.setMx 0 (f (w.mx 0))

/-- A packet of one row of 32 bytes, each 1. -/
def pkt : Packet := ⟨0, 0, [List.replicate 32 1], 32, 0, 0, 0⟩

/-- A handler's twig of the packet, its turn. -/
def handling (s : State) : State :=
  { mxs s fun m => { m with handled := [pkt], twigs := [(0, { oneWordTwig 0 with packet := 0, ins := [tk 0 [0, 0, 1, 32]] })] } with turn := .mx 0 0 }

theorem test_mma : (out (.mma 0 0 0 0 0) (handling base) fun t => (((mxOf t 0).tag 0).queue.map fun i => (i.kind, i.seq, i.packet)) == [(0, 0, pkt)]) = true := by
  decide +kernel
theorem test_mma_held : (out (.mma 3 5 0 0 0) (handling base) fun t => (((mxOf t 0).tag 3).held.map fun i => i.seq) == [5]) = true ∧
    (out (.mma 3 200 0 0 0) (handling base) fun t => (regionOf t 0).frozen.map (fun o => (o.okind, o.code, o.what)) == [(6, 0x10, 3)]) = true := by
  decide +kernel
theorem test_mldb : did (cs [(8, 0), (9, 64)]) (.mldb 8 9 0) 0 0 (fun t => (mxOf t 0).shadow.st == 1 && (mxOf t 0).shadow.kb == 64) = true ∧
    raises (cs [(8, 16), (9, 64)]) (.mldb 8 9 0) 0x09 0 = true := by decide +kernel
theorem test_mscl : did (cs [(8, 0), (9, 0)]) (.mscl 8 9) 0 0 (fun t => (mxOf t 0).aBind == 0 && (mxOf t 0).bBind == 0) = true ∧
    raises (cs [(8, 0x400), (9, 0)]) (.mscl 8 9) 0x09 0 = true := by decide +kernel
theorem test_mstat : did (mxs (cs [(6, 3)]) fun m => { m with tags := [(3, ⟨5, [], [], none, []⟩)], begun := 2 }) (.mstat 5 6) 5 0x200000005 (fun _ => true) = true ∧
    raises (cs [(6, 64)]) (.mstat 5 6) 0x09 0 = true := by decide +kernel
theorem test_mzero : did (cs [(6, 3)]) (.mzero 6) 0 0 (fun t => (((mxOf t 0).tag 3).queue.map fun i => i.kind) == [2]) = true := by decide +kernel
theorem test_mrd : did (cs [(6, 3), (7, 2 * 2 ^ 59 + 0x40)]) (.mrd 5 6 7 0) 5 1 (fun t => (((mxOf t 0).tag 3).queue.map fun i => (i.kind, i.ctx)) == [(1, 2)] &&
    ((engineOf t 0 2).queue.map fun o => (o.num, o.op)) == [(1, 0xFE)]) = true := by decide +kernel
theorem witness_MatrixInstructions : OnTwig (handling base) (.mx 0 0) (((Work.of (handling base)).twigAt (.mx 0 0)).getD (oneWordTwig 0)) ∧
    (mxOf (handling base) 0).handled.find? (fun p => p.order == 0) = some pkt ∧ ((mxOf (handling base) 0).tag 0).frozen = none ∧
    OnCore (cs [(8, 0x7FE00), (9, 512)]) 0 ∧ (Instr.mldb 8 9 7).coreOk = true ∧ (Instr.mscl 8 9).coreOk = true ∧ (Instr.mstat 5 6).coreOk = true ∧
    (Instr.mzero 6).coreOk = true ∧ (Instr.mrd 5 6 7 0).coreOk = true ∧ MayGo (cs []) 0 (coreOf (cs []) 0).step.pc := by
  simp only [OnTwig]; decide +kernel

/-- A packet of one row of 32 bf16 ones. -/
def ones : Packet := ⟨0, 0, [(List.replicate 32 [0x80, 0x3F]).flatten], 64, 0, 0, 0⟩

/-- A k-step of one row of depth 32 at tag 0, of bf16 or of another code. -/
def step0 (fmt : Nat) : TagItem := ⟨0, 0, 0, ones, 1, fmt, 0, none, false, 0, 0, 0⟩

/-- Grove 0 with the k-step at its tag's head, and weights of 32 columns of bf16 ones. -/
def stepping (fmt : Nat) : State :=
  mxs base fun m => { m with
    tags := [(0, ⟨0, [step0 fmt], [], none, []⟩)]
    active := { Latch.reset with loaded := true, kb := 64, cols := List.replicate 32 (List.replicate 32 [0x80, 0x3F]).flatten } }

theorem test_kstep : (out (.kstep 0) (wordAt (stepping 0) (accBase 0 0) 0x3F800000) fun t => numAt t (accBase 0 0) 4 == 0x42040000 &&
    numAt t (accBase 0 0 + 124) 4 == 0x42000000 && numAt t (accBase 0 0 + 128) 4 == 0 && ((mxOf t 0).tag 0).next == 1) = true := by decide +kernel
theorem test_shadow_latch_full : (out (.shadowLatchFull 0) (mxs base fun m => { m with shadow := { Latch.reset with st := 1 } }) fun t =>
    (mxOf t 0).shadow.st == 2) = true := by decide +kernel

/-- A packet at the array, with a handler for its tag or none. -/
def arrived (handlers : List (Nat × Word)) : State :=
  mxs base fun m => { m with arrivals := [pkt], handlers := handlers, code := [(0, 0x0900_0000), (1, 0), (2, 0xC0000040), (3, 0x70000000)], blocks := [0] }

theorem test_packet_arrival : (out (.packetArrival 0) (arrived [(0, 2 ^ 63)]) fun t => (mxOf t 0).arrivals == [] && (mxOf t 0).handled == [pkt] &&
    ((mxOf t 0).twigs.map fun e => e.2.ins.map fun k => k.payload) == [[[0, 0, 1, 32]]]) = true ∧
    (out (.packetArrival 0) (arrived []) fun t => (regionOf t 0).faults.map (fun f => f.code) == [0x11]) = true := by decide +kernel
theorem test_kstep_format : (out (.kstep 0) (stepping 6) fun t => (regionOf t 0).frozen.map (fun o => (o.okind, o.code, o.what)) == [(6, 0x14, 0)]) = true := by
  decide +kernel

/-- The read-out of a read token. -/
def readToken (kind : Nat) (z : Bool) : State :=
  eng (mxs base fun m => { m with tags := [(0, ⟨5, [⟨kind, 0, 0, pkt, 0, 0, 0, none, z, 0, 1, 3⟩], [], none, []⟩)] }) 1
    { Engine.reset with issued := 3, queue := [EngOp.new 3 0xFE 0 0 false 0] }

theorem test_mrd_serve : (out (.mrdServe 0 0) (wordAt (readToken 1 true) (accBase 0 0) 0x3F800000) fun t => t.mem == [] &&
    ((engineOf t 0 1).queue.map fun o => (o.running, o.payload.take 4, o.payload.length)) == [(true, [0, 0, 0x80, 0x3F], 4096)] &&
      ((mxOf t 0).tag 0).next == 0) = true := by decide +kernel
theorem test_mzero_serve : (out (.mzeroServe 0 0) (wordAt (readToken 2 false) (accBase 0 0) 7) fun t => t.mem == [] && ((mxOf t 0).tag 0).next == 0) = true := by
  decide +kernel
theorem witness_MatrixEvents : (mxOf (arrived [(0, 2 ^ 63)]) 0).arrivals.find? (fun p => !(mxOf (arrived [(0, 2 ^ 63)]) 0).frozenEntries.contains (p.hdr.toNat % 2 ^ 8) &&
      !(mxOf (arrived [(0, 2 ^ 63)]) 0).spilled.contains p.order) =
      some pkt ∧ (mxOf (arrived []) 0).handlerOf pkt = none ∧ (mxOf (arrived [(0, 2 ^ 63)]) 0).handlerOf pkt = some (2 ^ 63) ∧
    earliest (mxOf (stepping 0) 0).tags = some (0, step0 0) ∧ ((mxOf (stepping 0) 0).tag 0).queue.head? = some (step0 0) ∧ (regionAt (stepping 0) 0).runs = true ∧ kindOk 0 0 = true ∧ kindOk 6 0 = false ∧
    ((mxOf (readToken 1 true) 0).tag 0).token = some ⟨1, 0, 0, pkt, 0, 0, 0, none, true, 0, 1, 3⟩ ∧ MemOk (readToken 1 true) := by
  simp only [MemOk]; decide +kernel

/-! ## Faults, stops, the host and the module -/

/-- A fault record of Overflow at node 0x1000, as the spec's worked example gives it. -/
def fault0 : FaultRec := ⟨0x08, 1, false, false, 2, none, 0, 0, 0x02000000, 0, 0x0212, 7, 0, 1, 3, false⟩

/-- Region 0 with the record to post to handle 5 of its grove 0, whose ring's pages are in the buffer. -/
def faulted (s : State) : State :=
  reg0 (mapped (gr s fun k => { k with handles := [(5, ⟨2, 0x10000, 64, 2, [0, 0], 1, 0, 0⟩)] })) fun x => { x with faultq := 5, faults := [fault0] }

theorem test_fault_record : (out (.faultRecordPost 0) (gr (faulted base) fun k => { k with tlb := [page] }) fun t => byteAt t 0x20040 == 8 && byteAt t 0x20041 == 1 &&
    byteAt t 0x20046 == 0xFF && numAt t 0x20050 8 == 0x02000000 && numAt t 0x20060 8 == 0x212 && numAt t 0x20078 4 == 1 &&
    (regionOf t 0).faults == [] && (handleOf t 0 5).slots == [0, 2]) = true := by decide +kernel
theorem test_faultq_write : (out (.faultqWrite 0 0x105) (reg0 base fun x => { x with faults := [{ fault0 with checkFailed := true }] }) fun t =>
    (regionOf t 0).faultq == 0x105 && (regionOf t 0).faults.map FaultRec.checkFailed == [false]) = true := by decide +kernel

/-- A core held since cycle 5. -/
def stuck : State := md (core (cs []) fun c => { c with stall := some 5 }) fun m => { m with cycle := 2 ^ 20 + 5, dogs := [(.core 0, 5, false)] }

theorem test_stall_watchdog : (out (.stallWatchdog (.core 0)) stuck fun t => (regionAt t 0).faults.map (fun f => (f.code, f.pc)) == [(0x21, 0x100)] &&
    (coreOf t 0) == coreOf stuck 0 && t.mod.dogs == [(.core 0, 5, true)]) = true := by decide +kernel
theorem witness_FaultQueues : (regionOf (faulted base) 0).faults = [fault0] ∧ (regionOf (faulted base) 0).runs = true ∧
    (Work.of (faulted base)).faultRing 0 = some (0, 5) ∧ (handleOf (faulted base) 0 5).slots.getD 1 9 = 0 ∧ MemOk (faulted base) ∧
    (Work.of (faulted base)).buffered 0 false 0 0x10040 = some page ∧ page.refuses needW false = false ∧
    ({ page with attr := 0x10A } : Xlat).refuses needW false = true ∧ stuck.mod.dogs.find? (fun d => d.1 == Stalled.core 0) = some (.core 0, 5, false) ∧
    (coreOf stuck 0).stall ≠ none := by simp only [MemOk]; decide +kernel

/-- A frozen object of a kind, under number 1. -/
def frozen0 (okind what aux : Nat) (toks : List (Nat × Token)) (task : Option Record) : Frozen :=
  ⟨1, okind, 0x11, false, 0, 0, 0, 4, 0, toks, task, what, aux⟩

/-- Region 0 with a frozen object. -/
def frozenIn (s : State) (o : Frozen) : State := reg0 s fun x => { x with frozen := [o], nextFseq := 2 }

theorem test_release_retry : (out (.freleaseRetry 0 1) (frozenIn (node (nrec 0x12 0 0 0) [tk 0 [5]]) (frozen0 2 1 0 [(0, tk 0 [5])] none)) fun t =>
    (regionOf t 0).frozen == [] && (cellOf t 0).entries.length == 1) = true ∧
    (out (.freleaseRetry 0 2) (frozenIn base (frozen0 2 1 0 [] none)) fun t => (regionOf t 0).frozen.length == 1) = true := by decide +kernel
theorem test_release_discard : (out (.freleaseDiscard 0 1) (frozenIn (asked (req0 false loadRec 0x41 0)) (frozen0 3 2 0 [] none)) fun t =>
    (regionOf t 0).frozen == [] && (cellOf t 0).reqs.map MemReq.null == [true]) = true := by decide +kernel
theorem test_pjdet : (out (.pjdet 0 0x01000000) (joined (node (nrec 0x28 0 2 2) []) 3 5) fun t => ((cellOf t 0).join 0).detached == [1] &&
    ((cellOf t 0).join 0).counts.getD 0 9 == 0) = true := by decide +kernel
theorem witness_Releases : ReleasesNow base 0 ∧ frozenOf base 0 1 = none ∧
    frozenOf (frozenIn base (frozen0 2 1 0 [] none)) 0 1 = some (frozen0 2 1 0 [] none) ∧ frozenOf (frozenIn base (frozen0 3 2 0 [] none)) 0 1 = some (frozen0 3 2 0 [] none) ∧
    frozenOf (frozenIn base (frozen0 4 1 0 [] none)) 0 1 = some (frozen0 4 1 0 [] none) ∧ ((mxOf base 0).tag 0).kept = [] ∧
    (∀ p ∈ [(0, tk 0 [5])], p.2.item = none) ∧ runningOf (launched base (running0 [])) 0 = some (running0 []) ∧
    (regionOf (reg0 base fun x => { x with stopped := true }) 0).stopped = true ∧ (0x01000000 : Word).toNat / 2 ^ 27 % 16 = 0 ∧
    (Work.of (joined (node (nrec 0x28 0 2 2) []) 3 5)).lcell 0 0 = some 0 ∧ nOpc ((cellOf (joined (node (nrec 0x28 0 2 2) []) 3 5) 0).node 0) = 0x28 := by
  decide +kernel

/-- Region 0 stopped by a record of number 1. -/
def stopped (s : State) : State := reg0 s fun x => { x with stopped := true, stop := some { fault0 with code := 0x31, okind := 8 }, stopCore := some 0 }

theorem test_fcmd_stop : (out (.fcmdStop 0) base fun t => (regionOf t 0).stopping == some 1 &&
    (regionOf t 0).stop.map (fun f => (f.code, f.okind, f.aux, f.fseq)) == some (0x31, 8, 0x200, 1)) = true := by decide +kernel
theorem test_stop_complete : (out (.stopComplete 0) (reg0 base fun x => { x with stopping := some 1 }) fun t => (regionOf t 0).stopped &&
    (regionOf t 0).stopping == none) = true := by decide +kernel
theorem test_fcmd_resume : (out (.fcmdResumeRetry 0 1) (stopped base) fun t => !(regionOf t 0).stopped) = true ∧
    (out (.fcmdResumeDiscard 0 1) (stopped base) fun t => !(regionOf t 0).stopped) = true ∧
    (out (.fcmdResumeRetry 0 2) (stopped base) fun t => (regionOf t 0).stopped) = true := by decide +kernel
theorem test_fcmd_step : (out (.fcmdStep 0 1) (stopped (cs [])) fun t => t.moves == [.run (.core 0)]) = true := by decide +kernel
theorem test_fcmd_list : (out (.fcmdList 0) (reg0 (mapped { stopped (node (nrec 0x12 0 0 0) [tk 0 [5]]) with turn := .core 0 }) fun x => { x with listVa := 0x10000 })
    fun t => (regionOf t 0).listN == 1 && ((List.range 64).map fun i => byteAt t (0x20000 + i)) == tokBytes (tk 0 [5])) = true := by decide +kernel
theorem test_snaptrig : (out .snaptrig base fun t => t.mod.snapN == base.mod.snapN + 1 && (groveOf t 319).snap.getD 0 0 == 1) = true := by decide +kernel
theorem witness_Stops : (regionOf base 0).loaded = true ∧ (regionOf base 0).runs = true ∧ (regionOf base 1).loaded = false ∧
    (Work.of (reg0 base fun x => { x with stopping := some 1 })).waveDone 0 = true ∧ (regionOf (stopped base) 0).stopped = true ∧
    (regionOf (stopped base) 0).stop.map FaultRec.fseq = some 1 ∧ (regionOf (stopped (cs [])) 0).stopCore = some 0 ∧ (coreOf (stopped (cs [])) 0).task ≠ none ∧
    (Work.of (stopped (node (nrec 0x12 0 0 0) [tk 0 [5]]))).listed 0 ≠ [] := by decide +kernel

/-- Region 1 loaded, beside the region of the running core. -/
def second (s : State) : State := s.via fun w => w.updRegion 1 fun x => { x with loaded := true }

theorem test_freeze : did (second (sup (cs [(6, 1), (7, 0x10000)]))) (.freeze 5 6 7 2) 5 1 (fun t => (regionOf t 1).freezing == some (0, 2, 1) &&
    ((engineOf t 0 2).queue.map fun o => (o.num, o.op)) == [(1, 0xFB)]) = true ∧
    raises (sup (cs [(6, 0), (7, 0x10000)])) (.freeze 5 6 7 2) 0x09 0 = true := by decide +kernel
theorem test_thaw : did (sup (cs [(6, 1), (7, 0x10000)])) (.thaw 5 6 7 2) 5 1 (fun t => (regionOf t 1).thawing == some (0, 2, 1)) = true ∧
    raises (second (sup (cs [(6, 1), (7, 0x10000)]))) (.thaw 5 6 7 2) 0x09 0 = true := by decide +kernel

/-- Region 1 with a wave that grove 0's operation 1 in context 2 asked for. -/
def waved (f : Region → Region) : State :=
  eng (base.via fun w => w.updRegion 1 f) 2 { Engine.reset with issued := 1, queue := [{ EngOp.new 1 0xFB 0 0 true 0 with running := true, firing := true }] }

theorem test_thaw_complete : (out (.thawComplete 1) (waved fun x => { x with thawing := some (0, 2, 1) }) fun t => (regionOf t 1).thawing == none &&
    ((engineOf t 0 2).queue.map fun o => o.err) == [some 0x08]) = true := by decide +kernel
theorem witness_Freezing : OnCore (second (sup (cs [(6, 1), (7, 0x10000)]))) 0 ∧ Super (sup (cs [])) 0 ∧ (Instr.freeze 5 6 7 2).coreOk = true ∧
    (Instr.thaw 5 6 7 2).coreOk = true ∧ (regionOf (second base) 1).loaded = true ∧ (engineOf base 0 2).holdsSignal = false ∧ regionNo base 0 ≠ 1 ∧
    (regionOf (waved fun x => { x with freezing := some (0, 2, 1) }) 1).freezing = some (0, 2, 1) ∧
    (Work.of (waved fun x => { x with freezing := some (0, 2, 1) })).waveDone 1 = true ∧ (∀ m ∈ base.images, m.raw = []) := by decide +kernel

theorem test_hqbase_write : (out (.hqbaseWrite (2 ^ 64 - 1)) base fun t => t.mod.hqBase == 0x1FFFFFFFF00F) = true := by decide +kernel
theorem test_hqtail_write : (out (.hqtailWrite 5) base fun t => t.mod.hqTail == 5) = true := by decide +kernel
theorem test_host_window : (out (.hostWindowAccess 1 false 0x20010 8 0) (wordAt base 0x20010 99) fun t => t.outbox == [.hostData 1 99]) = true ∧
    (out (.hostWindowAccess 1 true 0x20010 2 0xABCD) base fun t => t.mem == [(0x20010, 0xCD), (0x20011, 0xAB)]) = true ∧
    (out (.hostWindowAccess 0 false 8 4 0) base fun t => t.outbox == [.hostData 0 0xFFFFFFFF] && t.mod.herr == 1) = true := by decide +kernel
theorem test_register_write : (out (.registerWrite 0x100C00000C08 0x12345678) base fun t => t.mod.remBase == 0x12345000) = true ∧
    (out (.registerWrite 0x100C0000D000 1) (md base fun m => { m with herr := 3 }) fun t => t.mod.herr == 2) = true := by decide +kernel

/-- The host queue at 0x20000 with one entry. -/
def hostAsks (s : State) (op region arg : Nat) : State :=
  md (wordAt (wordAt s 0x20000 (op + region * 2 ^ 16)) 0x20008 arg) fun m => { m with hqBase := 0x20002, hqTail := 1 }

theorem test_host_release : (out .hostQueueRelease (hostAsks (frozenIn (asked (req0 false loadRec 0x41 0)) (frozen0 3 2 0 [] none)) 2 0 (2 ^ 62 + 1)) fun t =>
    (regionOf t 0).frozen == [] && t.mod.hqHead == 1 && numAt t 0x20010 8 == 2 ^ 63) = true := by decide +kernel
theorem test_host_launch_refused : (out .hostQueueLaunch (hostAsks base 3 0 0) fun t => numAt t 0x20010 8 == 2 ^ 63 + 1 && t.mod.hqHead == 1) = true ∧
    (out .hostQueueLaunch (hostAsks base 1 320 0) fun t => numAt t 0x20010 8 == 2 ^ 63 + 9) = true := by decide +kernel
theorem test_module_reset : (out .moduleReset (cs [(6, 1)]) fun t => t.cores == [] && t.regions == [] && t.mod.cycle == 0) = true := by decide +kernel
/-- An attestation asked for. -/
def asksReport (s : State) : State := md s fun m => { m with attreq := true, nonce := List.replicate 32 1 }

theorem witness_HostPort : base.mod.bootErr = false ∧ 0x20010 + 8 ≤ memTop ∧ (Work.of base).loc 0x20010 = 0x20010 ∧ (Work.of base).readOnly 0x20010 = false ∧
    base.mod.modNo < 2 ^ 11 ∧ (hostAsks base 1 0 0).mod.hqStopped = false ∧ (hostAsks base 1 0 0).mod.hqHead ≠ (hostAsks base 1 0 0).mod.hqTail ∧
    MemOk (hostAsks base 1 0 0) ∧ numAt (hostAsks base 1 320 0) 0x20002 2 = 320 ∧ (regionOf base 0).launchQ.length < 8 ∧ ReleasesNow base 0 ∧
    (asksReport base).mod.attreq = true ∧ (asksReport base).mod.nonce.length = 32 ∧ MemOk (asksReport base) ∧
    (asksReport base).mod.bootLog.toNat % 2 ^ 45 + 0x10000 + 200 ≤ memTop := by
  simp only [MemOk]; decide +kernel

/-- An image of nothing, and a region cell table at 0 for one grove and its first cell. -/
def image0 : Image := ⟨7, 1, 1, [], [], [], [], [], none, [], [], [], [], [], [], [], [], []⟩
def tabled : State :=
  wordAt (wordAt (wordAt (wordAt { State.reset with regions := [(0, { Region.reset with rctBase := State.reset.mod.modNo * 2 ^ 45 })] } 0 1) 0x40 (2 ^ 63)) 0x1040 (2 ^ 63))
    0x1048 6

/-- The table that lies there. -/
def table0 : CellTable := ⟨1, 0, 0, [(0, 0, 0, 0)], [(0, 0, 0, 6)]⟩

theorem tabled_mem : tabled.mem = [(0, 1), (0x47, 0x80), (0x1047, 0x80), (0x1048, 6)] := by decide +kernel

theorem tabled_byte (a : Nat) (h : 0x1049 ≤ a) : (Work.of tabled).byte ((Work.of tabled).loc a) = 0 := by
  have hl : (Work.of tabled).loc a = a := by
    have hc : (Work.of tabled).cells = [] := by decide +kernel
    unfold Work.loc
    rw [hc]
    split <;> rfl
  rw [hl]
  show tabled.mem.get a = 0
  rw [tabled_mem]
  simp only [Memory.get]
  repeat' split
  all_goals first | rfl | omega

theorem tabled_word (a : Nat) (h : 0x1049 ≤ a) : (Work.of tabled).tableWord a = 0 := by
  simp [Work.tableWord, Work.pload, Work.pbytes, List.range_succ, tabled_byte _ (Nat.le_trans h (Nat.le_add_right a _)), leNat]

theorem read_none {α : Type} (f : Nat → Option (Option α)) : ∀ l : List Nat, (∀ c ∈ l, f c = some none) → readEntries f l = some []
  | [], _ => rfl
  | n :: t, h => by
    simp [readEntries, h n (by simp), read_none f t fun c hc => h c (by simp [hc])]

theorem tabled_cells : readEntries ((Work.of tabled).cellEntry table0.groves 0) (List.range 4096) = some table0.cells := by
  have h0 : (Work.of tabled).cellEntry table0.groves 0 0 = some (some (0, 0, 6)) := by decide +kernel
  have hs : ∀ c ∈ (List.range 4095).map Nat.succ, (Work.of tabled).cellEntry table0.groves 0 c = some none := by
    intro c hc
    obtain ⟨k, -, rfl⟩ := List.mem_map.mp hc
    simp [Work.cellEntry, tabled_word (0 + 0x1040 + 16 * k.succ) (by omega)]
  rw [show List.range 4096 = 0 :: (List.range 4095).map Nat.succ from List.range_succ_eq_map, readEntries, h0, read_none _ _ hs]
  rfl

theorem tabled_table : (Work.of tabled).readTable 0 = some table0 := by
  have hm : (Work.of tabled).localMem ((Work.of tabled).region 0).rctBase 0x11040 = some 0 := by decide +kernel
  have hg : readEntries (fun g => ((Work.of tabled).groveEntry 0 g).map some) (List.range 1) = some table0.groves := by decide +kernel
  have hw : (Work.of tabled).tableWord 0 = 1 ∧ (Work.of tabled).tableWord (0 + 8) = 0 ∧ (Work.of tabled).tableWord (0 + 16) = 0 ∧
      (Work.of tabled).pload (0 + 24) 40 = 0 := by decide +kernel
  have hr : (repeated (table0.groves.vals.map fun e => e.1) ||
      (table0.groves.vals.map fun e => e.1).any fun g => ((Work.of tabled).grove g).region.any fun q => q != 0) = false ∧
      repeated (table0.cells.vals.map fun e => e.1) = false := by decide +kernel
  unfold Work.readTable
  simp only [hm, hw, show fld (1 : Word) 8 0 = 1 from rfl, show fld (0 : Word) 63 56 = 0 from rfl, show fld (0 : Word) 5 0 = 0 from rfl, hg, tabled_cells, hr]
  rfl

theorem test_graph_load_rejected : (out (.graphLoad 0 image0) State.reset fun t => !(regionOf t 0).loaded && t.outbox == [.loadReport 0 0x05]) = true := by decide +kernel
theorem test_throttle : (out (.throttleChange true false true 0x1000) base fun t => t.mod.clk == 0x52000) = true := by decide +kernel
theorem test_wear : (out (.wearUpdate 29 3 40) (md base fun m => { m with cycle := 2 ^ 32 }) fun t => (t.mod.eolDays, t.mod.wgrove, t.mod.wpct, t.mod.herr) == (29, 3, 40, 2)) = true := by
  decide +kernel
theorem test_program_time : (out (.programTimeAdvance 0) (cs []) fun t => (coreOf t 0).ptime == (coreOf (cs []) 0).ptime + 1) = true := by decide +kernel
theorem test_time_rebase : (out .timeRebase (md (core (cs []) fun c => { c with ptime := 2 ^ 48 - 5 }) fun m => { m with maxTime := 2 ^ 48 - 5 }) fun t =>
    (coreOf t 0).ptime == 2 ^ 47 - 5 && t.mod.maxTime == 2 ^ 47 - 5) = true := by decide +kernel
theorem witness_ModuleEvents : (Work.of State.reset).readTable 0 = none ∧ (Work.of tabled).readTable 0 = some table0 ∧
    (Image.plainOk image0 table0 && table0.gladesOk image0 && (Work.of tabled).tilesOk 0 image0 && (Work.of tabled).planOk 0 image0 &&
      ((Work.of tabled).imageCells ((Work.of tabled).imageRegion 0 image0 table0) image0 table0.cells).isSome) = true ∧
    Image.timesOk image0 = true ∧ Image.historiesOk image0 = true ∧ (coreOf (cs []) 0).task ≠ none :=
  ⟨by decide +kernel, tabled_table, by decide +kernel, by decide +kernel, by decide +kernel, by decide +kernel⟩

/-! ## More witnesses -/

theorem witness_TransferLimits : ¬ MayGo (reg0 (cs [(6, 0x200)]) fun x => { x with supBase := 0x200 }) 0 0x200 ∧
    (Super (handler (cs [])) 0 ↔ (regionAt (handler (cs [])) 0).supBase ≤ ((coreOf (handler (cs [])) 0).pc + 4).toNat) ∧
    (Work.of overrun).purging 0 = false ∧ (coreOf overrun 0).halting = false ∧ (coreOf (cs []) 0).stall = none ∧
    (coreOf (cs []) 0).portWait = none := by decide +kernel
theorem test_jr_privilege : raises (reg0 (cs [(6, 0x200)]) fun x => { x with supBase := 0x200 }) (.jr 5 6 0) 0x02 0 = true ∧
    raises (reg0 (cs []) fun x => { x with supBase := 0x200 }) (.jal 5 0x40) 0x02 0 = true := by decide +kernel

theorem no_designator (s : State) (g : Nat) (a : Word) (h : (Work.of s).designator g a = none) :
    ∀ m, (Work.of s).designator g a ≠ some (m, 0) := by simp [h]
theorem witness_HaltDesignator : ∀ m, (Work.of (sup (cs [(6, 2 ^ 60)]))).designator 0 (reg (sup (cs [(6, 2 ^ 60)])) 0 6) ≠ some (m, 0) :=
  no_designator _ _ _ (by decide +kernel)
theorem test_halt_waits : did (sup (core ((cs [(6, 0x110)])) id |> fun s => withCore s 1 { coreOf s 1 with stall := some 0 })) (.halt 6) 0 0 (fun t =>
    !(coreOf t 1).halted && (coreOf t 1).halting) = true ∧ raises (sup (cs [(6, 2 ^ 60)])) (.halt 6) 0x09 0 = true := by decide +kernel

theorem witness_SinkPosts : Tbl.find (cellOf (sink ⟨some 1, 1, 0, [], 5, false⟩ [0, 1] []) 0).douts 0 = some ⟨some 1, 1, 0, [], 5, false⟩ ∧
    (regionAt (sink ⟨some 1, 1, 0, [], 5, false⟩ [0, 1] []) 0).runs = true := by decide +kernel
theorem witness_ProbeDeliveries : (copyAt (cellOf (copied (node (nrec 0x3A 0 1 0) [])) 0).fcopies 0).elems ≠ [3] ∧
    nOpc ((cellOf (copied (node (nrec 0x3A 0 1 0) [])) 0).node 0) = 0x3A ∧ osb0 ((cellOf (copied (node (nrec 0x3A 0 1 0) [])) 0).node 0) = true := by
  decide +kernel
theorem test_delivery_reports : (out (.frontierDelivery 0 0 true 0) (copied (node (nrec 0x3A 0 1 0) [])) fun t =>
    (cellOf t 0).unreported 0 == [⟨[3], 5⟩]) = true := by decide +kernel

/-- An owner on the memory route, whose range is of virtual addresses. -/
def ownerThere (ws : List Word) : State :=
  let s := mapped (node (nrec 0x23 1 1 0 ||| BitVec.ofNat 96 (0xFFF000 * 2 ^ 64 + 0xFFF000 * 2 ^ 40)) [{ tk 0 ws with kind := 5 }])
  { s with cells := Tbl.put s.cells 0 { cellOf s 0 with owners := [(0, (0x10000, 0x10100))] } }

theorem witness_OwnerThere : NodeReaches (ownerThere [0x10008, 5, 0x200008]) 0 needW 0x10008 0x20008 8 ∧
    Sound (ownerThere [0x10008, 5, 0x200008]) 0x20008 8 ∧ firesB (ownerThere [0x10008, 5, 0x200008]) 0x23 = true :=
  ⟨⟨by decide +kernel, ⟨page, by decide +kernel⟩, by decide +kernel⟩, by simp only [Sound]; decide +kernel, by decide +kernel⟩
theorem test_nown_memory : (out .nown (wordAt (ownerThere [0x10008, 5, 0x200008]) 0x20008 37) fun t => numAt t 0x20008 8 == 42 &&
    (cellOf t 0).outq == [o2 [37]]) = true ∧ freezes (owner [0x17C, 5, 0x200008]) .nown 0x03 = true := by decide +kernel

theorem witness_UnmapPages : ([0x24000, 0x20000] : List Nat).Pairwise (fun a e => a + 4096 ≤ e ∨ e + 4096 ≤ a) ∧
    ∀ a ∈ [0x24000, 0x20000], a + 4096 ≤ memTop := by decide +kernel

/-- A core's page that lies in the windows. -/
def windowed (s : State) : State := gr s fun k => { k with tlb := [{ page with pa := memTop }] }

theorem test_block_window : raises (windowed (remote (cs [(5, 0x10020), (6, 0x40), (7, 9)]))) (.rldB32 5 6 7) 0x09 0x10020 = true ∧
    raises (windowed (remote (cs [(5, 0x10020), (6, 0x40), (7, 9)]))) (.rstB32 5 6 7) 0x09 0x10020 = true := by decide +kernel
theorem test_rst_block_lost : did (mapped (cs [(5, 0x10000), (6, 0x40), (7, 9)])) (.rstB32 5 6 7) 0 0 (fun t => t.outbox == [] &&
    (coreOf t 0).lost == [9]) = true := by decide +kernel

/-- A core's stream to module 9 that a fault froze. -/
def frozenStream (s : State) : State := md (remote s) fun m => { m with streams := [⟨false, 0, 9, 8, 1, [], some 0, true, []⟩] }

theorem test_rst_waits : did (frozenStream (cs [(5, 0xAB), (6, 0x40), (7, 9)])) (.rst 5 6 7) 0 0 (fun t => t.outbox == [] &&
    t.mod.streams.map (fun st => st.queued.map fun q => q.addr) == [[0x40]]) = true := by decide +kernel
theorem witness_RemoteBlocks : (∃ x, bufferedAt (windowed (remote (cs [(5, 0x10020)]))) 0 0x10020 = some x ∧ x.refuses needW true = false ∧
      memTop < (x.pa + (0x10020 - x.base)) % 2 ^ 45 + 32) ∧
    Reaches (mapped (remote (cs [(5, 0x10020)]))) 0 needW 0x10020 0x20020 32 ∧
    (match (Work.of (mapped (remote (cs [(5, 0x10020)])))).blockCheck 0 0x10020 32 false with
      | .ok _ => true
      | _ => false) = true ∧ pairFree (frozenStream (cs [])) false 9 = true :=
  ⟨⟨{ page with pa := memTop }, by decide +kernel⟩, ⟨by decide +kernel, ⟨page, by decide +kernel⟩, by decide +kernel⟩, by decide +kernel⟩

theorem test_packet_halted : (out (.gladePacketArrival packet0) (reg0 (gladed base ⟨true, false, false, 8⟩ [slot0 1 0]) fun x => { x with halted := true })
    fun t => t.inputs == [.gladePacketArrival packet0] && (slotOf t 0 3 0).st == 1) = true := by decide +kernel
theorem test_packet_late : (out (.gladePacketArrival { packet0 with position := 8, total := 16 }) (gladed (remote base) ⟨true, false, false, 8⟩ [slot0 1 0])
    fun t => t.outbox == [.response 9 ⟨State.reset.mod.modNo, 21, .faulted 0x19⟩] && (slotOf t 0 3 0).st == 1) = true := by decide +kernel

/-- Region 0 stopped before the firing of node 0 of cell 0. -/
def stoppedAt (s : State) : State :=
  reg0 (stopped s) fun x => { x with stopCore := none, stopFire := some ⟨0, 0, 4, 0, 0⟩ }

theorem witness_StepsAtTwigs : (regionOf (stoppedAt base) 0).stopFire = some ⟨0, 0, 4, 0, 0⟩ ∧
    (cellOf (stoppedAt (node (nrec 0x0F 1 0 0) [tk 0 [5]])) 0).debug = none ∧
    ((cellOf (stoppedAt (node (nrec 0x0F 1 0 0) [tk 0 [5]])) 0).inst ⟨0, 0, 4, 0, 0⟩).map (fun y => (y.ids, (oneWordTwig 0).isDone)) = some ([0], false) ∧
    (∀ k, (regionOf (stoppedAt base) 0).dbpHit k = none) := by
  have h : (regionOf (stoppedAt base) 0).dbp = [] := by decide +kernel
  exact ⟨by decide +kernel, by decide +kernel, by decide +kernel, fun k => by simp [Region.dbpHit, h]⟩

theorem witness_ThawFails : (match (Work.of (waved fun x => { x with thawing := some (0, 2, 1) })).vread
      (waveAcc 0 ((Work.of (waved fun x => { x with thawing := some (0, 2, 1) })).rno 0)
        ((Work.of (waved fun x => { x with thawing := some (0, 2, 1) })).waveOp 0 2 1))
      (waveVa ((Work.of (waved fun x => { x with thawing := some (0, 2, 1) })).waveOp 0 2 1)) 256 with
    | .error e => e.1 == 0x08
    | _ => false) = true := by decide +kernel

/-- The same wave with an image's address at which no header lies. -/
def headless : State :=
  eng (mapped (base.via fun w => w.updRegion 1 fun x => { x with thawing := some (0, 2, 1) })) 2
    { Engine.reset with issued := 1, queue := [{ EngOp.new 1 0xFB (0x10000 * 2 ^ 64) 0 true 0 with running := true, firing := true }] }

theorem test_thaw_no_image : (out (.thawComplete 1) headless fun t => (regionOf t 1).thawing == none &&
    ((engineOf t 0 2).queue.map fun o => o.err) == [some 0x09]) = true ∧ headless.images = [] := by decide +kernel

theorem test_bar_split : (out (.hostWindowAccess 1 false (2 ^ 36 + 0x20010) 8 0) (wordAt (md base fun m => { m with hwBase := setAt m.hwBase 1 0 }) 0x20010 99) fun t =>
    t.outbox == [.hostData 2 99]) = true := by decide +kernel
theorem test_wear_once : (out (.wearUpdate 29 3 40) (md base fun m => { m with cycle := 2 ^ 32 + 5, wearAt := 1 }) fun t => t.mod.eolDays == base.mod.eolDays) =
    true := by decide +kernel
theorem witness_LoadsRefused : Image.plainOk { image0 with held := 0 } table0 = false := by decide +kernel

/-! ## Steps -/

theorem witness_RoundTrip : (encode (.addi 31 31 0xFFFF)).isSome = true ∧ (encode (.sfeed 31 31 31 7)).isSome = true ∧ decode 0xFFFFFFFF ≠ .ok .nop := by
  decide +kernel
theorem witness_StepRunsDecoded : (State.reset.withFetchWord 32 0x40A00010).moves = [.run (.core 0)] ∧
    numAt (State.reset.withFetchWord 32 0x40A00010) (codeBase 0 + (coreOf (State.reset.withFetchWord 32 0x40A00010) 0).pc.toNat) 4 = 0x40A00010 ∧
    decode 0xFC000000 = .error .major ∧ (State.reset.withFetchWord 32 0x100840A0).moves = [.run (.twig 0 0)] ∧
    (State.reset.withFetchWord 32 0xC0000040).moves = [.run (.mx 0 0)] ∧ State.reset.moves = [] := by decide +kernel
theorem witness_StepKeepsMemory : MemOk State.reset ∧ MemOk (wordAt base 0x20010 99) := by simp only [MemOk]; decide +kernel

end Sys2Proof.Tests
end

section
/-! Every step goes on and keeps the canonical form of memory. -/

namespace Sys2Proof.Proofs

open Sys2Proof.Machine Sys2Proof.Safety Sys2Proof.Laws

/-- Every meaning but that of a module reset is a change of the work of a step, whose bytes `State.finish` then writes. -/
theorem exec_eq_run (s : State) {i : Instr} (h : i ≠ .moduleReset) : ∃ f, exec i s = run s f := by
  cases i with
  | moduleReset => exact absurd rfl h
  | _ => exact ⟨_, rfl⟩

/-- A module reset starts from the bytes that it keeps, and writes the measured-boot log over them (R426). -/
theorem exec_moduleReset_mem (s : State) : ∃ t l, exec .moduleReset s = .next t ∧ t.mem = Memory.write (s.mem.filter kept) l :=
  ⟨_, _, rfl, rfl⟩

/-- Every instruction answers a next state. -/
theorem exec_next (i : Instr) (s : State) : ∃ t, exec i s = .next t := by
  by_cases h : i = .moduleReset
  · subst h
    obtain ⟨t, _, e, -⟩ := exec_moduleReset_mem s
    exact ⟨t, e⟩
  · obtain ⟨f, e⟩ := exec_eq_run s h
    exact ⟨s.via f, e⟩

/-- Every instruction keeps memory in its canonical form. -/
theorem exec_memOk {i : Instr} {s t : State} (h : MemOk s) (e : exec i s = .next t) : MemOk t := by
  by_cases r : i = .moduleReset
  · subst r
    obtain ⟨u, l, e', m⟩ := exec_moduleReset_mem s
    obtain rfl : u = t := Host.Outcome.next.inj (e'.symm.trans e)
    rw [MemOk, m]
    exact wf_write l (wf_filter kept h)
  · obtain ⟨f, e'⟩ := exec_eq_run s r
    obtain rfl : s.via f = t := Host.Outcome.next.inj (e'.symm.trans e)
    exact wf_via f h

/-- A step either chooses the next moves or performs an instruction on the state with the same memory. -/
theorem step_cases (s : State) : step s = .next (schedule s) ∨ ∃ i u, step s = exec i u ∧ u.mem = s.mem := by
  rcases h : s.moves with _ | ⟨a | f | i, ms⟩
  · exact .inl (by simp only [step, h])
  · exact .inr ⟨fetch s a, s.take ms a, by simp only [step, h], rfl⟩
  · exact .inr ⟨fireStep s f, s.takeFire ms f, by simp only [step, h], rfl⟩
  · exact .inr ⟨i, s.take ms s.turn, by simp only [step, h], rfl⟩

theorem step_goes (s : State) : Goes s := by
  rcases step_cases s with e | ⟨i, u, e, -⟩
  · exact ⟨_, e⟩
  · obtain ⟨t, k⟩ := exec_next i u
    exact ⟨t, e.trans k⟩

theorem step_keeps_memOk : Kept MemOk := by
  intro s t h e
  rcases step_cases s with k | ⟨i, u, k, m⟩
  · obtain rfl : schedule s = t := Host.Outcome.next.inj (k.symm.trans e)
    exact wf_via _ h
  · exact exec_memOk (s := u) (by rwa [MemOk, m]) (k.symm.trans e)

/-- Settles O59: every instruction answers a next state, whose memory is the one before with bytes written. -/
theorem stepKeepsMemory : Obligations.StepKeepsMemory := ⟨step_goes, step_keeps_memOk⟩

end Sys2Proof.Proofs
end

section
/-! Numbers as little-endian bytes, and the bytes that a step's writes leave in memory. -/

namespace Sys2Proof.Proofs

open Sys2Proof.Machine Sys2Proof.Safety Sys2Proof.Laws

/-! ## Numbers as bytes (R3) -/

@[simp] theorem leBytes_length (n v : Nat) : (leBytes n v).length = n := by
  induction n generalizing v with
  | zero => rfl
  | succ n ih => simp [leBytes, ih]

theorem leBytes_getD (n v i : Nat) (h : i < n) : (leBytes n v).getD i 0 = BitVec.ofNat 8 (v / 256 ^ i) := by
  induction n generalizing v i with
  | zero => omega
  | succ n ih =>
    cases i with
    | zero => simp [leBytes]
    | succ i =>
      rw [leBytes, List.getD_cons_succ, ih _ _ (by omega), Nat.div_div_eq_div_mul, pow_succ']

theorem leNat_leBytes (n v : Nat) : leNat (leBytes n v) = v % 256 ^ n := by
  induction n generalizing v with
  | zero => simp [leBytes, leNat, Nat.mod_one]
  | succ n ih => rw [leBytes, leNat, ih, pow_succ', Nat.mod_mul, BitVec.toNat_ofNat]

/-- A word is the number that its eight bytes hold. -/
@[simp] theorem word_of_leBytes (v : Word) : BitVec.ofNat 64 (leNat (leBytes 8 v.toNat)) = v := by
  rw [leNat_leBytes, Nat.mod_eq_of_lt (show v.toNat < 256 ^ 8 from v.isLt), BitVec.ofNat_toNat, BitVec.setWidth_eq]

theorem leNat_lt (bs : List Byte) : leNat bs < 256 ^ bs.length := by
  induction bs with
  | nil => simp [leNat]
  | cons b t ih =>
    have := b.isLt
    rw [leNat, List.length_cons, pow_succ']
    omega

/-- The number in `n` bytes is below the numbers that need more. -/
theorem numAt_lt (s : State) (a n : Nat) : numAt s a n < 256 ^ n := by
  simpa [numAt] using leNat_lt ((List.range n).map fun i => byteAt s (a + i))

/-! ## Bytes written in one run -/

/-- The bytes that a step leaves where all that it wrote is one run of bytes. -/
theorem finish_run {s : State} {w : Work} {a : Nat} {bs : List Byte} (m : MemOk s) (l : w.log = logBytes [] a bs) :
    (∀ i < bs.length, byteAt (s.finish w) (a + i) = bs.getD i 0) ∧
      ∀ b, b < a ∨ a + bs.length ≤ b → byteAt (s.finish w) b = byteAt s b := by
  have e : ∀ b, byteAt (s.finish w) b = ((Work.of s).store a bs).byte b := fun b => by
    rw [byteAt, finish_mem, get_write m, l]
    rfl
  refine ⟨fun i hi => ?_, fun b hb => ?_⟩
  · rw [e, store_byte_same _ _ _ _ hi, List.getD_eq_getElem _ _ hi]
  · rw [e, store_byte_other _ _ _ _ hb]
    rfl

/-- A step whose writes are the bytes of one number stores it. -/
theorem stored_of_log {s : State} {w : Work} {a n v : Nat} (m : MemOk s) (l : w.log = logBytes [] a (leBytes n v)) :
    Stored s (s.finish w) a n v := by
  obtain ⟨i, o⟩ := finish_run m l
  simp only [leBytes_length] at i o
  exact ⟨fun k hk => (i k hk).trans (leBytes_getD n v k hk), o⟩

end Sys2Proof.Proofs
end

section
/-! Accesses of agents that are no task core: the times that they move, and what they read and write in module memory. -/

namespace Sys2Proof.Proofs

open Sys2Proof.Machine Sys2Proof.Safety Sys2Proof.Laws

/-! ## Times (R192) -/

/-- Nothing but logical times of the module differs. -/
def TimesOnly (w v : Work) : Prop :=
  ∃ lt ht mt pt, v = w.updMod fun m => { m with lineTimes := lt, homeTimes := ht, maxTime := mt, ptimes := pt }

theorem TimesOnly.trans {a b c : Work} (h : TimesOnly a b) (k : TimesOnly b c) : TimesOnly a c := by
  obtain ⟨_, _, _, _, rfl⟩ := h
  obtain ⟨lt, ht, mt, pt, rfl⟩ := k
  exact ⟨lt, ht, mt, pt, rfl⟩

/-- The agent's program time is one of the module's, not a task core's. -/
def Apart (who : Who) : Prop := ∀ g, who ≠ .core g

theorem apart_window (k : Nat) : Apart (.window k) := fun _ => Who.noConfusion
theorem apart_after (p : Nat) : Apart (.after p) := fun _ => Who.noConfusion

theorem setPtime_apart (w : Work) {who : Who} (h : Apart who) (p : Nat) :
    ∃ mt pt, w.setPtime who p = w.updMod fun m => { m with maxTime := mt, ptimes := pt } := by
  cases who with
  | core g => exact absurd rfl (h g)
  | _ => exact ⟨_, _, rfl⟩

/-- An access to a bank or window moves no time of a line. -/
theorem homeAccess_apart (w : Work) {who : Who} (h : Apart who) (a : Nat) :
    ∃ ht mt pt, w.homeAccess who a = w.updMod fun m => { m with homeTimes := ht, maxTime := mt, ptimes := pt } := by
  obtain ⟨mt, pt, e⟩ := setPtime_apart w h (max (w.ptime who) (Tbl.getD w.mod.homeTimes (a / 65536) 0))
  unfold Work.homeAccess
  dsimp only
  rw [e]
  exact ⟨_, mt, pt, rfl⟩

theorem timesOnly_homeAccess (w : Work) {who : Who} (h : Apart who) (a : Nat) : TimesOnly w (w.homeAccess who a) := by
  obtain ⟨ht, mt, pt, e⟩ := homeAccess_apart w h a
  exact ⟨w.mod.lineTimes, ht, mt, pt, e⟩

theorem timesOnly_line (w : Work) {who : Who} (h : Apart who) (p a : Nat) (t : Nat × Nat) :
    TimesOnly w ((w.setPtime who p).setLine a t) := by
  obtain ⟨mt, pt, e⟩ := setPtime_apart w h p
  exact ⟨_, w.mod.homeTimes, mt, pt, by rw [e]; rfl⟩

theorem timesOnly_readTime (w : Work) {who : Who} (h : Apart who) (a : Nat) : TimesOnly w (w.readTime who a) := by
  unfold Work.readTime
  split
  · exact timesOnly_line w h _ _ _
  · exact timesOnly_homeAccess w h a

theorem timesOnly_writeTime (w : Work) {who : Who} (h : Apart who) (a : Nat) : TimesOnly w (w.writeTime who a) := by
  unfold Work.writeTime
  split
  · exact timesOnly_line w h _ _ _
  · exact timesOnly_homeAccess w h a

/-! ## Bytes of module memory that no mapped range holds -/

/-- The bytes of a range of module memory lie in place, and stores to them are not refused. -/
def InPlace (w : Work) (a n : Nat) : Prop := ∀ i < n, w.loc (a + i) = a + i ∧ w.readOnly (a + i) = false

theorem readOnly_of_cells {w v : Work} (h : v.cells = w.cells) (a : Nat) : v.readOnly a = w.readOnly a := by
  unfold Work.readOnly
  rw [h]

theorem inPlace_of_cells {w v : Work} (h : v.cells = w.cells) {a n : Nat} (p : InPlace w a n) : InPlace v a n :=
  fun i hi => by rw [loc_of_cells h, readOnly_of_cells h]; exact p i hi

theorem inPlace_part {w : Work} {a n : Nat} (p : InPlace w a n) (k m : Nat) (h : k + m ≤ n) : InPlace w (a + k) m :=
  fun i hi => by rw [Nat.add_assoc]; exact p (k + i) (by omega)

/-- The bytes that a range in place holds, before a step has written any. -/
theorem pbytes_inPlace {s : State} {a n : Nat} (h : ∀ i < n, (Work.of s).loc (a + i) = a + i) :
    (Work.of s).pbytes a n = (List.range n).map fun i => byteAt s (a + i) :=
  pbytes_direct _ _ _ h

theorem pload_inPlace {s : State} {a n : Nat} (p : InPlace (Work.of s) a n) : (Work.of s).pload a n = numAt s a n := by
  rw [Work.pload, pbytes_inPlace fun i hi => (p i hi).1]
  rfl

theorem pspoilt_inPlace {s : State} {a n : Nat} (p : InPlace (Work.of s) a n) (h : Sound s a n) :
    (Work.of s).pspoilt a n = false := by
  rw [← Bool.not_eq_true, pspoilt_sound (fun i hi => (p i hi).1) rfl rfl]
  exact not_not.2 h

/-! ## Accesses by physical address -/

/-- The module and the local address that a physical address of this module names (R168). -/
theorem physical_split (m : Nat) {la : Nat} (h : la < 2 ^ 45) : (m * 2 ^ 45 + la) / 2 ^ 45 = m ∧ (m * 2 ^ 45 + la) % 2 ^ 45 = la := by
  omega

theorem lt_of_memTop {la n : Nat} (h : la + n ≤ memTop) : la < 2 ^ 45 := by
  rw [memTop] at h
  omega

/-- A read of sound module memory by an agent that is no task core (R192). -/
theorem pread_memory {w : Work} {a : Acc} {la n : Nat} (fit : la + n ≤ memTop) (c : a.core = false) (h : w.pspoilt la n = false) :
    w.pread a (w.mod.modNo * 2 ^ 45 + la) n = .ok (w.pbytes la n, w.readTime a.who (w.loc la)) := by
  obtain ⟨e1, e2⟩ := physical_split w.mod.modNo (lt_of_memTop fit)
  simp only [Work.pread, e1, e2, fit, c, h, ne_eq, not_true, if_true, if_false, Bool.and_false, Bool.false_eq_true]

/-- A write of module memory in place by an agent that is no task core (R192). -/
theorem pwrite_memory {w : Work} {a : Acc} {la : Nat} {bs : List Byte} (fit : la + bs.length ≤ memTop) (c : a.core = false)
    (n : 0 < bs.length) (p : InPlace w la bs.length) :
    w.pwrite a (w.mod.modNo * 2 ^ 45 + la) bs = .ok ((w.store la bs).writeTime a.who la) := by
  obtain ⟨e1, e2⟩ := physical_split w.mod.modNo (lt_of_memTop fit)
  obtain ⟨l, r⟩ : w.loc la = la ∧ w.readOnly la = false := by simpa using p 0 n
  simp only [Work.pwrite, e1, e2, fit, c, l, r, pstore_direct bs la w fun i hi => (p i hi).1, ne_eq, not_true, if_true, if_false,
    Bool.false_eq_true]

/-- A write of a register's word that its place takes from the agent (R170). -/
theorem pwrite_word {w v : Work} {a : Acc} {la : Nat} {bs : List Byte} {p : Place} {x : Word} (l : la < 2 ^ 45)
    (out : ¬ la + bs.length ≤ memTop)
    (e : placeOf la = p) (b : p.bytes = false) (t : p.takes a la bs.length = true)
    (may : w.mayAccess a p true (BitVec.ofNat 64 (leNat bs)) = true) (wave : w.waveRefuses a p = false) (z : w.placeWord p = some x)
    (r : w.placeWrite a p (BitVec.ofNat 64 (leNat bs)) = some v) :
    w.pwrite a (w.mod.modNo * 2 ^ 45 + la) bs = .ok (v.homeAccess a.who la) := by
  obtain ⟨e1, e2⟩ := physical_split w.mod.modNo l
  have k : (!p.takes a la bs.length || !w.mayAccess a p true (BitVec.ofNat 64 (leNat bs)) || w.waveRefuses a p) = false := by
    rw [t, may, wave]
    rfl
  unfold Work.pwrite
  dsimp only
  rw [e1, e2, e, if_neg (not_not.2 rfl), if_neg out, k, if_neg Bool.false_ne_true, b, if_neg Bool.false_ne_true, z]
  simp only [r]

/-- A read of a size that the place of its address does not take (R170). -/
theorem pread_size {w : Work} {a : Acc} {la n : Nat} {p : Place} (l : la < 2 ^ 45) (out : ¬ la + n ≤ memTop) (e : placeOf la = p)
    (t : p.takes a la n = false) : w.pread a (w.mod.modNo * 2 ^ 45 + la) n = .error 0x09 := by
  obtain ⟨e1, e2⟩ := physical_split w.mod.modNo l
  simp only [Work.pread, e1, e2, e, out, t, ne_eq, not_true, if_false, Bool.not_false, Bool.true_or, if_true]

end Sys2Proof.Proofs
end

section
/-! The host's windows and the registers that it writes through them (R422 to R424). -/

namespace Sys2Proof.Proofs

open Sys2Proof.Machine Sys2Proof.Safety Sys2Proof.Laws

variable {s : State} {k off n la : Nat} {v : Word}

/-! ## An access through a window -/

@[simp] theorem accHost_who (k : Nat) : (accHost k).who = .window k := rfl

@[simp] theorem accHost_core (k : Nat) : (accHost k).core = false := by simp [Acc.core, accHost]

theorem hostBar_self (h : k ≠ 1 ∨ off < 2 ^ 36) : hostBar k off = (k, off) := by
  unfold hostBar
  split <;> [omega; rfl]

/-- Offsets of window 1 from 64 GiB on are window 2's (R422). -/
theorem hostBar_second (h : 2 ^ 36 ≤ off) : hostBar 1 off = hostBar 2 (off - 2 ^ 36) := by
  rw [hostBar_self (k := 2) (.inl (by decide)), hostBar, if_pos ⟨rfl, h⟩]

/-- A window that moves maps its offsets from HWBASE on (R423). -/
theorem windowAt_moved (m : Mod) (h : 1 ≤ k) (h3 : k ≤ 3) (l : off < 2 ^ 36) :
    m.windowAt k off = some (Tbl.getD m.hwBase k 0 * 2 ^ 36 + off) := by
  rw [Mod.windowAt, if_neg (by omega), if_pos ⟨h3, l⟩]

/-- The module control window is window 0 (R422). -/
theorem windowAt_control (m : Mod) (l : off < 0x10000) : m.windowAt 0 off = some (controlBase + off) := by
  rw [Mod.windowAt, if_pos rfl, if_pos l]

theorem windowAt_past (m : Mod) (l : 0x10000 ≤ off) : m.windowAt 0 off = none := by
  rw [Mod.windowAt, if_pos rfl, if_neg (by omega)]

/-- The access is made: one to eight bytes, and the boot has not failed. -/
structure Made (s : State) (n : Nat) : Prop where
  pos : 1 ≤ n
  le : n ≤ 8
  boot : s.mod.bootErr = false

theorem Made.guard (h : Made s n) (j : Nat) : ¬ (n = 0 ∨ 8 < n ∨ (s.mod.bootErr = true ∧ j ≠ 0)) := by
  obtain ⟨p, l, b⟩ := h
  rw [b]
  simp
  omega

theorem hostRead_ok {bs : List Byte} {w : Work} (m : Made s n) (b : hostBar k off = (k, off)) (a : s.mod.windowAt k off = some la)
    (e : (Work.of s).pread (accHost k) (s.mod.modNo * 2 ^ 45 + la) n = .ok (bs, w)) :
    exec (.hostWindowAccess k false off n v) s = .next (s.finish (w.answerHost k (BitVec.ofNat 64 (leNat bs)))) := by
  change execHostWindowAccess k false off n v s = _
  simp only [execHostWindowAccess, run, State.via, b, m.guard k, of_mod, a, e, Bool.false_eq_true, if_false]

theorem hostRead_refused {c : Nat} (m : Made s n) (b : hostBar k off = (k, off)) (a : s.mod.windowAt k off = some la)
    (e : (Work.of s).pread (accHost k) (s.mod.modNo * 2 ^ 45 + la) n = .error c) :
    exec (.hostWindowAccess k false off n v) s =
      .next (s.finish (((Work.of s).setHerr 1).answerHost k (BitVec.ofNat 64 (2 ^ (8 * n) - 1)))) := by
  change execHostWindowAccess k false off n v s = _
  simp only [execHostWindowAccess, run, State.via, b, m.guard k, of_mod, a, e, Bool.false_eq_true, if_false]

theorem hostWrite_ok {w : Work} (m : Made s n) (b : hostBar k off = (k, off)) (a : s.mod.windowAt k off = some la)
    (e : (Work.of s).pwrite (accHost k) (s.mod.modNo * 2 ^ 45 + la) (leBytes n v.toNat) = .ok w) :
    exec (.hostWindowAccess k true off n v) s = .next (s.finish w) := by
  change execHostWindowAccess k true off n v s = _
  simp only [execHostWindowAccess, run, State.via, b, m.guard k, of_mod, a, e, if_true, if_false]

/-- An access is the same through two windows where it is one of the same window's (R422). -/
theorem hostAccess_of_bar {j k off off' : Nat} (b : hostBar j off = hostBar k off') (wr : Bool) :
    exec (.hostWindowAccess j wr off n v) s = exec (.hostWindowAccess k wr off' n v) s := by
  change execHostWindowAccess j wr off n v s = execHostWindowAccess k wr off' n v s
  simp only [execHostWindowAccess, b]

/-- An access past the end of window 0 does nothing (log entry 40). -/
theorem hostAccess_past (m : Made s n) (l : 0x10000 ≤ off) (wr : Bool) :
    exec (.hostWindowAccess 0 wr off n v) s = .next s := by
  change execHostWindowAccess 0 wr off n v s = _
  simp only [execHostWindowAccess, run, State.via, hostBar_self (k := 0) (.inl (by decide)), m.guard 0, of_mod,
    windowAt_past _ l, finish_of, if_false]

/-- What a host read leaves: the answer on its way out, and nothing else changed that the claims speak of. -/
theorem hostRead_memory (m : Made s n) (b : hostBar k off = (k, off)) (a : s.mod.windowAt k off = some la) (fit : la + n ≤ memTop)
    (p : InPlace (Work.of s) la n) (o : Sound s la n) :
    ∃ t, exec (.hostWindowAccess k false off n v) s = .next t ∧
      t.outbox = s.outbox ++ [.hostData k (BitVec.ofNat 64 (numAt s la n))] ∧ t.cores = s.cores ∧ t.cells = s.cells ∧
      t.regions = s.regions ∧ t.mem = s.mem := by
  have e := hostRead_ok (v := v) m b a (pread_memory fit (accHost_core k) (pspoilt_inPlace p o))
  obtain ⟨_, _, _, _, r⟩ := timesOnly_readTime (Work.of s) (apart_window k) ((Work.of s).loc la)
  rw [accHost_who, r] at e
  rw [← pload_inPlace p]
  exact ⟨_, e, rfl, rfl, rfl, rfl, rfl⟩

/-- What a host write leaves: its bytes stored, and nothing else changed that the claims speak of. -/
theorem hostWrite_memory (m : Made s n) (b : hostBar k off = (k, off)) (a : s.mod.windowAt k off = some la) (fit : la + n ≤ memTop)
    (p : InPlace (Work.of s) la n) (o : MemOk s) :
    ∃ t, exec (.hostWindowAccess k true off n v) s = .next t ∧ Stored s t la n v.toNat ∧ t.cores = s.cores ∧
      t.cells = s.cells ∧ t.regions = s.regions ∧ t.outbox = s.outbox := by
  have len := leBytes_length n v.toNat
  have e := hostWrite_ok m b a (pwrite_memory (bs := leBytes n v.toNat) (by rwa [len]) (accHost_core k) (by rw [len]; exact m.pos)
    (by rwa [len]))
  obtain ⟨_, _, _, _, r⟩ := timesOnly_writeTime ((Work.of s).store la (leBytes n v.toNat)) (apart_window k) la
  rw [accHost_who, r] at e
  exact ⟨_, e, stored_of_log o rfl, rfl, rfl, rfl, rfl⟩

/-! ## Registers of the module control window -/

theorem control_not_memory (off n : Nat) : ¬ controlBase + off + n ≤ memTop := by
  rw [controlBase, memTop]
  omega

theorem control_lt (h : off < 0x10000) : controlBase + off < 2 ^ 45 := by
  rw [controlBase]
  omega

theorem placeOf_control (h : off < 0x10000) : placeOf (controlBase + off) = .module off := by
  rw [placeOf, groveBase, controlBase, if_neg (by omega), if_neg (by omega), if_pos (by omega), Nat.add_sub_cancel_left]

/-- Words of the module control window take accesses of eight bytes at their addresses (R170). -/
theorem module_takes (a : Acc) (la n : Nat) : Place.takes (.module off) a la n = (n == 8 && la % 8 == 0) := rfl

/-- A read of the module control window that is not of eight bytes is refused (R170). -/
theorem pread_control_short (w : Work) (h : off < 0x10000) (n8 : n ≠ 8) :
    w.pread (accHost k) (w.mod.modNo * 2 ^ 45 + (controlBase + off)) n = .error 0x09 :=
  pread_size (control_lt h) (control_not_memory off n) (placeOf_control h) (by simp [module_takes, n8])

/-- A refused read of window 0 answers all ones and sets HERR bit 0 (R423; log entry 40). -/
theorem hostRead_control_short (m : Made s n) (h : off < 0x10000) (n8 : n ≠ 8) :
    ∃ t, exec (.hostWindowAccess 0 false off n v) s = .next t ∧
      t.outbox = s.outbox ++ [.hostData 0 (BitVec.ofNat 64 (2 ^ (8 * n) - 1))] ∧ t.cores = s.cores ∧ t.cells = s.cells ∧
      t.regions = s.regions ∧ t.mem = s.mem ∧ t.mod = { s.mod with herr := s.mod.herr ||| 1 } :=
  ⟨_, hostRead_refused m (hostBar_self (.inl (by decide))) (windowAt_control _ h) (pread_control_short (Work.of s) h n8),
    rfl, rfl, rfl, rfl, rfl, rfl⟩

/-- The host writes the words of the module control window that a read shows (R7, R170). -/
theorem pwrite_control {w : Work} {x : Word} (h : off < 0x10000) (h8 : off % 8 = 0) (e : w.modReg off = some x) :
    w.pwrite (accHost k) (w.mod.modNo * 2 ^ 45 + (controlBase + off)) (leBytes 8 v.toNat) =
      .ok ((w.modWrite off v).homeAccess (.window k) (controlBase + off)) := by
  have t : (controlBase + off) % 8 = 0 := by
    rw [controlBase]
    omega
  refine pwrite_word (p := .module off) (control_lt h) (control_not_memory off _) (placeOf_control h) rfl ?_ rfl rfl e ?_
  · simp [module_takes, t]
  · rw [word_of_leBytes]
    rfl

/-- A register's word written at its address: the module's registers as the write leaves them, but for times. -/
theorem registerWrite_control {x : Word} {f : Mod → Mod} (h : off < 0x10000) (h8 : off % 8 = 0) (e : (Work.of s).modReg off = some x)
    (f_eq : (Work.of s).modWrite off v = (Work.of s).updMod f) :
    ∃ t, exec (.registerWrite (controlBase + off) v) s = .next t ∧ t.mem = s.mem ∧ t.cores = s.cores ∧ t.regions = s.regions ∧
      ∃ ht mt pt, t.mod = { f s.mod with homeTimes := ht, maxTime := mt, ptimes := pt } := by
  obtain ⟨ht, mt, pt, r⟩ := homeAccess_apart ((Work.of s).modWrite off v) (apart_window 0) (controlBase + off)
  have k : exec (.registerWrite (controlBase + off) v) s =
      .next (s.finish (((Work.of s).modWrite off v).homeAccess (.window 0) (controlBase + off))) := by
    change execRegisterWrite (controlBase + off) v s = _
    simp only [execRegisterWrite, run, State.via, pwrite_control h h8 e]
  rw [r, f_eq] at k
  exact ⟨_, k, rfl, rfl, rfl, ht, mt, pt, rfl⟩

/-- A field of a word is a quotient and a remainder (R4). -/
theorem fld_eq (x : Word) (hi lo : Nat) : fld x hi lo = x.toNat / 2 ^ lo % 2 ^ (hi + 1 - lo) := rfl

theorem modWrite_trBase (w : Work) (v : Word) :
    w.modWrite 0x800 v = w.updMod fun m => { m with trBase := v.toNat / 2 ^ 20 % 2 ^ 36 * 2 ^ 20 } := rfl

theorem modWrite_remBase (w : Work) (v : Word) :
    w.modWrite 0xC08 v = w.updMod fun m => { m with remBase := v.toNat / 2 ^ 12 % 2 ^ 44 * 4096 } := rfl

/-- HERR's bits are cleared by ones (R423). -/
theorem modWrite_herr (w : Work) (v : Word) :
    w.modWrite 0xD000 v = w.updMod fun m => { m with herr := m.herr - (m.herr &&& v.toNat % 8) } := by
  have e : fld v 2 0 = v.toNat % 8 := by simp [fld_eq]
  rw [← e]
  rfl

end Sys2Proof.Proofs
end

section
/-! Mapped ranges and changes of cells: a cell replaced by one with the same mapping entries keeps a range in place. -/

namespace Sys2Proof.Proofs

open Sys2Proof.Machine Sys2Proof.Safety Sys2Proof.Laws

/-- A mapped byte lies in a bank, past module memory (R168, R179). -/
theorem memTop_lt_of_cellsHit {a b : Nat} {p : Bool} : ∀ {t : Tbl Cell}, cellsHit a t = some (b, p) → memTop < b
  | [], h => by cases h
  | (n, c) :: t, h => by
    rw [cellsHit] at h
    split at h
    · cases h
      rw [memTop, bankBase, groveBase]
      omega
    · exact memTop_lt_of_cellsHit h

/-- No cell maps a byte that lies in place. -/
theorem cellsHit_none_of_inPlace {w : Work} {a n : Nat} (p : InPlace w a n) (fit : a + n ≤ memTop) {i : Nat} (hi : i < n) :
    cellsHit (a + i) w.cells = none := by
  obtain ⟨l, -⟩ := p i hi
  have lt : a + i < memTop := by omega
  rw [Work.loc, if_pos lt] at l
  rcases e : cellsHit (a + i) w.cells with _ | ⟨b, q⟩
  · rfl
  · rw [e] at l
    have := memTop_lt_of_cellsHit e
    dsimp only at l
    omega

theorem inPlace_of_cellsHit {w : Work} {a n : Nat} (h : ∀ i < n, cellsHit (a + i) w.cells = none) : InPlace w a n :=
  fun i hi => by simp [Work.loc, Work.readOnly, h i hi]

/-- Where no cell of a table maps an address, the cell read at a key does not. -/
theorem mapsHit_cell_none {a k : Nat} : ∀ {t : Tbl Cell}, cellsHit a t = none → mapsHit a (Tbl.getD t k Cell.reset).maps = none
  | [], _ => rfl
  | (n, c) :: t, h => by
    rw [cellsHit] at h
    split at h
    · cases h
    · by_cases e : n = k
      · simpa [Tbl.getD, Tbl.find, e]
      · simpa [Tbl.getD, Tbl.find, e] using mapsHit_cell_none (k := k) h

theorem cellsHit_put_none {a k : Nat} {c : Cell} (m : mapsHit a c.maps = none) :
    ∀ {t : Tbl Cell}, cellsHit a t = none → cellsHit a (Tbl.put t k c) = none
  | [], _ => by simp [Tbl.put, cellsHit, m]
  | (n, d) :: t, h => by
    have h' := h
    rw [cellsHit] at h
    split at h
    · cases h
    · rename_i z
      rw [Tbl.put]
      split
      · simp only [cellsHit, m, z, h]
      · split
        · simp only [cellsHit, m, h]
        · simp only [cellsHit, z, cellsHit_put_none m h]

theorem inPlace_setCell {w : Work} {a n k : Nat} {c : Cell} (m : c.maps = (w.cell k).maps) (fit : a + n ≤ memTop)
    (p : InPlace w a n) : InPlace (w.setCell k c) a n :=
  inPlace_of_cellsHit fun i hi => by
    have h := cellsHit_none_of_inPlace p fit hi
    exact cellsHit_put_none (by rw [m]; exact mapsHit_cell_none h) h

end Sys2Proof.Proofs
end

section
/-! The host queue: what the entry at HQHEAD is answered with and what it does (R327, R384, R425). -/

namespace Sys2Proof.Proofs

open Sys2Proof.Machine Sys2Proof.Safety Sys2Proof.Laws

variable {s : State} {w : Work}

theorem entryAt_eq (m : Mod) : m.entryAt =
    m.hqBase.toNat / 2 ^ 12 % 2 ^ 33 * 4096 + 64 * (m.hqHead.toNat % 2 ^ (m.hqBase.toNat % 16)) := by
  simp [Mod.entryAt, fld_eq]

/-- The queue's next entry is taken: the queue goes, and the entry's bytes can be read and written in place. -/
structure Pending (s : State) : Prop where
  going : s.mod.hqStopped = false
  more : s.mod.hqHead ≠ s.mod.hqTail
  boot : s.mod.bootErr = false
  fit : s.mod.entryAt + 64 ≤ memTop
  sound : Sound s s.mod.entryAt 64
  inPlace : InPlace (Work.of s) s.mod.entryAt 64

/-- OP of the next entry. -/
def entryOp (s : State) : Nat := numAt s s.mod.entryAt 1

/-- ASID of the next entry. -/
def entryAsid (s : State) : Nat := numAt s (s.mod.entryAt + 1) 1

/-- REGION of the next entry. -/
def entryRegion (s : State) : Nat := numAt s (s.mod.entryAt + 2) 2

/-- ARG of the next entry. -/
def entryArg (s : State) : Nat := numAt s (s.mod.entryAt + 8) 8

/-- The work of a step that has read the next entry. -/
def entryRead (s : State) : Work := (Work.of s).readTime (.after s.mod.maxTime) ((Work.of s).loc s.mod.entryAt)

theorem timesOnly_entryRead (s : State) : TimesOnly (Work.of s) (entryRead s) := timesOnly_readTime _ (apart_after _) _

theorem Pending.takes (p : Pending s) : s.mod.queueTakes = true := by
  simp [Mod.queueTakes, p.going, p.more, p.boot]

theorem Pending.readable (p : Pending s) : s.mod.entryAt + 64 ≤ memTop ∧ (Work.of s).pspoilt s.mod.entryAt 64 = false :=
  ⟨p.fit, pspoilt_inPlace p.inPlace p.sound⟩

/-- The bytes of the entry are read as they lie in memory. -/
theorem Pending.load (p : Pending s) (k n : Nat) (h : k + n ≤ 64) :
    (Work.of s).pload (s.mod.entryAt + k) n = numAt s (s.mod.entryAt + k) n :=
  pload_inPlace (inPlace_part p.inPlace k n h)

theorem Pending.load_op (p : Pending s) : (Work.of s).pload s.mod.entryAt 1 = entryOp s := by
  simpa [entryOp] using p.load 0 1 (by decide)

section
variable {mine : Nat → Bool} {eff : Nat → Nat → Word → Work → Option (Nat × Word × Work)}

/-- An OP other than 1 and 2 is refused with Illegal. -/
theorem takeEntry_illegal (p : Pending s) (m : mine (entryOp s) = true) (h1 : entryOp s ≠ 1) (h2 : entryOp s ≠ 2) :
    (Work.of s).takeEntry mine eff = (entryRead s).answerEntry 0x01 0 := by
  unfold Work.takeEntry
  simp only [of_mod, p.takes, p.readable, p.load_op, m, h1, h2, and_self, ne_eq, not_false_eq_true, if_true]
  rfl

/-- A REGION out of range is refused with Permission. -/
theorem takeEntry_permission (p : Pending s) (m : mine (entryOp s) = true) (h : entryOp s = 1 ∨ entryOp s = 2)
    (r : 320 ≤ entryRegion s) : (Work.of s).takeEntry mine eff = (entryRead s).answerEntry 0x09 0 := by
  have h' : ¬ (entryOp s ≠ 1 ∧ entryOp s ≠ 2) := by omega
  unfold Work.takeEntry
  simp only [of_mod, p.takes, p.readable, p.load_op, p.load 2 2 (by decide), m, h', and_self, if_true, if_false]
  exact if_pos r

/-- Any other entry that has its effect is answered by it. -/
theorem takeEntry_effect {code : Nat} {signal : Word} (p : Pending s) (m : mine (entryOp s) = true)
    (h : entryOp s = 1 ∨ entryOp s = 2) (r : entryRegion s < 320)
    (e : eff (entryAsid s) (entryRegion s) (BitVec.ofNat 64 (entryArg s)) (entryRead s) = some (code, signal, w)) :
    (Work.of s).takeEntry mine eff = w.answerEntry code signal := by
  have h' : ¬ (entryOp s ≠ 1 ∧ entryOp s ≠ 2) := by omega
  unfold Work.takeEntry
  simp only [of_mod, p.takes, p.readable, p.load_op, p.load 1 1 (by decide), p.load 2 2 (by decide), p.load 8 8 (by decide), m, h',
    and_self, if_true, if_false]
  rw [if_neg (by exact Nat.not_le.2 r)]
  simp only [entryAsid, entryRegion, entryArg, entryRead] at e
  rw [e]

end

/-- What a step that answers the entry at HQHEAD leaves: RESULT written, HQHEAD moved on, and the queue going. -/
def Answered (s t : State) (code : Nat) : Prop :=
  Stored s t (s.mod.entryAt + 16) 8 (2 ^ 63 + code) ∧ t.mod.hqHead = s.mod.hqHead + 1 ∧ t.mod.hqTail = s.mod.hqTail ∧
    t.mod.hqStopped = false

/-- An entry's effect leaves the queue's registers, no byte written, and the entry in place. -/
structure Spares (s : State) (w : Work) : Prop where
  base : w.mod.hqBase = s.mod.hqBase
  head : w.mod.hqHead = s.mod.hqHead
  tail : w.mod.hqTail = s.mod.hqTail
  going : w.mod.hqStopped = false
  log : w.log = []
  inPlace : InPlace w s.mod.entryAt 64

theorem spares_entryRead (p : Pending s) : Spares s (entryRead s) := by
  obtain ⟨_, _, _, _, e⟩ := timesOnly_entryRead s
  rw [e]
  exact ⟨rfl, rfl, rfl, p.going, rfl, inPlace_of_cells (w := Work.of s) rfl p.inPlace⟩

theorem accQueue_core (w : Work) (g asid : Nat) (r : Option Nat) : (w.accQueue g asid r).core = false := by
  simp [Acc.core, Work.accQueue]

theorem TimesOnly.advance {v : Work} (h : TimesOnly w v) :
    TimesOnly (w.updMod fun m => { m with hqHead := m.hqHead + 1 }) (v.updMod fun m => { m with hqHead := m.hqHead + 1 }) := by
  obtain ⟨lt, ht, mt, pt, rfl⟩ := h
  exact ⟨lt, ht, mt, pt, rfl⟩

/-- RESULT is written, and then HQHEAD advances. (The definition is unfolded as a function: on an applied one the kernel would
evaluate the write.) -/
theorem answerEntry_of_write {u : Work} {code : Nat} {signal : Word}
    (e : w.pwrite (w.accQueue 0 0 none) (w.mod.modNo * 2 ^ 45 + (w.mod.entryAt + 16))
      (leBytes 8 (2 ^ 63 + fld signal 31 0 * 2 ^ 16 + code)) = .ok u) :
    w.answerEntry code signal = (u.updMod fun m => { m with hqHead := m.hqHead + 1 }).homeAccess (.after u.mod.maxTime)
      (u.loc (controlBase + 0xD030)) := by
  generalize h : @Work.answerEntry = f
  delta Work.answerEntry at h
  subst h
  simp only [e]

/-- The work of a step whose entry is answered: RESULT's bytes, HQHEAD moved on, and nothing else changed but times. -/
theorem timesOnly_answerEntry (fit : s.mod.entryAt + 64 ≤ memTop) (h : Spares s w) (code : Nat) :
    TimesOnly ((w.store (s.mod.entryAt + 16) (leBytes 8 (2 ^ 63 + code))).updMod fun m => { m with hqHead := m.hqHead + 1 })
      (w.answerEntry code 0) := by
  have a : w.mod.entryAt = s.mod.entryAt := by rw [entryAt_eq, entryAt_eq, h.base, h.head]
  have z : 2 ^ 63 + fld (0 : Word) 31 0 * 2 ^ 16 + code = 2 ^ 63 + code := by simp [fld_eq]
  have e := pwrite_memory (w := w) (a := w.accQueue 0 0 none) (la := s.mod.entryAt + 16) (bs := leBytes 8 (2 ^ 63 + code))
    (by rw [leBytes_length]; omega) (accQueue_core _ _ _ _) (by rw [leBytes_length]; decide)
    (by rw [leBytes_length]; exact inPlace_part h.inPlace 16 8 (by decide))
  rw [answerEntry_of_write (by rw [a, z]; exact e)]
  exact (timesOnly_writeTime _ (apart_after _) _).advance.trans (timesOnly_homeAccess _ (apart_after _) _)

/-- An entry whose effect spares the queue is answered. -/
theorem answerEntry_answered (m : MemOk s) (fit : s.mod.entryAt + 64 ≤ memTop) (h : Spares s w) (code : Nat) :
    Answered s (s.finish (w.answerEntry code 0)) code ∧ (s.finish (w.answerEntry code 0)).regions = w.regions := by
  obtain ⟨_, _, _, _, e⟩ := timesOnly_answerEntry fit h code
  rw [e]
  refine ⟨⟨stored_of_log m ?_, ?_, h.tail, h.going⟩, rfl⟩
  · exact congrArg (fun l => logBytes l (s.mod.entryAt + 16) (leBytes 8 (2 ^ 63 + code))) h.log
  · exact congrArg (· + 1) h.head

/-! ## Refused entries -/

/-- An OP other than 1 and 2 is answered with Illegal by the launch step. -/
theorem hostQueueLaunch_illegal (m : MemOk s) (p : Pending s) (h1 : entryOp s ≠ 1) (h2 : entryOp s ≠ 2) :
    ∃ t, exec .hostQueueLaunch s = .next t ∧ Answered s t 0x01 := by
  have e : exec .hostQueueLaunch s = .next (s.finish ((entryRead s).answerEntry 0x01 0)) :=
    congrArg (fun w => Host.Outcome.next (s.finish w)) (takeEntry_illegal p (by simpa using h2) h1 h2)
  exact ⟨_, e, (answerEntry_answered m p.fit (spares_entryRead p) 0x01).1⟩

/-- A launch into a region out of range is answered with Permission. -/
theorem hostQueueLaunch_permission (m : MemOk s) (p : Pending s) (h : entryOp s = 1) (r : 320 ≤ entryRegion s) :
    ∃ t, exec .hostQueueLaunch s = .next t ∧ Answered s t 0x09 := by
  have e : exec .hostQueueLaunch s = .next (s.finish ((entryRead s).answerEntry 0x09 0)) :=
    congrArg (fun w => Host.Outcome.next (s.finish w)) (takeEntry_permission p (by simp [h]) (.inl h) r)
  exact ⟨_, e, (answerEntry_answered m p.fit (spares_entryRead p) 0x09).1⟩

/-- A release in a region out of range is answered with Permission. -/
theorem hostQueueRelease_permission (m : MemOk s) (p : Pending s) (h : entryOp s = 2) (r : 320 ≤ entryRegion s) :
    ∃ t, exec .hostQueueRelease s = .next t ∧ Answered s t 0x09 := by
  have e : exec .hostQueueRelease s = .next (s.finish ((entryRead s).answerEntry 0x09 0)) :=
    congrArg (fun w => Host.Outcome.next (s.finish w)) (takeEntry_permission p (by simp [h]) (.inr h) r)
  exact ⟨_, e, (answerEntry_answered m p.fit (spares_entryRead p) 0x09).1⟩

end Sys2Proof.Proofs
end

section
/-! Launch and release entries of the host queue that have their effect (R327, R384, R425). -/

namespace Sys2Proof.Proofs

open Sys2Proof.Machine Sys2Proof.Safety Sys2Proof.Laws

variable {s : State} {w : Work} {r : Nat}

/-! ## Launches -/

/-- A field of one bit that is clear (R4). -/
theorem bits_of_getLsbD {n i : Nat} {x : BitVec n} (h : x.getLsbD i = false) : bits x.toNat i i = 0 := by
  rw [BitVec.getLsbD, Nat.testBit_eq_decide_div_mod_eq, decide_eq_false_iff_not] at h
  rw [bits, Nat.add_sub_cancel_left, pow_one]
  exact Nat.mod_two_ne_one.1 h

/-- A launch that names no signal is queued while its region's queue has room (R327). -/
theorem acceptLaunch_unsignalled {l : Launch} (q : (w.region r).launchQ.length < 8) (h : l.hdr.getLsbD 400 = false) :
    w.acceptLaunch r l = some (0, w.updRegion r fun y => { y with launchQ := y.launchQ ++ [l] }) := by
  have z : l.fld 400 400 = 0 := bits_of_getLsbD h
  rw [Work.acceptLaunch, if_neg (Nat.not_le.2 q)]
  simp only [z, if_true]

/-- The launch that an entry names, read and checked. -/
def entryLaunch (s : State) : Except Stop (Nat × Launch × Work) :=
  (entryRead s).readLaunch
    ((entryRead s).accQueue (((Work.of s).mgrove (entryRegion s) 0).getD 0) (entryAsid s) (some (entryRegion s))) (entryRegion s)
    (entryArg s)

/-- A launch entry is queued as its issuer's launch. -/
theorem hostLaunch_queued {l : Launch} (e : entryLaunch s = .ok (r, l, w)) (q : (w.region r).launchQ.length < 8)
    (h : l.hdr.getLsbD 400 = false) :
    Work.hostLaunch (entryAsid s) (entryRegion s) (BitVec.ofNat 64 (entryArg s)) (entryRead s) =
      some (0, 0, w.updRegion r fun y => { y with launchQ := y.launchQ ++ [l] }) := by
  have a : (BitVec.ofNat 64 (entryArg s)).toNat = entryArg s := by
    rw [BitVec.toNat_ofNat, Nat.mod_eq_of_lt]
    exact numAt_lt s _ 8
  have g : (entryRead s).mgrove (entryRegion s) 0 = (Work.of s).mgrove (entryRegion s) 0 := by
    obtain ⟨_, _, _, _, t⟩ := timesOnly_entryRead s
    rw [t]
    rfl
  unfold Work.hostLaunch
  rw [a, g]
  rw [entryLaunch] at e
  simp only [e, acceptLaunch_unsignalled q h, Option.map_some]

/-- What a launch entry with its effect leaves: the answer, and the launch at the end of its region's queue. -/
theorem hostQueueLaunch_queued {l : Launch} (m : MemOk s) (p : Pending s) (h : entryOp s = 1) (g : entryRegion s < 320)
    (e : entryLaunch s = .ok (r, l, w)) (q : (regionOf s r).launchQ.length < 8) (sig : l.hdr.getLsbD 400 = false)
    (reg : w.regions = s.regions) (k : Spares s w) :
    ∃ t, exec .hostQueueLaunch s = .next t ∧ Answered s t 0 ∧ (regionOf t r).launchQ = (regionOf s r).launchQ ++ [l] := by
  have c : w.region r = regionOf s r := by simp only [Work.region, reg, regionOf, of_regions]
  have f := hostLaunch_queued e (by rwa [c]) sig
  have x : exec .hostQueueLaunch s = .next (s.finish ((w.updRegion r fun y => { y with launchQ := y.launchQ ++ [l] }).answerEntry 0 0)) :=
    congrArg (fun w => Host.Outcome.next (s.finish w)) (takeEntry_effect p (by simp [h]) (.inl h) g f)
  have k' : Spares s (w.updRegion r fun y => { y with launchQ := y.launchQ ++ [l] }) :=
    ⟨k.base, k.head, k.tail, k.going, k.log, inPlace_of_cells (w := w) rfl k.inPlace⟩
  obtain ⟨a, b⟩ := answerEntry_answered m p.fit k' 0
  refine ⟨_, x, a, ?_⟩
  rw [← c, regionOf, Work.region, of_regions, b]
  exact congrArg Region.launchQ (setRegion_same w r { w.region r with launchQ := (w.region r).launchQ ++ [l] })

/-! ## Releases -/

/-- A release takes effect at once in a region that runs, where no stop has its number (R384, R400, R411). -/
theorem askedRelease_now {o : Frozen} (n : ReleasesNow s r) (c : w.region r = regionOf s r) {d : Bool} {q : BitVec 32}
    (f : frozenOf s r q.toNat = some o) : w.askedRelease r d q = w.letGo r d o := by
  obtain ⟨h1, h2, h3, h4⟩ := n
  rw [frozenOf] at f
  unfold Work.askedRelease
  simp only [c, h1, h2, h3, h4, f, Option.isSome_none, Bool.or_self, Bool.false_and, Bool.false_eq_true, if_false]

/-- A discarded request answers null, and its object leaves the region's list (R384). -/
theorem letGo_discard_request {o : Frozen} (h : o.okind = 3) :
    w.letGo r true o = (w.unlist r o).updCell o.cell fun c =>
      { c with reqs := c.reqs.map fun (q : MemReq) => if q.id = o.aux then { q with null := true } else q } := by
  unfold Work.letGo
  simp only [h, if_true]

/-- A release entry's fields: DISCARD, and a release number of 32 bits. -/
theorem release_fields {arg : Nat} (h : arg / 2 ^ 32 = 2 ^ 30) :
    fld (BitVec.ofNat 64 arg) 61 32 = 0 ∧ fld (BitVec.ofNat 64 arg) 63 62 = 1 ∧
      ((BitVec.ofNat 64 arg).setWidth 32 : BitVec 32).toNat = arg % 2 ^ 32 := by
  simp only [fld_eq, BitVec.toNat_setWidth, BitVec.toNat_ofNat]
  omega

theorem hostRelease_discard {o : Frozen} {asid arg : Nat} (a : arg / 2 ^ 32 = 2 ^ 30) (n : ReleasesNow s r)
    (c : w.region r = regionOf s r) (l : (regionOf s r).loaded = true) (f : frozenOf s r (arg % 2 ^ 32) = some o)
    (h : o.okind = 3) :
    Work.hostRelease asid r (BitVec.ofNat 64 arg) w = some (0, 0, (w.unlist r o).updCell o.cell fun c =>
      { c with reqs := c.reqs.map fun (q : MemReq) => if q.id = o.aux then { q with null := true } else q }) := by
  obtain ⟨a1, a2, a3⟩ := release_fields a
  unfold Work.hostRelease
  simp only [a1, a2, c, l, ne_eq, not_true, Nat.not_ofNat_le_one, Bool.true_eq_false, or_self, if_false, beq_self_eq_true]
  rw [askedRelease_now n c (by rwa [a3]), letGo_discard_request h]

/-- What a release entry that discards a frozen request leaves: the answer, and the object gone from its region's list. -/
theorem hostQueueRelease_discard {o : Frozen} (m : MemOk s) (p : Pending s) (h : entryOp s = 2) (g : entryRegion s < 320)
    (l : (regionOf s (entryRegion s)).loaded = true) (a : entryArg s / 2 ^ 32 = 2 ^ 30) (n : ReleasesNow s (entryRegion s))
    (f : frozenOf s (entryRegion s) (entryArg s % 2 ^ 32) = some o) (k : o.okind = 3) :
    ∃ t, exec .hostQueueRelease s = .next t ∧ Answered s t 0 ∧
      (regionOf t (entryRegion s)).frozen = (regionOf s (entryRegion s)).frozen.filter (fun p => p.fseq != o.fseq) := by
  have sp := spares_entryRead p
  have c : (entryRead s).region (entryRegion s) = regionOf s (entryRegion s) := by
    obtain ⟨_, _, _, _, t⟩ := timesOnly_entryRead s
    rw [t]
    rfl
  have e := takeEntry_effect (mine := fun op => op == 2) p (by simp [h]) (.inr h) g
    (hostRelease_discard (w := entryRead s) (asid := entryAsid s) a n c l f k)
  generalize u_eq : ((entryRead s).unlist (entryRegion s) o).updCell o.cell _ = u at e
  have x : exec .hostQueueRelease s = .next (s.finish (u.answerEntry 0 0)) :=
    congrArg (fun w => Host.Outcome.next (s.finish w)) e
  have su : Spares s u := by
    subst u_eq
    exact ⟨sp.base, sp.head, sp.tail, sp.going, sp.log, inPlace_setCell rfl p.fit (inPlace_of_cells (w := entryRead s) rfl sp.inPlace)⟩
  obtain ⟨y, b⟩ := answerEntry_answered m p.fit su 0
  refine ⟨_, x, y, ?_⟩
  rw [regionOf, Work.region, of_regions, b, ← u_eq, ← c]
  exact congrArg Region.frozen (setRegion_same (entryRead s) (entryRegion s) _)

end Sys2Proof.Proofs
end

section
/-! Module reset, measured boot and attestation (R426, R427). -/

namespace Sys2Proof.Proofs

open Sys2Proof.Machine Sys2Proof.Safety Sys2Proof.Laws

variable {s : State}

/-! ## Lengths of digests, keys and signatures -/

/-- Pieces of one length, joined. -/
theorem length_flatten_const {α β : Type} (f : α → List β) (n : Nat) (h : ∀ x, (f x).length = n) (l : List α) :
    ((l.map f).flatten).length = l.length * n := by
  simp [List.length_flatten, Function.comp_def, h]

theorem shaRound_length (v : List Word) (k : Word × Word) : (shaRound v k).length = v.length := by
  unfold shaRound
  split <;> rfl

theorem foldl_shaRound_length (l : List (Word × Word)) (v : List Word) : (l.foldl shaRound v).length = v.length := by
  induction l generalizing v with
  | nil => rfl
  | cons k t ih => rw [List.foldl_cons, ih, shaRound_length]

theorem shaBlock_length (h : List Word) (b : List Byte) : (shaBlock h b).length = h.length := by
  unfold shaBlock
  dsimp only
  rw [List.length_zipWith, foldl_shaRound_length, Nat.min_self]

theorem shaBlocks_length (n : Nat) (h : List Word) (bs : List Byte) : (shaBlocks n h bs).length = h.length := by
  induction n generalizing h bs with
  | zero => rfl
  | succ n ih => rw [shaBlocks, ih, shaBlock_length]

@[simp] theorem sha512_length (bs : List Byte) : (sha512 bs).length = 64 := by
  unfold sha512
  dsimp only
  rw [length_flatten_const _ 8 fun x => by simp, shaBlocks_length]
  rfl

@[simp] theorem edPoint_bytes_length (p : EdPoint) : p.bytes.length = 32 := by simp [EdPoint.bytes]

@[simp] theorem edPublic_length (k : List Byte) : (edPublic k).length = 32 := by simp [edPublic]

@[simp] theorem edSign_length (k m : List Byte) : (edSign k m).length = 64 := by simp [edSign]

theorem bootLogOf_length (n : Nat) : (bootLogOf n).length = 72 * n := by
  rw [bootLogOf, length_flatten_const bootEntry 72 fun x => by simp [bootEntry], List.length_range, Nat.mul_comm]

/-! ## Reset (R248, R426) -/

/-- The canopy of a grove is where the address map has it (R169). -/
theorem placeOf_canopy {a g : Nat} (h : g < 320) (lo : canopyBase g 0 ≤ a) (hi : a < canopyBase g 0 + 0x1000000) :
    placeOf a = .canopy g := by
  simp only [canopyBase, groveBase] at lo hi
  have q : (a - 0x100000000000) / 0x4000000 = g := by omega
  have m1 : 0x2000000 ≤ (a - 0x100000000000) % 0x4000000 := by omega
  have m2 : (a - 0x100000000000) % 0x4000000 < 0x3000000 := by omega
  rw [placeOf, groveBase, if_pos (by omega), q]
  generalize (a - 0x100000000000) % 0x4000000 = off at m1 m2
  unfold grovePlace
  iterate 10 rw [if_neg (by omega)]
  rw [if_pos ⟨m1, m2⟩]

/-- Only a grove's offsets 0x2000000 to 0x2FFFFFF are its canopy (R169). -/
theorem grovePlace_canopy {g k off : Nat} (h : grovePlace g off = .canopy k) : g = k ∧ 0x2000000 ≤ off ∧ off < 0x3000000 := by
  unfold grovePlace at h
  iterate 10
    split at h
    · cases h
  split at h
  · rename_i r
    cases h
    exact ⟨rfl, r⟩
  · cases h

/-- Only the canopy windows of the module's groves are canopies (R168, R169). -/
theorem canopy_of_placeOf {a g : Nat} (h : placeOf a = .canopy g) :
    g < 320 ∧ canopyBase g 0 ≤ a ∧ a < canopyBase g 0 + 0x1000000 := by
  unfold placeOf at h
  split at h
  · rename_i r
    obtain ⟨rfl, lo, hi⟩ := grovePlace_canopy h
    simp only [canopyBase, groveBase] at r ⊢
    omega
  · iterate 2
      split at h
      · cases h
    cases h

theorem kept_canopy {a g : Nat} (h : g < 320) (lo : canopyBase g 0 ≤ a) (hi : a < canopyBase g 0 + 0x1000000) (v : Byte) :
    kept (a, v) = false := by
  unfold kept
  rw [placeOf_canopy h lo hi]

theorem kept_outside {a : Nat} (h : ∀ g < 320, a < canopyBase g 0 ∨ canopyBase g 0 + 0x1000000 ≤ a) (v : Byte) :
    kept (a, v) = true := by
  unfold kept
  dsimp only
  split
  · rename_i g e
    obtain ⟨l, lo, hi⟩ := canopy_of_placeOf e
    have := h g l
    omega
  · rfl

/-- A byte outside the measured-boot log after a reset: as it was, unless the reset drops the bytes of its place. -/
theorem moduleReset_byte (m : MemOk s) {a : Nat} {q : Bool} (k : ∀ v, kept (a, v) = q) {n : Nat}
    (h : a < Config.bootLogAt ∨ Config.bootLogAt + 72 * n ≤ a) :
    Memory.get (Memory.write (s.mem.filter kept) (logBytes [] Config.bootLogAt (bootLogOf n))) a = if q then byteAt s a else 0 := by
  rw [get_write (wf_filter kept m), logBytes_other _ _ _ _ _ (by rwa [bootLogOf_length])]
  exact get_filter kept a q k m

/-- Every unit is at its reset value, and memory keeps the bytes outside the canopies and the measured-boot log. -/
theorem moduleReset_resets (m : MemOk s) :
    ∃ t, exec .moduleReset s = .next t ∧ t.cores = [] ∧ t.cells = [] ∧ t.mxs = [] ∧ t.regions = [] ∧
      t.moves = State.reset.moves ∧ t.inputs = [] ∧ t.mod.modNo = s.mod.modNo ∧ t.mod.eolDays = s.mod.eolDays ∧
      t.mod.cycle = State.reset.mod.cycle ∧ t.mod.herr = State.reset.mod.herr ∧ t.mod.hqHead = State.reset.mod.hqHead ∧
      t.mod.hqTail = State.reset.mod.hqTail ∧
      ∀ a, a < Config.bootLogAt ∨ Config.bootLogAt + 72 * t.mod.bootStage ≤ a →
        ((∀ g < 320, a < canopyBase g 0 ∨ canopyBase g 0 + 0x1000000 ≤ a) → byteAt t a = byteAt s a) ∧
        ∀ g < 320, canopyBase g 0 ≤ a → a < canopyBase g 0 + 0x1000000 → byteAt t a = 0 := by
  refine ⟨_, rfl, rfl, rfl, rfl, rfl, rfl, rfl, rfl, rfl, rfl, rfl, rfl, rfl, fun a h => ⟨fun o => ?_, fun g l lo hi => ?_⟩⟩
  · exact moduleReset_byte m (kept_outside o) h
  · exact moduleReset_byte m (kept_canopy l lo hi) h

/-! ## Attestation (R427) -/

/-- The digest of the measured-boot log as it stands. -/
def logDigest (s : State) : List Byte := sha512 ((Work.of s).pbytes (s.mod.bootLog.toNat % 2 ^ 45) (72 * s.mod.bootStage))

/-- The local address of the report, 64 KiB past the log. -/
def reportAt (s : State) : Nat := s.mod.bootLog.toNat % 2 ^ 45 + 0x10000

@[simp] theorem freshBytes_length (n : Nat) (w : Work) : (freshBytes n w).1.length = n := by
  induction n generalizing w with
  | zero => rfl
  | succ n ih => simp [freshBytes, ih]

/-- Free values change their count alone. -/
theorem freshBytes_work (n : Nat) (w : Work) : ∃ c, (freshBytes n w).2 = { w with freeCtr := c } := by
  induction n generalizing w with
  | zero => exact ⟨w.freeCtr, rfl⟩
  | succ n ih =>
    obtain ⟨c, e⟩ := ih w.fresh.2
    exact ⟨c, by rw [freshBytes]; exact e⟩

/-- The bytes of a list's middle part. -/
theorem getD_middle (a b c : List Byte) {i : Nat} (h : i < b.length) : (a ++ b ++ c).getD (a.length + i) 0 = b.getD i 0 := by
  rw [List.getD_append _ _ _ _ (by simp; omega), List.getD_append_right _ _ _ _ (by omega), Nat.add_sub_cancel_left]

/-- A report before its signature, with the bytes of wear that end it. -/
def reportBody (s : State) (wear : List Byte) : List Byte := s.mod.nonce ++ logDigest s ++ edPublic Config.idSecret ++ wear

/-- What is attested: a report whose last eight bytes are the wear's, and the count of free values moved on. -/
theorem attested_eq (s : State) : ∃ wear c, wear.length = 8 ∧ (Work.of s).attested =
    (reportBody s wear, { Work.of s with freeCtr := c }) := by
  obtain ⟨c, e⟩ := freshBytes_work 2 (Work.of s)
  refine ⟨(freshBytes 2 (Work.of s)).1 ++ (leBytes 8 (s.mod.eolDays * 2 ^ 48 + s.mod.wgrove * 2 ^ 32 + s.mod.wpct * 2 ^ 24)).drop 2,
    c, by simp, ?_⟩
  unfold Work.attested
  dsimp only
  rw [e, List.append_assoc _ _ (List.drop _ _)]
  rfl

/-- The signature of a report. -/
def reportSig (r : List Byte) : List Byte := edSign Config.idSecret (sha512 r)

/-- The work of an attestation before the report is written: the request dropped, the count of free values moved on. -/
def reported (s : State) (c : Nat) : Work := ({ Work.of s with freeCtr := c } : Work).updMod fun m => { m with attreq := false }

theorem reportBody_length {wear : List Byte} (n : s.mod.nonce.length = 32) (l : wear.length = 8) : (reportBody s wear).length = 136 := by
  simp [reportBody, logDigest, n, l]

/-- An attestation's step: report and signature written. -/
theorem attreq_step {wear : List Byte} {c : Nat} (q : s.mod.attreq = true) (fit : reportAt s + 200 ≤ memTop)
    (e : (Work.of s).attested = (reportBody s wear, { Work.of s with freeCtr := c })) :
    exec .attreq s = .next (s.finish ((pstore (reportAt s) (reportBody s wear ++ reportSig (reportBody s wear)) (reported s c)).writeTime
      (.after (reported s c).mod.maxTime) ((reported s c).loc (reportAt s)))) := by
  change execAttreq s = _
  unfold execAttreq
  simp only [run, State.via, of_mod, q, if_true, e]
  rw [if_pos (show s.mod.bootLog.toNat % 2 ^ 45 + 0x10000 + 200 ≤ memTop from fit)]
  rfl

/-- An attestation writes a report of 136 bytes and its signature, and drops the request. -/
theorem attreq_report (q : s.mod.attreq = true) (fit : reportAt s + 200 ≤ memTop)
    (loc : ∀ i < 200, (Work.of s).loc (reportAt s + i) = reportAt s + i) (m : MemOk s) (n : s.mod.nonce.length = 32) :
    ∃ t wear, wear.length = 8 ∧ exec .attreq s = .next t ∧ t.mod.attreq = false ∧ t.cores = s.cores ∧ t.regions = s.regions ∧
      (∀ i < 200, byteAt t (reportAt s + i) = (reportBody s wear ++ reportSig (reportBody s wear)).getD i 0) ∧
      ∀ b, b < reportAt s ∨ reportAt s + 200 ≤ b → byteAt t b = byteAt s b := by
  obtain ⟨wear, c, l, e⟩ := attested_eq s
  have x := attreq_step q fit e
  generalize bs_eq : reportBody s wear ++ reportSig (reportBody s wear) = bs at x
  have len : bs.length = 200 := by simp [← bs_eq, reportSig, reportBody_length n l]
  rw [pstore_direct bs (reportAt s) (reported s c) (by rw [len]; exact loc)] at x
  obtain ⟨_, _, _, _, y⟩ := timesOnly_writeTime ((reported s c).store (reportAt s) bs) (apart_after (reported s c).mod.maxTime)
    ((reported s c).loc (reportAt s))
  rw [y] at x
  obtain ⟨i, o⟩ := finish_run (w := ((reported s c).store (reportAt s) bs).updMod _) (a := reportAt s) (bs := bs) m rfl
  rw [len] at i o
  exact ⟨_, wear, l, x, rfl, rfl, rfl, bs_eq ▸ i, o⟩

/-- An attestation in its parts: nonce, digest of the log, identity key, and the signature of all before it. -/
theorem attreq_attests (q : s.mod.attreq = true) (m : MemOk s) (fit : reportAt s + 200 ≤ memTop)
    (loc : ∀ i < 200, (Work.of s).loc (reportAt s + i) = reportAt s + i) (n : s.mod.nonce.length = 32) :
    ∃ t, exec .attreq s = .next t ∧ t.mod.attreq = false ∧ t.cores = s.cores ∧ t.regions = s.regions ∧
      (∀ i < 32, byteAt t (reportAt s + i) = s.mod.nonce.getD i 0) ∧
      (∀ i < 64, byteAt t (reportAt s + 32 + i) = (logDigest s).getD i 0) ∧
      (∀ i < 32, byteAt t (reportAt s + 96 + i) = (edPublic Config.idSecret).getD i 0) ∧
      (∀ i < 64, byteAt t (reportAt s + 136 + i) =
        (reportSig ((List.range 136).map fun j => byteAt t (reportAt s + j))).getD i 0) ∧
      ∀ b, b < reportAt s ∨ reportAt s + 200 ≤ b → byteAt t b = byteAt s b := by
  obtain ⟨t, wear, l, x, a, c, g, bytes, o⟩ := attreq_report q fit loc m n
  have d : (logDigest s).length = 64 := sha512_length _
  have k : (edPublic Config.idSecret).length = 32 := edPublic_length _
  have len := reportBody_length (s := s) n l
  generalize r_eq : reportBody s wear = r at bytes len
  rw [reportBody] at r_eq
  generalize edPublic Config.idSecret = key at r_eq k ⊢
  generalize logDigest s = dig at r_eq d ⊢
  have head : ∀ i < 136, byteAt t (reportAt s + i) = r.getD i 0 := fun i hi => by
    rw [bytes i (by omega), List.getD_append _ _ _ _ (by omega)]
  refine ⟨t, x, a, c, g, fun i hi => ?_, fun i hi => ?_, fun i hi => ?_, fun i hi => ?_, o⟩
  · rw [head i (by omega), ← r_eq, List.append_assoc, List.append_assoc, List.getD_append _ _ _ _ (by omega)]
  · rw [Nat.add_assoc, head (32 + i) (by omega), ← r_eq, ← n, List.append_assoc (s.mod.nonce ++ dig), getD_middle _ _ _ (by omega)]
  · rw [Nat.add_assoc, head (96 + i) (by omega), ← r_eq, show 96 = (s.mod.nonce ++ dig).length by simp [n, d],
      getD_middle _ _ _ (by omega)]
  · have e : ((List.range 136).map fun j => byteAt t (reportAt s + j)) = r := by
      refine List.ext_getElem (by simp [len]) fun j h1 h2 => ?_
      rw [List.getElem_map, List.getElem_range, head j (by omega), List.getD_eq_getElem _ _ h2]
    rw [e, Nat.add_assoc, bytes (136 + i) (by omega), List.getD_append_right _ _ _ _ (by omega), len, Nat.add_sub_cancel_left]

end Sys2Proof.Proofs
end

section
/-! The statement about the host port. -/

namespace Sys2Proof.Proofs

open Sys2Proof.Machine Sys2Proof.Safety Sys2Proof.Laws

/-- A register's word written at its address (R7): `f` is what its access codes let the write do. -/
theorem registerWrite_leaves {s : State} {v x : Word} {off : Nat} {f : Mod → Mod} (h : off < 0x10000) (h8 : off % 8 = 0)
    (e : (Work.of s).modReg off = some x) (f_eq : (Work.of s).modWrite off v = (Work.of s).updMod f)
    (ht : (f s.mod).homeTimes = s.mod.homeTimes) (mt : (f s.mod).maxTime = s.mod.maxTime) (pt : (f s.mod).ptimes = s.mod.ptimes) :
    ∃ t, exec (.registerWrite (0x100C00000000 + off) v) s = .next t ∧ t.mem = s.mem ∧ t.cores = s.cores ∧
      t.regions = s.regions ∧
      { t.mod with homeTimes := s.mod.homeTimes, maxTime := s.mod.maxTime, ptimes := s.mod.ptimes } = f s.mod := by
  obtain ⟨t, k, a, b, c, _, _, _, m⟩ := registerWrite_control h h8 e f_eq
  refine ⟨t, k, a, b, c, ?_⟩
  rw [m, ← ht, ← mt, ← pt]

/-- Settles O54, clause by clause: the queue's registers, the windows, the registers of the module control window, the entries
of the host queue, reset, and attestation. -/
theorem hostPort : Obligations.HostPort := by
  refine ⟨fun s v q => ⟨⟨_, rfl, rfl, rfl, rfl, rfl, rfl, rfl, rfl⟩, ⟨_, rfl, rfl, rfl, rfl, rfl, rfl, rfl, rfl⟩⟩,
    fun s k off n v n1 n8 boot => ?_, fun s v _ => ?_, fun s going more boot m => ?_, fun s m => moduleReset_resets m,
    fun s q m fit loc n => attreq_attests q m fit loc n⟩
  · have made : Made s n := ⟨n1, n8, boot⟩
    refine ⟨fun la k1 k3 lt la_eq fit p => ?_, ?_, ?_, ?_⟩
    · have a : s.mod.windowAt k off = some la := la_eq ▸ windowAt_moved s.mod k1 k3 lt
      have b : hostBar k off = (k, off) := hostBar_self (.inr lt)
      exact ⟨fun o => hostRead_memory made b a fit p o, fun m => hostWrite_memory made b a fit p m⟩
    · rintro rfl lt short
      obtain ⟨t, e, o, c, d, g, m, h⟩ := hostRead_control_short (v := v) made lt short
      exact ⟨t, ⟨e, o, c, d, g, m⟩, h⟩
    · rintro rfl past
      exact ⟨⟨s, hostAccess_past made past false, rfl, rfl, rfl, rfl, rfl, rfl, rfl⟩,
        ⟨s, hostAccess_past made past true, rfl, rfl, rfl, rfl, rfl, rfl, rfl⟩⟩
    · rintro rfl second wr
      exact hostAccess_of_bar (hostBar_second second) wr
  · exact ⟨registerWrite_leaves (by decide) (by decide) rfl (modWrite_trBase _ v) rfl rfl rfl,
      registerWrite_leaves (by decide) (by decide) rfl (modWrite_herr _ v) rfl rfl rfl,
      registerWrite_leaves (by decide) (by decide) rfl (modWrite_remBase _ v) rfl rfl rfl⟩
  · intro a
    have e : a = s.mod.entryAt := (entryAt_eq s.mod).symm
    clear_value a
    subst e
    intro fit sound inPlace op region arg answers
    have p : Pending s := ⟨going, more, boot, fit, sound, inPlace⟩
    refine ⟨fun h1 h2 => hostQueueLaunch_illegal m p h1 h2, fun h r => hostQueueLaunch_permission m p h r, ?_,
      fun h r => hostQueueRelease_permission m p h r,
      fun o h g l a n f k => hostQueueRelease_discard m p h g l a n f k⟩
    intro r l w h g q sig r_eq v e regs cells base log mods
    subst r_eq
    have sp : Spares s w := ⟨(congrArg Mod.hqBase mods :), (congrArg Mod.hqHead mods :), (congrArg Mod.hqTail mods :),
      (congrArg Mod.hqStopped mods).trans going, log, inPlace_of_cells (w := Work.of s) cells inPlace⟩
    exact hostQueueLaunch_queued m p h g e q sig regs sp

end Sys2Proof.Proofs
end

section
/-! Graph loads: one that is rejected is reported alone, one that is accepted leaves what its image declares (R16, R18 to R20). -/

namespace Sys2Proof.Proofs

open Sys2Proof.Machine Sys2Proof.Safety Sys2Proof.Laws

/-! ## Every value of a table changed -/

theorem find_map_vals {α β : Type} (f : α → β) (k : Nat) :
    ∀ t : Tbl α, Tbl.find (t.map fun e => (e.1, f e.2)) k = (Tbl.find t k).map f
  | [] => rfl
  | e :: t => by
    by_cases h : e.1 = k <;> simp [Tbl.find, h, find_map_vals f k t]

/-- A change that keeps the value of an entry that is not listed is read at every key. -/
theorem getD_map_vals {α : Type} (f : α → α) {d : α} (h : f d = d) (t : Tbl α) (k : Nat) :
    Tbl.getD (t.map fun e => (e.1, f e.2)) k d = f (Tbl.getD t k d) := by
  rw [Tbl.getD, Tbl.getD, find_map_vals]
  cases Tbl.find t k with
  | none => exact h.symm
  | some v => rfl

/-! ## What syncing cells and binding groups leaves -/

/-- A region but for what its nodes and its peers change as it settles: plan entries, time slots, frontiers and spilled
records. -/
def declared (x : Region) : Region := { x with plans := [], timeSlots := [], rootF := [], spill := [] }

/-- No core's task and nothing that a load declares of a region differs. -/
structure SameGraph (w v : Work) : Prop where
  tasks : ∀ g, (v.core g).task = (w.core g).task
  regions : ∀ r, declared (v.region r) = declared (w.region r)

theorem SameGraph.refl (w : Work) : SameGraph w w := ⟨fun _ => rfl, fun _ => rfl⟩

theorem SameGraph.trans {a b c : Work} (h : SameGraph a b) (k : SameGraph b c) : SameGraph a c :=
  ⟨fun g => (k.tasks g).trans (h.tasks g), fun r => (k.regions r).trans (h.regions r)⟩

/-- Changes in turn that each keep tasks and declarations keep them together. -/
theorem SameGraph.foldl {α : Type} {f : Work → α → Work} (h : ∀ v a, SameGraph v (f v a)) :
    ∀ (l : List α) (w : Work), SameGraph w (l.foldl f w)
  | [], w => .refl w
  | a :: l, w => (h w a).trans (SameGraph.foldl h l (f w a))

theorem sameGraph_of_keeps {w v : Work} (h : Keeps w v) : SameGraph w v where
  tasks g := by
    obtain ⟨_, _, _, e⟩ := h.cores g
    rw [e]
  regions r := by rw [Work.region, Work.region, h.regions]

theorem sameGraph_setCell (w : Work) (n : Nat) (c : Cell) : SameGraph w (w.setCell n c) := ⟨fun _ => rfl, fun _ => rfl⟩

theorem sameGraph_setGrove (w : Work) (g : Nat) (x : Grove) : SameGraph w (w.setGrove g x) := ⟨fun _ => rfl, fun _ => rfl⟩

theorem sameGraph_setMx (w : Work) (g : Nat) (x : Mx) : SameGraph w (w.setMx g x) := ⟨fun _ => rfl, fun _ => rfl⟩

theorem sameGraph_store (w : Work) (a : Nat) (bs : List Byte) : SameGraph w (w.store a bs) := ⟨fun _ => rfl, fun _ => rfl⟩

theorem sameGraph_sendOut (w : Work) (x : Msg) : SameGraph w (w.sendOut x) := ⟨fun _ => rfl, fun _ => rfl⟩

theorem sameGraph_updCore (w : Work) (g : Nat) {f : Core → Core} (h : ∀ c, (f c).task = c.task := by intros; rfl) :
    SameGraph w (w.updCore g f) where
  tasks k := by
    rw [updCore_eq, core_setCore]
    split
    · next e => rw [h, e]
    · rfl
  regions _ := rfl

theorem sameGraph_updRegion (w : Work) (r : Nat) {f : Region → Region}
    (h : ∀ x, declared (f x) = declared x := by intros; rfl) :
    SameGraph w (w.updRegion r f) where
  tasks _ := rfl
  regions k := by
    by_cases e : r = k
    · rw [← e, updRegion_eq, setRegion_same, h]
    · rw [updRegion_eq, setRegion_other _ _ e]

theorem sameGraph_count (w : Work) (g : Nat) (item : Option (Nat × Nat)) (up : Bool) : SameGraph w (w.count g item up) := by
  cases item with
  | none => exact .refl w
  | some i => exact sameGraph_setGrove w g _

/-- Waking a region's records changes records alone: those in slots, and those spilled with their bytes. -/
theorem sameGraph_mapRecs (w : Work) (r : Nat) (p : Record → Bool) (f : Record → Record) : SameGraph w (w.mapRecs r p f) := by
  refine (SameGraph.foldl (fun v g => sameGraph_updCore v g) _ w).trans (SameGraph.foldl (fun v e => ?_) _ _)
  split
  · exact .refl v
  · refine SameGraph.trans ?_ (sameGraph_updRegion _ r)
    split
    · exact .refl v
    · exact sameGraph_of_keeps (keeps_pstore _ _ v)

theorem sameGraph_wakeHandle (w : Work) (g h : Nat) : SameGraph w (w.wakeHandle g h) := by
  unfold Work.wakeHandle Work.wakeKind
  exact sameGraph_mapRecs w _ _ _

theorem sameGraph_postSlot (w : Work) (g h s : Nat) : SameGraph w (w.postSlot g h s) :=
  (sameGraph_setGrove w g _).trans (sameGraph_wakeHandle _ g h)

theorem sameGraph_slotFor (w : Work) (r s : Nat) (u : Word) (cause : Option (Nat × Nat)) :
    SameGraph w (w.slotFor r s u cause).2 := by
  unfold Work.slotFor
  split
  · exact .refl w
  · split
    · dsimp only
      exact sameGraph_updRegion w r
    · exact .refl w

theorem sameGraph_openSource (w : Work) (mc key : Nat) (r : NRec) : SameGraph w (w.openSource mc key r) :=
  ((sameGraph_slotFor w _ _ _ _).trans (sameGraph_count _ _ _ _)).trans (sameGraph_setCell _ mc _)

theorem sameGraph_sendBinds (w : Work) (ps : List Plan) : SameGraph w (w.sendBinds ps) :=
  SameGraph.foldl (fun v p => by
    split
    · exact sameGraph_sendOut v _
    · exact .refl v) ps w

/-- A region with the groups bound that may be (R342). -/
def boundRegion (w : Work) (x : Region) : Region :=
  { x with plans := if x.halted then x.plans else x.plans.map fun p =>
      if !p.bound && w.mayBind p.entry then { p with bound := true, lost := false, held := false, credit := 512 } else p }

theorem bindPlans_region (w : Work) (r : Nat) : w.bindPlans.region r = boundRegion w (w.region r) :=
  getD_map_vals (boundRegion w) rfl w.regions r

theorem sameGraph_bindPlans (w : Work) : SameGraph w w.bindPlans where
  tasks _ := rfl
  regions r := by
    rw [bindPlans_region]
    rfl

theorem sameGraph_useLink (w : Work) (mc node i : Nat) : SameGraph w (w.useLink mc node i) := by
  unfold Work.useLink
  dsimp only
  split
  · exact .refl w
  · split
    · exact .refl w
    · split
      · exact ((sameGraph_updRegion w _).trans (sameGraph_sendBinds _ _)).trans (sameGraph_bindPlans _)
      · exact sameGraph_updRegion w _

/-- What nodes of a cell keep is no part of what a load declares. -/
theorem sameGraph_syncCell (w : Work) (mc : Nat) : SameGraph w (w.syncCell mc) := by
  refine ((SameGraph.foldl (fun v e => ?_) _ w).trans (SameGraph.foldl (fun v e => ?_) _ _)).trans
    ((SameGraph.foldl (fun v e => sameGraph_useLink v mc _ _) _ _).trans
      (SameGraph.foldl (fun v e => sameGraph_openSource v mc _ _) _ _))
  · refine SameGraph.trans ?_ (sameGraph_setCell _ mc _)
    split
    · exact sameGraph_count v _ _ _
    · exact .refl v
  · refine SameGraph.trans (SameGraph.trans ?_ (SameGraph.foldl (fun u i => sameGraph_count u _ _ _) _ _)) (sameGraph_setCell _ mc _)
    split
    · exact sameGraph_postSlot v _ _ _
    · exact .refl v

theorem sameGraph_recompute (w : Work) (r k : Nat) : SameGraph w (w.recompute r k) := by
  unfold Work.recompute
  dsimp only
  exact sameGraph_updRegion w r

theorem sameGraph_seedCopies (w : Work) (r : Nat) : SameGraph w (w.seedCopies r) :=
  (SameGraph.foldl (fun v g => sameGraph_updCore v g) _ w).trans
    (SameGraph.foldl (fun v mc => sameGraph_setCell v mc _) _ _)

theorem sameGraph_setTile (w : Work) (p id : Nat) (e : Word × Word) : SameGraph w (w.setTile (.after p) id e) :=
  sameGraph_of_keeps ((keeps_pstore _ _ w).trans (keeps_writeTime _ _ _))

theorem sameGraph_zeroRange (w : Work) (lo n : Nat) : SameGraph w (w.zeroRange lo n) :=
  SameGraph.foldl (fun v a => sameGraph_store v a _) _ w

theorem sameGraph_fillGrove (w : Work) (t : CellTable) (img : Image) (g : Nat) : SameGraph w (w.fillGrove t img g) :=
  (((sameGraph_zeroRange w _ _).trans (sameGraph_store _ _ _)).trans (sameGraph_setMx _ g _)).trans
    ((sameGraph_updCore _ g).trans (sameGraph_setGrove _ g _))

/-! ## Groves emptied (R18) -/

/-- A grove's core is left with no task, and every other core's task stands. -/
theorem emptyGrove_task (w : Work) (g gidx asid k : Nat) (r : Option Nat) :
    ((w.emptyGrove g r gidx asid).core k).task = if g = k then none else (w.core k).task := by
  have h : SameGraph ((w.updGrove g fun x => x.blank r gidx).updCore g fun c => c.blank asid) (w.emptyGrove g r gidx asid) :=
    ((sameGraph_setMx _ g _).trans (sameGraph_zeroRange _ _ _)).trans
      (SameGraph.foldl (fun v i => sameGraph_setCell v (16 * g + i) _) _ _)
  rw [h.tasks, updCore_eq, core_setCore]
  split <;> rfl

/-- A core that has no task, or whose grove is among those that are emptied, has none after. -/
theorem emptyGroves_idle {r : Option Nat} {asid g : Nat} : ∀ (es : Tbl (Nat × Nat × Nat)) (w : Work),
    (w.core g).task = none ∨ g ∈ es.map (fun e => e.2.1) →
      ((es.foldl (fun v e => v.emptyGrove e.2.1 r e.1 asid) w).core g).task = none
  | [], w, h => by simpa using h
  | e :: es, w, h => by
    refine emptyGroves_idle es _ ?_
    rw [emptyGrove_task]
    by_cases i : e.2.1 = g
    · exact .inl (if_pos i)
    · rw [if_neg i]
      simpa [Ne.symm i] using h

/-- A region's new groves run no task (R18). -/
theorem takeGroves_idle (w : Work) (r : Nat) (t : CellTable) {g : Nat} (h : g ∈ (Tbl.vals t.groves).map fun e => e.1) :
    ((w.takeGroves r t).core g).task = none :=
  emptyGroves_idle t.groves _ (.inr (by rwa [Tbl.vals, List.map_map] at h))

/-! ## A graph load (R20) -/

variable {s : State} {r : Nat} {img : Image} {b : CellTable}

/-- An image that is refused before its records are looked at. -/
def Unfit (s : State) (r : Nat) (img : Image) (b : CellTable) : Prop :=
  320 ≤ r ∨ s.mod.bootErr = true ∨ Image.plainOk img b = false ∨ Image.timesOk img = false ∨ Image.historiesOk img = false ∨
    (Work.of s).planOk r img = false ∨ b.gladesOk img = false ∨ (Work.of s).tilesOk r img = false

/-- The region's groves and cells filled, and the region as its image declares it. -/
def declaredLoad (w : Work) (r : Nat) (img : Image) (b : CellTable) (cs : Tbl Cell) : Work :=
  (cs.foldl (fun v e => v.setCell e.1 e.2)
    (((Tbl.vals b.groves).map fun e => e.1).foldl (fun v g => v.fillGrove b img g) (w.takeGroves r b))).setRegion r
      (w.imageRegion r img b)

/-- A declared region settled: tiles, what nodes keep, frontiers and their copies, and bound groups. -/
def settledLoad (w : Work) (r : Nat) (img : Image) (x : Region) (cs : Tbl Cell) : Work :=
  ((((Tbl.keys x.shapes).foldl (fun v k => v.recompute r k)
    ((Tbl.keys cs).foldl (fun v mc => v.syncCell mc)
      (img.tiles.foldl (fun v e => v.setTile (.after 0) e.id (v.tileEntry r e)) w))).seedCopies r).sendBinds x.plans).bindPlans

/-- Steps whose works are equal answer the same state. -/
theorem next_congr {w v : Work} (e : w = v) : (.next (s.finish w) : Out) = .next (s.finish v) := by rw [e]

theorem graphLoad_noTable (h : (Work.of s).readTable r = none) :
    exec (.graphLoad r img) s = .next (s.finish ((Work.of s).rejectLoad r)) := by
  change execGraphLoad r img s = _
  simp only [execGraphLoad, run, State.via, h]

theorem graphLoad_unfit (h : (Work.of s).readTable r = some b) (u : Unfit s r img b) :
    exec (.graphLoad r img) s = .next (s.finish ((Work.of s).rejectLoad r)) := by
  change execGraphLoad r img s = _
  simp only [execGraphLoad, run, State.via, h]
  exact next_congr (if_pos u)

theorem graphLoad_noCells (h : (Work.of s).readTable r = some b)
    (c : (Work.of s).imageCells ((Work.of s).imageRegion r img b) img b.cells = none) :
    exec (.graphLoad r img) s = .next (s.finish ((Work.of s).rejectLoad r)) := by
  by_cases u : Unfit s r img b
  · exact graphLoad_unfit h u
  · change execGraphLoad r img s = _
    simp only [execGraphLoad, run, State.via, h, c]
    exact next_congr (if_neg u)

theorem graphLoad_accepted {cs : Tbl Cell} (h : (Work.of s).readTable r = some b) (u : ¬ Unfit s r img b)
    (c : (Work.of s).imageCells ((Work.of s).imageRegion r img b) img b.cells = some cs) :
    exec (.graphLoad r img) s = .next (s.finish
      (settledLoad (declaredLoad (Work.of s) r img b cs) r img ((Work.of s).imageRegion r img b) cs)) := by
  change execGraphLoad r img s = _
  simp only [execGraphLoad, run, State.via, h, c]
  exact next_congr (if_neg u)

/-- A load that is rejected is reported to the host, and changes nothing (log entry 85). -/
theorem idle_of_rejectLoad (e : exec (.graphLoad r img) s = .next (s.finish ((Work.of s).rejectLoad r))) :
    Idle s (.graphLoad r img) ∧
      ∃ t, exec (.graphLoad r img) s = .next t ∧ t.outbox = s.outbox ++ [.loadReport r 0x05] :=
  ⟨⟨_, e, rfl, rfl, rfl, rfl, rfl, rfl, rfl⟩, _, e, rfl⟩

theorem declaredLoad_region (w : Work) (r : Nat) (img : Image) (b : CellTable) (cs : Tbl Cell) :
    (declaredLoad w r img b cs).region r = w.imageRegion r img b := setRegion_same _ _ _

theorem declaredLoad_idle (w : Work) (r : Nat) (img : Image) (b : CellTable) (cs : Tbl Cell) {g : Nat}
    (h : g ∈ (Tbl.vals b.groves).map fun e => e.1) : ((declaredLoad w r img b cs).core g).task = none := by
  rw [declaredLoad, setRegion_core]
  have k := (SameGraph.foldl (fun v g => sameGraph_fillGrove v b img g) ((Tbl.vals b.groves).map fun e => e.1) (w.takeGroves r b)).trans
    (SameGraph.foldl (fun v (e : Nat × Cell) => sameGraph_setCell v e.1 e.2) cs _)
  rw [k.tasks, takeGroves_idle w r b h]

theorem sameGraph_settledLoad (w : Work) (r : Nat) (img : Image) (x : Region) (cs : Tbl Cell) :
    SameGraph w (settledLoad w r img x cs) :=
  ((((SameGraph.foldl (fun v _ => sameGraph_setTile v _ _ _) _ w).trans (SameGraph.foldl sameGraph_syncCell _ _)).trans
    (SameGraph.foldl (fun v k => sameGraph_recompute v r k) _ _)).trans (sameGraph_seedCopies _ r)).trans
      ((sameGraph_sendBinds _ _).trans (sameGraph_bindPlans _))

/-- A load that is accepted leaves the region as its image declares it, and its groves with no task (R18, R20). -/
theorem graphLoad_declares {cs : Tbl Cell} (h : (Work.of s).readTable r = some b) (u : ¬ Unfit s r img b)
    (c : (Work.of s).imageCells ((Work.of s).imageRegion r img b) img b.cells = some cs) :
    ∃ t, exec (.graphLoad r img) s = .next t ∧
      declared (regionOf t r) = declared ((Work.of s).imageRegion r img b) ∧
      ∀ g ∈ (Tbl.vals b.groves).map (fun e => e.1), (coreOf t g).task = none := by
  have k := sameGraph_settledLoad (declaredLoad (Work.of s) r img b cs) r img ((Work.of s).imageRegion r img b) cs
  refine ⟨_, graphLoad_accepted h u c, (k.regions r).trans ?_, fun g m => (k.tasks g).trans (declaredLoad_idle _ _ _ _ _ m)⟩
  rw [declaredLoad_region]

end Sys2Proof.Proofs
end

section
/-! The clock, wear, program times and their rebase, and the statement about the module's events (R194, R195, R428, R429). -/

namespace Sys2Proof.Proofs

open Sys2Proof.Machine Sys2Proof.Safety Sys2Proof.Laws

variable {s : State}

/-- An event that answers the state itself changes nothing. -/
theorem idle_of_next {i : Instr} (e : exec i s = .next s) : Idle s i := ⟨s, e, rfl, rfl, rfl, rfl, rfl, rfl, rfl⟩

/-! ## Wear (R429) -/

/-- The wear of the first groves' own oscillators: their two bytes, and nothing else. -/
theorem foldl_ownWear_groves (n m : Nat) (w : Work) :
    ∃ gs, (List.range m).foldl (fun v g => v.ownWear n g) w = { w with groves := gs } := by
  induction m with
  | zero => exact ⟨_, rfl⟩
  | succ m ih =>
    obtain ⟨gs, e⟩ := ih
    rw [List.range_succ, List.foldl_append, e]
    exact ⟨_, rfl⟩

theorem foldl_ownWear_grove (n m : Nat) (w : Work) (k : Nat) :
    ((List.range m).foldl (fun v g => v.ownWear n g) w).grove k = if k < m then { w.grove k with
      ownOsc := (Config.wearOwn n k false).toNat, ownPct := (Config.wearOwn n k true).toNat } else w.grove k := by
  induction m with
  | zero => rfl
  | succ m ih =>
    rw [List.range_succ, List.foldl_append, List.foldl_cons, List.foldl_nil, Work.ownWear, updGrove_eq, grove_setGrove]
    by_cases h : m = k
    · subst h
      simp [ih]
    · rw [if_neg h, ih]
      simp only [show k < m + 1 ↔ k < m by omega]

/-- Within a period nothing comes of wear (R429). -/
theorem wearUpdate_early {d : BitVec 16} {g : BitVec 9} {p : BitVec 8} (h : s.mod.cycle / 2 ^ 32 ≤ s.mod.wearAt) :
    exec (.wearUpdate d g p) s = .next s := next_congr (v := Work.of s) (if_pos h)

theorem wearUpdate_due {d : BitVec 16} {g : BitVec 9} {p : BitVec 8} (h : s.mod.wearAt < s.mod.cycle / 2 ^ 32) :
    exec (.wearUpdate d g p) s = .next (s.finish
      (((List.range 320).foldl (fun v k => v.ownWear (s.mod.cycle / 2 ^ 32) k) (Work.of s)).updMod fun m =>
        { m with
          eolDays := d.toNat, wgrove := g.toNat, wpct := p.toNat, wearAt := s.mod.cycle / 2 ^ 32
          herr := if d.toNat < 30 then m.herr ||| 2 else m.herr })) :=
  next_congr (if_neg (not_le.2 h))

/-- After a period the forecast comes whole, and with it the groves' own wear (R429; log entry 12). -/
theorem wearUpdate_shows {d : BitVec 16} {g : BitVec 9} {p : BitVec 8} (h : s.mod.wearAt < s.mod.cycle / 2 ^ 32) :
    ∃ t, exec (.wearUpdate d g p) s = .next t ∧ t.mem = s.mem ∧ t.cores = s.cores ∧ t.cells = s.cells ∧
      t.regions = s.regions ∧ t.mxs = s.mxs ∧
      (∀ k < 320, groveOf t k = { groveOf s k with
        ownOsc := (Config.wearOwn (s.mod.cycle / 2 ^ 32) k false).toNat
        ownPct := (Config.wearOwn (s.mod.cycle / 2 ^ 32) k true).toNat }) ∧
      t.mod = { s.mod with
        eolDays := d.toNat, wgrove := g.toNat, wpct := p.toNat, wearAt := s.mod.cycle / 2 ^ 32
        herr := if d.toNat < 30 then s.mod.herr ||| 2 else s.mod.herr } := by
  have e := wearUpdate_due (d := d) (g := g) (p := p) h
  have own := foldl_ownWear_grove (s.mod.cycle / 2 ^ 32) 320 (Work.of s)
  obtain ⟨gs, f⟩ := foldl_ownWear_groves (s.mod.cycle / 2 ^ 32) 320 (Work.of s)
  rw [f] at e own
  exact ⟨_, e, rfl, rfl, rfl, rfl, rfl, fun k hk => (own k).trans (if_pos hk), rfl⟩

/-! ## Program times (R194, R195) -/

/-- A core that runs a task raises its program time by 1, and the module's greatest time follows it (R194). -/
theorem programTimeAdvance_raises {g : Nat} (h : (coreOf s g).task ≠ none) :
    ∃ t, exec (.programTimeAdvance g) s = .next t ∧
      coreOf t g = { coreOf s g with ptime := (coreOf s g).ptime + 1 } ∧ t.mem = s.mem ∧ t.cells = s.cells ∧
      t.regions = s.regions ∧ (∀ k, k ≠ g → coreOf t k = coreOf s k) ∧
      t.mod = { s.mod with maxTime := max s.mod.maxTime ((coreOf s g).ptime + 1) } := by
  have e : exec (.programTimeAdvance g) s =
      .next (s.finish ((Work.of s).setPtime (.core g) ((coreOf s g).ptime + 1))) :=
    next_congr (if_pos (Option.isSome_iff_ne_none.2 h))
  exact ⟨_, e, setCore_same _ g _, rfl, rfl, rfl, fun k n => setCore_other _ _ n.symm, rfl⟩

theorem rebaseDue_iff (m : Mod) : m.rebaseDue = true ↔ 2 ^ 48 - 2 ^ 33 ≤ m.maxTime := by
  rw [Mod.rebaseDue, decide_eq_true_iff]

/-- A rebase lowers a core's program time, raised first to the amount (R195; log entry 27). -/
theorem rebase_ptime (c : Core) : c.rebase.ptime = c.ptime - 2 ^ 47 := by
  change max c.ptime (2 ^ 47) - 2 ^ 47 = _
  omega

theorem rebase_regs (c : Core) : c.rebase.regs = c.regs := by rw [Core.rebase]

theorem timeRebase_early (h : s.mod.maxTime < 2 ^ 48 - 2 ^ 33) : exec .timeRebase s = .next s :=
  next_congr (v := Work.of s) (if_neg (mt (rebaseDue_iff _).1 (not_le.2 h)))

/-- Every time is lowered by one amount (R195; log entry 27). -/
theorem timeRebase_lowers (h : 2 ^ 48 - 2 ^ 33 ≤ s.mod.maxTime) :
    ∃ t, exec .timeRebase s = .next t ∧ t.mem = s.mem ∧ t.mod.maxTime = s.mod.maxTime - 2 ^ 47 ∧
      (∀ g, coreOf t g = (coreOf s g).rebase) ∧
      ∀ l, Tbl.getD t.mod.homeTimes l 0 = Tbl.getD s.mod.homeTimes l 0 - 2 ^ 47 := by
  have e : ∃ t, exec .timeRebase s = .next t ∧ t.mem = s.mem ∧ t.mod.maxTime = s.mod.maxTime - 2 ^ 47 ∧
      t.cores = s.cores.map (fun c => (c.1, c.2.rebase)) ∧
      t.mod.homeTimes = s.mod.homeTimes.map fun x => (x.1, x.2 - 2 ^ 47) :=
    ⟨_, next_congr (if_pos ((rebaseDue_iff _).2 h)), rfl, rfl, rfl, rfl⟩
  obtain ⟨t, x, mem, mt, cores, homes⟩ := e
  refine ⟨t, x, mem, mt, fun g => ?_, fun l => ?_⟩
  · rw [coreOf, Work.core, of_cores, cores]
    exact getD_map_vals Core.rebase rfl s.cores g
  · rw [homes]
    exact getD_map_vals (fun x => x - 2 ^ 47) rfl s.mod.homeTimes l

/-! ## The statement -/

/-- The clock's registers show what comes (R428). -/
theorem throttleChange_shows (a b c : Bool) (x : BitVec 16) : ModuleOnly s (.throttleChange a b c x)
    { s.mod with clk := BitVec.ofNat 64 (max 0x2000 (min 0x8000 x.toNat) + (if c then 2 ^ 16 else 0) +
      (if b then 2 ^ 17 else 0) + if a then 2 ^ 18 else 0) } :=
  ⟨_, rfl, rfl, rfl, rfl, rfl, rfl, rfl, rfl⟩

/-- Settles O55, clause by clause: graph loads rejected and accepted, the clock and wear, program times, and their rebase. -/
theorem moduleEvents : Obligations.ModuleEvents := by
  refine ⟨fun s r img => ⟨fun h => ?_, fun b t h => ?_, fun b cs t lt boot plain times hist plan glades tiles c => ?_⟩,
    fun s a b c x d g p => ⟨throttleChange_shows a b c x, fun h => idle_of_next (wearUpdate_early h), wearUpdate_shows⟩,
    fun s g h => programTimeAdvance_raises h, fun s => ⟨fun h => idle_of_next (timeRebase_early h), fun h => ?_⟩⟩
  · cases t : (Work.of s).readTable r with
    | none => exact idle_of_rejectLoad (graphLoad_noTable t)
    | some b =>
      rcases h with n | lt | boot
      · rw [n] at t
        cases t
      · exact idle_of_rejectLoad (graphLoad_unfit t (.inl lt))
      · exact idle_of_rejectLoad (graphLoad_unfit t (.inr (.inl boot)))
  · rcases h with h | h | h | h | h | h | h
    case inr.inr.inr.inr.inr.inr => exact idle_of_rejectLoad (graphLoad_noCells t h)
    all_goals exact idle_of_rejectLoad (graphLoad_unfit t (by simp [Unfit, h]))
  · have fit : ¬ Unfit s r img b := by
      simp [Unfit, boot, plain, times, hist, plan, glades, tiles]
      omega
    obtain ⟨t, e, x, idle⟩ := graphLoad_declares t fit c
    exact ⟨t, e, (congrArg Region.loaded x :), (congrArg Region.gid x :), (congrArg Region.table x :), (congrArg Region.frozen x :),
      (congrArg Region.running x :), (congrArg Region.launchQ x :), (congrArg Region.heldN x :), (congrArg Region.nextFseq x :),
      (congrArg Region.rasid x :), idle⟩
  · obtain ⟨t, e, mem, max, cores, homes⟩ := timeRebase_lowers h
    refine ⟨t, e, mem, max, fun g => ?_, homes⟩
    rw [cores g]
    exact ⟨rebase_ptime _, rebase_regs _⟩

end Sys2Proof.Proofs
end

section
/-! Decoding and encoding are each the other's inverse (R65, R78, R80). A word is the packing of its fields, so a word that
decodes is packed from what the decoder read of it. -/

namespace Sys2Proof.Proofs

open Sys2Proof.Laws

/-! ## A word is the packing of its fields (R65) -/

theorem packA_fields (w : Code) : packA (fMajor w) (fD w) (fA w) (fB w) (fSub w) (fT w) (fG w) = w := by
  ext i h
  interval_cases i <;> simp [packA, fMajor, fD, fA, fB, fSub, fT, fG]

theorem packF_fields (w : Code) : packF (fMajor w) (fD w) (fA w) (fB w) (fSub w) (fCode w) (fLow w) = w := by
  ext i h
  interval_cases i <;> simp [packF, fMajor, fD, fA, fB, fSub, fCode, fLow]

theorem packI_fields (w : Code) : packI (fMajor w) (fD w) (fA w) (fImm w) = w := by
  ext i h
  interval_cases i <;> simp [packI, fMajor, fD, fA, fImm]

theorem packB_fields (w : Code) : packB (fMajor w) (fD w) (fCond w) (fDisp w) = w := by
  ext i h
  interval_cases i <;> simp [packB, fMajor, fD, fCond, fDisp]

theorem packM_fields (w : Code) : packM (fMajor w) (fD w) (fA w) (fB w) (fSize w) (fOff w) = w := by
  ext i h
  interval_cases i <;> simp [packM, fMajor, fD, fA, fB, fSize, fOff]

theorem packE_fields (w : Code) : packE (fMajor w) (fD w) (fA w) (fB w) (fCtx w) (fOp w) = w := by
  ext i h
  interval_cases i <;> simp [packE, fMajor, fD, fA, fB, fCtx, fOp]

theorem packX_fields (w : Code) : packX (fMajor w) (fTag w) (fSeq w) (fKdep w) (fAfmt w) (fRows w) = w := by
  ext i h
  interval_cases i <;> simp [packX, fMajor, fTag, fSeq, fKdep, fAfmt, fRows]

section
variable {w : Code} {m : BitVec 6} {d a b u : BitVec 5}

@[simp] theorem packA_eq_iff {t g : BitVec 3} : packA m d a b u t g = w ↔
    (fMajor w).toNat = m.toNat ∧ fD w = d ∧ fA w = a ∧ fB w = b ∧ (fSub w).toNat = u.toNat ∧ fT w = t ∧ fG w = g := by
  simp only [BitVec.toNat_inj]
  exact ⟨by rintro rfl; simp, by rintro ⟨rfl, rfl, rfl, rfl, rfl, rfl, rfl⟩; exact packA_fields w⟩

@[simp] theorem packF_eq_iff {c : BitVec 4} {l : BitVec 2} : packF m d a b u c l = w ↔
    (fMajor w).toNat = m.toNat ∧ fD w = d ∧ fA w = a ∧ fB w = b ∧ (fSub w).toNat = u.toNat ∧ fCode w = c ∧ fLow w = l := by
  simp only [BitVec.toNat_inj]
  exact ⟨by rintro rfl; simp, by rintro ⟨rfl, rfl, rfl, rfl, rfl, rfl, rfl⟩; exact packF_fields w⟩

@[simp] theorem packI_eq_iff {i : BitVec 16} : packI m d a i = w ↔
    (fMajor w).toNat = m.toNat ∧ fD w = d ∧ fA w = a ∧ fImm w = i := by
  simp only [BitVec.toNat_inj]
  exact ⟨by rintro rfl; simp, by rintro ⟨rfl, rfl, rfl, rfl⟩; exact packI_fields w⟩

@[simp] theorem packB_eq_iff {k : BitVec 3} {i : BitVec 18} : packB m d k i = w ↔
    (fMajor w).toNat = m.toNat ∧ fD w = d ∧ fCond w = k ∧ fDisp w = i := by
  simp only [BitVec.toNat_inj]
  exact ⟨by rintro rfl; simp, by rintro ⟨rfl, rfl, rfl, rfl⟩; exact packB_fields w⟩

@[simp] theorem packM_eq_iff {z : BitVec 2} {o : BitVec 9} : packM m d a b z o = w ↔
    (fMajor w).toNat = m.toNat ∧ fD w = d ∧ fA w = a ∧ fB w = b ∧ fSize w = z ∧ fOff w = o := by
  simp only [BitVec.toNat_inj]
  exact ⟨by rintro rfl; simp, by rintro ⟨rfl, rfl, rfl, rfl, rfl, rfl⟩; exact packM_fields w⟩

@[simp] theorem packE_eq_iff {c : BitVec 3} {o : BitVec 8} : packE m d a b c o = w ↔
    (fMajor w).toNat = m.toNat ∧ fD w = d ∧ fA w = a ∧ fB w = b ∧ fCtx w = c ∧ (fOp w).toNat = o.toNat := by
  simp only [BitVec.toNat_inj]
  exact ⟨by rintro rfl; simp, by rintro ⟨rfl, rfl, rfl, rfl, rfl, rfl⟩; exact packE_fields w⟩

@[simp] theorem packX_eq_iff {t : BitVec 6} {q : BitVec 8} {k : BitVec 4} {f : BitVec 3} {r : BitVec 5} :
    packX m t q k f r = w ↔
      (fMajor w).toNat = m.toNat ∧ fTag w = t ∧ fSeq w = q ∧ fKdep w = k ∧ fAfmt w = f ∧ fRows w = r := by
  simp only [BitVec.toNat_inj]
  exact ⟨by rintro rfl; simp, by rintro ⟨rfl, rfl, rfl, rfl, rfl, rfl⟩; exact packX_fields w⟩

end

/-- Two parts put together, told by the parts. -/
theorem eq_append_iff {n m : Nat} {x : BitVec (n + m)} {a : BitVec n} {b : BitVec m} :
    x = a ++ b ↔ x.extractLsb' m n = a ∧ x.extractLsb' 0 m = b := by
  constructor
  · rintro rfl
    exact ⟨high_part a b, low_part a b⟩
  · rintro ⟨rfl, rfl⟩
    ext i h
    simp

@[simp] theorem eq_append_1_4 {x : BitVec 5} {a : BitVec 1} {b : BitVec 4} :
    x = a ++ b ↔ x.extractLsb' 4 1 = a ∧ x.extractLsb' 0 4 = b := eq_append_iff (n := 1) (m := 4)

@[simp] theorem eq_append_10_6 {x : BitVec 16} {a : BitVec 10} {b : BitVec 6} :
    x = a ++ b ↔ x.extractLsb' 6 10 = a ∧ x.extractLsb' 0 6 = b := eq_append_iff (n := 10) (m := 6)

@[simp] theorem eq_append_3_13 {x : BitVec 16} {a : BitVec 3} {b : BitVec 13} :
    x = a ++ b ↔ x.extractLsb' 13 3 = a ∧ x.extractLsb' 0 13 = b := eq_append_iff (n := 3) (m := 13)

@[simp] theorem eq_append_1_2 {x : BitVec 3} {a : BitVec 1} {b : BitVec 2} :
    x = a ++ b ↔ x.extractLsb' 2 1 = a ∧ x.extractLsb' 0 2 = b := eq_append_iff (n := 1) (m := 2)

/-! ## An answer of the decoder and the word it answers for -/

/-- The instruction that the decoder answers, if it answers one, has the word `w`. -/
def Encodes (w : Code) (r : Except Reserved Instr) : Prop := ∀ i, r = .ok i → encode i = some w

variable {w : Code}

@[simp] theorem encodes_ok {i : Instr} : Encodes w (.ok i) ↔ encode i = some w := by simp [Encodes]

@[simp] theorem encodes_error (e : Reserved) : Encodes w (.error e) := by simp [Encodes]

@[simp] theorem encodes_ite {p : Prop} [Decidable p] {a b : Except Reserved Instr} :
    Encodes w (if p then a else b) ↔ (p → Encodes w a) ∧ (¬ p → Encodes w b) := by
  split <;> simp_all

theorem encodes_decodeSys (m : (fMajor w).toNat = 0x0) : Encodes w (decodeSys w) := by
  unfold decodeSys
  split <;> simp +contextual [encode, *]

theorem encodes_decodeInt (m : (fMajor w).toNat = 0x1) : Encodes w (decodeInt w) := by
  unfold decodeInt
  split <;> simp +contextual [encode, *]

theorem encodes_decodeDiv (m : (fMajor w).toNat = 0x2) : Encodes w (decodeDiv w) := by
  unfold decodeDiv
  split <;> simp +contextual [encode, *]

theorem encodes_decodeFp (m : (fMajor w).toNat = 0x3) : Encodes w (decodeFp w) := by
  unfold decodeFp
  split <;> simp +contextual [encode, *]

theorem encodes_decodeVec (m : (fMajor w).toNat = 0x4) : Encodes w (decodeVec w) := by
  unfold decodeVec
  split <;> simp +contextual [encode, *]

theorem encodes_decodeShift (m : (fMajor w).toNat = 0x14) : Encodes w (decodeShift w) := by
  simp +contextual [decodeShift, encode, *]

theorem encodes_decodeAmo (m : (fMajor w).toNat = 0x24) : Encodes w (decodeAmo w) := by
  simp +contextual [decodeAmo, encode, *]

theorem encodes_decodeCas (m : (fMajor w).toNat = 0x25) : Encodes w (decodeCas w) := by
  unfold decodeCas
  split <;> simp +contextual [encode, *]

theorem encodes_decodeOrd (m : (fMajor w).toNat = 0x26) : Encodes w (decodeOrd w) := by
  unfold decodeOrd
  split <;> simp +contextual [encode, *]

theorem encodes_decodeTask (m : (fMajor w).toNat = 0x2a) : Encodes w (decodeTask w) := by
  unfold decodeTask
  split <;> simp +contextual [encode, *]

theorem encodes_decodeHbuf (m : (fMajor w).toNat = 0x2b) : Encodes w (decodeHbuf w) := by
  unfold decodeHbuf
  split <;> simp +contextual [encode, *]

theorem encodes_decodeEng (m : (fMajor w).toNat = 0x2c) : Encodes w (decodeEng w) := by
  unfold decodeEng
  split <;> simp +contextual [encode, *]

theorem encodes_decodeFront (m : (fMajor w).toNat = 0x2d) : Encodes w (decodeFront w) := by
  unfold decodeFront
  split <;> simp +contextual [encode, *]

theorem encodes_decodeRes (m : (fMajor w).toNat = 0x2e) : Encodes w (decodeRes w) := by
  unfold decodeRes
  split <;> simp +contextual [encode, *]

theorem encodes_decodeRem (m : (fMajor w).toNat = 0x2f) : Encodes w (decodeRem w) := by
  unfold decodeRem
  split <;> simp +contextual [encode, *]

theorem encodes_decodeMx (m : (fMajor w).toNat = 0x31) : Encodes w (decodeMx w) := by
  unfold decodeMx
  split <;> simp +contextual [encode, *]

theorem encodes_decodeCfgw (m : (fMajor w).toNat = 0x32) : Encodes w (decodeCfgw w) := by
  unfold decodeCfgw
  split <;> simp +contextual [encode, *]

/-- A major opcode is of one instruction, or has a decoder of its own. -/
theorem encodes_decode (w : Code) : Encodes w (decode w) := by
  unfold decode
  split
  all_goals simp +contextual [encode, encodes_decodeSys, encodes_decodeInt, encodes_decodeDiv, encodes_decodeFp,
    encodes_decodeVec, encodes_decodeShift, encodes_decodeAmo, encodes_decodeCas, encodes_decodeOrd, encodes_decodeTask,
    encodes_decodeHbuf, encodes_decodeEng, encodes_decodeFront, encodes_decodeRes, encodes_decodeRem, encodes_decodeMx,
    encodes_decodeCfgw, *]

/-- An instruction that has a word is the one that the word decodes to. -/
theorem decode_encode (i : Instr) : RoundTrip.Statement i := by
  cases i with
  | add => apply RoundTrip.add | sub => apply RoundTrip.sub | mul => apply RoundTrip.mul | mulh => apply RoundTrip.mulh
  | mulhu => apply RoundTrip.mulhu | and => apply RoundTrip.and | or => apply RoundTrip.or | xor => apply RoundTrip.xor
  | shl => apply RoundTrip.shl | shr => apply RoundTrip.shr | sra => apply RoundTrip.sra | min => apply RoundTrip.min
  | max => apply RoundTrip.max | minu => apply RoundTrip.minu | maxu => apply RoundTrip.maxu | cmp => apply RoundTrip.cmp
  | sel => apply RoundTrip.sel | clz => apply RoundTrip.clz | popc => apply RoundTrip.popc | sext => apply RoundTrip.sext
  | div => apply RoundTrip.div | divu => apply RoundTrip.divu | rem => apply RoundTrip.rem | remu => apply RoundTrip.remu
  | fadd => apply RoundTrip.fadd | fsub => apply RoundTrip.fsub | fmul => apply RoundTrip.fmul | ffma => apply RoundTrip.ffma
  | fmin => apply RoundTrip.fmin | fmax => apply RoundTrip.fmax | fcmp => apply RoundTrip.fcmp | fcvt => apply RoundTrip.fcvt
  | frcp => apply RoundTrip.frcp | fsqrt => apply RoundTrip.fsqrt | fexp2 => apply RoundTrip.fexp2
  | vadd => apply RoundTrip.vadd | vsub => apply RoundTrip.vsub | vmul => apply RoundTrip.vmul | vfma => apply RoundTrip.vfma
  | vmin => apply RoundTrip.vmin | vmax => apply RoundTrip.vmax | vcmp => apply RoundTrip.vcmp | vsel => apply RoundTrip.vsel
  | vcvt => apply RoundTrip.vcvt | vred => apply RoundTrip.vred | vshuf => apply RoundTrip.vshuf
  | vbcast => apply RoundTrip.vbcast | vpack => apply RoundTrip.vpack | vunpk => apply RoundTrip.vunpk
  | vexp2 => apply RoundTrip.vexp2 | vrcp => apply RoundTrip.vrcp | addi => apply RoundTrip.addi
  | andi => apply RoundTrip.andi | ori => apply RoundTrip.ori | xori => apply RoundTrip.xori | shli => apply RoundTrip.shli
  | shri => apply RoundTrip.shri | srai => apply RoundTrip.srai | cmpi => apply RoundTrip.cmpi | lih => apply RoundTrip.lih
  | br => apply RoundTrip.br | jal => apply RoundTrip.jal | jr => apply RoundTrip.jr | loop => apply RoundTrip.loop
  | exit => apply RoundTrip.exit | ld => apply RoundTrip.ld | st => apply RoundTrip.st | ldv => apply RoundTrip.ldv
  | stv => apply RoundTrip.stv | amo => apply RoundTrip.amo | cas => apply RoundTrip.cas | fence => apply RoundTrip.fence
  | waittl => apply RoundTrip.waittl | tlrd => apply RoundTrip.tlrd | send => apply RoundTrip.send
  | recv => apply RoundTrip.recv | spawn => apply RoundTrip.spawn | yield => apply RoundTrip.yield
  | yieldUntil => apply RoundTrip.yieldUntil | widf => apply RoundTrip.widf | colr => apply RoundTrip.colr
  | launch => apply RoundTrip.launch | hfill => apply RoundTrip.hfill | hfillTry => apply RoundTrip.hfillTry
  | hpost => apply RoundTrip.hpost | htake => apply RoundTrip.htake | htakeTry => apply RoundTrip.htakeTry
  | hfree => apply RoundTrip.hfree | hwait => apply RoundTrip.hwait | hstat => apply RoundTrip.hstat
  | scopy => apply RoundTrip.scopy | sfeed => apply RoundTrip.sfeed | sdrain => apply RoundTrip.sdrain
  | smcast => apply RoundTrip.smcast | sgath => apply RoundTrip.sgath | sscat => apply RoundTrip.sscat
  | srowc => apply RoundTrip.srowc | srowz => apply RoundTrip.srowz | scanc => apply RoundTrip.scanc
  | gsend => apply RoundTrip.gsend | frd => apply RoundTrip.frd | frdStat => apply RoundTrip.frdStat
  | frdTime => apply RoundTrip.frdTime | fwait => apply RoundTrip.fwait | fadv => apply RoundTrip.fadv
  | ahold => apply RoundTrip.ahold | arel => apply RoundTrip.arel | acmp => apply RoundTrip.acmp
  | resd => apply RoundTrip.resd | resdE0 => apply RoundTrip.resdE0 | resdE1 => apply RoundTrip.resdE1
  | resw => apply RoundTrip.resw | tilereg => apply RoundTrip.tilereg | rld => apply RoundTrip.rld
  | rldB32 => apply RoundTrip.rldB32 | rldB64 => apply RoundTrip.rldB64 | rldB128 => apply RoundTrip.rldB128
  | rldDone => apply RoundTrip.rldDone | rst => apply RoundTrip.rst | rstB32 => apply RoundTrip.rstB32
  | rstB64 => apply RoundTrip.rstB64 | rstB128 => apply RoundTrip.rstB128 | ramo => apply RoundTrip.ramo
  | grsv => apply RoundTrip.grsv | abpost => apply RoundTrip.abpost | abwait => apply RoundTrip.abwait
  | gclr => apply RoundTrip.gclr | gclrDone => apply RoundTrip.gclrDone | mma => apply RoundTrip.mma
  | mldb => apply RoundTrip.mldb | mrd => apply RoundTrip.mrd | mzero => apply RoundTrip.mzero | mscl => apply RoundTrip.mscl
  | mstat => apply RoundTrip.mstat | cfgwNode => apply RoundTrip.cfgwNode | cfgwTwig => apply RoundTrip.cfgwTwig
  | cfgwTwigMx => apply RoundTrip.cfgwTwigMx | cfgwShape => apply RoundTrip.cfgwShape | cfgwCtx => apply RoundTrip.cfgwCtx
  | trap => apply RoundTrip.trap | eret => apply RoundTrip.eret | srd => apply RoundTrip.srd | swr => apply RoundTrip.swr
  | tlbinv => apply RoundTrip.tlbinv | tlbinvAsid => apply RoundTrip.tlbinvAsid | tlbinvAll => apply RoundTrip.tlbinvAll
  | halt => apply RoundTrip.halt | haltRun => apply RoundTrip.haltRun | nop => apply RoundTrip.nop
  | freeze => apply RoundTrip.freeze | thaw => apply RoundTrip.thaw | cfgflip => apply RoundTrip.cfgflip
  | ckill => apply RoundTrip.ckill | dcapd => apply RoundTrip.dcapd | dcapr => apply RoundTrip.dcapr
  | _ => exact fun _ h => nomatch h

/-- Settles O57, each way by cases: over the instructions, and over the decoder's branches. -/
theorem roundTrip : Obligations.RoundTrip := ⟨decode_encode, encodes_decode⟩

/-- Settles O56: each word is decoded. -/
theorem decodedWords : Obligations.DecodedWords := by
  unfold Obligations.DecodedWords
  decide +kernel

end Sys2Proof.Proofs
end

section
/-! Instructions that a task core does not accept, and those that its mode does not (R80, R388). -/

namespace Sys2Proof.Proofs

open Sys2Proof.Machine Sys2Proof.Safety Sys2Proof.Laws

variable {s : State} {g : Nat}

/-- A task core's frame whose effect is a precise fault. -/
theorem coreRun_fault {f : Nat → Work → Except Stop Work} {code : Nat} {addr aux : Word} (h : OnCore s g)
    (e : f g (Work.of s) = .error (.fault code addr aux)) : run s (coreRun f) = .next (raised s g code addr aux) := by
  obtain ⟨turn, task, halted⟩ := h
  have a : ((Work.of s).core g).task ≠ none := task
  have b : ((Work.of s).core g).halted = false := halted
  simp only [run, State.via, raised, coreRun, of_turn, turn, a, b, e, false_or, Bool.false_eq_true, if_false]

/-- The frame of an instruction that task cores do not accept as it is encoded does not reach its effect (R80). -/
theorem coreInstr_unaccepted {i : Instr} (c : i.coreOk = false) (f : Nat → Work → Except Stop Work) :
    coreInstr i f = coreRun fun _ _ => .error (flt 0x01) := by
  simp only [coreInstr, c, Bool.false_eq_true, if_false]

/-- A meaning that differs between task cores and twigs, and on a core is illegal. -/
theorem illegal_of_turn {f : Work → Work} (h : OnCore s g)
    (e : ∀ w, w.turn = .core g → f w = coreRun (fun _ _ => .error (flt 0x01)) w) :
    run s f = .next (raised s g 0x01 0 0) := by
  have r : run s f = run s (coreRun fun _ _ => .error (flt 0x01)) :=
    congrArg (fun w => Host.Outcome.next (s.finish w)) (e (Work.of s) h.1)
  rw [r]
  exact coreRun_fault h rfl

/-- An instruction that task cores do not accept as it is encoded, by the shape of its meaning: a register instruction, a task
core's own, a matrix instruction, one that twigs run as well, and one that only twigs run; TRAP, EXIT and ACMP are accepted as
they are (R80). -/
theorem raises_illegal {i : Instr} (h : OnCore s g) (w : (encode i).isSome = true) (c : i.coreOk = false) :
    Raises s g i 0x01 0 := by
  cases i with
  | add | sub | mul | mulh | mulhu | and | or | xor | shl | shr | sra | min | max | minu | maxu | cmp | sel | clz | popc |
  sext | div | divu | rem | remu | fadd | fsub | fmul | ffma | fmin | fmax | fcmp | fcvt | frcp | fsqrt | fexp2 | vadd |
  vsub | vmul | vfma | vmin | vmax | vcmp | vsel | vcvt | vred | vshuf | vbcast | vpack | vunpk | vexp2 | vrcp | addi | andi
  | ori | xori | shli | shri | srai | cmpi | lih => exact alu_illegal h c
  | br | jal | jr | loop | amo | cas | fence | waittl | tlrd | recv | spawn | yield | yieldUntil | widf | colr | launch |
  hfill | hfillTry | hpost | htake | htakeTry | hfree | hwait | hstat | scopy | sfeed | sdrain | smcast | sgath | sscat |
  srowc | srowz | scanc | gsend | frd | frdStat | frdTime | fwait | fadv | ahold | arel | resd | resdE0 | resdE1 | resw |
  tilereg | rld | rldB32 | rldB64 | rldB128 | rldDone | rst | rstB32 | rstB64 | rstB128 | ramo | grsv | abpost | abwait |
  gclr | gclrDone | cfgwNode | cfgwTwig | cfgwTwigMx | cfgwShape | cfgwCtx | eret | srd | swr | tlbinv | tlbinvAsid |
  tlbinvAll | halt | haltRun | nop | freeze | thaw | cfgflip | ckill | dcapd | dcapr => exact coreInstr_illegal h c
  | mldb | mrd | mzero | mscl | mstat =>
    exact illegal_of_turn h fun w t => by simp only [mxRun, t, coreInstr_unaccepted c]
  | ld | st | send => exact illegal_of_turn h fun w t => by simp only [t, coreInstr_unaccepted c]
  | ldv | stv | mma => exact illegal_of_turn h fun w t => by simp only [t]
  | trap | exit | acmp => cases c
  | _ => cases w

/-- Supervisor mode is asked for first, and user mode is refused (R388). -/
theorem needSuper_user {α : Type} (u : ¬ Super s g) (k : Unit → Except Stop α) :
    ((Work.of s).needSuper g >>= k) = .error (.fault 0x02 0 0) := by
  have p : (Work.of s).super g = false := decide_eq_false u
  rw [Work.needSuper, p]
  rfl

theorem raises_privilege {i : Instr} (h : OnCore s g) (u : ¬ Super s g) (p : supervisorOnly i = true) (c : i.coreOk = true) :
    Raises s g i 0x02 0 := by
  cases i with
  | eret | tlbinv | tlbinvAsid | tlbinvAll | halt | haltRun | freeze | thaw | cfgflip | ckill | resw =>
    exact coreInstr_fault h c (needSuper_user u _)
  | _ => cases p

/-- Settles O8: what task cores do not accept is illegal, and what only supervisor mode runs is refused in user mode. -/
theorem illegalAndPrivilege : Obligations.IllegalAndPrivilege :=
  ⟨fun _ _ h => ⟨coreRun_fault h rfl, fun _ w c => raises_illegal h w c⟩, fun _ _ _ h u p c => raises_privilege h u p c⟩

end Sys2Proof.Proofs
end

section
/-! A step of the module runs its chosen move: what the word that an agent has reached decodes to, an event, or a firing's node
(R65, R79, R80, R113; log entry 2). -/

namespace Sys2Proof.Proofs

open Sys2Proof.Machine Sys2Proof.Safety

variable {s : State} {a : Agent}

theorem fetch_of_ok {i : Instr} (h : decode ((Work.of s).fetchWord a) = .ok i) : fetch s a = i := by
  rw [fetch, h]

theorem fetch_of_error {e : Reserved} (h : decode ((Work.of s).fetchWord a) = .error e) : fetch s a = .illegalInstruction := by
  rw [fetch, h]

/-- A core fetches the word that memory holds at its PC (R124). -/
theorem fetchWord_core (s : State) (g : Nat) : (Work.of s).fetchWord (.core g) =
    BitVec.ofNat 32 (numAt s (codeBase g + (coreOf s g).pc.toNat) 4) := rfl

/-- A twig fetches the word of its block that it has reached (R112, R113). -/
theorem fetchWord_twig {w : Work} {t : Twig} (h : w.twigAt a = some t) : w.fetchWord a = t.code.getD t.next 0 := by
  cases a with
  | core g => cases h
  | _ => simp only [Work.fetchWord, h]

theorem step_run {ms : List Move} (h : s.moves = .run a :: ms) : step s = exec (fetch s a) (s.take ms a) := by
  rw [step, h]

theorem step_event {i : Instr} {ms : List Move} (h : s.moves = .event i :: ms) : step s = exec i (s.take ms s.turn) := by
  rw [step, h]

theorem step_fire {f : Fire} {ms : List Move} (h : s.moves = .fire f :: ms) :
    step s = exec ((Work.of s).nodeStep f) (s.takeFire ms f) := by
  simp only [step, h, fireStep]

theorem step_idle (h : s.moves = []) : step s = .next (schedule s) := by
  rw [step, h]

/-- An agent's step runs what the word it fetches decodes to. -/
theorem step_decoded {ms : List Move} {i : Instr} {w : Code} (h : s.moves = .run a :: ms) (f : (Work.of s).fetchWord a = w)
    (d : decode w = .ok i) : step s = exec i (s.take ms a) := by
  subst f
  rw [step_run h, fetch_of_ok d]

theorem step_reserved {ms : List Move} {e : Reserved} {w : Code} (h : s.moves = .run a :: ms)
    (f : (Work.of s).fetchWord a = w) (d : decode w = .error e) : step s = exec .illegalInstruction (s.take ms a) := by
  subst f
  rw [step_run h, fetch_of_error d]

/-- Settles O58, by the kind of the chosen move. -/
theorem stepRunsDecoded : Obligations.StepRunsDecoded := by
  refine fun s ms => ⟨fun g h => ⟨fun i => step_decoded h (fetchWord_core s g), fun e => step_reserved h (fetchWord_core s g)⟩,
    fun c k t i h x => step_decoded h (fetchWord_twig x), fun g k t i h x => step_decoded h (fetchWord_twig x),
    fun i => step_event, fun f i n h m o => ?_, step_idle⟩
  have named : (Work.of s).nodeStep f = i := by
    replace o : nOpc (((Work.of s).cell f.cell).node f.node) = n := o
    simp only [List.mem_cons, Prod.mk.injEq, List.not_mem_nil, or_false] at m
    rcases m with m | m | m | m | m | m | m | m <;> obtain ⟨rfl, rfl⟩ := m <;> simp only [Work.nodeStep, o]
  rw [step_fire h, named]
  rfl

end Sys2Proof.Proofs
end

section
/-! Lanes of 256-bit values, and the integer operations on them (R38, R132, R133). -/

namespace Sys2Proof.Proofs

open Sys2Proof.Machine

/-- An element of packed elements (R38). -/
theorem pack_element (w : Nat) (xs : List Nat) (k : Nat) : pack w xs / 2 ^ (w * k) % 2 ^ w = xs.getD k 0 % 2 ^ w := by
  induction xs generalizing k with
  | nil => simp [pack]
  | cons x xs ih =>
    cases k with
    | zero => simp [pack]
    | succ k =>
      have shifted : (x % 2 ^ w + 2 ^ w * pack w xs) / 2 ^ w = pack w xs := by
        rw [Nat.add_mul_div_left _ _ (Nat.two_pow_pos w), Nat.div_eq_of_lt (Nat.mod_lt _ (Nat.two_pow_pos w)), zero_add]
      rw [pack, Nat.mul_succ, Nat.add_comm (w * k), pow_add, ← Nat.div_div_eq_div_mul, shifted, ih, List.getD_cons_succ]

theorem laneW_pos (t : BitVec 3) : 0 < laneW t := by
  unfold laneW
  split <;> [skip; split] <;> decide

/-- A lane of a value (R132). -/
theorem lanes_getElem? (t : BitVec 3) (x : Nat) {k : Nat} (h : k < 256 / laneW t) :
    (lanes t x)[k]? = some (x / 2 ^ (laneW t * k) % 2 ^ laneW t) := by
  have n := laneW_pos t
  have width : laneW t * k + laneW t - 1 + 1 - laneW t * k = laneW t := by omega
  simp [lanes, unpack, laneN, h, unpackAt, bits, width]

/-- A lane of an operation on the lanes of two values. -/
theorem laneMap2_lane (t : BitVec 3) (f : Nat → Nat → Nat) (x y : Nat) {k : Nat} (h : k < 256 / laneW t) :
    laneMap2 t f x y / 2 ^ (laneW t * k) % 2 ^ laneW t =
      f (x / 2 ^ (laneW t * k) % 2 ^ laneW t) (y / 2 ^ (laneW t * k) % 2 ^ laneW t) % 2 ^ laneW t := by
  rw [laneMap2, unlanes, pack_element, List.getD_eq_getElem?_getD, List.getElem?_zipWith, lanes_getElem? t x h,
    lanes_getElem? t y h]
  rfl

/-- The lane types that are no float: s32, w32 and int8 among them (R132). -/
theorem laneFloat_integer {t : BitVec 3} (h : t.toNat = 2 ∨ t.toNat = 3 ∨ t.toNat = 7) : laneFloat t = false := by
  rcases h with h | h | h <;> simp [laneFloat, h]

/-- A difference on a width, with the subtrahend added again. -/
theorem sub_add_mod {m x y : Nat} (hx : x < m) (hy : y < m) : ((x + m - y) % m + y) % m = x := by
  rw [Nat.mod_add_mod, Nat.sub_add_cancel (by omega), Nat.add_mod_right, Nat.mod_eq_of_lt hx]

/-- Settles O3: each lane of the result is the operation on the lanes. -/
theorem integerLanes : Obligations.IntegerLanes := by
  intro t x y k h hk
  have integer := laneFloat_integer h
  have below : ∀ v, v / 2 ^ (laneW t * k) % 2 ^ laneW t < 2 ^ laneW t := fun v => Nat.mod_lt _ (Nat.two_pow_pos _)
  dsimp only
  rw [laneMap2_lane t (laneAdd t) x y hk, laneMap2_lane t (laneMul t) x y hk, laneMap2_lane t (laneSub t) x y hk]
  simp only [laneAdd, laneMul, laneSub, integer, Bool.false_eq_true, if_false, Nat.mod_mod, true_and]
  exact sub_add_mod (below x) (below y)

end Sys2Proof.Proofs
end

section
/-! Operands, results and bit counts of integer instructions, as the claims say them (R125 to R128). -/

namespace Sys2Proof.Proofs

open Sys2Proof.Machine Sys2Proof.Safety Sys2Proof.Laws

variable {t : BitVec 3}

/-! ## Operands -/

/-- A number read as two's complement. -/
theorem toInt_ofNat_sgn (w n : Nat) : (BitVec.ofNat w n).toInt = sgn w n := by
  rw [BitVec.toInt_eq_toNat_cond, BitVec.toNat_ofNat, sgn]
  cases w with
  | zero => simp [Nat.mod_one]
  | succ w =>
    have half : 2 * (n % 2 ^ (w + 1)) < 2 ^ (w + 1) ↔ n % 2 ^ (w + 1) < 2 ^ w := by
      rw [pow_succ]
      omega
    simp only [half, Nat.add_sub_cancel, Nat.cast_pow, Nat.cast_ofNat]

theorem opW_eq (t : BitVec 3) : opW t = width t := rfl

theorem width_cases (t : BitVec 3) : t.toNat < 2 ∧ width t = 64 ∨ ¬ t.toNat < 2 ∧ width t = 32 := by
  unfold width
  split <;> simp_all

theorem opS_eq (t : BitVec 3) (x : Word) : opS t x = asInt t x := by
  unfold opS asInt
  rw [opW_eq]
  rcases width_cases t with ⟨h, e⟩ | ⟨h, e⟩
  · rw [if_pos h, e, ← toInt_ofNat_sgn, BitVec.ofNat_toNat, BitVec.setWidth_eq]
  · rw [if_neg h, e, ← toInt_ofNat_sgn, BitVec.ofNat_toNat]

theorem opU_eq (t : BitVec 3) (x : Word) : (opU t x : Int) = asNat t x := by
  unfold opU asNat
  rw [opW_eq]
  rcases width_cases t with ⟨h, e⟩ | ⟨h, e⟩
  · rw [if_pos h, e, Nat.mod_eq_of_lt x.isLt]
  · rw [if_neg h, e, BitVec.toNat_setWidth]

theorem opV_eq (t : BitVec 3) (x : Word) : opV t x = asTyped t x := by
  simp only [opV, opSigned, asTyped, opS_eq, opU_eq, beq_iff_eq]

/-- Signed and unsigned, a bit vector is the same number modulo 2 to its width. -/
theorem toNat_modEq_toInt {w : Nat} (x : BitVec w) : (x.toNat : Int) ≡ x.toInt [ZMOD 2 ^ w] := by
  rw [BitVec.toInt_eq_toNat_bmod]
  exact_mod_cast (Int.bmod_emod ..).symm

/-- Signed and unsigned, an operand is the same number modulo 2 to the width. -/
theorem asNat_modEq (t : BitVec 3) (x : Word) : asNat t x ≡ asInt t x [ZMOD 2 ^ width t] := by
  unfold asNat asInt
  rcases width_cases t with ⟨h, e⟩ | ⟨h, e⟩
  · rw [if_pos h, if_pos h, e]
    exact toNat_modEq_toInt x
  · rw [if_neg h, if_neg h, e]
    exact toNat_modEq_toInt (x.setWidth 32)

theorem asTyped_modEq (t : BitVec 3) (x : Word) : asTyped t x ≡ asInt t x [ZMOD 2 ^ width t] := by
  unfold asTyped
  split
  · rfl
  · exact asNat_modEq t x

/-! ## Results -/

/-- A result is a number modulo 2 to the width. -/
theorem result_congr {n m : Int} (h : n ≡ m [ZMOD 2 ^ width t]) : result t n = result t m := by
  have ofInt : ∀ w, width t = w → BitVec.ofInt w n = BitVec.ofInt w m := by
    rintro w rfl
    exact BitVec.eq_of_toNat_eq (by rw [BitVec.toNat_ofInt, BitVec.toNat_ofInt]; exact_mod_cast congrArg Int.toNat h)
  unfold result
  rcases width_cases t with ⟨h, e⟩ | ⟨h, e⟩
  · rw [if_pos h, if_pos h, ofInt 64 e]
  · rw [if_neg h, if_neg h, ofInt 32 e]

theorem extW_eq (t : BitVec 3) (n : Nat) : extW t n = result t n := by
  unfold extW result
  rw [opW_eq]
  rcases width_cases t with ⟨h, e⟩ | ⟨h, e⟩
  · rw [if_neg (by omega), if_pos h, e]
    apply BitVec.eq_of_toNat_eq
    simp [bv]
  · rw [if_neg h, e]
    split
    · simp [bv]
    · apply BitVec.eq_of_toNat_eq
      simp [bv]

theorem extI_eq (t : BitVec 3) (n : Int) : extI t n = result t n := by
  rw [extI, extW_eq, wrap, opW_eq]
  apply result_congr
  rw [Int.toNat_of_nonneg (Int.emod_nonneg _ (by positivity))]
  push_cast
  exact Int.mod_modEq _ _

/-- A result of unsigned operands that its signed ones give as well. -/
theorem extW_congr {n : Nat} {m : Int} (h : (n : Int) ≡ m [ZMOD 2 ^ width t]) : extW t n = result t m :=
  (extW_eq t n).trans (result_congr h)

/-- A word is the same number modulo 2 to the width, signed and unsigned. -/
theorem toNat_modEq (t : BitVec 3) (x : Word) : (x.toNat : Int) ≡ x.toInt [ZMOD 2 ^ width t] := by
  refine (toNat_modEq_toInt x).of_dvd ?_
  rcases width_cases t with ⟨-, e⟩ | ⟨-, e⟩ <;> norm_num [e]

theorem condInt_eq (c : BitVec 3) (x y : Int) : condInt c.toNat x y = Safety.cond c x y := by
  unfold condInt Safety.cond
  generalize c.toNat = n
  rcases n with _ | _ | _ | _ | _ | _
  case succ.zero => exact decide_not.symm
  all_goals rfl

theorem boolWord_eq (b : Bool) : boolWord b = truth b := rfl

theorem divRem_eq (sg : Bool) (t : BitVec 3) (x y : Word) : divRem sg t x y = quotRem sg t x y := by
  simp only [divRem, quotRem, opS_eq, opU_eq, opW_eq, Int.tmod_def, mul_comm]
  push_cast
  rfl

/-- The low bits sign-extended (R126). -/
theorem sextBits_eq (k : Nat) (x : Word) : sextBits k x = (x.setWidth k).signExtend 64 := by
  have signed : (x.setWidth k).toInt = sgn k x.toNat := by rw [← toInt_ofNat_sgn, BitVec.ofNat_toNat]
  apply BitVec.eq_of_toNat_eq
  rw [BitVec.signExtend, BitVec.toNat_ofInt, signed, sextBits, bv, BitVec.toNat_ofNat, wrap]
  omega

/-! ## Bit counts (R126) -/

theorem bitLen_le {n w : Nat} (h : n < 2 ^ w) : bitLen n ≤ w := by
  unfold bitLen
  split
  · omega
  · exact Nat.log2_lt ‹_› |>.2 h

/-- The zero bits above the top bit of a number of `w` bits. -/
theorem leadingZeros {n : Nat} {p : Nat → Bool} : ∀ {w : Nat}, n < 2 ^ w → (∀ i < w, p i = n.testBit i) →
    ((List.range w).takeWhile fun i => !p (w - 1 - i)).length = w - bitLen n
  | 0, _, _ => by simp
  | w + 1, h, e => by
    rw [List.range_succ_eq_map, List.takeWhile_cons, Nat.add_sub_cancel, Nat.sub_zero, e w (Nat.lt_succ_self w)]
    by_cases top : n < 2 ^ w
    · have below : (fun i => !p (w - i)) ∘ Nat.succ = fun i => !p (w - 1 - i) := by
        funext i
        rw [Function.comp, Nat.succ_eq_add_one, Nat.add_comm, Nat.sub_sub]
      have := bitLen_le top
      rw [Nat.testBit_lt_two_pow top, Bool.not_false, if_pos rfl, List.takeWhile_map, List.length_cons, List.length_map,
        below, leadingZeros top fun i hi => e i (Nat.lt_succ_of_lt hi)]
      omega
    · have len : w < bitLen n := by
        have pos : n ≠ 0 := by have := Nat.two_pow_pos w; omega
        have := (Nat.le_log2 pos).2 (not_lt.1 top)
        rw [bitLen, if_neg pos]
        omega
      rw [Nat.testBit_of_two_pow_le_and_two_pow_add_one_gt (not_lt.1 top) h, Nat.sub_eq_zero_of_le len]
      rfl

theorem ones_eq (w n : Nat) : ones w n = ((List.range w).filter fun i => n.testBit i).length := by
  induction w generalizing n with
  | zero => rfl
  | succ w ih =>
    have upper : (fun i => n.testBit i) ∘ Nat.succ = fun i => (n / 2).testBit i := funext fun i => Nat.testBit_succ n i
    rw [ones, ih, List.range_succ_eq_map, List.filter_cons, List.filter_map, upper, Nat.testBit_zero]
    rcases Nat.mod_two_eq_zero_or_one n with e | e <;> simp [e, Nat.add_comm]

theorem testBit_opU (t : BitVec 3) (x : Word) {i : Nat} (h : i < width t) : (opU t x).testBit i = x.getLsbD i := by
  rw [opU, opW_eq, Nat.testBit_mod_two_pow, decide_eq_true h, Bool.true_and, BitVec.testBit_toNat]

theorem clz_eq (t : BitVec 3) (x : Word) : opW t - bitLen (opU t x) = leading t x :=
  (leadingZeros (Nat.mod_lt _ (Nat.two_pow_pos _)) fun _ h => (testBit_opU t x h).symm).symm

theorem popc_eq (t : BitVec 3) (x : Word) : ones (opW t) (opU t x) = oneBits t x := by
  rw [opW_eq, ones_eq, oneBits]
  exact congrArg List.length (List.filter_congr fun i h => testBit_opU t x (List.mem_range.1 h))

end Sys2Proof.Proofs
end

section
/-! Register instructions: the value that each writes, on task cores and in twigs (R115, R125 to R136). -/

namespace Sys2Proof.Proofs

open Sys2Proof.Machine Sys2Proof.Safety Sys2Proof.Laws

/-- An instruction is a register instruction that reads and writes what `o` says, each source's low 64 bits. -/
def RunsScalar (i : Instr) (o : ScalarOp) : Prop :=
  ∃ f, (∀ s, exec i s = run s (alu i o.d o.srcs false f)) ∧
    ∀ v : BitVec 5 → BitVec 256, f (o.srcs.map v) = (o.f (o.srcs.map fun r => (v r).setWidth 64)).setWidth 256

section

variable {i : Instr} {d a b c : BitVec 5}

theorem runsScalar1 {f h : Word → Word} (e : ∀ s, exec i s = run s (alu i d [a] false (scalar1 f))) (k : ∀ x, f x = h x) :
    RunsScalar i ⟨d, [a], of1 h⟩ :=
  ⟨_, e, fun v => by simp only [List.map_cons, List.map_nil, scalar1, of1, k]⟩

theorem runsScalar2 {f h : Word → Word → Word} (e : ∀ s, exec i s = run s (alu i d [a, b] false (scalar2 f)))
    (k : ∀ x y, f x y = h x y) : RunsScalar i ⟨d, [a, b], of2 h⟩ :=
  ⟨_, e, fun v => by simp only [List.map_cons, List.map_nil, scalar2, of2, k]⟩

theorem runsScalar3 {f h : Word → Word → Word → Word} (e : ∀ s, exec i s = run s (alu i d [a, b, c] false (scalar3 f)))
    (k : ∀ x y z, f x y z = h x y z) : RunsScalar i ⟨d, [a, b, c], of3 h⟩ :=
  ⟨_, e, fun v => by simp only [List.map_cons, List.map_nil, scalar3, of3, k]⟩

end

/-- Integer, division and immediate instructions, each with its value. -/
theorem intOp_runs {i : Instr} {o : ScalarOp} (h : intOp i = some o) : RunsScalar i o := by
  cases i with
  | add d a b t _ =>
    cases h
    refine runsScalar2 (fun _ => rfl) fun x y => extW_congr ?_
    push_cast [opU_eq]
    exact (asNat_modEq t x).add (asNat_modEq t y)
  | sub d a b t _ =>
    cases h
    refine runsScalar2 (fun _ => rfl) fun x y => ?_
    rw [extI_eq, opV_eq, opV_eq]
    exact result_congr ((asTyped_modEq t x).sub (asTyped_modEq t y))
  | mul d a b t _ =>
    cases h
    refine runsScalar2 (fun _ => rfl) fun x y => extW_congr ?_
    push_cast [opU_eq]
    exact (asNat_modEq t x).mul (asNat_modEq t y)
  | mulh d a b t _ =>
    cases h
    exact runsScalar2 (fun _ => rfl) fun x y => by rw [extI_eq, opV_eq, opV_eq, opW_eq]; push_cast; rfl
  | mulhu d a b t _ =>
    cases h
    exact runsScalar2 (fun _ => rfl) fun x y => by rw [extI_eq, opV_eq, opU_eq, opW_eq]; push_cast; rfl
  | and d a b t _ =>
    cases h
    exact runsScalar2 (fun _ => rfl) fun x y => extW_congr (toNat_modEq t _)
  | or d a b t _ =>
    cases h
    exact runsScalar2 (fun _ => rfl) fun x y => extW_congr (toNat_modEq t _)
  | xor d a b t _ =>
    cases h
    exact runsScalar2 (fun _ => rfl) fun x y => extW_congr (toNat_modEq t _)
  | shl d a b t _ =>
    cases h
    refine runsScalar2 (fun _ => rfl) fun x y => extW_congr ?_
    push_cast [opU_eq]
    exact (asNat_modEq t x).mul_right _
  | shr d a b t _ =>
    cases h
    exact runsScalar2 (fun _ => rfl) fun x y => by rw [extW_eq]; push_cast [opU_eq]; rfl
  | sra d a b t _ =>
    cases h
    exact runsScalar2 (fun _ => rfl) fun x y => by rw [extI_eq, opS_eq]; push_cast; rfl
  | min d a b t _ =>
    cases h
    exact runsScalar2 (fun _ => rfl) fun x y => by rw [extI_eq, opS_eq, opS_eq, min_def]
  | max d a b t _ =>
    cases h
    exact runsScalar2 (fun _ => rfl) fun x y => by rw [extI_eq, opS_eq, opS_eq, max_def]
  | minu d a b t _ =>
    cases h
    exact runsScalar2 (fun _ => rfl) fun x y => by rw [extW_eq, ← min_def]; push_cast [opU_eq]; rfl
  | maxu d a b t _ =>
    cases h
    exact runsScalar2 (fun _ => rfl) fun x y => by rw [extW_eq, ← max_def]; push_cast [opU_eq]; rfl
  | cmp d a b t c =>
    cases h
    exact runsScalar2 (fun _ => rfl) fun x y => by rw [condInt_eq, opV_eq, opV_eq, boolWord_eq]
  | sel d a b t _ =>
    cases h
    refine runsScalar3 (fun _ => rfl) fun x y z => extW_congr ?_
    split
    · exact opU_eq t x ▸ asNat_modEq t x
    · exact opU_eq t y ▸ asNat_modEq t y
  | clz d a t _ =>
    cases h
    exact runsScalar1 (fun _ => rfl) fun x => congrArg _ (clz_eq t x)
  | popc d a t _ =>
    cases h
    exact runsScalar1 (fun _ => rfl) fun x => congrArg _ (popc_eq t x)
  | sext d a b _ =>
    cases h
    exact runsScalar1 (fun _ => rfl) fun x => sextBits_eq _ x
  | div d a b t =>
    cases h
    exact runsScalar2 (fun _ => rfl) fun x y => by rw [extI_eq, divRem_eq]; rfl
  | divu d a b t =>
    cases h
    exact runsScalar2 (fun _ => rfl) fun x y => by rw [extI_eq, divRem_eq]
  | rem d a b t =>
    cases h
    exact runsScalar2 (fun _ => rfl) fun x y => by rw [extI_eq, divRem_eq]; rfl
  | remu d a b t =>
    cases h
    exact runsScalar2 (fun _ => rfl) fun x y => by rw [extI_eq, divRem_eq]
  | addi | andi | ori | xori | lih | shli | shri | srai =>
    cases h
    exact runsScalar1 (fun _ => rfl) fun _ => rfl
  | cmpi d a c i =>
    cases h
    exact runsScalar1 (fun _ => rfl) fun x => by rw [condInt_eq, boolWord_eq]
  | _ => cases h

/-- Scalar floating-point instructions: the model's values are those of the claim. -/
theorem fpOp_runs {i : Instr} {o : ScalarOp} (h : fpOp i = some o) : RunsScalar i o := by
  cases i with
  | fadd | fsub | fmul | fmin | fmax | fcmp =>
    cases h
    exact runsScalar2 (fun _ => rfl) fun _ _ => rfl
  | ffma =>
    cases h
    exact runsScalar3 (fun _ => rfl) fun _ _ _ => rfl
  | fcvt | frcp | fsqrt | fexp2 =>
    cases h
    exact runsScalar1 (fun _ => rfl) fun _ => rfl
  | _ => cases h

/-- A scalar register instruction on a task core writes its value and goes on (R124). -/
theorem RunsScalar.gives {i : Instr} {o : ScalarOp} {s : State} {g : Nat} (r : RunsScalar i o) (h : Ready s g)
    (c : i.coreOk = true) : Gives s g i o.d (o.f (o.srcs.map (reg s g))) := by
  obtain ⟨f, e, v⟩ := r
  rw [Gives, e, alu_core h c, v fun r => (reg s g r).setWidth 256]
  simp

/-- Settles O1, by the value of each instruction. -/
theorem registerOnCore : Obligations.RegisterOnCore :=
  ⟨fun _ _ _ _ o h c => (intOp_runs o).gives h c, fun _ _ _ _ o h c => (fpOp_runs o).gives h c⟩

/-- Vector instructions: 256-bit sources, and a value of 256 bits (R132 to R136). -/
theorem vecOp_runs {i : Instr} {o : VectorOp} (h : vecOp i = some o) :
    ∃ f, (∀ s, exec i s = run s (alu i o.d o.srcs true f)) ∧
      ∀ v : BitVec 5 → BitVec 256, f (o.srcs.map v) = BitVec.ofNat 256 (o.f (o.srcs.map fun r => (v r).toNat)) := by
  cases i with
  | vadd | vsub | vmul | vmin | vmax | vcmp | vshuf | vpack =>
    cases h
    exact ⟨vector2 _, fun _ => rfl, fun _ => rfl⟩
  | vfma | vsel =>
    cases h
    exact ⟨vector3 _, fun _ => rfl, fun _ => rfl⟩
  | vcvt | vred | vbcast | vunpk | vexp2 | vrcp =>
    cases h
    exact ⟨vector1 _, fun _ => rfl, fun _ => rfl⟩
  | _ => cases h

/-- Settles O2: the frame of a twig's register instruction, with the values of O1 and those of the vector instructions. -/
theorem registerInTwig : Obligations.RegisterInTwig := by
  refine ⟨fun s a t i o op h ok => ?_, fun s a t i o op h ok => ?_⟩
  · obtain ⟨f, e, v⟩ : RunsScalar i o := op.elim intOp_runs fpOp_runs
    rw [e, alu_twig h ok, v fun r => (t.src r).bits]
  · obtain ⟨f, e, v⟩ := vecOp_runs op
    rw [e, alu_twig h ok, v fun r => (t.src r).bits]

end Sys2Proof.Proofs
end

section
/-! What the instruction of a task core leaves: its core replaced, and the checks before an effect (R124, R139, R386). -/

namespace Sys2Proof.Proofs

open Sys2Proof.Machine Sys2Proof.Safety Sys2Proof.Laws

variable {s : State} {g : Nat}

/-- An instruction whose meaning differs between task cores and twigs. -/
theorem run_of_turn {a : Agent} {f h : Work → Work} (turn : s.turn = a) (e : ∀ w, w.turn = a → f w = h w) :
    run s f = run s h := next_congr (e _ turn)

/-! ## An instruction that replaces its core -/

/-- The work leaves the state with core `k` in place, once the core holds its instruction no longer. -/
def Replaces (s : State) (g : Nat) (r : Except Stop Work) (k : Core) : Prop :=
  r.map (fun w => w.updCore g fun c => { c with stall := none }) = .ok ((Work.of s).setCore g k)

theorem coreInstr_replaces {i : Instr} {f : Nat → Work → Except Stop Work} {k : Core} (h : OnCore s g) (c : i.coreOk = true)
    (e : Replaces s g (f g (Work.of s)) k) : run s (coreInstr i f) = .next (withCore s g k) := by
  cases r : f g (Work.of s) with
  | error x => rw [r] at e; cases e
  | ok w =>
    rw [r] at e
    exact (coreInstr_ok h c r).trans (next_congr (Except.ok.inj e))

/-- A core put in place holds no instruction any longer. -/
theorem replaces_setCore (k : Core) : Replaces s g (.ok ((Work.of s).setCore g k)) { k with stall := none } := by
  simp only [Replaces, Except.map, updCore_eq, setCore_same, setCore_twice]

/-- Going on to the next word, or to the first of a loop that goes round. -/
theorem replaces_next (m : MayGo s g (coreOf s g).step.pc) : Replaces s g ((Work.of s).next g) (goneOn (coreOf s g)) := by
  rw [next_ok m]
  exact replaces_setCore _

/-- Writing a register besides. -/
theorem Replaces.setReg {r : Except Stop Work} {k : Core} (e : Replaces s g r k) (d : BitVec 5) (v : Word) :
    Replaces s g (r.map fun w => w.updCore g fun c => c.setReg d v) (k.setReg d v) := by
  cases r with
  | error x => cases e
  | ok w =>
    have swap : ∀ c : Core, { c.setReg d v with stall := none } = ({ c with stall := none } : Core).setReg d v := fun c => by
      unfold Core.setReg
      split <;> rfl
    have e' : w.setCore g { w.core g with stall := none } = (Work.of s).setCore g k := Except.ok.inj e
    have put := congrArg (fun x => x.updCore g fun c => c.setReg d v) e'
    simp only [updCore_eq, setCore_same, setCore_twice] at put
    simp only [Replaces, Except.map, updCore_eq, setCore_same, setCore_twice, swap, put]

theorem core_updCore (w : Work) (g : Nat) (f : Core → Core) : (w.updCore g f).core g = f (w.core g) := setCore_same _ _ _

theorem core_finish_updCore (w : Work) (g : Nat) (f : Core → Core) : coreOf (s.finish (w.updCore g f)) g = f (w.core g) :=
  core_updCore w g f

/-! ## Checks before an effect -/

theorem needAt_holds {α : Type} {p : Bool} (h : p = true) (code addr : Nat) (k : Unit → Except Stop α) :
    (needAt p code addr >>= k) = k () := by
  subst h
  rfl

theorem needAt_fails {α : Type} {p : Bool} (h : p = false) (code addr : Nat) (k : Unit → Except Stop α) :
    (needAt p code addr >>= k) = .error (.fault code (BitVec.ofNat 64 addr) 0) := by
  subst h
  rfl

theorem enter_holds {pc : BitVec 16} (m : MayGo s g pc) {α : Type} (k : Unit → Except Stop α) :
    ((Work.of s).enter g pc >>= k) = k () := by
  rw [enter_ok m]
  rfl

end Sys2Proof.Proofs
end

section
/-! Control transfers: BR, JAL and JR (R137, R138, R386). -/

namespace Sys2Proof.Proofs

open Sys2Proof.Machine Sys2Proof.Safety Sys2Proof.Laws

variable {s : State} {g : Nat}

theorem replaces_jump {pc : BitVec 16} (m : MayGo s g pc) : Replaces s g ((Work.of s).jump g pc) (jumped (coreOf s g) pc) :=
  jump_ok pc m

section

variable {d a c : BitVec 5} {k : BitVec 3} {i : BitVec 18} {j : BitVec 16}

theorem br_taken (h : OnCore s g) (ok : (Instr.br c k i).coreOk = true) (b : branchTest k (reg s g c))
    (m : MayGo s g (wordsOn s g i.toInt)) :
    exec (.br c k i) s = .next (withCore s g (jumped (coreOf s g) (wordsOn s g i.toInt))) := by
  refine coreInstr_replaces h ok ?_
  rw [if_pos ((condBr_test k ((Work.of s).g g c)).2 b), target_words]
  exact replaces_jump m

theorem br_refused (h : OnCore s g) (ok : (Instr.br c k i).coreOk = true) (b : branchTest k (reg s g c))
    (n : ¬ MayGo s g (wordsOn s g i.toInt)) : Raises s g (.br c k i) 0x02 0 := by
  refine coreInstr_fault h ok ?_
  rw [if_pos ((condBr_test k ((Work.of s).g g c)).2 b), target_words]
  exact jump_no _ n

theorem br_passed (h : OnCore s g) (ok : (Instr.br c k i).coreOk = true) (b : ¬ branchTest k (reg s g c))
    (m : MayGo s g (coreOf s g).step.pc) : exec (.br c k i) s = .next (withCore s g (goneOn (coreOf s g))) := by
  refine coreInstr_replaces h ok ?_
  rw [if_neg fun x => b ((condBr_test k ((Work.of s).g g c)).1 x)]
  exact replaces_next m

theorem jal_goes (h : OnCore s g) (ok : (Instr.jal c i).coreOk = true) (m : MayGo s g (wordsOn s g i.toInt)) :
    exec (.jal c i) s = .next (withCore s g ((jumped (coreOf s g) (wordsOn s g i.toInt)).setReg c (linkOf s g))) := by
  refine coreInstr_replaces h ok ?_
  dsimp only
  rw [target_words]
  exact (replaces_jump m).setReg c (linkOf s g)

theorem jal_refused (h : OnCore s g) (ok : (Instr.jal c i).coreOk = true) (n : ¬ MayGo s g (wordsOn s g i.toInt)) :
    Raises s g (.jal c i) 0x02 0 := by
  refine coreInstr_fault h ok ?_
  dsimp only
  rw [target_words, jump_no _ n]
  rfl

theorem lowTwoBits_zero_iff (t : Word) : t.extractLsb' 0 2 = 0 ↔ t.toNat % 4 = 0 := by
  rw [← BitVec.toNat_inj]
  simp

/-- The address that JR goes to (R138). -/
def jrTarget (s : State) (g : Nat) (a : BitVec 5) (j : BitVec 16) : Word := reg s g a + BitVec.ofInt 64 j.toInt

theorem jrTarget_eq (a : BitVec 5) (j : BitVec 16) : (Work.of s).g g a + j.signExtend 64 = jrTarget s g a j := rfl

theorem jr_goes (h : OnCore s g) (ok : (Instr.jr d a j).coreOk = true) (al : (jrTarget s g a j).toNat % 4 = 0)
    (m : MayGo s g ((jrTarget s g a j).setWidth 16)) :
    exec (.jr d a j) s = .next (withCore s g ((jumped (coreOf s g) ((jrTarget s g a j).setWidth 16)).setReg d (linkOf s g))) := by
  refine coreInstr_replaces h ok ?_
  dsimp only
  rw [jrTarget_eq, needAt_holds (decide_eq_true ((lowTwoBits_zero_iff (jrTarget s g a j)).2 al)), bind_pure_comp]
  exact (replaces_jump m).setReg d (linkOf s g)

theorem jr_refused (h : OnCore s g) (ok : (Instr.jr d a j).coreOk = true) (al : (jrTarget s g a j).toNat % 4 = 0)
    (n : ¬ MayGo s g ((jrTarget s g a j).setWidth 16)) : Raises s g (.jr d a j) 0x02 0 := by
  refine coreInstr_fault h ok ?_
  dsimp only
  rw [jrTarget_eq, needAt_holds (decide_eq_true ((lowTwoBits_zero_iff (jrTarget s g a j)).2 al))]
  exact congrArg (· >>= _) (jump_no _ n)

theorem jr_misaligned (h : OnCore s g) (ok : (Instr.jr d a j).coreOk = true) (al : (jrTarget s g a j).toNat % 4 ≠ 0) :
    Raises s g (.jr d a j) 0x03 (jrTarget s g a j).toNat :=
  coreInstr_fault h ok (needAt_fails (decide_eq_false fun x => al ((lowTwoBits_zero_iff _).1 x)) _ _ _)

end

/-- Settles O4, clause by clause. -/
theorem transfers : Obligations.Transfers :=
  ⟨fun _ _ _ _ _ h ok => ⟨br_taken h ok, br_refused h ok, br_passed h ok⟩, fun _ _ h =>
    ⟨fun _ _ ok => ⟨jal_goes h ok, jal_refused h ok⟩, fun _ _ _ ok => ⟨jr_goes h ok, jr_refused h ok, jr_misaligned h ok⟩⟩⟩

end Sys2Proof.Proofs
end

section
/-! The hardware loop, NOP and EXIT (R139, R140, R389). -/

namespace Sys2Proof.Proofs

open Sys2Proof.Machine Sys2Proof.Safety Sys2Proof.Laws

variable {s : State} {g : Nat}

/-! ## LOOP -/

/-- The last word of a LOOP's body (R139). -/
theorem loopLast_words (n : BitVec 18) : ((Work.of s).core g).pc + (n * 4).setWidth 16 = wordsOn s g n.toNat := by
  have four : (4 : BitVec 18).toNat = 4 := rfl
  unfold wordsOn coreOf
  congr 1
  apply BitVec.eq_of_toNat_eq
  rw [BitVec.toNat_setWidth, BitVec.toNat_mul, BitVec.toNat_ofInt, four]
  omega

theorem wordsOn_succ (n : Nat) : wordsOn s g n + 4 = wordsOn s g (n + 1) := by
  rw [wordsOn, wordsOn, BitVec.add_assoc]
  congr 1
  rw [Int.add_mul, BitVec.ofInt_add]
  rfl

section

variable {c : BitVec 5} {n : BitVec 18}

theorem loop_skips (h : OnCore s g) (ok : (Instr.loop c n).coreOk = true) (z : reg s g c = 0)
    (m : MayGo s g (wordsOn s g (n.toNat + 1))) :
    exec (.loop c n) s = .next (withCore s g { coreOf s g with pc := wordsOn s g (n.toNat + 1), stall := none }) := by
  refine coreInstr_replaces h ok ?_
  dsimp only
  rw [loopLast_words, wordsOn_succ, if_pos (show (Work.of s).g g c = 0 from z), enter_holds m]
  exact replaces_setCore _

theorem loop_nested (h : OnCore s g) (ok : (Instr.loop c n).coreOk = true) (z : reg s g c ≠ 0)
    (a : (coreOf s g).loopActive = true) : Raises s g (.loop c n) 0x01 0 := by
  refine coreInstr_fault h ok ?_
  dsimp only
  rw [if_neg (show ¬ (Work.of s).g g c = 0 from z), show ((Work.of s).core g).loopActive = true from a]
  rfl

theorem loop_starts (h : OnCore s g) (ok : (Instr.loop c n).coreOk = true) (z : reg s g c ≠ 0)
    (a : (coreOf s g).loopActive = false) (m : MayGo s g ((coreOf s g).pc + 4)) :
    exec (.loop c n) s = .next (withCore s g
      { coreOf s g with
        loopActive := true, bodyStart := (coreOf s g).pc + 4, bodyEnd := wordsOn s g n.toNat, loopcnt := reg s g c
        pc := (coreOf s g).pc + 4, stall := none }) := by
  have free : need (!((Work.of s).core g).loopActive) 0x01 = .ok () := by
    rw [show ((Work.of s).core g).loopActive = false from a]
    rfl
  refine coreInstr_replaces h ok ?_
  dsimp only
  rw [loopLast_words, if_neg (show ¬ (Work.of s).g g c = 0 from z), free, Core.pc4]
  exact (congrArg (Replaces s g · _) (enter_holds m _)).mpr (replaces_setCore _)

end

/-! ## NOP, and the loop's last word (R139, R389) -/

theorem exec_nop (h : Ready s g) : exec .nop s = .next (withCore s g (goneOn (coreOf s g))) :=
  coreInstr_replaces h.1 rfl (replaces_next h.2)

theorem step_round {c : Core} (a : c.loopActive = true) (t : c.trap.loopHeld = false) (e : c.pc = c.bodyEnd)
    (n : 1 < c.loopcnt.toNat) : c.step = { c with loopcnt := c.loopcnt - 1, pc := c.bodyStart } := by
  rw [Core.step, if_pos ⟨a, by simp [t], e⟩, if_pos n]

theorem step_leaves {c : Core} (a : c.loopActive = true) (t : c.trap.loopHeld = false) (e : c.pc = c.bodyEnd)
    (n : c.loopcnt.toNat ≤ 1) : c.step = { c with loopcnt := 0, loopActive := false, pc := c.pc + 4 } := by
  rw [Core.step, if_pos ⟨a, by simp [t], e⟩, if_neg (not_lt.2 n), Core.pc4]

theorem step_untracked {c : Core} (t : c.trap.loopHeld = true) : c.step = { c with pc := c.pc + 4 } := by
  rw [Core.step, if_neg fun x => x.2.1 t, Core.pc4]

/-- A NOP goes where its core goes on. -/
theorem nop_steps {c : Core} (h : OnCore s g) (e : (coreOf s g).step = c) (m : MayGo s g c.pc) :
    exec .nop s = .next (withCore s g { c with stall := none }) := by
  subst e
  exact exec_nop ⟨h, m⟩

/-! ## EXIT (R140) -/

/-- EXIT of a task core ends its task, in its launch and on the core. -/
theorem exit_core (h : OnCore s g) : ∃ t, exec .exit s = .next t ∧ (coreOf t g).task = none ∧
    (coreOf t g).loopActive = false ∧ (coreOf t g).loopcnt = 0 ∧ t.cells = s.cells ∧ t.groves = s.groves ∧ t.mem = s.mem ∧
    t.mod = s.mod := by
  have e : exec .exit s = run s (coreInstr .exit fun g x =>
      .ok ((x.endTask (x.rno g) (x.core g).cur.wid).updCore g fun c => c.idle)) := by
    refine run_of_turn h.1 fun w e => ?_
    simp only [e]
  refine ⟨_, e.trans (coreInstr_ok h rfl rfl), ?_⟩
  rw [core_finish_updCore, core_updCore]
  exact ⟨rfl, rfl, rfl, rfl, rfl, rfl, rfl⟩

/-- EXIT of a twig only goes on. -/
theorem exit_twig {a : Agent} {t : Twig} (h : OnTwig s a t) : exec .exit s = .next (withTwig s a t.adv) := by
  obtain ⟨turn, at_⟩ := h
  refine next_congr ?_
  cases a with
  | core g => cases at_
  | _ => simp only [of_turn, turn, at_]

/-- Settles O5, clause by clause. -/
theorem loopsAndExit : Obligations.LoopsAndExit :=
  ⟨fun _ _ _ _ h ok => ⟨loop_skips h ok, loop_nested h ok, loop_starts h ok,
      fun a t e n m => nop_steps h (step_round a t e n) m, fun a t e n m => nop_steps h (step_leaves a t e n) m,
      fun t m => nop_steps h (step_untracked t) m⟩,
    fun _ => ⟨fun _ => exec_nop, fun _ => exit_core, fun _ _ => exit_twig⟩⟩

end Sys2Proof.Proofs
end

section
/-! Loads and stores of a twig in its cell's bank (R118, R143). -/

namespace Sys2Proof.Proofs

open Sys2Proof.Machine Sys2Proof.Safety Sys2Proof.Laws

variable {s : State} {c k : Nat} {t : Twig}

theorem spoilt_sound {a n : Nat} (h : Sound s a n) : (Work.of s).spoilt a n = false := by
  simp only [Work.spoilt, List.any_eq_false, Bool.and_eq_true, decide_eq_true_eq, of_mod]
  intro b m
  have := h b m
  omega

theorem twigAt_setTwig (w : Work) (c k : Nat) (t : Twig) : (w.setTwig (.twig c k) t).twigAt (.twig c k) = some t := by
  simp [Work.setTwig, Work.twigAt, updCell_eq]

/-- A twig's access that nothing stops is performed, at the home time of its bank (R118, R192). -/
theorem twigMem_performs {w : Work} {a : Agent} {addr n lsid : Nat} {load : Bool} {onNull : Twig}
    {perform : Nat → Work → Twig × Work} (al : addr % n = 0) (fit : addr + n ≤ 0x10000) (free : w.twigWaits a t = false)
    (sound : load = true → w.spoilt (bankBase (agentCell a) + addr) n = false) :
    twigMem a t addr n lsid load false onNull perform w =
      let r := perform (bankBase (agentCell a) + addr) (w.homeAccess (agentWho a) (bankBase (agentCell a) + addr))
      r.2.setTwig a r.1.adv := by
  have clean : ¬ (load = true ∧ w.spoilt (bankBase (agentCell a) + addr) n = true) := fun ⟨l, b⟩ => by simp [sound l] at b
  simp only [twigMem, al, not_lt.2 fit, free, clean, ne_eq, not_true, if_false, Bool.false_eq_true]

/-- Where a twig's access of `n` bytes lies in its bank. -/
def bankOffset (t : Twig) (b : BitVec 5) (o : BitVec 9) (n : Nat) : Nat := addrOf ((t.src b).bits.setWidth 64) o n

/-- A twig performs its access of `n` bytes: it is the next to run, no earlier twig of its colour runs, its base is no null,
and its address is aligned and in the bank (R118, R119). -/
structure Performs (s : State) (c k : Nat) (t : Twig) (b : BitVec 5) (o : BitVec 9) (n : Nat) : Prop where
  on : OnTwig s (.twig c k) t
  free : (Work.of s).twigWaits (.twig c k) t = false
  base : (t.src b).null = false
  size : ∃ m, n = 2 ^ m
  aligned : bankOffset t b o n % n = 0
  fits : bankOffset t b o n + n ≤ 0x10000

/-- The work once a twig's access has its time. -/
def bankTimed (s : State) (c k a : Nat) : Work := (Work.of s).homeAccess (.agent c 0 k) a

theorem timesOnly_bankTimed (s : State) (c k a : Nat) : TimesOnly (Work.of s) (bankTimed s c k a) :=
  timesOnly_homeAccess _ (fun _ => Who.noConfusion) a

section

variable {d b l : BitVec 5} {o : BitVec 9} {n : Nat} {vec : Bool}

theorem Performs.effAddr_eq (p : Performs s c k t b o n) :
    effAddr ((t.src b).bits.setWidth 64) o n = bankOffset t b o n := by
  obtain ⟨m, rfl⟩ := p.size
  exact effAddr_addrOf _ _ _

theorem Performs.twigLd_eq (p : Performs s c k t b o n) (sound : Sound s (bankBase c + bankOffset t b o n) n) :
    twigLd d b l o n vec (.twig c k) (Work.of s) =
      (bankTimed s c k (bankBase c + bankOffset t b o n)).setTwig (.twig c k)
        (t.put d ⟨BitVec.ofNat 256 (numAt s (bankBase c + bankOffset t b o n) n), false⟩ vec).adv := by
  obtain ⟨_, _, _, _, e⟩ := timesOnly_bankTimed s c k (bankBase c + bankOffset t b o n)
  have bytes : leNat ((bankTimed s c k (bankBase c + bankOffset t b o n)).bytes (bankBase c + bankOffset t b o n) n) =
      numAt s (bankBase c + bankOffset t b o n) n := by
    rw [e]
    rfl
  rw [twigLd, p.on.2]
  dsimp only
  rw [p.base, p.effAddr_eq, twigMem_performs p.aligned p.fits p.free fun _ => spoilt_sound sound, ← bytes]
  rfl

theorem Performs.twigSt_eq (p : Performs s c k t b o n) (v : (t.src d).null = false) :
    twigSt d b l o n (.twig c k) (Work.of s) =
      ((bankTimed s c k (bankBase c + bankOffset t b o n)).store (bankBase c + bankOffset t b o n)
        (leBytes n (t.src d).bits.toNat)).setTwig (.twig c k) t.adv := by
  rw [twigSt, p.on.2]
  dsimp only
  rw [p.base, v, p.effAddr_eq, Bool.or_false, twigMem_performs p.aligned p.fits p.free fun h => absurd h Bool.false_ne_true]
  rfl

/-- A load in a twig's bank reads its bytes, and changes none (R118). -/
theorem Performs.loads {i : Instr} (p : Performs s c k t b o n) (sound : Sound s (bankBase c + bankOffset t b o n) n)
    (e : exec i s = run s (twigLd d b l o n vec (.twig c k))) : ∃ u, exec i s = .next u ∧
      (Work.of u).twigAt (.twig c k) =
        some (t.put d ⟨BitVec.ofNat 256 (numAt s (bankBase c + bankOffset t b o n) n), false⟩ vec).adv ∧
      ∀ a, byteAt u a = byteAt s a := by
  refine ⟨_, e.trans (next_congr (p.twigLd_eq sound)), twigAt_setTwig _ _ _ _, fun a => ?_⟩
  have log : ((bankTimed s c k (bankBase c + bankOffset t b o n)).setTwig (.twig c k)
        (t.put d ⟨BitVec.ofNat 256 (numAt s (bankBase c + bankOffset t b o n) n), false⟩ vec).adv).log = [] := by
    simp [Work.setTwig, bankTimed]
  rw [byteAt, finish_mem, log]
  rfl

/-- A store in a twig's bank writes its bytes, and no other (R118). -/
theorem Performs.stores {i : Instr} (p : Performs s c k t b o n) (m : MemOk s) (v : (t.src d).null = false)
    (e : exec i s = run s (twigSt d b l o n (.twig c k))) : ∃ u, exec i s = .next u ∧
      (Work.of u).twigAt (.twig c k) = some t.adv ∧ Stored s u (bankBase c + bankOffset t b o n) n (t.src d).bits.toNat := by
  refine ⟨_, e.trans (next_congr (p.twigSt_eq v)), twigAt_setTwig _ _ _ _, stored_of_log m ?_⟩
  simp [Work.setTwig, bankTimed, Work.store]

end

section

variable {d b l : BitVec 5} {o : BitVec 9}

theorem exec_ld_twig (turn : s.turn = .twig c k) (sz : BitVec 2) :
    exec (.ld d b l sz o) s = run s (twigLd d b l o (2 ^ sz.toNat) false (.twig c k)) :=
  run_of_turn turn fun w e => by simp only [e]

theorem exec_st_twig (turn : s.turn = .twig c k) (sz : BitVec 2) :
    exec (.st d b l sz o) s = run s (twigSt d b l o (2 ^ sz.toNat) (.twig c k)) :=
  run_of_turn turn fun w e => by simp only [e]

theorem exec_ldv_twig (turn : s.turn = .twig c k) : exec (.ldv d b l o) s = run s (twigLd d b l o 32 true (.twig c k)) :=
  run_of_turn turn fun w e => by simp only [e]

theorem exec_stv_twig (turn : s.turn = .twig c k) : exec (.stv d b l o) s = run s (twigSt d b l o 32 (.twig c k)) :=
  run_of_turn turn fun w e => by simp only [e]

end

/-- Settles O12: LD and ST of each size, LDV and STV of 32 bytes. -/
theorem twigMemory : Obligations.TwigMemory := by
  intro s c k t h m free d b l o base
  have performs : ∀ n, (∃ m, n = 2 ^ m) → bankOffset t b o n % n = 0 ∧ bankOffset t b o n + n ≤ 0x10000 →
      Performs s c k t b o n := fun _ size ⟨al, fit⟩ => ⟨h, free, base, size, al, fit⟩
  exact ⟨fun sz => ⟨fun fits sound => (performs _ ⟨_, rfl⟩ fits).loads sound (exec_ld_twig h.1 sz),
      fun v fits => (performs _ ⟨_, rfl⟩ fits).stores m v (exec_st_twig h.1 sz)⟩,
    fun fits sound => (performs 32 ⟨5, rfl⟩ fits).loads sound (exec_ldv_twig h.1),
    fun v fits => (performs 32 ⟨5, rfl⟩ fits).stores m v (exec_stv_twig h.1)⟩

end Sys2Proof.Proofs
end

section
/-! Loads and stores of a task core (R141, R142, R182, R193). -/

namespace Sys2Proof.Proofs

open Sys2Proof.Machine Sys2Proof.Safety Sys2Proof.Laws

variable {s : State} {g va la n : Nat}

/-! ## A translation that a core's buffers hold (R182) -/

theorem endWalk_core (w : Work) (a : Waiter) (asid vpn h : Nat) : (w.endWalk a asid vpn).core h = w.core h := by
  unfold Work.endWalk
  split <;> rfl

theorem endWalk_log (w : Work) (a : Waiter) (asid vpn : Nat) : (w.endWalk a asid vpn).log = w.log := by
  unfold Work.endWalk
  split <;> rfl

/-- The work after a translation for a core: nothing but what an access changes, no byte, and of the core its buffer alone. -/
structure Translated (s : State) (g : Nat) (w : Work) : Prop where
  keeps : Keeps (Work.of s) w
  log : w.log = []
  core : ∃ t, w.core g = { coreOf s g with tlb := t }

theorem translate_reaches {nd : Need} (r : Reaches s g nd va la n) : ∃ pa w,
    (Work.of s).translate g (some (coreWaiter g)) (coreOf s g).asid (!(Work.of s).super g) nd va = .ok (pa, w) ∧
      pa / 2 ^ 45 = s.mod.modNo ∧ pa % 2 ^ 45 = la ∧ Translated s g w := by
  obtain ⟨lt, ⟨x, buf, ok, dirty, home, at_⟩, -⟩ := r
  have e := translate_buffered (Work.of s) g (coreOf s g).asid va (coreWaiter g) _ nd x lt buf ok dirty
  refine ⟨_, _, e, home, at_, keeps_translate e, ?_, ?_⟩
  · rw [fill_log, missed_log, endWalk_log]
    rfl
  · exact ⟨_, by rw [show ((coreWaiter g).kind == 4) = true from rfl, fill_core, missed_core, endWalk_core]; rfl⟩

theorem translate_past_space {nd : Need} (h : 2 ^ 57 ≤ va) :
    (Work.of s).translate g (some (coreWaiter g)) (coreOf s g).asid (!(Work.of s).super g) nd va = .error 0x08 :=
  translate_past _ _ _ _ _ _ _ h

theorem translate_no {nd : Need} {x : Xlat} (h : va < 2 ^ 57) (b : bufferedAt s g va = some x)
    (r : x.refuses nd (!(Work.of s).super g) = true) :
    (Work.of s).translate g (some (coreWaiter g)) (coreOf s g).asid (!(Work.of s).super g) nd va = .error 0x09 :=
  translate_refused _ _ _ _ _ _ _ x h b r

section

variable {w : Work} (k : Translated s g w)
include k

/-- What a translation leaves of the module's own fields. -/
theorem Translated.mod : w.mod.modNo = s.mod.modNo ∧ w.mod.spoilt = s.mod.spoilt ∧ w.mod.cycle = s.mod.cycle ∧
    w.mod.asTable = s.mod.asTable := by
  obtain ⟨_, _, _, _, _, _, _, _, e⟩ := k.keeps.mods
  rw [e]
  exact ⟨rfl, rfl, rfl, rfl⟩

theorem Translated.modNo : w.mod.modNo = s.mod.modNo := k.mod.1

theorem Translated.l1Serves_iff (l : (Work.of s).loc la = la) : w.l1Serves g la = true ↔ Cached s g la := by
  obtain ⟨t, e⟩ := k.core
  obtain ⟨-, -, cycle, asTable⟩ := k.mod
  exact l1Serves_cached l k.keeps.cells t e cycle asTable

theorem Translated.pspoilt_iff (p : InPlace (Work.of s) la n) : w.pspoilt la n = true ↔ ¬ Sound s la n := by
  obtain ⟨-, spoilt, -⟩ := k.mod
  exact pspoilt_sound (fun i h => (p i h).1) k.keeps.cells spoilt

theorem Translated.coreLoad_bytes (pos : 0 < n) (p : InPlace (Work.of s) la n) :
    (w.coreLoad g la n).1 = seen s g la n := by
  obtain ⟨t, e⟩ := k.core
  obtain ⟨-, -, cycle, asTable⟩ := k.mod
  exact coreLoad_seen t pos (fun i h => (p i h).1) k.keeps.cells e cycle asTable k.keeps.base k.log

end

/-! ## The access -/

/-- What a core's access reaches is module memory, in place (R168, R179). -/
theorem reaches_inPlace {nd : Need} (r : Reaches s g nd va la n) : la + n ≤ memTop ∧ InPlace (Work.of s) la n := by
  obtain ⟨-, -, fit, place⟩ := r
  exact ⟨fit, place⟩

theorem accCore_core (w : Work) (g : Nat) : (w.accCore g).core = true := by simp [Acc.core, Work.accCore]

/-- A core's load of bytes that its L1 or memory can give (R142, R193). -/
theorem vread1_reaches (r : Reaches s g needR va la n) (pos : 0 < n) (b : Sound s la n ∨ Cached s g la) :
    ∃ w, (Work.of s).vread1 ((Work.of s).accCore g) va n = .ok (seen s g la n, w) ∧ Keeps (Work.of s) w ∧ w.log = [] := by
  obtain ⟨fit, place⟩ := reaches_inPlace r
  obtain ⟨pa, w, e, home, at_, k⟩ := translate_reaches r
  have loc0 : (Work.of s).loc la = la := (place 0 pos).1
  have able : w.l1Serves g la = true ∨ w.pspoilt la n = false :=
    b.symm.imp (k.l1Serves_iff loc0).2 fun h => Bool.eq_false_iff.2 fun p => (k.pspoilt_iff place).1 p h
  have read : w.pread ((Work.of s).accCore g) pa n = .ok (w.coreLoad g la n) :=
    pread_core (home.trans k.modNo.symm) at_ fit (accCore_core _ g) able
  refine ⟨(w.coreLoad g la n).2, ?_, k.keeps.trans (keeps_coreLoad w g la n), (coreLoad_log w g la n).trans k.log⟩
  rw [← k.coreLoad_bytes pos place]
  exact (congrArg (· >>= _) e).trans read

/-- A core's load of bytes that neither its L1 nor memory can give (R142). -/
theorem vread1_spoilt (r : Reaches s g needR va la n) (pos : 0 < n) (u : ¬ Sound s la n) (c : ¬ Cached s g la) :
    (Work.of s).vread1 ((Work.of s).accCore g) va n = .error 0x0A := by
  obtain ⟨fit, place⟩ := reaches_inPlace r
  obtain ⟨pa, w, e, home, at_, k⟩ := translate_reaches r
  have loc0 : (Work.of s).loc la = la := (place 0 pos).1
  have miss : w.l1Serves ((Work.of s).accCore g).grove la = false := Bool.eq_false_iff.2 fun p => c ((k.l1Serves_iff loc0).1 p)
  have read : w.pread ((Work.of s).accCore g) pa n = .error 0x0A := by
    unfold Work.pread
    dsimp only
    rw [if_neg (not_not.2 (home.trans k.modNo.symm)), at_, if_pos fit, accCore_core, miss, (k.pspoilt_iff place).2 u]
    rfl
  exact (congrArg (· >>= _) e).trans read

/-- A core's store writes its bytes (R142). -/
theorem vwrite1_reaches {bs : List Byte} (len : bs.length = n) (r : Reaches s g needW va la n) (pos : 0 < n) :
    ∃ w, (Work.of s).vwrite1 ((Work.of s).accCore g) va bs = .ok w ∧ Keeps (Work.of s) w ∧ w.log = logBytes [] la bs := by
  subst len
  obtain ⟨fit, place⟩ := reaches_inPlace r
  obtain ⟨pa, w, e, home, at_, k⟩ := translate_reaches r
  have placed : InPlace w la bs.length := inPlace_of_cells (w := Work.of s) k.keeps.cells place
  have writable : w.readOnly la = false := (placed 0 pos).2
  have write : w.pwrite ((Work.of s).accCore g) pa bs = .ok (w.coreStore g la bs) := by
    unfold Work.pwrite
    dsimp only
    rw [if_neg (not_not.2 (home.trans k.modNo.symm)), at_, if_pos fit, writable, accCore_core]
    rfl
  refine ⟨_, (congrArg (· >>= _) e).trans write, k.keeps.trans (keeps_coreStore w g la bs), ?_⟩
  rw [coreStore_log, pstore_log bs la w fun i h => (placed i h).1, k.log]

/-! ## LD and ST -/

section

variable {d b : BitVec 5} {o : BitVec 9} {m code : Nat} {w : Work}

/-- The virtual address of a core's access of `n` bytes (R142). -/
def coreAddr (s : State) (g : Nat) (b : BitVec 5) (o : BitVec 9) (n : Nat) : Nat := addrOf (reg s g b) o n

theorem effAddr_core (s : State) (g : Nat) (b : BitVec 5) (o : BitVec 9) (m : Nat) :
    effAddr ((Work.of s).g g b) o (2 ^ m) = coreAddr s g b o (2 ^ m) := effAddr_addrOf _ _ _

theorem coreLd_reads {bs : List Byte} (al : coreAddr s g b o (2 ^ m) % 2 ^ m = 0)
    (e : (Work.of s).vread1 ((Work.of s).accCore g) (coreAddr s g b o (2 ^ m)) (2 ^ m) = .ok (bs, w)) :
    coreLd d b o (2 ^ m) g (Work.of s) = w.give g d (BitVec.ofNat 64 (leNat bs)) := by
  rw [coreLd, effAddr_core]
  dsimp only
  rw [needAt_holds (decide_eq_true al), e]
  rfl

theorem coreLd_fails (al : coreAddr s g b o (2 ^ m) % 2 ^ m = 0) (n : code ≠ walkWait)
    (e : (Work.of s).vread1 ((Work.of s).accCore g) (coreAddr s g b o (2 ^ m)) (2 ^ m) = .error code) :
    coreLd d b o (2 ^ m) g (Work.of s) = .error (.fault code (BitVec.ofNat 64 (coreAddr s g b o (2 ^ m))) 0) := by
  rw [coreLd, effAddr_core]
  dsimp only
  rw [needAt_holds (decide_eq_true al), e, badAt, stopAt, if_neg n]
  rfl

theorem coreLd_misaligned (al : coreAddr s g b o (2 ^ m) % 2 ^ m ≠ 0) :
    coreLd d b o (2 ^ m) g (Work.of s) = .error (.fault 0x03 (BitVec.ofNat 64 (coreAddr s g b o (2 ^ m))) 0) := by
  rw [coreLd, effAddr_core]
  exact needAt_fails (decide_eq_false al) _ _ _

theorem give_zero (w : Work) (g : Nat) (v : Word) : w.give g 0 v = w.next g := by
  have same : (w.setCore g (w.core g)).enter g (w.core g).step.pc = w.enter g (w.core g).step.pc := by
    unfold Work.enter
    rw [setCore_same]
    rfl
  simp only [Work.give, Work.next, updCore_eq, setCore_same, setCore_twice, same, BitVec.ofNat_eq_ofNat, setReg_zero]

theorem coreSt_writes (al : coreAddr s g b o (2 ^ m) % 2 ^ m = 0)
    (e : (Work.of s).vwrite1 ((Work.of s).accCore g) (coreAddr s g b o (2 ^ m)) (leBytes (2 ^ m) (reg s g d).toNat) = .ok w) :
    coreSt d b o (2 ^ m) g (Work.of s) = w.give g 0 0 := by
  rw [coreSt, effAddr_core, give_zero, needAt_holds (decide_eq_true al), show (Work.of s).g g d = reg s g d from rfl, e]
  rfl

theorem coreSt_fails (al : coreAddr s g b o (2 ^ m) % 2 ^ m = 0) (n : code ≠ walkWait)
    (e : (Work.of s).vwrite1 ((Work.of s).accCore g) (coreAddr s g b o (2 ^ m)) (leBytes (2 ^ m) (reg s g d).toNat) = .error code) :
    coreSt d b o (2 ^ m) g (Work.of s) = .error (.fault code (BitVec.ofNat 64 (coreAddr s g b o (2 ^ m))) 0) := by
  rw [coreSt, effAddr_core, needAt_holds (decide_eq_true al), show (Work.of s).g g d = reg s g d from rfl, e, badAt, stopAt, if_neg n]
  rfl

theorem coreSt_misaligned (al : coreAddr s g b o (2 ^ m) % 2 ^ m ≠ 0) :
    coreSt d b o (2 ^ m) g (Work.of s) = .error (.fault 0x03 (BitVec.ofNat 64 (coreAddr s g b o (2 ^ m))) 0) := by
  rw [coreSt, effAddr_core]
  exact needAt_fails (decide_eq_false al) _ _ _

variable {sz : BitVec 2}

theorem exec_ld_core (turn : s.turn = .core g) (l : BitVec 5) :
    exec (.ld d b l sz o) s = run s (coreInstr (.ld d b l sz o) (coreLd d b o (2 ^ sz.toNat))) :=
  run_of_turn turn fun w e => by simp only [e]

theorem exec_st_core (turn : s.turn = .core g) (l : BitVec 5) :
    exec (.st d b l sz o) s = run s (coreInstr (.st d b l sz o) (coreSt d b o (2 ^ sz.toNat))) :=
  run_of_turn turn fun w e => by simp only [e]

end

/-- Bytes stored, where they are all that a step writes. -/
theorem stored_of_mem {t : State} {v : Nat} (m : MemOk s) (e : t.mem = s.mem.write (logBytes [] la (leBytes n v))) :
    Stored s t la n v := by
  have stored : Stored s (s.finish ((Work.of s).store la (leBytes n v))) la n v := stored_of_log m rfl
  have e' : t.mem = (s.finish ((Work.of s).store la (leBytes n v))).mem := e
  simpa only [Stored, byteAt, e'] using stored

section

variable {d b : BitVec 5} {o : BitVec 9} {sz : BitVec 2}

theorem ld_reads (h : Ready s g) (c : (Instr.ld d b 0 sz o).coreOk = true)
    (al : coreAddr s g b o (2 ^ sz.toNat) % 2 ^ sz.toNat = 0)
    (r : Reaches s g needR (coreAddr s g b o (2 ^ sz.toNat)) la (2 ^ sz.toNat))
    (can : Sound s la (2 ^ sz.toNat) ∨ Cached s g la) :
    ∃ t, Did s g (.ld d b 0 sz o) d (BitVec.ofNat 64 (leNat (seen s g la (2 ^ sz.toNat)))) t ∧
      ∀ a, byteAt t a = byteAt s a := by
  obtain ⟨w, e, k, log⟩ := vread1_reaches r (Nat.two_pow_pos _) can
  obtain ⟨t, did, mem, -⟩ := did_access h c (exec_ld_core h.1.1 0) k (coreLd_reads al e)
  refine ⟨t, did, fun a => ?_⟩
  rw [byteAt, mem, log]
  rfl

theorem ld_spoilt (h : OnCore s g) (c : (Instr.ld d b 0 sz o).coreOk = true)
    (al : coreAddr s g b o (2 ^ sz.toNat) % 2 ^ sz.toNat = 0)
    (r : Reaches s g needR (coreAddr s g b o (2 ^ sz.toNat)) la (2 ^ sz.toNat)) (u : ¬ Sound s la (2 ^ sz.toNat))
    (n : ¬ Cached s g la) : Raises s g (.ld d b 0 sz o) 0x0A (coreAddr s g b o (2 ^ sz.toNat)) :=
  (exec_ld_core h.1 0).trans
    (coreInstr_fault h c (coreLd_fails al (by decide) (vread1_spoilt r (Nat.two_pow_pos _) u n)))

theorem st_writes (h : Ready s g) (ok : MemOk s) (c : (Instr.st d b 0 sz o).coreOk = true)
    (al : coreAddr s g b o (2 ^ sz.toNat) % 2 ^ sz.toNat = 0)
    (r : Reaches s g needW (coreAddr s g b o (2 ^ sz.toNat)) la (2 ^ sz.toNat)) :
    ∃ t, Did s g (.st d b 0 sz o) 0 0 t ∧ Stored s t la (2 ^ sz.toNat) (reg s g d).toNat := by
  obtain ⟨w, e, k, log⟩ := vwrite1_reaches (leBytes_length _ _) r (Nat.two_pow_pos _)
  obtain ⟨t, did, mem, -⟩ := did_access h c (exec_st_core h.1.1 0) k (coreSt_writes al e)
  exact ⟨t, did, stored_of_mem ok (mem.trans (congrArg _ log))⟩

/-- A load or store at an address that is not aligned (R142). -/
theorem access_misaligned {i : Instr} (h : OnCore s g) (k : i = .ld d b 0 sz o ∨ i = .st d b 0 sz o) (c : i.coreOk = true)
    (al : coreAddr s g b o (2 ^ sz.toNat) % 2 ^ sz.toNat ≠ 0) : Raises s g i 0x03 (coreAddr s g b o (2 ^ sz.toNat)) := by
  rcases k with rfl | rfl
  · exact (exec_ld_core h.1 0).trans (coreInstr_fault h c (coreLd_misaligned al))
  · exact (exec_st_core h.1 0).trans (coreInstr_fault h c (coreSt_misaligned al))

/-- A load or store whose translation fails, for the need that it has (R142, R182). -/
theorem access_untranslated {i : Instr} {code : Nat} (h : OnCore s g) (k : i = .ld d b 0 sz o ∨ i = .st d b 0 sz o)
    (c : i.coreOk = true) (al : coreAddr s g b o (2 ^ sz.toNat) % 2 ^ sz.toNat = 0) (n : code ≠ walkWait)
    (e : (Work.of s).translate g (some (coreWaiter g)) (coreOf s g).asid (!(Work.of s).super g)
      (if i = .ld d b 0 sz o then needR else needW) (coreAddr s g b o (2 ^ sz.toNat)) = .error code) :
    Raises s g i code (coreAddr s g b o (2 ^ sz.toNat)) := by
  rcases k with rfl | rfl
  · rw [if_pos rfl] at e
    exact (exec_ld_core h.1 0).trans (coreInstr_fault h c (coreLd_fails al n (congrArg (· >>= _) e)))
  · rw [if_neg Instr.noConfusion] at e
    exact (exec_st_core h.1 0).trans (coreInstr_fault h c (coreSt_fails al n (congrArg (· >>= _) e)))

end

/-- Settles O10, clause by clause. -/
theorem loadsAndStores : Obligations.LoadsAndStores :=
  ⟨⟨fun _ _ _ _ _ _ _ h c al r => ⟨ld_reads h c al r, ld_spoilt h.1 c al r⟩,
      fun _ _ _ _ _ _ _ h ok c al r => st_writes h ok c al r⟩,
    fun _ _ _ _ _ _ h _ k c => ⟨access_misaligned h k c,
      fun al past => access_untranslated h k c al (by decide) (translate_past_space past),
      fun al lt _ buf no => access_untranslated h k c al (by decide) (translate_no lt buf no)⟩⟩

end Sys2Proof.Proofs
end

section
/-! Suspension: the record that a suspended task leaves in its core's slots (R146 to R152, R208). -/

namespace Sys2Proof.Proofs

open Sys2Proof.Machine Sys2Proof.Safety Sys2Proof.Laws

variable {s : State} {g : Nat}

/-- A record that finds room in its core's slots is kept there (R146). -/
theorem place_fits {w : Work} {x : Record} (h : w.slotsHeld g + x.size ≤ 32) :
    w.place g x = some (w.updCore g fun c => { c with slots := c.slots ++ [x] }) := if_pos h

/-- A task that a core runs is its current one. -/
theorem some_cur {c : Core} (h : c.task ≠ none) : some c.cur = c.task := by
  cases t : c.task with
  | none => exact absurd t h
  | some k => rw [Core.cur, t]; rfl

/-- The record of a task that suspends at the end of its instruction (R147, R148). -/
def suspension (s : State) (g kind obj : Nat) (val : Option (BitVec 5)) (dreg : BitVec 5) (pc : BitVec 16) (live : BitVec 32)
    (runnable : Bool) : Record where
  full := false
  pc := pc
  live := live
  regs := (coreOf s g).saved live val dreg
  task := (coreOf s g).cur
  wait := kind
  vslot := (val.map fun r => liveRank live r.toNat).getD 0
  wobj := obj
  dreg := dreg
  body := (0, 0)
  loopActive := false
  loopcnt := 0
  since := if runnable then some s.mod.cycle else none
  order := (coreOf s g).suspOrder
  home := g
  dval := none
  trap := none
  halted := false
  pend := (Work.of s).covers g kind obj

/-- A core whose task has suspended, with its record kept (R146, R147). -/
def afterSuspension (c : Core) (x : Record) : Core :=
  { ({ c with slots := c.slots ++ [x] } : Core).idle with suspOrder := c.suspOrder + 1, kept := some c.suspOrder }

section

variable {kind obj : Nat} {val : Option (BitVec 5)} {dreg : BitVec 5} {pc : BitVec 16} {live : BitVec 32} {runnable : Bool}

theorem suspend_ok (m : MaySuspend s g live pc) : (Work.of s).suspend g kind obj val dreg pc runnable =
    .ok ((Work.of s).setCore g (afterSuspension (coreOf s g) (suspension s g kind obj val dreg pc live runnable))) := by
  obtain ⟨loop, trap, entry, room, go⟩ := m
  have free : need (!((Work.of s).core g).trap.intrap && !((Work.of s).core g).loopActive) 0x01 = .ok () := by
    rw [show ((Work.of s).core g).trap.intrap = false from trap, show ((Work.of s).core g).loopActive = false from loop]
    rfl
  have kept : (Work.of s).place g (suspension s g kind obj val dreg pc live runnable) =
      some ((Work.of s).updCore g fun c => { c with slots := c.slots ++ [suspension s g kind obj val dreg pc live runnable] }) :=
    place_fits room
  simp only [suspension] at kept
  unfold Work.suspend
  simp only [free, enter_ok go, show Tbl.find ((Work.of s).core g).susp ((Work.of s).core g).pc.toNat = some live from entry,
    bind, Except.bind]
  rw [show ((Work.of s).core g) = coreOf s g from rfl, show (Work.of s).mod.cycle = s.mod.cycle from rfl, kept]
  simp only [pure, Except.pure, updCore_eq, setCore_same, setCore_twice]
  rfl

/-- An instruction whose effect is a suspension suspends its task (R147). -/
theorem suspends_of_suspend {i : Instr} {f : Nat → Work → Except Stop Work} (h : OnCore s g) (ok : i.coreOk = true)
    (x : exec i s = run s (coreInstr i f)) (m : MaySuspend s g live pc)
    (e : f g (Work.of s) = (Work.of s).suspend g kind obj val dreg pc runnable) :
    Suspends s g i kind obj val dreg pc live runnable := by
  have k : Replaces s g (f g (Work.of s)) (afterSuspension (coreOf s g) (suspension s g kind obj val dreg pc live runnable)) := by
    rw [e, suspend_ok m]
    exact replaces_setCore _
  have core : coreOf (withCore s g (afterSuspension (coreOf s g) (suspension s g kind obj val dreg pc live runnable))) g =
      afterSuspension (coreOf s g) (suspension s g kind obj val dreg pc live runnable) := setCore_same (Work.of s) g _
  refine ⟨_, suspension s g kind obj val dreg pc live runnable, x.trans (coreInstr_replaces h ok k), ?_, ?_,
    rfl, rfl, rfl, rfl, rfl, rfl, rfl, rfl, some_cur h.2.1, rfl, rfl⟩
  · rw [core]; rfl
  · rw [core]; rfl

end

end Sys2Proof.Proofs
end

section
/-! YIELD, YIELD.UNTIL, WIDF and COLR (R159 to R161). -/

namespace Sys2Proof.Proofs

open Sys2Proof.Machine Sys2Proof.Safety Sys2Proof.Laws

variable {s : State} {g : Nat}

/-! ## Fields of a work identifier (R29, R160) -/

theorem widSum_mono (widw : Nat) : Monotone (widSum widw) := monotone_nat_of_le_succ fun _ => Nat.le_add_right _ _

/-- The widths of the fields after one, out of the first `m`. -/
theorem sum_widths_after (widw n m : Nat) :
    (((List.range m).filter fun i => n < i).map (widWidth widw)).sum = widSum widw m - widSum widw (n + 1) := by
  induction m with
  | zero => exact (Nat.zero_sub _).symm
  | succ m ih =>
    rw [List.range_succ, List.filter_append, List.map_append, List.sum_append, ih]
    by_cases h : n < m
    · have le : widSum widw (n + 1) ≤ widSum widw m := widSum_mono widw h
      simp only [h, decide_true, List.filter_cons_of_pos, List.filter_nil, List.map_cons, List.map_nil, List.sum_singleton, widSum]
      rw [widSum] at le
      omega
    · have le : widSum widw (m + 1) ≤ widSum widw (n + 1) := widSum_mono widw (by omega)
      simp only [h, decide_false, Bool.false_eq_true, not_false_eq_true, List.filter_cons_of_neg, List.filter_nil, List.map_nil,
        List.sum_nil]
      rw [widSum, widSum] at *
      omega

/-- A field of a work identifier lies above the fields after it (R29, R160). -/
theorem widField_eq (widw n wid : Nat) : widField widw n wid =
    wid / 2 ^ (((List.range 6).filter fun i => n < i).map (widWidth widw)).sum % 2 ^ widWidth widw n := by
  rw [widField, sum_widths_after]

theorem widWidth_eq (widw i : Nat) : widWidth widw i = widw / 2 ^ (6 * i) % 64 := by
  rw [widWidth, bits, show 6 * i + 5 + 1 - 6 * i = 6 by omega]
  rfl

/-! ## The statement -/

theorem yieldUntil_goes {a : BitVec 5} (h : OnCore s g) (ok : (Instr.yieldUntil a).coreOk = true)
    (due : (reg s g a).toNat ≤ s.mod.cycle) (m : MayGo s g (coreOf s g).step.pc) :
    exec (.yieldUntil a) s = .next (withCore s g (goneOn (coreOf s g))) := by
  refine coreInstr_replaces h ok ?_
  rw [if_pos (show ((Work.of s).g g a).toNat ≤ (Work.of s).mod.cycle from due)]
  exact replaces_next m

theorem yieldUntil_suspends {a : BitVec 5} {live : BitVec 32} (h : OnCore s g) (ok : (Instr.yieldUntil a).coreOk = true)
    (early : s.mod.cycle < (reg s g a).toNat) (m : MaySuspend s g live ((coreOf s g).pc + 4)) :
    Suspends s g (.yieldUntil a) 2 0 (some a) 0 ((coreOf s g).pc + 4) live false :=
  suspends_of_suspend h ok rfl m (if_neg (Nat.not_le.2 early))

theorem colr_gives {d : BitVec 5} {k : Task} (h : Ready s g) (ok : (Instr.colr d).coreOk = true) (t : (coreOf s g).task = some k) :
    Gives s g (.colr d) d (BitVec.ofNat 64 (k.colour.toNat + k.iter.toNat * 2 ^ 12)) := by
  have cur : ((Work.of s).core g).cur = k := Option.some.inj ((some_cur h.1.2.1).trans t)
  refine coreInstr_give h ok ?_
  dsimp only
  rw [cur]
  rfl

/-- WIDF answers the identifier itself for field 6, and a field of it for another (R160). -/
theorem widf_gives {d n : BitVec 5} {k : Task} {u : Running} (h : Ready s g) (ok : (Instr.widf d n).coreOk = true)
    (t : (coreOf s g).task = some k) (r : (regionAt s g).running = some u) :
    Gives s g (.widf d n) d
      (if n.toNat = 6 then k.wid else BitVec.ofNat 64 (widField u.launch.widw n.toNat k.wid.toNat)) := by
  have cur : ((Work.of s).core g).cur = k := Option.some.inj ((some_cur h.1.2.1).trans t)
  have six : n = 6 ↔ n.toNat = 6 := (BitVec.toNat_inj (y := 6#5)).symm
  refine coreInstr_give h ok ?_
  dsimp only
  rw [cur, show ((Work.of s).regOf g).running = some u from r]
  simp only [six]

/-- Settles O15, clause by clause. -/
theorem taskInstructions : Obligations.TaskInstructions := by
  refine fun s g h => ⟨fun live m => suspends_of_suspend h rfl rfl m rfl,
    fun a ok => ⟨yieldUntil_goes h ok, fun _ => yieldUntil_suspends h ok⟩,
    fun k t m => ⟨fun d ok => colr_gives ⟨h, m⟩ ok t, fun d n u ok r => ?_⟩⟩
  have gives := widf_gives ⟨h, m⟩ ok t r
  rw [widField_eq, funext (widWidth_eq u.launch.widw)] at gives
  exact gives

end Sys2Proof.Proofs
end

section
/-! SEND, RECV, held words, and register writes that wait (R123, R153 to R157). -/

namespace Sys2Proof.Proofs

open Sys2Proof.Machine Sys2Proof.Safety Sys2Proof.Laws

variable {s : State} {g : Nat}

/-! ## Channels (R153) -/

theorem chan_setChan_same (c : Core) (n : Nat) (ws : List Word) : (c.setChan n ws).chan n = ws := by
  rw [Core.chan, Core.setChan, getD_put_same]

/-- A word that no record waits for joins a channel with room (R155). -/
theorem deliver_queued {w : Work} {m ch : Nat} {v : Word}
    (alone : ((w.waiting (w.rno m)).all fun x => !(x.wait == 1 && x.wobj == ch && x.home == m)) = true)
    (room : ((w.core m).chan ch).length < 8) :
    w.deliver m ch v = some (w.updCore m fun c => c.setChan ch (c.chan ch ++ [v])) := by
  have nobody : (w.waiting (w.rno m)).filter (fun x => x.wait == 1 && x.wobj == ch && x.home == m) = [] :=
    List.filter_eq_nil_iff.2 fun x h => by
      rw [Bool.not_eq_true, ← Bool.not_eq_true']
      exact List.all_eq_true.1 alone x h
  simp only [Work.deliver, nobody, longest, room, if_true]

theorem deliver_held {w : Work} {m ch : Nat} {v : Word}
    (alone : ((w.waiting (w.rno m)).all fun x => !(x.wait == 1 && x.wobj == ch && x.home == m)) = true)
    (full : 8 ≤ ((w.core m).chan ch).length) : w.deliver m ch v = none := by
  have nobody : (w.waiting (w.rno m)).filter (fun x => x.wait == 1 && x.wobj == ch && x.home == m) = [] :=
    List.filter_eq_nil_iff.2 fun x h => by
      rw [Bool.not_eq_true, ← Bool.not_eq_true']
      exact List.all_eq_true.1 alone x h
  simp only [Work.deliver, nobody, longest, Nat.not_lt.2 full, if_false]

/-! ## An instruction that changes mail beside its register (R154, R156) -/

/-- Going on does not look at mail or at the program time. -/
theorem step_mail (c : Core) (b : Tbl Mail) (p : Nat) :
    ({ c with mail := b, ptime := p } : Core).step = { c.step with mail := b, ptime := p } := by
  unfold Core.step Core.pc4
  dsimp only
  split
  · split <;> rfl
  · rfl

theorem setReg_mailOnly (c : Core) (d : BitVec 5) (v : Word) (b : Tbl Mail) (p : Nat) :
    ({ c with mail := b, ptime := p } : Core).setReg d v = { c.setReg d v with mail := b, ptime := p } := by
  unfold Core.setReg
  split <;> rfl

theorem step_mail_eq (c : Core) : c.step.mail = c.mail := by
  unfold Core.step
  split
  · split <;> rfl
  · rfl

/-- An acquire raises the core's program time, and changes nothing else of the core (R157). -/
theorem acquire_core (w : Work) (g : Nat) :
    (w.acquire g).core g = { w.core g with ptime := max (w.core g).ptime w.mod.maxTime } := setCore_same _ g _

/-- An instruction that writes a register and goes on, in a work that differs from the state in its core's mail and program time
and in no byte: what it leaves, with every core's mail as the work has it. -/
theorem did_mail {i : Instr} {f : Nat → Work → Except Stop Work} {d : BitVec 5} {v : Word} {w : Work} {b : Tbl Mail} {p : Nat}
    (h : Ready s g) (ok : i.coreOk = true) (x : exec i s = run s (coreInstr i f))
    (k : w.core g = { coreOf s g with mail := b, ptime := p }) (r : w.regOf g = regionAt s g) (l : w.log = [])
    (e : f g (Work.of s) = w.give g d v) :
    ∃ t, Did s g i d v t ∧ (∀ m, (coreOf t m).mail = (w.core m).mail) ∧ t.mem = s.mem := by
  have go : (w.regOf g).supBase ≤ (w.core g).pc.toNat ∨ (w.core g).step.pc.toNat < (w.regOf g).supBase := by
    rw [r, k, step_mail]
    exact h.2
  have o := coreInstr_ok h.1 ok (e.trans (give_ok d v go))
  have core : coreOf (s.finish ((w.setCore g ((w.core g).setReg d v).step).updCore g fun c => { c with stall := none })) g =
      { ((coreOf s g).setReg d v).step with mail := b, ptime := p, stall := none } := by
    rw [core_finish_updCore, setCore_same, k, setReg_mailOnly, step_mail]
  refine ⟨_, ⟨x.trans o, ?_, ?_, ?_, ?_, ?_, ?_⟩, fun m => ?_, congrArg s.mem.write l⟩
  case refine_7 =>
    by_cases e : g = m
    · subst e
      rw [core, k]
    · exact congrArg Core.mail ((setCore_other _ _ e).trans (setCore_other _ _ e))
  all_goals rw [core]
  · exact step_regs _
  all_goals simp [step_task, step_trap]

/-! ## SEND (R154, R155) -/

section

variable {d a : BitVec 5} {c : BitVec 6} {m : Nat}

/-- Register `a` names the core of grove `m` of the sender's region, and no record waits for the word (R154, R155). -/
structure SendsTo (s : State) (g : Nat) (a : BitVec 5) (c : BitVec 6) (m : Nat) : Prop where
  high : (reg s g a).toNat / 2 ^ 32 = 0
  low : (reg s g a).toNat % 2 ^ 24 = 0
  inside : (reg s g a).toNat / 2 ^ 24 < (regionAt s g).table.ngrove
  names : (Work.of s).mgrove (regionNo s g) ((reg s g a).toNat / 2 ^ 24) = some m
  alone : (((Work.of s).waiting (regionNo s m)).all fun x => !(x.wait == 1 && x.wobj == c.toNat && x.home == m)) = true

/-- SEND on a task core, by what its word comes to (R154, R155). -/
def sendResult (g : Nat) : Sent1 → Except Stop Work
  | .fail => .error (flt 0x09)
  | .full => .error .stall
  | .done y => y.next g

/-- The effect of SEND on a task core. -/
def sendEffect (d a : BitVec 5) (c : BitVec 6) (g : Nat) (w : Work) : Except Stop Work :=
  sendResult g (w.sendWord (.core g) g (w.g g d) (w.g g a) c.toNat (w.core g).cur.eff)

theorem exec_send_core (turn : s.turn = .core g) :
    exec (.send d a c) s = run s (coreInstr (.send d a c) (sendEffect d a c)) :=
  run_of_turn turn fun w e => by simp only [e]; rfl

/-- A word that a core may send comes to what its delivery comes to. -/
theorem sendEffect_delivers (t : SendsTo s g a c m) : sendEffect d a c g (Work.of s) =
    ((Work.of s).deliver m c.toNat (reg s g d)).elim (.error .stall) fun w => w.next g := by
  obtain ⟨high, low, inside, names, -⟩ := t
  have kind : fld (reg s g a) 63 62 = 0 := by rw [fld_eq]; omega
  have zero1 : fld (reg s g a) 61 60 = 0 := by rw [fld_eq]; omega
  have zero2 : fld (reg s g a) 59 32 = 0 := by rw [fld_eq]; omega
  have grove : fld (reg s g a) 31 24 = (reg s g a).toNat / 2 ^ 24 := by rw [fld_eq]; omega
  have dest : (reg s g a).setWidth 24 = (0 : BitVec 24) := BitVec.eq_of_toNat_eq (by rw [BitVec.toNat_setWidth, low]; rfl)
  have fits : ¬ (Work.of s).ngrove ((Work.of s).rno g) ≤ (reg s g a).toNat / 2 ^ 24 := Nat.not_le.2 inside
  have names' : (Work.of s).mgrove ((Work.of s).rno g) ((reg s g a).toNat / 2 ^ 24) = some m := names
  have regs : (Work.of s).g g a = reg s g a := rfl
  simp only [sendEffect, Work.sendWord, regs, kind, zero1, zero2, grove, dest, fits, names']
  cases h : (Work.of s).deliver m c.toNat (reg s g d) <;>
    simp only [show (Work.of s).g g d = reg s g d from rfl, h] <;> rfl

theorem send_queued (h : Ready s g) (ok : (Instr.send d a c).coreOk = true) (t : SendsTo s g a c m)
    (room : (mailOf s m c.toNat).length < 8) :
    ∃ t, Did s g (.send d a c) 0 0 t ∧ mailOf t m c.toNat = mailOf s m c.toNat ++ [reg s g d] ∧ t.mem = s.mem := by
  have e := sendEffect_delivers (d := d) t
  rw [deliver_queued t.alone room, Option.elim_some, ← give_zero _ _ 0] at e
  have core : ∃ b, ((Work.of s).updCore m fun k => k.setChan c.toNat (k.chan c.toNat ++ [reg s g d])).core g =
      { coreOf s g with mail := b, ptime := (coreOf s g).ptime } := by
    rw [updCore_eq, core_setCore]
    split
    · next same => subst same; exact ⟨_, rfl⟩
    · exact ⟨(coreOf s g).mail, rfl⟩
  obtain ⟨b, k⟩ := core
  obtain ⟨u, did, mail, mem⟩ := did_mail h ok (exec_send_core h.1.1) k rfl rfl e
  refine ⟨u, did, ?_, mem⟩
  rw [mailOf, Core.chan, mail m]
  exact (congrArg (fun k => Core.chan k c.toNat) (core_updCore _ m _)).trans (chan_setChan_same _ _ _)

theorem send_holds (h : OnCore s g) (ok : (Instr.send d a c).coreOk = true) (t : SendsTo s g a c m)
    (full : 8 ≤ (mailOf s m c.toNat).length) : Holds s g (.send d a c) := by
  refine (exec_send_core h.1).trans (coreInstr_hold h ok ?_)
  rw [sendEffect_delivers t, deliver_held t.alone full, Option.elim_none]

/-! ## RECV (R156, R157) -/

theorem recv_takes {v : Word} {q : List Word} (h : Ready s g) (ok : (Instr.recv d c).coreOk = true)
    (e : mailOf s g c.toNat = v :: q) : ∃ t, Did s g (.recv d c) d v t ∧ mailOf t g c.toNat = q ∧ t.mem = s.mem := by
  have core := acquire_core ((Work.of s).updCore g fun k => k.setChan c.toNat q) g
  rw [core_updCore] at core
  obtain ⟨t, did, mail, mem⟩ := did_mail (d := d) (v := v) h ok rfl core rfl rfl
    (by simp only [show ((Work.of s).core g).chan c.toNat = v :: q from e])
  refine ⟨t, did, ?_, mem⟩
  rw [mailOf, Core.chan, mail g, acquire_core, core_updCore]
  exact chan_setChan_same _ _ _

theorem recv_suspends {live : BitVec 32} (h : OnCore s g) (ok : (Instr.recv d c).coreOk = true) (e : mailOf s g c.toNat = [])
    (m : MaySuspend s g live ((coreOf s g).pc + 4)) :
    Suspends s g (.recv d c) 1 c.toNat none d ((coreOf s g).pc + 4) live false :=
  suspends_of_suspend h ok rfl m (by simp only [show ((Work.of s).core g).chan c.toNat = [] from e]; rfl)

end

/-! ## Steps of their own (R123, R155) -/

theorem mailDelivery_queues {x : HeldWord} {q : List HeldWord} (held : (coreOf s g).mailHeld = x :: q)
    (alone : (((Work.of s).waiting (regionNo s g)).all fun r => !(r.wait == 1 && r.wobj == x.chan && r.home == g)) = true)
    (room : (mailOf s g x.chan).length < 8) :
    ∃ t, exec (.mailDelivery g x.chan x.word) s = .next t ∧ mailOf t g x.chan = mailOf s g x.chan ++ [x.word] ∧
      (coreOf t g).mailHeld = q ∧ (coreOf t g).regs = (coreOf s g).regs ∧ t.mem = s.mem := by
  have first : ((Work.of s).core g).mailHeld.find? (fun h => h.chan == x.chan) = some x := by
    rw [show ((Work.of s).core g).mailHeld = x :: q from held, List.find?_cons_of_pos (by simp)]
  have e : exec (.mailDelivery g x.chan x.word) s = .next (s.finish (((Work.of s).updCore g fun c =>
      c.setChan x.chan (c.chan x.chan ++ [x.word])).updCore g fun c => { c with mailHeld := c.mailHeld.erase x })) := by
    refine next_congr ?_
    simp only [first, if_true, deliver_queued (v := x.word) alone room]
  refine ⟨_, e, ?_, ?_, ?_, rfl⟩
  · rw [mailOf, core_finish_updCore, core_updCore]
    exact chan_setChan_same _ _ _
  · rw [core_finish_updCore, core_updCore]
    exact (congrArg (fun l => List.erase l x) held).trans (List.erase_cons_head x q)
  · rw [core_finish_updCore, core_updCore]
    rfl

theorem inboundRegisterWrite_lands {n : Nat} {v : Word} {q : List (Nat × Word)} (stall : (coreOf s g).stall = none)
    (port : (coreOf s g).portWait = none) (waits : (coreOf s g).inbound = (n, v) :: q) :
    exec (.inboundRegisterWrite g) s =
      .next (withCore s g { (coreOf s g).setReg (BitVec.ofNat 5 n) v with inbound := q }) := by
  have free : ((Work.of s).core g).atBoundary = true := by
    rw [Core.atBoundary, show ((Work.of s).core g).stall = none from stall, show ((Work.of s).core g).portWait = none from port]
    rfl
  refine (next_congr (v := (Work.of s).setCore g { (coreOf s g).setReg (BitVec.ofNat 5 n) v with inbound := q }) ?_).trans rfl
  simp only [free, show ((Work.of s).core g).inbound = (n, v) :: q from waits]
  rfl

/-- Settles O14, clause by clause. -/
theorem mail : Obligations.Mail := by
  refine ⟨fun s g h => ⟨fun d a c m ok high low inside names alone => ?_,
      fun d c ok => ⟨fun v q e m => recv_takes ⟨h, m⟩ ok e, fun live e m => recv_suspends h ok e m⟩⟩,
    fun s g => ⟨fun x q held alone room => mailDelivery_queues held alone room,
      fun n v q stall port waits => inboundRegisterWrite_lands stall port waits⟩⟩
  have t : SendsTo s g a c m := ⟨high, low, inside, names, alone⟩
  exact ⟨fun room m => send_queued ⟨h, m⟩ ok t room, send_holds h ok t⟩

end Sys2Proof.Proofs
end

section
/-! What a core runs next: new tasks, resumed and switched ones, and records that come back (R144 to R152, R322, R395). -/

namespace Sys2Proof.Proofs

open Sys2Proof.Machine Sys2Proof.Safety Sys2Proof.Laws

variable {s : State} {g : Nat}

/-! ## A core that chooses (R144) -/

/-- The core runs no task and may take one up: no debugger has halted it, and its region runs (R144). -/
structure Idles (s : State) (g : Nat) : Prop where
  task : (coreOf s g).task = none
  halted : (coreOf s g).halted = false
  runs : (regionAt s g).runs = true

theorem Idles.guard (h : Idles s g) :
    (((Work.of s).core g).task.isSome || ((Work.of s).core g).halted || !((Work.of s).regOf g).runs) = false := by
  rw [show ((Work.of s).core g).task = none from h.task, show ((Work.of s).core g).halted = false from h.halted,
    show ((Work.of s).regOf g).runs = true from h.runs]
  rfl

/-- A free word differs in nothing but how many are taken (log entry 3). -/
theorem freshWords_work : ∀ (n : Nat) (w : Work), ∃ k, (freshWords n w).2 = { w with freeCtr := k }
  | 0, _ => ⟨_, rfl⟩
  | n + 1, w => freshWords_work n w.fresh.2

theorem acquire_log (w : Work) (g : Nat) : (w.acquire g).log = w.log := setPtime_log _ _ _

/-! ## A new task (R148, R322) -/

/-- A core on which a new task starts, but for the registers that hold free values and for its program time (R322). -/
def started (w : Work) (g : Nat) (u : Running) (x : TRec) (free : List Word) (p : Nat) : Core :=
  { w.core g with
    regs := [0, bv 64 u.launch.addr, bv 64 (trArg0 x), bv 64 (trArg1 x)] ++ free
    pc := bv 16 (trEpt x)
    asid := (w.regOf g).rasid
    task := some ⟨trColour x, trIter x, u.launch.prio, 0, trWid x, w.mod.cycle, u.launch.prio, false⟩
    loopActive := false
    loopcnt := 0
    stall := none
    kept := none
    opens := none
    trap := { (w.core g).trap with intrap := false, loopHeld := false }
    ptime := p }

theorem startTask_core (w : Work) (g : Nat) (u : Running) (x : TRec) :
    ∃ free p, (w.startTask g u x).core g = started w g u x free p ∧ (w.startTask g u x).log = w.log := by
  obtain ⟨k, e⟩ := freshWords_work 32 (w.acquire g)
  have core : ({ w.acquire g with freeCtr := k } : Work).core g = { w.core g with ptime := max (w.core g).ptime w.mod.maxTime } :=
    acquire_core w g
  refine ⟨(freshWords 32 (w.acquire g)).1.drop 4, max (w.core g).ptime w.mod.maxTime, ?_, ?_⟩
  · rw [Work.startTask, core_updCore, e, core]
    rfl
  · rw [Work.startTask, updCore_eq, setCore_log, e]
    exact acquire_log w g

/-- With no runnable record of its own, a core starts its next new task (R144, R322). -/
theorem taskSchedule_new {u : Running} {x : TRec} {q : List TRec} (h : Idles s g) (launch : (regionAt s g).running = some u)
    (next : (coreOf s g).runQ = x :: q) (new : trKind x ≠ 2) (idle : (coreOf s g).runnable = []) :
    exec (.taskSchedule g) s =
      .next (s.finish (((Work.of s).updCore g fun c => { c with runQ := q }).startTask g u x)) := by
  refine next_congr ?_
  simp only [h.guard, show ((Work.of s).core g).runnable = [] from idle, show ((Work.of s).core g).runQ = x :: q from next,
    show ((Work.of s).regOf g).running = some u from launch, new, bestRec, Bool.false_eq_true, if_false]

theorem taskSchedule_starts {u : Running} {x : TRec} {q : List TRec} (h : Idles s g) (launch : (regionAt s g).running = some u)
    (next : (coreOf s g).runQ = x :: q) (new : trKind x ≠ 2) (idle : (coreOf s g).runnable = []) :
    ∃ t k, exec (.taskSchedule g) s = .next t ∧ (coreOf t g).task = some k ∧ k.wid = trWid x ∧ k.colour = trColour x ∧
      k.iter = trIter x ∧ k.started = s.mod.cycle ∧ (coreOf t g).pc = BitVec.ofNat 16 (trEpt x) ∧
      reg t g 1 = BitVec.ofNat 64 u.launch.addr ∧ reg t g 2 = BitVec.ofNat 64 (trArg0 x) ∧
      reg t g 3 = BitVec.ofNat 64 (trArg1 x) ∧ (coreOf t g).runQ = q ∧ (coreOf t g).loopActive = false ∧ t.mem = s.mem := by
  obtain ⟨free, p, core, log⟩ := startTask_core ((Work.of s).updCore g fun c => { c with runQ := q }) g u x
  have at_ : coreOf (s.finish (((Work.of s).updCore g fun c => { c with runQ := q }).startTask g u x)) g =
      started ((Work.of s).updCore g fun c => { c with runQ := q }) g u x free p := core
  refine ⟨_, ⟨trColour x, trIter x, u.launch.prio, 0, trWid x, s.mod.cycle, u.launch.prio, false⟩,
    taskSchedule_new h launch next new idle, ?_, rfl, rfl, rfl, rfl, ?_, ?_, ?_, ?_, ?_, ?_, congrArg s.mem.write log⟩
  case refine_6 =>
    rw [at_]
    exact congrArg Core.runQ (core_updCore (Work.of s) g _)
  all_goals simp only [reg, at_]; rfl

/-! ## A task resumed (R152) -/

/-- Record `r` resumes on its own core and raises no fault there; it is no FENCE, which would report (R152, R208). -/
structure ResumesAt (r : Record) (g : Nat) : Prop where
  home : r.home = g
  noFence : r.wait ≠ 9
  sound : r.bad = none

theorem resumeOn_core {w : Work} {r : Record} (h : ResumesAt r g) : ∃ free opens p, (w.resumeOn g r).core g =
    { (w.core g).resume r free w.mod.cycle with kept := none, opens := opens, ptime := p } ∧ (w.resumeOn g r).log = w.log := by
  obtain ⟨home, noFence, sound⟩ := h
  obtain ⟨k, e⟩ := freshWords_work 24 w
  unfold Work.resumeOn
  simp only [home, if_true, noFence, false_and, if_false, sound, Option.isSome_none, Bool.false_eq_true, e, acquire_core,
    core_updCore, acquire_log]
  exact ⟨_, _, _, rfl, rfl⟩

/-- With no new task queued, a core resumes the best of its runnable records (R144). -/
theorem taskSchedule_own {x : Record} (h : Idles s g) (empty : (coreOf s g).runQ = [])
    (best : bestRec s.mod.cycle (coreOf s g).runnable = some x) : exec (.taskSchedule g) s =
      .next (s.finish (((Work.of s).updCore g fun c => { c with slots := c.slots.erase x }).resumeOn g x)) := by
  refine next_congr ?_
  simp only [h.guard, show ((Work.of s).core g).runQ = [] from empty,
    show bestRec (Work.of s).mod.cycle ((Work.of s).core g).runnable = some x from best, Bool.false_eq_true, if_false]

/-- A register that LIVE names comes back as it was saved (R148, R152). -/
theorem resumeRegs_live {live : BitVec 32} {saved old free : List Word} {i : BitVec 5} (z : i ≠ 0)
    (l : live.getLsbD i.toNat = true) :
    (resumeRegs live saved old free).getD i.toNat 0 = saved.getD (liveRank live i.toNat) 0 := by
  have z' : i.toNat ≠ 0 := fun e => z (BitVec.eq_of_toNat_eq e)
  rw [resumeRegs, List.getD_eq_getElem?_getD, List.getElem?_map, List.getElem?_range i.isLt]
  simp only [Option.map_some, Option.getD_some, z', l, if_true, if_false]

theorem resumeRegs_length (live : BitVec 32) (saved old free : List Word) : (resumeRegs live saved old free).length = 32 := by
  rw [resumeRegs, List.length_map, List.length_range]

section

variable {c : Core} {r : Record} {free : List Word} {now : Nat} {i : BitVec 5}

theorem resume_reg_saved (f : r.full = false) (z : i ≠ 0) (l : r.live.getLsbD i.toNat = true)
    (o : r.dval = none ∨ i ≠ r.dreg) :
    (c.resume r free now).reg i = r.regs.getD (liveRank r.live i.toNat) 0 := by
  rw [Core.reg, if_neg z, Core.resume]
  simp only [f, Bool.false_eq_true, if_false]
  cases v : r.dval with
  | none => exact resumeRegs_live z l
  | some v' =>
    have ne : i ≠ r.dreg := o.resolve_left fun e => by rw [v] at e; cases e
    exact (setAt_getD_other _ _ _ fun e => ne (BitVec.eq_of_toNat_eq e.symm)).trans (resumeRegs_live z l)

theorem resume_reg_delivered {v : Word} (f : r.full = false) (d : r.dval = some v) (z : r.dreg ≠ 0) :
    (c.resume r free now).reg r.dreg = v := by
  rw [Core.reg, if_neg z, Core.resume]
  simp only [f, d, Bool.false_eq_true, if_false]
  exact setAt_getD_same _ _ _ _ (by rw [resumeRegs_length]; exact r.dreg.isLt)

end

theorem taskSchedule_resumes {x : Record} (h : Idles s g) (empty : (coreOf s g).runQ = [])
    (best : bestRec s.mod.cycle (coreOf s g).runnable = some x) (part : x.full = false) (k : ResumesAt x g) :
    ∃ t, exec (.taskSchedule g) s = .next t ∧
      (coreOf t g).task = some { x.task with started := s.mod.cycle, eff := x.eff s.mod.cycle } ∧ (coreOf t g).pc = x.pc ∧
      (coreOf t g).slots = (coreOf s g).slots.erase x ∧ t.mem = s.mem ∧
      (∀ i : BitVec 5, i ≠ 0 → x.live.getLsbD i.toNat = true → x.dval = none ∨ i ≠ x.dreg →
        reg t g i = x.regs.getD (liveRank x.live i.toNat) 0) ∧
      ∀ v, x.dval = some v → x.dreg ≠ 0 → reg t g x.dreg = v := by
  obtain ⟨free, opens, p, core, log⟩ := resumeOn_core (w := (Work.of s).updCore g fun c => { c with slots := c.slots.erase x }) k
  rw [core_updCore] at core
  have regs : ∀ i, reg (s.finish (((Work.of s).updCore g fun c => { c with slots := c.slots.erase x }).resumeOn g x)) g i =
      (({ coreOf s g with slots := (coreOf s g).slots.erase x } : Core).resume x free s.mod.cycle).reg i :=
    fun i => (congrArg (fun c => Core.reg c i) core).trans rfl
  exact ⟨_, taskSchedule_own h empty best, congrArg Core.task core, congrArg Core.pc core, congrArg Core.slots core,
    congrArg s.mem.write log, fun i z l o => (regs i).trans (resume_reg_saved part z l o),
    fun v d z => (regs x.dreg).trans (resume_reg_delivered part d z)⟩

/-! ## A forced switch (R145, R395) -/

/-- The core's task must give way: it has run its 16,384 cycles, is between two instructions and in no trap, waits for no purge
wave, and a runnable record has its effective priority or a higher one (R145, R387, R395). -/
structure GivesWay (s : State) (g : Nat) (k : Task) (x : Record) : Prop where
  task : (coreOf s g).task = some k
  ran : k.started + 16384 ≤ s.mod.cycle
  trap : (coreOf s g).trap.intrap = false
  halted : (coreOf s g).halted = false
  halting : (coreOf s g).halting = false
  stall : (coreOf s g).stall = none
  port : (coreOf s g).portWait = none
  purge : (Work.of s).purging g = false
  other : x ∈ (coreOf s g).runnable
  prio : k.eff ≤ x.eff s.mod.cycle

theorem GivesWay.switchDue {k : Task} {x : Record} (h : GivesWay s g k x) : (coreOf s g).switchDue s.mod.cycle = true := by
  obtain ⟨task, ran, trap, halted, halting, stall, port, -, other, prio⟩ := h
  have long : 16384 ≤ s.mod.cycle - k.started := by omega
  have better : (coreOf s g).runnable.any (fun r => decide (k.eff ≤ r.eff s.mod.cycle)) = true :=
    List.any_eq_true.2 ⟨x, other, decide_eq_true prio⟩
  simp only [Core.switchDue, task, long, trap, halted, halting, Core.atBoundary, stall, port, better, decide_true, Bool.not_false,
    Option.isNone_none, Bool.and_self]

/-- The record of a task that is switched out: whole, and runnable from now on (R145, R149). -/
def switchedOut (s : State) (g : Nat) : Record :=
  { (coreOf s g).full g (coreOf s g).suspOrder (coreOf s g).pc with since := some s.mod.cycle, trap := none }

theorem forcedSwitch_switches {k : Task} {x : Record} (h : GivesWay s g k x) (room : (Work.of s).slotsHeld g + 2 ≤ 32) :
    exec (.forcedSwitch g) s = .next (withCore s g
      { ({ coreOf s g with slots := (coreOf s g).slots ++ [switchedOut s g] } : Core).idle with
        suspOrder := (coreOf s g).suspOrder + 1 }) := by
  have e : (Work.of s).switched g = some ((Work.of s).setCore g
      { ({ coreOf s g with slots := (coreOf s g).slots ++ [switchedOut s g] } : Core).idle with
        suspOrder := (coreOf s g).suspOrder + 1 }) := by
    have placed : (Work.of s).place g (switchedOut s g) =
        some ((Work.of s).updCore g fun c => { c with slots := c.slots ++ [switchedOut s g] }) := place_fits room
    have due : ((Work.of s).core g).switchDue (Work.of s).mod.cycle = true ∧ (Work.of s).purging g = false :=
      ⟨h.switchDue, h.purge⟩
    rw [Work.switched, if_pos due]
    refine (congrArg (Option.map _) placed).trans ?_
    simp only [Option.map_some, updCore_eq, setCore_same, setCore_twice]
    rfl
  exact (next_congr (congrArg (fun o => o.getD (Work.of s)) e)).trans rfl

theorem forcedSwitch_saves {k : Task} {x : Record} (h : GivesWay s g k x) (room : (Work.of s).slotsHeld g + 2 ≤ 32) :
    ∃ t y, exec (.forcedSwitch g) s = .next t ∧ (coreOf t g).task = none ∧ (coreOf t g).slots = (coreOf s g).slots ++ [y] ∧
      y.full = true ∧ y.regs = (coreOf s g).regs ∧ y.pc = (coreOf s g).pc ∧ y.task = k ∧ y.since = some s.mod.cycle ∧
      y.loopActive = (coreOf s g).loopActive ∧ y.loopcnt = (coreOf s g).loopcnt ∧ t.mem = s.mem := by
  have core := setCore_same (Work.of s) g { ({ coreOf s g with slots := (coreOf s g).slots ++ [switchedOut s g] } : Core).idle with
    suspOrder := (coreOf s g).suspOrder + 1 }
  have cur : (switchedOut s g).task = k := congrArg (fun t => Option.getD t _) h.task
  exact ⟨_, switchedOut s g, forcedSwitch_switches h room, congrArg Core.task core, congrArg Core.slots core,
    rfl, rfl, rfl, cur, rfl, rfl, rfl, rfl⟩

/-! ## Records that wait on S.CYCLE, and spilled ones (R150, R151, R159) -/

theorem cycleWaitExpiry_wakes {n : Nat} {x : Record} (place : n < 32) (slot : (coreOf s g).slots[n]? = some x)
    (waits : x.since = none) (kind : x.wait = 2) (due : x.value.toNat ≤ s.mod.cycle) : exec (.cycleWaitExpiry g n) s =
      .next (withCore s g { coreOf s g with slots := setAt (coreOf s g).slots n { x with since := some s.mod.cycle } }) := by
  have woken : x.wake s.mod.cycle = { x with since := some s.mod.cycle } := by rw [Record.wake, waits]; rfl
  refine (next_congr (v := (Work.of s).updCore g fun c =>
    { c with slots := setAt c.slots n { x with since := some s.mod.cycle } }) ?_).trans rfl
  simp only [place, show ((Work.of s).core g).slots[n]? = some x from slot, waits, kind, of_mod, due,
    and_self, if_true, woken]

theorem spillReadback_reads {k : Nat} {x : Record} (longest : longestSpilled s.mod.cycle (regionAt s g).spill = some (k, x))
    (room : (Work.of s).slotsHeld g + x.size ≤ 32) :
    ∃ t, exec (.spillReadback (regionNo s g) g) s = .next t ∧ (coreOf t g).slots = (coreOf s g).slots ++ [x] ∧
      (regionAt t g).spill = Tbl.del (regionAt s g).spill k ∧ t.mem = s.mem := by
  have readable : (Work.of s).readable (regionNo s g) g = some (k, x) := congrArg (fun o => Option.orElse o _) longest
  have e : exec (.spillReadback (regionNo s g) g) s = .next (s.finish (((Work.of s).updRegion (regionNo s g) fun y =>
      { y with spill := Tbl.del y.spill k }).updCore g fun c => { c with slots := c.slots ++ [x] })) := by
    refine next_congr ?_
    simp only [readable, room, show (Work.of s).rno g = regionNo s g from rfl, and_self, if_true]
  refine ⟨_, e, ?_, congrArg Region.spill (setRegion_same (Work.of s) (regionNo s g) _), rfl⟩
  rw [core_finish_updCore]
  rfl

/-- Settles O19, clause by clause. -/
theorem tasksResume : Obligations.TasksResume :=
  ⟨fun _ _ task halted runs => ⟨fun _ _ _ launch next new idle =>
        taskSchedule_starts ⟨task, halted, runs⟩ launch next new idle,
      fun _ empty best part noFence sound home =>
        taskSchedule_resumes ⟨task, halted, runs⟩ empty best part ⟨home, noFence, sound⟩⟩,
    fun _ _ => ⟨fun _ _ task ran trap halted halting stall port purge other prio room =>
        forcedSwitch_saves ⟨task, ran, trap, halted, halting, stall, port, purge, other, prio⟩ room,
      fun _ _ place slot waits kind due => cycleWaitExpiry_wakes place slot waits kind due,
      fun _ _ longest room => spillReadback_reads longest room⟩⟩

end Sys2Proof.Proofs
end

section
/-! What a node's firing leaves: its outputs placed and its tokens consumed, with counts and trace beside (R91, R92, R416 to
R418), or its colour frozen (R121, R381). -/

namespace Sys2Proof.Proofs

open Sys2Proof.Machine Sys2Proof.Safety Sys2Proof.Laws

/-! ## Counts and trace (R274, R276, R416 to R418) -/

/-- A region but for its trace and its spilled records. -/
def untraced (x : Region) : Region := { x with trdrop := 0, trace := none, spill := [] }

/-- A cell but for its mark that it has fired (R419). -/
def unmarked (c : Cell) : Cell := { c with fired := false }

/-- Nothing differs of cells but their marks, of regions but their traces and spilled records, and of the region that each grove
is in. -/
structure OnlyTraces (w v : Work) : Prop where
  cells : ∀ c, unmarked (v.cell c) = unmarked (w.cell c)
  regions : ∀ r, untraced (v.region r) = untraced (w.region r)
  homes : ∀ g, v.rno g = w.rno g

theorem OnlyTraces.refl (w : Work) : OnlyTraces w w := ⟨fun _ => rfl, fun _ => rfl, fun _ => rfl⟩

theorem OnlyTraces.trans {a b c : Work} (h : OnlyTraces a b) (k : OnlyTraces b c) : OnlyTraces a c :=
  ⟨fun n => (k.cells n).trans (h.cells n), fun r => (k.regions r).trans (h.regions r), fun g => (k.homes g).trans (h.homes g)⟩

theorem OnlyTraces.foldl {α : Type} {f : Work → α → Work} (h : ∀ v a, OnlyTraces v (f v a)) :
    ∀ (l : List α) (w : Work), OnlyTraces w (l.foldl f w)
  | [], w => .refl w
  | a :: l, w => (h w a).trans (OnlyTraces.foldl h l (f w a))

theorem onlyTraces_of_keeps {w v : Work} (h : Keeps w v) : OnlyTraces w v where
  cells c := by rw [Work.cell, Work.cell, h.cells]
  regions r := by rw [Work.region, Work.region, h.regions]
  homes g := by
    obtain ⟨_, _, e⟩ := h.groves g
    rw [Work.rno, Work.rno, e]

theorem onlyTraces_updCore (w : Work) (g : Nat) (f : Core → Core) : OnlyTraces w (w.updCore g f) :=
  ⟨fun _ => rfl, fun _ => rfl, fun _ => rfl⟩

theorem onlyTraces_setGrove (w : Work) (g : Nat) {x : Grove} (h : x.region = (w.grove g).region) :
    OnlyTraces w (w.setGrove g x) where
  cells _ := rfl
  regions _ := rfl
  homes k := by
    rw [Work.rno, grove_setGrove]
    split
    · next e => rw [h, e, Work.rno]
    · rfl

theorem onlyTraces_updRegion (w : Work) (r : Nat) {f : Region → Region}
    (h : ∀ x, untraced (f x) = untraced x := by intros; rfl) : OnlyTraces w (w.updRegion r f) where
  cells _ := rfl
  regions k := by
    by_cases e : r = k
    · rw [← e, updRegion_eq, setRegion_same, h]
    · rw [updRegion_eq, setRegion_other _ _ e]
  homes _ := rfl

theorem onlyTraces_count (w : Work) (g : Nat) (item : Option (Nat × Nat)) (up : Bool) : OnlyTraces w (w.count g item up) := by
  cases item with
  | none => exact .refl w
  | some i => exact onlyTraces_setGrove w g rfl

theorem onlyTraces_releaseToks (g : Nat) : ∀ (ts : List Token) (w : Work), OnlyTraces w (releaseToks g ts w)
  | [], w => .refl w
  | _ :: ts, w => (onlyTraces_count w g _ _).trans (onlyTraces_releaseToks g ts _)

theorem onlyTraces_countOuts (g : Nat) : ∀ (ts : List Token) (w : Work), OnlyTraces w (countOuts g ts w)
  | [], w => .refl w
  | t :: ts, w => by
    refine OnlyTraces.trans ?_ (onlyTraces_countOuts g ts _)
    split
    · exact .refl w
    · exact onlyTraces_count w g _ _

/-- Waking a region's records changes records alone, those in slots and those spilled. -/
theorem onlyTraces_mapRecs (w : Work) (r : Nat) (p : Record → Bool) (f : Record → Record) : OnlyTraces w (w.mapRecs r p f) := by
  refine (OnlyTraces.foldl (fun v g => onlyTraces_updCore v g _) _ w).trans (OnlyTraces.foldl (fun v e => ?_) _ _)
  split
  · exact .refl v
  · refine OnlyTraces.trans ?_ (onlyTraces_updRegion _ r)
    split
    · exact .refl v
    · exact onlyTraces_of_keeps (keeps_pstore _ _ v)

theorem onlyTraces_wakeHandle (w : Work) (g h : Nat) : OnlyTraces w (w.wakeHandle g h) := by
  unfold Work.wakeHandle Work.wakeKind
  exact onlyTraces_mapRecs w _ _ _

theorem onlyTraces_changeHandle (w : Work) (g h : Nat) (x : Handle) : OnlyTraces w (w.changeHandle g h x) :=
  OnlyTraces.trans (b := w.setHandle g h x) (onlyTraces_setGrove w g rfl) (onlyTraces_wakeHandle _ g h)

theorem onlyTraces_tracePost (w : Work) (r : Nat) : OnlyTraces w (w.tracePost r) := by
  unfold Work.tracePost
  split
  · exact (onlyTraces_changeHandle w _ _ _).trans (onlyTraces_updRegion _ r)
  · exact .refl w

/-- A trace record goes into a slot of the trace ring, or is counted as dropped (R417, R418). -/
theorem onlyTraces_traceWrite (w : Work) (r k : Nat) (bs : List Byte) : OnlyTraces w (w.traceWrite r k bs) := by
  unfold Work.traceWrite
  dsimp only
  split
  · exact .refl w
  · split
    · exact onlyTraces_updRegion w r
    · next w1 start =>
      have started : OnlyTraces w w1 := by
        split at start
        · cases start
          exact .refl w
        · split at start
          · cases start
            exact onlyTraces_changeHandle w _ _ _
          · cases start
      split
      · exact onlyTraces_updRegion w r
      · next translated =>
        split
        · exact onlyTraces_updRegion w r
        · have found := started.trans (onlyTraces_of_keeps (keeps_translateNow translated))
          refine iteInduction (motive := OnlyTraces w) (fun _ => OnlyTraces.trans ?_ (onlyTraces_tracePost _ r)) fun _ => ?_
          all_goals
            refine OnlyTraces.trans ?_ (onlyTraces_updRegion _ r)
            exact ((found.trans (onlyTraces_of_keeps (keeps_pstore _ _ _))).trans
              (onlyTraces_of_keeps (keeps_pstore _ _ _))).trans (onlyTraces_of_keeps (keeps_tally _ k 6 32))

theorem onlyTraces_noteFired (w : Work) (c : Nat) (firing : Bool) : OnlyTraces w (w.noteFired c firing) := by
  unfold Work.noteFired
  split
  · refine ⟨fun k => ?_, fun _ => rfl, fun _ => rfl⟩
    by_cases e : c = k
    · rw [← e, updCell_eq, setCell_same]
      rfl
    · rw [updCell_eq, setCell_other _ _ e]
  · exact .refl w

theorem onlyTraces_traced (w : Work) (c : Nat) (firing : Bool) (t : Token) : OnlyTraces w (w.traced c firing t) := by
  unfold Work.traced
  exact iteInduction (motive := OnlyTraces w) (fun _ => (onlyTraces_noteFired w c firing).trans (onlyTraces_traceWrite _ _ _ _))
    fun _ => onlyTraces_noteFired w c firing

/-! ## A firing that completes (R91, R92) -/

variable {s : State} {f : Fire} {x : Inst}

/-- The work of a firing that completes, from the one that its operation leaves: outputs placed, tokens consumed and their counts
released, and the firing traced. -/
def fired (f : Fire) (x : Inst) (outs : List Token) (lc : Nat) (w : Work) : Work :=
  (releaseToks (f.cell / 16) (x.toks.map Prod.snd) (w.updCell f.cell fun c => (c.freeEntries x.ids).emit outs)).traced f.cell true
    (fireToken f x lc)

/-- The work that a chosen firing leaves, by what its operation comes to. -/
def firingWork (s : State) (f : Fire) (x : Inst) : NRes → Work
  | .done outs w => fired f x outs ((Work.of s).logical f.cell) w
  | .fault code addr aux => (Work.of s).freezeNode f.cell f.node f.colour f.iter code x.toks addr aux 1

/-- A node that its cell chooses fires. -/
theorem fireNode_fires {opc : Nat} (eff : Fire → Inst → Work → NRes) (h : Fires s f x opc) :
    run s (fireNode opc eff s.fire) = .next (s.finish (firingWork s f x (eff f x (Work.of s)))) := by
  obtain ⟨rfl, inst, opc, chosen⟩ := h
  refine next_congr ?_
  unfold fireNode
  rw [show ((Work.of s).cell s.fire.cell).inst s.fire = some x from inst]
  dsimp only
  rw [if_pos ⟨opc, chosen⟩]
  cases eff s.fire x (Work.of s) <;> rfl

theorem fireNode_done {opc : Nat} {eff : Fire → Inst → Work → NRes} {outs : List Token} {w : Work} (h : Fires s f x opc)
    (e : eff f x (Work.of s) = .done outs w) :
    run s (fireNode opc eff s.fire) = .next (s.finish (fired f x outs ((Work.of s).logical f.cell) w)) := by
  rw [fireNode_fires eff h, e, firingWork]

theorem fireNode_fault {opc code : Nat} {eff : Fire → Inst → Work → NRes} {addr aux : Word} (h : Fires s f x opc)
    (e : eff f x (Work.of s) = .fault code addr aux) : run s (fireNode opc eff s.fire) =
      .next (s.finish ((Work.of s).freezeNode f.cell f.node f.colour f.iter code x.toks addr aux 1)) := by
  rw [fireNode_fires eff h, e, firingWork]

/-- Releasing the counts of the tokens and tracing the firing change nothing but counts and trace. -/
theorem fired_onlyTraces (outs : List Token) (lc : Nat) (w : Work) :
    OnlyTraces (w.updCell f.cell fun c => (c.freeEntries x.ids).emit outs) (fired f x outs lc w) :=
  (onlyTraces_releaseToks _ _ _).trans (onlyTraces_traced _ _ _ _)

/-- A firing changes regions as its operation does, but for their traces and spilled records. -/
theorem fired_regions (outs : List Token) (lc : Nat) (w : Work) (r : Nat) :
    untraced ((fired f x outs lc w).region r) = untraced (w.region r) := (fired_onlyTraces outs lc w).regions r

theorem fired_rno (outs : List Token) (lc : Nat) (w : Work) (g : Nat) : (fired f x outs lc w).rno g = w.rno g :=
  (fired_onlyTraces outs lc w).homes g

/-- What a firing leaves in its cell, where its operation has left the cell alone but for its mark (R91, R92). -/
theorem fired_sent {w : Work} (c : unmarked (w.cell f.cell) = unmarked (cellOf s f.cell)) (outs : List Token) (lc : Nat) :
    Sent s (s.finish (fired f x outs lc w)) f x outs := by
  have e : unmarked (cellOf (s.finish (fired f x outs lc w)) f.cell) =
      unmarked (((w.cell f.cell).freeEntries x.ids).emit outs) :=
    ((fired_onlyTraces outs lc w).cells f.cell).trans (congrArg unmarked (setCell_same _ _ _))
  have outq : (w.cell f.cell).outq = (cellOf s f.cell).outq := (congrArg Cell.outq c :)
  have entries : (w.cell f.cell).entries = (cellOf s f.cell).entries := (congrArg Cell.entries c :)
  exact ⟨(congrArg Cell.outq e).trans (congrArg (· ++ _) outq),
    (congrArg Cell.entries e).trans (congrArg (List.filter fun (k : Entry) => !x.ids.contains k.id) entries)⟩

/-- A firing whose outputs are counted, from the work `v` that its operation leaves: it sends them, and what it leaves of regions
is what `v` has of them, traces and spilled records apart (R92, R274). -/
theorem sendsAnd_of_fired {i : Instr} {outs : List Token} {lc : Nat} {v : Work} {also : State → Prop}
    (e : exec i s = .next (s.finish (fired f x outs lc (countOuts (f.cell / 16) outs v)))) (c : v.cell f.cell = cellOf s f.cell)
    (k : ∀ t, (∀ r, untraced (regionOf t r) = untraced (v.region r)) → (∀ g, (Work.of t).rno g = v.rno g) → also t) :
    SendsAnd s i f x outs also := by
  have counted := onlyTraces_countOuts (f.cell / 16) outs v
  exact ⟨_, e, fired_sent ((counted.cells f.cell).trans (congrArg unmarked c)) _ _,
    k _ (fun r => (fired_regions _ _ _ r).trans (counted.regions r)) fun g => (fired_rno _ _ _ g).trans (counted.homes g)⟩

/-! ## A colour frozen at a node (R121, R381) -/

/-- The object that a colour frozen at a node is kept as, under its release number (R381). -/
def frozenColour (n mc node : Nat) (c : BitVec 12) (i : BitVec 16) (code : Nat) (toks : List (Nat × Token)) (aux : Word)
    (what : Nat) : Frozen where
  fseq := n
  okind := 2
  code := code
  stuck := false
  grove := mc / 16
  cell := mc
  node := node
  colour := c
  iter := i
  toks := toks
  task := none
  what := what
  aux := aux.toNat

theorem freezeNode_frozen (w : Work) (mc node : Nat) (c : BitVec 12) (i : BitVec 16) (code : Nat) (toks : List (Nat × Token))
    (addr aux : Word) (what : Nat) :
    ((w.freezeNode mc node c i code toks addr aux what).region (w.rno (mc / 16))).frozen = (w.region (w.rno (mc / 16))).frozen ++
      [frozenColour (w.region (w.rno (mc / 16))).nextFseq mc node c i code toks aux what] :=
  congrArg Region.frozen (setRegion_same w (w.rno (mc / 16)) _)

/-- A firing that faults freezes its colour at its node (R121, R381). -/
theorem freezes_of_fault {i : Instr} {opc code : Nat} {eff : Fire → Inst → Work → NRes}
    (k : exec i s = run s (fireNode opc eff s.fire)) (h : Fires s f x opc) (e : eff f x (Work.of s) = .fault code 0 0) :
    Freezes s i f x code := by
  have region := setRegion_same (Work.of s) ((Work.of s).rno (f.cell / 16))
  exact ⟨_, _, _, k.trans (fireNode_fault h e), congrArg Region.frozen (region _), congrArg Region.faults (region _),
    rfl, rfl, rfl, rfl, rfl, rfl, rfl, rfl, rfl, rfl, rfl⟩

end Sys2Proof.Proofs
end

section
/-! NCOLOUR, NRETURN, the colour pool and its watchdog (R162 to R166). -/

namespace Sys2Proof.Proofs

open Sys2Proof.Machine Sys2Proof.Safety Sys2Proof.Laws

variable {s : State} {f : Fire} {x : Inst}

/-- An NCOLOUR that has its tokens asks the pool, once (R164; log entry 95). -/
theorem ncolour_asks (fire : s.fire = f) (inst : (cellOf s f.cell).inst f = some x)
    (opc : nOpc ((cellOf s f.cell).node f.node) = 0x1A) (may : (Work.of s).mayFire f = true)
    (new : ∀ e ∈ (regionAt s (f.cell / 16)).waitC, e.1 ≠ f) :
    ∃ t, exec .ncolour s = .next t ∧ t.cells = s.cells ∧ t.mem = s.mem ∧
      (regionAt t (f.cell / 16)).waitC = (regionAt s (f.cell / 16)).waitC ++ [(f, s.mod.cycle)] := by
  subst fire
  have once : (((Work.of s).region ((Work.of s).rno (s.fire.cell / 16))).waitC.any fun e => e.1 == s.fire) = false :=
    List.any_eq_false.2 fun e m => by simpa using new e m
  have due : (((Work.of s).cell s.fire.cell).inst s.fire).isSome = true ∧
      nOpc (((Work.of s).cell s.fire.cell).node s.fire.node) = 0x1A ∧ (Work.of s).mayFire s.fire = true ∧
      (((Work.of s).region ((Work.of s).rno (s.fire.cell / 16))).waitC.any fun e => e.1 == s.fire) = false :=
    ⟨Option.isSome_iff_exists.2 ⟨x, inst⟩, opc, may, once⟩
  exact ⟨_, next_congr (if_pos due), rfl, rfl, congrArg Region.waitC (setRegion_same (Work.of s) _ _)⟩

/-! ## A grant (R164) -/

section

variable {r c n : Nat} {q : List (Fire × Nat)} {rest : List Nat}

/-- The pool's first request is the firing's, asked once, and it may be served: its tokens stand at an NCOLOUR that may fire
and whose cell has room, and a colour is free (R162, R164). -/
structure Grants (s : State) (r c n : Nat) (f : Fire) (x : Inst) (q : List (Fire × Nat)) (rest : List Nat) : Prop where
  first : (regionOf s r).waitC = (f, n) :: q
  once : ∀ e ∈ q, e.1 ≠ f
  inst : (cellOf s f.cell).inst f = some x
  free : (regionOf s r).freeColours = c :: rest
  opc : nOpc ((cellOf s f.cell).node f.node) = 0x1A
  may : (Work.of s).mayFire f = true
  room : (cellOf s f.cell).room (reserved (Tbl.vals (cellOf s f.cell).twigs) + dests [nDstA x.r, nDstB x.r]) = true

theorem Grants.grantee (h : Grants s r c n f x q rest) : (Work.of s).grantee r = some f := by
  have asks : (Work.of s).asksPool f = true := by
    rw [Work.asksPool, show ((Work.of s).cell f.cell).inst f = some x from h.inst,
      show nOpc (((Work.of s).cell f.cell).node f.node) = 0x1A from h.opc]
    rfl
  rw [Work.grantee, show ((Work.of s).region r).waitC = (f, n) :: q from h.first,
    List.find?_cons_of_pos (by rw [h.may, asks]; rfl)]
  rfl

/-- The region once the pool has given colour `c` to the firing. -/
def drawn (s : State) (r c : Nat) (f : Fire) (x : Inst) (rest : List Nat) : Region :=
  (regionOf s r).draw c f (bv 24 (litF x.r 23 0)) rest s.mod.cycle

theorem colourGrant_fires (h : Grants s r c n f x q rest) : exec (.colourGrant r) s =
    .next (s.finish (fired f x (colourOuts x (bv 12 c)) ((Work.of s).logical f.cell)
      (countOuts (f.cell / 16) (colourOuts x (bv 12 c)) ((Work.of s).setRegion r (drawn s r c f x rest))))) := by
  refine next_congr ?_
  simp only [h.grantee, show ((Work.of s).cell f.cell).inst f = some x from h.inst,
    show ((Work.of s).region r).freeColours = c :: rest from h.free]
  exact if_pos h.room

theorem colourGrant_sends (h : Grants s r c n f x q rest) : SendsAnd s (.colourGrant r) f x
    [{ passTo x (x.tok 0) (nDstA x.r) with colour := BitVec.ofNat 12 c, iter := 0 },
      { passTo x (if osb0 x.r then x.tok 1 else x.tok 0) (nDstB x.r) with colour := BitVec.ofNat 12 c, iter := 0 }] fun t =>
    (regionOf t r).freeColours = rest ∧ (regionOf t r).waitC = q ∧
      Tbl.find (regionOf t r).colours c = some ⟨(regionOf s r).stampNext, some (f.colour, f.iter, (nLit x.r).setWidth 24)⟩ := by
  refine sendsAnd_of_fired (colourGrant_fires h) rfl fun t regions _ => ?_
  have region : untraced (regionOf t r) = untraced (drawn s r c f x rest) :=
    (regions r).trans (congrArg untraced (setRegion_same _ _ _))
  have left : (regionOf s r).waitC.filter (fun e => e.1 != f) = q := by
    rw [h.first, List.filter_cons_of_neg (by simp)]
    exact List.filter_eq_self.2 fun e m => by simpa using h.once e m
  have ret : bv 24 (litF x.r 23 0) = (nLit x.r).setWidth 24 := BitVec.eq_of_toNat_eq (by simp [litF, bits])
  have recorded : Tbl.find (drawn s r c f x rest).colours c =
      some ⟨(regionOf s r).stampNext, some (f.colour, f.iter, (nLit x.r).setWidth 24)⟩ := by
    rw [← ret]
    exact find_put_same _ _ _
  exact ⟨(congrArg Region.freeColours region :), (congrArg Region.waitC region).trans left,
    (congrArg (fun y => Tbl.find (Region.colours y) c) region).trans recorded⟩

end

/-! ## NRETURN (R165, R166) -/

/-- NRETURN's output: its token for the recorded destination, in the caller's tag (R165). -/
def returned (x : Inst) (c : BitVec 12) (i : BitVec 16) (d : BitVec 24) : List Token :=
  [{ passTo x (x.tok 0) d with colour := c, iter := i }]

/-- The work once the firing's colour has gone back to the pool. -/
def gaveBack (s : State) (f : Fire) : Work :=
  (Work.of s).updRegion ((Work.of s).rno (f.cell / 16)) fun y => y.giveBack f.colour.toNat s.mod.cycle

theorem nreturn_returns (h : Fires s f x 0x1B) {z : Nat} {c : BitVec 12} {i : BitVec 16} {d : BitVec 24}
    (out : Tbl.find (regionAt s (f.cell / 16)).colours f.colour.toNat = some ⟨z, some (c, i, d)⟩) :
    SendsAnd s .nreturn f x [{ passTo x (x.tok 0) d with colour := c, iter := i }] fun t =>
      (regionAt t (f.cell / 16)).freeColours = (regionAt s (f.cell / 16)).freeColours ++ [f.colour.toNat] ∧
        Tbl.find (regionAt t (f.cell / 16)).colours f.colour.toNat = none := by
  have e : exec .nreturn s = .next (s.finish (fired f x (returned x c i d) ((Work.of s).logical f.cell)
      (countOuts (f.cell / 16) (returned x c i d) (gaveBack s f)))) := by
    refine fireNode_done h ?_
    simp only [show Tbl.find ((Work.of s).region ((Work.of s).rno (f.cell / 16))).colours f.colour.toNat = _ from out]
    rfl
  refine sendsAnd_of_fired e rfl fun t regions homes => ?_
  have region : untraced (regionAt t (f.cell / 16)) =
      untraced ((regionAt s (f.cell / 16)).giveBack f.colour.toNat s.mod.cycle) :=
    (congrArg (fun r => untraced (regionOf t r)) (homes _)).trans
      ((regions _).trans (congrArg untraced (setRegion_same _ _ _)))
  exact ⟨(congrArg Region.freeColours region :),
    (congrArg (fun y => Tbl.find (Region.colours y) f.colour.toNat) region).trans (find_del_same _ _)⟩

theorem nreturn_freezes (h : Fires s f x 0x1B)
    (held : ∀ z c i d, Tbl.find (regionAt s (f.cell / 16)).colours f.colour.toNat ≠ some ⟨z, some (c, i, d)⟩) :
    Freezes s .nreturn f x 0x11 := by
  refine freezes_of_fault rfl h ?_
  dsimp only
  split
  · next z c i d e => exact absurd e (held z c i d)
  · rfl

/-! ## The watchdog (R166) -/

/-- A waiting caller's colour frozen at its node (R166). -/
def freezeCaller (w : Work) (e : Fire × Nat) : Work :=
  w.freezeNode e.1.cell e.1.node e.1.colour e.1.iter 0x22
    (match (w.cell e.1.cell).inst e.1 with
      | some x => x.toks
      | none => []) 0 0 1

/-- What the watchdog's records name of each waiting caller (R166, R381). -/
def callerOf (e : Fire × Nat) : Nat × Nat × Nat × Nat × BitVec 12 := (2, 0x22, e.1.cell, e.1.node, e.1.colour)

/-- What a record of a frozen object names. -/
def nameOf (o : Frozen) : Nat × Nat × Nat × Nat × BitVec 12 := (o.okind, o.code, o.cell, o.node, o.colour)

theorem freezeCaller_frozen (w : Work) (e : Fire × Nat) : ∃ o,
    ((freezeCaller w e).region (w.rno (e.1.cell / 16))).frozen = (w.region (w.rno (e.1.cell / 16))).frozen ++ [o] ∧
      nameOf o = callerOf e := ⟨_, freezeNode_frozen w _ _ _ _ _ _ _ _ _, rfl⟩

/-- Each waiting caller in turn leaves its object, and nothing but regions changes. -/
theorem foldl_freezeCaller (r : Nat) : ∀ (l : List (Fire × Nat)) (w : Work), (∀ e ∈ l, w.rno (e.1.cell / 16) = r) →
    ∃ os, ((l.foldl freezeCaller w).region r).frozen = (w.region r).frozen ++ os ∧ os.map nameOf = l.map callerOf ∧
      (l.foldl freezeCaller w).cells = w.cells ∧ (l.foldl freezeCaller w).log = w.log
  | [], w, _ => ⟨[], (List.append_nil _).symm, rfl, rfl, rfl⟩
  | e :: l, w, h => by
    obtain ⟨os, frozen, names, cells, log⟩ := foldl_freezeCaller r l (freezeCaller w e) fun k m => h k (List.mem_cons_of_mem e m)
    obtain ⟨o, first, name⟩ := freezeCaller_frozen w e
    rw [h e List.mem_cons_self] at first
    refine ⟨o :: os, ?_, by rw [List.map_cons, List.map_cons, name, names], cells, log⟩
    rw [List.foldl_cons, frozen, first, List.append_assoc]
    rfl

theorem colourWatchdog_freezes {r n : Nat} (waits : (regionOf s r).waitC ≠ []) (since : (regionOf s r).cpoolSince = some n)
    (due : 2 ^ (regionOf s r).cwdog ≤ s.mod.cycle - n)
    (here : ∀ e ∈ (regionOf s r).waitC, regionNo s (e.1.cell / 16) = r) :
    ∃ t os, exec (.colourWatchdog r) s = .next t ∧ (regionOf t r).waitC = [] ∧ t.cells = s.cells ∧ t.mem = s.mem ∧
      (regionOf t r).frozen = (regionOf s r).frozen ++ os ∧ os.map nameOf = (regionOf s r).waitC.map callerOf := by
  obtain ⟨os, frozen, names, cells, log⟩ := foldl_freezeCaller r (regionOf s r).waitC (Work.of s) here
  have waiting : (regionOf s r).waitC.isEmpty = false := List.isEmpty_eq_false_iff.2 waits
  have e : exec (.colourWatchdog r) s = .next (s.finish (((regionOf s r).waitC.foldl freezeCaller (Work.of s)).updRegion r fun y =>
      { y with waitC := [], cpoolSince := none })) := by
    refine next_congr ?_
    simp only [show ((Work.of s).region r).cpoolSince = some n from since]
    exact if_pos ⟨waiting, due⟩
  have region := setRegion_same ((regionOf s r).waitC.foldl freezeCaller (Work.of s)) r
  exact ⟨_, os, e, congrArg Region.waitC (region _), cells, congrArg s.mem.write log,
    (congrArg Region.frozen (region _)).trans frozen, names⟩

/-- Settles O30, clause by clause. -/
theorem colours : Obligations.Colours :=
  ⟨fun _ _ _ fire inst opc may new => ncolour_asks fire inst opc may new,
    fun _ _ _ _ _ _ _ _ first once inst free opc may room => colourGrant_sends ⟨first, once, inst, free, opc, may, room⟩,
    fun _ _ _ h => ⟨fun _ _ _ _ => nreturn_returns h, nreturn_freezes h⟩,
    fun _ _ _ waits since due here => colourWatchdog_freezes waits since due here⟩

end Sys2Proof.Proofs
end

section
/-! Firings that change nothing outside their cell (R91, R92), where their region keeps no trace (R416). -/

namespace Sys2Proof.Proofs

open Sys2Proof.Machine Sys2Proof.Safety Sys2Proof.Laws

/-! ## Work that stays in a cell -/

/-- Bytes, task cores, regions, matrix arrays, the region of every grove and every cell but one are as they were. -/
structure InCell (c : Nat) (w v : Work) : Prop where
  log : v.log = w.log
  cores : v.cores = w.cores
  regions : v.regions = w.regions
  mxs : v.mxs = w.mxs
  homes : ∀ g, v.rno g = w.rno g
  cells : ∀ k, k ≠ c → v.cell k = w.cell k

variable {c : Nat} {w v u : Work}

theorem InCell.refl (c : Nat) (w : Work) : InCell c w w := ⟨rfl, rfl, rfl, rfl, fun _ => rfl, fun _ _ => rfl⟩

theorem InCell.trans (h : InCell c w v) (k : InCell c v u) : InCell c w u where
  log := k.log.trans h.log
  cores := k.cores.trans h.cores
  regions := k.regions.trans h.regions
  mxs := k.mxs.trans h.mxs
  homes g := (k.homes g).trans (h.homes g)
  cells n e := (k.cells n e).trans (h.cells n e)

theorem InCell.regOf (h : InCell c w v) (g : Nat) : v.regOf g = w.regOf g := by
  rw [Work.regOf, Work.regOf, Work.region, Work.region, h.homes, h.regions]

theorem inCell_updCell (w : Work) (c : Nat) (f : Cell → Cell) : InCell c w (w.updCell c f) :=
  ⟨rfl, rfl, rfl, rfl, fun _ => rfl, fun _ e => setCell_other _ _ e.symm⟩

theorem inCell_count (c : Nat) (w : Work) (g : Nat) (item : Option (Nat × Nat)) (up : Bool) : InCell c w (w.count g item up) := by
  have homes := (onlyTraces_count w g item up).homes
  cases item <;> exact ⟨rfl, rfl, rfl, rfl, homes, fun _ _ => rfl⟩

theorem inCell_releaseToks (c g : Nat) : ∀ (ts : List Token) (w : Work), InCell c w (releaseToks g ts w)
  | [], w => .refl c w
  | _ :: ts, w => (inCell_count c w g _ _).trans (inCell_releaseToks c g ts _)

theorem releaseToks_cell (w : Work) (g : Nat) (ts : List Token) (k : Nat) : (releaseToks g ts w).cell k = w.cell k :=
  (inCell_releaseToks (k + 1) g ts w).cells k (Nat.ne_add_one k)

theorem inCell_noteFired (w : Work) (c : Nat) (firing : Bool) : InCell c w (w.noteFired c firing) := by
  unfold Work.noteFired
  split
  · exact inCell_updCell w c _
  · exact .refl c w

/-- Where a region keeps no trace, a firing is only noted for its cell's cycle class (R416, R419). -/
theorem traced_off {firing : Bool} {t : Token} (off : (w.regOf (c / 16)).trctl.getLsbD 63 = false) :
    w.traced c firing t = w.noteFired c firing := by
  have same : ((w.noteFired c firing).region ((w.noteFired c firing).rno (c / 16))).trctl.getLsbD 63 = false := by
    rw [← off]
    exact congrArg (fun r => (Region.trctl r).getLsbD 63) ((inCell_noteFired w c firing).regOf (c / 16))
  unfold Work.traced
  exact if_neg fun h => Bool.false_ne_true (same.symm.trans h.1)

/-! ## Firings -/

variable {s : State} {f : Fire} {x : Inst} {i : Instr}

/-- A state keeps everything outside a cell where its work, traced, stays in the cell (R416 to R418). -/
theorem cellOnly_traced (h : InCell c (Work.of s) w) (firing : Bool) (t : Token) :
    CellOnly s (s.finish (w.traced c firing t)) c := by
  intro off
  have k := h.trans (inCell_noteFired w c firing)
  rw [traced_off ((congrArg (fun r => (Region.trctl r).getLsbD 63) (h.regOf (c / 16))).trans off)]
  exact ⟨congrArg s.mem.write k.log, k.cores, k.regions, k.mxs, k.cells⟩

/-- A firing does nothing but send where its operation leaves nothing but times and counts changed (R91, R92). -/
theorem sends_of_fired {outs : List Token} {lc : Nat} (e : exec i s = .next (s.finish (fired f x outs lc w)))
    (h : InCell f.cell (Work.of s) w) (c : w.cell f.cell = cellOf s f.cell) : Sends s i f x outs :=
  ⟨_, e, fired_sent (congrArg unmarked c) outs lc,
    cellOnly_traced ((h.trans (inCell_updCell w _ _)).trans (inCell_releaseToks _ _ _ _)) _ _⟩

/-- A node whose operation only makes tokens sends them. -/
theorem sends_of_done {opc : Nat} {eff : Fire → Inst → Work → NRes} {outs : List Token} (k : exec i s = run s (fireNode opc eff s.fire))
    (h : Fires s f x opc) (e : eff f x (Work.of s) = .done outs (Work.of s)) : Sends s i f x outs :=
  sends_of_fired (k.trans (fireNode_done h e)) (.refl _ _) rfl

end Sys2Proof.Proofs
end

section
/-! NLD, NST, NRED, NATOM: requests issued and updates sent (R187, R188, R204, R205). -/

namespace Sys2Proof.Proofs

open Sys2Proof.Machine Sys2Proof.Safety Sys2Proof.Laws

variable {s : State} {f : Fire} {x : Inst} {i : Instr}

/-- The record that a firing shows is its node's. -/
theorem inst_record {c : Cell} (h : c.inst f = some x) : x.r = c.node f.node := by
  have held : ∀ y, c.held22 f = some y → y.r = c.node f.node := fun y e => by
    obtain ⟨_, -, rfl⟩ := Option.map_eq_some_iff.1 e
    rfl
  unfold Cell.inst at h
  split at h
  · cases h
  · next y e =>
    split at h
    · split at h
      · cases h
        exact held y e
      · cases h
    · cases h
      exact held _ e

/-- A request as a firing issues it, under its cell's next number (R187). -/
theorem memReq_requestOf (s : State) (f : Fire) (x : Inst) (store : Bool) (data : List Word) :
    { memReq f x store data with id := (cellOf s f.cell).reqSeq } = requestOf s f x store data := by
  have field : ∀ n, n / 2 ^ 24 % 2 ^ 8 = n / 2 ^ 24 ∨ 2 ^ 32 ≤ n := fun n => by omega
  have top : (nLit x.r).toNat / 2 ^ 24 % 2 ^ 8 = (nLit x.r).toNat / 2 ^ 24 :=
    (field _).resolve_right (Nat.not_le.2 (nLit x.r).isLt)
  simp only [memReq, requestOf, litSucc, litF, bits, Nat.reduceAdd, Nat.reduceSub, top, pow_zero, Nat.div_one]

theorem openChain_keeps (c : Cell) (k : BitVec 12) (n : BitVec 16) :
    (c.openChain k n).reqs = c.reqs ∧ (c.openChain k n).outq = c.outq ∧ (c.openChain k n).entries = c.entries := by
  unfold Cell.openChain
  split <;> exact ⟨rfl, rfl, rfl⟩

/-- A cell once a firing has issued a request: its tokens' entries are free, and an ordered request's chain is open (R187, R188). -/
def issuedCell (f : Fire) (x : Inst) (q : MemReq) (c : Cell) : Cell :=
  let c1 := { c.freeEntries x.ids with reqs := c.reqs ++ [q], reqSeq := c.reqSeq + 1 }
  if q.unord then c1 else c1.openChain f.colour f.iter

theorem issuedCell_fields (f : Fire) (x : Inst) (q : MemReq) (c : Cell) :
    (issuedCell f x q c).reqs = c.reqs ++ [q] ∧ (issuedCell f x q c).outq = c.outq ∧
      (issuedCell f x q c).entries = c.entries.filter fun e => !x.ids.contains e.id := by
  unfold issuedCell
  split
  · exact ⟨rfl, rfl, rfl⟩
  · exact openChain_keeps _ _ _

/-- A chosen memory node issues its request (R187). -/
theorem issues_of_fires {opc : Nat} {mk : Fire → Inst → MemReq} {q : MemReq} (h : Fires s f x opc)
    (k : exec i s = run s (issueNode opc mk s.fire)) (e : { mk f x with id := (cellOf s f.cell).reqSeq } = q) :
    Issues s i f x q := by
  obtain ⟨rfl, inst, opc, chosen⟩ := h
  have work : exec i s = .next (s.finish (((Work.of s).updCell s.fire.cell (issuedCell s.fire x q)).traced s.fire.cell true
      (fireToken s.fire x ((Work.of s).logical s.fire.cell)))) := by
    refine k.trans (next_congr ?_)
    unfold issueNode
    rw [show ((Work.of s).cell s.fire.cell).inst s.fire = some x from inst]
    dsimp only
    rw [if_pos ⟨opc, chosen⟩, ← e]
    rfl
  have cell : unmarked (cellOf (s.finish (((Work.of s).updCell s.fire.cell (issuedCell s.fire x q)).traced s.fire.cell true
      (fireToken s.fire x ((Work.of s).logical s.fire.cell)))) s.fire.cell) = unmarked (issuedCell s.fire x q (cellOf s s.fire.cell)) :=
    ((onlyTraces_traced _ _ _ _).cells _).trans (congrArg unmarked (setCell_same _ _ _))
  obtain ⟨reqs, outq, entries⟩ := issuedCell_fields s.fire x q (cellOf s s.fire.cell)
  exact ⟨_, work, (congrArg Cell.reqs cell).trans reqs, (congrArg Cell.outq cell).trans outq,
    (congrArg Cell.entries cell).trans entries, cellOnly_traced (inCell_updCell _ _ _) _ _⟩

theorem nld_issues (h : Fires s f x 0x21) : Issues s .nld f x (requestOf s f x false []) :=
  issues_of_fires h rfl (memReq_requestOf s f x false [])

theorem nst_issues (h : Fires s f x 0x22) :
    Issues s .nst f x (requestOf s f x true ((List.range 6).map (tokW (x.tok 1)))) :=
  issues_of_fires h rfl (memReq_requestOf s f x true _)

/-- NRED: an update, acknowledged where B is a destination (R204). -/
theorem nred_sends (h : Fires s f x 0x24) : Sends s .nred f x
    (if x.anyNull then [mkNull (nDstB x.r) f.colour f.iter (x.tok 0).seq (nPrio x.r)]
      else if nDstB x.r = noDst then
        [mkUpdate (nDstA x.r) f.colour f.iter (x.tok 0).seq (nPrio x.r) (tokW (x.tok 0) 0) (tokW (x.tok 1) 0) (nType x.r).toNat 0 0]
      else [mkUpdate (nDstA x.r) f.colour f.iter (x.tok 0).seq (nPrio x.r) (tokW (x.tok 0) 0) (tokW (x.tok 1) 0) (nType x.r).toNat 2
        (nDstB x.r)]) := by
  refine sends_of_done rfl h ?_
  dsimp only
  split
  · rfl
  · split <;> rfl

theorem exec_natom_unordered (h : Fires s f x 0x25) (o : osb0 x.r = true) : exec .natom s = run s (fireNode 0x25
    (fun g y v => .done [if y.anyNull then mkNull (nDstB y.r) g.colour g.iter (y.tok 0).seq (nPrio y.r)
      else natomUpdate (memReq g y true [tokW (y.tok 1) 0]) none] v) s.fire) := by
  obtain ⟨rfl, inst, -, -⟩ := h
  rw [inst_record inst] at o
  exact next_congr (if_pos o)

theorem exec_natom_ordered (h : Fires s f x 0x25) (o : osb0 x.r = false) : exec .natom s =
    run s (issueNode 0x25 (fun g y => memReq g y true [tokW (y.tok 1) 0]) s.fire) := by
  obtain ⟨rfl, inst, -, -⟩ := h
  rw [inst_record inst] at o
  exact next_congr (if_neg (Bool.not_eq_true _ ▸ o))

/-- NATOM, unordered: its update asks for the old value (R205). -/
theorem natom_sends (h : Fires s f x 0x25) (o : osb0 x.r = true) : Sends s .natom f x
    (if x.anyNull then [mkNull (nDstB x.r) f.colour f.iter (x.tok 0).seq (nPrio x.r)]
      else [mkUpdate (nDstA x.r) f.colour f.iter (x.tok 0).seq (nPrio x.r) (tokW (x.tok 0) 0) (tokW (x.tok 1) 0) (nType x.r).toNat 1
        (nDstB x.r)]) := by
  refine sends_of_done (exec_natom_unordered h o) h ?_
  split <;> rfl

theorem natom_issues (h : Fires s f x 0x25) (o : osb0 x.r = false) :
    Issues s .natom f x (requestOf s f x true [tokW (x.tok 1) 0]) :=
  issues_of_fires h (exec_natom_ordered h o) (memReq_requestOf s f x true _)

end Sys2Proof.Proofs
end

section
/-! Accesses of memory nodes, generators and owners: their own bank, and module memory through their grove's buffer (R183, R185,
R187, R189, R192). -/

namespace Sys2Proof.Proofs

open Sys2Proof.Machine Sys2Proof.Safety Sys2Proof.Laws

/-! ## Times of an agent (R188, R192) -/

theorem apart_agent (c k n : Nat) : Apart (.agent c k n) := fun _ => Who.noConfusion
theorem apart_cell (c : Nat) : Apart (.cell c) := fun _ => Who.noConfusion

theorem TimesOnly.refl (w : Work) : TimesOnly w w := ⟨_, _, _, _, rfl⟩

theorem TimesOnly.keeps {w v : Work} (h : TimesOnly w v) : Keeps w v := by
  obtain ⟨_, _, _, _, rfl⟩ := h
  exact keeps_updMod w _ fun _ => ⟨_, _, _, _, _, _, _, _, rfl⟩

theorem TimesOnly.log {w v : Work} (h : TimesOnly w v) : v.log = w.log := by
  obtain ⟨_, _, _, _, rfl⟩ := h
  rfl

theorem TimesOnly.groves {w v : Work} (h : TimesOnly w v) : v.groves = w.groves := by
  obtain ⟨_, _, _, _, rfl⟩ := h
  rfl

theorem timesOnly_follow (w : Work) {who : Who} (h : Apart who) (p : Nat) : TimesOnly w (w.follow who p) := by
  unfold Work.follow
  split
  · obtain ⟨mt, pt, e⟩ := setPtime_apart w h p
    exact ⟨w.mod.lineTimes, w.mod.homeTimes, mt, pt, e⟩
  · exact .refl w

theorem timesOnly_startAgent (w : Work) (c k n : Nat) : TimesOnly w (w.startAgent (.agent c k n)) :=
  timesOnly_follow w (apart_agent c k n) _

theorem timesOnly_agentSends (w : Work) (c k n : Nat) : TimesOnly w (w.agentSends (.agent c k n)) :=
  timesOnly_follow w (apart_cell c) _

theorem timesOnly_endAgent (w : Work) (who : Who) : TimesOnly w (w.endAgent who) := ⟨_, _, _, _, rfl⟩

theorem timesOnly_reqSends (w : Work) (c : Nat) (q : MemReq) : TimesOnly w (w.reqSends c q) := by
  have sent := timesOnly_agentSends w c q.agent.1 q.agent.2
  unfold Work.reqSends
  exact iteInduction (motive := TimesOnly w) (fun _ => sent.trans (timesOnly_endAgent _ _)) fun _ => sent

/-- What an access leaves of all that an access keeps, with the bytes that it wrote. -/
structure Accessed (w v : Work) (log : List Host.Cell) : Prop where
  keeps : Keeps w v
  log : v.log = log

theorem TimesOnly.accessed {w v : Work} (h : TimesOnly w v) : Accessed w v w.log := ⟨h.keeps, h.log⟩

theorem Accessed.trans {w v u : Work} {l m : List Host.Cell} (h : Accessed w v l) (k : Accessed v u m) : Accessed w u m :=
  ⟨h.keeps.trans k.keeps, k.log⟩

theorem Accessed.modNo {w v : Work} {l : List Host.Cell} (h : Accessed w v l) :
    v.mod.modNo = w.mod.modNo ∧ v.mod.spoilt = w.mod.spoilt := by
  obtain ⟨_, _, _, _, _, _, _, _, e⟩ := h.keeps.mods
  rw [e]
  exact ⟨rfl, rfl⟩

/-! ## A node's own bank (R187, R189) -/

section

variable {me : Waiter} {kind num a n : Nat} {w : Work}

/-- No byte of a range meets an uncorrectable error, in the words of a step's work. -/
def SoundIn (w : Work) (a n : Nat) : Prop := ∀ b ∈ w.mod.spoilt, b < a ∨ a + n ≤ b

theorem spoilt_iff (w : Work) (a n : Nat) : w.spoilt a n = true ↔ ¬ SoundIn w a n := by
  simp only [Work.spoilt, SoundIn, List.any_eq_true, Bool.and_eq_true, decide_eq_true_eq, not_forall, not_or, not_lt, not_le,
    exists_prop]

theorem TimesOnly.spoilt_eq {v : Work} (h : TimesOnly w v) (a n : Nat) : v.spoilt a n = w.spoilt a n := by
  obtain ⟨_, _, _, _, rfl⟩ := h
  rfl

theorem TimesOnly.bytes_eq {v : Work} (h : TimesOnly w v) (a n : Nat) : v.bytes a n = w.bytes a n := by
  obtain ⟨_, _, _, _, rfl⟩ := h
  rfl

theorem nodeAccess_bank_read (fit : a + n ≤ 0x10000) (sound : SoundIn w (bankBase me.cell + a) n) :
    ∃ v, nodeAccess me kind num 0 a n none w = .done (w.bytes (bankBase me.cell + a) n) v ∧ Accessed w v w.log := by
  have started := timesOnly_startAgent w me.cell kind num
  have clean : ¬ w.spoilt (bankBase me.cell + a) n = true := fun e => (spoilt_iff w _ _).1 e sound
  refine ⟨_, ?_, (started.trans (timesOnly_homeAccess _ (apart_agent me.cell kind num) (bankBase me.cell + a))).accessed⟩
  unfold nodeAccess
  dsimp only
  rw [if_pos rfl, if_pos fit, started.spoilt_eq, if_neg clean, started.bytes_eq]

theorem nodeAccess_bank_spoilt (fit : a + n ≤ 0x10000) (bad : ¬ SoundIn w (bankBase me.cell + a) n) :
    ∃ v, nodeAccess me kind num 0 a n none w = .bad 0x0A v ∧ Accessed w v w.log := by
  have started := timesOnly_startAgent w me.cell kind num
  refine ⟨_, ?_, started.accessed⟩
  unfold nodeAccess
  dsimp only
  rw [if_pos rfl, if_pos fit, started.spoilt_eq, if_pos ((spoilt_iff w _ _).2 bad)]

theorem nodeAccess_bank_past (past : 0x10000 < a + n) (wr : Option (List Byte)) :
    ∃ v, nodeAccess me kind num 0 a n wr w = .bad 0x09 v ∧ Accessed w v w.log := by
  refine ⟨_, ?_, (timesOnly_startAgent w me.cell kind num).accessed⟩
  unfold nodeAccess
  dsimp only
  rw [if_pos rfl, if_neg (Nat.not_le.2 past)]

theorem nodeAccess_bank_write (fit : a + n ≤ 0x10000) (bs : List Byte) : ∃ v, nodeAccess me kind num 0 a n (some bs) w = .done [] v ∧
    Accessed w v (logBytes w.log (bankBase me.cell + a) (bs.take n)) := by
  have started := timesOnly_startAgent w me.cell kind num
  have home := (timesOnly_homeAccess ((w.startAgent (.agent me.cell kind num)).store (bankBase me.cell + a) (bs.take n))
    (apart_agent me.cell kind num) (bankBase me.cell + a)).accessed
  refine ⟨_, ?_, (started.keeps.trans (keeps_store _ _ _)).trans home.keeps, home.log.trans ?_⟩
  · unfold nodeAccess
    dsimp only
    rw [if_pos rfl, if_pos fit]
  · exact congrArg (fun l => logBytes l (bankBase me.cell + a) (bs.take n)) started.log

end

/-! ## A range cut into pieces -/

/-- Pieces lie one after another from an address on, none of them empty, and make up a number of bytes. -/
def Tiles : Nat → Nat → List (Nat × Nat) → Prop
  | _, n, [] => n = 0
  | a, n, (b, k) :: t => b = a ∧ 0 < k ∧ k ≤ n ∧ Tiles (a + k) (n - k) t

theorem tiles_inside : ∀ {l : List (Nat × Nat)} {a n : Nat}, Tiles a n l → ∀ p ∈ l, a ≤ p.1 ∧ p.1 < a + n
  | (b, k) :: t, a, n, ⟨e, pos, le, rest⟩, p, m => by
    rcases List.mem_cons.1 m with rfl | m
    · exact ⟨e.ge, by dsimp only; omega⟩
    · have := tiles_inside rest p m
      omega

theorem tiles_sixteens : ∀ (m a : Nat), Tiles a (16 * m) ((List.range m).map fun i => (a + 16 * i, 16))
  | 0, _ => rfl
  | m + 1, a => by
    have shift : (List.range m).map ((fun i => (a + 16 * i, 16)) ∘ Nat.succ) = (List.range m).map fun i => (a + 16 + 16 * i, 16) :=
      List.map_congr_left fun i _ => by
        simp only [Function.comp, Nat.succ_eq_add_one, Prod.mk.injEq, and_true]
        omega
    rw [List.range_succ_eq_map, List.map_cons, List.map_map, shift]
    refine ⟨rfl, by decide, by omega, ?_⟩
    rw [show 16 * (m + 1) - 16 = 16 * m by omega]
    exact tiles_sixteens m (a + 16)

/-- A node's access of a size that its type has is cut into pieces of its range (R187, R189). -/
theorem tiles_nodePieces {n : Nat} (a : Nat) (pos : 0 < n) (size : n ≤ 16 ∨ n % 16 = 0) : Tiles a n (nodePieces a n) := by
  unfold nodePieces
  split
  · exact ⟨rfl, pos, le_rfl, Nat.sub_self n⟩
  · have e : 16 * (n / 16) = n := by omega
    conv => arg 2; rw [← e]
    exact tiles_sixteens (n / 16) a

/-- Pieces moved from one address to another. -/
theorem tiles_moved {b d : Nat} : ∀ {l : List (Nat × Nat)} {a n : Nat}, Tiles a n l → b ≤ a →
    Tiles (d + (a - b)) n (l.map fun p => (d + (p.1 - b), p.2))
  | [], _, _, h, _ => h
  | (_, k) :: t, a, n, ⟨e, pos, le, rest⟩, h => by
    refine ⟨by rw [e], pos, le, ?_⟩
    rw [show d + (a - b) + k = d + (a + k - b) by omega]
    exact tiles_moved rest (by omega)

/-! ## Bytes of module memory, piece by piece (R168, R192) -/

theorem logBytes_append : ∀ (xs ys : List Byte) (l : List Host.Cell) (a : Nat),
    logBytes (logBytes l a xs) (a + xs.length) ys = logBytes l a (xs ++ ys)
  | [], _, _, _ => rfl
  | x :: xs, ys, l, a => by
    rw [List.length_cons, show a + (xs.length + 1) = a + 1 + xs.length by omega]
    exact logBytes_append xs ys _ (a + 1)

theorem pbytes_append (w : Work) (a k n : Nat) : w.pbytes a k ++ w.pbytes (a + k) n = w.pbytes a (k + n) := by
  rw [Work.pbytes, Work.pbytes, Work.pbytes, List.range_add, List.map_append, List.map_map]
  refine congrArg _ (List.map_congr_left fun i _ => ?_)
  rw [Function.comp, Nat.add_assoc]

theorem TimesOnly.pbytes_eq {w v : Work} (h : TimesOnly w v) (a n : Nat) : v.pbytes a n = w.pbytes a n := by
  obtain ⟨_, _, _, _, rfl⟩ := h
  rfl

theorem soundIn_pspoilt {w : Work} {a n : Nat} (p : InPlace w a n) (h : SoundIn w a n) : w.pspoilt a n = false := by
  rw [← Bool.not_eq_true, pspoilt_iff fun i hi => (p i hi).1]
  exact not_not.2 h

theorem nodeRead_memory {a : Acc} (apart : Apart a.who) (c : a.core = false) {l : List (Nat × Nat)} {w : Work} {pa la n : Nat}
    (tiles : Tiles pa n l) (at_ : pa = w.mod.modNo * 2 ^ 45 + la) (fit : la + n ≤ memTop) (place : InPlace w la n)
    (sound : SoundIn w la n) : ∃ v, nodeRead a l w = .ok (w.pbytes la n, v) ∧ TimesOnly w v := by
  induction l generalizing w pa la n with
  | nil =>
    cases (show n = 0 from tiles)
    exact ⟨w, rfl, .refl w⟩
  | cons p t ih =>
    obtain ⟨b, k⟩ := p
    obtain ⟨first, -, le, rest⟩ := tiles
    have clean : w.pspoilt la k = false :=
      soundIn_pspoilt (inPlace_part place 0 k (by omega)) fun b m => by have := sound b m; omega
    have e := pread_memory (w := w) (a := a) (la := la) (n := k) (by omega) c clean
    rw [← at_, ← first] at e
    have timed := timesOnly_readTime w apart (w.loc la)
    obtain ⟨v, r, tv⟩ := ih (w := w.readTime a.who (w.loc la)) (la := la + k) rest
      (by rw [timed.accessed.modNo.1, at_, Nat.add_assoc]) (by omega)
      (inPlace_of_cells timed.keeps.cells (inPlace_part place k (n - k) (by omega)))
      fun b m => by rw [timed.accessed.modNo.2] at m; have := sound b m; omega
    refine ⟨v, ?_, timed.trans tv⟩
    rw [timed.pbytes_eq] at r
    rw [← Nat.add_sub_of_le le, ← pbytes_append]
    simp only [nodeRead, e, r, bind, Except.bind, pure, Except.pure]

theorem nodeWrite_memory {a : Acc} (apart : Apart a.who) (c : a.core = false) {l : List (Nat × Nat)} {bs : List Byte} {w : Work}
    {pa la : Nat} (tiles : Tiles pa bs.length l) (at_ : pa = w.mod.modNo * 2 ^ 45 + la) (fit : la + bs.length ≤ memTop)
    (place : InPlace w la bs.length) : ∃ v, nodeWrite a l bs w = .ok v ∧ Accessed w v (logBytes w.log la bs) := by
  induction l generalizing bs w pa la with
  | nil =>
    cases List.length_eq_zero_iff.1 tiles
    exact ⟨w, rfl, .refl w, rfl⟩
  | cons p t ih =>
    obtain ⟨b, k⟩ := p
    obtain ⟨first, pos, le, rest⟩ := tiles
    have len : (bs.take k).length = k := by rw [List.length_take]; omega
    have e := pwrite_memory (w := w) (a := a) (la := la) (bs := bs.take k) (by omega) c (by omega)
      (by rw [len]; exact inPlace_part place 0 k (by omega))
    rw [← at_, ← first] at e
    have timed := (timesOnly_writeTime (w.store la (bs.take k)) apart la).accessed
    have stored : Accessed w ((w.store la (bs.take k)).writeTime a.who la) (logBytes w.log la (bs.take k)) :=
      ⟨(keeps_store w la (bs.take k)).trans timed.keeps, timed.log⟩
    have left : (bs.drop k).length = bs.length - k := List.length_drop
    obtain ⟨v, r, av⟩ := ih (bs := bs.drop k) (la := la + k) (left ▸ rest)
      (by rw [stored.modNo.1, at_, Nat.add_assoc]) (by omega)
      (by rw [left]; exact inPlace_of_cells stored.keeps.cells (inPlace_part place k _ (by omega)))
    have joined := logBytes_append (bs.take k) (bs.drop k) w.log la
    rw [len, List.take_append_drop] at joined
    refine ⟨v, ?_, stored.keeps.trans av.keeps, av.log.trans (by rw [stored.log, joined])⟩
    simp only [nodeWrite, e, r, bind, Except.bind]

end Sys2Proof.Proofs
end

section
/-! Accesses of memory nodes and owners by virtual address, through a translation that their grove's buffer holds (R182, R183,
R189). -/

namespace Sys2Proof.Proofs

open Sys2Proof.Machine Sys2Proof.Safety Sys2Proof.Laws

/-! ## A translation that a grove holds (R182, R183) -/

theorem endWalk_accessed (w : Work) (a : Waiter) (asid vpn : Nat) : Accessed w (w.endWalk a asid vpn) w.log :=
  ⟨keeps_endWalk w a asid vpn, endWalk_log w a asid vpn⟩

theorem endWalk_grove (w : Work) (a : Waiter) (asid vpn g : Nat) : (w.endWalk a asid vpn).grove g = w.grove g := by
  unfold Work.endWalk
  split <;> rfl

theorem buffered_grove (w : Work) (g asid va : Nat) :
    w.buffered g false asid va = (w.grove g).tlb.find? fun y => y.serves asid va := rfl

/-- The translation that a grove's buffer holds for an address is one of the buffer's, and serves it. -/
theorem buffered_serves {w : Work} {g asid va : Nat} {x : Xlat} (h : w.buffered g false asid va = some x) :
    x ∈ (w.grove g).tlb ∧ x.serves asid va = true := by
  rw [buffered_grove] at h
  exact ⟨List.mem_of_find?_eq_some h, by simpa using List.find?_some h⟩

theorem Xlat.serves_iff (x : Xlat) (asid va : Nat) : x.serves asid va = true ↔ x.asid = asid ∧ x.base ≤ va ∧ va < x.base + x.size := by
  simp only [Xlat.serves, Bool.and_eq_true, decide_eq_true_eq, beq_iff_eq, and_assoc]

theorem fill_head (w : Work) (g : Nat) (x : Xlat) : ∃ rest, ((w.fill g false x).grove g).tlb = x :: rest := by
  rw [Work.fill, updGrove_eq, if_neg Bool.false_ne_true, setGrove_same]
  exact ⟨_, rfl⟩

/-- An access of a need is let through by a translation, whose D bit stands where it writes (R182). -/
structure LetsThrough (x : Xlat) (nd : Need) : Prop where
  may : x.refuses nd true = false
  dirty : nd.w = true → x.attr.getLsbD 8 = true

section

variable {me : Waiter} {asid : Nat} {nd : Need} {x : Xlat} {w : Work} {va : Nat}

theorem translateLater_hit (past : va < 2 ^ 57) (hit : w.buffered (me.cell / 16) false asid va = some x) (h : LetsThrough x nd) :
    w.translateLater me asid nd va =
      .ok (x.pa + (va - x.base)) ((w.endWalk me asid (va / 4096)).fill (me.cell / 16) false x) := by
  simp only [Work.translateLater, Work.findXlat, Nat.not_le.2 past, hit, through_clean _ _ va _ true nd x h.may h.dirty, if_false]

theorem filled_accessed (w : Work) (me : Waiter) (asid vpn g : Nat) (x : Xlat) :
    Accessed w ((w.endWalk me asid vpn).fill g false x) w.log :=
  (endWalk_accessed w me asid vpn).trans ⟨keeps_fill _ g false x, (fill_log _ g false x).trans (endWalk_log w me asid vpn)⟩

/-- Pieces that the latest translation of the buffer serves go through it, one after another. -/
theorem nodeThrough_latest (h : LetsThrough x nd) {l : List (Nat × Nat)} {w : Work}
    (head : ∃ rest, (w.grove (me.cell / 16)).tlb = x :: rest) (serves : ∀ p ∈ l, p.1 < 2 ^ 57 ∧ x.serves asid p.1 = true) :
    ∃ v, nodeThrough me asid nd l w = .ok (l.map fun p => (x.pa + (p.1 - x.base), p.2)) v ∧ Accessed w v w.log := by
  induction l generalizing w with
  | nil => exact ⟨w, rfl, .refl w, rfl⟩
  | cons p t ih =>
    obtain ⟨va, k⟩ := p
    obtain ⟨rest, head⟩ := head
    obtain ⟨past, here⟩ := serves _ List.mem_cons_self
    have hit : w.buffered (me.cell / 16) false asid va = some x := by
      rw [buffered_grove, head]
      exact List.find?_cons_of_pos here
    obtain ⟨v, e, av⟩ := ih (w := (w.endWalk me asid (va / 4096)).fill (me.cell / 16) false x) (fill_head _ _ x)
      fun p m => serves p (List.mem_cons_of_mem _ m)
    have filled := filled_accessed w me asid (va / 4096) (me.cell / 16) x
    refine ⟨v, ?_, filled.keeps.trans av.keeps, av.log.trans filled.log⟩
    rw [nodeThrough, translateLater_hit past hit h]
    dsimp only
    rw [e]
    rfl

/-- A piece whose page the buffer holds waits for no walk. -/
theorem findXlat_held (past : va < 2 ^ 57) (h : ∃ y ∈ (w.grove (me.cell / 16)).tlb, y.serves asid va = true) :
    ∃ y, w.findXlat me asid va = (some (.ok y), w.endWalk me asid (va / 4096)) := by
  obtain ⟨y, e⟩ := Option.isSome_iff_exists.1 (List.find?_isSome.2 h)
  rw [← buffered_grove] at e
  exact ⟨y, by simp only [Work.findXlat, Nat.not_le.2 past, e, if_false]⟩

/-- Pieces of pages that the buffer holds are checked next (R189). -/
theorem nodeXlate_held {ps l : List (Nat × Nat)} {w : Work}
    (h : ∀ p ∈ l, p.1 < 2 ^ 57 ∧ ∃ y ∈ (w.grove (me.cell / 16)).tlb, y.serves asid p.1 = true) :
    ∃ v, nodeXlate me asid nd ps l w = nodeThrough me asid nd ps v ∧ Accessed w v w.log ∧ ∀ g, v.grove g = w.grove g := by
  induction l generalizing w with
  | nil => exact ⟨w, rfl, ⟨.refl w, rfl⟩, fun _ => rfl⟩
  | cons p t ih =>
    obtain ⟨va, k⟩ := p
    obtain ⟨past, held⟩ := h _ List.mem_cons_self
    obtain ⟨y, e⟩ := findXlat_held past held
    obtain ⟨v, r, av, groves⟩ := ih (w := w.endWalk me asid (va / 4096)) fun p m => by
      rw [endWalk_grove]
      exact h p (List.mem_cons_of_mem _ m)
    have ended := endWalk_accessed w me asid (va / 4096)
    refine ⟨v, ?_, ⟨ended.keeps.trans av.keeps, av.log.trans ended.log⟩, fun g => (groves g).trans (endWalk_grove _ _ _ _ g)⟩
    rw [nodeXlate, e]
    exact r

/-- A range whose first page the buffer holds, and that ends in it, is translated as one (R189). -/
theorem nodeXlate_range {n : Nat} {ps : List (Nat × Nat)} (tiles : Tiles va n ps) (pos : 0 < n) (past : va + n ≤ 2 ^ 57)
    (hit : w.buffered (me.cell / 16) false asid va = some x) (fits : va + n ≤ x.base + x.size) (h : LetsThrough x nd) :
    ∃ v, nodeXlate me asid nd ps ps w = .ok (ps.map fun p => (x.pa + (p.1 - x.base), p.2)) v ∧ Accessed w v w.log := by
  obtain ⟨mem, first⟩ := buffered_serves hit
  rw [Xlat.serves_iff] at first
  have serves : ∀ p ∈ ps, p.1 < 2 ^ 57 ∧ x.serves asid p.1 = true := fun p m => by
    have := tiles_inside tiles p m
    exact ⟨by omega, (Xlat.serves_iff x asid p.1).2 ⟨first.1, by omega, by omega⟩⟩
  obtain ⟨v, e, av, groves⟩ := nodeXlate_held (me := me) (nd := nd) (ps := ps) (w := w) fun p m =>
    ⟨(serves p m).1, x, mem, (serves p m).2⟩
  cases ps with
  | nil => exact absurd (show n = 0 from tiles) pos.ne'
  | cons p t =>
    obtain ⟨b, k⟩ := p
    obtain ⟨rfl, -, -, -⟩ := tiles
    have hit' : v.buffered (me.cell / 16) false asid b = some x := by
      rw [buffered_grove, groves, ← buffered_grove]
      exact hit
    obtain ⟨u, r, au⟩ := nodeThrough_latest (me := me) h (l := t)
      (w := (v.endWalk me asid (b / 4096)).fill (me.cell / 16) false x) (fill_head _ _ x) fun p m => serves p (List.mem_cons_of_mem _ m)
    have filled := filled_accessed v me asid (b / 4096) (me.cell / 16) x
    refine ⟨u, ?_, av.keeps.trans (filled.keeps.trans au.keeps), au.log.trans (filled.log.trans av.log)⟩
    rw [e, nodeThrough, translateLater_hit (by omega) hit' h]
    dsimp only
    rw [r]
    rfl

end

/-! ## Module memory (R187, R189) -/

/-- `NodeReaches`, said of a step's work. -/
structure AgentReaches (w : Work) (g : Nat) (nd : Need) (va la n : Nat) : Prop where
  past : va + n ≤ 2 ^ 57
  held : ∃ x, w.buffered g false (w.regOf g).rasid va = some x ∧ va + n ≤ x.base + x.size ∧ LetsThrough x nd ∧
    x.pa + (va - x.base) = w.mod.modNo * 2 ^ 45 + la
  fit : la + n ≤ memTop
  place : InPlace w la n

theorem agentReaches_of_nodeReaches {s : State} {g va la n : Nat} {nd : Need} (h : NodeReaches s g nd va la n) :
    AgentReaches (Work.of s) g nd va la n := by
  obtain ⟨past, ⟨x, hit, fits, may, dirty, home, at_⟩, fit, place⟩ := h
  refine ⟨past, ⟨x, hit, fits, ⟨may, dirty⟩, ?_⟩, fit, place⟩
  rw [of_mod, ← home, ← at_, Nat.div_add_mod']

/-- The range is reached where buffers, regions and the module's number are the same and its bytes lie in place. -/
theorem AgentReaches.of_same {w v : Work} {g va la n : Nat} {nd : Need} (h : AgentReaches w g nd va la n)
    (groves : v.groves = w.groves) (regions : v.regions = w.regions) (modNo : v.mod.modNo = w.mod.modNo)
    (place : InPlace w la n → InPlace v la n) : AgentReaches v g nd va la n := by
  obtain ⟨past, ⟨x, hit, fits, ok, at_⟩, fit, inPlace⟩ := h
  refine ⟨past, ⟨x, ?_, fits, ok, modNo ▸ at_⟩, fit, place inPlace⟩
  rw [← hit]
  simp only [buffered_grove, Work.regOf, Work.rno, Work.region, Work.grove, groves, regions]

theorem AgentReaches.of_timesOnly {w v : Work} {g va la n : Nat} {nd : Need} (h : AgentReaches w g nd va la n) (k : TimesOnly w v) :
    AgentReaches v g nd va la n :=
  h.of_same k.groves k.keeps.regions k.accessed.modNo.1 (inPlace_of_cells k.keeps.cells)

theorem accAgent_core (w : Work) (c k n : Nat) : (w.accAgent c k n).core = false := by simp [Acc.core, Work.accAgent]

section

variable {me : Waiter} {kind num a n la : Nat} {w : Work}

/-- The pieces of a reached range, translated, lie one after another in this module's memory. -/
theorem nodeXlate_reaches {nd : Need} (r : AgentReaches w (me.cell / 16) nd a la n) (pos : 0 < n) (size : n ≤ 16 ∨ n % 16 = 0) :
    ∃ ps v, nodeXlate me (w.regOf (me.cell / 16)).rasid nd (nodePieces a n) (nodePieces a n) w = .ok ps v ∧
      Accessed w v w.log ∧ Tiles (v.mod.modNo * 2 ^ 45 + la) n ps ∧ InPlace v la n := by
  obtain ⟨past, ⟨x, hit, fits, ok, at_⟩, -, place⟩ := r
  have tiles := tiles_nodePieces a pos size
  have base : x.base ≤ a := by
    obtain ⟨-, first⟩ := buffered_serves hit
    rw [Xlat.serves_iff] at first
    exact first.2.1
  obtain ⟨v, e, av⟩ := nodeXlate_range tiles pos past hit fits ok
  refine ⟨_, v, e, av, ?_, inPlace_of_cells av.keeps.cells place⟩
  rw [av.modNo.1, ← at_]
  exact tiles_moved tiles base

theorem nodeAccess_memory_read (r : AgentReaches w (me.cell / 16) needR a la n) (pos : 0 < n) (size : n ≤ 16 ∨ n % 16 = 0)
    (sound : SoundIn w la n) :
    ∃ v u, nodeAccess me kind num 1 a n none w = .done (u.pbytes la n) v ∧ Accessed w v w.log ∧ Accessed w u w.log := by
  have started := timesOnly_startAgent w me.cell kind num
  obtain ⟨ps, u, e, au, tiles, place⟩ := nodeXlate_reaches (r.of_timesOnly started) pos size
  have seen := started.accessed.trans au
  obtain ⟨v, read, tv⟩ := nodeRead_memory (a := (w.startAgent (.agent me.cell kind num)).accAgent me.cell kind num)
    (apart_agent _ _ _) (accAgent_core _ _ _ _) tiles rfl r.fit place fun b m => sound b (by rwa [seen.modNo.2] at m)
  refine ⟨v, u, ?_, ?_, ?_⟩
  · unfold nodeAccess
    dsimp only
    rw [if_neg (by decide), if_neg (by decide)]
    simp only [Option.isSome_none, Bool.false_eq_true, if_false]
    rw [show ((w.startAgent (.agent me.cell kind num)).accAgent me.cell kind num).asid =
      ((w.startAgent (.agent me.cell kind num)).regOf (me.cell / 16)).rasid from rfl, e]
    dsimp only
    rw [read]
  · exact ⟨seen.keeps.trans tv.keeps, tv.log.trans (au.log.trans started.log)⟩
  · exact ⟨seen.keeps, au.log.trans started.log⟩

theorem nodeAccess_memory_write {bs : List Byte} (r : AgentReaches w (me.cell / 16) needW a la bs.length) (pos : 0 < bs.length)
    (size : bs.length ≤ 16 ∨ bs.length % 16 = 0) :
    ∃ v, nodeAccess me kind num 1 a bs.length (some bs) w = .done [] v ∧ Accessed w v (logBytes w.log la bs) := by
  have started := timesOnly_startAgent w me.cell kind num
  obtain ⟨ps, u, e, au, tiles, place⟩ := nodeXlate_reaches (r.of_timesOnly started) pos size
  obtain ⟨v, write, av⟩ := nodeWrite_memory (a := (w.startAgent (.agent me.cell kind num)).accAgent me.cell kind num)
    (apart_agent _ _ _) (accAgent_core _ _ _ _) tiles rfl r.fit place
  refine ⟨v, ?_, started.keeps.trans (au.keeps.trans av.keeps), by rw [av.log, au.log, started.log]⟩
  unfold nodeAccess
  dsimp only
  rw [if_neg (by decide), if_neg (by decide)]
  simp only [Option.isSome_some, if_true]
  rw [show ((w.startAgent (.agent me.cell kind num)).accAgent me.cell kind num).asid =
    ((w.startAgent (.agent me.cell kind num)).regOf (me.cell / 16)).rasid from rfl, e]
  dsimp only
  rw [write]

end

end Sys2Proof.Proofs
end

section
/-! NOWN: updates that an owner refuses or applies (R201 to R203), and the statement about memory nodes. -/

namespace Sys2Proof.Proofs

open Sys2Proof.Machine Sys2Proof.Safety Sys2Proof.Laws

variable {s : State} {f : Fire} {x : Inst}

/-! ## What an access reads before a step has written -/

/-- The bytes of a range in place are the state's, before a step has written any. -/
theorem pbytes_unwritten {w : Work} {la n : Nat} (log : w.log = []) (base : w.base = s.mem) (place : InPlace w la n) :
    w.pbytes la n = (List.range n).map fun i => byteAt s (la + i) := by
  rw [pbytes_direct w la n fun i hi => (place i hi).1]
  refine List.map_congr_left fun i _ => ?_
  rw [byte_of_log log, base]
  rfl

theorem pload_unwritten {w : Work} {la n : Nat} (log : w.log = []) (base : w.base = s.mem) (place : InPlace w la n) :
    w.pload la n = numAt s la n := congrArg leNat (pbytes_unwritten log base place)

theorem bytes_unwritten {w : Work} {a n : Nat} (log : w.log = []) (base : w.base = s.mem) :
    w.bytes a n = (List.range n).map fun i => byteAt s (a + i) := by
  refine List.map_congr_left fun i _ => ?_
  rw [byte_of_log log, base]
  rfl

/-- An indivisible read and write of sound module memory in place, by an agent that is no task core (R192, R207). -/
theorem atomicAt_memory {w : Work} {a : Acc} {la n v : Nat} {g : Nat → Option Nat} (apart : Apart a.who) (fit : la + n ≤ memTop)
    (c : a.core = false) (pos : 0 < n) (place : InPlace w la n) (sound : SoundIn w la n) (e : g (w.pload la n) = some v) :
    ∃ u, w.atomicAt a (w.mod.modNo * 2 ^ 45 + la) n g = .ok (w.pload la n, u) ∧ Accessed w u (logBytes w.log la (leBytes n v)) := by
  obtain ⟨e1, e2⟩ := physical_split w.mod.modNo (lt_of_memTop fit)
  obtain ⟨l, r⟩ : w.loc la = la ∧ w.readOnly la = false := by simpa using place 0 pos
  have direct := pstore_direct (leBytes n v) la w fun i hi => (place i (by simpa using hi)).1
  have timed := (timesOnly_writeTime (w.store la (leBytes n v)) apart la).accessed
  refine ⟨_, ?_, (keeps_store w la (leBytes n v)).trans timed.keeps, timed.log⟩
  simp only [Work.atomicAt, e1, e2, fit, c, l, r, e, soundIn_pspoilt place sound, direct, ne_eq, not_true, if_true, if_false,
    Bool.false_eq_true]

/-! ## The element of an owner (R192, R202) -/

/-- Where an owner's element lies: in its bank, or in memory that its grove's buffer reaches (R200, R201). -/
def ElementAt (s : State) (c : Nat) (r : NRec) (a p n : Nat) : Prop :=
  if osb0 r then NodeReaches s (c / 16) needW a p n ∧ Sound s p n else p = bankBase c + a

theorem opBytes_cases (t : BitVec 3) : opBytes t = 8 ∨ opBytes t = 4 := by
  unfold opBytes
  rcases width_cases t with ⟨-, e⟩ | ⟨-, e⟩ <;> rw [opW_eq, e] <;> decide

/-- An owner applies an update as one read and write of its element. -/
theorem ownerApply_stores {c id node a op p : Nat} {r : NRec} {v : Word} (h : ElementAt s c r a p (opBytes (nType r))) :
    ∃ w, ownerApply c id node r a op v (Work.of s) = .done (numAt s p (opBytes (nType r))) w ∧
      Accessed (Work.of s) w (logBytes [] p (leBytes (opBytes (nType r))
        (updateOp op (nType r) (numAt s p (opBytes (nType r))) (opU (nType r) v)))) := by
  have pos : 0 < opBytes (nType r) := by rcases opBytes_cases (nType r) with e | e <;> omega
  have started := timesOnly_startAgent (Work.of s) c 4 node
  unfold ElementAt at h
  by_cases o : osb0 r = true
  · rw [if_pos o] at h
    obtain ⟨past, ⟨x, hit, -, ok, at_⟩, fit, place⟩ := (agentReaches_of_nodeReaches h.1).of_timesOnly started
    have xlat := translateLater_hit (me := ⟨c, 2, id⟩) (by omega) hit ok
    have filled := filled_accessed ((Work.of s).startAgent (.agent c 4 node)) ⟨c, 2, id⟩
      (((Work.of s).startAgent (.agent c 4 node)).regOf (c / 16)).rasid (a / 4096) (c / 16) x
    have seen := started.accessed.trans filled
    rw [started.log] at seen
    have soundIn := h.2
    have inPlace := inPlace_of_cells filled.keeps.cells place
    obtain ⟨u, done, stored⟩ := atomicAt_memory (g := fun old => some (updateOp op (nType r) old (opU (nType r) v)))
      (a := ((Work.of s).startAgent (.agent c 4 node)).accAgent c 4 node) (apart_agent c 4 node) fit (accAgent_core _ _ _ _) pos
      inPlace (fun b m => soundIn b (by rwa [seen.modNo.2] at m)) rfl
    rw [pload_unwritten seen.log seen.keeps.base inPlace, seen.modNo.1] at done
    rw [pload_unwritten seen.log seen.keeps.base inPlace, seen.log] at stored
    rw [started.accessed.modNo.1] at at_
    refine ⟨u, ?_, seen.trans stored⟩
    unfold ownerApply
    dsimp only
    rw [if_pos o, show (((Work.of s).startAgent (.agent c 4 node)).accAgent c 4 node).asid =
      (((Work.of s).startAgent (.agent c 4 node)).regOf (c / 16)).rasid from rfl, xlat]
    dsimp only
    rw [at_, done]
  · rw [if_neg o] at h
    subst h
    have read : ((Work.of s).startAgent (.agent c 4 node)).load (bankBase c + a) (opBytes (nType r)) =
        numAt s (bankBase c + a) (opBytes (nType r)) := congrArg leNat (bytes_unwritten started.log started.keeps.base)
    have timed := (timesOnly_homeAccess (((Work.of s).startAgent (.agent c 4 node)).store (bankBase c + a)
      (leBytes (opBytes (nType r)) (updateOp op (nType r) (numAt s (bankBase c + a) (opBytes (nType r))) (opU (nType r) v))))
      (apart_agent c 4 node) (bankBase c + a)).accessed
    refine ⟨_, ?_, started.keeps.trans ((keeps_store _ _ _).trans timed.keeps), timed.log.trans ?_⟩
    · unfold ownerApply
      dsimp only
      rw [if_neg o, read]
    · exact congrArg (fun l => logBytes l _ _) started.log

/-! ## The chain of an ordered NATOM (R205) -/

/-- Bytes, regions, output queues and held tokens are as they were. -/
structure OutsStand (w v : Work) : Prop where
  log : v.log = w.log
  regions : v.regions = w.regions
  homes : ∀ g, v.rno g = w.rno g
  outq : ∀ k, (v.cell k).outq = (w.cell k).outq
  entries : ∀ k, (v.cell k).entries = (w.cell k).entries

theorem OutsStand.refl (w : Work) : OutsStand w w := ⟨rfl, rfl, fun _ => rfl, fun _ => rfl, fun _ => rfl⟩

theorem OutsStand.trans {w v u : Work} (h : OutsStand w v) (k : OutsStand v u) : OutsStand w u where
  log := k.log.trans h.log
  regions := k.regions.trans h.regions
  homes g := (k.homes g).trans (h.homes g)
  outq n := (k.outq n).trans (h.outq n)
  entries n := (k.entries n).trans (h.entries n)

theorem outsStand_timesOnly {w v : Work} (h : TimesOnly w v) : OutsStand w v := by
  obtain ⟨_, _, _, _, rfl⟩ := h
  exact ⟨rfl, rfl, fun _ => rfl, fun _ => rfl, fun _ => rfl⟩

theorem outsStand_releaseToks (w : Work) (g : Nat) (ts : List Token) : OutsStand w (releaseToks g ts w) := by
  have h := inCell_releaseToks 0 g ts w
  have cells := releaseToks_cell w g ts
  exact ⟨h.log, h.regions, h.homes, fun k => congrArg Cell.outq (cells k), fun k => congrArg Cell.entries (cells k)⟩

theorem outsStand_updCell (w : Work) (c : Nat) {g : Cell → Cell} (h : ∀ k, (g k).outq = k.outq ∧ (g k).entries = k.entries) :
    OutsStand w (w.updCell c g) where
  log := rfl
  regions := rfl
  homes _ := rfl
  outq k := by
    by_cases e : c = k
    · rw [← e, updCell_eq, setCell_same]
      exact (h _).1
    · rw [updCell_eq, setCell_other _ _ e]
  entries k := by
    by_cases e : c = k
    · rw [← e, updCell_eq, setCell_same]
      exact (h _).2
    · rw [updCell_eq, setCell_other _ _ e]

theorem advance_outs (c : Cell) (q : MemReq) : (c.advance q).outq = c.outq ∧ (c.advance q).entries = c.entries := by
  unfold Cell.advance
  split <;> exact ⟨rfl, rfl⟩

/-- The request behind an update leaves its interface, and no token with it (R205). -/
theorem outsStand_natomDone (w : Work) (r time : Nat) (t : Token) : OutsStand w (w.natomDone r time t) := by
  unfold Work.natomDone
  split
  · exact .refl w
  · next mc id _ =>
    split
    · next q _ =>
      have times := (timesOnly_follow w (apart_agent mc q.agent.1 q.agent.2) time).trans (timesOnly_reqSends _ mc q)
      refine (outsStand_timesOnly times).trans (OutsStand.trans (outsStand_updCell _ mc fun k => ?_) (outsStand_releaseToks _ _ _))
      obtain ⟨outq, entries⟩ := advance_outs { k with reqs := k.reqs.filter fun p => p.id != q.id } q
      exact ⟨(List.append_nil _).trans outq, entries⟩
    · exact .refl w

/-! ## NOWN (R201 to R203) -/

/-- An update that an owner of a type may apply (R202; log entry 101): not null, no reserved bit set, a reply kind, and an
operation that suits the type. -/
def UpdateSound (t : BitVec 3) (k : Token) : Prop :=
  k.null = false ∧ (tokW k 2).toNat / 2 ^ 5 % 8 = 0 ∧ (tokW k 2).toNat / 2 ^ 32 = 0 ∧ (tokW k 2).toNat / 8 % 4 ≠ 3 ∧
    (if t.toNat = 4 then (tokW k 2).toNat % 8 ∉ [0, 3, 4, 5] else (tokW k 2).toNat % 8 ≠ 7)

theorem updateOk_iff (t : BitVec 3) (op : Nat) :
    updateOk t op = true ↔ if t.toNat = 4 then op ∉ [0, 3, 4, 5] else op ≠ 7 := by
  unfold updateOk
  split <;> simp

theorem updateSound_iff (t : BitVec 3) (k : Token) : UpdateSound t k ↔
    ¬ (k.null = true ∨ fld (tokW k 2) 7 5 ≠ 0 ∨ fld (tokW k 2) 63 32 ≠ 0 ∨ fld (tokW k 2) 4 3 = 3 ∨
      updateOk t (fld (tokW k 2) 2 0) = false) := by
  have top : (tokW k 2).toNat / 4294967296 % 4294967296 = (tokW k 2).toNat / 4294967296 := by
    have := (tokW k 2).isLt
    omega
  simp only [not_or, ← Bool.not_eq_true, not_not, updateOk_iff, UpdateSound, fld, bits, Nat.reduceAdd, Nat.reduceSub, top,
    Nat.reducePow, Nat.pow_zero, Nat.div_one, ne_eq]

/-- The address that an update names (R202). -/
def updateAddr (x : Inst) : Nat := (tokW (x.tok 0) 0).toNat

/-- The bank range or memory range of an owner (R200). -/
def ownerRange (s : State) (f : Fire) : Nat × Nat :=
  Tbl.getD (cellOf s f.cell).owners ((cellOf s f.cell).key f.node) (0, 0)

/-- Why an owner refuses an update before it looks at its element, and the code (R203). -/
def Refused (s : State) (f : Fire) (x : Inst) (code : Nat) : Prop :=
  (¬ UpdateSound (nType x.r) (x.tok 0) ∧ code = 0x11) ∨
  (UpdateSound (nType x.r) (x.tok 0) ∧ updateAddr x % opBytes (nType x.r) ≠ 0 ∧ code = 0x03) ∨
  (UpdateSound (nType x.r) (x.tok 0) ∧ updateAddr x % opBytes (nType x.r) = 0 ∧
    (updateAddr x < (ownerRange s f).1 ∨ (ownerRange s f).2 < updateAddr x + opBytes (nType x.r)) ∧ code = 0x09)

theorem nown_freezes {code : Nat} (h : Fires s f x 0x23) (r : Refused s f x code) : Freezes s .nown f x code := by
  have work : exec .nown s = .next (s.finish ((Work.of s).freezeNode f.cell f.node f.colour f.iter code x.toks
      (tokW (x.tok 0) 0) 0 1)) := by
    obtain ⟨rfl, inst, opc, chosen⟩ := h
    refine next_congr ?_
    dsimp only
    rw [show ((Work.of s).cell (Work.of s).fire.cell).inst (Work.of s).fire = some x from inst]
    dsimp only
    rw [if_pos ⟨opc, chosen⟩]
    rcases r with ⟨bad, rfl⟩ | ⟨ok, al, rfl⟩ | ⟨ok, al, out, rfl⟩
    · exact if_pos (not_not.1 (mt (updateSound_iff _ _).2 bad))
    · exact (if_neg ((updateSound_iff _ _).1 ok)).trans (if_pos al)
    · exact (if_neg ((updateSound_iff _ _).1 ok)).trans ((if_neg (not_not.2 al)).trans (if_pos out))
  have region := setRegion_same (Work.of s) ((Work.of s).rno (f.cell / 16))
  exact ⟨_, _, _, work, congrArg Region.frozen (region _), congrArg Region.faults (region _),
    rfl, rfl, rfl, rfl, rfl, rfl, rfl, rfl, rfl, rfl, rfl⟩

/-- The work of an owner that has applied an update: its reply sent and its token's entry free. -/
def ownerReplied (f : Fire) (x : Inst) (outs : List Token) (w : Work) : Work :=
  (w.agentSends (.agent f.cell 4 f.node)).updCell f.cell fun c => (c.freeEntries x.ids).emit outs

/-- The same, with the token's count released and the ordered NATOM behind the update performed (R205). -/
def ownerDone (s : State) (f : Fire) (x : Inst) (outs : List Token) (w : Work) : Work :=
  (releaseToks (f.cell / 16) (x.toks.map Prod.snd) (ownerReplied f x outs w)).natomDone ((Work.of s).rno (f.cell / 16))
    ((ownerReplied f x outs w).ptime (.agent f.cell 4 f.node)) (x.tok 0)

theorem ownerDone_stands (s : State) (f : Fire) (x : Inst) (outs : List Token) (w : Work) :
    OutsStand (ownerReplied f x outs w) (ownerDone s f x outs w) :=
  (outsStand_releaseToks _ _ _).trans (outsStand_natomDone _ _ _ _)

/-- What an owner's work leaves of a firing, before it is traced. -/
structure OwnerLeaves (s : State) (f : Fire) (x : Inst) (outs : List Token) (log : List Host.Cell) (w : Work) : Prop where
  log : w.log = log
  region : w.regOf (f.cell / 16) = regionAt s (f.cell / 16)
  outq : (w.cell f.cell).outq = (cellOf s f.cell).outq ++ outs.filter fun k => k.dest != noDst
  entries : (w.cell f.cell).entries = (cellOf s f.cell).entries.filter fun e => !x.ids.contains e.id

theorem ownerDone_leaves {w : Work} {l : List Host.Cell} (outs : List Token) (h : Accessed (Work.of s) w l) :
    OwnerLeaves s f x outs l (ownerDone s f x outs w) := by
  have sent := h.trans (timesOnly_agentSends w f.cell 4 f.node).accessed
  have stands := ownerDone_stands s f x outs w
  have cell : (w.agentSends (.agent f.cell 4 f.node)).cell f.cell = cellOf s f.cell := by
    rw [Work.cell, sent.keeps.cells]
    rfl
  have replied : (ownerReplied f x outs w).cell f.cell = ((cellOf s f.cell).freeEntries x.ids).emit outs :=
    (setCell_same _ _ _).trans (by rw [cell])
  refine ⟨stands.log.trans (sent.log.trans h.log), ?_, (stands.outq f.cell).trans (congrArg Cell.outq replied),
    (stands.entries f.cell).trans (congrArg Cell.entries replied)⟩
  rw [Work.regOf, Work.region, stands.regions, stands.homes]
  exact keeps_regOf sent.keeps (f.cell / 16)

/-- An owner applies a sound update within its range to its element and replies as it asks (R201 to R203). -/
theorem nown_applies {p : Nat} (h : Fires s f x 0x23) (m : MemOk s) (ok : UpdateSound (nType x.r) (x.tok 0))
    (al : updateAddr x % opBytes (nType x.r) = 0) (low : (ownerRange s f).1 ≤ updateAddr x)
    (high : updateAddr x + opBytes (nType x.r) ≤ (ownerRange s f).2)
    (el : ElementAt s f.cell x.r (updateAddr x) p (opBytes (nType x.r))) :
    SendsAnd s .nown f x (updateReply x.r (x.tok 0) (numAt s p (opBytes (nType x.r)))) fun t =>
      (regionAt s (f.cell / 16)).trctl.getLsbD 63 = false → Stored s t p (opBytes (nType x.r))
        (updateOp (fld (tokW (x.tok 0) 2) 2 0) (nType x.r) (numAt s p (opBytes (nType x.r))) (opU (nType x.r) (tokW (x.tok 0) 1))) := by
  obtain ⟨w, applied, acc⟩ := ownerApply_stores (id := f.entry) (node := f.node) (op := fld (tokW (x.tok 0) 2) 2 0)
    (v := tokW (x.tok 0) 1) el
  have leaves := ownerDone_leaves (f := f) (x := x) (updateReply x.r (x.tok 0) (numAt s p (opBytes (nType x.r)))) acc
  have work : exec .nown s = .next (s.finish ((ownerDone s f x (updateReply x.r (x.tok 0) (numAt s p (opBytes (nType x.r)))) w).traced
      f.cell true (fireToken f x ((Work.of s).logical f.cell)))) := by
    obtain ⟨rfl, inst, opc, chosen⟩ := h
    refine next_congr ?_
    dsimp only
    rw [show ((Work.of s).cell (Work.of s).fire.cell).inst (Work.of s).fire = some x from inst]
    dsimp only
    rw [if_pos ⟨opc, chosen⟩]
    refine (if_neg ((updateSound_iff _ _).1 ok)).trans ((if_neg (not_not.2 al)).trans
      ((if_neg (not_or.2 ⟨Nat.not_lt.2 low, Nat.not_lt.2 high⟩)).trans ?_))
    rw [show ownerApply (Work.of s).fire.cell (Work.of s).fire.entry (Work.of s).fire.node x.r (tokW (x.tok 0) 0).toNat
      (fld (tokW (x.tok 0) 2) 2 0) (tokW (x.tok 0) 1) (Work.of s) = _ from applied]
    rfl
  have traces := (onlyTraces_traced (ownerDone s f x (updateReply x.r (x.tok 0) (numAt s p (opBytes (nType x.r)))) w) f.cell true
    (fireToken f x ((Work.of s).logical f.cell))).cells f.cell
  refine ⟨_, work, ⟨(congrArg Cell.outq traces).trans leaves.outq, (congrArg Cell.entries traces).trans leaves.entries⟩, fun off => ?_⟩
  rw [traced_off ((congrArg (fun r => (Region.trctl r).getLsbD 63) leaves.region).trans off)]
  exact stored_of_log m (((inCell_noteFired _ _ _).log).trans leaves.log)

/-! ## The operations (R202) -/

theorem updateReply_eq (r : NRec) (t : Token) (old : Nat) : updateReply r t old = match (tokW t 2).toNat / 8 % 4 with
    | 1 => [mkTok (BitVec.ofNat 24 ((tokW t 2).toNat / 2 ^ 8)) t.colour t.iter t.seq (nPrio r) [oldWord (nType r) old]]
    | 2 => [mkTok (BitVec.ofNat 24 ((tokW t 2).toNat / 2 ^ 8)) t.colour t.iter t.seq (nPrio r) [tokW t 0]]
    | _ => [] := by
  have dest : bv 24 (fld (tokW t 2) 31 8) = BitVec.ofNat 24 ((tokW t 2).toNat / 2 ^ 8) :=
    BitVec.eq_of_toNat_eq (by simp [fld, bits])
  rw [← dest]
  rfl

theorem opU_toNat (t : BitVec 3) (v : Word) : (asNat t v).toNat = opU t v := by rw [← opU_eq, Int.toNat_natCast]

theorem width_le (t : BitVec 3) : width t ≤ 64 := by
  rcases width_cases t with ⟨-, e⟩ | ⟨-, e⟩ <;> omega

/-- What an operation on an element of an integer type gives (R202). -/
def integerOp (t : BitVec 3) (old v : Nat) : Nat → Nat
  | 0 => (old + v) % 2 ^ width t
  | 1 => if asTyped t (BitVec.ofNat 64 old) ≤ asTyped t (BitVec.ofNat 64 v) then old else v
  | 2 => if asTyped t (BitVec.ofNat 64 old) ≤ asTyped t (BitVec.ofNat 64 v) then v else old
  | 3 => old &&& v
  | 4 => old ||| v
  | 5 => old ^^^ v
  | _ => v

theorem updateOp_integer {op old v : Nat} {t : BitVec 3} (ty : t.toNat < 4) (o : op < 7) (a : old < 2 ^ width t)
    (b : v < 2 ^ width t) : updateOp op t old v = integerOp t old v op := by
  have word : ∀ n, n < 2 ^ width t → (bv 64 n).toNat = n := fun n h => by
    rw [BitVec.toNat_ofNat, Nat.mod_eq_of_lt (h.trans_le (Nat.pow_le_pow_right (by decide) (width_le t)))]
  have int : ¬ t.toNat = 4 := by omega
  unfold updateOp
  simp only [int, if_false, opV_eq, BitVec.toNat_and, BitVec.toNat_or, BitVec.toNat_xor, word old a, word v b, opW_eq]
  interval_cases op <;> rfl

theorem fld_low (x : Word) : fld x 2 0 = x.toNat % 8 := by simp [fld, bits]

/-- Settles O40: requests and updates of the nodes, what an owner refuses and applies, and the operations. -/
theorem memoryNodes : Obligations.MemoryNodes := by
  refine ⟨fun s f x => ⟨nld_issues, nst_issues, nred_sends, natom_sends, natom_issues⟩, fun s f x h => ?_,
    fun _ _ _ _ ty op old v => updateOp_integer ty op old v⟩
  refine ⟨fun bad => nown_freezes h (.inl ⟨bad, rfl⟩), fun ok al => nown_freezes h (.inr (.inl ⟨ok, al, rfl⟩)),
    fun ok al out => nown_freezes h (.inr (.inr ⟨ok, al, out, rfl⟩)), fun p m ok al low high _ el => ?_⟩
  have applies := nown_applies h m ok al low high el
  rw [updateReply_eq, ← opU_toNat, fld_low] at applies
  exact applies

end Sys2Proof.Proofs
end

section
/-! Requests at a cell's memory interface: performed, held in their chain, or frozen (R187 to R189, R205). -/

namespace Sys2Proof.Proofs

open Sys2Proof.Machine Sys2Proof.Safety Sys2Proof.Laws

/-! ## Words in bytes (R3, R187) -/

theorem leNat_split (n : Nat) : ∀ bs : List Byte, leNat bs = leNat (bs.take n) + 256 ^ n * leNat (bs.drop n) := by
  induction n with
  | zero => intro bs; simp [leNat]
  | succ n ih =>
    intro bs
    cases bs with
    | nil => simp [leNat]
    | cons b t =>
      rw [List.take_succ_cons, List.drop_succ_cons, leNat, leNat, ih t, pow_succ']
      ring

theorem leNat_take_lt (n : Nat) (bs : List Byte) : leNat (bs.take n) < 256 ^ n :=
  (leNat_lt _).trans_le (Nat.pow_le_pow_right (by decide) (List.length_take_le n bs))

/-- The words in bytes are those of the number that they hold. -/
theorem wordsOf_eq (k : Nat) : ∀ bs : List Byte,
    wordsOf k bs = (List.range k).map fun i => BitVec.ofNat 64 (leNat bs / 2 ^ (64 * i)) := by
  induction k with
  | zero => intro bs; rfl
  | succ k ih =>
    intro bs
    have split := leNat_split 8 bs
    have low : leNat (bs.take 8) < 2 ^ 64 := leNat_take_lt 8 bs
    have high : leNat (bs.drop 8) = leNat bs / 2 ^ 64 := by
      rw [show (256 : Nat) ^ 8 = 2 ^ 64 from rfl] at split
      omega
    rw [wordsOf, ih, high, List.range_succ_eq_map, List.map_cons, List.map_map]
    congr 1
    · apply BitVec.eq_of_toNat_eq
      rw [BitVec.toNat_ofNat, BitVec.toNat_ofNat]
      rw [show (256 : Nat) ^ 8 = 2 ^ 64 from rfl] at split
      omega
    · refine List.map_congr_left fun i _ => ?_
      rw [Function.comp, Nat.div_div_eq_div_mul, ← pow_add, Nat.succ_eq_add_one, show 64 * (i + 1) = 64 + 64 * i by ring]

theorem leBytes_leNat : ∀ (n : Nat) (bs : List Byte), n ≤ bs.length → leBytes n (leNat bs) = bs.take n
  | 0, _, _ => rfl
  | n + 1, b :: t, h => by
    have rest : (b.toNat + 256 * leNat t) / 256 = leNat t := by have := b.isLt; omega
    have first : bv 8 (b.toNat + 256 * leNat t) = b := BitVec.eq_of_toNat_eq (by rw [BitVec.toNat_ofNat]; have := b.isLt; omega)
    rw [leNat, leBytes, rest, first, leBytes_leNat n t (by simpa using h), List.take_succ_cons]

theorem bytesOf_length (ws : List Word) : (bytesOf ws).length = 8 * ws.length := by
  induction ws with
  | nil => rfl
  | cons w t ih =>
    rw [bytesOf, List.length_append, leBytes_length, ih, List.length_cons]
    omega

theorem memSize_cases (t : BitVec 3) : memSize t = 4 ∨ memSize t = 8 ∨ memSize t = 32 ∨ memSize t = 48 := by
  unfold memSize
  split <;> simp

/-- The words that a load's bytes make, by type (R187). -/
theorem loadWords_eq (t : BitVec 3) (bs : List Byte) (h : bs.length = memSize t) :
    (if t.toNat = 7 then wordsOf 4 bs else if t.toNat = 6 then wordsOf 6 bs
      else if memSize t = 8 then [bv 64 (leNat bs)] else [oldWord t (leNat bs)]) = loadWords t (leNat bs) := by
  have small : memSize t = 4 → leNat bs < 4294967296 := fun e => (leNat_lt bs).trans_eq (by rw [h, e]; rfl)
  have lt := t.isLt
  interval_cases e : t.toNat <;> simp_all [loadWords, memSize, oldWord, extW, opW, wordsOf_eq, Nat.mod_eq_of_lt]

/-- Tokens to both destinations, those for none dropped (R91). -/
theorem both_emitted (r : NRec) {mk : BitVec 24 → Token} (h : ∀ d, (mk d).dest = d) :
    (both r mk).filter (fun z => z.dest != noDst) = ([nDstA r, nDstB r].filter fun d => d != noDst).map mk := by
  rw [show both r mk = [nDstA r, nDstB r].map mk from rfl, List.filter_map]
  simp only [Function.comp_def, h]

end Sys2Proof.Proofs
end

section
/-! Requests performed, kept in their chain, or frozen, and the statement about them (R187 to R189, R205). -/

namespace Sys2Proof.Proofs

open Sys2Proof.Machine Sys2Proof.Safety Sys2Proof.Laws

variable {s : State} {c : Nat} {q : MemReq}

/-! ## A request whose chain is open -/

/-- A work in which everything reads as in the state, though a cell may have been put back in the table. -/
structure Rereads (s : State) (w : Work) : Prop where
  log : w.log = []
  base : w.base = s.mem
  mod : w.mod = s.mod
  groves : w.groves = s.groves
  regions : w.regions = s.regions
  cells : ∀ k, w.cell k = cellOf s k
  place : ∀ {a n : Nat}, a + n ≤ memTop → InPlace (Work.of s) a n → InPlace w a n

theorem rereads_of (s : State) : Rereads s (Work.of s) := ⟨rfl, rfl, rfl, rfl, rfl, fun _ => rfl, fun _ h => h⟩

theorem Rereads.rno {w : Work} (h : Rereads s w) (g : Nat) : w.rno g = (Work.of s).rno g := by
  rw [Work.rno, Work.grove, h.groves]
  rfl

theorem Rereads.regOf {w : Work} (h : Rereads s w) (g : Nat) : w.regOf g = regionAt s g := by
  rw [Work.regOf, h.rno, Work.region, h.regions]
  rfl

/-- The work of a request's step, once its chain is open. -/
def opened (s : State) (c : Nat) (q : MemReq) : Work :=
  if q.unord then Work.of s else (Work.of s).updCell c fun k => k.openChain q.colour q.iter

/-- A chain that is open is not opened again (R188). -/
theorem rereads_opened (h : q.unord = true ∨ ((cellOf s c).chain q.colour q.iter).isSome = true) : Rereads s (opened s c q) := by
  unfold opened
  split
  · exact rereads_of s
  · next u =>
    have same : (cellOf s c).openChain q.colour q.iter = cellOf s c := if_pos (.inl (h.resolve_left u))
    rw [updCell_eq, show ((Work.of s).cell c).openChain q.colour q.iter = cellOf s c from same]
    refine ⟨rfl, rfl, rfl, rfl, rfl, fun k => ?_, fun fit p => inPlace_setCell rfl fit p⟩
    by_cases e : c = k
    · rw [← e, setCell_same]
    · exact setCell_other _ _ e

theorem rereads_due (d : Due s c q) : Rereads s (opened s c q) :=
  rereads_opened (d.2.2.1.imp_right fun ⟨z, e, _⟩ => by rw [e]; rfl)

/-- A request that is due is performed (R188). -/
theorem orderedRequest_performs (d : Due s c q) :
    exec (.orderedRequestPerform c q.id) s = .next (s.finish ((opened s c q).performReq c q)) := by
  have cell := (rereads_due d).cells c
  obtain ⟨found, free, due, room⟩ := d
  have turn : (cellOf s c).reqDue q = true := by
    unfold Cell.reqDue
    rcases due with u | ⟨z, e, admits⟩
    · rw [u, Bool.true_or]
    · rw [e]
      simpa [Chain.admits] using .inr admits
  refine next_congr ?_
  simp only [show ((Work.of s).cell c).reqs.find? (fun p => p.id == q.id) = some q from found]
  rw [if_neg (Bool.eq_false_iff.1 free)]
  have now : ((opened s c q).cell c).reqDue q = true ∧
      ((opened s c q).cell c).room (reserved (Tbl.vals ((opened s c q).cell c).twigs) + q.sends) = true := by
    rw [cell]
    exact ⟨turn, room⟩
  exact if_pos now

/-- A request whose place in its chain has not come stays (R188). -/
theorem orderedRequest_stays {z : Chain} (found : (cellOf s c).reqs.find? (fun p => p.id == q.id) = some q) (o : q.unord = false)
    (open_ : (cellOf s c).chain q.colour q.iter = some z) (later : z.admits q = false) :
    ∃ w, exec (.orderedRequestPerform c q.id) s = .next (s.finish w) ∧ Rereads s w := by
  have reads : Rereads s (opened s c q) := rereads_opened (.inr (by rw [open_]; rfl))
  have turn : ((opened s c q).cell c).reqDue q = false := by
    rw [reads.cells, Cell.reqDue, o, open_]
    exact later
  by_cases held : (Work.of s).reqHeld c q = true
  · refine ⟨Work.of s, next_congr ?_, rereads_of s⟩
    simp only [show ((Work.of s).cell c).reqs.find? (fun p => p.id == q.id) = some q from found]
    exact if_pos held
  · refine ⟨opened s c q, next_congr ?_, reads⟩
    simp only [show ((Work.of s).cell c).reqs.find? (fun p => p.id == q.id) = some q from found]
    rw [if_neg held]
    have notYet : ¬ (((opened s c q).cell c).reqDue q = true ∧
        ((opened s c q).cell c).room (reserved (Tbl.vals ((opened s c q).cell c).twigs) + q.sends) = true) := fun h => by
      rw [turn] at h
      exact Bool.false_ne_true h.1
    exact if_neg notYet

/-! ## A request that leaves (R187, R188) -/

theorem chain_advance {k : Cell} {z : Chain} (o : q.unord = false) (h : k.chain q.colour q.iter = some z) :
    (k.advance q).chain q.colour q.iter = if q.osucc = 0 then none else some { z with last := q.oseq, lastsucc := q.osucc } := by
  have mine : (z.colour == q.colour && z.iter == q.iter) = true := by simpa using List.find?_some h
  unfold Cell.advance Cell.chain
  rw [o, if_neg Bool.false_ne_true]
  dsimp only
  split
  · rw [List.find?_eq_none]
    intro x m
    have other := (List.mem_filter.1 m).2
    rw [Bool.not_eq_true'] at other
    exact Bool.eq_false_iff.1 other
  · rw [List.find?_map]
    have test : (fun x : Chain => x.colour == q.colour && x.iter == q.iter) ∘ (fun x : Chain =>
        if (x.colour == q.colour && x.iter == q.iter) = true then { x with last := q.oseq, lastsucc := q.osucc } else x) =
        fun x => x.colour == q.colour && x.iter == q.iter := by
      funext x
      dsimp only [Function.comp]
      split <;> rfl
    rw [test, show k.chains.find? (fun x => x.colour == q.colour && x.iter == q.iter) = some z from h, Option.map_some, if_pos mine]

theorem endReq_cell (w : Work) (c : Nat) (q : MemReq) (outs : List Token) : (w.endReq c q outs).cell c =
    ({ w.cell c with reqs := (w.cell c).reqs.filter fun p => p.id != q.id }.advance q).emit outs :=
  (releaseToks_cell _ _ _ _).trans (setCell_same _ _ _)

theorem endReq_log (w : Work) (c : Nat) (q : MemReq) (outs : List Token) : (w.endReq c q outs).log = w.log :=
  (inCell_releaseToks 0 _ _ _).log

theorem advance_reqs (k : Cell) (q : MemReq) : (k.advance q).reqs = k.reqs := by
  unfold Cell.advance
  split <;> rfl

/-- A request that ends is performed, its tokens placed. -/
theorem performed_endReq {w : Work} (h : w.cell c = cellOf s c) (outs : List Token) :
    Performed s (s.finish (w.endReq c q outs)) c q (outs.filter fun z => z.dest != noDst) := by
  have cell : cellOf (s.finish (w.endReq c q outs)) c = _ := endReq_cell w c q outs
  rw [h] at cell
  refine ⟨?_, ?_, fun z o e => ?_⟩
  · rw [cell]
    exact advance_reqs _ _
  · rw [cell]
    exact congrArg (· ++ _) (advance_outs _ _).1
  · rw [cell]
    exact chain_advance (k := { cellOf s c with reqs := (cellOf s c).reqs.filter fun p => p.id != q.id }) o e

theorem null_performed (d : Due s c q) (n : q.null = true) : ∃ u, exec (.orderedRequestPerform c q.id) s = .next u ∧
    Performed s u c q ((nullOuts q).filter fun z => z.dest != noDst) ∧ u.mem = s.mem := by
  have work : (opened s c q).performReq c q = (opened s c q).endReq c q (nullOuts q) := if_pos n
  refine ⟨_, (orderedRequest_performs d).trans (next_congr work), performed_endReq ((rereads_due d).cells c) _, ?_⟩
  exact congrArg s.mem.write ((endReq_log _ _ _ _).trans (rereads_due d).log)

/-! ## A request that faults (R189) -/

/-- A request's chain freezes, or its colour at its node where it is unordered; the request stays (R189, R381). -/
def ReqStops (s : State) (c : Nat) (q : MemReq) (code : Nat) : Prop :=
  ∃ u o, exec (.orderedRequestPerform c q.id) s = .next u ∧ (cellOf u c).reqs = (cellOf s c).reqs ∧
    (cellOf u c).outq = (cellOf s c).outq ∧ u.mem = s.mem ∧
    (regionAt u (c / 16)).frozen = (regionAt s (c / 16)).frozen ++ [o] ∧ o.code = code ∧ o.aux = q.id ∧ o.cell = c ∧
    o.okind = (if q.unord then 2 else 3)

theorem reqStops_of_freezeReq {w v : Work} {code : Nat} (r : Rereads s w) (a : Accessed w v [])
    (e : exec (.orderedRequestPerform c q.id) s = .next (s.finish (v.freezeReq c q code))) : ReqStops s c q code := by
  have region : v.regOf (c / 16) = regionAt s (c / 16) := (keeps_regOf a.keeps _).trans (r.regOf _)
  have cell : v.cell c = cellOf s c := by rw [Work.cell, a.keeps.cells]; exact r.cells c
  exact ⟨_, _, e, congrArg Cell.reqs cell, congrArg Cell.outq cell, congrArg s.mem.write a.log,
    (congrArg Region.frozen (setRegion_same v (v.rno (c / 16)) _)).trans (congrArg (· ++ _) (congrArg Region.frozen region)),
    rfl, rfl, rfl, rfl⟩

/-! ## Loads and stores (R187, R189) -/

/-- Where a request's access lies: in its cell's bank, or in memory that its grove's buffer reaches (R187). -/
def RequestReaches (s : State) (c : Nat) (q : MemReq) (nd : Need) (p : Nat) : Prop :=
  if osb1 q.record then NodeReaches s (c / 16) nd q.addr.toNat p (memSize (nType q.record))
  else q.addr.toNat + memSize (nType q.record) ≤ 0x10000 ∧ p = bankBase c + q.addr.toNat

/-- A request that is due accesses memory: it is not null, no NATOM's, and its address is aligned. -/
structure Accesses (s : State) (c : Nat) (q : MemReq) : Prop where
  due : Due s c q
  value : q.null = false
  opc : nOpc q.record ≠ 0x25
  aligned : q.addr.toNat % memAlign (memSize (nType q.record)) = 0

/-- The bytes that a store writes; none for a load. -/
def requestBytes (q : MemReq) : Option (List Byte) :=
  if q.store then some ((bytesOf q.data).take (memSize (nType q.record))) else none

/-- What a request's access comes to. -/
def accessGot (s : State) (c : Nat) (q : MemReq) : Got :=
  nodeAccess ⟨c, 0, q.id⟩ q.agent.1 q.agent.2 (if osb1 q.record then 1 else 0) q.addr.toNat (memSize (nType q.record)) (requestBytes q)
    (opened s c q)

/-- The tokens that an access sends (R187). -/
def accessOuts (q : MemReq) (bs : List Byte) : List Token :=
  if q.store then both q.record fun d => mkTok d q.colour q.iter q.seq (nPrio q.record) [q.addr] else loadOuts q bs

theorem performReq_access {w : Work} (n : q.null = false) (o : nOpc q.record ≠ 0x25) : w.performReq c q = w.performAccess c q := by
  unfold Work.performReq
  rw [n, if_neg Bool.false_ne_true, if_neg o]

theorem misaligned_stops (d : Due s c q) (n : q.null = false) (o : nOpc q.record ≠ 0x25)
    (al : q.addr.toNat % memAlign (memSize (nType q.record)) ≠ 0) : ReqStops s c q 0x03 :=
  reqStops_of_freezeReq (rereads_due d) ⟨.refl _, (rereads_due d).log⟩
    ((orderedRequest_performs d).trans (next_congr ((performReq_access n o).trans (if_pos al))))

theorem access_stops {code : Nat} {v : Work} (a : Accesses s c q) (e : accessGot s c q = .bad code v)
    (h : Accessed (opened s c q) v (opened s c q).log) : ReqStops s c q code := by
  have r := rereads_due a.due
  refine reqStops_of_freezeReq r (r.log ▸ h) ((orderedRequest_performs a.due).trans (next_congr ?_))
  unfold accessGot requestBytes at e
  rw [performReq_access a.value a.opc]
  unfold Work.performAccess
  dsimp only
  rw [if_neg (not_not.2 a.aligned), e]

/-- A request whose access is done leaves, its tokens sent (R187). -/
theorem access_performs {bs : List Byte} {v : Work} {l : List Host.Cell} (a : Accesses s c q) (e : accessGot s c q = .done bs v)
    (h : Accessed (opened s c q) v l) : ∃ w, exec (.orderedRequestPerform c q.id) s = .next (s.finish w) ∧
      Performed s (s.finish w) c q ((accessOuts q bs).filter fun z => z.dest != noDst) ∧ w.log = l := by
  have sent := h.trans (timesOnly_reqSends v c q).accessed
  have cell : (v.reqSends c q).cell c = cellOf s c := by
    rw [Work.cell, sent.keeps.cells]
    exact (rereads_due a.due).cells c
  refine ⟨_, (orderedRequest_performs a.due).trans (next_congr ?_), performed_endReq cell (accessOuts q bs),
    (endReq_log _ _ _ _).trans (sent.log.trans h.log)⟩
  unfold accessGot requestBytes at e
  rw [performReq_access a.value a.opc]
  unfold Work.performAccess
  dsimp only
  rw [if_neg (not_not.2 a.aligned), e]
  rfl

theorem memSize_pieces (t : BitVec 3) : 0 < memSize t ∧ (memSize t ≤ 16 ∨ memSize t % 16 = 0) := by
  rcases memSize_cases t with e | e | e | e <;> rw [e] <;> decide

theorem requestReaches_agent {nd : Need} {p : Nat} (a : Accesses s c q) (v : osb1 q.record = true)
    (h : RequestReaches s c q nd p) : AgentReaches (opened s c q) (c / 16) nd q.addr.toNat p (memSize (nType q.record)) := by
  have r := rereads_due a.due
  rw [RequestReaches, if_pos v] at h
  have reach := agentReaches_of_nodeReaches h
  exact reach.of_same r.groves r.regions (congrArg Mod.modNo r.mod) (r.place reach.fit)

theorem soundIn_opened {p n : Nat} (a : Accesses s c q) (h : Sound s p n) : SoundIn (opened s c q) p n := by
  rw [SoundIn, (rereads_due a.due).mod]
  exact h

theorem past_stops (a : Accesses s c q) (b : osb1 q.record = false) (past : 0x10000 < q.addr.toNat + memSize (nType q.record)) :
    ReqStops s c q 0x09 := by
  obtain ⟨v, e, h⟩ := nodeAccess_bank_past (me := ⟨c, 0, q.id⟩) (kind := q.agent.1) (num := q.agent.2) (w := opened s c q) past (requestBytes q)
  refine access_stops a (e := ?_) h
  rw [accessGot, b]
  exact e

theorem spoilt_stops (a : Accesses s c q) (l : q.store = false) (b : osb1 q.record = false)
    (fit : q.addr.toNat + memSize (nType q.record) ≤ 0x10000)
    (bad : ¬ Sound s (bankBase c + q.addr.toNat) (memSize (nType q.record))) : ReqStops s c q 0x0A := by
  have badIn : ¬ SoundIn (opened s c q) (bankBase c + q.addr.toNat) (memSize (nType q.record)) := by
    rw [SoundIn, (rereads_due a.due).mod]
    exact bad
  obtain ⟨v, e, h⟩ := nodeAccess_bank_spoilt (me := ⟨c, 0, q.id⟩) (kind := q.agent.1) (num := q.agent.2) fit badIn
  refine access_stops a (e := ?_) h
  rw [accessGot, requestBytes, l, b]
  exact e

/-- A load's access reads the bytes of the state, and writes none. -/
theorem load_got {p : Nat} (a : Accesses s c q) (l : q.store = false) (h : RequestReaches s c q needR p)
    (sound : Sound s p (memSize (nType q.record))) : ∃ v, accessGot s c q =
      .done ((List.range (memSize (nType q.record))).map fun i => byteAt s (p + i)) v ∧ Accessed (opened s c q) v [] := by
  have r := rereads_due a.due
  obtain ⟨pos, size⟩ := memSize_pieces (nType q.record)
  unfold accessGot requestBytes
  rw [l, if_neg Bool.false_ne_true]
  by_cases v : osb1 q.record = true
  · have reach := requestReaches_agent a v h
    obtain ⟨u, w, e, au, aw⟩ := nodeAccess_memory_read (me := ⟨c, 0, q.id⟩) (kind := q.agent.1) (num := q.agent.2) reach pos size
      (soundIn_opened a sound)
    have place : InPlace w p (memSize (nType q.record)) := inPlace_of_cells aw.keeps.cells reach.place
    rw [r.log] at au aw
    rw [pbytes_unwritten aw.log (aw.keeps.base.trans r.base) place] at e
    rw [if_pos v]
    exact ⟨u, e, au⟩
  · rw [RequestReaches, if_neg v] at h
    obtain ⟨fit, rfl⟩ := h
    obtain ⟨u, e, au⟩ := nodeAccess_bank_read (me := ⟨c, 0, q.id⟩) (kind := q.agent.1) (num := q.agent.2) fit
      (soundIn_opened a sound)
    rw [bytes_unwritten r.log r.base] at e
    rw [r.log] at au
    rw [if_neg v]
    exact ⟨u, e, au⟩

/-- A store's access writes its bytes (R187). -/
theorem store_got {p : Nat} (a : Accesses s c q) (l : q.store = true) (six : q.data.length = 6) (h : RequestReaches s c q needW p) :
    ∃ v, accessGot s c q = .done [] v ∧
      Accessed (opened s c q) v (logBytes [] p (leBytes (memSize (nType q.record)) (leNat (bytesOf q.data)))) := by
  have r := rereads_due a.due
  obtain ⟨pos, size⟩ := memSize_pieces (nType q.record)
  have enough : memSize (nType q.record) ≤ (bytesOf q.data).length := by
    rw [bytesOf_length, six]
    rcases memSize_cases (nType q.record) with e | e | e | e <;> omega
  have len : ((bytesOf q.data).take (memSize (nType q.record))).length = memSize (nType q.record) := by
    rw [List.length_take, Nat.min_eq_left enough]
  unfold accessGot requestBytes
  rw [l, if_pos rfl, leBytes_leNat _ _ enough]
  by_cases v : osb1 q.record = true
  · have reach := requestReaches_agent a v h
    obtain ⟨u, e, au⟩ := nodeAccess_memory_write (me := ⟨c, 0, q.id⟩) (kind := q.agent.1) (num := q.agent.2)
      (bs := (bytesOf q.data).take (memSize (nType q.record))) (by rwa [len]) (by rwa [len]) (by rwa [len])
    rw [len] at e
    rw [r.log] at au
    rw [if_pos v]
    exact ⟨u, e, au⟩
  · rw [RequestReaches, if_neg v] at h
    obtain ⟨fit, rfl⟩ := h
    obtain ⟨u, e, au⟩ := nodeAccess_bank_write (me := ⟨c, 0, q.id⟩) (kind := q.agent.1) (num := q.agent.2) (w := opened s c q) fit
      ((bytesOf q.data).take (memSize (nType q.record)))
    rw [List.take_take, Nat.min_self, r.log] at au
    rw [if_neg v]
    exact ⟨u, e, au⟩

theorem load_performed {p : Nat} (a : Accesses s c q) (l : q.store = false) (h : RequestReaches s c q needR p)
    (sound : Sound s p (memSize (nType q.record))) : ∃ u, exec (.orderedRequestPerform c q.id) s = .next u ∧
      Performed s u c q (fromReq q (if (nType q.record).toNat = 6 then 1 else 0)
        (loadWords (nType q.record) (numAt s p (memSize (nType q.record))))) ∧ ∀ b, byteAt u b = byteAt s b := by
  obtain ⟨v, e, av⟩ := load_got a l h sound
  obtain ⟨w, step, performed, log⟩ := access_performs a e av
  have outs : (accessOuts q ((List.range (memSize (nType q.record))).map fun i => byteAt s (p + i))).filter (fun z => z.dest != noDst) =
      fromReq q (if (nType q.record).toNat = 6 then 1 else 0) (loadWords (nType q.record) (numAt s p (memSize (nType q.record)))) := by
    rw [accessOuts, l, if_neg Bool.false_ne_true, loadOuts]
    dsimp only
    rw [loadWords_eq (nType q.record) _ (by simp)]
    exact both_emitted q.record fun _ => rfl
  rw [outs] at performed
  exact ⟨_, step, performed, fun b => by rw [byteAt, finish_mem, log]; rfl⟩

theorem store_performed {p : Nat} (m : MemOk s) (a : Accesses s c q) (l : q.store = true) (six : q.data.length = 6)
    (h : RequestReaches s c q needW p) : ∃ u, exec (.orderedRequestPerform c q.id) s = .next u ∧
      Performed s u c q (fromReq q 0 [q.addr]) ∧ Stored s u p (memSize (nType q.record)) (leNat (bytesOf q.data)) := by
  obtain ⟨v, e, av⟩ := store_got a l six h
  obtain ⟨w, step, performed, log⟩ := access_performs a e av
  have outs : (accessOuts q []).filter (fun z => z.dest != noDst) = fromReq q 0 [q.addr] := by
    rw [accessOuts, l, if_pos rfl]
    exact both_emitted q.record fun _ => rfl
  rw [outs] at performed
  exact ⟨_, step, performed, stored_of_log m log⟩

/-! ## An ordered NATOM's update (R205) -/

theorem natom_updates (d : Due s c q) (n : q.null = false) (o : nOpc q.record = 0x25) (to_ : nDstA q.record ≠ noDst) :
    ∃ u, exec (.orderedRequestPerform c q.id) s = .next u ∧
      (cellOf u c).outq = (cellOf s c).outq ++ [natomUpdate q (some ((Work.of s).logical c, q.id))] ∧
      (cellOf u c).reqs = ((cellOf s c).reqs.map fun p : MemReq => if p.id = q.id then { p with waiting := true } else p) ∧ u.mem = s.mem := by
  have r := rereads_due d
  have sent := timesOnly_agentSends (opened s c q) c q.agent.1 q.agent.2
  have logical : (opened s c q).logical c = (Work.of s).logical c := by
    rw [Work.logical, r.regOf]
    rfl
  have cell : ((opened s c q).agentSends (.agent c q.agent.1 q.agent.2)).cell c = cellOf s c := by
    rw [Work.cell, sent.keeps.cells]
    exact r.cells c
  have work : (opened s c q).performReq c q = ((opened s c q).agentSends (.agent c q.agent.1 q.agent.2)).updCell c fun k =>
      ({ k with reqs := k.reqs.map fun p : MemReq => if p.id = q.id then { p with waiting := true } else p } : Cell).emit
        [natomUpdate q (some ((Work.of s).logical c, q.id))] := by
    rw [← logical]
    exact (if_neg (Bool.eq_false_iff.1 n)).trans (if_pos o)
  have kept : [natomUpdate q (some ((Work.of s).logical c, q.id))].filter (fun z => z.dest != noDst) =
      [natomUpdate q (some ((Work.of s).logical c, q.id))] :=
    List.filter_eq_self.2 fun z m => by
      rw [List.mem_singleton.1 m]
      exact bne_iff_ne.2 to_
  refine ⟨_, (orderedRequest_performs d).trans (next_congr work), ?_, ?_, congrArg s.mem.write (sent.log.trans r.log)⟩
  · refine (congrArg Cell.outq (setCell_same _ _ _)).trans ?_
    rw [cell]
    exact congrArg ((cellOf s c).outq ++ ·) kept
  · refine (congrArg Cell.reqs (setCell_same _ _ _)).trans ?_
    rw [cell]
    rfl

/-- Settles O41: null requests, accesses that stop or are performed, updates, and requests that stay. -/
theorem memoryRequests : Obligations.MemoryRequests := by
  intro s c q
  refine ⟨null_performed, fun d n o => ?_, fun d n o to_ => natom_updates d n o to_, fun z found o open_ e1 e2 => ?_⟩
  · refine ⟨misaligned_stops d n o, fun al => past_stops ⟨d, n, o, al⟩, fun al => spoilt_stops ⟨d, n, o, al⟩,
      fun p al l h => load_performed ⟨d, n, o, al⟩ l h, fun p m al l six h => store_performed m ⟨d, n, o, al⟩ l six h⟩
  · have later : z.admits q = false := by
      simp only [Chain.admits, Bool.or_eq_false_iff, Bool.and_eq_false_iff, beq_eq_false_iff_ne]
      exact ⟨e1, Decidable.not_and_iff_or_not.1 e2⟩
    obtain ⟨w, step, r⟩ := orderedRequest_stays found o open_ later
    exact ⟨_, step, r.cells, congrArg s.mem.write r.log⟩

end Sys2Proof.Proofs
end

section
/-! NAG: triggers, and a generator's walk of a round, element by element, with the statement about them (R185, R186). -/

namespace Sys2Proof.Proofs

open Sys2Proof.Machine Sys2Proof.Safety Sys2Proof.Laws

variable {s : State} {f : Fire} {x : Inst} {c u : Nat}

/-! ## Triggers (R185) -/

/-- A cell with a generator set. -/
def withGen (k : Cell) (u : Nat) (g : Gen) : Cell := { k with gens := Tbl.put k.gens u g }

theorem gen_withGen (k : Cell) (u : Nat) (g : Gen) : (withGen k u g).gen u = g := getD_put_same _ _ _ _

theorem setGen_cell (w : Work) (c u : Nat) (g : Gen) : (w.setGen c u g).cell c = withGen (w.cell c) u g := setCell_same _ _ _

/-- The generator that a trigger's record names. -/
def nagUnit (x : Inst) : Nat := (nLit x.r).toNat / 2 ^ 5 % 4

/-- The shape that a trigger's record names, as it stands in the cell. -/
def nagShape (s : State) (f : Fire) (x : Inst) : BitVec 512 := (cellOf s f.cell).shape ((nLit x.r).toNat % 32)

theorem nag_null_sends (h : Fires s f x 0x20) (n : x.anyNull = true) :
    Sends s .nag f x [mkNull (nDstB x.r) f.colour f.iter (x.tok 0).seq (nPrio x.r)] := by
  refine sends_of_fired (w := Work.of s) (lc := (Work.of s).logical f.cell) (next_congr ?_) (.refl _ _) rfl
  obtain ⟨rfl, inst, opc, chosen⟩ := h
  dsimp only
  rw [show ((Work.of s).cell (Work.of s).fire.cell).inst (Work.of s).fire = some x from inst]
  dsimp only
  rw [if_pos ⟨opc, chosen⟩, if_pos n]
  rfl

/-- The work of a trigger, before it is traced. -/
def nagStarted (s : State) (f : Fire) (x : Inst) : Work :=
  ((Work.of s).setGen f.cell (nagUnit x) ((genOf s f.cell (nagUnit x)).start (nagShape s f x) f x)).updCell f.cell fun k =>
    k.freeEntries x.ids

theorem nag_starts (h : Fires s f x 0x20) (n : x.anyNull = false) : exec .nag s =
    .next (s.finish ((nagStarted s f x).traced f.cell true (fireToken f x ((Work.of s).logical f.cell)))) := by
  obtain ⟨rfl, inst, opc, chosen⟩ := h
  have unit : litF x.r 6 5 = nagUnit x := rfl
  have shape : litF x.r 4 0 = (nLit x.r).toNat % 32 := by simp [litF, bits]
  refine next_congr ?_
  dsimp only
  rw [show ((Work.of s).cell (Work.of s).fire.cell).inst (Work.of s).fire = some x from inst]
  dsimp only
  rw [if_pos ⟨opc, chosen⟩, if_neg (Bool.eq_false_iff.1 n), unit, shape]
  rfl

/-- The cell of a trigger, once its generator has started. -/
theorem nagStarted_cell (s : State) (f : Fire) (x : Inst) : (nagStarted s f x).cell f.cell =
    (withGen (cellOf s f.cell) (nagUnit x) ((genOf s f.cell (nagUnit x)).start (nagShape s f x) f x)).freeEntries x.ids := by
  rw [nagStarted, updCell_eq, setCell_same, setGen_cell]
  rfl

theorem nag_start_sends (h : Fires s f x 0x20) (n : x.anyNull = false) : SendsAnd s .nag f x [] fun t =>
    CellOnly s t f.cell ∧ genOf t f.cell (nagUnit x) = (genOf s f.cell (nagUnit x)).start (nagShape s f x) f x := by
  have cell : unmarked (cellOf (s.finish ((nagStarted s f x).traced f.cell true (fireToken f x ((Work.of s).logical f.cell)))) f.cell) =
      unmarked ((nagStarted s f x).cell f.cell) := (onlyTraces_traced _ _ _ _).cells _
  rw [nagStarted_cell] at cell
  refine ⟨_, nag_starts h n, ⟨(congrArg Cell.outq cell).trans (List.append_nil _).symm, congrArg Cell.entries cell⟩, ?_, ?_⟩
  · exact cellOnly_traced ((inCell_updCell _ _ _).trans (inCell_updCell _ _ _)) _ _
  · exact (congrArg (fun k => Tbl.getD (Cell.gens k) (nagUnit x) Gen.reset) cell).trans (gen_withGen _ _ _)

/-! ## The walk of a generator (R185) -/

/-- A generator may step: it walks, its region runs, and its colour is not frozen at its node. -/
structure Walks (s : State) (c u : Nat) : Prop where
  busy : (genOf s c u).busy = true
  runs : (regionAt s (c / 16)).runs = true
  thawed : (Work.of s).isFrozenAt c (genOf s c u).node (genOf s c u).colour = false

/-- The work of a generator's next step, by where it stands in its walk. -/
def walkStep (s : State) (c u : Nat) : Work :=
  let g := genOf s c u
  if g.inRound = false then
    if g.round < shRounds g.shape then (Work.of s).setGen c u g.begin
    else releaseToks (c / 16) g.ins ((Work.of s).setGen c u { g with busy := false, ins := [] })
  else if g.index.isEmpty then (Work.of s).genRound c u g
  else if osb0 g.record then (Work.of s).genStore c u g
  else (Work.of s).genLoad c u g

theorem nagElement_walks (h : Walks s c u) : exec (.nagElement c u) s = .next (s.finish (walkStep s c u)) := by
  obtain ⟨busy, runs, thawed⟩ := h
  refine next_congr (if_neg ?_)
  rintro (e | e | e)
  · exact Bool.false_ne_true (e.symm.trans busy)
  · exact Bool.false_ne_true (e.symm.trans runs)
  · exact Bool.false_ne_true (thawed.symm.trans e)

/-! ## Rounds (R185, R186) -/

/-- Held parameters apply in order: the last one for CUR stands (R186). -/
theorem applied_cur : ∀ (ps : List (Nat × Word)) (g : Gen),
    (ps.foldl Gen.apply g).cur = ((ps.filter fun e => e.1 == 0).getLast?.map fun e => e.2).getD g.cur
  | [], _ => rfl
  | p :: ps, g => by
    rw [List.foldl_cons, applied_cur ps (g.apply p)]
    unfold Gen.apply
    by_cases z : p.1 = 0
    · rw [if_pos z, List.filter_cons_of_pos (p := fun e : Nat × Word => e.1 == 0) (beq_iff_eq.2 z), List.getLast?_cons]
      cases (ps.filter fun e => e.1 == 0).getLast? <;> rfl
    · rw [if_neg z, List.filter_cons_of_neg (p := fun e : Nat × Word => e.1 == 0) fun e => z (beq_iff_eq.1 e)]

/-- A round's first index, where no parameter is held. -/
theorem begin_index {g : Gen} (none_ : g.params = []) : g.begin.index =
    if 0 ∈ g.extents.take (shNdim g.shape) then [] else (g.extents.take (shNdim g.shape)).map fun _ => 0 := by
  have zero : ((g.extents.take (shNdim g.shape)).any fun e => e == 0) = true ↔ 0 ∈ g.extents.take (shNdim g.shape) := by
    simp only [List.any_eq_true, beq_iff_eq, exists_eq_right]
  unfold Gen.begin
  rw [none_]
  dsimp only [List.foldl_nil]
  rw [List.map_const']
  exact if_congr zero rfl rfl

theorem round_begins (h : Walks s c u) (out : (genOf s c u).inRound = false)
    (more : (genOf s c u).round < shRounds (genOf s c u).shape) :
    ∃ t, exec (.nagElement c u) s = .next t ∧ t.mem = s.mem ∧ genOf t c u = (genOf s c u).begin := by
  refine ⟨_, nagElement_walks h, ?_⟩
  unfold walkStep
  dsimp only
  rw [if_pos out, if_pos more]
  exact ⟨rfl, (congrArg (Cell.gen · u) (setGen_cell _ _ _ _)).trans (gen_withGen _ _ _)⟩

theorem walk_ends (h : Walks s c u) (out : (genOf s c u).inRound = false)
    (done : shRounds (genOf s c u).shape ≤ (genOf s c u).round) :
    ∃ t, exec (.nagElement c u) s = .next t ∧ t.mem = s.mem ∧ (genOf t c u).busy = false ∧
      (cellOf t c).outq = (cellOf s c).outq := by
  refine ⟨_, nagElement_walks h, ?_⟩
  unfold walkStep
  dsimp only
  rw [if_pos out, if_neg (Nat.not_lt.2 done)]
  have cell := (releaseToks_cell _ (c / 16) (genOf s c u).ins c).trans
    (setGen_cell (Work.of s) c u { genOf s c u with busy := false, ins := [] })
  exact ⟨congrArg s.mem.write (inCell_releaseToks 0 _ _ _).log,
    congrArg Gen.busy ((congrArg (Cell.gen · u) cell).trans (gen_withGen _ _ _)), (congrArg Cell.outq cell :)⟩

/-- A walk's step that sets its generator and sends tokens. -/
def genSends (w : Work) (c u : Nat) (g : Gen) (outs : List Token) : Work :=
  ((w.setGen c u g).agentSends (.agent c 3 u)).updCell c fun k => k.emit outs

theorem genSends_finish {w : Work} (h : w.cell c = cellOf s c) (g : Gen) (outs : List Token) :
    (genSends w c u g outs).log = w.log ∧ genOf (s.finish (genSends w c u g outs)) c u = g ∧
      (cellOf (s.finish (genSends w c u g outs)) c).outq = (cellOf s c).outq ++ outs.filter fun z => z.dest != noDst := by
  have sent := timesOnly_agentSends (w.setGen c u g) c 3 u
  have cell : (genSends w c u g outs).cell c = (withGen (cellOf s c) u g).emit outs := by
    rw [genSends, updCell_eq, setCell_same, Work.cell, sent.keeps.cells, ← h]
    exact congrArg (Cell.emit · outs) (setGen_cell _ _ _ _)
  exact ⟨sent.log, (congrArg (Cell.gen · u) cell).trans (gen_withGen _ _ _), congrArg Cell.outq cell⟩

theorem wrap_add (v : Word) (z : Int) : bv 64 (wrap 64 ((v.toNat : Int) + z)) = v + BitVec.ofInt 64 z := by
  apply BitVec.eq_of_toNat_eq
  rw [BitVec.toNat_add, BitVec.toNat_ofInt, BitVec.toNat_ofNat, wrap]
  omega

/-- A generator past the end of its round: CUR moves by RSTRIDE (R185). -/
def roundEnded (g : Gen) : Gen :=
  { g with round := g.round + 1, inRound := false, cur := bv 64 (wrap 64 ((g.cur.toNat : Int) + shRstride g.shape)) }

/-- The token at a round's end: its count (R185). -/
def roundToken (g : Gen) : Token :=
  mkTok (nDstB g.record) g.colour g.iter (g.ins.head?.map Token.seq |>.getD 0) (nPrio g.record) [BitVec.ofNat 64 g.count]

theorem round_ends (h : Walks s c u) (within : (genOf s c u).inRound = true) (past : (genOf s c u).index = [])
    (space : (cellOf s c).room (reserved (Tbl.vals (cellOf s c).twigs) + dests [nDstB (genOf s c u).record]) = true) :
    ∃ t, exec (.nagElement c u) s = .next t ∧ t.mem = s.mem ∧ genOf t c u = roundEnded (genOf s c u) ∧
      (cellOf t c).outq = (cellOf s c).outq ++ [roundToken (genOf s c u)].filter fun z => z.dest != noDst := by
  have work : walkStep s c u = genSends (Work.of s) c u (roundEnded (genOf s c u)) [roundToken (genOf s c u)] := by
    unfold walkStep
    dsimp only
    rw [within, if_neg Bool.noConfusion, past, if_pos List.isEmpty_nil]
    exact if_pos space
  obtain ⟨log, gen, outq⟩ := genSends_finish (s := s) (c := c) (u := u) (w := Work.of s) rfl (roundEnded (genOf s c u))
    [roundToken (genOf s c u)]
  rw [← work] at log gen outq
  exact ⟨_, nagElement_walks h, congrArg s.mem.write log, gen, outq⟩

/-! ## Elements (R185, R189) -/

theorem addr_elementAt (g : Gen) : g.addr = elementAt g := by
  unfold Gen.addr elementAt wrap
  norm_num

/-- A generator stands at an element of its bank that it has not asked for. -/
structure AtElement (s : State) (c u : Nat) : Prop where
  walks : Walks s c u
  within : (genOf s c u).inRound = true
  index : (genOf s c u).index ≠ []
  bank : litF (genOf s c u).record 9 8 = 0
  wait : (genOf s c u).wait = none
  got : (genOf s c u).got = none
  aligned : (genOf s c u).addr % memAlign (shSize (genOf s c u).shape) = 0
  fit : (genOf s c u).addr + shSize (genOf s c u).shape ≤ 0x10000

theorem walkStep_element (h : AtElement s c u) : walkStep s c u =
    if osb0 (genOf s c u).record then (Work.of s).genStore c u (genOf s c u) else (Work.of s).genLoad c u (genOf s c u) := by
  unfold walkStep
  dsimp only
  rw [h.within, if_neg Bool.noConfusion, if_neg fun e => h.index (List.isEmpty_iff.1 e)]

theorem element_loads (h : AtElement s c u) (load : osb0 (genOf s c u).record = false)
    (sound : Sound s (bankBase c + (genOf s c u).addr) (shSize (genOf s c u).shape))
    (space : (cellOf s c).room (reserved (Tbl.vals (cellOf s c).twigs) + dests [nDstA (genOf s c u).record]) = true) :
    ∃ t, exec (.nagElement c u) s = .next t ∧ t.mem = s.mem ∧ genOf t c u = (genOf s c u).past ∧
      (cellOf t c).outq = (cellOf s c).outq ++ [(genOf s c u).element ((List.range (shSize (genOf s c u).shape)).map fun j =>
        byteAt s (bankBase c + (genOf s c u).addr + j))].filter fun z => z.dest != noDst := by
  obtain ⟨v, e, a⟩ := nodeAccess_bank_read (me := ⟨c, 1, u⟩) (kind := 3) (num := u) (w := Work.of s) h.fit sound
  rw [bytes_unwritten rfl rfl] at e
  obtain ⟨log, gen, outq⟩ := genSends_finish (s := s) (c := c) (u := u) (w := v)
    (by rw [Work.cell, a.keeps.cells]; rfl) (genOf s c u).past
    [(genOf s c u).element ((List.range (shSize (genOf s c u).shape)).map fun j => byteAt s (bankBase c + (genOf s c u).addr + j))]
  have work : walkStep s c u = genSends v c u (genOf s c u).past
      [(genOf s c u).element ((List.range (shSize (genOf s c u).shape)).map fun j => byteAt s (bankBase c + (genOf s c u).addr + j))] := by
    rw [walkStep_element h, if_neg (Bool.eq_false_iff.1 load), Work.genLoad,
      if_neg fun full => Bool.false_ne_true (full.symm.trans space), h.got, h.wait]
    dsimp only
    rw [if_neg (not_not.2 h.aligned), if_neg (by rw [h.bank]; decide), h.bank, e]
    rfl
  rw [← work] at log gen outq
  exact ⟨_, nagElement_walks h.walks, congrArg s.mem.write (log.trans a.log), gen, outq⟩

/-- The element's data is in the cell once it is stored. -/
theorem genTake_finish {w : Work} (h : w.cell c = cellOf s c) (g : Gen) (e : Entry) :
    (w.genTake c u g e).log = w.log ∧ genOf (s.finish (w.genTake c u g e)) c u = g.past ∧
      (cellOf (s.finish (w.genTake c u g e)) c).entries = (cellOf s c).entries.filter fun y => y.id != e.id := by
  have taken : InCell (c + 1) ((w.setGen c u g.past).updCell c fun k => k.freeEntries [e.id]) (w.genTake c u g e) := by
    unfold Work.genTake Work.release
    split
    · exact .refl _ _
    · exact inCell_count _ _ _ _ _
  have cell : (w.genTake c u g e).cell c = (withGen (cellOf s c) u g.past).freeEntries [e.id] := by
    rw [taken.cells c (Nat.ne_add_one c), updCell_eq, setCell_same, setGen_cell, h]
  refine ⟨taken.log, (congrArg (Cell.gen · u) cell).trans (gen_withGen _ _ _), (congrArg Cell.entries cell).trans ?_⟩
  refine List.filter_congr fun y _ => ?_
  rw [List.contains_eq_any_beq]
  simp [bne, Bool.beq_comm]

theorem element_stores {e : Entry} (m : MemOk s) (h : AtElement s c u) (store : osb0 (genOf s c u).record = true)
    (size : shSize (genOf s c u).shape ≤ 48) (value : e.tok.null = false) (data : (cellOf s c).genData (genOf s c u) = some e) :
    ∃ t, exec (.nagElement c u) s = .next t ∧ genOf t c u = (genOf s c u).past ∧
      Stored s t (bankBase c + (genOf s c u).addr) (shSize (genOf s c u).shape)
        (leNat (bytesOf ((List.range 6).map (tokW e.tok)))) ∧
      (cellOf t c).entries = (cellOf s c).entries.filter fun y => y.id != e.id := by
  obtain ⟨v, done, a⟩ := nodeAccess_bank_write (me := ⟨c, 1, u⟩) (kind := 3) (num := u) (w := Work.of s) h.fit
    ((bytesOf ((List.range 6).map (tokW e.tok))).take (shSize (genOf s c u).shape))
  obtain ⟨log, gen, entries⟩ := genTake_finish (s := s) (c := c) (u := u) (w := v)
    (by rw [Work.cell, a.keeps.cells]; rfl) (genOf s c u) e
  have work : walkStep s c u = v.genTake c u (genOf s c u) e := by
    rw [walkStep_element h, if_pos store, Work.genStore]
    dsimp only
    rw [show ((Work.of s).cell c).genData (genOf s c u) = some e from data]
    dsimp only
    rw [if_neg (Bool.eq_false_iff.1 value), if_neg (not_not.2 h.aligned), if_neg (by rw [h.bank]; decide), h.bank, done]
  rw [← work] at log gen entries
  refine ⟨_, nagElement_walks h.walks, gen, stored_of_log m ?_, entries⟩
  have enough : shSize (genOf s c u).shape ≤ (bytesOf ((List.range 6).map (tokW e.tok))).length := by
    rwa [bytesOf_length, List.length_map, List.length_range]
  rw [log, a.log, List.take_take, Nat.min_self, leBytes_leNat _ _ enough]
  rfl

/-- One token, where it has a destination. -/
theorem emitted_one {t : Token} {d : BitVec 24} {mk : BitVec 24 → Token} (e : mk d = t) (h : t.dest = d) :
    [t].filter (fun z => z.dest != noDst) = ([d].filter fun d => d != noDst).map mk := by
  rw [List.filter_singleton, List.filter_singleton, h]
  cases d != noDst
  · rfl
  · exact congrArg (fun y => [y]) e.symm

/-- Settles O42: triggers by whether they are null, and a walk's step by where the walk stands. -/
theorem generators : Obligations.Generators := by
  refine ⟨fun s f x h => ⟨nag_null_sends h, fun n => ?_⟩, fun s c u => ?_⟩
  · obtain ⟨t, e, sent, only, gen⟩ := nag_start_sends h n
    refine ⟨t, e, sent, only, ?_⟩
    rw [show genOf t f.cell ((nLit x.r).toNat / 2 ^ 5 % 4) = _ from gen]
    exact ⟨rfl, rfl, rfl, rfl, rfl, rfl, rfl, rfl, rfl, rfl, rfl, rfl⟩
  intro k i n a p space busy runs thawed
  have walks : Walks s c u := ⟨busy, runs, thawed⟩
  refine ⟨fun out more => ?_, walk_ends walks, fun within past room => ?_, fun within index bank wait got aligned fit => ?_⟩
  · obtain ⟨t, e, mem, gen⟩ := round_begins walks out more
    refine ⟨t, e, mem, ?_⟩
    rw [gen]
    exact ⟨rfl, rfl, rfl, applied_cur _ _, begin_index⟩
  · obtain ⟨t, e, mem, gen, outq⟩ := round_ends walks within past room
    refine ⟨t, e, mem, ?_⟩
    rw [gen]
    exact ⟨rfl, rfl, wrap_add _ _, outq⟩
  · have at_ : AtElement s c u := ⟨walks, within, index, bank, wait, got, addr_elementAt k ▸ aligned, addr_elementAt k ▸ fit⟩
    have addr : (genOf s c u).addr = a := addr_elementAt _
    refine ⟨fun load sound room => ?_, fun e m store size value data => ?_⟩
    · obtain ⟨t, step, mem, gen, outq⟩ := element_loads at_ load (addr ▸ sound) room
      refine ⟨t, step, mem, congrArg Gen.index gen, congrArg Gen.count gen, outq.trans ?_⟩
      rw [addr]
      exact congrArg _ (emitted_one rfl rfl)
    · obtain ⟨t, step, gen, stored, entries⟩ := element_stores m at_ store size value data
      rw [addr] at stored
      exact ⟨t, step, stored, congrArg Gen.index gen, congrArg Gen.count gen, entries⟩

end Sys2Proof.Proofs
end

section
/-! Walks of the translation service that complete (R181 to R183). -/

namespace Sys2Proof.Proofs

open Sys2Proof.Machine Sys2Proof.Safety Sys2Proof.Laws

variable {s : State}

/-! ## Walks and buffers (R181, R182) -/

/-- Bytes stored where ranges are mapped change nothing but the log. -/
theorem pstore_onlyLog : ∀ (bs : List Byte) (a : Nat) (w : Work), ∃ l, pstore a bs w = { w with log := l }
  | [], _, w => ⟨w.log, rfl⟩
  | _ :: t, a, w => pstore_onlyLog t (a + 1) (w.store (w.loc a) _)

/-- A walk changes no more than bytes and times: A of the leaf that it came to (R182). -/
theorem walk_onlyBytes {w v : Work} {asid va : Nat} {x : Xlat} (h : w.walk asid va = some (x, v)) :
    ∃ l, TimesOnly { w with log := l } v := by
  unfold Work.walk at h
  split at h
  · cases h
  · split at h
    · cases h
    · next size frame ea e _ =>
      cases h
      split
      · exact ⟨w.log, .refl w⟩
      · obtain ⟨l, e'⟩ := pstore_onlyLog (leBytes 8 (e ||| 0x80).toNat) ea w
        have timed := timesOnly_writeTime (pstore ea (leBytes 8 (e ||| 0x80).toNat) w) (who := .after 0) (fun _ => Who.noConfusion)
          (w.loc ea)
        rw [e'] at timed ⊢
        exact ⟨l, timed⟩

theorem fill_fields (w : Work) (g : Nat) (own : Bool) (x : Xlat) :
    (w.fill g own x).log = w.log ∧ (w.fill g own x).cells = w.cells ∧ (w.fill g own x).mod = w.mod := by
  unfold Work.fill
  split <;> exact ⟨rfl, rfl, rfl⟩

theorem fill_grove (w : Work) (g : Nat) (own : Bool) (x : Xlat) (k : Nat) :
    ((w.fill g own x).grove k).tlb = if g = k then bufPut 2048 x (w.grove k).tlb else (w.grove k).tlb := by
  have shared : (w.fill g own x).grove k = (w.setGrove g { w.grove g with tlb := bufPut 2048 x (w.grove g).tlb }).grove k := by
    unfold Work.fill
    split <;> rfl
  rw [shared]
  split
  · next e => rw [← e, setGrove_same]
  · next e => rw [setGrove_other _ _ e]

theorem mem_bufPut_self {n : Nat} (pos : 0 < n) (x : Xlat) (l : List Xlat) : x ∈ bufPut n x l := by
  obtain ⟨m, rfl⟩ := Nat.exists_eq_succ_of_ne_zero pos.ne'
  exact List.mem_cons_self

/-- A grove's buffer, once it holds a translation, holds it whichever groves take it next. -/
theorem mem_fill_of_mem {w : Work} {x : Xlat} {k : Nat} (g : Nat) (own : Bool) (h : x ∈ (w.grove k).tlb) :
    x ∈ ((w.fill g own x).grove k).tlb := by
  rw [fill_grove]
  split
  · exact mem_bufPut_self (by decide) x _
  · exact h

theorem mem_fill_self (w : Work) (g : Nat) (own : Bool) (x : Xlat) : x ∈ ((w.fill g own x).grove g).tlb := by
  rw [fill_grove, if_pos rfl]
  exact mem_bufPut_self (by decide) x _

/-- A translation given to the groves of all that wait for it (R183). -/
def fills (x : Xlat) (l : List Waiter) (w : Work) : Work := l.foldl (fun v a => v.fill (a.cell / 16) (a.kind == 4) x) w

theorem fills_fields (x : Xlat) : ∀ (l : List Waiter) (w : Work),
    (fills x l w).log = w.log ∧ (fills x l w).cells = w.cells ∧ (fills x l w).mod = w.mod
  | [], _ => ⟨rfl, rfl, rfl⟩
  | a :: t, w => by
    obtain ⟨log, cells, mod⟩ := fill_fields w (a.cell / 16) (a.kind == 4) x
    obtain ⟨log', cells', mod'⟩ := fills_fields x t (w.fill (a.cell / 16) (a.kind == 4) x)
    exact ⟨log'.trans log, cells'.trans cells, mod'.trans mod⟩

theorem mem_fills_of_mem {x : Xlat} {k : Nat} : ∀ (l : List Waiter) {w : Work}, x ∈ (w.grove k).tlb → x ∈ ((fills x l w).grove k).tlb
  | [], _, h => h
  | _ :: t, _, h => mem_fills_of_mem t (mem_fill_of_mem _ _ h)

theorem mem_fills {x : Xlat} {a : Waiter} : ∀ {l : List Waiter} (w : Work), a ∈ l → x ∈ ((fills x l w).grove (a.cell / 16)).tlb
  | b :: t, w, h => by
    rcases List.mem_cons.1 h with rfl | later
    · exact mem_fills_of_mem t (mem_fill_self w _ _ x)
    · exact mem_fills (l := t) _ later

/-! ## A walk that completes (R183, R420) -/

/-- The work of a walk that completes: counted at its die, and its miss gone from the queue (R183, R420). -/
def walked (s : State) (q : Miss) : Work :=
  (Work.of s).updMod fun m => { m.countWalk q.die (q.waits.length - 1) with walkQ := m.walkQ.erase q }

/-- The work of a walk answered. -/
def walkAnswer (s : State) (q : Miss) : Work :=
  match (walked s q).walk q.asid (q.vpn * 4096) with
  | some (x, w) => fills x q.waits w
  | none => (walked s q).updMod fun m =>
      { m with walkFaults := m.walkFaults ++ q.waits.map fun a => (a, q.asid, q.vpn, (walked s q).walkCode q.asid (q.vpn * 4096)) }

theorem walkOf_key {m : Mod} {asid vpn : Nat} {q : Miss} (h : m.walkOf asid vpn = some q) : q.asid = asid ∧ q.vpn = vpn := by
  have key := List.find?_some h
  rwa [Bool.and_eq_true, beq_iff_eq, beq_iff_eq] at key

theorem exec_translationWalk {q : Miss} (h : s.mod.walkOf q.asid q.vpn = some q) :
    exec (.translationWalk q.asid q.vpn) s = .next (s.finish (walkAnswer s q)) := by
  refine next_congr ?_
  dsimp only
  rw [show (Work.of s).mod.walkOf q.asid q.vpn = some q from h]
  rfl

theorem walkAnswer_found {q : Miss} {x : Xlat} {w : Work} (h : (walked s q).walk q.asid (q.vpn * 4096) = some (x, w)) :
    walkAnswer s q = fills x q.waits w := by
  rw [walkAnswer, h]

theorem walkAnswer_failed {q : Miss} (h : (walked s q).walk q.asid (q.vpn * 4096) = none) :
    walkAnswer s q = (walked s q).updMod fun m =>
      { m with walkFaults := m.walkFaults ++ q.waits.map fun a => (a, q.asid, q.vpn, (walked s q).walkCode q.asid (q.vpn * 4096)) } := by
  rw [walkAnswer, h]

/-- The service after a walk: its queue and its counts (R183, R420). -/
structure WalkCounted (s : State) (q : Miss) (m : Mod) : Prop where
  queue : m.walkQ = s.mod.walkQ.erase q
  walks : Tbl.getD m.walks q.die 0 = Tbl.getD s.mod.walks q.die 0 + 1
  merged : Tbl.getD m.merged q.die 0 = Tbl.getD s.mod.merged q.die 0 + (q.waits.length - 1)

theorem walkCounted_of_fields {q : Miss} {m : Mod} (queue : m.walkQ = (walked s q).mod.walkQ) (walks : m.walks = (walked s q).mod.walks)
    (merged : m.merged = (walked s q).mod.merged) : WalkCounted s q m :=
  ⟨queue, by rw [walks]; exact getD_put_same _ _ _ _, by rw [merged]; exact getD_put_same _ _ _ _⟩

/-- A walk answered leaves the cells and counts the walk; the faults are as they were where it found a translation. -/
theorem walkAnswer_fields (s : State) (q : Miss) : (walkAnswer s q).cells = s.cells ∧ WalkCounted s q (walkAnswer s q).mod ∧
    ∀ p, (walked s q).walk q.asid (q.vpn * 4096) = some p → (walkAnswer s q).mod.walkFaults = s.mod.walkFaults := by
  cases h : (walked s q).walk q.asid (q.vpn * 4096) with
  | none =>
    rw [walkAnswer_failed h]
    exact ⟨rfl, walkCounted_of_fields rfl rfl rfl, nofun⟩
  | some p =>
    obtain ⟨x, w⟩ := p
    rw [walkAnswer_found h]
    obtain ⟨-, cells, mod⟩ := fills_fields x q.waits w
    obtain ⟨_, _, _, _, _, rfl⟩ := walk_onlyBytes h
    rw [mod]
    exact ⟨cells, walkCounted_of_fields rfl rfl rfl, fun _ _ => rfl⟩

end Sys2Proof.Proofs
end

section
/-! Mapped ranges: latched, registered, unmapped and written back, and the statement about them (R177 to R179, R183). -/

namespace Sys2Proof.Proofs

open Sys2Proof.Machine Sys2Proof.Safety Sys2Proof.Laws

variable {s : State} {c k : Nat} {m : MapEntry}

/-! ## An entry set (R177) -/

theorem setMap_map (w : Work) (c k : Nat) (m : MapEntry) : ((w.setMap c k m).cell c).map k = m :=
  (congrArg (Cell.map · k) (setCell_same _ _ _)).trans (getD_put_same _ _ _ _)

theorem mapRegister_latches (v : Word) : ∃ t, exec (.mapRegister c k v) s = .next t ∧ t.mem = s.mem ∧
    mapOf t c k = if (mapOf s c k).st = 0 then (mapOf s c k).latch v else mapOf s c k := by
  by_cases idle : (mapOf s c k).st = 0
  · refine ⟨_, next_congr (if_pos idle), rfl, ?_⟩
    rw [if_pos idle]
    exact setMap_map _ _ _ _
  · refine ⟨_, next_congr (if_neg idle), rfl, ?_⟩
    rw [if_neg idle]
    rfl

theorem latch_fields (m : MapEntry) (v : Word) : m.latch v =
    { m with v := true, w := v.getLsbD 62, st := 1, va := v.toNat / 2 ^ 12 % 2 ^ 45, asid := m.nextWord.toNat / 2 ^ 16 % 64,
             boff := m.nextWord.toNat / 2 ^ 12 % 16, size := m.nextWord.toNat % 8 } := by
  simp [MapEntry.latch, fld, bits]

theorem mapUnmap_begins (v : Word) : ∃ t, exec (.mapUnmap c k v) s = .next t ∧ t.mem = s.mem ∧ mapOf t c k =
    if (mapOf s c k).st = 2 ∧ v.getLsbD 63 = false then { mapOf s c k with v := false, st := 3 } else mapOf s c k := by
  by_cases ends : (mapOf s c k).st = 2 ∧ v.getLsbD 63 = false
  · refine ⟨_, next_congr (if_pos ends), rfl, ?_⟩
    rw [if_pos ends]
    exact setMap_map _ _ _ _
  · refine ⟨_, next_congr (if_neg ends), rfl, ?_⟩
    rw [if_neg ends]
    rfl

/-! ## Registration (R178) -/

/-- An entry once its registration has failed (R178). -/
def failedEntry (m : MapEntry) (err : Nat) : MapEntry := { m with v := false, st := 0, err := err, lines := [] }

/-- An entry once its range is registered (R178). -/
def mappedEntry (m : MapEntry) (ps : List Nat) : MapEntry := { m with st := 2, err := 0, lines := ps }

theorem mapFail_map (w : Work) (c k : Nat) (m : MapEntry) (err : Nat) :
    ((w.mapFail c k m err).cell c).map k = failedEntry m err := setMap_map _ _ _ _

/-- The pages that an entry's registration finds, or the number of its error (R178 steps 2 and 3). -/
def pagesOf (s : State) (m : MapEntry) : Except Nat (List Nat × Work) :=
  mapPages m.asid m.w ((List.range (2 ^ m.size)).map fun i => 4096 * (m.va + i)) (Work.of s)

theorem exec_registration (c k : Nat) (s : State) :
    exec (.mapRegistrationComplete c k) s = .next (s.finish ((Work.of s).registerMap c k)) := rfl

theorem sound_iff (m : MapEntry) : m.sound = true ↔ m.size ≤ 4 ∧ m.va % 2 ^ m.size = 0 ∧ m.boff % 2 ^ m.size = 0 := by
  simp only [MapEntry.sound, MapEntry.pages, Bool.and_eq_true, decide_eq_true_eq, beq_iff_eq, and_assoc]

theorem registerMap_unsound (reg : (mapOf s c k).st = 1) (bad : (mapOf s c k).sound = false) :
    (Work.of s).registerMap c k = (Work.of s).mapFail c k (mapOf s c k) 5 :=
  (if_neg (not_not.2 reg)).trans (if_pos bad)

theorem registerMap_sound (reg : (mapOf s c k).st = 1) (good : (mapOf s c k).sound = true) :
    (Work.of s).registerMap c k =
      match pagesOf s (mapOf s c k) with
      | .error e => (Work.of s).mapFail c k (mapOf s c k) e
      | .ok (ps, w) =>
        if ps.any fun a => w.mappedPages.contains a || decide (1 < ps.count a) then w.mapFail c k (mapOf s c k) 4
        else if directoryFits (pageLines (w.mappedPages ++ ps)) then w.registered c k (mapOf s c k) ps
        else w.mapFail c k (mapOf s c k) 3 :=
  (if_neg (not_not.2 reg)).trans (if_neg fun e => Bool.false_ne_true (e.symm.trans good))

theorem mapPages_error {asid : Nat} {wr : Bool} {vas : List Nat} {w : Work} {e : Nat} (h : mapPages asid wr vas w = .error e) :
    e = 1 ∨ e = 2 := by
  unfold mapPages at h
  split at h
  · cases h
    exact .inl rfl
  · split at h
    · cases h
      exact .inr rfl
    · cases h

theorem mapPage_fits {w : Work} {wr : Bool} {p : Nat × Word} {a : Nat} (h : w.mapPage wr p = some a) : a + 4096 ≤ memTop := by
  unfold Work.mapPage Work.localMem at h
  split at h
  · split at h
    · next ok =>
      cases h
      exact ok.2
    · cases h
  · cases h

theorem mapM_mem {α β : Type} {f : α → Option β} : ∀ {l : List α} {r : List β}, l.mapM f = some r → ∀ b ∈ r, ∃ a ∈ l, f a = some b
  | [], _, h, b, m => by
    cases h
    cases m
  | x :: t, r, h, b, m => by
    rw [List.mapM_cons] at h
    obtain ⟨y, e, rest⟩ := Option.bind_eq_some_iff.1 h
    obtain ⟨ys, es, last⟩ := Option.bind_eq_some_iff.1 rest
    cases last
    rcases List.mem_cons.1 m with rfl | later
    · exact ⟨x, List.mem_cons_self, e⟩
    · obtain ⟨a, ma, ea⟩ := mapM_mem es b later
      exact ⟨a, List.mem_cons_of_mem _ ma, ea⟩

theorem mapPages_fit {asid : Nat} {wr : Bool} {vas ps : List Nat} {w v : Work} (h : mapPages asid wr vas w = .ok (ps, v)) :
    ∀ a ∈ ps, a + 4096 ≤ memTop := by
  unfold mapPages at h
  split at h
  · cases h
  · split at h
    · cases h
    · next found =>
      cases h
      intro a ma
      obtain ⟨_, -, e⟩ := mapM_mem found a ma
      exact mapPage_fits e

theorem overlap_iff (ps : List Nat) (w : Work) : (ps.any fun a => w.mappedPages.contains a || decide (1 < ps.count a)) = true ↔
    ∃ a ∈ ps, a ∈ w.mappedPages ∨ 1 < ps.count a := by
  simp only [List.any_eq_true, Bool.or_eq_true, List.contains_iff_mem, decide_eq_true_eq]

/-- The dispatchers' tables change when a bank gains or loses a range; cells and bytes do not (R334). -/
theorem residBank_fields (w : Work) (g asid va n : Nat) (gain : Bool) : (w.residBank g asid va n gain).cells = w.cells ∧
    (w.residBank g asid va n gain).log = w.log ∧ (w.residBank g asid va n gain).base = w.base :=
  List.foldlRecOn (motive := fun v : Work => v.cells = w.cells ∧ v.log = w.log ∧ v.base = w.base) _ _ ⟨rfl, rfl, rfl⟩
    fun _ h _ _ => h

theorem registered_map (w : Work) (c k : Nat) (m : MapEntry) (ps : List Nat) :
    ((w.registered c k m ps).cell c).map k = mappedEntry m ps := by
  have cells : (w.registered c k m ps).cells = (w.setMap c k (mappedEntry m ps)).cells :=
    (residBank_fields _ _ _ _ _ _).1
  rw [Work.cell, cells]
  exact setMap_map _ _ _ _

/-- An entry's registration ends with the entry as given. -/
def RegistrationEnds (s : State) (c k : Nat) (m : MapEntry) : Prop :=
  ∃ t, exec (.mapRegistrationComplete c k) s = .next t ∧ mapOf t c k = m

theorem registrationEnds_of {w : Work} {n : MapEntry} (e : (Work.of s).registerMap c k = w) (h : (w.cell c).map k = n) :
    RegistrationEnds s c k n := ⟨_, exec_registration c k s, by rw [e]; exact h⟩

theorem unsound_fails (reg : (mapOf s c k).st = 1) (bad : (mapOf s c k).sound = false) :
    RegistrationEnds s c k (failedEntry (mapOf s c k) 5) :=
  registrationEnds_of (registerMap_unsound reg bad) (mapFail_map _ _ _ _ _)

theorem pages_error_fails {e : Nat} (reg : (mapOf s c k).st = 1) (good : (mapOf s c k).sound = true)
    (pages : pagesOf s (mapOf s c k) = .error e) : RegistrationEnds s c k (failedEntry (mapOf s c k) e) :=
  registrationEnds_of ((registerMap_sound reg good).trans (by rw [pages])) (mapFail_map _ _ _ _ _)

theorem registerMap_pages {ps : List Nat} {w : Work} (reg : (mapOf s c k).st = 1) (good : (mapOf s c k).sound = true)
    (pages : pagesOf s (mapOf s c k) = .ok (ps, w)) : (Work.of s).registerMap c k =
      if ps.any fun a => w.mappedPages.contains a || decide (1 < ps.count a) then w.mapFail c k (mapOf s c k) 4
      else if directoryFits (pageLines (w.mappedPages ++ ps)) then w.registered c k (mapOf s c k) ps
      else w.mapFail c k (mapOf s c k) 3 := by
  rw [registerMap_sound reg good, pages]

theorem overlap_fails {ps : List Nat} {w : Work} (reg : (mapOf s c k).st = 1) (good : (mapOf s c k).sound = true)
    (pages : pagesOf s (mapOf s c k) = .ok (ps, w)) (overlaps : ∃ a ∈ ps, a ∈ w.mappedPages ∨ 1 < ps.count a) :
    RegistrationEnds s c k (failedEntry (mapOf s c k) 4) :=
  registrationEnds_of ((registerMap_pages reg good pages).trans (if_pos ((overlap_iff ps w).2 overlaps))) (mapFail_map _ _ _ _ _)

theorem directory_full_fails {ps : List Nat} {w : Work} (reg : (mapOf s c k).st = 1) (good : (mapOf s c k).sound = true)
    (pages : pagesOf s (mapOf s c k) = .ok (ps, w)) (apart : ¬ ∃ a ∈ ps, a ∈ w.mappedPages ∨ 1 < ps.count a)
    (full : directoryFits (pageLines (w.mappedPages ++ ps)) = false) : RegistrationEnds s c k (failedEntry (mapOf s c k) 3) := by
  refine registrationEnds_of ((registerMap_pages reg good pages).trans ?_) (mapFail_map w _ _ _ _)
  rw [if_neg fun e => apart ((overlap_iff ps w).1 e), if_neg (Bool.eq_false_iff.1 full)]

theorem registration_holds {ps : List Nat} {w : Work} (reg : (mapOf s c k).st = 1) (good : (mapOf s c k).sound = true)
    (pages : pagesOf s (mapOf s c k) = .ok (ps, w)) (apart : ¬ ∃ a ∈ ps, a ∈ w.mappedPages ∨ 1 < ps.count a)
    (fits : directoryFits (pageLines (w.mappedPages ++ ps)) = true) : RegistrationEnds s c k (mappedEntry (mapOf s c k) ps) := by
  refine registrationEnds_of ((registerMap_pages reg good pages).trans ?_) (registered_map w _ _ _ _)
  rw [if_neg fun e => apart ((overlap_iff ps w).1 e), if_pos fits]

/-! ## Unmapping (R179) -/

theorem writeBack_onlyLog (bank : Nat) : ∀ (l : List Nat) (off : Nat) (w : Work), ∃ log, writeBack bank l off w = { w with log := log }
  | [], _, w => ⟨w.log, rfl⟩
  | a :: t, off, w => by
    rw [writeBack]
    generalize w.bytes (bank + off) 4096 = bs
    exact writeBack_onlyLog bank t (off + 4096) (w.store a bs)

theorem page_length (w : Work) (a : Nat) : (w.bytes a 4096).length = 4096 := by
  rw [Work.bytes, List.length_map, List.length_range]

/-- Bytes that lie in none of the pages are as they were. -/
theorem writeBack_outside {bank b : Nat} : ∀ {l : List Nat} (off : Nat) (w : Work), (∀ a ∈ l, b < a ∨ a + 4096 ≤ b) →
    (writeBack bank l off w).byte b = w.byte b
  | [], _, _, _ => rfl
  | a :: t, off, w, h => by
    rw [writeBack, writeBack_outside _ _ fun e m => h e (List.mem_cons_of_mem _ m)]
    exact store_byte_other _ _ _ _ (by rw [page_length]; exact h a List.mem_cons_self)

/-- Each page holds its part of the bank, where the pages lie apart and in module memory. -/
theorem writeBack_page {bank : Nat} (above : memTop ≤ bank) : ∀ {l : List Nat} (off : Nat) (w : Work),
    (l.Pairwise fun a e => a + 4096 ≤ e ∨ e + 4096 ≤ a) → (∀ a ∈ l, a + 4096 ≤ memTop) → ∀ {i a : Nat}, l[i]? = some a →
    ∀ j < 4096, (writeBack bank l off w).byte (a + j) = w.byte (bank + off + i * 4096 + j)
  | e :: t, off, w, apart, fit, 0, a, at_, j, hj => by
    cases at_
    have others : ∀ y ∈ t, e + j < y ∨ y + 4096 ≤ e + j := fun y m => by
      have := List.rel_of_pairwise_cons apart m
      omega
    rw [writeBack, writeBack_outside _ _ others, store_byte_same _ _ _ _ (by rwa [page_length])]
    simp [Work.bytes]
  | e :: t, off, w, apart, fit, i + 1, a, at_, j, hj => by
    have low := fit e List.mem_cons_self
    rw [writeBack, writeBack_page above _ _ (List.Pairwise.of_cons apart) (fun y m => fit y (List.mem_cons_of_mem _ m)) at_ j hj,
      store_byte_other _ _ _ _ (by rw [page_length]; omega)]
    congr 1
    ring

theorem memTop_le_bankBase (c : Nat) : memTop ≤ bankBase c := by
  unfold memTop bankBase groveBase
  omega

/-- The work of a range written back, before its entry is free. -/
def writtenBack (s : State) (c : Nat) (m : MapEntry) : Work := writeBack (bankBase c) m.lines (m.boff * 4096) (Work.of s)

/-- An unmapped range leaves its entry free and the bytes that it wrote back. -/
theorem unmapped_fields (s : State) (c k : Nat) (m : MapEntry) :
    (((Work.of s).unmapped c k m).cell c).map k = { m with st := 0, lines := [] } ∧
      ((Work.of s).unmapped c k m).log = (writtenBack s c m).log := by
  have cells : ((Work.of s).unmapped c k m).cells = ((writtenBack s c m).setMap c k { m with st := 0, lines := [] }).cells :=
    (residBank_fields _ _ _ _ _ _).1
  refine ⟨?_, (residBank_fields _ _ _ _ _ _).2.1⟩
  rw [Work.cell, cells]
  exact setMap_map _ _ _ _

theorem unmap_completes (unmaps : (mapOf s c k).st = 3) (ok : MemOk s) : ∃ t, exec (.mapUnmapComplete c k) s = .next t ∧
    mapOf t c k = { mapOf s c k with st := 0, lines := [] } ∧ ∀ b, byteAt t b = (writtenBack s c (mapOf s c k)).byte b := by
  obtain ⟨entry, log⟩ := unmapped_fields s c k (mapOf s c k)
  obtain ⟨l, e⟩ := writeBack_onlyLog (bankBase c) (mapOf s c k).lines ((mapOf s c k).boff * 4096) (Work.of s)
  have base : (writtenBack s c (mapOf s c k)).base = s.mem := congrArg Work.base e
  refine ⟨_, next_congr (if_pos unmaps), entry, fun b => ?_⟩
  rw [byteAt, finish_mem, get_write ok, Work.byte, base, ← log]
  rfl

/-- Settles O43: a walk by whether it finds a translation, writes of an entry, its registration by its outcome, and unmapping. -/
theorem mappings : Obligations.Mappings := by
  refine ⟨fun s asid vpn q h => ?_, fun s c k v => ⟨?_, mapUnmap_begins v, fun reg => ⟨fun bad => ?_, fun size va boff => ?_⟩,
    fun unmaps ok => ?_⟩⟩
  · obtain ⟨rfl, rfl⟩ := walkOf_key h
    obtain ⟨cells, ⟨queue, walks, merged⟩, faults⟩ := walkAnswer_fields s q
    refine ⟨_, exec_translationWalk h, queue, cells, walks, merged, fun x w2 found => ?_, fun failed => ?_⟩
    · have answer := walkAnswer_found (s := s) found
      refine ⟨?_, faults _ found, fun a ma => ?_⟩
      · rw [answer]
        exact congrArg s.mem.write (fills_fields x q.waits w2).1
      · rw [answer]
        exact mem_fills w2 ma
    · rw [walkAnswer_failed (s := s) failed]
      exact ⟨rfl, rfl, rfl⟩
  · rw [← latch_fields]
    exact mapRegister_latches v
  · exact unsound_fails reg (Bool.eq_false_iff.2 fun good => bad ((sound_iff _).1 good))
  · have good := (sound_iff (mapOf s c k)).2 ⟨size, va, boff⟩
    refine ⟨fun e pages => ⟨mapPages_error pages, pages_error_fails reg good pages⟩, fun ps w pages => ⟨mapPages_fit pages,
      fun overlaps => overlap_fails reg good pages overlaps, fun free => ?_⟩⟩
    have apart : ¬ ∃ a ∈ ps, a ∈ w.mappedPages ∨ 1 < ps.count a := fun ⟨a, ma, taken⟩ =>
      taken.elim (free a ma).1 (Nat.not_lt.2 (free a ma).2)
    exact ⟨registration_holds reg good pages apart, directory_full_fails reg good pages apart⟩
  · obtain ⟨t, step, entry, bytes⟩ := unmap_completes unmaps ok
    refine ⟨t, step, entry, fun b out => (bytes b).trans (writeBack_outside _ _ out), fun apart fit i a at_ j hj => ?_⟩
    rw [bytes, writtenBack, writeBack_page (memTop_le_bankBase c) _ _ apart fit at_ j hj,
      show bankBase c + (mapOf s c k).boff * 4096 + i * 4096 + j = bankBase c + ((mapOf s c k).boff + i) * 4096 + j by ring]
    rfl

end Sys2Proof.Proofs
end

section
/-! Requests of task cores put on their streams, and what the instructions that send them leave (R346 to R354). -/

namespace Sys2Proof.Proofs

open Sys2Proof.Machine Sys2Proof.Safety Sys2Proof.Laws

variable {s : State} {g : Nat}

/-! ## Cores that run alike -/

/-- Two cores run the same task at the same place: what going on and writing a register look at. -/
structure RunsAlike (c k : Core) : Prop where
  regs : k.regs = c.regs
  pc : k.pc = c.pc
  loopActive : k.loopActive = c.loopActive
  loopcnt : k.loopcnt = c.loopcnt
  bodyStart : k.bodyStart = c.bodyStart
  bodyEnd : k.bodyEnd = c.bodyEnd
  trap : k.trap = c.trap
  task : k.task = c.task

theorem RunsAlike.refl (c : Core) : RunsAlike c c := ⟨rfl, rfl, rfl, rfl, rfl, rfl, rfl, rfl⟩

/-- A core's masks of lost modules and its outstanding loads have no part in how it runs. -/
theorem RunsAlike.noted {c k : Core} (h : RunsAlike c k) (lost out rldLost : List Nat) :
    RunsAlike c { k with lost := lost, rldOut := out, rldLost := rldLost } :=
  ⟨h.regs, h.pc, h.loopActive, h.loopcnt, h.bodyStart, h.bodyEnd, h.trap, h.task⟩

theorem runsAlike_of_keeps {w v : Work} (h : Keeps w v) (g : Nat) : RunsAlike (w.core g) (v.core g) := by
  obtain ⟨_, _, _, e⟩ := h.cores g
  rw [e]
  exact ⟨rfl, rfl, rfl, rfl, rfl, rfl, rfl, rfl⟩

/-- Writing a register and going on changes a core's registers, its PC and its loop, and nothing else. -/
theorem step_setReg_only (c : Core) (d : BitVec 5) (v : Word) : ∃ pc loop n,
    (c.setReg d v).step = { c with regs := (c.setReg d v).regs, pc := pc, loopActive := loop, loopcnt := n } := by
  have stepOnly : ∀ k : Core, ∃ pc loop n, k.step = { k with pc := pc, loopActive := loop, loopcnt := n } := fun k => by
    unfold Core.step
    split
    · split
      · exact ⟨k.bodyStart, k.loopActive, k.loopcnt - 1, rfl⟩
      · exact ⟨k.pc4, false, 0, rfl⟩
    · exact ⟨k.pc4, k.loopActive, k.loopcnt, rfl⟩
  obtain ⟨pc, loop, n, e⟩ := stepOnly (c.setReg d v)
  refine ⟨pc, loop, n, e.trans ?_⟩
  unfold Core.setReg
  split <;> rfl

theorem RunsAlike.step {c k : Core} (h : RunsAlike c k) : k.step.pc = c.step.pc ∧ k.step.loopActive = c.step.loopActive ∧
    k.step.loopcnt = c.step.loopcnt := by
  obtain ⟨-, pc, loopActive, loopcnt, bodyStart, bodyEnd, trap, -⟩ := h
  unfold Core.step Core.pc4
  rw [pc, loopActive, loopcnt, bodyStart, bodyEnd, trap]
  split
  · split <;> exact ⟨rfl, rfl, rfl⟩
  · exact ⟨rfl, rfl, rfl⟩

theorem RunsAlike.setReg_regs {c k : Core} (h : RunsAlike c k) (d : BitVec 5) (v : Word) :
    (k.setReg d v).regs = (c.setReg d v).regs := by
  unfold Core.setReg
  rw [h.regs]
  split
  · exact h.regs
  · rfl

/-! ## Instructions that go on in another work -/

theorem core_finish_put (w : Work) (k : Core) (f : Core → Core) : coreOf (s.finish ((w.setCore g k).updCore g f)) g = f k := by
  rw [core_finish_updCore, setCore_same]

section

variable {i : Instr} {f : Nat → Work → Except Stop Work} {d : BitVec 5} {v : Word} {w : Work}

/-- An instruction completes in a state whose core has gone on from a work, and whose module, messages and bytes are the work's. -/
def DidIn (s : State) (g : Nat) (i : Instr) (d : BitVec 5) (v : Word) (w : Work) : Prop :=
  ∃ t, Did s g i d v t ∧ coreOf t g = { ((w.core g).setReg d v).step with stall := none } ∧ t.outbox = w.outbox ∧ t.mod = w.mod ∧
    t.mem = s.mem.write w.log

theorem didIn_of_effect (h : OnCore s g) (ok : i.coreOk = true) (x : exec i s = run s (coreInstr i f))
    (alike : RunsAlike (coreOf s g) (w.core g)) (e : f g (Work.of s) = .ok (w.setCore g ((w.core g).setReg d v).step)) :
    DidIn s g i d v w := by
  have core : coreOf (s.finish ((w.setCore g ((w.core g).setReg d v).step).updCore g fun c => { c with stall := none })) g =
      { ((w.core g).setReg d v).step with stall := none } := core_finish_put _ _ _
  obtain ⟨pc, loopActive, loopcnt⟩ := alike.step
  refine ⟨_, ⟨x.trans (coreInstr_ok h ok e), ?_, ?_, ?_, ?_, ?_, ?_⟩, core, rfl, rfl, rfl⟩ <;> rw [core]
  case refine_1 => exact (step_regs _).trans (alike.setReg_regs d v)
  case refine_2 => simpa using pc
  case refine_3 => simpa using loopActive
  case refine_4 => simpa using loopcnt
  case refine_5 => simpa [step_trap] using alike.trap
  case refine_6 => simpa [step_task] using alike.task

variable (h : Ready s g) (ok : i.coreOk = true) (x : exec i s = run s (coreInstr i f))
  (alike : RunsAlike (coreOf s g) (w.core g)) (region : w.regOf g = regionAt s g)

include h ok x alike region

theorem didIn_of_give (e : f g (Work.of s) = w.give g d v) : DidIn s g i d v w := by
  refine didIn_of_effect h.1 ok x alike (e.trans (give_ok d v ?_))
  rw [region, alike.pc, alike.step.1]
  exact h.2

theorem didIn_of_next (e : f g (Work.of s) = w.next g) : DidIn s g i 0 0 w := by
  refine didIn_of_effect h.1 ok x alike (e.trans (next_ok ?_))
  rw [region, alike.pc, alike.step.1]
  exact h.2

end

/-! ## Instructions that suspend in another work -/

/-- A state with the module's fields and the messages that leave put in its place. -/
def withMail (s : State) (m : Mod) (o : List Msg) (p : List (Nat × Nat)) : State := { s with mod := m, outbox := o, ways := p }

/-- A work that differs from a state in the module's fields and in the messages that leave alone. -/
def MailOnly (s : State) (w : Work) : Prop := ∃ m o p, w = Work.of (withMail s m o p)

/-- What only RLD.DONE and FENCE wait for (R208, R354). -/
theorem covers_other {w : Work} {obj : Nat} (h : obj ≠ rldWait) : w.covers g 7 obj = [] := by
  unfold Work.covers
  rw [if_neg (by decide), if_neg fun e => h e.2]

theorem suspends_in {i : Instr} {f : Nat → Work → Except Stop Work} {w : Work} {obj : Nat} {dreg : BitVec 5} {pc : BitVec 16}
    {live : BitVec 32} (h : OnCore s g) (ok : i.coreOk = true) (x : exec i s = run s (coreInstr i f)) (m : MaySuspend s g live pc)
    (only : MailOnly s w) (other : obj ≠ rldWait) (e : f g (Work.of s) = w.suspend g 7 obj none dreg pc false) :
    Suspends s g i 7 obj none dreg pc live false ∧ ∃ t, exec i s = .next t ∧ t.outbox = w.outbox ∧ t.mod = w.mod := by
  obtain ⟨mod, outbox, ways, rfl⟩ := only
  have e' := e.trans (suspend_ok (s := withMail s mod outbox ways) (kind := 7) (obj := obj) (val := none)
    (dreg := dreg) (runnable := false) m)
  have run := x.trans (coreInstr_ok h ok e')
  refine ⟨⟨_, suspension (withMail s mod outbox ways) g 7 obj none dreg pc live false, run, ?_, ?_, rfl, rfl,
    rfl, rfl, rfl, rfl, ?_, rfl, some_cur h.2.1, rfl, rfl⟩, _, run, rfl, rfl⟩
  · exact congrArg Core.task (core_finish_put _ _ _)
  · exact congrArg Core.slots (core_finish_put _ _ _)
  · exact (covers_other other).trans (covers_other other).symm

end Sys2Proof.Proofs
end

section
/-! Request slots of a stream, and a request put on it (R346 to R350). -/

namespace Sys2Proof.Proofs

open Sys2Proof.Machine Sys2Proof.Safety Sys2Proof.Laws

variable {s t : State} {g m : Nat} {w v : Work} {st : Stream} {q : OutReq} {msg : RemoteReq}

/-! ## Pairs (R348, R349) -/

/-- A stream whose pair is free is its agent's to its target; one that is frozen is open already. -/
theorem pair_free (h : w.pair false g m = .free st) : st.isCell = false ∧ st.agent = g ∧ st.target = m ∧
    (st.frozen = true → w.mod.stream false g m = some st) := by
  unfold Work.pair at h
  split at h
  · next z found =>
    split at h
    · cases h
      have key := List.find?_some found
      simp only [Bool.and_eq_true, beq_iff_eq] at key
      obtain ⟨⟨cell, agent⟩, target⟩ := key
      exact ⟨cell, agent, target, fun _ => found⟩
    · cases h
  · split at h
    · cases h
    · split at h
      · cases h
        exact ⟨rfl, rfl, rfl, nofun⟩
      · cases h

theorem keeps_opening (h : Keeps w v) (o : Opener) : v.opening o = w.opening o := by
  obtain ⟨_, _, _, core⟩ := h.cores o.agent
  unfold Work.opening
  rw [Work.cell, Work.cell, h.cells, core, keeps_regOf h]

/-- An access leaves what an agent that would send a request finds. -/
theorem keeps_pair (h : Keeps w v) (c : Bool) (g m : Nat) : v.pair c g m = w.pair c g m := by
  obtain ⟨_, _, _, _, _, _, _, _, mod⟩ := h.mods
  have stream : v.mod.stream c g m = w.mod.stream c g m := by rw [mod]; rfl
  have route : v.route m = w.route m := by
    unfold Work.route Work.port
    rw [mod]
  have mayOpen : v.mayOpen c g m = w.mayOpen c g m := by
    unfold Work.mayOpen Work.granted
    rw [funext (keeps_opening h), mod]
    rfl
  have slots : v.mod.rslots = w.mod.rslots := by rw [mod]; rfl
  unfold Work.pair
  rw [stream, route, mayOpen, slots]

/-! ## Requests (R347, R350) -/

/-- A request put on a stream changes the module's fields and the messages that leave alone. -/
theorem sendReq_only (w : Work) (st : Stream) (q : OutReq) (msg : RemoteReq) :
    ∃ m o p, w.sendReq st q msg = { w with mod := m, outbox := o, ways := p } := by
  unfold Work.sendReq
  dsimp only
  split
  · exact ⟨_, w.outbox, w.ways, rfl⟩
  · exact ⟨_, _, _, rfl⟩

theorem mailOnly_sendReq (s : State) (st : Stream) (q : OutReq) (msg : RemoteReq) : MailOnly s ((Work.of s).sendReq st q msg) :=
  sendReq_only _ _ _ _

theorem sendReq_core (w : Work) (st : Stream) (q : OutReq) (msg : RemoteReq) (g : Nat) :
    (w.sendReq st q msg).core g = w.core g ∧ (w.sendReq st q msg).regOf g = w.regOf g ∧ (w.sendReq st q msg).log = w.log := by
  obtain ⟨_, _, _, e⟩ := sendReq_only w st q msg
  rw [e]
  exact ⟨rfl, rfl, rfl⟩

theorem sendReq_nextIdent (w : Work) (st : Stream) (q : OutReq) (msg : RemoteReq) :
    (w.sendReq st q msg).mod.nextIdent = w.mod.nextIdent + 1 := by
  unfold Work.sendReq Work.sendBy Work.updMod
  dsimp only
  split <;> dsimp only <;> split <;> rfl

/-- The stream that is put in place is the one found there. -/
theorem stream_setStream {k : Mod} {z : Stream} (h : k.stream st.isCell st.agent st.target = some z) :
    (k.setStream st).stream st.isCell st.agent st.target = some st := by
  have place := List.find?_some h
  simp only [Bool.and_eq_true, beq_iff_eq, and_assoc] at place
  have test : (fun x : Stream => x.isCell == st.isCell && x.agent == st.agent && x.target == st.target) ∘ (fun x : Stream =>
      if x.isCell = st.isCell ∧ x.agent = st.agent ∧ x.target = st.target then st else x) =
      fun x => x.isCell == st.isCell && x.agent == st.agent && x.target == st.target := by
    funext x
    dsimp only [Function.comp]
    split
    · next same =>
      obtain ⟨cell, agent, target⟩ := same
      rw [cell, agent, target]
    · rfl
  unfold Mod.stream Mod.setStream
  rw [List.find?_map, test, show k.streams.find? (fun x => x.isCell == st.isCell && x.agent == st.agent && x.target == st.target) =
    some z from h, Option.map_some, if_pos place]

theorem sendReq_leaves (w : Work) (st : Stream) (q : OutReq) (msg : RemoteReq) (f : st.frozen = false) :
    (w.sendReq st q msg).outbox = w.outbox ++ [reqMsg { msg with ident := w.mod.nextIdent, target := st.target }] := by
  unfold Work.sendReq
  dsimp only
  rw [if_neg (Bool.eq_false_iff.1 f)]
  rfl

theorem sendReq_waits (open_ : w.mod.stream st.isCell st.agent st.target = some st) (f : st.frozen = true) :
    (w.sendReq st q msg).outbox = w.outbox ∧ ∃ x, (w.sendReq st q msg).mod.stream st.isCell st.agent st.target = some x ∧
      x.queued = st.queued ++ [{ msg with ident := w.mod.nextIdent, target := st.target }] := by
  unfold Work.sendReq Work.updMod
  dsimp only
  rw [if_pos f]
  split
  · next z found => exact ⟨rfl, _, stream_setStream (st := { st with
      out := st.out ++ [{ q with ident := w.mod.nextIdent, due := w.mod.cycle + w.mod.ldet }], idle := none,
      queued := if st.frozen = true then st.queued ++ [{ msg with ident := w.mod.nextIdent, target := st.target }] else st.queued })
      found, if_pos f⟩
  · next found => cases found.symm.trans open_

/-- A request put on a stream whose pair is free leaves, or waits there for the stream's resume (R347, R350). -/
theorem putOn_sendReq (free : w.pair false g m = .free st) (same : w.outbox = s.outbox) (op : msg.op ≠ 6)
    (o : t.outbox = (w.sendReq st q msg).outbox) (k : t.mod = (w.sendReq st q msg).mod) :
    PutOn s t st (.request { msg with ident := w.mod.nextIdent, target := m }) := by
  obtain ⟨cell, agent, target, found⟩ := pair_free free
  have plain : reqMsg { msg with ident := w.mod.nextIdent, target := m } =
      .request { msg with ident := w.mod.nextIdent, target := m } := if_neg op
  unfold PutOn
  by_cases f : st.frozen = true
  · have open_ : w.mod.stream st.isCell st.agent st.target = some st := by
      rw [cell, agent, target]
      exact found f
    obtain ⟨out, x, e, queued⟩ := sendReq_waits (q := q) (msg := msg) open_ f
    rw [if_pos f, o, k]
    refine ⟨out.trans same, x, e, ?_⟩
    rw [queued, target, List.map_append, List.map_singleton, plain]
  · rw [if_neg f, o, sendReq_leaves w st q msg (Bool.not_eq_true _ ▸ f), same, target, plain]

/-! ## A core's request (R352, R353) -/

theorem keeps_super (h : Keeps w v) (g : Nat) : v.super g = w.super g := by
  unfold Work.super
  rw [keeps_regOf h, (keeps_step_pc h g).2]

/-- The fields of the module that a request is made of. -/
theorem keeps_modFields (h : Keeps w v) : v.mod.modNo = w.mod.modNo ∧ v.mod.nextIdent = w.mod.nextIdent := by
  obtain ⟨_, _, _, _, _, _, _, _, mod⟩ := h.mods
  rw [mod]
  exact ⟨rfl, rfl⟩

theorem requestOn_of_keeps (h : Keeps (Work.of s) w) (g : Nat) (a b : BitVec 5) (op n : Nat) (data : List Byte) :
    { w.coreReq g op (reg s g a).toNat n data with ident := w.mod.nextIdent, target := (reg s g b).toNat } =
      requestOn s g a b op n data := by
  obtain ⟨_, _, _, core⟩ := h.cores g
  obtain ⟨modNo, nextIdent⟩ := keeps_modFields h
  simp only [Work.coreReq, requestOn, keeps_super h, modNo, nextIdent, core]
  rfl

theorem marked_eq (m : Nat) (l : List Nat) : addOnce m l = marked m l := if_congr List.contains_iff_mem rfl rfl

end Sys2Proof.Proofs
end

section
/-! Checks of remote instructions: their designator, their address, and the local range of the block forms (R353). -/

namespace Sys2Proof.Proofs

open Sys2Proof.Machine Sys2Proof.Safety Sys2Proof.Laws

variable {s : State} {g n : Nat} {d a b : BitVec 5} {ty o : BitVec 3}

/-! ## Designators and addresses (R353) -/

theorem designator_high (x : Word) : fld x 63 11 = 0 ↔ x.toNat < 2 ^ 11 := by
  have := x.isLt
  simp only [fld, bits]
  omega

theorem designator_low {x : Word} (h : x.toNat < 2 ^ 11) : fld x 10 0 = x.toNat := by
  simp only [fld, bits]
  omega

/-- Whether a designator names another module, as the check reads it. -/
theorem designator_sound (s : State) (x : Word) : (decide (fld x 63 11 = 0) && decide (fld x 10 0 ≠ s.mod.modNo)) = true ↔
    x.toNat < 2 ^ 11 ∧ x.toNat ≠ s.mod.modNo := by
  rw [Bool.and_eq_true, decide_eq_true_eq, decide_eq_true_eq, designator_high]
  exact and_congr_right fun h => by rw [designator_low h]

/-- The designator's check, and then the address's (R353). -/
theorem remoteCheck_eq (s : State) (g : Nat) (a b : BitVec 5) (n : Nat) : (Work.of s).remoteCheck g a b n =
    (need (decide (fld (reg s g b) 63 11 = 0) && decide (fld (reg s g b) 10 0 ≠ s.mod.modNo)) 0x09 >>= fun _ =>
      needAt (decide ((reg s g a).toNat < 2 ^ 57)) 0x08 (reg s g a).toNat >>= fun _ =>
        needAt (decide ((reg s g a).toNat % n = 0)) 0x03 (reg s g a).toNat >>= fun _ =>
          pure (fld (reg s g b) 10 0, (reg s g a).toNat)) := rfl

theorem need_holds {α : Type} {p : Bool} (h : p = true) (code : Nat) (k : Unit → Except Stop α) : (need p code >>= k) = k () := by
  subst h
  rfl

theorem need_fails {α : Type} {p : Bool} (h : p = false) (code : Nat) (k : Unit → Except Stop α) :
    (need p code >>= k) = .error (flt code) := by
  subst h
  rfl

theorem remoteCheck_designator (h : 2 ^ 11 ≤ (reg s g b).toNat ∨ (reg s g b).toNat = s.mod.modNo) :
    (Work.of s).remoteCheck g a b n = .error (.fault 0x09 0 0) := by
  refine (remoteCheck_eq s g a b n).trans (need_fails (Bool.eq_false_iff.2 fun e => ?_) _ _)
  obtain ⟨small, other⟩ := (designator_sound s _).1 e
  exact h.elim (Nat.not_le.2 small) other

section

variable (small : (reg s g b).toNat < 2 ^ 11) (other : (reg s g b).toNat ≠ s.mod.modNo)

include small other

theorem remoteCheck_past (h : 2 ^ 57 ≤ (reg s g a).toNat) : (Work.of s).remoteCheck g a b n =
    .error (.fault 0x08 (BitVec.ofNat 64 (reg s g a).toNat) 0) := by
  rw [remoteCheck_eq, need_holds ((designator_sound s _).2 ⟨small, other⟩), needAt_fails (decide_eq_false (Nat.not_lt.2 h))]

theorem remoteCheck_misaligned (space : (reg s g a).toNat < 2 ^ 57) (h : (reg s g a).toNat % n ≠ 0) :
    (Work.of s).remoteCheck g a b n = .error (.fault 0x03 (BitVec.ofNat 64 (reg s g a).toNat) 0) := by
  rw [remoteCheck_eq, need_holds ((designator_sound s _).2 ⟨small, other⟩), needAt_holds (decide_eq_true space),
    needAt_fails (decide_eq_false h)]

end

theorem remoteCheck_ok (h : RemoteOk s g a b n) :
    (Work.of s).remoteCheck g a b n = .ok ((reg s g b).toNat, (reg s g a).toNat) := by
  obtain ⟨small, other, space, aligned⟩ := h
  rw [remoteCheck_eq, need_holds ((designator_sound s _).2 ⟨small, other⟩), needAt_holds (decide_eq_true space),
    needAt_holds (decide_eq_true aligned), designator_low small]
  rfl

/-- The remote instructions of task cores with the size that each one's address is aligned to (R353). -/
def remoteForms (d a b : BitVec 5) (ty o : BitVec 3) : List (Instr × Nat) :=
  [(.rld d a b, 8), (.rldB32 d a b, 32), (.rldB64 d a b, 64), (.rldB128 d a b, 128),
    (.rst d a b, 8), (.rstB32 d a b, 32), (.rstB64 d a b, 64), (.rstB128 d a b, 128), (.ramo d a b ty o, opBytes ty)]

/-- A remote instruction checks its designator and its address first (R353). -/
theorem remoteForms_check {i : Instr} (h : (i, n) ∈ remoteForms d a b ty o) (s : State) (g : Nat) : ∃ f k,
    exec i s = run s (coreInstr i f) ∧ f g (Work.of s) = ((Work.of s).remoteCheck g a b n >>= k) := by
  simp only [remoteForms, List.mem_cons, Prod.mk.injEq, List.not_mem_nil, or_false] at h
  rcases h with ⟨rfl, rfl⟩ | ⟨rfl, rfl⟩ | ⟨rfl, rfl⟩ | ⟨rfl, rfl⟩ | ⟨rfl, rfl⟩ | ⟨rfl, rfl⟩ | ⟨rfl, rfl⟩ | ⟨rfl, rfl⟩ | ⟨rfl, rfl⟩ <;>
    exact ⟨_, _, rfl, rfl⟩

theorem remote_raises {i : Instr} {code addr : Nat} (h : OnCore s g) (form : (i, n) ∈ remoteForms d a b ty o) (ok : i.coreOk = true)
    (e : (Work.of s).remoteCheck g a b n = .error (.fault code (BitVec.ofNat 64 addr) 0)) : Raises s g i code addr := by
  obtain ⟨f, k, x, effect⟩ := remoteForms_check form s g
  exact x.trans (coreInstr_fault h ok (effect.trans (by rw [e]; rfl)))

/-! ## The local range of a block form (R170, R174, R353) -/

/-- The access whose translation a block form asks for. -/
abbrev blockNeed (store : Bool) : Need := if store then needW else needR

/-- A block form's check is its range's translation, and then where it leads. -/
theorem blockCheck_translated {va pa : Nat} {store : Bool} {w : Work} (e : (Work.of s).translate g (some (coreWaiter g))
    (coreOf s g).asid (!(Work.of s).super g) (blockNeed store) va = .ok (pa, w)) : (Work.of s).blockCheck g va n store =
    (needAt (decide (pa / 2 ^ 45 = w.mod.modNo) && decide (pa % 2 ^ 45 + n ≤ memTop) && !(store && w.readOnly (pa % 2 ^ 45))) 0x09 va >>=
      fun _ => pure w) := by
  have translated : (Work.of s).translate g ((Work.of s).accCore g).waiter ((Work.of s).accCore g).asid
    ((Work.of s).accCore g).user (blockNeed store) va = .ok (pa, w) := e
  unfold Work.blockCheck
  dsimp only
  rw [translated]
  rfl

theorem blockCheck_reaches {va la : Nat} (r : Reaches s g needW va la n) (pos : 0 < n) :
    ∃ w, (Work.of s).blockCheck g va n true = .ok w ∧ Keeps (Work.of s) w := by
  obtain ⟨pa, w, e, home, at_, k⟩ := translate_reaches r
  obtain ⟨fit, place⟩ := reaches_inPlace r
  have writable : w.readOnly (pa % 2 ^ 45) = false := by
    rw [readOnly_of_cells k.keeps.cells, at_]
    exact (place 0 pos).2
  refine ⟨w, (blockCheck_translated (store := true) e).trans (needAt_holds ?_ _ _ _), k.keeps⟩
  rw [writable, home, k.modNo, at_]
  simpa using fit

/-- D set leaves what a translation leads to (R182). -/
theorem markDirty_address (w : Work) (nd : Need) (x : Xlat) : (w.markDirty nd x).1.pa = x.pa ∧ (w.markDirty nd x).1.base = x.base := by
  unfold Work.markDirty
  split <;> exact ⟨rfl, rfl⟩

/-- A range that lies in a window is refused (R174). -/
theorem blockCheck_window {va : Nat} {store : Bool} {x : Xlat} (space : va < 2 ^ 57) (buf : bufferedAt s g va = some x)
    (may : x.refuses (blockNeed store) (!(Work.of s).super g) = false) (window : memTop < (x.pa + (va - x.base)) % 2 ^ 45 + n) :
    (Work.of s).blockCheck g va n store = .error (.fault 0x09 (BitVec.ofNat 64 va) 0) := by
  have found : (Work.of s).buffered g ((coreWaiter g).kind == 4) (coreOf s g).asid va = some x := buf
  obtain ⟨w, e⟩ : ∃ w, (Work.of s).translate g (some (coreWaiter g)) (coreOf s g).asid (!(Work.of s).super g) (blockNeed store) va =
      .ok (x.pa + (va - x.base), w) := by
    unfold Work.translate Work.through
    dsimp only
    rw [if_neg (Nat.not_le.2 space), found]
    dsimp only
    rw [if_neg (Bool.eq_false_iff.1 may), (markDirty_address _ _ _).1, (markDirty_address _ _ _).2]
    exact ⟨_, rfl⟩
  refine (blockCheck_translated e).trans (needAt_fails ?_ _ _ _)
  rw [decide_eq_false (Nat.not_le.2 window), Bool.and_false, Bool.false_and]

theorem keeps_blockCheck {w : Work} {va : Nat} {store : Bool} (h : (Work.of s).blockCheck g va n store = .ok w) :
    Keeps (Work.of s) w := by
  cases e : (Work.of s).translate g (some (coreWaiter g)) (coreOf s g).asid (!(Work.of s).super g) (blockNeed store) va with
  | error c =>
    have translated : (Work.of s).translate g ((Work.of s).accCore g).waiter ((Work.of s).accCore g).asid
      ((Work.of s).accCore g).user (blockNeed store) va = .error c := e
    unfold Work.blockCheck at h
    dsimp only at h
    rw [translated] at h
    cases h
  | ok p =>
    obtain ⟨pa, v⟩ := p
    rw [blockCheck_translated e] at h
    unfold needAt at h
    split at h
    · cases h
      exact keeps_translate e
    · cases h

end Sys2Proof.Proofs
end

section
/-! RLD, RST, RAMO, their block forms and RLD.DONE, with the statement about them (R346 to R354). -/

namespace Sys2Proof.Proofs

open Sys2Proof.Machine Sys2Proof.Safety Sys2Proof.Laws

variable {s : State} {g n : Nat} {d a b : BitVec 5} {ty o : BitVec 3}

/-! ## Peer Lost (R351, R387) -/

theorem two_bits_cleared (y : BitVec 16) : y &&& 0xFFFC#16 = (y >>> 2) <<< 2 := by
  apply BitVec.eq_of_getLsbD_eq
  intro i hi
  rw [BitVec.getLsbD_and, BitVec.getLsbD_shiftLeft, BitVec.getLsbD_ushiftRight]
  interval_cases i <;> simp

theorem handler_pc (x : Word) : x.setWidth 16 &&& 0xFFFC#16 = BitVec.ofNat 16 (x.toNat / 4 % 2 ^ 14 * 4) := by
  rw [two_bits_cleared]
  apply BitVec.eq_of_toNat_eq
  rw [BitVec.toNat_shiftLeft, BitVec.toNat_ushiftRight, BitVec.toNat_setWidth, BitVec.toNat_ofNat, Nat.shiftLeft_eq,
    Nat.shiftRight_eq_div_pow]
  omega

theorem status_of_handles (h : Handles s g) : (Work.of s).status g = statusOf s g := by
  have trap : ((Work.of s).core g).trap.intrap = false := h.2
  unfold Work.status statusOf Work.super
  rw [trap, show (coreOf s g).trap.intrap = false from trap]
  by_cases sup : ((Work.of s).regOf g).supBase ≤ ((Work.of s).core g).pc.toNat
  · rw [if_pos (decide_eq_true sup), if_pos (show (regionAt s g).supBase ≤ (coreOf s g).pc.toNat from sup)]
    rfl
  · rw [if_neg (by simpa using sup), if_neg (show ¬ (regionAt s g).supBase ≤ (coreOf s g).pc.toNat from sup)]
    rfl

/-- A lost request raises Peer Lost in the handler, its target marked (R351). -/
theorem lost_raises (h : Handles s g) (m : Nat) : Replaces s g (.ok (((Work.of s).markLost g m).raise g 0x1A 0 (bv 64 m) none))
    { inHandler s g 0x1A ((coreOf s g).pc.setWidth 64) 0 with lost := marked m (coreOf s g).lost } := by
  have core : ((Work.of s).markLost g m).core g = { coreOf s g with lost := marked m (coreOf s g).lost } := by
    rw [Work.markLost, updCore_eq, setCore_same, marked_eq]
    rfl
  have status : ((Work.of s).markLost g m).status g = statusOf s g := by
    rw [← status_of_handles h]
    unfold Work.status Work.super
    rw [core]
    rfl
  have enters : ((Work.of s).markLost g m).raise g 0x1A 0 (bv 64 m) none = (Work.of s).setCore g
      { inHandler s g 0x1A ((coreOf s g).pc.setWidth 64) 0 with lost := marked m (coreOf s g).lost } := by
    unfold Work.raise
    dsimp only
    rw [if_pos ⟨h.1, by rw [core]; simpa using h.2⟩, status, core, handler_pc, Work.markLost, updCore_eq, setCore_twice]
    rfl
  rw [enters]
  exact replaces_setCore _

/-! ## Requests whose answer resumes the task (R351, R353) -/

section

variable {i : Instr} {f : Nat → Work → Except Stop Work} {q : OutReq} {msg : RemoteReq}

theorem waitObj_not_rldWait (m id : Nat) : waitObj m id ≠ rldWait := by
  unfold waitObj rldWait
  omega

theorem sendsAndWaits_of_effect (h : OnCore s g) (ok : i.coreOk = true) (x : exec i s = run s (coreInstr i f))
    (small : (reg s g b).toNat < 2 ^ 11) (op : msg.op ≠ 6)
    (e : f g (Work.of s) = sendAndWait g (reg s g b).toNat d q msg (Work.of s)) :
    SendsAndWaits s g i d b { msg with ident := s.mod.nextIdent, target := (reg s g b).toNat } := by
  refine ⟨fun st live free may => ?_, fun live wait may => ?_, fun lost handles => ?_⟩
  · have effect : f g (Work.of s) = ((Work.of s).sendReq st q msg).suspend g 7 (waitObj (reg s g b).toNat s.mod.nextIdent) none d
        ((coreOf s g).pc + 4) false := by
      rw [e, sendAndWait, free]
      rfl
    obtain ⟨suspends, t, step, outbox, mod⟩ := suspends_in h ok x may (mailOnly_sendReq s st q msg) (waitObj_not_rldWait _ _) effect
    exact ⟨suspends, t, step, putOn_sendReq (w := Work.of s) free rfl op outbox mod, by rw [mod, sendReq_nextIdent]; rfl⟩
  · have other : (reg s g b).toNat ≠ rldWait := fun e => by
      rw [e] at small
      exact absurd small (by decide)
    have only : MailOnly s (if (s.mod.stream false g (reg s g b).toNat).isNone = true then
        (Work.of s).askOpen false g (reg s g b).toNat else Work.of s) := by
      split
      · exact ⟨_, s.outbox, s.ways, rfl⟩
      · exact ⟨s.mod, s.outbox, s.ways, rfl⟩
    refine (suspends_in h ok x may only other ?_).1
    rw [e, sendAndWait, wait]
    rfl
  · refine x.trans (coreInstr_replaces h ok ?_)
    rw [e, sendAndWait, lost]
    exact lost_raises handles _

theorem rld_waits (h : OnCore s g) (ok : (Instr.rld d a b).coreOk = true) (r : RemoteOk s g a b 8) :
    SendsAndWaits s g (.rld d a b) d b (requestOn s g a b 0 8 []) :=
  sendsAndWaits_of_effect h ok rfl r.1 (show (0 : Nat) ≠ 6 by decide) (congrArg (· >>= _) (remoteCheck_ok r))

theorem ramo_waits (h : OnCore s g) (ok : (Instr.ramo d a b ty o).coreOk = true) (r : RemoteOk s g a b (opBytes ty)) :
    SendsAndWaits s g (.ramo d a b ty o) d b { requestOn s g a b 2 (opBytes ty)
      (leBytes (opBytes ty) (reg s g d).toNat) with amo := o.toNat, type := ty.toNat } :=
  sendsAndWaits_of_effect h ok rfl r.1 (show (2 : Nat) ≠ 6 by decide) (congrArg (· >>= _) (remoteCheck_ok r))

end

/-! ## Requests after which the task goes on (R353) -/

section

variable {i : Instr} {f : Nat → Work → Except Stop Work} {w : Work} {data : List Byte} {st : Stream}

/-- A core with a target marked in its mask. -/
theorem markLost_core (w : Work) (g m : Nat) : (w.markLost g m).core g = { w.core g with lost := marked m (w.core g).lost } := by
  rw [Work.markLost, updCore_eq, setCore_same, marked_eq]

theorem step_fields (c : Core) : c.step.lost = c.lost ∧ c.step.rldOut = c.rldOut ∧ c.step.rldLost = c.rldLost := by
  obtain ⟨_, _, _, e⟩ := step_setReg_only c 0 0
  rw [show c.step = _ from e]
  exact ⟨rfl, rfl, rfl⟩

theorem keeps_lost {w v : Work} (h : Keeps w v) (g : Nat) : (v.core g).lost = (w.core g).lost ∧
    (v.core g).rldOut = (w.core g).rldOut ∧ (v.core g).rldLost = (w.core g).rldLost := by
  obtain ⟨_, _, _, e⟩ := h.cores g
  rw [e]
  exact ⟨rfl, rfl, rfl⟩

variable (h : Ready s g) (ok : i.coreOk = true) (x : exec i s = run s (coreInstr i f)) (k : Keeps (Work.of s) w)

include h ok x k

/-- A store's request leaves on its stream, and the task goes on. -/
theorem store_sent (e : f g (Work.of s) = sendStore g (reg s g b).toNat (reg s g a).toNat n data w)
    (free : w.pair false g (reg s g b).toNat = .free st) : ∃ t, Did s g i 0 0 t ∧ t.mem = s.mem.write w.log ∧
      PutOn s t st (.request (requestOn s g a b 1 n data)) := by
  obtain ⟨core, region, log⟩ := sendReq_core w st (w.coreOut g 1 (reg s g a).toNat n none) (w.coreReq g 1 (reg s g a).toNat n data) g
  obtain ⟨t, did, -, outbox, mod, mem⟩ := didIn_of_next (w := w.sendReq st (w.coreOut g 1 (reg s g a).toNat n none)
    (w.coreReq g 1 (reg s g a).toNat n data)) h ok x (by rw [core]; exact runsAlike_of_keeps k g)
    (region.trans (keeps_regOf k g)) (by rw [e, sendStore, free])
  refine ⟨t, did, mem.trans (congrArg s.mem.write log), ?_⟩
  rw [← requestOn_of_keeps k]
  exact putOn_sendReq free k.outbox (show (1 : Nat) ≠ 6 by decide) outbox mod

/-- A store that no route leads on is lost: its target is marked (R351). -/
theorem store_lost (e : f g (Work.of s) = sendStore g (reg s g b).toNat (reg s g a).toNat n data w)
    (lost : w.pair false g (reg s g b).toNat = .lost) : ∃ t, Did s g i 0 0 t ∧ t.outbox = s.outbox ∧
      (coreOf t g).lost = marked (reg s g b).toNat (coreOf s g).lost := by
  have alike : RunsAlike (coreOf s g) ((w.markLost g (reg s g b).toNat).core g) := by
    rw [markLost_core]
    exact (runsAlike_of_keeps k g).noted _ _ _
  obtain ⟨t, did, core, outbox, -⟩ := didIn_of_next (w := w.markLost g (reg s g b).toNat) h ok x alike (keeps_regOf k g)
    (by rw [e, sendStore, lost])
  refine ⟨t, did, outbox.trans k.outbox, (congrArg Core.lost core).trans ((step_fields _).1.trans ?_)⟩
  rw [markLost_core, (keeps_lost k g).1]
  rfl

end

theorem rst_sent {st : Stream} (h : Ready s g) (ok : (Instr.rst d a b).coreOk = true) (r : RemoteOk s g a b 8)
    (free : (Work.of s).pair false g (reg s g b).toNat = .free st) : ∃ t, Did s g (.rst d a b) 0 0 t ∧ t.mem = s.mem ∧
      PutOn s t st (.request (requestOn s g a b 1 8 (leBytes 8 (reg s g d).toNat))) :=
  store_sent h ok rfl (.refl _) (congrArg (· >>= _) (remoteCheck_ok r)) free

theorem rst_lost (h : Ready s g) (ok : (Instr.rst d a b).coreOk = true) (r : RemoteOk s g a b 8)
    (lost : (Work.of s).pair false g (reg s g b).toNat = .lost) : ∃ t, Did s g (.rst d a b) 0 0 t ∧ t.outbox = s.outbox ∧
      (coreOf t g).lost = marked (reg s g b).toNat (coreOf s g).lost :=
  store_lost h ok rfl (.refl _) (congrArg (· >>= _) (remoteCheck_ok r)) lost

/-! ## Block forms (R353, R354) -/

section

variable {i : Instr} {va la : Nat} {st : Stream}

/-- The block forms of RLD by size. -/
def rldForms (d a b : BitVec 5) : List (Instr × Nat) := [(.rldB32 d a b, 32), (.rldB64 d a b, 64), (.rldB128 d a b, 128)]

/-- The block forms of RST by size. -/
def rstForms (d a b : BitVec 5) : List (Instr × Nat) := [(.rstB32 d a b, 32), (.rstB64 d a b, 64), (.rstB128 d a b, 128)]

theorem rldForms_run (form : (i, n) ∈ rldForms d a b) (s : State) : exec i s = run s (coreInstr i (rldBlock n d a b)) ∧ 0 < n := by
  simp only [rldForms, List.mem_cons, Prod.mk.injEq, List.not_mem_nil, or_false] at form
  rcases form with ⟨rfl, rfl⟩ | ⟨rfl, rfl⟩ | ⟨rfl, rfl⟩ <;> exact ⟨rfl, by decide⟩

theorem rstForms_run (form : (i, n) ∈ rstForms d a b) (s : State) : exec i s = run s (coreInstr i (rstBlock n d a b)) := by
  simp only [rstForms, List.mem_cons, Prod.mk.injEq, List.not_mem_nil, or_false] at form
  rcases form with ⟨rfl, rfl⟩ | ⟨rfl, rfl⟩ | ⟨rfl, rfl⟩ <;> rfl

/-- A block form's effect: its local address aligned, its range checked, and then the rest. -/
def blockThen (s : State) (g n : Nat) (d : BitVec 5) (store : Bool) (rest : Work → Except Stop Work) : Except Stop Work :=
  needAt (decide ((reg s g d).toNat % n = 0)) 0x03 (reg s g d).toNat >>= fun _ =>
    (Work.of s).blockCheck g (reg s g d).toNat n store >>= rest

/-- A block RLD's request put on its stream, and noted as outstanding. -/
def rldSent (s : State) (g n : Nat) (d a : BitVec 5) (st : Stream) (w : Work) : Work :=
  (w.sendReq st (w.coreOut g 0 (reg s g a).toNat n (some (reg s g d).toNat)) (w.coreReq g 0 (reg s g a).toNat n [])).updCore g
    fun c => { c with rldOut := c.rldOut ++ [w.mod.nextIdent] }

/-- A block RLD's target marked as lost, for FENCE and for RLD.DONE. -/
def rldMarked (s : State) (g : Nat) (b : BitVec 5) (w : Work) : Work :=
  (w.markLost g (reg s g b).toNat).updCore g fun c => { c with rldLost := addOnce (reg s g b).toNat c.rldLost }

/-- A block RLD whose range is sound. -/
def rldRest (s : State) (g n : Nat) (d a b : BitVec 5) (w : Work) : Except Stop Work :=
  match w.pair false g (reg s g b).toNat with
  | .wait => w.awaitPair g (reg s g b).toNat
  | .lost => (rldMarked s g b w).next g
  | .free st => (rldSent s g n d a st w).next g

/-- A block RST whose range is sound. -/
def rstRest (s : State) (g n : Nat) (d a b : BitVec 5) (w : Work) : Except Stop Work :=
  match w.pair false g (reg s g b).toNat with
  | .wait => w.awaitPair g (reg s g b).toNat
  | _ => stopAt (w.vread (w.accCore g) (reg s g d).toNat n) >>= fun p =>
      sendStore g (reg s g b).toNat (reg s g a).toNat n p.1 p.2

theorem rldBlock_then (r : RemoteOk s g a b n) :
    rldBlock n d a b g (Work.of s) = blockThen s g n d true (rldRest s g n d a b) := by
  unfold rldBlock
  rw [remoteCheck_ok r]
  rfl

theorem rstBlock_then (r : RemoteOk s g a b n) :
    rstBlock n d a b g (Work.of s) = blockThen s g n d false (rstRest s g n d a b) := by
  unfold rstBlock
  rw [remoteCheck_ok r]
  rfl

variable {store : Bool} {rest : Work → Except Stop Work} {f : Nat → Work → Except Stop Work}

/-- A range that lies in a window is in reach, but past module memory (R174). -/
def InWindow (s : State) (g : Nat) (d : BitVec 5) (nd : Need) (n : Nat) : Prop :=
  (reg s g d).toNat < 2 ^ 57 ∧ ∃ x, bufferedAt s g (reg s g d).toNat = some x ∧
    x.refuses nd (!(Work.of s).super g) = false ∧ memTop < (x.pa + ((reg s g d).toNat - x.base)) % 2 ^ 45 + n

section

variable (h : OnCore s g) (ok : i.coreOk = true) (x : exec i s = run s (coreInstr i f))
  (e : f g (Work.of s) = blockThen s g n d store rest)

include h ok x e

theorem block_misaligned (al : (reg s g d).toNat % n ≠ 0) : Raises s g i 0x03 (reg s g d).toNat :=
  x.trans (coreInstr_fault h ok (e.trans (needAt_fails (decide_eq_false al) _ _ _)))

theorem block_window (al : (reg s g d).toNat % n = 0) (window : InWindow s g d (blockNeed store) n) :
    Raises s g i 0x09 (reg s g d).toNat := by
  obtain ⟨space, y, buf, may, past⟩ := window
  refine x.trans (coreInstr_fault h ok (e.trans ((needAt_holds (decide_eq_true al) _ _ _).trans ?_)))
  rw [blockCheck_window space buf may past]
  rfl

end

theorem blockThen_checked {w : Work} (al : (reg s g d).toNat % n = 0)
    (check : (Work.of s).blockCheck g (reg s g d).toNat n store = .ok w) : blockThen s g n d store rest = rest w := by
  refine (needAt_holds (decide_eq_true al) _ _ _).trans ?_
  rw [check]
  rfl

theorem block_rld_sent (h : Ready s g) (ok : i.coreOk = true) (form : (i, n) ∈ rldForms d a b) (r : RemoteOk s g a b n)
    (al : (reg s g d).toNat % n = 0) (reach : Reaches s g needW (reg s g d).toNat la n)
    (free : (Work.of s).pair false g (reg s g b).toNat = .free st) : ∃ t, Did s g i 0 0 t ∧
      (coreOf t g).rldOut = (coreOf s g).rldOut ++ [s.mod.nextIdent] ∧
      PutOn s t st (.request (requestOn s g a b 0 n [])) := by
  obtain ⟨x, pos⟩ := rldForms_run form s
  obtain ⟨w, check, k⟩ := blockCheck_reaches reach pos
  have there : w.pair false g (reg s g b).toNat = .free st := (keeps_pair k _ _ _).trans free
  obtain ⟨-, ident⟩ := keeps_modFields k
  obtain ⟨core, region, -⟩ := sendReq_core w st (w.coreOut g 0 (reg s g a).toNat n (some (reg s g d).toNat))
    (w.coreReq g 0 (reg s g a).toNat n []) g
  have noted : (rldSent s g n d a st w).core g = { w.core g with rldOut := (w.core g).rldOut ++ [w.mod.nextIdent] } := by
    rw [rldSent, updCore_eq, setCore_same, core]
  have alike : RunsAlike (coreOf s g) ((rldSent s g n d a st w).core g) := by
    rw [noted]
    exact (runsAlike_of_keeps k g).noted _ _ _
  obtain ⟨t, did, coreT, outbox, mod, -⟩ := didIn_of_next (w := rldSent s g n d a st w) h ok x alike (region.trans (keeps_regOf k g))
    (((rldBlock_then r).trans (blockThen_checked al check)).trans (by rw [rldRest, there]))
  refine ⟨t, did, (congrArg Core.rldOut coreT).trans ((step_fields _).2.1.trans ?_), ?_⟩
  · rw [noted, (keeps_lost k g).2.1, ident]
    rfl
  · rw [← requestOn_of_keeps k]
    exact putOn_sendReq there k.outbox (show (0 : Nat) ≠ 6 by decide) outbox mod

theorem block_rld_lost (h : Ready s g) (ok : i.coreOk = true) (form : (i, n) ∈ rldForms d a b) (r : RemoteOk s g a b n)
    (al : (reg s g d).toNat % n = 0) (reach : Reaches s g needW (reg s g d).toNat la n)
    (lost : (Work.of s).pair false g (reg s g b).toNat = .lost) : ∃ t, Did s g i 0 0 t ∧ t.outbox = s.outbox ∧
      (coreOf t g).rldLost = marked (reg s g b).toNat (coreOf s g).rldLost := by
  obtain ⟨x, pos⟩ := rldForms_run form s
  obtain ⟨w, check, k⟩ := blockCheck_reaches reach pos
  have there : w.pair false g (reg s g b).toNat = .lost := (keeps_pair k _ _ _).trans lost
  have noted : (rldMarked s g b w).core g = { w.core g with
      lost := marked (reg s g b).toNat (w.core g).lost, rldLost := marked (reg s g b).toNat (w.core g).rldLost } := by
    rw [rldMarked, updCore_eq, setCore_same, markLost_core, marked_eq]
  have alike : RunsAlike (coreOf s g) ((rldMarked s g b w).core g) := by
    rw [noted]
    exact (runsAlike_of_keeps k g).noted _ _ _
  obtain ⟨t, did, coreT, outbox, -⟩ := didIn_of_next (w := rldMarked s g b w) h ok x alike (keeps_regOf k g)
    (((rldBlock_then r).trans (blockThen_checked al check)).trans (by rw [rldRest, there]))
  refine ⟨t, did, outbox.trans k.outbox, (congrArg Core.rldLost coreT).trans ((step_fields _).2.2.trans ?_)⟩
  rw [noted, (keeps_lost k g).2.2]
  rfl

section

variable {w w2 : Work} {bs : List Byte}

/-- A block RST whose pair is not waited for sends the bytes that it reads. -/
theorem rstRest_sends (notWait : w.pair false g (reg s g b).toNat ≠ .wait)
    (reads : w.vread (w.accCore g) (reg s g d).toNat n = .ok (bs, w2)) :
    rstRest s g n d a b w = sendStore g (reg s g b).toNat (reg s g a).toNat n bs w2 := by
  unfold rstRest
  split
  · next e => exact absurd e notWait
  · rw [reads]
    rfl

variable (h : Ready s g) (ok : i.coreOk = true) (form : (i, n) ∈ rstForms d a b) (r : RemoteOk s g a b n)
  (al : (reg s g d).toNat % n = 0) (check : (Work.of s).blockCheck g (reg s g d).toNat n false = .ok w)
  (reads : w.vread (w.accCore g) (reg s g d).toNat n = .ok (bs, w2))

include h ok form r al check reads

theorem block_rst_sent (free : w.pair false g (reg s g b).toNat = .free st) (there : w2.pair false g (reg s g b).toNat = .free st) :
    ∃ t, Did s g i 0 0 t ∧ PutOn s t st (.request (requestOn s g a b 1 n bs)) := by
  obtain ⟨t, did, -, put⟩ := store_sent h ok (rstForms_run form s) ((keeps_blockCheck check).trans (keeps_vread reads))
    (((rstBlock_then r).trans (blockThen_checked al check)).trans (rstRest_sends (by rw [free]; exact nofun) reads)) there
  exact ⟨t, did, put⟩

theorem block_rst_lost (lost : w.pair false g (reg s g b).toNat = .lost) (there : w2.pair false g (reg s g b).toNat = .lost) :
    ∃ t, Did s g i 0 0 t ∧ t.outbox = s.outbox ∧ (coreOf t g).lost = marked (reg s g b).toNat (coreOf s g).lost :=
  store_lost h ok (rstForms_run form s) ((keeps_blockCheck check).trans (keeps_vread reads))
    (((rstBlock_then r).trans (blockThen_checked al check)).trans (rstRest_sends (by rw [lost]; exact nofun) reads)) there

end

end

/-! ## RLD.DONE (R354) -/

theorem rldDone_reports (h : Ready s g) (ok : (Instr.rldDone d).coreOk = true) (none_ : (coreOf s g).rldOut = []) :
    ∃ t, Did s g (.rldDone d) d
      (lostStatus (coreOf s g).rldLost ||| (if (coreOf s g).rldErr then 0x4000000000000000 else 0)) t ∧
      (coreOf t g).rldLost = [] ∧ (coreOf t g).rldErr = false ∧ t.mem = s.mem := by
  have core : (((Work.of s).setCore g { coreOf s g with rldLost := [], rldErr := false }).acquire g).core g =
      { coreOf s g with rldLost := [], rldErr := false, ptime := max (coreOf s g).ptime s.mod.maxTime } := by
    rw [acquire_core, setCore_same]
    rfl
  obtain ⟨t, did, coreT, -, -, mem⟩ := didIn_of_give
    (w := ((Work.of s).setCore g { coreOf s g with rldLost := [], rldErr := false }).acquire g) h ok rfl
    (by rw [core]; exact ⟨rfl, rfl, rfl, rfl, rfl, rfl, rfl, rfl⟩) rfl
    (if_pos (List.isEmpty_iff.2 none_))
  obtain ⟨_, _, _, e⟩ := step_setReg_only ((((Work.of s).setCore g { coreOf s g with rldLost := [], rldErr := false }).acquire g).core g) d
    (coreOf s g).rldStatus
  refine ⟨t, did, (congrArg Core.rldLost coreT).trans ?_, (congrArg Core.rldErr coreT).trans ?_, mem⟩
  · exact (congrArg Core.rldLost e).trans (congrArg Core.rldLost core)
  · exact (congrArg Core.rldErr e).trans (congrArg Core.rldErr core)

theorem rldDone_suspends {live : BitVec 32} (h : OnCore s g) (ok : (Instr.rldDone d).coreOk = true) (some_ : (coreOf s g).rldOut ≠ [])
    (m : MaySuspend s g live ((coreOf s g).pc + 4)) : Suspends s g (.rldDone d) 7 0x8000 none d ((coreOf s g).pc + 4) live false :=
  suspends_of_suspend h ok rfl m (if_neg fun e => some_ (List.isEmpty_iff.1 e))

/-- Settles O44: the checks, then each kind of instruction by what it finds. -/
theorem remoteInstructions : Obligations.RemoteInstructions := by
  intro s g d a b ty o h
  refine ⟨fun i n form ok => ⟨fun bad => remote_raises h form ok (remoteCheck_designator bad),
      fun small other past => remote_raises h form ok (remoteCheck_past small other past),
      fun small other space al => remote_raises h form ok (remoteCheck_misaligned small other space al)⟩,
    rld_waits h, ramo_waits h,
    fun go ok r => ⟨fun st free => rst_sent ⟨h, go⟩ ok r free, fun lost => rst_lost ⟨h, go⟩ ok r lost⟩,
    fun i n form ok r => ⟨block_misaligned h ok (rldForms_run form s).1 (rldBlock_then r),
      fun al window => block_window h ok (rldForms_run form s).1 (rldBlock_then r) al window,
      fun la al reach go => ⟨fun st free => block_rld_sent ⟨h, go⟩ ok form r al reach free,
        fun lost => block_rld_lost ⟨h, go⟩ ok form r al reach lost⟩⟩,
    fun i n form ok r => ⟨block_misaligned h ok (rstForms_run form s) (rstBlock_then r),
      fun al window => block_window h ok (rstForms_run form s) (rstBlock_then r) al window,
      fun w bs w2 al check reads go => ⟨fun st free there => block_rst_sent ⟨h, go⟩ ok form r al check reads free there,
        fun lost there => block_rst_lost ⟨h, go⟩ ok form r al check reads lost there⟩⟩,
    fun ok => ⟨fun none_ go => rldDone_reports ⟨h, go⟩ ok none_, fun live some_ m => rldDone_suspends h ok some_ m⟩⟩

end Sys2Proof.Proofs
end

section
/-! AMO and CAS of a task core: one indivisible read and write at the home of a location (R192, R207). -/

namespace Sys2Proof.Proofs

open Sys2Proof.Machine Sys2Proof.Safety Sys2Proof.Laws

variable {s : State} {g va la n : Nat} {f : Nat → Option Nat}

/-! ## The access (R207) -/

/-- A core's indivisible access of sound module memory: its new value is stored as a core's store is, and without one only
the line's times move (R192, R193). -/
theorem atomicAt_core {w : Work} {a : Acc} {pa : Nat} (home : pa / 2 ^ 45 = w.mod.modNo) (at_ : pa % 2 ^ 45 = la)
    (fit : la + n ≤ memTop) (c : a.core = true) (writable : w.readOnly la = false) (sound : w.pspoilt la n = false) :
    w.atomicAt a pa n f = .ok (w.pload la n, (f (w.pload la n)).elim (w.writeTime a.who (w.loc la))
      fun v => w.coreStore a.grove la (leBytes n v)) := by
  unfold Work.atomicAt
  dsimp only
  rw [if_neg (not_not.2 home), at_, if_pos fit, writable, sound, c]
  cases f (w.pload la n) <;> rfl

/-- Where a core's translation reaches sound bytes, an indivisible access answers the number they hold and writes the new
value's bytes, or none. -/
theorem atomic_reaches (r : Reaches s g needRW va la n) (pos : 0 < n) (sound : Sound s la n) :
    ∃ w, (Work.of s).atomic ((Work.of s).accCore g) va n f = .ok (numAt s la n, w) ∧ Keeps (Work.of s) w ∧
      w.log = (f (numAt s la n)).elim [] fun v => logBytes [] la (leBytes n v) := by
  obtain ⟨fit, place⟩ := reaches_inPlace r
  obtain ⟨pa, w, e, home, at_, k⟩ := translate_reaches r
  have placed : InPlace w la n := inPlace_of_cells (w := Work.of s) k.keeps.cells place
  have able : w.pspoilt la n = false := Bool.eq_false_iff.2 fun p => (k.pspoilt_iff place).1 p sound
  have access := atomicAt_core (f := f) (home.trans k.modNo.symm) at_ fit (accCore_core (Work.of s) g) (placed 0 pos).2 able
  rw [pload_unwritten k.log k.keeps.base placed] at access
  have answers : (Work.of s).atomic ((Work.of s).accCore g) va n f = .ok (numAt s la n, _) :=
    (congrArg (· >>= _) e).trans access
  refine ⟨_, answers, keeps_atomic answers, ?_⟩
  cases f (numAt s la n) with
  | none => exact (writeTime_log _ _ _).trans k.log
  | some v =>
    have there : ∀ i < (leBytes n v).length, w.loc (la + i) = la + i := fun i hi => (placed i (by simpa using hi)).1
    exact (coreStore_log _ _ _ _).trans ((pstore_log _ _ _ there).trans (congrArg (logBytes · la (leBytes n v)) k.log))

/-- Bytes left as they are hold the number that they held. -/
theorem stored_of_same {t : State} (e : ∀ b, byteAt t b = byteAt s b) : Stored s t la n (numAt s la n) := by
  have same : leBytes n (numAt s la n) = (List.range n).map fun i => byteAt s (la + i) :=
    (leBytes_leNat n _ (by simp)).trans (List.take_of_length_le (by simp))
  refine ⟨fun i hi => ?_, fun b _ => e b⟩
  rw [e, ← leBytes_getD n _ i hi, same]
  simp [hi]

/-- What the bytes of an indivisible access leave: the new value, or the old one. -/
theorem stored_of_atomic {t : State} {new : Option Nat} (m : MemOk s)
    (e : t.mem = s.mem.write (new.elim [] fun v => logBytes [] la (leBytes n v))) :
    Stored s t la n (new.getD (numAt s la n)) := by
  cases new with
  | none => exact stored_of_same fun b => congrArg (Memory.get · b) e
  | some v => exact stored_of_mem m e

/-! ## AMO and CAS (R207) -/

/-- The effect that AMO and CAS share: an aligned address, the access, and the old value for `d`. -/
def atomicEffect (g : Nat) (d : BitVec 5) (t : BitVec 3) (va : Nat) (f : Nat → Option Nat) (w : Work) : Except Stop Work := do
  needAt (va % opBytes t = 0) 0x03 va
  let (old, w1) ← stopAt (badAt va (w.atomic (w.accCore g) va (opBytes t) f))
  w1.give g d (oldWord t old)

/-- The new value of a CAS: the swap's, where the old value is the one it wants. -/
def swapped (want v old : Nat) : Option Nat := if old = want then some v else none

theorem swapped_getD (want v old : Nat) : (swapped want v old).getD old = if old = want then v else old := by
  unfold swapped
  split <;> rfl

/-- An instruction with that effect answers the old value and leaves the new one, where there is one. -/
theorem did_atomic {i : Instr} {effect : Nat → Work → Except Stop Work} {d : BitVec 5} {t : BitVec 3} (h : Ready s g)
    (m : MemOk s) (ok : i.coreOk = true) (x : exec i s = run s (coreInstr i effect)) (al : va % opBytes t = 0)
    (r : Reaches s g needRW va la (opBytes t)) (sound : Sound s la (opBytes t))
    (e : effect g (Work.of s) = atomicEffect g d t va f (Work.of s)) :
    ∃ u, Did s g i d (oldWord t (numAt s la (opBytes t))) u ∧
      Stored s u la (opBytes t) ((f (numAt s la (opBytes t))).getD (numAt s la (opBytes t))) := by
  have pos : 0 < opBytes t := by rcases opBytes_cases t with e | e <;> omega
  obtain ⟨w, access, k, log⟩ := atomic_reaches (f := f) r pos sound
  have gives : atomicEffect g d t va f (Work.of s) = w.give g d (oldWord t (numAt s la (opBytes t))) := by
    rw [atomicEffect, needAt_holds (decide_eq_true al), access]
    rfl
  obtain ⟨u, did, mem, -⟩ := did_access h ok x k (e.trans gives)
  exact ⟨u, did, stored_of_atomic m (mem.trans (congrArg _ log))⟩

/-- Settles O11: both instructions are one indivisible access, and differ in the new value alone. -/
theorem atomics : Obligations.Atomics := by
  intro s g d a b t la h m
  dsimp only
  simp only [opU_toNat, ← swapped_getD]
  intro al r sound
  exact ⟨fun o ok => did_atomic (f := fun old => some (updateOp o.toNat t old (opU t (reg s g b)))) h m ok rfl al r sound rfl,
    fun ok => did_atomic (f := swapped (opU t (reg s g d)) (opU t (reg s g b))) h m ok rfl al r sound rfl⟩

end Sys2Proof.Proofs
end

section
/-! FENCE, WAITTL and TLRD (R208 to R210). -/

namespace Sys2Proof.Proofs

open Sys2Proof.Machine Sys2Proof.Safety Sys2Proof.Laws

variable {s : State} {g : Nat} {d a b : BitVec 5} {live : BitVec 32}

/-! ## FENCE (R208) -/

/-- The empty set's status is zero (R208). -/
theorem lostStatus_eq (ms : List Nat) : lostStatus ms = if ms = [] then 0 else lostStatus ms := by
  split
  · next empty => rw [empty]; rfl
  · rfl

/-- A core's own fence moves its set of lost modules to PLMASK, and changes nothing else (R208). -/
theorem fenceDone_core (w : Work) (g : Nat) :
    (w.fenceDone g g).2.core g = { w.core g with plmask := (w.core g).lost, lost := [] } := by
  simp only [Work.fenceDone, core_updCore]

theorem fence_reports (h : Ready s g) (ok : (Instr.fence d).coreOk = true) (none_ : (Work.of s).fenceWaits g = false) :
    ∃ t, Did s g (.fence d) d (lostStatus (coreOf s g).lost) t ∧ (coreOf t g).lost = [] ∧
      (coreOf t g).plmask = (coreOf s g).lost ∧ t.mem = s.mem := by
  have core := fenceDone_core (Work.of s) g
  obtain ⟨t, did, coreT, -, -, mem⟩ := didIn_of_give (w := ((Work.of s).fenceDone g g).2) (d := d)
    (v := lostStatus (coreOf s g).lost) h ok rfl (by rw [core]; exact ⟨rfl, rfl, rfl, rfl, rfl, rfl, rfl, rfl⟩) rfl
    (if_neg (Bool.eq_false_iff.1 none_))
  obtain ⟨_, _, _, only⟩ := step_setReg_only (((Work.of s).fenceDone g g).2.core g) d (lostStatus (coreOf s g).lost)
  rw [only, core] at coreT
  exact ⟨t, did, congrArg Core.lost coreT, congrArg Core.plmask coreT, mem⟩

theorem fence_suspends (h : OnCore s g) (ok : (Instr.fence d).coreOk = true) (some_ : (Work.of s).fenceWaits g = true)
    (m : MaySuspend s g live ((coreOf s g).pc + 4)) : Suspends s g (.fence d) 9 0 none d ((coreOf s g).pc + 4) live false :=
  suspends_of_suspend h ok rfl m (if_pos some_)

/-! ## Timelines (R209, R210) -/

section

variable {m k : Nat}

/-- A designator that keeps the layout and names a counter gives the counter (R209). -/
theorem timelineAt_names {w : Work} {x : Word} (names : w.designator g x = some (m, k)) (fits : k ≤ 8) :
    w.timelineAt g x = .ok (m, k) := by
  rw [Work.timelineAt, names]
  exact if_pos fits

/-- A designator that breaks the layout is a Permission fault (R209). -/
theorem timelineAt_broken {w : Work} {x : Word} (broken : w.designator g x = none) : w.timelineAt g x = .error (flt 0x09) := by
  rw [Work.timelineAt, broken]

/-- An instruction that acquires, writes a register and goes on writes no byte (R196). -/
theorem did_acquire {i : Instr} {f : Nat → Work → Except Stop Work} {v : Word} (h : Ready s g) (ok : i.coreOk = true)
    (x : exec i s = run s (coreInstr i f)) (e : f g (Work.of s) = ((Work.of s).acquire g).give g d v) :
    ∃ t, Did s g i d v t ∧ t.mem = s.mem := by
  obtain ⟨t, did, mem, -⟩ := did_access h ok x (keeps_setPtime (Work.of s) (.core g) _) e
  exact ⟨t, did, mem.trans (congrArg s.mem.write (acquire_log (Work.of s) g))⟩

variable (names : (Work.of s).designator g (reg s g b) = some (m, k)) (fits : k ≤ 8)
include names fits

theorem waittl_reached (h : Ready s g) (ok : (Instr.waittl d a b).coreOk = true)
    (reached : (reg s g a).toNat ≤ (Work.of s).timeline m k) :
    ∃ t, Did s g (.waittl d a b) d (BitVec.ofNat 64 ((Work.of s).timeline m k)) t ∧ t.mem = s.mem :=
  did_acquire h ok rfl ((congrArg (· >>= _) (timelineAt_names names fits)).trans (if_pos reached))

theorem waittl_suspends (h : OnCore s g) (ok : (Instr.waittl d a b).coreOk = true)
    (short : (Work.of s).timeline m k < (reg s g a).toNat) (may : MaySuspend s g live ((coreOf s g).pc + 4)) :
    Suspends s g (.waittl d a b) 4 ((reg s g b).toNat % 65536) (some a) d ((coreOf s g).pc + 4) live false :=
  suspends_of_suspend h ok rfl may
    ((congrArg (· >>= _) (timelineAt_names names fits)).trans (if_neg (Nat.not_le.2 short)))

theorem tlrd_answers (h : Ready s g) (ok : (Instr.tlrd d b).coreOk = true) :
    ∃ t, Did s g (.tlrd d b) d (BitVec.ofNat 64 ((Work.of s).timeline m k)) t ∧ t.mem = s.mem :=
  did_acquire h ok rfl (congrArg (· >>= _) (timelineAt_names names fits))

end

theorem tlrd_broken (h : OnCore s g) (ok : (Instr.tlrd d b).coreOk = true)
    (broken : (Work.of s).designator g (reg s g b) = none) : Raises s g (.tlrd d b) 0x09 0 :=
  coreInstr_fault h ok (congrArg (· >>= _) (timelineAt_broken broken))

/-- Settles O13, clause by clause. -/
theorem ordering : Obligations.Ordering := by
  refine fun s g h => ⟨fun d ok => ⟨fun none_ go => ?_, fun live some_ m => fence_suspends h ok some_ m⟩,
    fun d a b m k => ⟨fun names fits => ⟨fun ok reached go => waittl_reached names fits ⟨h, go⟩ ok reached,
        fun live ok short may => waittl_suspends names fits h ok short may,
        fun ok go => tlrd_answers names fits ⟨h, go⟩ ok⟩,
      fun broken ok => tlrd_broken h ok broken⟩⟩
  rw [← lostStatus_eq]
  exact fence_reports ⟨h, go⟩ ok none_

end Sys2Proof.Proofs
end

section
/-! Records woken and handles changed: what goes on as before, and what the ring of a handle becomes (R150, R236, R237, R239). -/

namespace Sys2Proof.Proofs

open Sys2Proof.Machine Sys2Proof.Safety Sys2Proof.Laws

/-! ## Works in which cores go on alike -/

/-- Nothing differs of what a core looks at as it goes on: how it runs, and where its supervisor area begins. -/
structure SameRun (w v : Work) : Prop where
  cores : ∀ g, RunsAlike (w.core g) (v.core g)
  areas : ∀ g, (v.regOf g).supBase = (w.regOf g).supBase

/-- Cores go on alike, and no byte is written. -/
structure Quiet (w v : Work) : Prop extends SameRun w v where
  log : v.log = w.log

theorem RunsAlike.trans {a b c : Core} (h : RunsAlike a b) (k : RunsAlike b c) : RunsAlike a c :=
  ⟨k.regs.trans h.regs, k.pc.trans h.pc, k.loopActive.trans h.loopActive, k.loopcnt.trans h.loopcnt,
    k.bodyStart.trans h.bodyStart, k.bodyEnd.trans h.bodyEnd, k.trap.trans h.trap, k.task.trans h.task⟩

theorem SameRun.trans {a b c : Work} (h : SameRun a b) (k : SameRun b c) : SameRun a c :=
  ⟨fun g => (h.cores g).trans (k.cores g), fun g => (k.areas g).trans (h.areas g)⟩

theorem Quiet.refl (w : Work) : Quiet w w := ⟨⟨fun _ => .refl _, fun _ => rfl⟩, rfl⟩

theorem Quiet.trans {a b c : Work} (h : Quiet a b) (k : Quiet b c) : Quiet a c :=
  ⟨h.toSameRun.trans k.toSameRun, k.log.trans h.log⟩

/-- Changes in turn that are each quiet are quiet together. -/
theorem Quiet.foldl {α : Type} {f : Work → α → Work} (h : ∀ v a, Quiet v (f v a)) : ∀ (l : List α) (w : Work), Quiet w (l.foldl f w)
  | [], w => .refl w
  | a :: l, w => (h w a).trans (Quiet.foldl h l (f w a))

theorem sameRun_of_keeps {w v : Work} (h : Keeps w v) : SameRun w v :=
  ⟨runsAlike_of_keeps h, fun g => by rw [keeps_regOf h]⟩

/-- The records that a core keeps have no part in how it runs. -/
theorem quiet_updSlots (w : Work) (g : Nat) (f : List Record → List Record) :
    Quiet w (w.updCore g fun c => { c with slots := f c.slots }) where
  cores k := by
    rw [updCore_eq, core_setCore]
    split
    · next e => exact e ▸ ⟨rfl, rfl, rfl, rfl, rfl, rfl, rfl, rfl⟩
    · exact .refl _
  areas _ := rfl
  log := rfl

theorem quiet_setGrove (w : Work) (g : Nat) {x : Grove} (h : x.region = (w.grove g).region) : Quiet w (w.setGrove g x) where
  cores _ := .refl _
  areas k := by
    have home : (w.setGrove g x).rno k = w.rno k := (onlyTraces_setGrove w g h).homes k
    rw [Work.regOf, home, setGrove_region, Work.regOf]
  log := rfl

theorem quiet_updRegion (w : Work) (r : Nat) {f : Region → Region} (h : ∀ x, (f x).supBase = x.supBase := by intros; rfl) :
    Quiet w (w.updRegion r f) where
  cores _ := .refl _
  areas g := by
    rw [updRegion_eq, Work.regOf, Work.regOf, show (w.setRegion r (f (w.region r))).rno g = w.rno g from rfl]
    by_cases e : r = w.rno g
    · rw [← e, setRegion_same, h]
    · rw [setRegion_other _ _ e]
  log := rfl

theorem quiet_acquire (w : Work) (g : Nat) : Quiet w (w.acquire g) :=
  ⟨sameRun_of_keeps (keeps_setPtime w (.core g) _), acquire_log w g⟩

/-- An instruction that writes a register and goes on in a work where cores go on alike: what it leaves of groves and bytes. -/
theorem did_giving {s : State} {g : Nat} {i : Instr} {f : Nat → Work → Except Stop Work} {d : BitVec 5} {v : Word} {w : Work}
    (h : Ready s g) (ok : i.coreOk = true) (x : exec i s = run s (coreInstr i f)) (same : SameRun (Work.of s) w)
    (e : f g (Work.of s) = w.give g d v) : ∃ t, Did s g i d v t ∧ t.groves = w.groves ∧ t.mem = s.mem.write w.log := by
  have alike : RunsAlike (coreOf s g) (w.core g) := same.cores g
  have area : (w.regOf g).supBase = (regionAt s g).supBase := same.areas g
  have gives : w.give g d v = .ok (w.setCore g ((w.core g).setReg d v).step) := give_ok d v (by
    rw [area, alike.pc, alike.step.1]
    exact h.2)
  obtain ⟨t, did, -⟩ := didIn_of_effect h.1 ok x alike (e.trans gives)
  obtain rfl := Host.Outcome.next.inj (did.runs.symm.trans (x.trans (coreInstr_ok h.1 ok (e.trans gives))))
  exact ⟨_, did, rfl, rfl⟩

/-! ## Records changed where they wait (R150, R155) -/

theorem pstore_groves : ∀ (bs : List Byte) (a : Nat) (w : Work), (pstore a bs w).groves = w.groves
  | [], _, _ => rfl
  | b :: t, a, w => pstore_groves t (a + 1) (w.store (w.loc a) [b])

theorem foldl_groves {α : Type} {f : Work → α → Work} (h : ∀ v a, (f v a).groves = v.groves) :
    ∀ (l : List α) (w : Work), (l.foldl f w).groves = w.groves
  | [], _ => rfl
  | a :: l, w => (foldl_groves h l (f w a)).trans (h w a)

theorem grove_of_groves {w v : Work} (h : v.groves = w.groves) (k : Nat) : v.grove k = w.grove k :=
  congrArg (fun t => Tbl.getD t k Grove.reset) h

/-- Records changed where they wait leave every grove's handles and engines. -/
@[simp] theorem mapRecs_groves (w : Work) (r : Nat) (p : Record → Bool) (f : Record → Record) :
    (w.mapRecs r p f).groves = w.groves := by
  refine (foldl_groves (fun v e => ?_) _ _).trans (foldl_groves (fun v g => setCore_groves v g _) _ w)
  split
  · rfl
  · split
    · rfl
    · exact pstore_groves _ _ v

/-- Records changed where they wait, but for the bytes of their images, write nothing. -/
theorem quiet_mapRecs (w : Work) (r : Nat) (p : Record → Bool) {f : Record → Record} (h : ∀ x, (f x).image = x.image) :
    Quiet w (w.mapRecs r p f) := by
  have image : ∀ x, (if x.since = none ∧ p x then f x else x).image = x.image := fun x => by
    split
    · exact h x
    · rfl
  refine (Quiet.foldl (fun v g => quiet_updSlots v g (List.map _)) _ w).trans (Quiet.foldl (fun v e => ?_) _ _)
  split
  · exact .refl v
  · rw [if_pos (image e.2)]
    exact quiet_updRegion v r

/-- Records that become runnable write nothing: that a record may run is no part of its image (R148, R150). -/
theorem quiet_wakeKind (w : Work) (r kind : Nat) (p : Record → Bool) : Quiet w (w.wakeKind r kind p) := by
  unfold Work.wakeKind
  exact quiet_mapRecs w r _ fun _ => rfl

/-! ## Handles changed (R239) -/

variable {w : Work} {g h j k n : Nat} {x : Handle}

theorem quiet_wakeHandle (w : Work) (g h : Nat) : Quiet w (w.wakeHandle g h) := by
  unfold Work.wakeHandle
  exact quiet_wakeKind w _ _ _

theorem quiet_changeHandle : Quiet w (w.changeHandle g h x) :=
  Quiet.trans (b := w.setHandle g h x) (quiet_setGrove w g rfl) (quiet_wakeHandle _ g h)

theorem changeHandle_grove : (w.changeHandle g h x).grove k = (w.setHandle g h x).grove k :=
  grove_of_groves (mapRecs_groves (w.setHandle g h x) _ _ _) k

@[simp] theorem changeHandle_same : ((w.changeHandle g h x).grove g).handle h = x := by
  rw [changeHandle_grove, Work.setHandle, updGrove_eq, setGrove_same, Grove.handle, getD_put_same]

theorem changeHandle_other (e : h ≠ j) : ((w.changeHandle g h x).grove g).handle j = (w.grove g).handle j := by
  rw [changeHandle_grove, Work.setHandle, updGrove_eq, setGrove_same, Grove.handle, getD_put_other _ _ _ e, Grove.handle]

/-- A handle's change leaves every engine context. -/
@[simp] theorem changeHandle_engine : ((w.changeHandle g h x).grove n).engine k = (w.grove n).engine k := by
  rw [changeHandle_grove, Work.setHandle, updGrove_eq, grove_setGrove]
  split
  · next e => rw [← e]; rfl
  · rfl

/-! ## Space tokens (R237) -/

/-- A token that counts for no item changes its cell and times alone. -/
theorem sendTok_uncounted {r src time : Nat} {t : Token} (item : t.item = none) :
    Quiet w (w.sendTok r g src time t) ∧ (w.sendTok r g src time t).groves = w.groves := by
  unfold Work.sendTok
  split
  · exact ⟨.refl w, rfl⟩
  · split
    · exact ⟨.refl w, rfl⟩
    · next mc _ =>
      have put : Quiet w (w.fresh.2.updCell mc fun c => { c with inq := inqPut src t w.fresh.1.toNat c.inq }) :=
        ⟨⟨fun _ => .refl _, fun _ => rfl⟩, rfl⟩
      have times := timesOnly_follow (w.fresh.2.updCell mc fun c => { c with inq := inqPut src t w.fresh.1.toNat c.inq })
        (apart_cell mc) time
      have sent := put.trans ⟨sameRun_of_keeps times.keeps, times.log⟩
      rw [item]
      dsimp only [Work.count]
      rw [ite_self]
      exact ⟨sent, times.groves⟩

/-! ## The state that a step leaves -/

theorem handleOf_of_groves {t : State} (e : t.groves = w.groves) (g h : Nat) : handleOf t g h = (w.grove g).handle h :=
  congrArg (Grove.handle · h) (grove_of_groves (v := Work.of t) e g)

theorem engineOf_of_groves {t : State} (e : t.groves = w.groves) (g k : Nat) : engineOf t g k = (w.grove g).engine k :=
  congrArg (Grove.engine · k) (grove_of_groves (v := Work.of t) e g)

/-! ## Slots posted and freed (R239) -/

theorem postSlot_same : ((w.postSlot g h n).grove g).handle h =
    { (w.grove g).handle h with slots := setAt ((w.grove g).handle h).slots n 2 } := changeHandle_same

theorem quiet_postSlot : Quiet w (w.postSlot g h n) := quiet_changeHandle

/-- A slot freed is its handle's change, with a space token beside it where the handle sends one (R237). -/
theorem freeSlotOf_changes : Quiet w (w.freeSlotOf g h n) ∧ ((w.freeSlotOf g h n).grove g).handle h =
    { (w.grove g).handle h with slots := setAt ((w.grove g).handle h).slots n 0 } := by
  unfold Work.freeSlotOf
  dsimp only
  split
  · refine ⟨quiet_changeHandle.trans (sendTok_uncounted rfl).1, ?_⟩
    rw [grove_of_groves (sendTok_uncounted rfl).2]
    exact changeHandle_same
  · exact ⟨quiet_changeHandle, changeHandle_same⟩

end Sys2Proof.Proofs
end

section
/-! HFILL, HTAKE, HPOST, HFREE, HWAIT, HSTAT, and rings made anew (R236 to R239). -/

namespace Sys2Proof.Proofs

open Sys2Proof.Machine Sys2Proof.Safety Sys2Proof.Laws

variable {s : State} {g m h k : Nat} {a b d : BitVec 5} {i : Instr}

/-- An instruction that writes a register and goes on, with a handle changed beside and no byte written. -/
theorem did_handle {f : Nat → Work → Except Stop Work} {v : Word} {w : Work} {x : Handle} (r : Ready s g) (ok : i.coreOk = true)
    (e : exec i s = run s (coreInstr i f)) (quiet : Quiet (Work.of s) w) (gives : f g (Work.of s) = w.give g d v)
    (becomes : (w.grove m).handle h = x) : ∃ t, Did s g i d v t ∧ t.mem = s.mem ∧ handleOf t m h = x := by
  obtain ⟨t, did, groves, mem⟩ := did_giving r ok e quiet.toSameRun gives
  exact ⟨t, did, mem.trans (congrArg s.mem.write quiet.log), (handleOf_of_groves groves m h).trans becomes⟩

/-! ## Taking the slot at a head (R239) -/

/-- The head of a ring: where slots are filled, or where they are drained (R236). -/
def headOf (fill : Bool) (x : Handle) : Nat := if fill then x.fh else x.dh

/-- The slot at a head can be taken: it is free, or full (R239). -/
def HeadReady (fill : Bool) (x : Handle) : Prop := x.slots.getD (headOf fill x) 9 = if fill then 0 else 2

/-- HFILL and HTAKE in both forms, which head each takes from, and whether it only tries. -/
def takeForms (d a : BitVec 5) : List (Instr × Bool × Bool) :=
  [(.hfill d a, true, false), (.hfillTry d a, true, true), (.htake d a, false, false), (.htakeTry d a, false, true)]

theorem takeForms_run {fill tryOnly : Bool} (form : (i, fill, tryOnly) ∈ takeForms d a) (s : State) :
    exec i s = run s (coreInstr i (takeHead fill tryOnly d a)) := by
  simp only [takeForms, List.mem_cons, List.not_mem_nil, or_false, Prod.mk.injEq] at form
  rcases form with ⟨rfl, rfl, rfl⟩ | ⟨rfl, rfl, rfl⟩ | ⟨rfl, rfl, rfl⟩ | ⟨rfl, rfl, rfl⟩ <;> rfl

section

variable {fill tryOnly : Bool} (names : (Work.of s).handleAt g (reg s g a) false = .ok (m, h))
  (form : (i, fill, tryOnly) ∈ takeForms d a) (ok : i.coreOk = true)
include names form ok

theorem take_takes (r : Ready s g) (ready : HeadReady fill (handleOf s m h)) :
    ∃ t, Did s g i d (BitVec.ofNat 64 ((handleOf s m h).base + headOf fill (handleOf s m h) * (handleOf s m h).slotsz)) t ∧
      t.mem = s.mem ∧ handleOf t m h = (handleOf s m h).take fill :=
  did_handle r ok (takeForms_run form s) ((quiet_acquire _ g).trans quiet_changeHandle)
    ((congrArg (· >>= _) names).trans (if_pos ready)) changeHandle_same

theorem take_tries (r : Ready s g) (busy : ¬ HeadReady fill (handleOf s m h)) (t : tryOnly = true) :
    Gives s g i d (BitVec.allOnes 64) :=
  (takeForms_run form s).trans (coreInstr_give r ok
    (((congrArg (· >>= _) names).trans (if_neg busy)).trans (if_pos t)))

theorem take_suspends {live : BitVec 32} (o : OnCore s g) (busy : ¬ HeadReady fill (handleOf s m h)) (t : tryOnly = false)
    (may : MaySuspend s g live (coreOf s g).pc) :
    Suspends s g i 5 ((reg s g a).toNat % 65536) none 0 (coreOf s g).pc live false :=
  suspends_of_suspend o ok (takeForms_run form s) may
    (((congrArg (· >>= _) names).trans (if_neg busy)).trans (if_neg (Bool.eq_false_iff.1 t)))

end

/-! ## Slots posted and freed (R239) -/

section

variable (names : (Work.of s).handleAt g (reg s g a) false = .ok (m, h)) (slot : (handleOf s m h).slotOf (reg s g b) = some k)
include names slot

/-- HPOST and HFREE find the slot that they name in the state that they take, or raise Permission (R239). -/
theorem namedSlot_eq (st : Nat) : (Work.of s).namedSlot g a b st =
    if (handleOf s m h).slots.getD k 9 = st then .ok (m, h, k) else .error (flt 0x09) := by
  have names' : (Work.of s).handleAt g ((Work.of s).g g a) false = .ok (m, h) := names
  have slot' : (((Work.of s).grove m).handle h).slotOf ((Work.of s).g g b) = some k := slot
  simp only [Work.namedSlot, names', bind, Except.bind, slot']
  rfl

theorem hpost_posts (r : Ready s g) (ok : (Instr.hpost a b).coreOk = true) (filling : (handleOf s m h).slots.getD k 9 = 1) :
    ∃ t, Did s g (.hpost a b) 0 0 t ∧ t.mem = s.mem ∧
      handleOf t m h = { handleOf s m h with slots := setAt (handleOf s m h).slots k 2 } :=
  did_handle r ok rfl ((quiet_acquire _ g).trans quiet_postSlot)
    ((congrArg (· >>= _) ((namedSlot_eq names slot 1).trans (if_pos filling))).trans (give_zero _ g 0).symm) postSlot_same

theorem hfree_frees (r : Ready s g) (ok : (Instr.hfree a b).coreOk = true) (draining : (handleOf s m h).slots.getD k 9 = 3) :
    ∃ t, Did s g (.hfree a b) 0 0 t ∧ t.mem = s.mem ∧
      handleOf t m h = { handleOf s m h with slots := setAt (handleOf s m h).slots k 0 } :=
  did_handle r ok rfl ((quiet_acquire _ g).trans freeSlotOf_changes.1)
    ((congrArg (· >>= _) ((namedSlot_eq names slot 3).trans (if_pos draining))).trans (give_zero _ g 0).symm)
    freeSlotOf_changes.2

theorem hpost_refused (o : OnCore s g) (ok : (Instr.hpost a b).coreOk = true)
    (other : (handleOf s m h).slots.getD k 9 ≠ 1) : Raises s g (.hpost a b) 0x09 0 :=
  coreInstr_fault o ok (congrArg (· >>= _) ((namedSlot_eq names slot 1).trans (if_neg other)))

theorem hfree_refused (o : OnCore s g) (ok : (Instr.hfree a b).coreOk = true)
    (other : (handleOf s m h).slots.getD k 9 ≠ 3) : Raises s g (.hfree a b) 0x09 0 :=
  coreInstr_fault o ok (congrArg (· >>= _) ((namedSlot_eq names slot 3).trans (if_neg other)))

end

/-! ## Counts waited for, words read, rings made anew (R236, R239) -/

/-- HWAIT's word asks for free or filled slots, no more than the ring has, and its other bits are zero (R239). -/
theorem hwait_word {v : Word} {n : Nat} (zero : v.toNat / 2 ^ 9 % 2 ^ 53 = 0) (side : v.toNat / 2 ^ 62 ≤ 1)
    (fits : v.toNat % 2 ^ 9 ≤ n) :
    (decide (fld v 61 9 = 0) && decide (fld v 63 62 ≤ 1) && decide (fld v 8 0 ≤ n)) = true := by
  have kind : fld v 63 62 ≤ 1 := by rw [fld_eq]; omega
  have count : fld v 8 0 ≤ n := by rw [fld_eq]; omega
  simp only [show fld v 61 9 = 0 from zero, kind, count, decide_true, Bool.and_self]

theorem hwait_reached (names : (Work.of s).handleAt g (reg s g a) false = .ok (m, h)) (r : Ready s g)
    (ok : (Instr.hwait d a b).coreOk = true) (zero : (reg s g b).toNat / 2 ^ 9 % 2 ^ 53 = 0) (side : (reg s g b).toNat / 2 ^ 62 ≤ 1)
    (fits : (reg s g b).toNat % 2 ^ 9 ≤ (handleOf s m h).nslot)
    (reached : (reg s g b).toNat % 2 ^ 9 ≤
      (if (reg s g b).toNat / 2 ^ 62 = 0 then (handleOf s m h).free else (handleOf s m h).filled)) :
    ∃ t, Did s g (.hwait d a b) d ((handleOf s m h).word 2) t ∧ t.mem = s.mem := by
  have count : fld (reg s g b) 8 0 ≤
      (if fld (reg s g b) 63 62 = 0 then (handleOf s m h).free else (handleOf s m h).filled) := by
    have top : fld (reg s g b) 63 62 = (reg s g b).toNat / 2 ^ 62 := by rw [fld_eq]; omega
    have low : fld (reg s g b) 8 0 = (reg s g b).toNat % 2 ^ 9 := by rw [fld_eq]; omega
    rwa [top, low]
  have checked := hwait_word zero side fits
  exact did_acquire r ok rfl (((congrArg (· >>= _) names).trans (need_holds checked 0x09 _)).trans (if_pos count))

theorem hstat_answers {n : BitVec 2} (names : (Work.of s).handleAt g (reg s g a) true = .ok (m, h)) (r : Ready s g)
    (ok : (Instr.hstat d a n).coreOk = true) :
    ∃ t, Did s g (.hstat d a n) d ((handleOf s m h).word n.toNat) t ∧ t.mem = s.mem :=
  did_acquire r ok rfl (congrArg (· >>= _) names)

/-- A ring made anew has its heads at its first slot, every slot free, and the fields of its words (R236). -/
theorem init_fields (w0 w8 w24 : Word) : (Handle.init w0 w8 w24).fh = 0 ∧ (Handle.init w0 w8 w24).dh = 0 ∧
    (∀ z ∈ (Handle.init w0 w8 w24).slots, z = 0) ∧ (Handle.init w0 w8 w24).nslot = w8.toNat % 2 ^ 9 ∧
    (Handle.init w0 w8 w24).slotsz = w8.toNat / 2 ^ 32 ∧ (Handle.init w0 w8 w24).base = w0.toNat % 2 ^ 57 := by
  refine ⟨rfl, rfl, fun z mem => List.eq_of_mem_replicate mem, ?_, ?_, ?_⟩
  all_goals
    simp only [Handle.init, fld_eq]
    omega

theorem reinit_renews (second : Bool) (v : Word) : ∃ t w0 w8, exec (.handleReinit m h second v) s = .next t ∧
    handleOf t m h = Handle.init w0 w8 (handleOf s m h).w24 ∧ (if second then w8 else w0) = v ∧ t.mem = s.mem := by
  refine ⟨_, if second then bv 64 ((handleOf s m h).kind * 2 ^ 62 + (handleOf s m h).base) else v,
    if second then v else bv 64 ((handleOf s m h).slotsz * 2 ^ 32 + (handleOf s m h).nslot), rfl, ?_, ?_, ?_⟩
  · exact (handleOf_of_groves (finish_groves s _) m h).trans changeHandle_same
  · cases second <;> rfl
  · exact congrArg s.mem.write (quiet_changeHandle (w := Work.of s)).log

/-- Settles O22, instruction by instruction. -/
theorem handles : Obligations.Handles := by
  refine ⟨fun s g d a m h o names i fill tryOnly form ok => ⟨fun ready go => ?_, fun busy t r => ?_, fun live busy t may => ?_⟩,
    fun s g a b d m h o names => ⟨fun i old new form ok k slot => ?_, fun ok zero side fits reached go => ?_,
      fun n m' h' ok names' go => ?_, fun second v => ?_⟩⟩
  · exact take_takes names form ok ⟨o, go⟩ ready
  · exact take_tries names form ok r busy t
  · exact take_suspends names form ok o busy t may
  · simp only [List.mem_cons, List.not_mem_nil, or_false, Prod.mk.injEq] at form
    obtain ⟨rfl, rfl, rfl⟩ | ⟨rfl, rfl, rfl⟩ := form
    · refine ⟨fun filling go => ?_, hpost_refused names slot o ok⟩
      obtain ⟨t, did, mem, becomes⟩ := hpost_posts names slot ⟨o, go⟩ ok filling
      exact ⟨t, did, becomes, mem⟩
    · refine ⟨fun draining go => ?_, hfree_refused names slot o ok⟩
      obtain ⟨t, did, mem, becomes⟩ := hfree_frees names slot ⟨o, go⟩ ok draining
      exact ⟨t, did, becomes, mem⟩
  · exact hwait_reached names ⟨o, go⟩ ok zero side fits reached
  · exact hstat_answers names' ⟨o, go⟩ ok
  · obtain ⟨t, w0, w8, e, becomes, word, mem⟩ := reinit_renews (s := s) (m := m) (h := h) second v
    obtain ⟨fh, dh, slots, nslot, slotsz, base⟩ := init_fields w0 w8 (handleOf s m h).w24
    rw [← becomes] at fh dh slots nslot slotsz base
    refine ⟨t, e, fh, dh, slots, mem, ?_⟩
    cases second
    · exact base.trans (congrArg (fun x : Word => x.toNat % 2 ^ 57) word)
    · exact ⟨nslot.trans (congrArg (fun x : Word => x.toNat % 2 ^ 9) word),
        slotsz.trans (congrArg (fun x : Word => x.toNat / 2 ^ 32) word)⟩

end Sys2Proof.Proofs
end

section
/-! ENG: the commands of engine contexts checked and queued, and queued operations cancelled (R222, R225, R232). -/

namespace Sys2Proof.Proofs

open Sys2Proof.Machine Sys2Proof.Safety Sys2Proof.Laws

variable {s : State} {w : Work} {g k n : Nat} {i : Instr} {d e h : BitVec 5} {c : BitVec 3}

/-! ## Engine contexts changed -/

theorem engine_updEngine (f : Engine → Engine) : ((w.updEngine g k f).grove g).engine k = f ((w.grove g).engine k) := by
  rw [Work.updEngine, updGrove_eq, setGrove_same, Grove.engine, getD_put_same, Grove.engine]

theorem quiet_updEngine (f : Engine → Engine) : Quiet w (w.updEngine g k f) := quiet_setGrove w g rfl

/-- An access leaves every engine context. -/
theorem keeps_engine {v : Work} (keeps : Keeps w v) (g k : Nat) : (v.grove g).engine k = (w.grove g).engine k := by
  obtain ⟨_, _, e⟩ := keeps.groves g
  rw [e, Grove.engine, Grove.engine]

/-- A context with an operation queued under its next number (R222). -/
def queued (x : Engine) (op : Nat) (desc : BitVec 512) (b : Word) (super : Bool) (time : Nat) : Engine :=
  { x with issued := x.issued + 1, queue := x.queue ++ [EngOp.new (x.issued + 1) op desc b super time] }

/-! ## Commands that move bytes (R225) -/

theorem engCode_run (code : engCode i = some (n, d, e, h, c)) (s : State) :
    exec i s = run s (coreInstr i (engIssue n d e h c)) := by
  unfold engCode at code
  split at code
  all_goals cases code
  all_goals rfl

theorem eng_misaligned (o : OnCore s g) (ok : i.coreOk = true) (code : engCode i = some (n, d, e, h, c))
    (al : (reg s g e).toNat % 64 ≠ 0) : Raises s g i 0x03 (reg s g e).toNat :=
  (engCode_run code s).trans (coreInstr_fault o ok (needAt_fails (decide_eq_false al) _ _ _))

section

variable {bs : List Byte} (al : (reg s g e).toNat % 64 = 0) (reads : Reads s g (reg s g e).toNat 64 bs w)
include al reads

/-- A command whose descriptor can be read comes to its checks, in turn, and its place in the queue (R225). -/
theorem engIssue_read : engIssue n d e h c g (Work.of s) =
    (need (w.descOk g n (BitVec.ofNat 512 (leNat bs)) (reg s g h)) 0x05 >>= fun _ =>
      need (!(engineOf s g c.toNat).holdsSignal) 0x09 >>= fun _ =>
        if 16 ≤ (engineOf s g c.toNat).queue.length then .error .stall
        else (w.updEngine g c.toNat fun x => queued x n (BitVec.ofNat 512 (leNat bs)) (reg s g h) ((Work.of s).super g)
          (w.ptime (.core g))).give g d (BitVec.ofNat 64 ((engineOf s g c.toNat).issued + 1))) := by
  have context : engineOf s g c.toNat = (w.grove g).engine c.toNat := (keeps_engine (keeps_vread reads) g c.toNat).symm
  have read : stopAt ((Work.of s).vread ((Work.of s).accCore g) (reg s g e).toNat 64) = .ok (bs, w) := congrArg stopAt reads
  rw [context]
  exact (needAt_holds (decide_eq_true al) _ _ _).trans (congrArg (· >>= _) read)

variable (o : OnCore s g) (ok : i.coreOk = true) (code : engCode i = some (n, d, e, h, c))
include o ok code

theorem eng_rejected (bad : w.descOk g n (BitVec.ofNat 512 (leNat bs)) (reg s g h) = false) : Raises s g i 0x05 0 :=
  (engCode_run code s).trans (coreInstr_fault o ok ((engIssue_read al reads).trans (need_fails bad _ _)))

variable (good : w.descOk g n (BitVec.ofNat 512 (leNat bs)) (reg s g h) = true)
include good

theorem eng_signal (signal : (engineOf s g c.toNat).holdsSignal = true) : Raises s g i 0x09 0 :=
  (engCode_run code s).trans (coreInstr_fault o ok (((engIssue_read al reads).trans (need_holds good _ _)).trans
    (need_fails (by rw [signal]; rfl) _ _)))

variable (free : (engineOf s g c.toNat).holdsSignal = false)
include free

theorem eng_full (full : 16 ≤ (engineOf s g c.toNat).queue.length) : Holds s g i :=
  (engCode_run code s).trans (coreInstr_hold o ok ((((engIssue_read al reads).trans (need_holds good _ _)).trans
    (need_holds (by rw [free]; rfl) _ _)).trans (if_pos full)))

theorem eng_queues (room : (engineOf s g c.toNat).queue.length < 16) (go : MayGo s g (coreOf s g).step.pc) :
    ∃ t, Did s g i d (BitVec.ofNat 64 ((engineOf s g c.toNat).issued + 1)) t ∧
      engineOf t g c.toNat = queued (engineOf s g c.toNat) n (BitVec.ofNat 512 (leNat bs)) (reg s g h)
        ((Work.of s).super g) (w.ptime (.core g)) := by
  obtain ⟨t, did, groves, -⟩ := did_giving ⟨o, go⟩ ok (engCode_run code s)
    ((sameRun_of_keeps (keeps_vread reads)).trans (quiet_updEngine _).toSameRun)
    ((((engIssue_read al reads).trans (need_holds good _ _)).trans (need_holds (by rw [free]; rfl) _ _)).trans
      (if_neg (Nat.not_le.2 room)))
  have context := (engineOf_of_groves groves g c.toNat).trans (engine_updEngine _)
  rw [keeps_engine (keeps_vread reads)] at context
  exact ⟨t, did, context⟩

end

/-! ## SCANC (R232) -/

/-- A work in which a context's queued operations from a point on are cancelled, those that have not started or are bound. -/
def cancelledFrom (w : Work) (g k : Nat) (p : Word) : Work :=
  w.updEngine g k fun x => { x with queue := x.queue.map fun o => o.cancel p }

theorem scanc_cancels (o : OnCore s g) (ok : (Instr.scanc d h c).coreOk = true)
    (free : (engineOf s g c.toNat).holdsSignal = false) (room : (engineOf s g c.toNat).queue.length < 16)
    (go : MayGo s g (coreOf s g).step.pc) :
    ∃ t time, Did s g (.scanc d h c) d (BitVec.ofNat 64 ((engineOf s g c.toNat).issued + 1)) t ∧ t.mem = s.mem ∧
      (engineOf t g c.toNat).queue = ((engineOf s g c.toNat).queue.map fun o => o.cancel (reg s g h)) ++
        [EngOp.new ((engineOf s g c.toNat).issued + 1) 9 0 (reg s g h) ((Work.of s).super g) time] := by
  have cancelled : ((cancelledFrom (Work.of s) g c.toNat (reg s g h)).grove g).engine c.toNat = _ := engine_updEngine _
  have quiet : Quiet (Work.of s) ((cancelledFrom (Work.of s) g c.toNat (reg s g h)).updEngine g c.toNat fun x =>
      queued x 9 0 (reg s g h) ((Work.of s).super g) ((cancelledFrom (Work.of s) g c.toNat (reg s g h)).ptime (.core g))) :=
    (quiet_updEngine _).trans (quiet_updEngine _)
  have signal : (!(engineOf s g c.toNat).holdsSignal) = true := by rw [free]; rfl
  obtain ⟨t, did, groves, mem⟩ := did_giving
    (v := BitVec.ofNat 64 (((((cancelledFrom (Work.of s) g c.toNat (reg s g h)).grove g).engine c.toNat).issued) + 1))
    ⟨o, go⟩ ok rfl quiet.toSameRun ((need_holds signal 0x09 _).trans (if_neg (Nat.not_le.2 room)))
  have context := (engineOf_of_groves groves g c.toNat).trans (engine_updEngine _)
  rw [cancelled] at did context
  exact ⟨t, _, did, mem.trans (congrArg s.mem.write quiet.log), congrArg Engine.queue context⟩

/-- Settles O20, check by check. -/
theorem engineIssue : Obligations.EngineIssue := by
  refine ⟨fun s g n i d e h c code o ok => ⟨eng_misaligned o ok code, fun bs w al reads =>
      ⟨eng_rejected al reads o ok code, eng_signal al reads o ok code, eng_full al reads o ok code, fun good free room go => ?_⟩⟩,
    fun s g d h c o ok free room go => ?_⟩
  · obtain ⟨t, did, context⟩ := eng_queues al reads o ok code good free room go
    exact ⟨t, did, congrArg Engine.issued context, congrArg Engine.queue context⟩
  · obtain ⟨t, time, did, mem, queue⟩ := scanc_cancels o ok free room go
    exact ⟨t, EngOp.new ((engineOf s g c.toNat).issued + 1) 9 0 (reg s g h) ((Work.of s).super g) time, did, mem,
      queue, rfl, rfl⟩

end Sys2Proof.Proofs
end

section
/-! The life of an engine's operation: it starts, takes its slots, and completes, and bytes join a drain port (R222, R230, R242,
R244). -/

namespace Sys2Proof.Proofs

open Sys2Proof.Machine Sys2Proof.Safety Sys2Proof.Laws

variable {s : State} {w v : Work} {g k h : Nat} {b : Word} {o p : EngOp} {q : List EngOp}

/-! ## The head of a context (R222) -/

theorem setHead_queue (head : ((w.grove g).engine k).queue = o :: q) : (((w.setHead g k p).grove g).engine k).queue = p :: q := by
  rw [Work.setHead, engine_updEngine, head]
  rfl

theorem setHead_handle : ((w.setHead g k p).grove g).handle h = (w.grove g).handle h := by
  rw [Work.setHead, Work.updEngine, updGrove_eq, setGrove_same, Grove.handle, Grove.handle]

theorem engineOpStart_starts (head : (engineOf s g k).queue = o :: q) (runs : (regionAt s g).runs = true) (moves : o.moves = true)
    (idle : o.running = false) (noFiring : o.firing = false) (kept : o.cancelled = false) :
    ∃ t, exec (.engineOpStart g k) s = .next t ∧ t.mem = s.mem ∧
      (engineOf t g k).queue = { o with running := true, firing := !o.bound && o.op != 4 } :: q := by
  have e : exec (.engineOpStart g k) s =
      .next (s.finish ((Work.of s).setHead g k { o with running := true, firing := !o.bound && o.op != 4 })) := by
    refine next_congr ?_
    have head' : (((Work.of s).grove g).engine k).queue = o :: q := head
    have runs' : ((Work.of s).regOf g).runs = true := runs
    simp only [head', runs', moves, idle, noFiring, kept, Bool.true_eq_false, Bool.false_eq_true, and_true, or_self, if_true,
      if_false]
  exact ⟨_, e, rfl, setHead_queue head⟩

/-! ## Slots taken (R242, R244) -/

/-- Handles are changed, and every engine context stands. -/
structure Takes (g : Nat) (w v : Work) : Prop extends Quiet w v where
  engines : ∀ k, (v.grove g).engine k = (w.grove g).engine k

theorem Takes.refl (g : Nat) (w : Work) : Takes g w w := ⟨.refl w, fun _ => rfl⟩

theorem Takes.trans {u : Work} (a : Takes g u w) (c : Takes g w v) : Takes g u v :=
  ⟨a.toQuiet.trans c.toQuiet, fun k => (c.engines k).trans (a.engines k)⟩

theorem takes_changeHandle (w : Work) (g h : Nat) (x : Handle) : Takes g w (w.changeHandle g h x) :=
  ⟨quiet_changeHandle, fun _ => changeHandle_engine⟩

/-- Output slots taken from the fill head, where a handle is bound (R242). -/
def takeOutput (w : Work) (g : Nat) (b : Word) : List Nat × Work :=
  if bnOv b then
    let t := takeSlots true (bnOcnt b) ((w.grove g).handle (bnOut b))
    (t.2, w.changeHandle g (bnOut b) t.1)
  else ([], w)

theorem takes_takeInput (w : Work) (g : Nat) (b : Word) : Takes g w (w.takeInput g b).2 := by
  unfold Work.takeInput
  split
  · exact takes_changeHandle w g _ _
  · exact .refl g w

theorem takes_takeOutput (w : Work) (g : Nat) (b : Word) : Takes g w (takeOutput w g b).2 := by
  unfold takeOutput
  split
  · exact takes_changeHandle w g _ _
  · exact .refl g w

theorem takeInput_slots : (w.takeInput g b).1 =
    if bnIv b then (takeSlots false (bnIcnt b) ((w.grove g).handle (bnIn b))).2 else [] := by
  unfold Work.takeInput
  split <;> rfl

theorem takeOutput_slots : (takeOutput w g b).1 =
    if bnOv b then (takeSlots true (bnOcnt b) ((w.grove g).handle (bnOut b))).2 else [] := by
  unfold takeOutput
  split <;> rfl

theorem takeInput_handle (iv : bnIv b = true) : (((w.takeInput g b).2.grove g).handle (bnIn b)) =
    (takeSlots false (bnIcnt b) ((w.grove g).handle (bnIn b))).1 := by
  rw [Work.takeInput, if_pos iv]
  exact changeHandle_same

theorem takeOutput_handle (ov : bnOv b = true) : (((takeOutput w g b).2.grove g).handle (bnOut b)) =
    (takeSlots true (bnOcnt b) ((w.grove g).handle (bnOut b))).1 := by
  rw [takeOutput, if_pos ov]
  exact changeHandle_same

theorem takeInput_other (other : bnIv b = true → bnIn b ≠ h) : ((w.takeInput g b).2.grove g).handle h = (w.grove g).handle h := by
  unfold Work.takeInput
  split
  · next iv => exact changeHandle_other (other iv)
  · rfl

theorem takeOutput_other (other : bnOv b = true → bnOut b ≠ h) :
    ((takeOutput w g b).2.grove g).handle h = (w.grove g).handle h := by
  unfold takeOutput
  split
  · next ov => exact changeHandle_other (other ov)
  · rfl

/-! ## A bound operation's firing (R242) -/

/-- The work in which a bound operation has taken its slots. -/
def slotsTaken (w : Work) (g : Nat) (b : Word) : Work := (takeOutput (w.takeInput g b).2 g b).2

/-- A bound operation with its slots taken, its firing under way. -/
def firingOf (w : Work) (g : Nat) (o : EngOp) : EngOp :=
  { o with
    firing := true
    moved := 0
    inSlots := (w.takeInput g o.bind).1
    outSlots := (takeOutput (w.takeInput g o.bind).2 g o.bind).1 }

/-- A bound operation may fire, its input is full enough, and its output has room (R242). -/
structure BoundReady (s : State) (g : Nat) (o : EngOp) : Prop where
  runs : (regionAt s g).runs = true
  bound : o.bound = true
  plain : o.op ≠ 4
  mayFire : o.mayFire = true
  input : (Work.of s).inputReady g o.bind = true
  room : bnOv o.bind = true → bnOcnt o.bind ≤ (handleOf s g (bnOut o.bind)).free

theorem exec_boundFiring (head : (engineOf s g k).queue = o :: q) (r : BoundReady s g o) : exec (.boundFiring g k) s =
    .next (s.finish ((slotsTaken (Work.of s) g o.bind).setHead g k
      ((firingOf (Work.of s) g o).located (slotsTaken (Work.of s) g o.bind) g))) := by
  obtain ⟨runs, bound, plain, mayFire, input, room⟩ := r
  refine next_congr ?_
  have head' : (((Work.of s).grove g).engine k).queue = o :: q := head
  have may : o.bound = true ∧ o.op ≠ 4 ∧ o.mayFire = true ∧ ((Work.of s).regOf g).runs = true ∧
      (Work.of s).inputReady g o.bind = true ∧
      (bnOv o.bind = false ∨ bnOcnt o.bind ≤ (((Work.of s).grove g).handle (bnOut o.bind)).free) :=
    ⟨bound, plain, mayFire, runs, input, (Bool.eq_false_or_eq_true _).symm.imp_right room⟩
  simp only [head']
  rw [if_pos may]
  unfold slotsTaken firingOf takeOutput
  cases ov : bnOv o.bind <;> rfl

theorem boundFiring_takes (head : (engineOf s g k).queue = o :: q) (r : BoundReady s g o)
    (apart : bnIv o.bind = true → bnOv o.bind = true → bnIn o.bind ≠ bnOut o.bind) :
    ∃ t p, exec (.boundFiring g k) s = .next t ∧ (engineOf t g k).queue = p :: q ∧ p.firing = true ∧ p.moved = 0 ∧
      p.inSlots = (if bnIv o.bind then (takeSlots false (bnIcnt o.bind) (handleOf s g (bnIn o.bind))).2 else []) ∧
      p.outSlots = (if bnOv o.bind then (takeSlots true (bnOcnt o.bind) (handleOf s g (bnOut o.bind))).2 else []) ∧
      (bnIv o.bind = true → handleOf t g (bnIn o.bind) = (takeSlots false (bnIcnt o.bind) (handleOf s g (bnIn o.bind))).1) ∧
      (bnOv o.bind = true → handleOf t g (bnOut o.bind) = (takeSlots true (bnOcnt o.bind) (handleOf s g (bnOut o.bind))).1) ∧
      t.mem = s.mem := by
  have takes : Takes g (Work.of s) (slotsTaken (Work.of s) g o.bind) := (takes_takeInput _ g _).trans (takes_takeOutput _ g _)
  have output (ov : bnOv o.bind = true) :
      ((((Work.of s).takeInput g o.bind).2.grove g).handle (bnOut o.bind)) = handleOf s g (bnOut o.bind) :=
    takeInput_other fun iv => apart iv ov
  refine ⟨_, _, exec_boundFiring head r, setHead_queue ((congrArg Engine.queue (takes.engines k)).trans head), rfl, rfl,
    takeInput_slots, ?_, fun iv => ?_, fun ov => ?_, congrArg s.mem.write takes.log⟩
  · refine takeOutput_slots.trans (if_ctx_congr .rfl (fun ov => ?_) fun _ => rfl)
    rw [output ov]
  · exact setHead_handle.trans ((takeOutput_other fun ov => (apart iv ov).symm).trans (takeInput_handle iv))
  · refine setHead_handle.trans ((takeOutput_handle ov).trans ?_)
    rw [output ov]

/-! ## A multicast's firing (R244) -/

theorem takes_takeBranches (g : Nat) (o : EngOp) : ∀ (js : List Nat) (w : Work), Takes g w (takeBranches g o js w).2
  | [], w => .refl g w
  | j :: js, w => by
    rw [takeBranches]
    split
    · exact takes_takeBranches g o js w
    · exact (takes_changeHandle w g _ _).trans (takes_takeBranches g o js _)

theorem takeBranches_length (g : Nat) (o : EngOp) : ∀ (js : List Nat) (w : Work), (takeBranches g o js w).1.length = js.length
  | [], _ => rfl
  | j :: js, w => by
    rw [takeBranches]
    split <;> exact congrArg (· + 1) (takeBranches_length g o js _)

theorem smcastFiring_takes (head : (engineOf s g k).queue = o :: q) (runs : (regionAt s g).runs = true) (op : o.op = 4)
    (mayFire : o.mayFire = true) (input : (Work.of s).inputReady g o.bind = true)
    (room : ∀ j < deBranches o.desc, 1 ≤ (handleOf s g (deBranch o.desc j)).free) :
    ∃ t p, exec (.smcastFiring g k) s = .next t ∧ (engineOf t g k).queue = p :: q ∧ p.firing = true ∧ p.moved = 0 ∧
      p.outSlots.length = deBranches o.desc ∧ t.mem = s.mem := by
  have branches : ((List.range (deBranches o.desc)).all fun j =>
      o.detached.contains j || decide (1 ≤ (((Work.of s).grove g).handle (deBranch o.desc j)).free)) = true :=
    List.all_eq_true.2 fun j mem => Bool.or_eq_true_iff.2 (.inr (decide_eq_true (room j (List.mem_range.1 mem))))
  have takes := (takes_takeInput (Work.of s) g o.bind).trans (takes_takeBranches g o (List.range (deBranches o.desc)) _)
  have e : exec (.smcastFiring g k) s = .next (s.finish
      ((takeBranches g o (List.range (deBranches o.desc)) ((Work.of s).takeInput g o.bind).2).2.setHead g k
        { o with
          firing := true
          moved := 0
          inSlots := ((Work.of s).takeInput g o.bind).1
          outSlots := (takeBranches g o (List.range (deBranches o.desc)) ((Work.of s).takeInput g o.bind).2).1 })) := by
    refine next_congr ?_
    have head' : (((Work.of s).grove g).engine k).queue = o :: q := head
    simp only [head']
    exact if_pos ⟨op, mayFire, runs, input, branches⟩
  exact ⟨_, _, e, setHead_queue ((congrArg Engine.queue (takes.engines k)).trans head), rfl, rfl,
    (takeBranches_length ..).trans List.length_range, congrArg s.mem.write takes.log⟩

/-! ## Completion (R222, R224) -/

/-- No engine context differs. -/
def SameEngines (w v : Work) : Prop := ∀ g k, (v.grove g).engine k = (w.grove g).engine k

theorem SameEngines.refl (w : Work) : SameEngines w w := fun _ _ => rfl

theorem SameEngines.trans {u : Work} (a : SameEngines u w) (c : SameEngines w v) : SameEngines u v :=
  fun g k => (c g k).trans (a g k)

theorem SameEngines.foldl {α : Type} {f : Work → α → Work} (h : ∀ v a, SameEngines v (f v a)) :
    ∀ (l : List α) (w : Work), SameEngines w (l.foldl f w)
  | [], w => .refl w
  | a :: l, w => (h w a).trans (SameEngines.foldl h l (f w a))

theorem sameEngines_of_groves (e : v.groves = w.groves) : SameEngines w v := fun g _ => by rw [grove_of_groves e g]

theorem sameEngines_setGrove {x : Grove} (e : x.engines = (w.grove g).engines) : SameEngines w (w.setGrove g x) := fun n k => by
  rw [grove_setGrove]
  split
  · next same => rw [← same, Grove.engine, Grove.engine, e]
  · rfl

theorem sameEngines_noteCanopy (w : Work) (g : Nat) (o : EngOp) : SameEngines w (w.noteCanopy g o) :=
  SameEngines.foldl (fun v h => sameEngines_of_groves (w := v) (setMx_groves v h _)) _ w

theorem sameEngines_setResid (w : Work) (g : Nat) (t : Tbl Resid) : SameEngines w (w.setResid g t) := by
  unfold Work.setResid
  refine sameEngines_setGrove ?_
  dsimp only
  split <;> rfl

theorem sameEngines_residBank (w : Work) (g asid va n : Nat) (gain : Bool) : SameEngines w (w.residBank g asid va n gain) :=
  SameEngines.foldl (fun v _ => sameEngines_setResid v g _) _ w

theorem sameEngines_wakeTimeline (w : Work) (g t : Nat) : SameEngines w (w.wakeTimeline g t) := by
  unfold Work.wakeTimeline
  exact sameEngines_of_groves (mapRecs_groves w _ _ _)

/-- What groves have sent forgotten in part leaves their engine contexts. -/
theorem sameEngines_filterSent (w : Work) (mine : Sent → Bool) :
    SameEngines w { w with groves := w.groves.map fun e => (e.1, { e.2 with sent := e.2.sent.filter mine }) } := fun g k => by
  have grove := getD_map_vals (fun x : Grove => { x with sent := x.sent.filter mine }) (d := Grove.reset) rfl w.groves g
  have engine := congrArg (Grove.engine · k) grove
  exact engine

theorem ticked_plain {x : Engine} (plain : (x.queue.all fun p => p.op != 0xFD) = true) : x.ticked = x := by
  unfold Engine.ticked
  split
  · next o q head =>
    rw [head, List.all_cons, Bool.and_eq_true, bne_iff_ne] at plain
    rw [if_neg plain.1]
  · rfl

theorem fail_queue (x : Engine) (num code : Nat) : (x.fail num code).queue = x.queue := by
  unfold Engine.fail
  split <;> rfl

/-- A context whose head operation has completed, its error noted and its number given to the timeline (R222, R224). -/
def popped (x : Engine) (o : EngOp) : Engine :=
  let y := match o.err with
    | some c => x.fail o.num (c % 256)
    | none => x
  { y with queue := y.queue.tail, tl := o.num }.ticked

/-- Where no launch's signal is queued, the head leaves and the timeline takes its number. -/
theorem popped_plain {x : Engine} (head : x.queue = o :: q) (plain : (q.all fun p => p.op != 0xFD) = true) :
    (popped x o).queue = q ∧ (popped x o).tl = o.num := by
  have pops (y : Engine) (same : y.queue = o :: q) : ({ y with queue := y.queue.tail, tl := o.num } : Engine).ticked =
      { y with queue := q, tl := o.num } := by
    rw [same]
    exact ticked_plain plain
  unfold popped
  cases o.err with
  | none =>
    dsimp only
    rw [pops x head]
    exact ⟨rfl, rfl⟩
  | some c =>
    dsimp only
    rw [pops _ ((fail_queue x _ _).trans head)]
    exact ⟨rfl, rfl⟩

/-- Completion changes its own context, and after that no engine context (R222, R224). -/
theorem completeOp_engines (w : Work) (g k : Nat) (o : EngOp) :
    SameEngines (w.updEngine g k fun x => popped x o) (w.completeOp g k o) := by
  unfold Work.completeOp
  refine (sameEngines_noteCanopy _ g o).trans ((SameEngines.foldl (fun v n => sameEngines_residBank v _ _ _ _ _) o.notes _).trans
    (SameEngines.trans (iteInduction (motive := SameEngines _) (fun _ => ?_) fun _ => .refl _)
      (SameEngines.trans (iteInduction (motive := SameEngines _) (fun _ => sameEngines_filterSent _ _) fun _ => .refl _)
        (sameEngines_wakeTimeline _ g k))))
  exact sameEngines_of_groves (setCore_groves _ g _)

theorem completeOp_context (head : ((w.grove g).engine k).queue = o :: q) (plain : (q.all fun p => p.op != 0xFD) = true) :
    (((w.completeOp g k o).grove g).engine k).queue = q ∧ (((w.completeOp g k o).grove g).engine k).tl = o.num := by
  rw [completeOp_engines w g k o g k, engine_updEngine]
  exact popped_plain head plain

theorem engineOpComplete_completes (head : (engineOf s g k).queue = o :: q) (plain : (q.all fun p => p.op != 0xFD) = true)
    (done : (Work.of s).opDone g k o = true) :
    ∃ t, exec (.engineOpComplete g k) s = .next t ∧ (engineOf t g k).queue = q ∧ (engineOf t g k).tl = o.num := by
  have e : exec (.engineOpComplete g k) s = .next (s.finish ((Work.of s).completeOp g k o)) := by
    refine next_congr ?_
    have head' : (((Work.of s).grove g).engine k).queue = o :: q := head
    simp only [head']
    exact if_pos done
  exact ⟨_, e, completeOp_context (w := Work.of s) head plain⟩

/-! ## The drain port (R230) -/

theorem drainPortWrite_joins {v : Word} (free : (engineOf s g k).drainHeld = []) (room : (engineOf s g k).drain.length + 8 ≤ 4096) :
    ∃ t, exec (.drainPortWrite g k v) s = .next t ∧
      (engineOf t g k).drain = (engineOf s g k).drain ++ leBytes 8 v.toNat ∧ t.mem = s.mem ∧ t.cores = s.cores := by
  have given : (engineOf s g k).giveDrain .other (leBytes 8 v.toNat) =
      { engineOf s g k with drain := (engineOf s g k).drain ++ leBytes 8 v.toNat } :=
    if_pos ⟨by rw [free]; rfl, by rwa [leBytes_length]⟩
  exact ⟨_, rfl, (congrArg Engine.drain (engine_updEngine (w := Work.of s) fun x => x.giveDrain .other (leBytes 8 v.toNat))).trans
    (congrArg Engine.drain given), rfl, rfl⟩

/-- Settles O21, step by step. -/
theorem engineLife : Obligations.EngineLife := by
  refine fun s g k => ⟨fun o q head runs => ⟨engineOpStart_starts head runs, fun bound plain mayFire input room apart => ?_,
    smcastFiring_takes head runs⟩, fun o q head _ plain done => engineOpComplete_completes head plain done,
    fun v free room => drainPortWrite_joins free room⟩
  exact boundFiring_takes head ⟨runs, bound, plain, mayFire, input, room⟩ apart

end Sys2Proof.Proofs
end

section
/-! What a matrix instruction comes to on a task core and in a twig alike (R115, R251). -/

namespace Sys2Proof.Proofs

open Sys2Proof.Machine Sys2Proof.Safety Sys2Proof.Laws

variable {s : State} {g : Nat}

/-! ## What an instruction's work leaves -/

/-- A state that an instruction leaves from a work: no byte is written, groves' units are the work's, and matrix arrays are
the work's but for the handlers that their elements run. -/
structure LeftBy (s : State) (y : Work) (t : State) : Prop where
  mem : t.mem = s.mem
  groves : t.groves = y.groves
  mxs : ∀ g, ∃ twigs, mxOf t g = { y.mx g with twigs := twigs }

theorem LeftBy.tag {y : Work} {t : State} (h : LeftBy s y t) (g n : Nat) : (mxOf t g).tag n = (y.mx g).tag n := by
  obtain ⟨_, e⟩ := h.mxs g
  rw [e]
  rfl

theorem LeftBy.engine {y : Work} {t : State} (h : LeftBy s y t) (g k : Nat) : engineOf t g k = (y.grove g).engine k :=
  congrArg (Grove.engine · k) (congrArg (Tbl.getD · g Grove.reset) h.groves)

/-- A twig put in the place of an agent that has a twig context is read back. -/
theorem twigAt_setTwig_same {w : Work} {a : Agent} {t : Twig} (h : w.twigAt a = some t) (v : Work) (u : Twig) :
    (v.setTwig a u).twigAt a = some u := by
  cases a with
  | core g => cases h
  | twig c k => exact twigAt_setTwig v c k u
  | mx g k => simp [Work.setTwig, Work.twigAt]
  | debug c => simp [Work.setTwig, Work.twigAt]

theorem leftBy_of_same {y v : Work} (log : v.log = []) (groves : v.groves = y.groves) (mxs : v.mxs = y.mxs) :
    LeftBy s y (s.finish v) :=
  ⟨congrArg s.mem.write log, groves, fun g => ⟨(y.mx g).twigs, congrArg (Tbl.getD · g Mx.reset) mxs⟩⟩

/-- The twig that runs an instruction goes on in its place, and the instruction's work stands (R254, R412). -/
theorem leftBy_setTwig {y : Work} (quiet : y.log = []) (a : Agent) (u : Twig) : LeftBy s y (s.finish (y.setTwig a u)) := by
  cases a with
  | core _ | twig _ _ | debug _ => exact leftBy_of_same quiet rfl rfl
  | mx k x =>
    refine ⟨congrArg s.mem.write quiet, rfl, fun g => ?_⟩
    by_cases e : k = g
    · subst e
      exact ⟨_, setMx_same y k _⟩
    · exact ⟨_, setMx_other y _ e⟩

/-! ## A twig abandoned (R121, R255) -/

/-- An abandoned twig's context is free, its grove's region has one more record, of the fault's code, and no byte is written. -/
theorem abandon_leaves (w : Work) {a : Agent} {t : Twig} (h : w.twigAt a = some t) (code addr lsid : Nat) :
    (w.abandon a t code addr lsid).twigAt a = none ∧ (w.abandon a t code addr lsid).log = w.log ∧
      ∃ f, ((w.abandon a t code addr lsid).regOf (agentGrove a)).faults = (w.regOf (agentGrove a)).faults ++ [f] ∧ f.code = code := by
  have faults (v : Work) (r : Nat) (o : Frozen) (f : FaultRec) : ((v.freezeObj r o f).region r).faults =
      (v.region r).faults ++ [{ f with fseq := (v.region r).nextFseq, okind := o.okind }] :=
    congrArg Region.faults (setRegion_same v r _)
  cases a with
  | core g => cases h
  | mx g k =>
    refine ⟨?_, rfl, _, faults (w.dropTwig (.mx g k)) _ _ _, rfl⟩
    simp [Work.abandon, Work.twigAt, Work.dropTwig, Work.freezeObj]
  | twig c k =>
    refine ⟨?_, rfl, _, faults (w.dropTwig (.twig c k)) _ _ _, rfl⟩
    simp [Work.abandon, Work.twigAt, Work.dropTwig, Work.freezeNode, Work.freezeObj]
  | debug c =>
    refine ⟨?_, rfl, _, faults (w.dropTwig (.debug c)) _ _ _, rfl⟩
    simp [Work.abandon, Work.twigAt, Work.dropTwig, Work.freezeNode, Work.freezeObj]

/-! ## The frame (R251) -/

/-- What a matrix instruction's work comes to is what a statement says of it. -/
inductive Meets (s : State) : MxRes → MxSays → Prop
  | fails : Meets s .fail .fails
  | waits : Meets s .stall .waits
  | does {v : Word} {y : Work} {post : State → Prop} (quiet : Quiet (Work.of s) y) (holds : ∀ t, LeftBy s y t → post t) :
      Meets s (.done v y) (.does v post)

theorem Meets.ite {p q : Prop} [Decidable p] [Decidable q] {a b : MxRes} {c d : MxSays} (same : p ↔ q)
    (yes : p → Meets s a c) (no : ¬ p → Meets s b d) : Meets s (if p then a else b) (if q then c else d) := by
  by_cases h : p
  · rw [if_pos h, if_pos (same.1 h)]
    exact yes h
  · rw [if_neg h, if_neg (mt same.2 h)]
    exact no h

/-- What a task core does of what a matrix instruction's work comes to. -/
def coreTakes (g : Nat) (d : Option (BitVec 5)) : MxRes → Except Stop Work
  | .fail => .error (flt 0x09)
  | .stall => .error .stall
  | .done v y => y.give g (d.getD 0) v

/-- The twig after a matrix instruction: its destination, where it has one, holds the value, and it goes on. -/
def twigDone (t : Twig) (d : Option (BitVec 5)) (v : TVal) : Twig :=
  match d with
  | some r => (t.put r v false).adv
  | none => t.adv

/-- What a twig does of what a matrix instruction's work comes to. -/
def twigTakes (a : Agent) (t : Twig) (d : Option (BitVec 5)) (w : Work) : MxRes → Work
  | .fail => w.abandon a t 0x09 0 0
  | .stall => w.setTwig a { t with stall := some (t.stall.getD w.mod.cycle) }
  | .done v y => y.setTwig a (twigDone t d ⟨v.setWidth 256, false⟩)

/-- What a statement says of a task core. -/
def SaysOnCore (s : State) (g : Nat) (i : Instr) (d : Option (BitVec 5)) : MxSays → Prop
  | .fails => Raises s g i 0x09 0
  | .waits => Holds s g i
  | .does v post => ∃ t, Did s g i (d.getD 0) v t ∧ post t

/-- What a statement says of a twig whose sources are no nulls. -/
def SaysOnTwig (s : State) (a : Agent) (t : Twig) (i : Instr) (d : Option (BitVec 5)) : MxSays → Prop
  | .fails => ∃ u f, exec i s = .next u ∧ (Work.of u).twigAt a = none ∧
      (regionAt u (agentGrove a)).faults = (regionAt s (agentGrove a)).faults ++ [f] ∧ f.code = 0x09 ∧ u.mem = s.mem
  | .waits => exec i s = .next (withTwig s a { t with stall := some (t.stall.getD s.mod.cycle) })
  | .does v post => ∃ u, exec i s = .next u ∧ (Work.of u).twigAt a = some (twigDone t d ⟨v.setWidth 256, false⟩) ∧ post u

section

variable {i : Instr} {d : Option (BitVec 5)} {srcs : List (BitVec 5)} {f : Nat → Bool → List Word → Work → MxRes}

/-- On a task core a matrix instruction is the core's instruction with that effect (R81, R251). -/
theorem mxRun_core (x : exec i s = run s (mxRun i d srcs f)) (turn : s.turn = .core g) :
    exec i s = run s (coreInstr i fun g y => coreTakes g d (f g (y.super g) (srcs.map (y.g g)) y)) := by
  rw [x]
  simp only [run, State.via, mxRun, of_turn, turn]
  rfl

/-- In a twig a null source nullifies a matrix instruction; otherwise the twig takes what its work comes to (R115, R251). -/
theorem mxRun_twig (x : exec i s = run s (mxRun i d srcs f)) {a : Agent} {t : Twig} (h : OnTwig s a t) :
    exec i s = .next (s.finish (if (srcs.map t.src).any TVal.null then (Work.of s).setTwig a (twigDone t d TVal.null0)
      else twigTakes a t d (Work.of s)
        (f (agentGrove a) false ((srcs.map t.src).map fun v => v.bits.setWidth 64) (Work.of s)))) := by
  obtain ⟨turn, there⟩ := h
  rw [x]
  cases a with
  | core g => cases there
  | _ =>
    simp only [run, State.via, mxRun, of_turn, turn, there]
    cases d <;> rfl

theorem saysOnCore_of_meets {r : MxRes} {how : MxSays} {e : Nat → Work → Except Stop Work} (h : Ready s g) (ok : i.coreOk = true)
    (x : exec i s = run s (coreInstr i e)) (takes : e g (Work.of s) = coreTakes g d r) (m : Meets s r how) :
    SaysOnCore s g i d how := by
  cases m with
  | fails => exact x.trans (coreInstr_fault h.1 ok takes)
  | waits => exact x.trans (coreInstr_hold h.1 ok takes)
  | @does v y post quiet holds =>
    have alike : RunsAlike (coreOf s g) (y.core g) := quiet.cores g
    have area : (y.regOf g).supBase = (regionAt s g).supBase := quiet.areas g
    have gives : e g (Work.of s) = .ok (y.setCore g ((y.core g).setReg (d.getD 0) v).step) := takes.trans (give_ok _ v (by
      rw [area, alike.pc, alike.step.1]
      exact h.2))
    obtain ⟨t, did, -⟩ := didIn_of_effect h.1 ok x alike gives
    obtain rfl := Host.Outcome.next.inj (did.runs.symm.trans (x.trans (coreInstr_ok h.1 ok gives)))
    exact ⟨_, did, holds _ (leftBy_of_same quiet.log rfl rfl)⟩

theorem saysOnTwig_of_meets {a : Agent} {t : Twig} {r : MxRes} {how : MxSays} (there : (Work.of s).twigAt a = some t)
    (x : exec i s = .next (s.finish (twigTakes a t d (Work.of s) r))) (m : Meets s r how) : SaysOnTwig s a t i d how := by
  cases m with
  | fails =>
    obtain ⟨gone, log, f, faults, code⟩ := abandon_leaves (Work.of s) there 0x09 0 0
    exact ⟨_, f, x, gone, faults, code, congrArg s.mem.write log⟩
  | waits => exact x
  | does quiet holds => exact ⟨_, x, twigAt_setTwig_same there _ _, holds _ (leftBy_setTwig quiet.log a _)⟩

/-- A matrix instruction runs on cores and in twigs as a statement says where its work comes to what the statement says. -/
theorem mxRuns_of_meets {how : Nat → Bool → List Word → MxSays} (x : exec i s = run s (mxRun i d srcs f))
    (meets : ∀ g super ws, Meets s (f g super ws (Work.of s)) (how g super ws)) : MxRuns s i d srcs how := by
  constructor
  · intro g h ok go
    exact saysOnCore_of_meets ⟨h, go⟩ ok (mxRun_core x h.1) rfl (meets g _ _)
  · intro a t h
    have e := mxRun_twig x h
    refine ⟨fun null => ?_, fun clean => ?_⟩
    · rw [if_pos (by simpa using null)] at e
      exact e
    · rw [if_neg (by simpa using clean), List.map_map] at e
      exact saysOnTwig_of_meets h.2 e (meets _ _ _)

end

end Sys2Proof.Proofs
end

section
/-! The matrix instructions of cores and twigs: MLDB, MSCL, MSTAT, MZERO and MRD, and the MMA of a handler (R250 to R264). -/

namespace Sys2Proof.Proofs

open Sys2Proof.Machine Sys2Proof.Safety Sys2Proof.Laws

variable {s : State} {g : Nat}

/-! ## Fields of operands (R261, R263) -/

/-- A field up to a word's top bit is a quotient (R4). -/
theorem fld_top (x : Word) {lo : Nat} (h : lo ≤ 64) : fld x 63 lo = x.toNat / 2 ^ lo := by
  refine Nat.mod_eq_of_lt (Nat.div_lt_of_lt_mul ?_)
  rw [← pow_add, show lo + (63 + 1 - lo) = 64 by omega]
  exact x.isLt

/-- A field down to a word's lowest bit is a remainder (R4). -/
theorem fld_bottom (x : Word) (hi : Nat) : fld x hi 0 = x.toNat % 2 ^ (hi + 1) := by
  rw [fld_eq, pow_zero, Nat.div_one, Nat.sub_zero]

/-- A word names a tag and ZAFTER alone where every other bit is zero (R263). -/
theorem tagWord_zafter (x : Word) : tagWord x true = true ↔ x.toNat / 2 ^ 9 = 0 ∧ x.toNat / 2 ^ 6 % 4 = 0 := by
  simp only [tagWord, fld_top x (show 9 ≤ 64 by omega), fld_eq, Bool.true_or, Bool.and_true, Bool.and_eq_true, beq_iff_eq,
    Nat.reduceAdd, Nat.reduceSub, Nat.reducePow]

/-- A word names a tag alone where it is one of the 64 numbers (R264). -/
theorem tagWord_alone (x : Word) : tagWord x false = true ↔ x.toNat < 64 := by
  simp only [tagWord, fld_top x (show 9 ≤ 64 by omega), fld_eq, Bool.false_or, Bool.and_eq_true, beq_iff_eq]
  omega

/-! ## Changes of matrix arrays -/

/-- The bindings' lowest fields are remainders (R261). -/
theorem aHandle_eq (x : Word) : aHandle x = x.toNat % 2 ^ 8 := fld_bottom x 7

theorem bOff_eq (x : Word) : bOff x = x.toNat % 2 ^ 19 := fld_bottom x 18

theorem quiet_free (w : Work) (k : Nat) : Quiet w { w with freeCtr := k } := ⟨⟨fun _ => .refl _, fun _ => rfl⟩, rfl⟩

theorem quiet_setMx (w : Work) (g : Nat) (x : Mx) : Quiet w (w.setMx g x) := ⟨⟨fun _ => .refl _, fun _ => rfl⟩, rfl⟩

theorem LeftBy.of_setMx {w : Work} {x : Mx} {t : State} (h : LeftBy s (w.setMx g x) t) :
    ∃ twigs, mxOf t g = { x with twigs := twigs } := by
  obtain ⟨twigs, e⟩ := h.mxs g
  exact ⟨twigs, e.trans (by rw [setMx_same])⟩

/-! ## MLDB (R252) -/

/-- Bytes of a column bank that lie in it are those of the canopy. -/
theorem bankBytes_inside {off n : Nat} (fit : off + n ≤ 0x80000) (j : Nat) (w : Work) :
    bankBytes g j off n w = (w.bytes (canopyBase g j + off) n, w) := by
  have near : min n (0x80000 - off) = n := by omega
  simp [bankBytes, near, freshBytes]

theorem allBanks_inside {off n : Nat} (fit : off + n ≤ 0x80000) (w : Work) : ∀ js : List Nat,
    allBanks g off n js w = (js.map fun j => w.bytes (canopyBase g j + off) n, w)
  | [] => rfl
  | j :: js => by simp only [allBanks, bankBytes_inside fit, allBanks_inside fit w js, List.map_cons]

theorem freshBytes_only : ∀ (n : Nat) (w : Work), ∃ k, (freshBytes n w).2 = { w with freeCtr := k }
  | 0, w => ⟨w.freeCtr, rfl⟩
  | n + 1, w => freshBytes_only n w.fresh.2

/-- Reading banks past their end takes free values, and changes nothing else (log entry 32). -/
theorem allBanks_only {off n : Nat} : ∀ (js : List Nat) (w : Work), ∃ k, (allBanks g off n js w).2 = { w with freeCtr := k }
  | [], w => ⟨w.freeCtr, rfl⟩
  | j :: js, w => by
    obtain ⟨k, e⟩ := freshBytes_only (n - min n (0x80000 - off)) w
    obtain ⟨l, f⟩ := allBanks_only js (bankBytes g j off n w).2
    refine ⟨l, f.trans ?_⟩
    rw [show (bankBytes g j off n w).2 = _ from e]

/-- The scale entries that an MLDB reads under a kind, if any, take free values at most (R252; log entry 32). -/
theorem scaleBanks_only (kind off n : Nat) (js : List Nat) (w : Work) :
    ∃ k, (if kind = 0 then ([], w) else allBanks g off n js w).2 = { w with freeCtr := k } := by
  split
  · exact ⟨w.freeCtr, rfl⟩
  · exact allBanks_only js w

theorem mldb_runs (a b : BitVec 5) (f : BitVec 3) : MxRuns s (.mldb a b f) none [a, b] fun g _ ws =>
    let off := (ws.getD 0 0).toNat
    let kb := (ws.getD 1 0).toNat
    if off % 32 ≠ 0 ∨ kb % 32 ≠ 0 ∨ kb < 32 ∨ 512 < kb ∨ 0x80000 < off + kb then .fails
    else if (mxOf s g).shadow.st ≠ 0 then .waits
    else .does 0 fun t => t.mem = s.mem ∧ (mxOf t g).active = (mxOf s g).active ∧
      let l := (mxOf t g).shadow
      l.st = 1 ∧ l.off = off ∧ l.kb = kb ∧ l.fmt = f.toNat ∧ l.skind = (mxOf s g).bBind.toNat / 2 ^ 19 % 4 ∧
        ∀ j < 32, l.cols.getD j [] = (List.range kb).map fun i => byteAt s (canopyBase g j + off + i) := by
  refine mxRuns_of_meets rfl fun g _ ws => Meets.ite Iff.rfl (fun _ => .fails) fun sound =>
    Meets.ite Iff.rfl (fun _ => .waits) fun _ => ?_
  have inside : (ws.getD 0 0).toNat + (ws.getD 1 0).toNat ≤ 0x80000 := by omega
  rw [allBanks_inside inside]
  dsimp only
  obtain ⟨k, scales⟩ := scaleBanks_only (g := g) (bKind ((Work.of s).mx g).bBind) (bOff ((Work.of s).mx g).bBind)
    (colScales (ws.getD 1 0).toNat f.toNat * kindBytes (bKind ((Work.of s).mx g).bBind)) (List.range 32) (Work.of s)
  rw [scales]
  refine .does ((quiet_free _ k).trans (quiet_setMx _ g _)) fun t left => ?_
  obtain ⟨_, mx⟩ := left.of_setMx
  rw [mx]
  refine ⟨left.mem, rfl, rfl, rfl, rfl, rfl, rfl, fun j hj => ?_⟩
  simp [hj, Work.bytes, Work.byte, readLog, byteAt]

/-! ## MSCL and MSTAT (R261, R264) -/

theorem mscl_runs (a b : BitVec 5) : MxRuns s (.mscl a b) none [a, b] fun g _ ws =>
    let x := (ws.getD 0 0).toNat
    let y := (ws.getD 1 0).toNat
    let ak := x / 2 ^ 8 % 4
    let bk := y / 2 ^ 19 % 4
    if x / 2 ^ 10 ≠ 0 ∨ y / 2 ^ 21 ≠ 0 ∨ ak = 3 ∨ bk = 3 ∨ (ak = 0 ∧ x % 2 ^ 8 ≠ 0) ∨
      (ak ≠ 0 ∧ (Work.of s).isRing g (x % 2 ^ 8) = false) ∨ (bk = 2 ∧ y % 2 ^ 19 % 2 ≠ 0) then .fails
    else .does 0 fun t => t.mem = s.mem ∧ (mxOf t g).aBind = ws.getD 0 0 ∧ (mxOf t g).bBind = ws.getD 1 0 ∧
      (mxOf t g).tags = (mxOf s g).tags := by
  refine mxRuns_of_meets rfl fun g _ ws => Meets.ite ?_ (fun _ => .fails) fun _ => .does (quiet_setMx _ g _) fun t left => ?_
  · simp only [aHandle_eq, bOff_eq, fld_top _ (show 10 ≤ 64 by omega), fld_top _ (show 21 ≤ 64 by omega)]
    exact Iff.rfl
  · obtain ⟨_, mx⟩ := left.of_setMx
    rw [mx]
    exact ⟨left.mem, rfl, rfl, rfl⟩

theorem mstat_runs (d a : BitVec 5) : MxRuns s (.mstat d a) (some d) [a] fun g _ ws =>
    let n := (ws.getD 0 0).toNat
    let x := mxOf s g
    let t := x.tag n
    if n < 64 then .does (BitVec.ofNat 64 (x.begun % 2 ^ 32 * 2 ^ 32 + x.shadow.st * 2 ^ 25 +
        (if t.frozen.isSome then 2 ^ 24 else 0) + t.held.length * 2 ^ 16 + min 255 t.queue.length * 2 ^ 8 + t.next))
      fun u => u.mem = s.mem ∧ (mxOf u g).tags = x.tags
    else .fails := by
  refine mxRuns_of_meets rfl fun g _ ws => Meets.ite (tagWord_alone _) (fun alone => ?_) fun _ => .fails
  have tag : fld (ws.getD 0 0) 5 0 = (ws.getD 0 0).toNat := (fld_bottom _ 5).trans (Nat.mod_eq_of_lt ((tagWord_alone _).1 alone))
  rw [tag]
  refine .does (Quiet.refl _) fun u left => ⟨left.mem, ?_⟩
  obtain ⟨_, mx⟩ := left.mxs g
  rw [mx]
  rfl

/-! ## Tokens queued at a tag (R263, R264) -/

theorem queueToken_tag (w : Work) (g n : Nat) (i : TagItem) : ((w.queueToken g n i).mx g).tag n =
    { (w.mx g).tag n with queue := ((w.mx g).tag n).queue ++ [{ i with order := (w.mx g).order }] } := by
  simp [Work.queueToken, Work.nextOrder, Work.setTag, Mx.tag]

theorem quiet_queueToken (w : Work) (g n : Nat) (i : TagItem) : Quiet w (w.queueToken g n i) :=
  ⟨⟨fun _ => .refl _, fun _ => rfl⟩, rfl⟩

/-- What a frozen tag serves at once are moves of their own. -/
theorem quiet_serveFrozen (w : Work) (g n : Nat) : Quiet w (w.serveFrozen g n) := ⟨⟨fun _ => .refl _, fun _ => rfl⟩, rfl⟩

theorem mzero_runs (a : BitVec 5) : MxRuns s (.mzero a) none [a] fun g _ ws =>
    let n := (ws.getD 0 0).toNat
    let t := (mxOf s g).tag n
    if n < 64 then .does 0 fun u => u.mem = s.mem ∧ ∃ y, y.kind = 2 ∧ (mxOf u g).tag n = { t with queue := t.queue ++ [y] }
    else .fails := by
  refine mxRuns_of_meets rfl fun g _ ws => ?_
  dsimp only
  rw [← ite_not]
  refine Meets.ite (by rw [← tagWord_alone, Bool.not_eq_true]) (fun _ => .fails) fun alone => ?_
  have names : (ws.getD 0 0).toNat < 64 := (tagWord_alone _).1 (by simpa using alone)
  have tag : fld (ws.getD 0 0) 5 0 = (ws.getD 0 0).toNat := (fld_bottom _ 5).trans (Nat.mod_eq_of_lt names)
  have queued := queueToken_tag (Work.of s) g (ws.getD 0 0).toNat (mkItem 2)
  have quiet := quiet_queueToken (Work.of s) g (ws.getD 0 0).toNat (mkItem 2)
  rw [tag]
  by_cases frozen : (((Work.of s).mx g).tag (ws.getD 0 0).toNat).frozen.isSome
  · rw [if_pos frozen]
    exact .does (quiet.trans (quiet_serveFrozen _ _ _)) fun u left => ⟨left.mem, _, rfl, (left.tag g _).trans queued⟩
  · rw [if_neg frozen]
    exact .does quiet fun u left => ⟨left.mem, _, rfl, (left.tag g _).trans queued⟩

theorem enqueueOp_queues (w : Work) (g k op : Nat) (d : Desc) (b : Word) (sup : Bool) (who : Who) :
    (((w.enqueueOp g k op d b sup who).2.grove g).engine k) = { (w.grove g).engine k with
      issued := ((w.grove g).engine k).issued + 1
      queue := ((w.grove g).engine k).queue ++ [EngOp.new (((w.grove g).engine k).issued + 1) op d b sup (w.ptime who)] } :=
  engine_updEngine _

/-- A read-out's format, tag and destination are sound (R263). -/
theorem mrd_sound (h : BitVec 4) (a b : Word) (full : Bool) :
    ((4 < h.toNat ∨ tagWord a true = false ∨ 1 < fld b 63 62 ∨ fld b 58 57 ≠ 0 ∨ (fld b 63 62 = 0 ∧ fld b 56 0 % 64 ≠ 0) ∨
      (fld b 63 62 = 1 ∧ fld b 56 0 ≠ 0)) ∨ full = true) ↔
    ¬ (h.toNat ≤ 4 ∧ a.toNat / 2 ^ 9 = 0 ∧ a.toNat / 2 ^ 6 % 4 = 0 ∧ b.toNat / 2 ^ 62 ≤ 1 ∧ b.toNat / 2 ^ 57 % 4 = 0 ∧
      (b.toNat / 2 ^ 62 = 0 → b.toNat % 2 ^ 57 % 64 = 0) ∧ (b.toNat / 2 ^ 62 = 1 → b.toNat % 2 ^ 57 = 0) ∧ full = false) := by
  rw [← Bool.not_eq_true (tagWord a true), tagWord_zafter, fld_top b (show 62 ≤ 64 by omega),
    show fld b 56 0 = b.toNat % 2 ^ 57 from fld_bottom b 56,
    show fld b 58 57 = b.toNat / 2 ^ 57 % 4 from rfl]
  generalize a.toNat / 2 ^ 9 = high, a.toNat / 2 ^ 6 % 4 = mid, b.toNat / 2 ^ 62 = kind, b.toNat / 2 ^ 57 % 4 = rest,
    b.toNat % 2 ^ 57 = place
  cases full with
  | true => simp
  | false =>
    simp only [Bool.false_eq_true, or_false, and_true]
    omega

/-- The read token that an MRD queues (R263). -/
def readOutToken (h : BitVec 4) (x : Word) (k num : Nat) : TagItem :=
  { mkItem 1 with zafter := x.getLsbD 8, fmt := h.toNat, ctx := k, opNum := num }

/-- A sound MRD that finds room takes its context's next number and queues its read-out there and its token at the tag (R263). -/
theorem mrd_queues {h : BitVec 4} {sup : Bool} {x y : Word} {k : Nat} {t : State}
    (left : LeftBy s (((Work.of s).enqueueOp g k 0xFE 0 y sup (agentWho (Work.of s).turn)).2.queueToken g (fld x 5 0)
      (readOutToken h x k ((engineOf s g k).issued + 1))) t) :
    t.mem = s.mem ∧ (engineOf t g k).issued = (engineOf s g k).issued + 1 ∧
      (∃ o, (engineOf t g k).queue = (engineOf s g k).queue ++ [o] ∧ o.op = 0xFE ∧ o.num = (engineOf s g k).issued + 1 ∧ o.bind = y) ∧
      ∃ z, z.kind = 1 ∧ z.fmt = h.toNat ∧ z.ctx = k ∧ z.opNum = (engineOf s g k).issued + 1 ∧ z.zafter = x.getLsbD 8 ∧
        (mxOf t g).tag (x.toNat % 64) = { (mxOf s g).tag (x.toNat % 64) with
          queue := ((mxOf s g).tag (x.toNat % 64)).queue ++ [z] } := by
  have engine := (left.engine g k).trans (enqueueOp_queues (Work.of s) g k 0xFE 0 y sup _)
  have tag := (left.tag g (fld x 5 0)).trans (queueToken_tag _ g _ _)
  rw [fld_bottom] at tag
  exact ⟨left.mem, congrArg Engine.issued engine, ⟨_, congrArg Engine.queue engine, rfl, rfl, rfl⟩,
    _, rfl, rfl, rfl, rfl, rfl, tag⟩

/-! ## k-steps handed over (R255, R258) -/

theorem setTag_tag (w : Work) (g n : Nat) (t : Tag) : ((w.setTag g n t).mx g).tag n = t := by
  simp [Work.setTag, Mx.tag]

/-- The record of a frozen tag (R258, R262). -/
def frozenTag (fseq g n seq code : Nat) : Frozen where
  fseq := fseq
  okind := 6
  code := code
  stuck := false
  grove := g
  cell := 0
  node := n
  colour := 0
  iter := 0
  toks := []
  task := none
  what := n
  aux := seq

/-- A tag frozen: its region's next release number names it. -/
theorem freezeTag_freezes (w : Work) (g n seq code : Nat) :
    ((w.freezeTag g n seq code).mx g).tag n = { (w.mx g).tag n with frozen := some (w.regOf g).nextFseq } ∧
      ((w.freezeTag g n seq code).regOf g).frozen = (w.regOf g).frozen ++ [frozenTag (w.regOf g).nextFseq g n seq code] := by
  refine ⟨?_, congrArg Region.frozen (setRegion_same w (w.rno g) _)⟩
  simp [Work.freezeTag, Work.freezeObj, Mx.tag, Work.regOf]

/-- The place of the next k-step or token is taken, and no tag changes. -/
theorem nextOrder_tag (w : Work) (g n : Nat) : ((w.nextOrder g).2.mx g).tag n = (w.mx g).tag n := by
  have array : (w.nextOrder g).2.mx g = { w.mx g with order := (w.mx g).order + 1 } := setMx_same w g _
  rw [array]
  rfl

section

variable {w : Work} {n : Nat} {i : TagItem} {t : Tag} (tag : (w.mx g).tag n = t)
include tag

/-- A frozen tag keeps a k-step that comes (R258). -/
theorem handOver_keeps (frozen : t.frozen ≠ none) : ((w.handOver g n i).mx g).tag n = { t with kept := t.kept ++ [i] } := by
  unfold Work.handOver
  simp only [tag, Option.isSome_iff_ne_none.2 frozen, if_true, setTag_tag]

variable (open_ : t.frozen = none)
include open_

/-- A k-step that its tag has already, or that stands behind its NEXT, freezes the tag, whose queue stands (R258). -/
theorem handOver_collides (twice : ((t.queue ++ t.held).any fun x => x.kind == 0 && x.seq == i.seq) = true ∨
      128 ≤ (i.seq + 256 - t.next) % 256) :
    ∃ o, (((w.handOver g n i).mx g).tag n).frozen = some o.fseq ∧ (((w.handOver g n i).mx g).tag n).queue = t.queue ∧
      ((w.handOver g n i).regOf g).frozen = (w.regOf g).frozen ++ [o] ∧ o.okind = 6 ∧ o.code = 0x10 ∧ o.what = n := by
  have e : w.handOver g n i = (w.setTag g n { t with kept := [i] }).freezeTag g n i.seq 0x10 := by
    unfold Work.handOver
    simp only [tag, open_, Option.isSome_none, Bool.false_eq_true, if_false, if_pos twice.symm]
  obtain ⟨frozen, objects⟩ := freezeTag_freezes (w.setTag g n { t with kept := [i] }) g n i.seq 0x10
  rw [e, frozen, setTag_tag]
  exact ⟨_, rfl, rfl, objects, rfl, rfl, rfl⟩

variable (once : ¬ ((t.queue ++ t.held).any fun x => x.kind == 0 && x.seq == i.seq) = true)
include once

/-- A k-step whose turn it is joins the queue (R258). -/
theorem handOver_queues (turn : (i.seq + 256 - t.next) % 256 = 0) :
    ((w.handOver g n i).mx g).tag n = { t with queue := t.queue ++ [i] } := by
  unfold Work.handOver
  simp only [tag, open_, Option.isSome_none, Bool.false_eq_true, if_false, turn, once, Nat.reduceLeDiff, or_self, if_true, setTag_tag]

/-- A k-step ahead of its turn is held (R258). -/
theorem handOver_holds (ahead : 0 < (i.seq + 256 - t.next) % 256) (near : (i.seq + 256 - t.next) % 256 < 128) :
    ((w.handOver g n i).mx g).tag n = { t with held := t.held ++ [i] } := by
  unfold Work.handOver
  simp only [tag, open_, Option.isSome_none, Bool.false_eq_true, if_false, Nat.not_le.2 near, once, or_self,
    Nat.ne_of_gt ahead, setTag_tag]

end

theorem handOver_log (w : Work) (g n : Nat) (i : TagItem) : (w.handOver g n i).log = w.log := by
  unfold Work.handOver
  dsimp only
  split
  · rfl
  · split
    · rfl
    · split <;> rfl

/-- The k-step that an MMA makes of its packet (R260). -/
def mmaItem (s : State) (g : Nat) (p : Packet) (sq : BitVec 8) (kd : BitVec 4) (f : BitVec 3) (m : BitVec 5) : TagItem where
  kind := 0
  order := (mxOf s g).order
  seq := (sq.toNat + hdSeq p.hdr) % 256
  packet := p
  kdep := kd.toNat
  afmt := f.toNat
  mrows := m.toNat
  num := none
  zafter := false
  fmt := 0
  ctx := 0
  opNum := 0

/-- A handler's MMA hands its k-step, next in order, to its tag, and the handler goes on (R255, R260). -/
theorem mma_handsOver {k : Nat} {x : Twig} {p : Packet} (t : BitVec 6) (sq : BitVec 8) (kd : BitVec 4) (f : BitVec 3) (m : BitVec 5)
    (h : OnTwig s (.mx g k) x) (packet : (mxOf s g).handled.find? (fun p => p.order == x.packet) = some p) :
    exec (.mma t sq kd f m) s = .next (s.finish ((((Work.of s).nextOrder g).2.handOver g ((t.toNat + hdAcc p.hdr + p.index) % 64)
      (mmaItem s g p sq kd f m)).setTwig (.mx g k) x.adv)) := by
  obtain ⟨turn, there⟩ := h
  refine next_congr ?_
  have packet' : ((Work.of s).mx g).handled.find? (fun p => p.order == x.packet) = some p := packet
  simp only [of_turn, turn, there, agentGrove, packet', agentIsMx, if_true]
  rfl

/-- Settles O48: MMA by how its k-step stands to its tag, the others by what their work comes to on cores and in twigs alike. -/
theorem matrixInstructions : Obligations.MatrixInstructions := by
  refine ⟨fun s g k x p t sq kd f m h packet => ?_, fun s a b d f h =>
    ⟨mldb_runs a b f, mscl_runs a b, mstat_runs d a, mzero_runs a, mxRuns_of_meets rfl fun g sup ws => ?_⟩⟩
  case refine_2 =>
    unfold mrd
    dsimp only
    rw [← ite_or]
    exact Meets.ite (mrd_sound h _ _ _) (fun _ => .fails) fun _ => Meets.ite Iff.rfl (fun _ => .waits) fun _ =>
      .does ((quiet_updEngine _).trans (quiet_queueToken _ g _ _)) fun t left => mrd_queues left
  intro n seq tag ahead item twice
  have own : item (mmaItem s g p sq kd f m) := ⟨rfl, rfl, rfl, rfl, rfl, rfl, rfl⟩
  have before : (((Work.of s).nextOrder g).2.mx g).tag n = tag := nextOrder_tag (Work.of s) g n
  have left := leftBy_setTwig (s := s) (handOver_log ((Work.of s).nextOrder g).2 g n (mmaItem s g p sq kd f m)) (.mx g k) x.adv
  refine ⟨_, mma_handsOver t sq kd f m h packet, twigAt_setTwig_same h.2 _ _, left.mem,
    fun open_ once turn => ⟨_, own, (left.tag g n).trans (handOver_queues before open_ once turn)⟩,
    fun open_ once far near => ⟨_, own, (left.tag g n).trans (handOver_holds before open_ once far near)⟩,
    fun open_ collides => ?_,
    fun frozen => ⟨_, own, (left.tag g n).trans (handOver_keeps before frozen)⟩⟩
  obtain ⟨o, frozen, queue, objects, names⟩ := handOver_collides (i := mmaItem s g p sq kd f m) before open_ collides
  exact ⟨o, (congrArg Tag.frozen (left.tag g n)).trans frozen, (congrArg Tag.queue (left.tag g n)).trans queue, objects, names⟩

end Sys2Proof.Proofs
end

section
/-! The events of a matrix element: a k-step that completes may wake a record in the spill area, whose bytes change (R146, R155, R259). -/

namespace Sys2Proof.Proofs

open Sys2Proof.Machine Sys2Proof.Safety Sys2Proof.Laws

/-! ## A k-step that wakes a spilled record -/

/-- A task of grove 0 that waits in WAITTL for k-step 1 of its own array: the wait compares G6, which it has saved, and gives
TLM to G5 (R148, R210). -/
def waitsForStep : Record where
  full := false
  pc := 0x104
  live := 0x60
  regs := [0, 1]
  task := ⟨1, 0, 0, 0, 7, 0, 0, false⟩
  wait := 4
  vslot := 1
  wobj := 8
  dreg := 5
  body := (0, 0)
  loopActive := false
  loopcnt := 0
  since := none
  order := 0
  home := 0
  dval := none
  trap := none
  halted := false
  pend := []

/-- A k-step of one row of 32 bytes of bf16, at the head of its tag. -/
def oneRowStep : TagItem where
  kind := 0
  order := 0
  seq := 0
  packet := ⟨0, 0, [List.replicate 32 1], 32, 0, 0, 0⟩
  kdep := 0
  afmt := 0
  mrows := 0
  num := none
  zafter := false
  fmt := 0
  ctx := 0
  opNum := 0

/-- Grove 0 of region 0, with the k-step at tag 0. The region's spill area, at 0x10_0000, holds the record of the task that waits for
the step. -/
def spilledWaiter : State :=
  State.reset.via fun w => (((w.setRegion 0 { Region.reset with
    loaded := true, table := ⟨1, 0x100000, 1, [(0, 0, 0, 0)], [(0, 0, 0, 0)]⟩, spill := [(0, waitsForStep)] }).setGrove 0
      { Grove.reset with region := some 0 }).setMx 0 { Mx.reset with tags := [(0, { Tag.reset with queue := [oneRowStep] })] }).spillImage
        0 0 waitsForStep

/-- The place of G5 among the record's saved registers. -/
def savedG5 : Nat := 0x100000 + 32

/-- The k-step takes number 1 on TLM and completes it, and the woken record's G5, zero before, is 1 (R155, R259). -/
theorem kstep_writes_record {t : State} (e : exec (.kstep 0) spilledWaiter = .next t) :
    byteAt spilledWaiter savedG5 = 0 ∧ byteAt t savedG5 = 1 := by
  obtain rfl := Host.Outcome.next.inj e
  decide +kernel

/-- Refutes O49: the clause on a k-step that is performed says that every byte outside its rows stands. Its completion moves TLM, which
wakes a task that waits for it; where that task's record lies in the spill area, the record's saved register is written there. -/
theorem not_matrixEvents : ¬ Obligations.MatrixEvents := by
  intro h
  obtain ⟨-, -, kstep, -⟩ := h spilledWaiter 0
  obtain ⟨-, performs⟩ := kstep 0 oneRowStep (by decide +kernel) (by decide +kernel) (by decide +kernel) (by decide +kernel)
  obtain ⟨t, e, -, stands, -⟩ := performs (by unfold MemOk; decide +kernel) (by decide +kernel) (by decide +kernel)
  have same : byteAt t savedG5 = byteAt spilledWaiter savedG5 := stands savedG5 (by decide +kernel)
  obtain ⟨before, after⟩ := kstep_writes_record e
  rw [before, after] at same
  exact absurd same (by decide)

end Sys2Proof.Proofs
end

section
/-! Progress items: the time slots that new ones take, and what counting them leaves (R274, R275). -/

namespace Sys2Proof.Proofs

open Sys2Proof.Machine Sys2Proof.Safety Sys2Proof.Laws

variable {w v u : Work} {g r sc : Nat} {t : Word} {cause : Option (Nat × Nat)}

/-! ## Counts and time slots -/

/-- Nothing differs but groves' counts and regions' time slots. -/
structure ItemsOnly (w v : Work) : Prop where
  cores : v.cores = w.cores
  cells : v.cells = w.cells
  log : v.log = w.log
  regions : ∀ r, ∃ slots, v.region r = { w.region r with timeSlots := slots }
  homes : ∀ g, v.rno g = w.rno g

theorem ItemsOnly.refl (w : Work) : ItemsOnly w w := ⟨rfl, rfl, rfl, fun _ => ⟨_, rfl⟩, fun _ => rfl⟩

theorem ItemsOnly.trans (h : ItemsOnly w v) (k : ItemsOnly v u) : ItemsOnly w u where
  cores := k.cores.trans h.cores
  cells := k.cells.trans h.cells
  log := k.log.trans h.log
  regions r := by
    obtain ⟨_, e⟩ := h.regions r
    obtain ⟨_, f⟩ := k.regions r
    exact ⟨_, by rw [f, e]⟩
  homes g := (k.homes g).trans (h.homes g)

theorem ItemsOnly.cell (h : ItemsOnly w v) (c : Nat) : v.cell c = w.cell c := congrArg (Tbl.getD · c Cell.reset) h.cells

theorem ItemsOnly.core (h : ItemsOnly w v) (g : Nat) : v.core g = w.core g := congrArg (Tbl.getD · g Core.reset) h.cores

/-- Counting items is no part of how cores go on, and writes no byte. -/
theorem ItemsOnly.quiet (h : ItemsOnly w v) : Quiet w v where
  cores g := h.core g ▸ .refl _
  areas g := by
    obtain ⟨_, e⟩ := h.regions (w.rno g)
    rw [Work.regOf, Work.regOf, h.homes, e]
  log := h.log

theorem itemsOnly_count (w : Work) (g : Nat) (item : Option (Nat × Nat)) (up : Bool) : ItemsOnly w (w.count g item up) := by
  have homes := (onlyTraces_count w g item up).homes
  cases item <;> exact ⟨rfl, rfl, rfl, fun _ => ⟨_, rfl⟩, homes⟩

theorem itemsOnly_foldCount {α : Type} (g : Nat) (f : α → Option (Nat × Nat)) (up : Bool) : ∀ (l : List α) (w : Work),
    ItemsOnly w (l.foldl (fun v a => v.count g (f a) up) w)
  | [], w => .refl w
  | a :: l, w => (itemsOnly_count w g (f a) up).trans (itemsOnly_foldCount g f up l _)

theorem itemsOnly_putSlot (w : Work) (r k : Nat) (t : Word) :
    ItemsOnly w (w.updRegion r fun x => { x with timeSlots := Tbl.put x.timeSlots k t }) where
  cores := rfl
  cells := rfl
  log := rfl
  regions j := by
    by_cases e : r = j
    · subst e
      exact ⟨_, setRegion_same w r _⟩
    · exact ⟨_, setRegion_other w _ e⟩
  homes _ := rfl

/-! ## The slot of a new item (R275) -/

theorem mem_of_find {α : Type} : ∀ {l : Tbl α} {k : Nat} {v : α}, Tbl.find l k = some v → (k, v) ∈ l
  | (j, a) :: l, k, v, h => by
    rw [Tbl.find] at h
    split at h
    · next e =>
      cases h
      exact e ▸ List.mem_cons_self
    · exact List.mem_cons_of_mem _ (mem_of_find h)

/-- A slot is an item's for a new one at time `t` of a scope: it holds the time, or it is the cause's (R275). -/
def SlotFor (w : Work) (r sc : Nat) (t : Word) (cause : Option (Nat × Nat)) (j : Nat × Nat) : Prop :=
  j = cause.getD (sc, 0) ∨ ∃ n < 64, j = (sc, n) ∧ (64 * sc + n, t) ∈ (w.region r).timeSlots

theorem slotFor_slot (w : Work) (r sc : Nat) (t : Word) (cause : Option (Nat × Nat)) :
    ItemsOnly w (w.slotFor r sc t cause).2 ∧ SlotFor (w.slotFor r sc t cause).2 r sc t cause (w.slotFor r sc t cause).1 := by
  unfold Work.slotFor
  split
  · next e found =>
    obtain ⟨key, value⟩ := e
    have holds := List.find?_some found
    simp only [Bool.and_eq_true, beq_iff_eq] at holds
    obtain ⟨⟨scope, rfl⟩, -⟩ := holds
    refine ⟨.refl w, .inr ⟨key % 64, Nat.mod_lt _ (by decide), rfl, ?_⟩⟩
    rw [← scope, Nat.div_add_mod]
    exact List.mem_of_find?_eq_some found
  · split
    · next j free =>
      have low : j < 64 := List.mem_range.1 (List.mem_of_find?_eq_some free)
      refine ⟨itemsOnly_putSlot w r _ t, .inr ⟨j, low, rfl, ?_⟩⟩
      rw [updRegion_eq, setRegion_same]
      exact mem_of_find (find_put_same _ _ _)
    · exact ⟨.refl w, .inl rfl⟩

theorem SlotFor.of_regions {j : Nat × Nat} (h : SlotFor w r sc t cause j) (e : (v.region r).timeSlots = (w.region r).timeSlots) :
    SlotFor v r sc t cause j := by
  rw [SlotFor, e]
  exact h

theorem count_region (w : Work) (g : Nat) (item : Option (Nat × Nat)) (up : Bool) (r : Nat) :
    (w.count g item up).region r = w.region r := by
  cases item <;> rfl

theorem itemsOnly_newItem (w : Work) (g sc : Nat) (t : Word) (cause : Option (Nat × Nat)) :
    ItemsOnly w (w.newItem g sc t cause).2 :=
  (slotFor_slot w (w.rno g) sc t cause).1.trans (itemsOnly_count _ g (some (w.slotFor (w.rno g) sc t cause).1) true)

/-! ## Tokens counted as items (R274, R275) -/

/-- Tokens that count for a slot: those that name a destination. -/
def counted (j : Nat × Nat) (ts : List Token) : List Token :=
  (ts.filter fun t => t.dest != noDst).map fun t => { t with item := some j }

theorem countNew_counts (w : Work) (g sc : Nat) (t : Word) (cause : Option (Nat × Nat)) (ts : List Token) :
    ItemsOnly w (w.countNew g sc t cause ts).2 ∧ ∃ j, (w.countNew g sc t cause ts).1 = counted j ts ∧
      (ts.filter (fun k => k.dest != noDst) ≠ [] → SlotFor (w.countNew g sc t cause ts).2 (w.rno g) sc t cause j) := by
  unfold Work.countNew
  dsimp only
  split
  · next none_ =>
    rw [List.isEmpty_iff] at none_
    exact ⟨.refl w, (0, 0), by rw [counted, none_]; rfl, fun some_ => absurd none_ some_⟩
  · obtain ⟨slot, holds⟩ := slotFor_slot w (w.rno g) sc t cause
    have regions : ∀ (l : List Token) (v : Work) (j : Nat × Nat),
        (l.foldl (fun v _ => v.count g (some j) true) v).region (w.rno g) = v.region (w.rno g) := fun l => by
      induction l with
      | nil => exact fun _ _ => rfl
      | cons a l ih => exact fun v j => (ih _ j).trans (count_region v g _ _ _)
    exact ⟨slot.trans (itemsOnly_foldCount g _ true _ _), _, rfl,
      fun _ => holds.of_regions (congrArg Region.timeSlots (regions _ _ _))⟩

end Sys2Proof.Proofs
end

section
/-! DSRC: a source takes its slot, reads its count, sends its changes, and frees it (R282). -/

namespace Sys2Proof.Proofs

open Sys2Proof.Machine Sys2Proof.Safety Sys2Proof.Laws

variable {s : State} {w : Work} {c n k : Nat} {d : Dsrc}

/-! ## Fields of a literal (R62) -/

theorem litF_zero (r : NRec) (hi : Nat) : litF r hi 0 = (nLit r).toNat % 2 ^ (hi + 1) := by
  rw [litF, bits, Nat.pow_zero, Nat.div_one, Nat.sub_zero]

theorem ringOf_eq (r : NRec) : ringOf r = (nLit r).toNat % 2 ^ 8 := litF_zero r 7

theorem srcScope_eq (r : NRec) : srcScope r = (nLit r).toNat / 2 ^ 8 % 16 := rfl

/-! ## A source set (R282) -/

theorem setSource_cell (w : Work) (c n : Nat) (d : Dsrc) :
    (w.setSource c n d).cell c = { w.cell c with dsrcs := Tbl.put (w.cell c).dsrcs ((w.cell c).key n) d } := setCell_same w c _

theorem source_setSource (w : Work) (c n : Nat) (d : Dsrc) : (w.setSource c n d).source c n = d := by
  rw [Work.source, setSource_cell]
  exact getD_put_same _ _ _ _

/-- A source is read as before where its cell's sources and active context stand. -/
theorem source_of_cell {v : Work} (h : (v.cell c).dsrcs = (w.cell c).dsrcs) (a : (v.cell c).active = (w.cell c).active) :
    v.source c n = w.source c n := by
  rw [Work.source, Work.source, h, Cell.key, Cell.key, a]

theorem setSource_outq (w : Work) (c n : Nat) (d : Dsrc) : ((w.setSource c n d).cell c).outq = (w.cell c).outq :=
  (congrArg Cell.outq (setSource_cell w c n d) :)

/-- Changes of handles leave a cell's output queue. -/
theorem OnlyTraces.outq {v : Work} (h : OnlyTraces w v) (c : Nat) : (v.cell c).outq = (w.cell c).outq :=
  (congrArg Cell.outq (h.cells c) :)

/-! ## A source frozen (R282, R381) -/

theorem dsrc_freezes {code addr : Nat} {aux : Word} (keeps : Laws.Keeps (Work.of s) w)
    (e : exec (.dsrc c n) s = .next (s.finish (w.freezeSource c n code addr aux))) : SourceFreezes s c n code aux := by
  have before : w.region (w.rno (c / 16)) = regionAt s (c / 16) := keeps_regOf keeps (c / 16)
  have region := setRegion_same w (w.rno (c / 16))
  exact ⟨_, _, _, e, (congrArg Region.frozen (region _)).trans (congrArg (fun x : Region => x.frozen ++ [_]) before),
    (congrArg Region.faults (region _)).trans (congrArg (fun x : Region => x.faults ++ [_]) before),
    rfl, rfl, rfl, rfl, rfl, rfl, rfl, congrArg (fun t => (Tbl.getD t c Cell.reset).outq) keeps.cells⟩

/-! ## The steps of a source (R282) -/

section

variable (goes : NodeGoes s c n 0x30)
include goes

theorem sourceRuns_of_nodeGoes : (Work.of s).sourceRuns c n = true := by
  rw [Work.sourceRuns, show (Work.of s).nodeRuns c n 0x30 = true from goes, Bool.true_or]

theorem dsrc_takes (free : (sourceOf s c n).cur = none)
    (full : 1 ≤ (handleOf s (c / 16) (ringOf ((cellOf s c).node n))).filled) : exec (.dsrc c n) s = .next (s.finish
      (((Work.of s).changeHandle (c / 16) (ringOf ((cellOf s c).node n))
        ((handleOf s (c / 16) (ringOf ((cellOf s c).node n))).take false)).setSource c n
          { sourceOf s c n with cur := some ((handleOf s (c / 16) (ringOf ((cellOf s c).node n))).dh, none, 0) })) := by
  refine next_congr ?_
  simp only [sourceRuns_of_nodeGoes goes, show ((Work.of s).source c n).cur = none from free]
  exact if_pos full

theorem dsrc_counts {z : Nat} (cur : (sourceOf s c n).cur = some (k, none, z)) :
    exec (.dsrc c n) s = .next (s.finish ((Work.of s).sourceCount c n k)) := by
  refine next_congr ?_
  simp only [sourceRuns_of_nodeGoes goes, show ((Work.of s).source c n).cur = some (k, none, z) from cur]
  rfl

theorem dsrc_frees {m i : Nat} (cur : (sourceOf s c n).cur = some (k, some m, i)) (last : m ≤ i) :
    exec (.dsrc c n) s = .next (s.finish (((Work.of s).freeSlotOf (c / 16) (ringOf ((cellOf s c).node n)) k).setSource c n
      { sourceOf s c n with cur := none })) := by
  refine next_congr ?_
  simp only [sourceRuns_of_nodeGoes goes, show ((Work.of s).source c n).cur = some (k, some m, i) from cur]
  exact if_pos last

theorem dsrc_sends {m i : Nat} (cur : (sourceOf s c n).cur = some (k, some m, i)) (more : i < m)
    (room : (cellOf s c).room (reserved (Tbl.vals (cellOf s c).twigs) +
      dests [nDstA ((cellOf s c).node n), nDstB ((cellOf s c).node n)]) = true) :
    exec (.dsrc c n) s = .next (s.finish ((Work.of s).sourceChange c n k m i)) := by
  refine next_congr ?_
  simp only [sourceRuns_of_nodeGoes goes, show ((Work.of s).source c n).cur = some (k, some m, i) from cur]
  exact (if_neg (Nat.not_le.2 more)).trans (if_pos room)

end

/-! ## What the steps leave (R282) -/

/-- A node's bytes read change nothing but what an access changes. -/
theorem keeps_nodeReads {va len : Nat} {bs : List Byte} (reads : NodeReads s c n va len bs w) : Laws.Keeps (Work.of s) w :=
  (timesOnly_startAgent (Work.of s) c 5 n).keeps.trans (keeps_vread reads)

section

variable {bs : List Byte}

/-- A diff under a hash, in one word (R77). -/
theorem diff_hash_word (diff : Int) (hash : BitVec 32) :
    bv 64 (wrap 32 diff + hash.toNat * 2 ^ 32) = hash ++ BitVec.ofInt 32 diff := by
  apply BitVec.eq_of_toNat_eq
  have low := (BitVec.ofInt 32 diff).isLt
  have high := hash.isLt
  rw [BitVec.toNat_append, ← Nat.shiftLeft_add_eq_or_of_lt low, Nat.shiftLeft_eq, BitVec.toNat_ofNat, BitVec.toNat_ofInt, wrap]
  omega

theorem chWords_eq (ws : List Word) (t : Word) (diff : Int) (hash : BitVec 32) :
    chWords ws t diff hash = changeWords ws t diff hash := by
  rw [chWords, changeWords, diff_hash_word]

/-- A slot's count, once it is read, freezes the source or is kept (R282). -/
theorem sourceCount_read (reads : NodeReads s c n ((handleOf s (c / 16) (ringOf ((cellOf s c).node n))).addr k) 8 bs w) :
    (Work.of s).sourceCount c n k =
      if leNat bs = 0 ∨ (handleOf s (c / 16) (ringOf ((cellOf s c).node n))).slotsz / 48 - 1 < leNat bs then
        w.freezeSource c n 0x11 ((handleOf s (c / 16) (ringOf ((cellOf s c).node n))).addr k) noIndex
      else w.setSource c n { w.source c n with cur := some (k, some (leNat bs), 0) } := by
  unfold Work.sourceCount
  dsimp only
  rw [show ((Work.of s).startAgent ((Work.of s).accNode c n).who).vread ((Work.of s).accNode c n)
    ((((Work.of s).grove (c / 16)).handle (ringOf (((Work.of s).cell c).node n))).addr k) 8 = .ok (bs, w) from reads]
  rfl

/-- A source past change `i` of its slot (R282). -/
def pastChange (s : State) (c n k m i : Nat) : Dsrc := { sourceOf s c n with cur := some (k, some m, i + 1) }

/-- A change of a source as it leaves for a destination: with its key's hash, in colour 0 and iteration 0 (R282). -/
def changeToken (r : NRec) (i : Nat) (bs : List Byte) (a : BitVec 24) : Token :=
  mkChange a 0 0 i (nPrio r) (chWords (wordsOf 6 bs) (chTime (wordsOf 6 bs)) (chDiff (wordsOf 6 bs)) (crc32c (bs.take (srcKey r))))

/-- The work that a change's step leaves where its time fits: the source moved on, and the change sent where its diff is not 0
(R282). -/
def changeSent (s : State) (c n k m i : Nat) (bs : List Byte) (w : Work) : Work :=
  if chDiff (wordsOf 6 bs) = 0 then w.setSource c n (pastChange s c n k m i)
  else
    let p := (w.setSource c n (pastChange s c n k m i)).countNew (c / 16) (srcScope ((cellOf s c).node n)) (chTime (wordsOf 6 bs))
      (some (sourceOf s c n).item) (both ((cellOf s c).node n) (changeToken ((cellOf s c).node n) i bs))
    p.2.updCell c fun c => c.emit p.1

theorem not_all_iff {a b c : Bool} : (!a || !b || !c) = true ↔ ¬ (a = true ∧ b = true ∧ c = true) := by
  cases a
  case false => simp
  case true => cases b <;> simp

/-- A change fits where the source is open and the time is one of its scope, not below its element (R282). -/
def ChangeFits (s : State) (c n : Nat) (t : Word) : Prop :=
  (sourceOf s c n).isOpen = true ∧ isTime ((regionAt s (c / 16)).shape (srcScope ((cellOf s c).node n))) t = true ∧
    timeLe ((regionAt s (c / 16)).shape (srcScope ((cellOf s c).node n))) (sourceOf s c n).element t = true

variable {m i : Nat} (reads : NodeReads s c n ((handleOf s (c / 16) (ringOf ((cellOf s c).node n))).addr k + 48 * (i + 1)) 48 bs w)
include reads

/-- A change, once it is read, freezes the source or is sent (R282). -/
theorem sourceChange_read : (¬ ChangeFits s c n (chTime (wordsOf 6 bs)) → (Work.of s).sourceChange c n k m i =
      w.freezeSource c n 0x11 ((handleOf s (c / 16) (ringOf ((cellOf s c).node n))).addr k) (bv 64 i)) ∧
    (ChangeFits s c n (chTime (wordsOf 6 bs)) → (Work.of s).sourceChange c n k m i = changeSent s c n k m i bs w) := by
  unfold Work.sourceChange
  dsimp only
  rw [show ((Work.of s).startAgent ((Work.of s).accNode c n).who).vread ((Work.of s).accNode c n)
    ((((Work.of s).grove (c / 16)).handle (ringOf (((Work.of s).cell c).node n))).addr k + 48 * (i + 1)) 48 =
      .ok (bs, w) from reads]
  exact ⟨fun unfit => if_pos (not_all_iff.2 unfit), fun fits => if_neg fun e => not_all_iff.1 e fits⟩

omit reads

/-- Outputs to both destinations: one for each that the record names (R63, R92). -/
theorem both_named (r : NRec) {mk : BitVec 24 → Token} (dest : ∀ a, (mk a).dest = a) :
    (both r mk).filter (fun t => t.dest != noDst) = ([nDstA r, nDstB r].filter fun a => a != noDst).map mk := by
  change ([nDstA r, nDstB r].map mk).filter _ = _
  simp only [List.filter_map, Function.comp_def, dest]

/-- What tokens counted for a slot come to in a queue: one for each destination (R63, R92). -/
theorem emitted_counted (r : NRec) {mk : BitVec 24 → Token} (dest : ∀ a, (mk a).dest = a) (j : Nat × Nat) :
    (counted j (both r mk)).filter (fun t => t.dest != noDst) =
      ([nDstA r, nDstB r].filter fun a => a != noDst).map fun a => { mk a with item := some j } := by
  rw [counted, both_named r dest, List.map_map]
  refine List.filter_eq_self.2 fun t m => ?_
  obtain ⟨a, mem, rfl⟩ := List.mem_map.1 m
  exact (dest a).symm ▸ (List.mem_filter.1 mem).2

/-- A sent change's work: its source has moved on, and its tokens have joined the queue (R282). -/
theorem changeSent_leaves : (changeSent s c n k m i bs w).source c n = pastChange s c n k m i ∧
    ∃ new, ((changeSent s c n k m i bs w).cell c).outq = (w.cell c).outq ++ new ∧ (chDiff (wordsOf 6 bs) = 0 → new = []) ∧
      (chDiff (wordsOf 6 bs) ≠ 0 → ∃ j, new =
        ([nDstA ((cellOf s c).node n), nDstB ((cellOf s c).node n)].filter fun a => a != noDst).map
          fun a => { changeToken ((cellOf s c).node n) i bs a with item := some j }) := by
  unfold changeSent
  split
  · next zero =>
    exact ⟨source_setSource _ _ _ _, [], by rw [setSource_outq, List.append_nil], fun _ => rfl, fun some_ => absurd zero some_⟩
  · next some_ =>
    obtain ⟨items, j, tokens, -⟩ := countNew_counts (w.setSource c n (pastChange s c n k m i)) (c / 16)
      (srcScope ((cellOf s c).node n)) (chTime (wordsOf 6 bs)) (some (sourceOf s c n).item)
      (both ((cellOf s c).node n) (changeToken ((cellOf s c).node n) i bs))
    have cell := setCell_same ((w.setSource c n (pastChange s c n k m i)).countNew (c / 16)
      (srcScope ((cellOf s c).node n)) (chTime (wordsOf 6 bs)) (some (sourceOf s c n).item)
      (both ((cellOf s c).node n) (changeToken ((cellOf s c).node n) i bs))).2 c
    refine ⟨(source_of_cell ?_ ?_).trans (source_setSource w c n _), _, (congrArg Cell.outq (cell _)).trans ?_,
      fun zero => absurd zero some_, fun _ => ⟨j, emitted_counted ((cellOf s c).node n) (fun _ => rfl) j⟩⟩
    · exact (congrArg Cell.dsrcs (cell _)).trans (congrArg Cell.dsrcs (items.cell c) :)
    · exact (congrArg Cell.active (cell _)).trans (congrArg Cell.active (items.cell c) :)
    · rw [← tokens, ← setSource_outq w c n (pastChange s c n k m i), ← items.cell c]
      rfl

end

/-- Settles O33, step by step of a source. -/
theorem sources : Obligations.Sources := by
  intro s c n goes
  dsimp only
  simp only [← ringOf_eq, ← srcScope_eq]
  refine ⟨fun free full => ?_, fun k z bs w cur reads => ⟨fun bad => ?_, fun low high => ?_⟩, fun k m i cur last => ?_,
    fun k m i bs w cur more room reads => ⟨fun unfit => ?_, fun fits => ?_⟩⟩
  · refine ⟨_, dsrc_takes goes free full, changeHandle_same, congrArg Dsrc.cur (source_setSource _ c n _), ?_,
      congrArg s.mem.write quiet_changeHandle.log⟩
    exact (setSource_outq _ _ _ _).trans ((onlyTraces_changeHandle _ _ _ _).outq c)
  · exact dsrc_freezes (keeps_nodeReads reads) ((dsrc_counts goes cur).trans
      (next_congr ((sourceCount_read reads).trans (if_pos bad))))
  · have sound : ¬ (leNat bs = 0 ∨ (handleOf s (c / 16) (ringOf ((cellOf s c).node n))).slotsz / 48 - 1 < leNat bs) := by omega
    refine ⟨_, (dsrc_counts goes cur).trans (next_congr ((sourceCount_read reads).trans (if_neg sound))), ?_, ?_⟩
    · exact congrArg Dsrc.cur (source_setSource w c n _)
    · exact (setSource_outq w c n _).trans (congrArg (fun t => (Tbl.getD t c Cell.reset).outq) (keeps_nodeReads reads).cells)
  · obtain ⟨quiet, handle⟩ := freeSlotOf_changes (w := Work.of s) (g := c / 16) (h := ringOf ((cellOf s c).node n)) (n := k)
    exact ⟨_, dsrc_frees goes cur last, congrArg Dsrc.cur (source_setSource _ c n _), congrArg Handle.slots handle,
      congrArg s.mem.write quiet.log⟩
  · exact dsrc_freezes (keeps_nodeReads reads) ((dsrc_sends goes cur more room).trans
      (next_congr ((sourceChange_read reads).1 unfit)))
  · obtain ⟨source, new, queue, none_, some_⟩ :=
      changeSent_leaves (s := s) (w := w) (c := c) (n := n) (k := k) (bs := bs) (m := m) (i := i)
    refine ⟨_, new, (dsrc_sends goes cur more room).trans (next_congr ((sourceChange_read reads).2 fits)), congrArg Dsrc.cur source,
      queue.trans ?_, none_, fun diff => ?_⟩
    · exact congrArg (fun t => (Tbl.getD t c Cell.reset).outq ++ new) (keeps_nodeReads reads).cells
    · obtain ⟨j, tokens⟩ := some_ diff
      exact ⟨j, tokens.trans (by simp only [changeToken, chWords_eq]; rfl)⟩

end Sys2Proof.Proofs
end

section
/-! DOUT: a slot's bytes need not be memory's, and what lies there may turn trace on (R170, R283, R416). -/

namespace Sys2Proof.Proofs

open Sys2Proof.Machine Sys2Proof.Safety Sys2Proof.Laws

/-! ## A sink whose slot ends at the trace control word -/

/-- DOUT on the ring of handle 0, without destinations. -/
def sinkRecord : NRec := BitVec.ofNat 96 (0x31 * 2 ^ 88 + 0xFFF000 * 2 ^ 64 + 0xFFF000 * 2 ^ 40)

/-- TRCTL with trace on, of firings, into the ring of handle 1 of grove 0 (R416). -/
def traceOn : Word := 0xA000000100000000

/-- A change whose last word is that control word. -/
def tracingChange : Token := { mkTok 0 0 0 0 0 [0, 0, 0, 0, 0, traceOn] with kind := 1 }

/-- The firing of node 0 of cell 0 on the change. -/
def tracingFire : Fire := ⟨0, 0, 0, 0, 0⟩

/-- What that firing shows: its node, and the change at port 0. -/
def tracingInst : Inst := ⟨sinkRecord, [(0, tracingChange)], [0]⟩

/-- Region 0 loaded, with grove 0 and cell 0, and its trace off. -/
def untracedRegion : Region :=
  { Region.reset with loaded := true, table := ⟨1, 0, 0, [(0, 0, 0, 0)], [(0, 0, 0, 0)]⟩ }

/-- Grove 0 with the sink's ring as handle 0 and the trace ring as handle 1. Its buffer holds three translations: of addresses 0 to
87, of the eight bytes at 88, which it places at region 0's TRCTL, and of the trace ring's page. -/
def sinkGrove : Grove :=
  { Grove.reset with
    region := some 0
    handles := [(0, ⟨2, 0, 64, 1, [1], 0, 0, 0⟩), (1, ⟨2, 4096, 64, 1, [0], 0, 0, 0⟩)]
    tlb := [⟨0, 0, 88, 0, 0x10E, 0⟩, ⟨0, 88, 8, 0x100800008480, 0x10E, 0⟩, ⟨0, 4096, 4096, 4096, 0x10E, 0⟩] }

/-- Cell 0 with the sink at node 0, the change at its port, and slot 0 of its ring taken. -/
def sinkCell : Cell :=
  { Cell.reset with
    nodes := [(0, sinkRecord)]
    entries := [⟨0, 0, 0, tracingChange⟩]
    douts := [(0, ⟨some 0, 0, 0, [], 0, false⟩)] }

/-- The state in which the sink fires: the region's address space has the right to set its trace (R404). -/
def tracingSink : State :=
  State.reset.via fun w => (((w.setRegion 0 untracedRegion).setGrove 0 sinkGrove).setCell 0 sinkCell).updMod fun m =>
    { m with caps := [(0, { Cap.reset with v := true, rights := 2 ^ 3 })] }

theorem tracingSink_fires : Fires tracingSink tracingFire tracingInst 0x31 :=
  ⟨by decide +kernel, by decide +kernel, by decide +kernel, by decide +kernel⟩

/-! ## What it writes -/

/-- A byte of the trace ring's slot. -/
def traceSlot : Nat := 4096

/-- The change and the count as the sink writes them. -/
def sinkWrites : Except Bad Work :=
  (nodeBegins tracingSink 0 0).vwrite ((Work.of tracingSink).accNode 0 0) 48 (bytesOf ((List.range 6).map (tokW tracingChange))) >>=
    fun w => w.vwrite ((Work.of tracingSink).accNode 0 0) 0 (leBytes 48 1)

theorem sinkWrites_slot : (sinkWrites.map fun w => (tracingSink.mem.write w.log).get traceSlot) = .ok 0 := by decide +kernel

/-- The sink's own writes are performed, and none is to the trace ring. -/
theorem sink_writes : ∃ w1 w2,
    (nodeBegins tracingSink 0 0).vwrite ((Work.of tracingSink).accNode 0 0) 48 (bytesOf ((List.range 6).map (tokW tracingChange))) =
      .ok w1 ∧
    w1.vwrite ((Work.of tracingSink).accNode 0 0) 0 (leBytes 48 1) = .ok w2 ∧ (tracingSink.mem.write w2.log).get traceSlot = 0 := by
  have slot := sinkWrites_slot
  unfold sinkWrites at slot
  rcases change : (nodeBegins tracingSink 0 0).vwrite ((Work.of tracingSink).accNode 0 0) 48
    (bytesOf ((List.range 6).map (tokW tracingChange))) with bad | w1
  · rw [change] at slot
    cases slot
  · rw [change] at slot
    rcases count : w1.vwrite ((Work.of tracingSink).accNode 0 0) 0 (leBytes 48 1) with bad | w2
    · rw [show (Except.ok w1 >>= fun w => w.vwrite ((Work.of tracingSink).accNode 0 0) 0 (leBytes 48 1)) = .error bad
        from count] at slot
      cases slot
    · rw [show (Except.ok w1 >>= fun w => w.vwrite ((Work.of tracingSink).accNode 0 0) 0 (leBytes 48 1)) = .ok w2
        from count] at slot
      exact ⟨w1, w2, rfl, count, Except.ok.inj slot⟩

/-- The change's last word turns trace on, and the firing writes a trace record, whose slot then has a count (R283, R417). -/
theorem tracingSink_traces {t : State} (e : exec .dout tracingSink = .next t) : t.mem.get traceSlot = 1 := by
  obtain rfl := Host.Outcome.next.inj e
  decide +kernel

/-- Refutes O34: the clause on a slot that is being filled says that memory holds what DOUT writes and nothing else where its region
keeps no trace before the firing. It supposes nothing of the translations that the grove's buffer holds: one of eight bytes places
the last word of a change at the region's TRCTL, which turns trace on, and the same firing is traced. -/
theorem not_sinks : ¬ Obligations.Sinks := by
  intro h
  obtain ⟨-, fills, -⟩ := h.1 tracingSink tracingFire tracingInst tracingSink_fires
  obtain ⟨w1, w2, change, count, plain⟩ := sink_writes
  obtain ⟨t, e, -, mem, -⟩ := fills (by decide +kernel) 0 w1 w2 (by decide +kernel) change count
  have same : t.mem = tracingSink.mem.write w2.log := mem (by decide +kernel)
  have traced := tracingSink_traces e
  rw [same, plain] at traced
  exact absurd traced (by decide)

end Sys2Proof.Proofs
end

section
/-! DNEG, DENTER, DFEED, DLEAVE: tokens passed on with a diff or a time changed, and counted where they go (R274, R284). -/

namespace Sys2Proof.Proofs

open Sys2Proof.Machine Sys2Proof.Safety Sys2Proof.Laws

variable {s : State} {f : Fire} {x : Inst} {i : Instr} {opc : Nat}

theorem inScope_eq (r : NRec) : inScope r = (nLit r).toNat % 16 := litF_zero r 3

theorem outScope_eq (r : NRec) : litF r 7 4 = (nLit r).toNat / 16 % 16 := rfl

theorem inCell_countOuts (c g : Nat) : ∀ (ts : List Token) (w : Work), InCell c w (countOuts g ts w)
  | [], w => .refl c w
  | _ :: ts, w => (iteInduction (motive := InCell c w) (fun _ => .refl c w) fun _ => inCell_count c w g _ _).trans
      (inCell_countOuts c g ts _)

theorem countOuts_cell (w : Work) (g : Nat) (ts : List Token) (k : Nat) : (countOuts g ts w).cell k = w.cell k :=
  (inCell_countOuts (k + 1) g ts w).cells k (Nat.ne_add_one k)

/-- A node whose operation passes tokens on sends them: all it changes besides is counts (R92, R274). -/
theorem sends_of_passed {eff : Fire → Inst → Work → NRes} {outs : List Token} (k : exec i s = run s (fireNode opc eff s.fire))
    (h : Fires s f x opc) (e : eff f x (Work.of s) = passed f outs (Work.of s)) : Sends s i f x outs :=
  sends_of_fired (k.trans (fireNode_done h e)) (inCell_countOuts _ _ _ _) (countOuts_cell _ _ _ _)

/-! ## Counts moved (R274, R275) -/

/-- A token passed on to a destination with words and a count of its own. -/
def movedTo (x : Inst) (ws : List Word) (k : Option (Nat × Nat)) (a : BitVec 24) : Token :=
  { passTo x (x.tok 0) a with payload := ws, item := k }

/-- Outputs that name a destination are all that a firing leaves in its queue. -/
theorem sent_of_named {t : State} {outs outs' : List Token} (h : Sent s t f x outs)
    (e : outs.filter (fun k => k.dest != noDst) = outs'.filter fun k => k.dest != noDst) : Sent s t f x outs' :=
  ⟨e ▸ h.outq, h.entries⟩

theorem named_movedTo (x : Inst) (ws : List Word) (k : Option (Nat × Nat)) :
    (bothTo x (movedTo x ws k)).filter (fun t => t.dest != noDst) =
      ([nDstA x.r, nDstB x.r].filter fun a => a != noDst).map (movedTo x ws k) := both_named x.r fun _ => rfl

theorem counted_rewrite (x : Inst) (ws : List Word) (j : Nat × Nat) :
    (counted j (rewrite x ws)).filter (fun k => k.dest != noDst) =
      (bothTo x (movedTo x ws (some j))).filter fun k => k.dest != noDst :=
  (emitted_counted x.r (fun _ => rfl) j).trans (named_movedTo x ws (some j)).symm

/-- A token that is no item is passed on as none. -/
theorem rewrite_none (ws : List Word) (none_ : (x.tok 0).item = none) : rewrite x ws = bothTo x (movedTo x ws none) :=
  congrArg (fun k => bothTo x (movedTo x ws k)) none_

theorem dests_eq : ∀ l : List (BitVec 24), dests l = (l.filter fun a => a != noDst).length
  | [] => rfl
  | a :: l => by
    by_cases e : a = noDst
    · simp [dests, e, dests_eq l]
    · simp [dests, e, dests_eq l, Nat.add_comm]

/-- Some output names a destination where the record does. -/
theorem rewrite_named (ws : List Word) (named : dests [nDstA x.r, nDstB x.r] ≠ 0) :
    (rewrite x ws).filter (fun k => k.dest != noDst) ≠ [] := fun none_ => by
  have made : (rewrite x ws).filter (fun k => k.dest != noDst) =
      ([nDstA x.r, nDstB x.r].filter fun a => a != noDst).map (movedTo x ws (x.tok 0).item) := named_movedTo x ws _
  rw [none_, eq_comm, List.map_eq_nil_iff] at made
  exact named ((dests_eq _).trans (congrArg List.length made))

/-- The time slots that a firing leaves are those that its operation leaves. -/
theorem fired_timeSlots (outs : List Token) (lc : Nat) (w : Work) (g : Nat) :
    (regionAt (s.finish (fired f x outs lc w)) g).timeSlots = (w.regOf g).timeSlots := by
  change ((fired f x outs lc w).region ((fired f x outs lc w).rno g)).timeSlots = _
  rw [fired_rno]
  exact (congrArg Region.timeSlots (fired_regions outs lc w (w.rno g)) :)

/-- A node whose operation moves its token's count does so (R274, R275, R284). -/
theorem moves_of_moved {eff : Fire → Inst → Work → NRes} {scope : Nat} {u : Word} {ws : List Word}
    (k : exec i s = run s (fireNode opc eff s.fire)) (h : Fires s f x opc)
    (e : eff f x (Work.of s) = moved f x scope u (rewrite x ws) (Work.of s)) : Moves s i f x scope u ws := by
  rw [moved] at e
  split at e
  · next none_ =>
    refine ⟨none, _, k.trans (fireNode_done h e), ?_, fun _ => rfl, fun j some_ => ?_⟩
    · exact rewrite_none ws none_ ▸ fired_sent rfl _ _
    · exact nomatch none_.symm.trans some_
  · next cause some_ =>
    obtain ⟨items, j, tokens, slot⟩ := countNew_counts (Work.of s) (f.cell / 16) scope u (some cause) (rewrite x ws)
    refine ⟨some j, _, k.trans (fireNode_done h e), ?_, fun none_ => ?_, fun j' same named => ?_⟩
    · exact sent_of_named (fired_sent (congrArg unmarked (items.cell f.cell)) _ _) (tokens ▸ counted_rewrite x ws j)
    · exact nomatch some_.symm.trans none_
    · obtain rfl := Option.some.inj (some_.symm.trans same)
      rw [fired_timeSlots, Work.regOf, items.homes]
      exact (slot (rewrite_named ws named)).imp (congrArg some) fun ⟨n, low, e, mem⟩ => ⟨n, low, congrArg some e, mem⟩

/-! ## The operators (R284) -/

/-- The shape that a time operator reads its input's time in. -/
def opShape (s : State) (f : Fire) (x : Inst) : Word := (regionAt s (f.cell / 16)).shape (inScope x.r)

/-- The time of a time operator's input. -/
def opTime (x : Inst) : Word := chTime (changeOf (x.tok 0))

/-- The innermost field of a time operator's input is full. -/
def FieldFull (s : State) (f : Fire) (x : Inst) : Prop :=
  innermost (opShape s f x) (opTime x) + 1 = 2 ^ shWidth (opShape s f x) (shDepth (opShape s f x))

/-- The time operators pass a null token as null (R97). -/
theorem timeOp_null (op : (i, opc) ∈ ([(.dneg, 0x36), (.denter, 0x37), (.dfeed, 0x38), (.dleave, 0x39)] : List (Instr × Nat)))
    (h : Fires s f x opc) (null : x.anyNull = true) : Sends s i f x (bothTo x (nullPass x (x.tok 0))) := by
  simp only [List.mem_cons, List.not_mem_nil, or_false, Prod.mk.injEq] at op
  obtain ⟨rfl, rfl⟩ | ⟨rfl, rfl⟩ | ⟨rfl, rfl⟩ | ⟨rfl, rfl⟩ := op
  all_goals exact sends_of_done rfl h (if_pos null)

section

variable (some_ : x.anyNull = false)
include some_

theorem not_anyNull : ¬ x.anyNull = true := fun null => nomatch null.symm.trans some_

theorem dneg_freezes (h : Fires s f x 0x36) (least : chDiff (changeOf (x.tok 0)) = -2147483648) : Freezes s .dneg f x 0x12 :=
  freezes_of_fault rfl h ((if_neg (not_anyNull some_)).trans (if_pos least))

theorem dneg_sends (h : Fires s f x 0x36) (negates : chDiff (changeOf (x.tok 0)) ≠ -2147483648) :
    Sends s .dneg f x (rewrite x (chWords (changeOf (x.tok 0)) (opTime x) (-chDiff (changeOf (x.tok 0)))
      (bv 32 (fld ((changeOf (x.tok 0)).getD 5 0) 63 32)))) :=
  sends_of_passed rfl h ((if_neg (not_anyNull some_)).trans (if_neg negates))

theorem denter_freezes (h : Fires s f x 0x37) (no : isTime (opShape s f x) (opTime x) = false) : Freezes s .denter f x 0x11 :=
  freezes_of_fault rfl h ((if_neg (not_anyNull some_)).trans (if_pos no))

theorem denter_moves (h : Fires s f x 0x37) (time : isTime (opShape s f x) (opTime x) = true) :
    Moves s .denter f x (litF x.r 7 4) (opTime x) (changeOf (x.tok 0)) :=
  moves_of_moved rfl h ((if_neg (not_anyNull some_)).trans (if_neg (ne_false_of_eq_true time)))

theorem dfeed_freezes (h : Fires s f x 0x38)
    (no : isTime (opShape s f x) (opTime x) = false ∨ FieldFull s f x) : Freezes s .dfeed f x 0x11 :=
  freezes_of_fault rfl h ((if_neg (not_anyNull some_)).trans (if_pos no))

theorem dfeed_moves (h : Fires s f x 0x38) (time : isTime (opShape s f x) (opTime x) = true)
    (below : ¬ FieldFull s f x) :
    let u := opTime x + bv 64 (2 ^ shOff (opShape s f x) (shDepth (opShape s f x)))
    Moves s .dfeed f x (inScope x.r) u (setAt (changeOf (x.tok 0)) 4 u) :=
  moves_of_moved rfl h ((if_neg (not_anyNull some_)).trans (if_neg (not_or.2 ⟨ne_false_of_eq_true time, below⟩)))

theorem dleave_freezes (h : Fires s f x 0x39) (no : isTime (opShape s f x) (opTime x) = false) : Freezes s .dleave f x 0x11 :=
  freezes_of_fault rfl h ((if_neg (not_anyNull some_)).trans (if_pos no))

theorem dleave_moves (h : Fires s f x 0x39) (time : isTime (opShape s f x) (opTime x) = true) :
    let u := bv 64 ((opTime x).toNat % 2 ^ shOff (opShape s f x) (shDepth (opShape s f x)))
    Moves s .dleave f x (litF x.r 7 4) u (setAt (changeOf (x.tok 0)) 4 u) :=
  moves_of_moved rfl h ((if_neg (not_anyNull some_)).trans (if_neg (ne_false_of_eq_true time)))

end

/-- The hash of a change: the high half of word 5 (R77). -/
theorem hash_eq (w : Word) : bv 32 (fld w 63 32) = w.extractLsb' 32 32 := by
  apply BitVec.eq_of_toNat_eq
  rw [BitVec.toNat_ofNat, BitVec.extractLsb'_toNat, Nat.shiftRight_eq_div_pow]
  exact Nat.mod_eq_of_lt (Nat.mod_lt _ (by decide))

/-- Settles O35, operator by operator. -/
theorem timeOperators : Obligations.TimeOperators := by
  intro s f x
  dsimp only
  simp only [← inScope_eq, ← outScope_eq]
  refine ⟨fun _ _ op h null => timeOp_null op h null, fun some_ => ⟨dneg_freezes some_, fun h negates => ?_, denter_freezes some_,
    denter_moves some_, dfeed_freezes some_, dfeed_moves some_, dleave_freezes some_, dleave_moves some_⟩⟩
  have sent := dneg_sends some_ h negates
  rw [chWords_eq, hash_eq] at sent
  exact sent

end Sys2Proof.Proofs
end

section
/-! FRD, FWAIT and FADV: a core reads its copies, waits for a time, and moves a source's element up (R286 to R289). -/

namespace Sys2Proof.Proofs

open Sys2Proof.Machine Sys2Proof.Safety Sys2Proof.Laws

variable {s : State} {g c n : Nat} {d k m a b : BitVec 5} {sc : Nat} {live : BitVec 32} {w : Work}

theorem coreOf_withCore (s : State) (g : Nat) (c : Core) : coreOf (withCore s g c) g = c := setCore_same (Work.of s) g c

theorem complete_iff {x t : Word} {fr : List Word} : complete x fr t = true ↔ ∀ f ∈ fr, timeLe x f t = false := by
  simp [complete]

/-! ## A slot that is bound to no scope (R286) -/

section

variable (unbound : (regionAt s g).bound k.toNat = none) (h : OnCore s g)
include unbound h

theorem frd_unbound (ok : (Instr.frd d k m).coreOk = true) : Raises s g (.frd d k m) 0x09 0 :=
  coreInstr_fault h ok (need_fails (congrArg Option.isSome unbound) _ _)

theorem frdStat_unbound (ok : (Instr.frdStat d k).coreOk = true) : Raises s g (.frdStat d k) 0x09 0 := by
  refine coreInstr_fault h ok ?_
  dsimp only
  rw [show ((Work.of s).regOf g).bound k.toNat = none from unbound]
  rfl

theorem fwait_unbound (ok : (Instr.fwait d k b).coreOk = true) : Raises s g (.fwait d k b) 0x09 0 := by
  refine coreInstr_fault h ok ?_
  dsimp only
  rw [show ((Work.of s).regOf g).bound k.toNat = none from unbound]
  rfl

end

/-! ## FRD (R287) -/

/-- An instruction that acquires, writes a register and goes on leaves bytes and cells. -/
theorem did_acquire_cells {i : Instr} {f : Nat → Work → Except Stop Work} {v : Word} (h : Ready s g) (ok : i.coreOk = true)
    (x : exec i s = run s (coreInstr i f)) (e : f g (Work.of s) = ((Work.of s).acquire g).give g d v) :
    ∃ t, Did s g i d v t ∧ t.mem = s.mem ∧ t.cells = s.cells := by
  obtain ⟨t, did, mem, cells, -⟩ := did_access h ok x (keeps_setPtime (Work.of s) (.core g) _) e
  exact ⟨t, did, mem.trans (congrArg s.mem.write (acquire_log (Work.of s) g)), cells⟩

section

variable (bound : (regionAt s g).bound k.toNat = some sc)
include bound

theorem frd_answers (h : Ready s g) (ok : (Instr.frd d k m).coreOk = true) :
    ∃ t, Did s g (.frd d k m) d ((copyOf s g k.toNat).elems.getD m.toNat (BitVec.allOnes 64)) t ∧
      t.mem = s.mem ∧ t.cells = s.cells :=
  did_acquire_cells h ok rfl (need_holds (congrArg Option.isSome bound) _ _)

theorem frdStat_answers (h : Ready s g) (ok : (Instr.frdStat d k).coreOk = true) : ∃ t, Did s g (.frdStat d k) d
    (BitVec.ofNat 64 ((copyOf s g k.toNat).count * 2 ^ 32 + 256 + sc * 16 + (copyOf s g k.toNat).elems.length)) t ∧
      t.mem = s.mem ∧ t.cells = s.cells := by
  refine did_acquire_cells h ok rfl ?_
  dsimp only
  rw [show ((Work.of s).regOf g).bound k.toNat = some sc from bound]
  rfl

/-! ## FWAIT (R288) -/

theorem fwait_untimely (h : OnCore s g) (ok : (Instr.fwait d k b).coreOk = true)
    (no : isTime ((regionAt s g).shape sc) (reg s g b) = false) : Raises s g (.fwait d k b) 0x09 0 := by
  refine coreInstr_fault h ok ?_
  dsimp only
  rw [show ((Work.of s).regOf g).bound k.toNat = some sc from bound]
  exact need_fails no _ _

variable (time : isTime ((regionAt s g).shape sc) (reg s g b) = true)
include time

theorem fwait_goes_on (h : Ready s g) (ok : (Instr.fwait d k b).coreOk = true)
    (done : ∀ f ∈ (copyOf s g k.toNat).elems, timeLe ((regionAt s g).shape sc) f (reg s g b) = false) :
    ∃ t, Did s g (.fwait d k b) d 0 t ∧ t.mem = s.mem := by
  refine did_acquire h ok rfl ?_
  dsimp only
  rw [show ((Work.of s).regOf g).bound k.toNat = some sc from bound]
  exact (need_holds time _ _).trans (if_pos (complete_iff.2 done))

/-- A core whose task is at a time. -/
def timed (c : Core) (t : Word) : Core := { c with task := some { c.cur with time := t } }

omit bound time in
/-- A task may suspend at whatever time it is (R147). -/
theorem maySuspend_timed {pc : BitVec 16} (t : Word) (may : MaySuspend s g live pc) :
    MaySuspend (withCore s g (timed (coreOf s g) t)) g live pc := by
  obtain ⟨loop, trap, entry, room, go⟩ := may
  have held : (Work.of (withCore s g (timed (coreOf s g) t))).slotsHeld g = (Work.of s).slotsHeld g :=
    (congrArg (fun k : Core => slotSum k.slots + slotSum ((Work.of s).frozenTasks g)) (coreOf_withCore s g _) :)
  rw [MaySuspend, held, MayGo, coreOf_withCore]
  exact ⟨loop, trap, entry, room, go⟩

/-- FWAIT at a time that is not complete suspends the task at that time (R288). -/
theorem fwait_suspends (h : OnCore s g) (ok : (Instr.fwait d k b).coreOk = true)
    (open_ : ∃ f ∈ (copyOf s g k.toNat).elems, timeLe ((regionAt s g).shape sc) f (reg s g b) = true)
    (may : MaySuspend s g live ((coreOf s g).pc + 4)) :
    ∃ u x, exec (.fwait d k b) s = .next u ∧ (coreOf u g).task = none ∧ (coreOf u g).slots = (coreOf s g).slots ++ [x] ∧
      x.pc = (coreOf s g).pc + 4 ∧ x.wait = 6 ∧ x.wobj = k.toNat ∧ x.dreg = d ∧ x.since = none ∧ x.task.time = reg s g b ∧
      x.regs = (coreOf s g).saved live (some b) d ∧ u.mem = s.mem := by
  have core := coreOf_withCore s g (timed (coreOf s g) (reg s g b))
  have incomplete : ¬ complete ((regionAt s g).shape sc) (copyOf s g k.toNat).elems (reg s g b) = true := fun e => by
    obtain ⟨f, mem, le⟩ := open_
    exact nomatch le.symm.trans (complete_iff.1 e f mem)
  refine ⟨_, suspension (withCore s g (timed (coreOf s g) (reg s g b))) g 6 k.toNat (some b) d ((coreOf s g).pc + 4) live false,
    coreInstr_ok h ok (Eq.trans ?_ (suspend_ok (kind := 6) (obj := k.toNat) (val := some b) (dreg := d) (runnable := false)
      (maySuspend_timed (reg s g b) may))), congrArg Core.task (core_finish_put _ _ _),
    (congrArg Core.slots (core_finish_put _ _ _)).trans ?_, rfl, rfl, rfl, rfl, rfl, ?_, ?_, rfl⟩
  · dsimp only
    rw [show ((Work.of s).regOf g).bound k.toNat = some sc from bound]
    exact (need_holds time _ _).trans (if_neg incomplete)
  · exact (congrArg (fun k : Core => k.slots ++ [_]) core :)
  · exact congrArg (fun k : Core => k.cur.time) core
  · exact (congrArg (fun k : Core => k.saved live (some b) d) core :)

end

/-! ## FADV (R289) -/

/-- A step in which cores go on alike leaves the bytes and cells that it has written (R206). -/
theorem did_giving_cells {i : Instr} {f : Nat → Work → Except Stop Work} {v : Word} (h : Ready s g) (ok : i.coreOk = true)
    (x : exec i s = run s (coreInstr i f)) (quiet : Quiet (Work.of s) w) (e : f g (Work.of s) = w.give g d v) :
    ∃ t, Did s g i d v t ∧ t.cells = w.cells ∧ t.mem = s.mem := by
  have alike : RunsAlike (coreOf s g) (w.core g) := quiet.cores g
  have gives : w.give g d v = .ok (w.setCore g ((w.core g).setReg d v).step) := give_ok d v (by
    rw [quiet.areas g, alike.pc, alike.step.1]
    exact h.2)
  obtain ⟨t, did, -, -, -, mem⟩ := didIn_of_effect h.1 ok x alike (e.trans gives)
  obtain rfl := Host.Outcome.next.inj (did.runs.symm.trans (x.trans (coreInstr_ok h.1 ok (e.trans gives))))
  exact ⟨_, did, rfl, congrArg s.mem.write quiet.log⟩

theorem quiet_setSource (w : Work) (c n : Nat) (d : Dsrc) : Quiet w (w.setSource c n d) := ⟨⟨fun _ => .refl _, fun _ => rfl⟩, rfl⟩

/-- The work in which a source stands at an element, or is closed: its item counts there, and no longer where it stood (R289). -/
def movedUp (w : Work) (r : NRec) (c n : Nat) (v : Word) : Work :=
  if v == BitVec.allOnes 64 then
    (w.count (c / 16) (some (w.source c n).item) false).setSource c n { w.source c n with isOpen := false, element := v }
  else
    let p := w.newItem (c / 16) (srcScope r) v (some (w.source c n).item)
    (p.2.count (c / 16) (some (w.source c n).item) false).setSource c n { w.source c n with element := v, item := p.1 }

theorem quiet_movedUp (w : Work) (r : NRec) (c n : Nat) (v : Word) : Quiet w (movedUp w r c n v) := by
  unfold movedUp
  split
  · exact (itemsOnly_count w _ _ _).quiet.trans (quiet_setSource _ _ _ _)
  · exact ((itemsOnly_newItem w _ _ v _).trans (itemsOnly_count _ _ _ _)).quiet.trans (quiet_setSource _ _ _ _)

theorem source_movedUp (r : NRec) (v : Word) (isOpen : (w.source c n).isOpen = true) :
    ((movedUp w r c n v).source c n).element = v ∧
      ((movedUp w r c n v).source c n).isOpen = decide (v ≠ BitVec.allOnes 64) := by
  unfold movedUp
  split
  · next closes =>
    rw [source_setSource]
    exact ⟨rfl, (decide_eq_false fun other => other (beq_iff_eq.1 closes)).symm⟩
  · next stays =>
    have other : v ≠ BitVec.allOnes 64 := fun same => stays (beq_iff_eq.2 same)
    rw [source_setSource]
    exact ⟨rfl, isOpen.trans (decide_eq_true other).symm⟩

theorem sourceAt_names {x : Word} (cell : w.lcell (w.rno g) (x.toNat % 2 ^ 12) = some c) (node : x.toNat / 2 ^ 12 = n)
    (low : n < 2 ^ 10) (opc : nOpc ((w.cell c).node n) = 0x30) : w.sourceAt g x = .ok (c, n) := by
  have none_above : fld x 63 22 = 0 := by
    simp only [fld, bits]
    omega
  have cellField : fld x 11 0 = x.toNat % 2 ^ 12 := by
    simp only [fld, bits]
    omega
  have nodeField : fld x 21 12 = n := by
    simp only [fld, bits]
    omega
  rw [Work.sourceAt, if_neg (not_not.2 none_above), cellField, cell, nodeField]
  exact if_pos opc

theorem sourceAt_above {x : Word} (above : x.toNat / 2 ^ 22 ≠ 0) : w.sourceAt g x = .error (flt 0x09) := by
  refine if_pos ?_
  have := x.isLt
  simp only [fld, bits]
  omega

theorem fadv_above (h : OnCore s g) (ok : (Instr.fadv d a b).coreOk = true) (above : (reg s g a).toNat / 2 ^ 22 ≠ 0) :
    Raises s g (.fadv d a b) 0x09 0 := coreInstr_fault h ok (congrArg (· >>= _) (sourceAt_above above))

/-- A source has drained what was posted before: it reads no slot, and none is full (R289; log entry 71). -/
def Drained (s : State) (c n : Nat) : Prop :=
  (sourceOf s c n).cur = none ∧ 2 ∉ (handleOf s (c / 16) (ringOf ((cellOf s c).node n))).slots

theorem drained_iff : Drained s c n ↔ ¬ ((((Work.of s).source c n).cur.isSome ||
    (((Work.of s).grove (c / 16)).handle (ringOf (((Work.of s).cell c).node n))).slots.contains 2) = true) := by
  rw [Drained, Bool.or_eq_true, not_or, Bool.not_eq_true, Option.isSome_eq_false_iff, Option.isNone_iff_eq_none,
    List.contains_iff_mem]
  rfl

/-- A source may take an element: it is open, and the element closes it or is a time of its scope and no step back (R289). -/
def TakesElement (s : State) (g c n : Nat) (v : Word) : Prop :=
  (sourceOf s c n).isOpen = true ∧ (v = BitVec.allOnes 64 ∨
    isTime ((regionAt s g).shape (srcScope ((cellOf s c).node n))) v = true ∧
      timeLe ((regionAt s g).shape (srcScope ((cellOf s c).node n))) (sourceOf s c n).element v = true)

theorem takesElement_iff {v : Word} : TakesElement s g c n v ↔
    (((Work.of s).source c n).isOpen && (v == BitVec.allOnes 64 ||
      (isTime (((Work.of s).regOf g).shape (srcScope (((Work.of s).cell c).node n))) v &&
        timeLe (((Work.of s).regOf g).shape (srcScope (((Work.of s).cell c).node n)))
          ((Work.of s).source c n).element v))) = true := by
  rw [Bool.and_eq_true, Bool.or_eq_true, beq_iff_eq, Bool.and_eq_true]
  rfl

section

variable (h : OnCore s g) (ok : (Instr.fadv d a b).coreOk = true)
  (names : (Work.of s).sourceAt g (reg s g a) = .ok (c, n))
include h ok names

theorem fadv_holds (busy : ¬ Drained s c n) : Holds s g (.fadv d a b) :=
  coreInstr_hold h ok ((congrArg (· >>= _) names).trans (if_pos (not_not.1 (mt drained_iff.2 busy))))

variable (drained : Drained s c n)
include drained

theorem fadv_refused (bad : ¬ TakesElement s g c n (reg s g b)) : Raises s g (.fadv d a b) 0x09 0 :=
  coreInstr_fault h ok ((congrArg (· >>= _) names).trans ((if_neg (drained_iff.1 drained)).trans
    (need_fails (Bool.eq_false_iff.2 (mt takesElement_iff.2 bad)) _ _)))

theorem fadv_advances (good : TakesElement s g c n (reg s g b)) (go : MayGo s g (coreOf s g).step.pc) :
    ∃ t, Did s g (.fadv d a b) d (sourceOf s c n).element t ∧ t.mem = s.mem ∧ (sourceOf t c n).element = reg s g b ∧
      (sourceOf t c n).isOpen = decide (reg s g b ≠ BitVec.allOnes 64) := by
  obtain ⟨t, did, cells, mem⟩ := did_giving_cells ⟨h, go⟩ ok rfl (quiet_movedUp (Work.of s) ((cellOf s c).node n) c n (reg s g b))
    ((congrArg (· >>= _) names).trans ((if_neg (drained_iff.1 drained)).trans (need_holds (takesElement_iff.1 good) _ _)))
  have source : sourceOf t c n = (movedUp (Work.of s) ((cellOf s c).node n) c n (reg s g b)).source c n :=
    source_of_cell (congrArg (fun t => (Tbl.getD t c Cell.reset).dsrcs) cells)
      (congrArg (fun t => (Tbl.getD t c Cell.reset).active) cells)
  obtain ⟨element, isOpen⟩ := source_movedUp (w := Work.of s) (c := c) (n := n) ((cellOf s c).node n) (reg s g b) good.1
  exact ⟨t, did, mem, (congrArg Dsrc.element source).trans element, (congrArg Dsrc.isOpen source).trans isOpen⟩

end

/-- Settles O37, instruction by instruction. -/
theorem frontierInstructions : Obligations.FrontierInstructions := by
  intro s g h
  dsimp only
  simp only [← ringOf_eq, ← srcScope_eq]
  refine ⟨fun d ok go => coreInstr_give ⟨h, go⟩ ok rfl, fun d k n b =>
      ⟨fun none_ => ⟨frd_unbound none_ h, frdStat_unbound none_ h, fwait_unbound none_ h⟩, fun sc bound =>
        ⟨fun go => ⟨frd_answers bound ⟨h, go⟩, frdStat_answers bound ⟨h, go⟩, fun ok time => fwait_goes_on bound time ⟨h, go⟩ ok⟩,
          fwait_untimely bound h, fun live ok time => fwait_suspends bound time h ok⟩⟩,
    fun d a b c n ok => ⟨fun cell node low opc => ?_, fadv_above h ok⟩⟩
  have names : (Work.of s).sourceAt g (reg s g a) = .ok (c, n) := sourceAt_names cell node low opc
  exact ⟨fadv_holds h ok names, fadv_refused h ok names, fadv_advances h ok names⟩

end Sys2Proof.Proofs
end

section
/-! DPROBE, the root's frontiers and the units' copies of them (R277, R278, R285). -/

namespace Sys2Proof.Proofs

open Sys2Proof.Machine Sys2Proof.Safety Sys2Proof.Laws

variable {s : State} {f : Fire} {x : Inst} {c k n r sc u : Nat}

/-! ## Reports (R285) -/

theorem slotOf_eq (r : NRec) : litF r 4 0 = (nLit r).toNat % 32 := litF_zero r 4

theorem probed_eq (s : State) (c : Nat) (r : NRec) : (cellOf s c).probed r = probedBy s c r := by
  rw [Cell.probed, slotOf_eq, probedBy]

theorem report_eq (s : State) (c : Nat) (r : NRec) (y : FCopy) : (Work.of s).report c r y = reportOf s c r y := by
  unfold Work.report reportOf
  rw [slotOf_eq]
  rfl

/-- Where only times of the module differ, work stays in any cell. -/
theorem TimesOnly.inCell {w v : Work} (h : TimesOnly w v) (c : Nat) : InCell c w v := by
  obtain ⟨_, _, _, _, rfl⟩ := h
  exact ⟨rfl, rfl, rfl, rfl, fun _ => rfl, fun _ _ => rfl⟩

theorem TimesOnly.cell {w v : Work} (h : TimesOnly w v) (c : Nat) : v.cell c = w.cell c :=
  (h.inCell (c + 1)).cells c (Nat.ne_add_one c)

theorem timesOnly_acquireCell (w : Work) (c : Nat) : TimesOnly w (w.acquireCell c) := timesOnly_follow w (apart_cell c) _

/-- DPROBE answers a trigger with its report, and a null one with nulls (R97, R285). -/
theorem dprobe_sends (h : Fires s f x 0x3A) :
    Sends s .dprobe f x (if x.anyNull then nullTo f x else wordsTo f x (reportOf s f.cell x.r (probedBy s f.cell x.r))) := by
  split
  · next null => exact sends_of_done rfl h (if_pos null)
  · next some_ =>
    have times := timesOnly_acquireCell (Work.of s) f.cell
    rw [← report_eq, ← probed_eq]
    exact sends_of_fired (fireNode_done h (if_neg some_)) (times.inCell _) (times.cell _)

/-! ## Changes watched (R285) -/

/-- A cell in which a probe has reported the first of its changes (R285). -/
def changeReported (s : State) (c n : Nat) (y : FCopy) (q : List FCopy) : Cell :=
  ({ cellOf s c with probes := Tbl.put (cellOf s c).probes ((cellOf s c).key n) q } : Cell).emit
    (both ((cellOf s c).node n) fun d =>
      mkTok d 0 0 (bv 8 y.count) (nPrio ((cellOf s c).node n)) ((Work.of s).report c ((cellOf s c).node n) y))

theorem dprobeWatch_reports {y : FCopy} {q : List FCopy} (goes : NodeGoes s c n 0x3A) (due : (cellOf s c).unreported n = y :: q)
    (room : (cellOf s c).room (reserved (Tbl.vals (cellOf s c).twigs) +
      dests [nDstA ((cellOf s c).node n), nDstB ((cellOf s c).node n)]) = true) :
    exec (.dprobeWatch c n) s = .next (s.finish (((Work.of s).setCell c (changeReported s c n y q)).acquireCell c)) := by
  refine next_congr ?_
  dsimp only
  rw [show ((Work.of s).cell c).unreported n = y :: q from due]
  exact if_pos ⟨goes, room⟩

theorem dprobeWatch_leaves {y : FCopy} {q : List FCopy} (goes : NodeGoes s c n 0x3A) (due : (cellOf s c).unreported n = y :: q)
    (room : (cellOf s c).room (reserved (Tbl.vals (cellOf s c).twigs) +
      dests [nDstA ((cellOf s c).node n), nDstB ((cellOf s c).node n)]) = true) :
    ∃ t, exec (.dprobeWatch c n) s = .next t ∧ t.mem = s.mem ∧ t.cores = s.cores ∧ (cellOf t c).unreported n = q ∧
      (cellOf t c).outq = (cellOf s c).outq ++
        ([nDstA ((cellOf s c).node n), nDstB ((cellOf s c).node n)].filter fun d => d != noDst).map fun d =>
          mkTok d 0 0 (BitVec.ofNat 8 y.count) (nPrio ((cellOf s c).node n)) (reportOf s c ((cellOf s c).node n) y) := by
  have times := timesOnly_acquireCell ((Work.of s).setCell c (changeReported s c n y q)) c
  have cell : cellOf (s.finish (((Work.of s).setCell c (changeReported s c n y q)).acquireCell c)) c = changeReported s c n y q :=
    (times.cell c).trans (setCell_same _ _ _)
  refine ⟨_, dprobeWatch_reports goes due room, congrArg s.mem.write times.log, (times.inCell c).cores, ?_, ?_⟩
  · rw [cell]
    exact getD_put_same _ _ _ _
  · rw [cell, ← report_eq]
    exact congrArg _ (both_named _ fun _ => rfl)

/-! ## The root's frontier made anew (R277; log entry 90) -/

theorem recompute_runs (still : (Work.of s).scopeBehind r sc = false) :
    exec (.frontierRecompute r sc) s = .next (s.finish ((Work.of s).recompute r sc)) :=
  next_congr (if_neg (ne_true_of_eq_false still))

theorem region_recompute (w : Work) (r sc : Nat) : (w.recompute r sc).region r =
    { w.region r with
      timeSlots := (w.region r).timeSlots.filter fun e => w.slotLive r e.1
      rootF := Tbl.put (w.region r).rootF sc (w.frontierOf r sc) } := setRegion_same w r _

/-- Some grove of a region counts a time slot where the slot is live (R276). -/
theorem slotLive_iff (s : State) (r j : Nat) : (Work.of s).slotLive r j = true ↔
    ∃ g ∈ (Work.of s).grovesOf r, Tbl.getD (groveOf s g).prog j 0 ≠ 0 := by
  rw [Work.slotLive, List.any_eq_true]
  exact exists_congr fun g => and_congr_right fun _ => bne_iff_ne

theorem recompute_leaves (still : (Work.of s).scopeBehind r sc = false) :
    ∃ t, exec (.frontierRecompute r sc) s = .next t ∧ t.mem = s.mem ∧ t.cells = s.cells ∧ t.cores = s.cores ∧
      Tbl.find (regionOf t r).rootF sc = some ((Work.of s).frontierOf r sc) ∧
      ∀ e, e ∈ (regionOf t r).timeSlots ↔ e ∈ (regionOf s r).timeSlots ∧
        ∃ g ∈ (Work.of s).grovesOf r, Tbl.getD (groveOf s g).prog e.1 0 ≠ 0 := by
  have region : regionOf (s.finish ((Work.of s).recompute r sc)) r = _ := region_recompute (Work.of s) r sc
  refine ⟨_, recompute_runs still, rfl, rfl, rfl, ?_, fun e => ?_⟩
  · rw [region]
    exact find_put_same _ _ _
  · rw [region, ← slotLive_iff]
    exact List.mem_filter

/-! ## Copies (R278) -/

/-- A copy that takes a frontier: where that changes it, its update count rises by one (R278). -/
def CopyTakes (fr : List Word) (old new : FCopy) : Prop :=
  new.elems = fr ∧ new.count = if old.elems = fr then old.count else old.count + 1

theorem copyTakes_same {fr : List Word} {old : FCopy} (same : old.elems = fr) : CopyTakes fr old old := ⟨same, (if_pos same).symm⟩

theorem copyTakes_new {fr : List Word} {old : FCopy} (other : old.elems ≠ fr) : CopyTakes fr old ⟨fr, old.count + 1⟩ :=
  ⟨rfl, (if_neg other).symm⟩

theorem copyAt_put (cs : Tbl FCopy) (k : Nat) (y : FCopy) : copyAt (Tbl.put cs k y) k = y := getD_put_same _ _ _ _

theorem delivery_runs (still : (regionOf s r).freezing = none) (isCell : Bool) :
    exec (.frontierDelivery r k isCell u) s = .next (s.finish ((Work.of s).deliverFrontier r k isCell u)) :=
  next_congr (if_neg (ne_true_of_eq_false (congrArg Option.isSome still)))

/-- A cell whose copy of a slot takes a frontier (R278). -/
def cellTaking (k : Nat) (fr : List Word) (c : Cell) : Cell :=
  if (copyAt c.fcopies k).elems = fr then c else c.frontier k ⟨fr, (copyAt c.fcopies k).count + 1⟩

theorem copyTakes_cell (k : Nat) (fr : List Word) (c : Cell) :
    CopyTakes fr (copyAt c.fcopies k) (copyAt (cellTaking k fr c).fcopies k) := by
  unfold cellTaking
  split
  · next same => exact copyTakes_same same
  · next other =>
    rw [show (c.frontier k _).fcopies = Tbl.put c.fcopies k _ from rfl, copyAt_put]
    exact copyTakes_new other

/-- Appending to entries of a table, in turn, leaves a value that an entry holds. -/
theorem mem_appends (y : FCopy) (j : Nat) : ∀ (l : List (Nat × NRec)) (t : Tbl (List FCopy)),
    (y ∈ Tbl.getD t j [] ∨ ∃ e ∈ l, e.1 = j) →
      y ∈ Tbl.getD (l.foldl (fun t e => Tbl.put t e.1 (Tbl.getD t e.1 [] ++ [y])) t) j []
  | [], _, h => h.resolve_right fun ⟨_, mem, _⟩ => nomatch mem
  | a :: l, t, h => by
    refine mem_appends y j l _ ?_
    by_cases e : a.1 = j
    · left
      subst e
      rw [getD_put_same]
      exact List.mem_append_right _ (List.mem_singleton_self y)
    · refine h.imp (fun held => ?_) fun ⟨b, mem, key⟩ => ?_
      · rw [getD_put_other _ _ _ e]
        exact held
      · exact ⟨b, (List.mem_cons.1 mem).resolve_left fun same => e (same ▸ key), key⟩

/-- A node that has an operation has a record in its cell (R89). -/
theorem node_mem {c : Cell} (opc : nOpc (c.node n) ≠ nOpc 0) : (c.key n, c.node n) ∈ c.nodes := by
  cases found : Tbl.find c.nodes (c.key n) with
  | none =>
    refine absurd (congrArg nOpc ?_) opc
    rw [Cell.node, Tbl.getD, found]
    rfl
  | some v =>
    have node : c.node n = v := by
      rw [Cell.node, Tbl.getD, found]
      rfl
    exact node ▸ mem_of_find found

/-- A probe that watches a slot has the change of its cell's copy to report (R285). -/
theorem cellTaking_unreported {fr : List Word} {c : Cell} (low : n < 1024) (changes : (copyAt c.fcopies k).elems ≠ fr)
    (opc : nOpc (c.node n) = 0x3A) (watches : osb0 (c.node n) = true) (slot : (nLit (c.node n)).toNat % 32 = k) :
    copyAt (cellTaking k fr c).fcopies k ∈ (cellTaking k fr c).unreported n := by
  have active : c.key n / 1024 = c.active := by
    rw [Cell.key]
    omega
  have watched : (c.key n, c.node n) ∈ c.nodes.filter fun e =>
      e.1 / 1024 == c.active && nOpc e.2 == 0x3A && osb0 e.2 && litF e.2 4 0 == k :=
    List.mem_filter.2 ⟨node_mem (by rw [opc]; decide), by simp [active, opc, watches, slotOf_eq, slot]⟩
  rw [cellTaking, if_neg changes, show (c.frontier k _).fcopies = Tbl.put c.fcopies k _ from rfl, copyAt_put]
  exact mem_appends _ (c.key n) _ _ (.inr ⟨_, watched, rfl⟩)

/-- A core whose copy of a slot takes a frontier (R278). -/
def coreTaking (k : Nat) (fr : List Word) (c : Core) : Core :=
  { c with fcopies :=
    if (copyAt c.fcopies k).elems = fr then c.fcopies else Tbl.put c.fcopies k ⟨fr, (copyAt c.fcopies k).count + 1⟩ }

theorem copyTakes_core (k : Nat) (fr : List Word) (c : Core) :
    CopyTakes fr (copyAt c.fcopies k) (copyAt (coreTaking k fr c).fcopies k) := by
  unfold coreTaking
  dsimp only
  split
  · next same => exact copyTakes_same same
  · next other =>
    rw [copyAt_put]
    exact copyTakes_new other

/-- Tasks that wait for a frontier are looked at again in their core's slots alone (R288). -/
theorem core_wakeFwait (w : Work) (r u : Nat) : ∃ slots, (w.wakeFwait r u).core u = { w.core u with slots := slots } :=
  ⟨_, core_updCore w u _⟩

section

variable (bound : (regionOf s r).bound k = some sc)
include bound

theorem cell_delivered : (Work.of s).deliverFrontier r k true u =
    (Work.of s).updCell u (cellTaking k (Tbl.getD (regionOf s r).rootF sc [])) := by
  rw [Work.deliverFrontier, show ((Work.of s).region r).bound k = some sc from bound]
  rfl

theorem core_delivered : (Work.of s).deliverFrontier r k false u =
    ((Work.of s).updCore u (coreTaking k (Tbl.getD (regionOf s r).rootF sc []))).wakeFwait r u := by
  rw [Work.deliverFrontier, show ((Work.of s).region r).bound k = some sc from bound]
  rfl

variable (still : (regionOf s r).freezing = none)
include still

theorem delivery_cell (u : Nat) : ∃ t, exec (.frontierDelivery r k true u) s = .next t ∧ t.mem = s.mem ∧ t.cores = s.cores ∧
    cellOf t u = cellTaking k (Tbl.getD (regionOf s r).rootF sc []) (cellOf s u) := by
  refine ⟨_, delivery_runs still true, ?_⟩
  rw [cell_delivered bound]
  exact ⟨rfl, rfl, setCell_same _ _ _⟩

theorem delivery_core (u : Nat) : ∃ t slots, exec (.frontierDelivery r k false u) s = .next t ∧ t.mem = s.mem ∧ t.cells = s.cells ∧
    coreOf t u = { coreTaking k (Tbl.getD (regionOf s r).rootF sc []) (coreOf s u) with slots := slots } := by
  obtain ⟨slots, core⟩ := core_wakeFwait ((Work.of s).updCore u (coreTaking k (Tbl.getD (regionOf s r).rootF sc []))) r u
  refine ⟨_, slots, delivery_runs still false, ?_⟩
  rw [core_delivered bound]
  exact ⟨rfl, rfl, core.trans (congrArg (fun c : Core => { c with slots := slots }) (core_updCore _ _ _))⟩

end

end Sys2Proof.Proofs
end

section
/-! Times of a shape: their fields, order, joins and meets, frontiers narrowed and times advanced (R270 to R272, R277, R300). -/

namespace Sys2Proof.Proofs

open Sys2Proof.Machine Sys2Proof.Safety Sys2Proof.Laws

variable {x t u v c : Word} {f g : Nat → Nat} {i m : Nat}

/-! ## Fields (R269, R270) -/

/-- A field of a time (R270). -/
def timeField (x t : Word) (i : Nat) : Nat := t.toNat / 2 ^ shOff x i % 2 ^ shWidth x i

/-- The number that the first fields of a shape make, each at its place (R270). -/
def placed (x : Word) (f : Nat → Nat) (m : Nat) : Nat := ∑ i ∈ Finset.range m, f i * 2 ^ shOff x i

/-- The time of fields given one by one (R270). -/
def timeOf (x : Word) (f : Nat → Nat) : Word := bv 64 (placed x f (shDepth x + 1))

theorem timeField_lt (x t : Word) (i : Nat) : timeField x t i < 2 ^ shWidth x i := Nat.mod_lt _ (by positivity)

theorem timeFields_eq (x t : Word) : timeFields x t = (List.range (shDepth x + 1)).map (timeField x t) := rfl

theorem ofFields_eq (x : Word) (f : Nat → Nat) : ofFields x ((List.range (shDepth x + 1)).map f) = timeOf x f := by
  have given : ∀ i ∈ List.range (shDepth x + 1), ((List.range (shDepth x + 1)).map f).getD i 0 = f i := fun i mem => by
    simp [List.mem_range.1 mem]
  rw [ofFields, List.map_congr_left fun i mem => congrArg (· * 2 ^ shOff x i) (given i mem)]
  rfl

theorem placed_succ (x : Word) (f : Nat → Nat) (m : Nat) : placed x f (m + 1) = placed x f m + f m * 2 ^ shOff x m :=
  Finset.sum_range_succ _ _

theorem shOff_mono (x : Word) : Monotone (shOff x) := monotone_nat_of_le_succ fun _ => Nat.le_add_right _ _

/-- Fields within their widths stay below the bits of the next (R269). -/
theorem placed_lt (fits : ∀ i, f i < 2 ^ shWidth x i) : ∀ m, placed x f m < 2 ^ shOff x m
  | 0 => Nat.one_pos
  | m + 1 => by
    have top : (f m + 1) * 2 ^ shOff x m ≤ 2 ^ shWidth x m * 2 ^ shOff x m := Nat.mul_le_mul_right _ (fits m)
    have below := placed_lt fits m
    rw [placed_succ, shOff, Nat.pow_add]
    linarith

/-- Fields within their widths are read back one by one (R270). -/
theorem placed_field (fits : ∀ i, f i < 2 ^ shWidth x i) : ∀ m, i < m →
    placed x f m / 2 ^ shOff x i % 2 ^ shWidth x i = f i
  | m + 1, h => by
    rw [placed_succ]
    rcases Nat.lt_succ_iff_lt_or_eq.1 h with low | rfl
    · obtain ⟨k, place⟩ : 2 ^ shWidth x i * 2 ^ shOff x i ∣ 2 ^ shOff x m := by
        rw [← Nat.pow_add, Nat.add_comm]
        exact Nat.pow_dvd_pow 2 (shOff_mono x low)
      have whole : f m * 2 ^ shOff x m = 2 ^ shOff x i * (2 ^ shWidth x i * (f m * k)) := by
        rw [place]
        ring
      rw [whole, Nat.add_mul_div_left _ _ (by positivity), Nat.add_mul_mod_self_left]
      exact placed_field fits m low
    · rw [Nat.add_mul_div_right _ _ (by positivity), Nat.div_eq_of_lt (placed_lt fits i), Nat.zero_add, Nat.mod_eq_of_lt (fits i)]

/-- The first fields of a time make what of it lies below the next (R270). -/
theorem placed_timeField (x t : Word) : ∀ m, placed x (timeField x t) m = t.toNat % 2 ^ shOff x m
  | 0 => (Nat.mod_one _).symm
  | m + 1 => by rw [placed_succ, placed_timeField x t m, shOff, Nat.pow_add, Nat.mod_mul, timeField, Nat.mul_comm]

/-- A time is the number its fields make (R270). -/
theorem toNat_of_isTime (time : isTime x t = true) : t.toNat = placed x (timeField x t) (shDepth x + 1) := by
  rw [placed_timeField, Nat.mod_eq_of_lt (of_decide_eq_true time)]

theorem placed_mono (le : ∀ i < m, f i ≤ g i) : placed x f m ≤ placed x g m :=
  Finset.sum_le_sum fun i mem => Nat.mul_le_mul_right _ (le i (Finset.mem_range.1 mem))

/-! ## Order, joins and meets (R271) -/

theorem timeLe_iff : timeLe x t u = true ↔ ∀ i < shDepth x + 1, timeField x t i ≤ timeField x u i := by
  rw [timeLe, timeFields_eq, timeFields_eq, List.zip_map']
  simp

theorem timeLe_refl (x t : Word) : timeLe x t t = true := timeLe_iff.2 fun _ _ => le_rfl

theorem timeLe_trans (h : timeLe x t u = true) (k : timeLe x u v = true) : timeLe x t v = true :=
  timeLe_iff.2 fun i low => (timeLe_iff.1 h i low).trans (timeLe_iff.1 k i low)

/-- A time below another is no greater a number. -/
theorem toNat_le_of_timeLe (time : isTime x t = true) (time' : isTime x u = true) (le : timeLe x t u = true) :
    t.toNat ≤ u.toNat := by
  rw [toNat_of_isTime time, toNat_of_isTime time']
  exact placed_mono (timeLe_iff.1 le)

theorem timeJoin_eq (x t u : Word) : timeJoin x t u = timeOf x fun i => max (timeField x t i) (timeField x u i) := by
  rw [timeJoin, timeFields_eq, timeFields_eq, List.zipWith_map, List.zipWith_self, ofFields_eq]

theorem timeMeet_eq (x t u : Word) : timeMeet x t u = timeOf x fun i => min (timeField x t i) (timeField x u i) := by
  rw [timeMeet, timeFields_eq, timeFields_eq, List.zipWith_map, List.zipWith_self, ofFields_eq]

section

variable (shape : ShapeFits x)
include shape

theorem toNat_timeOf (fits : ∀ i, f i < 2 ^ shWidth x i) : (timeOf x f).toNat = placed x f (shDepth x + 1) :=
  (BitVec.toNat_ofNat _ _).trans
    (Nat.mod_eq_of_lt ((placed_lt fits _).trans_le (Nat.pow_le_pow_right Nat.two_pos shape)))

theorem isTime_timeOf (fits : ∀ i, f i < 2 ^ shWidth x i) : isTime x (timeOf x f) = true := by
  rw [isTime, toNat_timeOf shape fits]
  exact decide_eq_true (placed_lt fits _)

theorem timeField_timeOf (fits : ∀ i, f i < 2 ^ shWidth x i) (low : i < shDepth x + 1) : timeField x (timeOf x f) i = f i := by
  rw [timeField, toNat_timeOf shape fits, placed_field fits _ low]

theorem timeField_join (t u : Word) (low : i < shDepth x + 1) :
    timeField x (timeJoin x t u) i = max (timeField x t i) (timeField x u i) := by
  rw [timeJoin_eq]
  exact timeField_timeOf shape (fun i => max_lt (timeField_lt x t i) (timeField_lt x u i)) low

theorem timeField_meet (t u : Word) (low : i < shDepth x + 1) :
    timeField x (timeMeet x t u) i = min (timeField x t i) (timeField x u i) := by
  rw [timeMeet_eq]
  exact timeField_timeOf shape (fun i => min_lt_of_left_lt (timeField_lt x t i)) low

theorem isTime_meet (t u : Word) : isTime x (timeMeet x t u) = true := by
  rw [timeMeet_eq]
  exact isTime_timeOf shape fun i => min_lt_of_left_lt (timeField_lt x t i)

theorem join_le_iff : timeLe x (timeJoin x t u) v = true ↔ timeLe x t v = true ∧ timeLe x u v = true := by
  simp only [timeLe_iff, ← forall₂_and]
  exact forall₂_congr fun i low => by rw [timeField_join shape t u low, max_le_iff]

theorem le_meet_iff : timeLe x v (timeMeet x t u) = true ↔ timeLe x v t = true ∧ timeLe x v u = true := by
  simp only [timeLe_iff, ← forall₂_and]
  exact forall₂_congr fun i low => by rw [timeField_meet shape t u low, le_min_iff]

theorem le_join (t u : Word) : timeLe x t (timeJoin x t u) = true ∧ timeLe x u (timeJoin x t u) = true :=
  (join_le_iff shape).1 (timeLe_refl x _)

theorem meet_le (t u : Word) : timeLe x (timeMeet x t u) t = true ∧ timeLe x (timeMeet x t u) u = true :=
  (le_meet_iff shape).1 (timeLe_refl x _)

/-! ## Times advanced (R300) -/

/-- The meet of times is at or above whatever all of them are. -/
theorem le_foldMeet_iff (e : Word → Word) : ∀ (ds : List Word) (a : Word),
    timeLe x v (ds.foldl (fun b d => timeMeet x b (e d)) a) = true ↔ timeLe x v a = true ∧ ∀ d ∈ ds, timeLe x v (e d) = true
  | [], a => by simp
  | d :: ds, a => by
    rw [List.foldl_cons, le_foldMeet_iff e ds, le_meet_iff shape, List.forall_mem_cons, and_assoc]

/-- A meet of times is one, and at or below each of them. -/
theorem foldMeet_le (us : List Word) (u : Word) : ∀ d ∈ u :: us, timeLe x (us.foldl (timeMeet x) u) d = true :=
  List.forall_mem_cons.2 ((le_foldMeet_iff shape id us u).1 (timeLe_refl x _))

theorem isTime_foldMeet : ∀ (us : List Word) {u : Word}, isTime x u = true → isTime x (us.foldl (timeMeet x) u) = true
  | [], _, time => time
  | d :: us, u, _ => isTime_foldMeet us (isTime_meet shape u d)

theorem le_advance (t : Word) (fr : List Word) : timeLe x t (advance x t fr) = true := by
  cases fr with
  | nil => exact timeLe_refl x t
  | cons c cs => exact (le_foldMeet_iff shape _ cs _).2 ⟨(le_join shape t c).1, fun d _ => (le_join shape t d).1⟩

theorem advance_le_join {fr : List Word} (mem : c ∈ fr) : timeLe x (advance x t fr) (timeJoin x t c) = true := by
  cases fr with
  | nil => cases mem
  | cons c₀ cs =>
    obtain ⟨first, rest⟩ := (le_foldMeet_iff shape (timeJoin x t) cs (timeJoin x t c₀)).1 (timeLe_refl x _)
    exact (List.mem_cons.1 mem).elim (fun e => e ▸ first) (rest c)

/-- Advancing a time changes its order to no time at or after an element of the frontier (R300). -/
theorem advance_le_iff {fr : List Word} (mem : c ∈ fr) (after : timeLe x c u = true) :
    timeLe x (advance x t fr) u = true ↔ timeLe x t u = true :=
  ⟨timeLe_trans (le_advance shape t fr), fun le => timeLe_trans (advance_le_join shape mem) ((join_le_iff shape).2 ⟨le, after⟩)⟩

end

/-! ## Minimal elements (R272) -/

theorem mem_ascend {a v : Word} : ∀ {l : List Word}, a ∈ ascend v l ↔ a = v ∨ a ∈ l
  | [] => by simp [ascend]
  | u :: l => by
    unfold ascend
    split
    · exact List.mem_cons
    · split
      · next same => simp [same]
      · rw [List.mem_cons, mem_ascend, List.mem_cons]
        tauto

theorem mem_ascending {a : Word} : ∀ {ts : List Word}, a ∈ ts.foldr ascend [] ↔ a ∈ ts
  | [] => Iff.rfl
  | t :: ts => by rw [List.foldr_cons, mem_ascend, mem_ascending, List.mem_cons]

theorem length_ascend_le (v : Word) : ∀ l : List Word, (ascend v l).length ≤ l.length + 1
  | [] => le_rfl
  | u :: l => by
    unfold ascend
    split
    · exact le_rfl
    · split
      · exact Nat.le_succ _
      · exact Nat.succ_le_succ (length_ascend_le v l)

theorem length_minimal_le (x : Word) (ts : List Word) : (minimal x ts).length ≤ ts.length := by
  have ascending : ∀ ts : List Word, (ts.foldr ascend []).length ≤ ts.length := fun ts => by
    induction ts with
    | nil => exact le_rfl
    | cons t ts ih => exact (length_ascend_le t _).trans (Nat.succ_le_succ ih)
  exact (List.length_filter_le _ _).trans (ascending ts)

/-- A time is minimal among times where no other of them is at or below it (R272). -/
theorem mem_minimal {ts : List Word} : t ∈ minimal x ts ↔ t ∈ ts ∧ ∀ u ∈ ts, timeLe x u t = true → u = t := by
  simp only [minimal, List.mem_filter, mem_ascending, Bool.not_eq_true', List.any_eq_false, Bool.and_eq_true, bne_iff_ne, ne_eq,
    not_and']
  exact and_congr_right fun _ => forall₂_congr fun u _ => forall_congr' fun _ => not_not

/-- Some minimal time is at or below each (R272). -/
theorem exists_minimal {ts : List Word} (times : ∀ t ∈ ts, isTime x t = true) (mem : t ∈ ts) :
    ∃ f ∈ minimal x ts, timeLe x f t = true := by
  induction h : t.toNat using Nat.strong_induction_on generalizing t with
  | _ n ih =>
    by_cases least : ∀ u ∈ ts, timeLe x u t = true → u = t
    · exact ⟨t, mem_minimal.2 ⟨mem, least⟩, timeLe_refl x t⟩
    · push Not at least
      obtain ⟨u, mem', le, other⟩ := least
      have less : u.toNat < n := h ▸ lt_of_le_of_ne (toNat_le_of_timeLe (times u mem') (times t mem) le)
        (fun same => other (BitVec.eq_of_toNat_eq same))
      obtain ⟨f, minimal, below⟩ := ih u.toNat less mem' rfl
      exact ⟨f, minimal, timeLe_trans below le⟩

/-! ## Narrowed frontiers (R277) -/

/-- A narrowed frontier holds the minimal times, or the minimal ones of three of them and the meet of the others (R277). -/
theorem narrow_cases (x : Word) (ts : List Word) : narrow x ts = minimal x ts ∧ (minimal x ts).length ≤ 4 ∨
    ∃ u us, (minimal x ts).drop 3 = u :: us ∧ narrow x ts = minimal x ((minimal x ts).take 3 ++ [us.foldl (timeMeet x) u]) := by
  unfold narrow
  dsimp only
  split
  · next few => exact .inl ⟨rfl, few⟩
  · next many =>
    split
    · next none_ =>
      rw [List.drop_eq_nil_iff] at none_
      exact absurd (none_.trans (by decide)) many
    · next u us some_ => exact .inr ⟨u, us, some_, rfl⟩

theorem length_narrow_le (x : Word) (ts : List Word) : (narrow x ts).length ≤ 4 := by
  rcases narrow_cases x ts with ⟨same, few⟩ | ⟨u, us, -, made⟩
  · exact same ▸ few
  · rw [made]
    refine (length_minimal_le _ _).trans ?_
    rw [List.length_append]
    exact Nat.add_le_add_right (List.length_take_le _ _) 1

/-- No element of a narrowed frontier is at or below another (R272, R277). -/
theorem narrow_antichain {ts : List Word} {e f : Word} (memf : f ∈ narrow x ts) (meme : e ∈ narrow x ts)
    (le : timeLe x f e = true) :
    f = e := by
  obtain ⟨us, minimal_⟩ : ∃ us, narrow x ts = minimal x us :=
    (narrow_cases x ts).elim (fun ⟨same, _⟩ => ⟨ts, same⟩) fun ⟨_, _, _, made⟩ => ⟨_, made⟩
  rw [minimal_] at memf meme
  exact (mem_minimal.1 meme).2 f (mem_minimal.1 memf).1 le

/-- The first three of some times and the meet of the others have one at or below each (R277). -/
theorem exists_merged_le {ms us : List Word} (shape : ShapeFits x) (rest : ms.drop 3 = u :: us) (mem : t ∈ ms) :
    ∃ a ∈ ms.take 3 ++ [us.foldl (timeMeet x) u], timeLe x a t = true := by
  rw [← List.take_append_drop 3 ms, List.mem_append, rest] at mem
  rcases mem with first | other
  · exact ⟨t, List.mem_append_left _ first, timeLe_refl x t⟩
  · exact ⟨_, List.mem_append_right _ (List.mem_singleton_self _), foldMeet_le shape us u t other⟩

theorem isTime_merged {ms us : List Word} (shape : ShapeFits x) (times : ∀ t ∈ ms, isTime x t = true) (rest : ms.drop 3 = u :: us) :
    ∀ t ∈ ms.take 3 ++ [us.foldl (timeMeet x) u], isTime x t = true := by
  have other : u ∈ ms := List.mem_of_mem_drop (rest ▸ List.mem_cons_self)
  refine fun t mem => (List.mem_append.1 mem).elim (fun first => times t (List.mem_of_mem_take first)) fun merged => ?_
  rw [List.mem_singleton.1 merged]
  exact isTime_foldMeet shape us (times u other)

/-- An element of a narrowed frontier is at or below each of its times (R277). -/
theorem exists_narrow_le {ts : List Word} (shape : ShapeFits x) (times : ∀ t ∈ ts, isTime x t = true) (mem : t ∈ ts) :
    ∃ f ∈ narrow x ts, timeLe x f t = true := by
  obtain ⟨m, least, below⟩ := exists_minimal times mem
  rcases narrow_cases x ts with ⟨same, -⟩ | ⟨u, us, rest, made⟩
  · exact ⟨m, same ▸ least, below⟩
  · obtain ⟨a, mem', le⟩ := exists_merged_le shape rest least
    obtain ⟨f, memf, le'⟩ := exists_minimal (isTime_merged shape (fun t mem => times t (mem_minimal.1 mem).1) rest) mem'
    exact ⟨f, made ▸ memf, timeLe_trans le' (timeLe_trans le below)⟩

theorem complete_of_narrow {ts : List Word} (shape : ShapeFits x) (times : ∀ t ∈ ts, isTime x t = true)
    (done : complete x (narrow x ts) t = true) : complete x ts t = true := by
  refine complete_iff.2 fun f mem => Bool.eq_false_iff.2 fun le => ?_
  obtain ⟨g, memg, below⟩ := exists_narrow_le shape times mem
  exact Bool.eq_false_iff.1 (complete_iff.1 done g memg) (timeLe_trans below le)

end Sys2Proof.Proofs
end

section
/-! The statement on probes, frontiers, their copies and the order of times (R271, R272, R277, R278, R285, R300). -/

namespace Sys2Proof.Proofs

open Sys2Proof.Machine Sys2Proof.Safety Sys2Proof.Laws

/-- A unit's copy takes the root's frontier in one step, and a watching probe of the cell has that change to report (R278, R285). -/
theorem copies_follow (s : State) (r k sc u : Nat) (bound : (regionOf s r).bound k = some sc)
    (still : (regionOf s r).freezing = none) :
    let fr := Tbl.getD (regionOf s r).rootF sc []
    (∃ t, exec (.frontierDelivery r k true u) s = .next t ∧
      CopyTakes fr (copyAt (cellOf s u).fcopies k) (copyAt (cellOf t u).fcopies k) ∧ t.mem = s.mem ∧ t.cores = s.cores ∧
      ∀ n < 1024, (copyAt (cellOf s u).fcopies k).elems ≠ fr → nOpc ((cellOf s u).node n) = 0x3A →
        osb0 ((cellOf s u).node n) = true → (nLit ((cellOf s u).node n)).toNat % 32 = k →
        copyAt (cellOf t u).fcopies k ∈ (cellOf t u).unreported n) ∧
    ∃ t, exec (.frontierDelivery r k false u) s = .next t ∧ CopyTakes fr (copyOf s u k) (copyOf t u k) ∧ t.mem = s.mem ∧
      t.cells = s.cells ∧ (coreOf t u).regs = (coreOf s u).regs := by
  obtain ⟨t, runs, mem, cores, cell⟩ := delivery_cell bound still u
  obtain ⟨t', slots, runs', mem', cells, core⟩ := delivery_core bound still u
  refine ⟨⟨t, runs, ?_, mem, cores, ?_⟩, t', runs', ?_, mem', cells, ?_⟩
  · rw [cell]
    exact copyTakes_cell k _ _
  · rw [cell]
    exact fun n low changes opc watches slot => cellTaking_unreported low changes opc watches slot
  · rw [copyOf, copyOf, core]
    exact copyTakes_core k _ _
  · rw [core]
    rfl

/-- Settles O36: the steps of probes, frontiers and copies, then the lattice of times, frontiers narrowed and times advanced. -/
theorem probesAndTimes : Obligations.ProbesAndTimes := by
  refine ⟨⟨fun _ _ _ => dprobe_sends, fun _ _ _ _ _ goes due room => dprobeWatch_leaves goes due room,
      fun _ _ _ => recompute_leaves, fun s r k sc u bound still => copies_follow s r k sc u bound still⟩,
    fun _ t u _ shape _ _ => ⟨(le_join shape t u).1, (le_join shape t u).2, (meet_le shape t u).1, (meet_le shape t u).2,
      fun le le' => (join_le_iff shape).2 ⟨le, le'⟩, fun le le' => (le_meet_iff shape).2 ⟨le, le'⟩⟩,
    fun x ts shape times => ⟨length_narrow_le x ts, fun _ mem => exists_narrow_le shape times mem,
      fun _ memf _ meme => narrow_antichain memf meme, fun _ => complete_of_narrow shape times⟩,
    fun _ _ _ _ _ shape _ _ mem after => Bool.eq_iff_iff.2 (advance_le_iff shape mem after)⟩

end Sys2Proof.Proofs
end
